-- ==== Sys2Proof/Word.lean ====
section
/-! DEFINITION. Word.lean: the word types of the Cramir CX and the sparse table type that holds large
arrays of them (R2, R63).  Nothing here computes; the operations stand in Machine/Tab.lean. -/

namespace Sys2Proof

/-- One byte. -/
abbrev Byte := BitVec 8

/-- One lane word, scalar register, mask or special register (R126). -/
abbrev W32 := BitVec 32

/-- One instruction word, address or 64-bit value (R39, R63). -/
abbrev W64 := BitVec 64

/-- One 128-byte line; byte k is bits [8k + 7 : 8k] (R2, R12). -/
abbrev Line := BitVec 1024

/-- A 128-bit byte mask of a line, bit k for byte k (R350, R358). -/
abbrev LineMask := BitVec 128

/-- A sparse table: keys strictly rising, no entry equal to what an unlisted key reads as. -/
abbrev Tab (α : Type) := List (Nat × α)

/-- A set of numbers: strictly rising. -/
abbrev NatSet := List Nat

end Sys2Proof
end

