-- ==== Sys2Proof/Syntax.lean ====
section
/-! DEFINITION. Syntax.lean: the instructions and the other steps of the Cramir CX, one constructor of
Instr for each row of spec/opcode_table.json.  An instruction word carries the fields its format gives it
(R39-R46 and the engine chapters); a step that is no word carries the operands that say which unit,
message or register it concerns. -/

namespace Sys2Proof

/-- The type codes of R41. -/
inductive Ty
  | i8 | i16 | i32 | i64 | n8 | n16 | n32 | n64 | b32 | f16 | bf16 | f32 | f64 | t8 | t6
deriving DecidableEq, Repr

/-- The rounding modifiers of R39. -/
inductive Rnd
  | rn | rz | ru | rd
deriving DecidableEq, Repr

/-- A source of the generic format with its kind (R40). -/
inductive Src
  /-- Kind 0b00: a register of the family's own file. -/
  | reg (n : BitVec 8)
  /-- Kind 0b01: a scalar register. -/
  | sca (n : BitVec 8)
  /-- Kind 0b10: inline constant 0-63 (R47). -/
  | con (n : BitVec 6)
deriving DecidableEq, Repr

/-- The generic format (R39). -/
structure Gen where
  sw : Bool
  pred : BitVec 3
  d : BitVec 8
  a : Src
  b : Src
  c : Src
  ty : Ty
  rnd : Rnd
  sat : Bool
  sub : BitVec 7
deriving DecidableEq, Repr

/-- The immediate format (R43). -/
structure Imm where
  sw : Bool
  pred : BitVec 3
  d : BitVec 8
  a : BitVec 8
  sub : BitVec 4
  imm : W32
deriving DecidableEq, Repr

/-- The branch format (R44): `fld` is bits [51:36] and `cond` bits [35:32]. -/
structure Bra where
  sw : Bool
  pred : BitVec 3
  fld : BitVec 16
  cond : BitVec 4
  target : W32
deriving DecidableEq, Repr

/-- Orderings of R50. -/
inductive Ord
  | none | acq | rel | acqrel
deriving DecidableEq, Repr

/-- Scopes of R50, from narrowest to widest. -/
inductive Scope
  | lane | block | crew | die | pkg | sys
deriving DecidableEq, Repr

/-- Address spaces of R50. -/
inductive Space
  | global | scratch | window | column | cshared | const | tile
deriving DecidableEq, Repr

/-- Cache policies of R50. -/
inductive Cache
  | norm | stream | noalloc | lastuse
deriving DecidableEq, Repr

/-- LAYER codes of R50. -/
inductive Layer
  | none | lwait | lhold | lboth
deriving DecidableEq, Repr

/-- The memory modifier prefix (R49); a field of code 0 is `none` here and comes from MEMDEF. -/
structure Pfx where
  ord : Option Ord
  scope : Option Scope
  space : Option Space
  cache : Option Cache
  layer : Layer
deriving DecidableEq, Repr

/-- The memory format (R45), with the prefix that precedes it, if any. -/
structure Mem where
  pfx : Option Pfx
  sw : Bool
  pred : BitVec 3
  data : BitVec 8
  base : BitVec 8
  index : BitVec 8
  ty : BitVec 4
  off : BitVec 24
deriving DecidableEq, Repr

/-- The extension word of ATOM (R226). -/
structure AtomExt where
  ret : BitVec 8
  op : BitVec 4
  rnd : Rnd
deriving DecidableEq, Repr

/-- The extension word of ATOMCAS (R227). -/
structure CasExt where
  ret : BitVec 8
  cmp : BitVec 8
deriving DecidableEq, Repr

/-- The extension word of MWAIT (R229). -/
structure MwExt where
  cmp : BitVec 8
  tmo : BitVec 8
  m : BitVec 3
  cond : BitVec 4
deriving DecidableEq, Repr

/-- One or two extension words of VEXPR, as their 56 token bits (R203). -/
structure ExprExt where
  w0 : BitVec 56
  w1 : Option (BitVec 56)
deriving DecidableEq, Repr

/-- The crew format (R251). -/
structure Crw where
  sw : Bool
  d : BitVec 8
  h : BitVec 8
  b : BitVec 8
  opt : BitVec 4
deriving DecidableEq, Repr

/-- The copy format with its extension word (R271). -/
structure Cpy where
  sw : Bool
  tok : BitVec 8
  sd : BitVec 8
  dd : BitVec 8
  sl : BitVec 8
  h : BitVec 8
  mem : Bool
  rid : BitVec 16
  sta : BitVec 8
  stv : BitVec 8
deriving DecidableEq, Repr

/-- The format of BSEAL, BWAIT, BQUERY and BCANCEL (R281). -/
structure Bat where
  sw : Bool
  d : BitVec 8
  a : BitVec 8
  k : BitVec 4
deriving DecidableEq, Repr

/-- The matrix format (R297). -/
structure Mtx where
  sw : Bool
  pred : BitVec 3
  d : BitVec 8
  a : BitVec 8
  b : BitVec 8
  c : BitVec 8
  ty : BitVec 4
  rnd : Rnd
  opt : BitVec 6
  n : BitVec 8
deriving DecidableEq, Repr

/-- The queue format (R328). -/
structure Que where
  sw : Bool
  pred : BitVec 3
  d : BitVec 8
  a : BitVec 8
  q : BitVec 4
deriving DecidableEq, Repr

/-- The two path slots of a warp (R23). -/
inductive Slot
  | a | b
deriving DecidableEq, Repr

/-- The pages of registers that a plain register write reaches (R337, R366, R372). -/
inductive RegPage
  /-- Scheduler page of a partition. -/
  | sched (part : Nat)
  /-- Column-link page of a cluster pair. -/
  | link (pair : Nat)
  /-- RDCARVE of a chiplet site. -/
  | carve (site : Nat)
  /-- Function 0, the management function. -/
  | mgmt
deriving DecidableEq, Repr

/-- Who issues a key or partition operation (R415). -/
inductive Issuer
  | management
  /-- A secure session, named by its number. -/
  | session (n : Nat)
deriving DecidableEq, Repr

/-- What flash, fuses and the self-tests give a start (R418, R419). -/
structure StartIn where
  imagePresent : Bool
  sigValid : Bool
  versionOk : Bool
  baseDieOk : Bool
  hbmOk : Bool
  /-- Bit c: logical chiplet c passes self-test. -/
  chipletsOk : BitVec 8
  /-- Partitions (n, k) of the configuration. -/
  parts : List (Nat × Nat)
  /-- Agents (a, p) of the configuration. -/
  agents : List (Nat × Nat)
  /-- This package's agent number (R413). -/
  agent : Nat
  /-- Step 8 is reached. -/
  ready : Bool
  /-- The host link trains in CXL mode (R407). -/
  cxl : Bool := true
deriving DecidableEq, Repr

/-- The four window registers of R363, as WIN_SET carries them. -/
structure WinRegs where
  base : W64
  store : W64
  scale : W64
  ctl : W64
deriving DecidableEq, Repr

/-- One SPDM request's variable part (R416): the session it comes in, its nonce or slot. -/
structure SpdmReq where
  session : Nat
  arg : Nat
deriving DecidableEq, Repr

/-- Every row of spec/opcode_table.json. -/
inductive Instr
  -- scalar (R153)
  | sadd (g : Gen) | ssub (g : Gen) | smul (g : Gen) | smulhi (g : Gen) | smin (g : Gen) | smax (g : Gen)
  | sand (g : Gen) | sor (g : Gen) | sxor (g : Gen) | snot (g : Gen) | sshl (g : Gen) | sshr (g : Gen)
  | ssar (g : Gen) | sbfe (g : Gen) | spopc (g : Gen) | sclz (g : Gen) | scmp (g : Gen) | ssel (g : Gen)
  | smov (g : Gen) | smovi (m : Imm) | sadd64 (g : Gen) | sldk (m : Imm)
  -- mask (R157)
  | mset (g : Gen) | mget (g : Gen) | mand (g : Gen) | mor (g : Gen) | mxor (g : Gen) | mandn (g : Gen)
  | mpop (g : Gen) | mfind (g : Gen)
  -- control (R159)
  | bra (b : Bra) | brc (b : Bra) | brd (b : Bra) | reconv (g : Gen) | jmpi (g : Gen) | call (b : Bra)
  | ret (g : Gen) | exit (g : Gen) | spawn (g : Gen) | yield (g : Gen) | nop (g : Gen) | waitcnt (g : Gen)
  | sleep (g : Gen) | trap (g : Gen) | tret (g : Gen) | sigchk (m : Imm) | sigrst (g : Gen)
  | sread (g : Gen) | swrite (g : Gen) | reggrow (g : Gen) | regshrink (g : Gen)
  -- vector integer (R187)
  | vadd (g : Gen) | vsub (g : Gen) | vmul (g : Gen) | vmulhi (g : Gen) | vmad (g : Gen) | vaddc (g : Gen)
  | vadd64 (g : Gen) | vmin (g : Gen) | vmax (g : Gen) | vabs (g : Gen) | vand (g : Gen) | vor (g : Gen)
  | vxor (g : Gen) | vnot (g : Gen) | vshl (g : Gen) | vshr (g : Gen) | vsar (g : Gen) | vbfe (g : Gen)
  | vbfi (g : Gen) | vpopc (g : Gen) | vclz (g : Gen) | vbrev (g : Gen) | vperm (g : Gen) | vcmp (g : Gen)
  | vsel (g : Gen) | vmov (g : Gen) | vmovi (m : Imm) | vsadd (g : Gen)
  -- vector float (R193)
  | vfadd (g : Gen) | vfsub (g : Gen) | vfmul (g : Gen) | vfma (g : Gen) | vfmin (g : Gen) | vfmax (g : Gen)
  | vfcmp (g : Gen) | vfclass (g : Gen) | vfrnd (g : Gen) | vfdiv (g : Gen) | vsfu (g : Gen) | vcvt (g : Gen)
  | vexpr (g : Gen) (x : ExprExt) | vh2add (g : Gen) | vh2mul (g : Gen) | vh2fma (g : Gen) | vdot2 (g : Gen)
  | vdadd (g : Gen) | vdmul (g : Gen) | vdfma (g : Gen)
  -- cross-lane (R207)
  | vote (g : Gen) | shfl (g : Gen) | vred (g : Gen) | vscan (g : Gen) | matchl (g : Gen) | v2s (g : Gen)
  | s2v (g : Gen) | vcompact (g : Gen)
  -- memory (R215)
  | vld (m : Mem) | vst (m : Mem) | vldx (m : Mem) | vstx (m : Mem) | sld (m : Mem) | sst (m : Mem)
  | atom (m : Mem) (x : AtomExt) | atomcas (m : Mem) (x : CasExt) | mwait (m : Mem) (x : MwExt)
  | fence (m : Mem) | acq (m : Mem) | rel (m : Mem) | bind (m : Mem) | bindt (m : Mem) | unbind (m : Mem)
  | cinv (m : Mem) | cwb (m : Mem) | cpref (m : Mem) | alloc (m : Mem) | free (m : Mem)
  -- crew (R252)
  | crnew (w : Crw) | crjoin (w : Crw) | crleave (w : Crw) | crsync (w : Crw) | crarrive (w : Crw)
  | crwait (w : Crw) | crquery (w : Crw) | crmap (w : Crw)
  -- copy (R271, R281)
  | bcopy (w : Cpy) | bcopyc (w : Cpy) | bseal (w : Bat) | bwait (w : Bat) | bquery (w : Bat)
  | bcancel (w : Bat)
  -- matrix (R297)
  | tclaim (w : Mtx) | trel (w : Mtx) | tload (w : Mtx) | tloads (w : Mtx) | mma (w : Mtx) | mmasp (w : Mtx)
  | mloop (w : Mtx) | mdist (w : Mtx) | mtopk (w : Mtx) | czero (w : Mtx) | cload (w : Mtx)
  | cstore (w : Mtx) | cpop (w : Mtx) | msync (w : Mtx)
  -- queue and column (R328)
  | qpush (w : Que) | qpop (w : Que) | qpeek (w : Que) | qcount (w : Que)
  -- system (R181)
  | brk (g : Gen) | pmread (g : Gen) | qpost (g : Gen)
  -- steps of a warp and a core that are no words
  | clauseFetch
  | crossLaneRelease (core warp : Nat) (slot : Slot)
  | sleepDeadline (core warp : Nat) (slot : Slot)
  | mwaitRetest (core warp : Nat) (slot : Slot)
  | mwaitTimeout (core warp : Nat) (slot : Slot)
  | reggrowGrant (core : Nat)
  | activeSetEvict (core warp : Nat)
  | passedOverLimit (core warp : Nat)
  | contextSave (core reason : Nat)
  | contextRestore (core index : Nat)
  | priorityPreempt (core part queue : Nat)
  -- crews and copies
  | barrierMessage (chiplet : Nat)
  | barrierRelease (core : Nat)
  | crewRecordError (handle : Nat)
  | copyStart (engine : Nat)
  | copyComplete (copy : Nat)
  | copyEngineFail (engine : Nat)
  -- matrix engine, column link
  | enginePerform (core : Nat)
  | transitPlace (core : Nat)
  | vbusCheckFail (column : Nat)
  | laneRepair (column : Nat)
  | busThaw (column : Nat)
  | busFail (column : Nat)
  | gateRequest (pair : Nat)
  | gatePowerOn (pair : Nat)
  | migrate (pair position : Nat)
  | migrationDrainTimeout (pair position : Nat)
  | columnRemap (pair position : Nat)
  | storecfgWrite (core : Nat) (l1ways : BitVec 2)
  | registerWrite (page : RegPage) (offset : Nat) (value : W64)
  -- homes
  | rds (agent line : Nat) | rdx (agent line : Nat) | upg (agent line : Nat)
  | wbd (agent line : Nat) (data : Line) | wbc (agent line : Nat)
  | rdu (agent line : Nat) | wru (agent line : Nat) (data : Line) (mask : LineMask)
  | lr (port line : Nat) | lw (port line : Nat)
  | dramFetchDone (slice line : Nat)
  | rspi (agent line : Nat) | rsps (agent line : Nat) (data : Line)
  | rspod (agent line : Nat) (data : Line) | rspid (agent line : Nat) (data : Line)
  | snps (line : Nat) | snpi (line : Nat)
  | datas (line : Nat) (data : Line) | datae (line : Nat) (data : Line) | datam (line : Nat) (data : Line)
  | gntm (line : Nat) | wback (line : Nat) | datau (line : Nat) (data : Line) | nocache (line : Nat)
  | err (line : Nat)
  | sliceGate (slice : Nat) | sliceWake (slice : Nat)
  | dramCorrectable (channel position : Nat)
  | dramUncorrectable (line : Nat) (sectors : BitVec 4)
  | patrolScrub (line : Nat) (bad : BitVec 4)
  | glazeLost (line : Nat)
  | sliceCorrectable (slice line : Nat)
  | sliceDataUncorrectable (slice line : Nat) (sectors : BitVec 4)
  | sliceTagUncorrectable (slice : Nat)
  | snoopTimeout (agent line : Nat)
  -- scheduling engine
  | queueEnable (part queue : Nat) | queueDisable (part queue : Nat) | queueClearFault (part queue : Nat)
  | drvrespReplay (part ctxid core warp : Nat) | drvrespResume (part ctxid core warp : Nat)
  | drvrespFail (part ctxid core warp : Nat)
  | tlbinv (part ctxid : Nat) | tlbinvDone (part : Nat)
  | slotAccept (part queue : Nat)
  | launch (part queue index : Nat) | link (part queue index : Nat) | proofed (part queue index : Nat)
  | copy (part queue index : Nat) | signal (part queue index : Nat) | wait (part queue index : Nat)
  | marker (part queue index : Nat) | nopCmd (part queue index : Nat)
  | waitMet (part queue index : Nat) | waitTimeout (part queue index : Nat)
  | priorityAge (part queue : Nat)
  | schedulerTakeover
  | blockSend (launch site leaf : Nat) | steal (launch site : Nat) | blockPlace (leaf : Nat)
  | leafTakeover (leaf : Nat)
  | shapeResolve (launch : Nat) | shapeTimeout (launch : Nat)
  -- device
  | chipletFence (chiplet : Nat) | chipletReset (chiplet : Nat) | saveDeadline (core : Nat)
  | chipletDrop (chiplet : Nat) | clockChange (mhz : Nat)
  | partCreate (by_ : Issuer) (n k : Nat) | partDestroy (by_ : Issuer) (part : Nat)
  | agentAssign (by_ : Issuer) (agent part : Nat)
  | winSet (by_ : Issuer) (window : Nat) (regs : WinRegs)
  | winSeal (by_ : Issuer) (window state : Nat)
  | keyBind (by_ : Issuer) (part slot : Nat) (wrapped : BitVec 576) (digest : BitVec 256)
  | keyClear (by_ : Issuer) (slot : Nat)
  | getVersion (r : SpdmReq) | getCapabilities (r : SpdmReq) | negotiateAlgorithms (r : SpdmReq)
  | getDigests (r : SpdmReq) | getCertificate (r : SpdmReq) | challenge (r : SpdmReq)
  | getMeasurements (r : SpdmReq) | keyExchange (r : SpdmReq) | finish (r : SpdmReq)
  | heartbeat (r : SpdmReq) | keyUpdate (r : SpdmReq) | endSession (r : SpdmReq)
  | vendorDefinedRequest (r : SpdmReq)
  | ideKm (session stream : Nat) | ideIntegrityFail (stream : Nat)
  | hostAccess (part : Nat) (write : Bool) (addr : Nat) (bytes : List Byte)
  | flitCrcFail (port : Nat) | portFail (port : Nat) | linkTrain (port agent : Nat)
  | coldPowerOn (x : StartIn) | warmReset (x : StartIn) | watchdog (x : StartIn)
  | startTimeout (x : StartIn) | failsWindowExpire | imageUpdate (ok : Bool) (x : StartIn)
  | schedulerDoubleFail (x : StartIn) | unsparedBaseDieError (x : StartIn)
  | chipletReinitialised (chiplet : Nat) (passes : Bool)
deriving DecidableEq, Repr

end Sys2Proof
end

