-- ==== Sys2Proof/WellFormed.lean ====
section
/-! DEFINITION. WellFormed.lean: the static checks of every instruction, those that need no machine state
(R39-R46, R152, R184, R207, R215, R251, R271, R281, R297, R328).  A word that fails one traps UNDEF at
issue (R36); the decoder yields well-formed instructions only. -/

namespace Sys2Proof

/-- The width of a type in bits when it is 64 (R63). -/
def Ty.is64 : Ty → Bool
  | .i64 | .n64 | .f64 => true
  | _ => false

/-- The IEEE types, which may carry a rounding modifier (R41). -/
def Ty.isFloat : Ty → Bool
  | .f16 | .bf16 | .f32 | .f64 => true
  | _ => false

/-- The integer types. -/
def Ty.isInt : Ty → Bool
  | .i8 | .i16 | .i32 | .i64 | .n8 | .n16 | .n32 | .n64 => true
  | _ => false

/-- The size of one value of a type in memory, in bytes (R222). -/
def Ty.bytes : Ty → Nat
  | .i8 | .n8 | .t8 | .t6 => 1
  | .i16 | .n16 | .f16 | .bf16 => 2
  | .i64 | .n64 | .f64 => 8
  | .i32 | .n32 | .b32 | .f32 => 4

/-- The type that a code of R41 names; 0xF is reserved. -/
def Ty.ofCode : Nat → Option Ty
  | 0 => some .i8 | 1 => some .i16 | 2 => some .i32 | 3 => some .i64
  | 4 => some .n8 | 5 => some .n16 | 6 => some .n32 | 7 => some .n64
  | 8 => some .b32 | 9 => some .f16 | 10 => some .bf16 | 11 => some .f32
  | 12 => some .f64 | 13 => some .t8 | 14 => some .t6 | _ => none

/-- Destination kinds. -/
inductive DK
  /-- Unused: zero. -/
  | none
  /-- A vector register. -/
  | v
  /-- A vector register, even when the type is 64 bits wide. -/
  | vT
  /-- An even vector register. -/
  | v64
  /-- A scalar register. -/
  | s
  /-- An even scalar register. -/
  | s64
  /-- A mask register m1-m7 (R127). -/
  | m
  /-- Checked by the form's own rule. -/
  | own
deriving DecidableEq, Repr

/-- Source kinds. -/
inductive SK
  | none
  /-- A source of the family, 32 bits wide. -/
  | src
  /-- A source of the family of the type's width. -/
  | srcT
  /-- A 64-bit source of the family. -/
  | src64
  /-- A scalar register, kind 0b00. -/
  | sca
  /-- An even scalar register, kind 0b00. -/
  | sca64
  /-- A scalar register or a constant. -/
  | scaCon
  /-- A mask register m0-m7, kind 0b00. -/
  | msk
  /-- A mask register m1-m7, kind 0b00. -/
  | msk1
  /-- A mask register or a constant (R157). -/
  | mskCon
  /-- A scalar register of kind 0b01 or a constant (S2V). -/
  | sca01
  /-- A lane: kind 0b01, or a constant 0-31 (V2S, S2V). -/
  | lane
  /-- A plain number up to the bound, kind zero. -/
  | num (hi : Nat)
  | own
deriving DecidableEq, Repr

/-- The families that share field rules. -/
inductive Fam
  | scalar | control | vector
deriving DecidableEq, Repr

/-- What a form of the generic format admits. -/
structure Sig where
  fam : Fam
  d : DK := .none
  a : SK := .none
  b : SK := .none
  c : SK := .none
  /-- Types listed by the form; a form of fixed type lists code 0 only (R41). -/
  tys : List Ty := [.i8]
  rnd : Bool := false
  sat : Bool := false
  /-- Largest value of SUB. -/
  sub : Nat := 0

def DK.ok (k : DK) (ty : Ty) (d : BitVec 8) : Bool :=
  match k with
  | .none => d == 0
  | .v => true
  | .vT => !ty.is64 || d.toNat % 2 == 0
  | .v64 => d.toNat % 2 == 0
  | .s => d.toNat < 64
  | .s64 => d.toNat < 64 && d.toNat % 2 == 0
  | .m => 1 ≤ d.toNat && d.toNat < 8
  | .own => true

/-- A source of a family's own file; `wide` when it is 64 bits wide (R40). -/
def Src.okIn (f : Fam) (wide : Bool) : Src → Bool
  | .reg n => (f == .vector || n.toNat < 64) && (!wide || n.toNat % 2 == 0)
  | .sca n => f == .vector && n.toNat < 64 && (!wide || n.toNat % 2 == 0)
  | .con _ => true

def SK.ok (k : SK) (f : Fam) (ty : Ty) (x : Src) : Bool :=
  match k, x with
  | .none, .reg n => n == 0
  | .src, x => x.okIn f false
  | .srcT, x => x.okIn f ty.is64
  | .src64, x => x.okIn f true
  | .sca, .reg n => n.toNat < 64
  | .sca64, .reg n => n.toNat < 64 && n.toNat % 2 == 0
  | .scaCon, .reg n => n.toNat < 64
  | .scaCon, .con _ => true
  | .msk, .reg n => n.toNat < 8
  | .msk1, .reg n => 1 ≤ n.toNat && n.toNat < 8
  | .mskCon, .reg n => n.toNat < 8
  | .mskCon, .con _ => true
  | .sca01, .sca n => n.toNat < 64
  | .sca01, .con _ => true
  | .lane, .sca n => n.toNat < 64
  | .lane, .con n => n.toNat < 32
  | .num hi, .reg n => n.toNat ≤ hi
  | .own, _ => true
  | _, _ => false

/-- The field rules of R39-R42, R152 and R184 for one form. -/
def Sig.ok (σ : Sig) (g : Gen) : Bool :=
  (σ.fam == .vector || g.pred == 0) &&
  σ.d.ok g.ty g.d && σ.a.ok σ.fam g.ty g.a && σ.b.ok σ.fam g.ty g.b && σ.c.ok σ.fam g.ty g.c &&
  σ.tys.contains g.ty && (σ.rnd || g.rnd == .rn) && (σ.sat || !g.sat) && g.sub.toNat ≤ σ.sub

/-- A scalar form with destination d and sources a, b (R153). -/
def sigS (tys : List Ty) (sat : Bool := false) : Sig :=
  { fam := .scalar, d := .s, a := .src, b := .src, tys, sat }

/-- A vector integer form with two sources (R187). -/
def sigV (tys : List Ty := [.i8]) (sat : Bool := false) : Sig :=
  { fam := .vector, d := .v, a := .src, b := .src, tys, sat }

/-- A vector float form with two sources of the type's width (R193). -/
def sigF (tys : List Ty) (rnd : Bool) : Sig :=
  { fam := .vector, d := .vT, a := .srcT, b := .srcT, tys, rnd }

def tyInt32 : List Ty := [.i32, .n32]
def tyHalf : List Ty := [.f16, .bf16]
def tyF : List Ty := [.f32, .f16, .bf16]
def tyFD : List Ty := [.f32, .f16, .bf16, .f64]

/-- The selectors of R129 that are 64 bits wide. -/
def selWide (n : Nat) : Bool := n == 0x0B || n == 0x10 || n == 0x11 || n == 0x12

/-- SREAD's own field rule (R174). -/
def sreadOk (g : Gen) : Bool :=
  match g.a with
  | .reg a =>
    a.toNat ≤ 0x17 && g.sub.toNat < 4 &&
    (g.sub.getLsbD 0 || g.d.toNat < 64) &&
    (!selWide a.toNat || g.d.toNat % 2 == 0) &&
    (g.sub.getLsbD 0 || a != 0) &&
    (!g.sub.getLsbD 1 || a == 9)
  | _ => false

/-- SWRITE's own field rule (R175): only MEMDEF, TRAPVEC and POISONAT accept a write. -/
def swriteOk (g : Gen) : Bool :=
  (g.d == 0x0D || g.d == 0x10 || g.d == 0x12) &&
  match g.a with
  | .reg a => a.toNat < 64 && (g.d != 0x10 || a.toNat % 2 == 0)
  | .con _ => true
  | .sca _ => false

/-- VCVT's own field rule (R201): types, RND and SAT. -/
def vcvtExact (src dst : Ty) : Bool :=
  match src, dst with
  | .t6, .t8 => true
  | .t8, d | .t6, d => d.isFloat
  | .f16, .f32 | .f16, .f64 | .bf16, .f32 | .bf16, .f64 | .f32, .f64 => true
  | s, d =>
    if s.isInt && d.isInt then true
    else match s with
      | .i8 | .n8 => d.isFloat
      | .i16 | .n16 => d == .f32 || d == .f64
      | .i32 | .n32 => d == .f64
      | _ => false

def vcvtOk (g : Gen) : Bool :=
  g.sub.toNat < 16 &&
  match Ty.ofCode g.sub.toNat with
  | none => false
  | some src =>
    src != .b32 && g.ty != .b32 && src != g.ty &&
    (!g.ty.is64 || g.d.toNat % 2 == 0) && g.a.okIn .vector src.is64 &&
    (g.rnd == .rn || !(g.ty == .t8 || g.ty == .t6 || vcvtExact src g.ty)) &&
    (!g.sat || g.ty.isInt)

/-- The operation of VRED and VSCAN against type, rounding and saturation (R207). -/
def vredOk (g : Gen) : Bool :=
  match g.c with
  | .reg c =>
    (g.ty != .f32 || c.toNat < 3) && (g.rnd == .rn || (g.ty == .f32 && c == 0)) &&
    (!g.sat || (g.ty != .f32 && c == 0))
  | _ => false

/-- Token i of a VEXPR program: operation code and rounding code (R203). -/
def tokens (w : BitVec 56) : List (Nat × Nat) :=
  (List.range 8).map fun i =>
    let t := (w.toNat >>> (49 - 7 * i)) % 128
    (t / 4, t % 4)

def ExprExt.tokens (x : ExprExt) : List (Nat × Nat) :=
  Sys2Proof.tokens x.w0 ++ (match x.w1 with | some w => Sys2Proof.tokens w | none => [])

/-- Pops and pushes of a token (R204). -/
def tokenArity : Nat → Option (Nat × Nat)
  | 1 | 2 | 3 | 4 | 5 => some (0, 1)
  | 6 => some (1, 2)
  | 7 => some (2, 2)
  | 8 | 9 | 16 => some (1, 1)
  | 10 | 11 | 12 | 14 | 15 => some (2, 1)
  | 13 => some (3, 1)
  | _ => none

/-- The program rules of R206, over the depth of the stack. -/
def exprOkFrom : List (Nat × Nat) → Nat → Bool
  | [], _ => false
  | (0, r) :: rest, depth => r == 0 && depth == 1 && rest.all fun t => t == (0, 0)
  | (op, r) :: rest, depth =>
    match tokenArity op with
    | none => false
    | some (p, q) =>
      p ≤ depth && depth - p + q ≤ 4 &&
      (r == 0 || op == 10 || op == 11 || op == 12 || op == 13) &&
      exprOkFrom rest (depth - p + q)

def exprOk (x : ExprExt) : Bool := exprOkFrom x.tokens 0

/-- A source that the program never pushes must have field and kind zero (R205). -/
def exprSrcOk (x : ExprExt) (code : Nat) (s : Src) : Bool :=
  x.tokens.any (fun t => t.1 == code) || s == .reg 0

/-- Lane words of an even scalar field, or of the marker 0xFF for "none". -/
def scaOr (n : BitVec 8) : Bool := n.toNat < 64 || n == 0xFF
def evenOr (n : BitVec 8) : Bool := (n.toNat < 64 && n.toNat % 2 == 0) || n == 0xFF
def isSca (n : BitVec 8) : Bool := n.toNat < 64
def isEven (n : BitVec 8) : Bool := n.toNat < 64 && n.toNat % 2 == 0

/-- A vector data field is even when the type is 64 bits wide. -/
def vecTy (ty : BitVec 4) (n : BitVec 8) : Bool :=
  match Ty.ofCode ty.toNat with
  | some t => !t.is64 || n.toNat % 2 == 0
  | none => false

/-- A vector load or store (R215). -/
def Mem.vecOk (m : Mem) : Bool := scaOr m.base && vecTy m.ty m.data

/-- A 16-byte vector load or store (R215, R223). -/
def Mem.vec4Ok (m : Mem) : Bool := scaOr m.base && m.data.toNat % 4 == 0 && m.ty == 8

/-- A scalar load or store (R215). -/
def Mem.scaOk (m : Mem) : Bool := scaOr m.base && m.index == 0xFF && isSca m.data && vecTy m.ty m.data

/-- A word whose TYPE is not a type code and whose address is global (R215). -/
def Mem.objOk (m : Mem) (dataOk : Bool) (maxTy : Nat := 0) : Bool :=
  evenOr m.base && m.index == 0xFF && m.ty.toNat ≤ maxTy && dataOk

/-- The operations and types of ATOM (R226). -/
def atomTyOk (op : Nat) (t : Ty) : Bool :=
  match op with
  | 0 | 1 | 2 => t == .i32 || t == .n32 || t == .i64 || t == .n64 || t == .f32
  | 3 | 4 | 5 => t == .b32 || t == .n64
  | 6 => t == .b32 || t == .n64 || t == .f32
  | 7 | 8 => t == .n32
  | _ => false

def atomOk (m : Mem) (x : AtomExt) : Bool :=
  scaOr m.base && vecTy m.ty m.data &&
  (x.ret == 0xFF || vecTy m.ty x.ret) &&
  match Ty.ofCode m.ty.toNat with
  | some t => atomTyOk x.op.toNat t && (x.rnd == .rn || (x.op == 0 && t == .f32))
  | none => false

def casOk (m : Mem) (x : CasExt) : Bool :=
  scaOr m.base && (m.ty == 8 || m.ty == 7) && vecTy m.ty m.data && vecTy m.ty x.cmp &&
  (x.ret == 0xFF || vecTy m.ty x.ret)

def mwaitOk (m : Mem) (x : MwExt) : Bool :=
  evenOr m.base && m.index == 0xFF && (m.ty == 2 || m.ty == 6 || m.ty == 3 || m.ty == 7) &&
  isSca m.data && vecTy m.ty m.data && isSca x.cmp && vecTy m.ty x.cmp && isSca x.tmo &&
  x.m != 0 && x.cond.toNat ≤ 5

/-- Crew words (R252): which of D, H, B they use, and the largest OPT. -/
def crwOk (w : Crw) (d h b : Bool) (opt : Nat) : Bool :=
  (if d then isSca w.d else w.d == 0) && (if h then isSca w.h else w.h == 0) &&
  (if b then isSca w.b else w.b == 0) && w.opt.toNat ≤ opt

/-- Copy words (R271). -/
def cpyOk (w : Cpy) (cond : Bool) : Bool :=
  scaOr w.tok && evenOr w.sl && scaOr w.h &&
  (if w.mem then isEven w.sd && isEven w.dd
   else isSca w.sd && isSca w.dd && w.sd.toNat % 8 == 0 && w.dd.toNat % 8 == 0) &&
  (if cond then isEven w.sta && isEven w.stv
   else if w.sta == 0xFF then w.stv == 0 else isEven w.sta && isEven w.stv)

/-- BSEAL, BWAIT, BQUERY, BCANCEL (R281). -/
def batOk (w : Bat) (d a : Bool) (k : Nat) : Bool :=
  (if d then isSca w.d else w.d == 0) && (if a then isSca w.a else w.a == 0) && w.k.toNat ≤ k

/-- Matrix types by code (R297). -/
def mtxMulTy (t : BitVec 4) : Bool := t == 0 || t == 10 || t == 9 || t == 11 || t == 13

def isSlot (n : BitVec 8) : Bool := n.toNat < 64
def isTile (n : BitVec 8) : Bool := n.toNat < 96

/-- A space of a matrix address: global, scratch, column or crew-shared. -/
def mtxSpace (o : BitVec 6) : Bool := o.toNat % 8 == 1 || o.toNat % 8 == 2 || o.toNat % 8 == 4 || o.toNat % 8 == 5

/-- The address field: a pair for global space, a single scalar otherwise (R297). -/
def mtxAddr (o : BitVec 6) (a : BitVec 8) : Bool :=
  if o.toNat % 8 == 1 then isEven a else isSca a

/-- A unit range of t0-t63 or c0-c95. -/
def rangeOk (tiles : Bool) (first : BitVec 8) (n : BitVec 8) : Bool :=
  1 ≤ n.toNat && first.toNat + n.toNat ≤ (if tiles then 96 else 64)

/-- Sum of a unit-number bound. -/
def below (n hi : Nat) : Bool := n < hi

/-- The static checks of every instruction.  A step that is no word is well-formed when the units it
names exist (R10, R12, R15). -/
def Instr.wf : Instr → Bool
  | .sadd g | .ssub g => (sigS tyInt32 true).ok g
  | .smul g | .smulhi g | .smin g | .smax g => (sigS tyInt32).ok g
  | .sand g | .sor g | .sxor g | .sshl g | .sshr g | .ssar g => (sigS [.i8]).ok g
  | .snot g | .spopc g | .sclz g | .smov g => { sigS [.i8] with b := .none }.ok g
  | .sbfe g => { sigS tyInt32 with c := .src }.ok g
  | .scmp g => { sigS tyInt32 with sub := 5 }.ok g
  | .ssel g => { sigS [.i8] with c := .src }.ok g
  | .smovi m => m.pred == 0 && isSca m.d && m.a == 0 && m.sub == 0
  | .sadd64 g =>
    ({ fam := .scalar, d := .s64, a := .src64, b := .src64, tys := [.i64, .n64], sat := true } : Sig).ok g
  | .sldk m =>
    m.pred == 0 && isSca m.d && scaOr m.a && m.sub.toNat ≤ 1 && (m.sub == 0 || m.d.toNat % 2 == 0)
  | .mset g => ({ fam := .control, d := .m, a := .scaCon } : Sig).ok g
  | .mget g | .mpop g => ({ fam := .control, d := .s, a := .mskCon } : Sig).ok g
  | .mfind g => ({ fam := .control, d := .s, a := .mskCon, sub := 1 } : Sig).ok g
  | .mand g | .mor g | .mxor g | .mandn g =>
    ({ fam := .control, d := .m, a := .mskCon, b := .mskCon } : Sig).ok g
  | .bra b => b.pred == 0 && b.fld == 0 && b.cond == 0
  | .brc b => b.pred == 0 && b.fld.toNat % 256 == 0 && b.fld.toNat / 256 < 64 && b.cond.toNat ≤ 5
  | .brd b => b.pred == 0
  | .call b =>
    b.pred == 0 && b.fld.toNat % 256 == 0 && b.fld.toNat / 256 < 64 && b.fld.toNat / 256 % 2 == 0 &&
    b.cond == 0
  | .reconv g | .exit g | .yield g | .nop g | .sigrst g => ({ fam := .control } : Sig).ok g
  | .jmpi g | .ret g => ({ fam := .control, a := .sca64 } : Sig).ok g
  | .spawn g =>
    ({ fam := .control, d := .m, a := .sca, b := .sca64, sub := 32 } : Sig).ok g && g.sub != 0 &&
    (match g.a with | .reg n => n.toNat % 8 == 0 | _ => false)
  | .waitcnt g => ({ fam := .control, a := .num 31, b := .num 15, c := .num 63 } : Sig).ok g
  | .sleep g => ({ fam := .control, a := .scaCon } : Sig).ok g
  | .trap g | .brk g => ({ fam := .control, sub := 127 } : Sig).ok g
  | .tret g => ({ fam := .control, sub := 1 } : Sig).ok g
  | .sigchk m => m.pred == 0 && m.d == 0 && m.a == 0 && m.sub == 0
  | .sread g => ({ fam := .control, d := .own, a := .own, sub := 3 } : Sig).ok g && sreadOk g
  | .swrite g => ({ fam := .control, d := .own, a := .own } : Sig).ok g && swriteOk g
  | .reggrow g => ({ fam := .control, d := .m, sub := 31 } : Sig).ok g && g.sub != 0
  | .regshrink g => ({ fam := .control, sub := 31 } : Sig).ok g && g.sub != 0
  | .vadd g | .vsub g | .vmul g => (sigV tyInt32 true).ok g
  | .vmulhi g | .vmin g | .vmax g => (sigV tyInt32).ok g
  | .vmad g => { sigV tyInt32 true with c := .src }.ok g
  | .vaddc g => { sigV with c := .msk1, sub := 1 }.ok g
  | .vadd64 g =>
    ({ fam := .vector, d := .v64, a := .src64, b := .src64, tys := [.i64, .n64], sat := true } : Sig).ok g
  | .vabs g => { sigV [.i32] true with b := .none }.ok g
  | .vand g | .vor g | .vxor g | .vshl g | .vshr g | .vsar g => sigV.ok g
  | .vnot g | .vpopc g | .vclz g | .vbrev g | .vmov g => { sigV with b := .none }.ok g
  | .vbfe g => { sigV tyInt32 with c := .src }.ok g
  | .vbfi g | .vperm g => { sigV with c := .src }.ok g
  | .vcmp g => { sigV tyInt32 with d := .m, sub := 5 }.ok g
  | .vsel g => { sigV with c := .msk }.ok g
  | .vmovi m => m.a == 0 && m.sub == 0
  | .vsadd g => { sigV [.i8, .n8, .i16, .n16] with sub := 1 }.ok g
  | .vfadd g | .vfsub g | .vfmul g => (sigF tyF true).ok g
  | .vfma g => { sigF tyF true with c := .srcT }.ok g
  | .vfmin g | .vfmax g => (sigF tyFD false).ok g
  | .vfcmp g => { sigF tyFD false with d := .m, sub := 7 }.ok g
  | .vfclass g => { sigF tyFD false with d := .v, b := .none }.ok g
  | .vfrnd g => { sigF tyFD true with b := .none }.ok g
  | .vfdiv g => (sigF [.f32] true).ok g
  | .vsfu g => { sigF [.f32] true with b := .none, sub := 7 }.ok g && (g.rnd == .rn || g.sub == 2)
  | .vcvt g =>
    g.b == .reg 0 && g.c == .reg 0 && vcvtOk g
  | .vexpr g x =>
    ({ fam := .vector, d := .v, a := .src, b := .src, c := .src, tys := [.f32], sub := 1 } : Sig).ok g &&
    (g.sub == 1) == x.w1.isSome && exprOk x &&
    exprSrcOk x 1 g.a && exprSrcOk x 2 g.b && exprSrcOk x 3 g.c
  | .vh2add g | .vh2mul g => (sigF tyHalf true).ok g
  | .vh2fma g | .vdot2 g => { sigF tyHalf true with c := .srcT }.ok g
  | .vdadd g | .vdmul g =>
    ({ fam := .vector, d := .v64, a := .src64, b := .src64, rnd := true } : Sig).ok g
  | .vdfma g =>
    ({ fam := .vector, d := .v64, a := .src64, b := .src64, c := .src64, rnd := true } : Sig).ok g
  | .vote g => ({ fam := .vector, d := .s, a := .src, c := .num 4, sub := 63 } : Sig).ok g
  | .shfl g => ({ fam := .vector, d := .v, a := .src, b := .src, c := .num 3, sub := 63 } : Sig).ok g
  | .vred g =>
    ({ fam := .vector, d := .v, a := .src, c := .num 5, tys := [.i32, .n32, .f32], rnd := true,
       sat := true, sub := 63 } : Sig).ok g && vredOk g
  | .vscan g =>
    ({ fam := .vector, d := .v, a := .src, c := .num 5, tys := [.i32, .n32, .f32], rnd := true,
       sat := true, sub := 127 } : Sig).ok g && vredOk g
  | .matchl g => ({ fam := .vector, d := .v, a := .src, tys := [.b32, .f32], sub := 63 } : Sig).ok g
  | .v2s g => ({ fam := .vector, d := .s, a := .src, b := .lane, sub := 63 } : Sig).ok g
  | .s2v g => ({ fam := .vector, d := .v, a := .sca01, b := .lane } : Sig).ok g
  | .vcompact g => ({ fam := .vector, d := .v, a := .src, b := .src, sub := 63 } : Sig).ok g
  | .vld m | .vst m => m.vecOk
  | .vldx m | .vstx m => m.vec4Ok
  | .sld m | .sst m => m.scaOk
  | .atom m x => atomOk m x
  | .atomcas m x => casOk m x
  | .mwait m x => mwaitOk m x
  | .fence m => m.data == 0 && m.base == 0 && m.index == 0 && m.ty == 0 && m.off == 0
  | .acq m | .rel m => m.objOk (isEven m.data)
  | .bind m | .bindt m => m.objOk (isSca m.data && m.data.toNat % 4 == 0)
  | .unbind m => m.objOk (m.data == 0)
  | .cinv m | .cpref m | .free m => m.objOk (isSca m.data)
  | .cwb m => m.objOk (isSca m.data) 1
  | .alloc m => scaOr m.base && m.index == 0xFF && m.ty == 0 && isEven m.data
  | .crnew w => crwOk w true false false 1
  | .crjoin w | .crleave w => crwOk w false true false 0
  | .crsync w => crwOk w false true false 1
  | .crarrive w => crwOk w true true false 1
  | .crwait w => crwOk w false true true 1
  | .crquery w => crwOk w true true false 4
  | .crmap w => crwOk w true true false 0
  | .bcopy w => cpyOk w false
  | .bcopyc w => cpyOk w true
  | .bseal w | .bwait w => batOk w false false 7
  | .bquery w => batOk w true false 3
  | .bcancel w => batOk w true true 0
  | .tclaim w =>
    w.pred == 0 && isSca w.d && w.a == 0 && w.c == 0 && w.ty == 0 && w.rnd == .rn && w.opt.toNat ≤ 1 &&
    rangeOk (w.opt == 1) w.b w.n
  | .trel w =>
    w.pred == 0 && w.d == 0 && w.a == 0 && w.c == 0 && w.ty == 0 && w.rnd == .rn && w.opt.toNat ≤ 1 &&
    rangeOk (w.opt == 1) w.b w.n
  | .tload w =>
    w.pred == 0 && isSlot w.d && mtxAddr w.opt w.a && isSca w.b && w.c == 0 && w.rnd == .rn && w.n == 0 &&
    (mtxMulTy w.ty || w.ty == 14 || w.ty == 8) && mtxSpace w.opt && w.opt.toNat < 16 &&
    (w.opt.toNat < 8 || w.ty == 10 || w.ty == 9)
  | .tloads w =>
    w.pred == 0 && isSlot w.d && isEven w.a && w.b == 0 && w.c == 0 && w.ty == 0 && w.rnd == .rn &&
    w.opt == 0 && w.n.toNat ≤ 3
  | .mma w | .mdist w =>
    w.pred == 0 && isTile w.d && isSlot w.a && isSlot w.b && w.c == 0 && mtxMulTy w.ty && w.rnd == .rn &&
    w.opt == 0 && w.n == 0
  | .mmasp w =>
    w.pred == 0 && isTile w.d && isSlot w.a && w.b.toNat + (if w.opt == 1 then 4 else 2) ≤ 64 && w.c == 0 &&
    w.ty == 13 && w.rnd == .rn && w.opt.toNat ≤ 1 && w.n == 0
  | .mloop w =>
    w.pred == 0 && isTile w.d && isSca w.a && w.a.toNat % 8 == 0 && isSlot w.b && isSlot w.c &&
    mtxMulTy w.ty && w.rnd == .rn && w.opt.toNat < 8 && (w.opt.toNat % 2 == 0 || w.ty == 13) && w.n == 0
  | .mtopk w =>
    w.pred == 0 && isTile w.d && isTile w.a && w.d != w.a && isSca w.b && w.c == 0 &&
    (w.ty == 11 || w.ty == 2) && w.rnd == .rn && w.opt.toNat < 8 && 1 ≤ w.n.toNat && w.n.toNat ≤ 15
  | .czero w =>
    w.pred == 0 && isTile w.d && w.a == 0 && w.b == 0 && w.c == 0 && w.ty == 0 && w.rnd == .rn &&
    w.opt == 0 && rangeOk true w.d w.n
  | .cload w =>
    w.pred == 0 && isTile w.d && mtxAddr w.opt w.a && isSca w.b && w.c == 0 &&
    (w.ty == 2 || w.ty == 11 || w.ty == 10) && w.rnd == .rn && mtxSpace w.opt && w.opt.toNat < 8 && w.n == 0
  | .cstore w =>
    w.pred == 0 && w.d == 0 && isTile w.c && w.n == 0 &&
    (if w.opt.toNat < 8 then
       mtxSpace w.opt && mtxAddr w.opt w.a && isSca w.b &&
       (w.ty == 0 || w.ty == 2 || w.ty == 10 || w.ty == 9 || w.ty == 11 || w.ty == 13) &&
       (w.rnd == .rn || w.ty == 10 || w.ty == 9)
     else w.opt == 8 && w.a == 0 && w.b == 0 && (w.ty == 11 || w.ty == 2) && w.rnd == .rn)
  | .cpop w =>
    w.a == 0 && w.b == 0 && w.c == 0 && w.ty == 0 && w.rnd == .rn && w.opt == 0 &&
    (w.n == 1 || w.n == 2 || w.n == 0 || w.n == 8 || w.n == 9)
  | .msync w =>
    w.pred == 0 && isSca w.d && w.a == 0 && w.b == 0 && w.c == 0 && w.ty == 0 && w.rnd == .rn &&
    w.opt == 0 && w.n == 0
  | .qpush w => w.d == 0 && (w.q.toNat ≤ 2 || w.q == 8 || w.q == 9)
  | .qpop w | .qpeek w => w.a == 0 && (w.q.toNat ≤ 2 || w.q == 8 || w.q == 9)
  | .qcount w => w.pred == 0 && isSca w.d && w.a == 0 && (w.q.toNat ≤ 2 || w.q == 8 || w.q == 9)
  | .pmread g => ({ fam := .control, d := .s64, a := .num 7 } : Sig).ok g
  | .qpost g => ({ fam := .control, a := .sca64, b := .sca } : Sig).ok g
  | .clauseFetch => true
  | .crossLaneRelease c w _ | .sleepDeadline c w _ | .mwaitRetest c w _ | .mwaitTimeout c w _
  | .activeSetEvict c w | .passedOverLimit c w => below c 1024 && below w 48
  | .reggrowGrant c | .contextRestore c _ | .priorityPreempt c _ _ | .barrierRelease c
  | .enginePerform c | .transitPlace c | .storecfgWrite c _ | .saveDeadline c => below c 1024
  | .contextSave c r => below c 1024 && below r 4
  | .barrierMessage c | .chipletFence c | .chipletReset c | .chipletDrop c
  | .chipletReinitialised c _ => below c 8
  | .crewRecordError h => below h 65536
  | .copyStart e | .copyEngineFail e => below e 64
  | .copyComplete _ => true
  | .vbusCheckFail c | .laneRepair c | .busThaw c | .busFail c => below c 512
  | .gateRequest p | .gatePowerOn p => below p 32
  | .migrate p c | .migrationDrainTimeout p c | .columnRemap p c => below p 32 && below c 16
  | .registerWrite _ off _ => off % 8 == 0
  | .rds a _ | .rdx a _ | .upg a _ | .wbd a _ _ | .wbc a _ | .rdu a _ | .wru a _ _ _
  | .rspi a _ | .rsps a _ _ | .rspod a _ _ | .rspid a _ _ | .snoopTimeout a _ => below a 63
  | .lr p _ | .lw p _ => below p 32
  | .dramFetchDone s _ | .sliceGate s | .sliceWake s | .sliceCorrectable s _
  | .sliceDataUncorrectable s _ _ | .sliceTagUncorrectable s => below s 256
  | .snps _ | .snpi _ | .datas _ _ | .datae _ _ | .datam _ _ | .gntm _ | .wback _ | .datau _ _
  | .nocache _ | .err _ | .dramCorrectable _ _ | .dramUncorrectable _ _ | .patrolScrub _ _
  | .glazeLost _ => true
  | .queueEnable p q | .queueDisable p q | .queueClearFault p q | .slotAccept p q | .priorityAge p q =>
    below p 8 && below q 4096
  | .drvrespReplay p _ c w | .drvrespResume p _ c w | .drvrespFail p _ c w =>
    below p 8 && below c 1024 && below w 48
  | .tlbinv p _ | .tlbinvDone p => below p 8
  | .launch p q _ | .link p q _ | .proofed p q _ | .copy p q _ | .signal p q _ | .wait p q _
  | .marker p q _ | .nopCmd p q _ | .waitMet p q _ | .waitTimeout p q _ => below p 8 && below q 4096
  | .schedulerTakeover => true
  | .blockSend _ d l => below d 8 && below l 64
  | .steal _ d => below d 8
  | .blockPlace l | .leafTakeover l => below l 64
  | .shapeResolve _ | .shapeTimeout _ => true
  | .clockChange f => f == 425 || (450 ≤ f && f ≤ 850 && f % 50 == 0)
  | .partCreate _ n k => (n == 1 || n == 2 || n == 4 || n == 8) && (k + 1) * n ≤ 8
  | .partDestroy _ p => below p 8
  | .agentAssign _ a p => below a 63 && below p 8
  | .winSet _ w _ => below w 64
  | .winSeal _ w st => below w 64 && below st 4
  | .keyBind _ p s _ _ => below p 8 && below s 64
  | .keyClear _ s => below s 64
  | .getVersion _ | .getCapabilities _ | .negotiateAlgorithms _ | .getDigests _ | .getCertificate _
  | .challenge _ | .getMeasurements _ | .keyExchange _ | .finish _ | .heartbeat _ | .keyUpdate _
  | .endSession _ | .vendorDefinedRequest _ => true
  | .ideKm _ st | .ideIntegrityFail st => below st 9
  | .hostAccess p _ _ _ => below p 8
  | .flitCrcFail p | .portFail p | .linkTrain p _ => below p 16
  | .coldPowerOn _ | .warmReset _ | .watchdog _ | .startTimeout _ | .failsWindowExpire | .imageUpdate _ _
  | .schedulerDoubleFail _ | .unsparedBaseDieError _ => true

end Sys2Proof
end

