-- ==== Sys2Proof/Decode.lean ====
section
/-! DEFINITION. Decode.lean: the decoder, total on any list of words and rejecting by name, and after it the
encoder, both written from the encoding tables of R39-R57, R203, R226, R227, R229, R251, R271, R281, R297,
R328 and R181.  A word that the decoder rejects traps UNDEF at issue (R36, R57). -/

namespace Sys2Proof

/-- Why a word is no instruction. -/
inductive DecodeError
  /-- No word is there. -/
  | noWord
  /-- A major marked with a dash in R55 (R57). -/
  | unassignedMajor
  /-- A header within a clause (R57). -/
  | headerInSlot
  /-- A prefix that no memory word follows, or an extension word without an owner (R57). -/
  | misplaced
  /-- An owner without its extension words (R34). -/
  | missingExtension
  /-- A reserved bit of the word, its prefix or its extension word is not zero (R3, R53). -/
  | reservedBits
  /-- A reserved kind, type or prefix code (R40, R41, R50). -/
  | reservedCode
  /-- A field outside what the form admits (Instr.wf). -/
  | illFormed
deriving DecidableEq, Repr

/-- Bits [lo + n - 1 : lo] of a word. -/
def bits (w : W64) (lo n : Nat) : BitVec n := w.extractLsb' lo n

/-- The major opcode (R39). -/
def major (w : W64) : Nat := (bits w 56 8).toNat

def Rnd.ofBits : BitVec 2 → Rnd
  | 0 => .rn
  | 1 => .rz
  | 2 => .ru
  | _ => .rd

def Rnd.code : Rnd → BitVec 2
  | .rn => 0
  | .rz => 1
  | .ru => 2
  | .rd => 3

def Ty.code : Ty → BitVec 4
  | .i8 => 0 | .i16 => 1 | .i32 => 2 | .i64 => 3 | .n8 => 4 | .n16 => 5 | .n32 => 6 | .n64 => 7
  | .b32 => 8 | .f16 => 9 | .bf16 => 10 | .f32 => 11 | .f64 => 12 | .t8 => 13 | .t6 => 14

/-- A source from its field and its kind (R40). -/
def Src.ofBits (field : BitVec 8) (kind : BitVec 2) : Option Src :=
  if kind = 0 then some (.reg field)
  else if kind = 1 then some (.sca field)
  else if kind = 2 ∧ field.toNat < 64 then some (.con (field.setWidth 6))
  else none

def Src.field : Src → BitVec 8
  | .reg n | .sca n => n
  | .con n => n.setWidth 8

def Src.kind : Src → BitVec 2
  | .reg _ => 0
  | .sca _ => 1
  | .con _ => 2

/-- The generic format (R39). -/
def decodeGen (w : W64) : Option Gen := do
  let a ← Src.ofBits (bits w 36 8) (bits w 18 2)
  let b ← Src.ofBits (bits w 28 8) (bits w 16 2)
  let c ← Src.ofBits (bits w 20 8) (bits w 14 2)
  let ty ← Ty.ofCode (bits w 10 4).toNat
  some { sw := w.getLsbD 55, pred := bits w 52 3, d := bits w 44 8, a, b, c, ty,
         rnd := .ofBits (bits w 8 2), sat := w.getLsbD 7, sub := bits w 0 7 }

/-- The immediate format (R43). -/
def decodeImm (w : W64) : Imm :=
  { sw := w.getLsbD 55, pred := bits w 52 3, d := bits w 44 8, a := bits w 36 8, sub := bits w 32 4,
    imm := bits w 0 32 }

/-- The branch format (R44). -/
def decodeBra (w : W64) : Bra :=
  { sw := w.getLsbD 55, pred := bits w 52 3, fld := bits w 36 16, cond := bits w 32 4,
    target := bits w 0 32 }

def Ord.ofCode : Nat → Option (Option Ord)
  | 0 => some Option.none | 1 => some (some .none) | 2 => some (some .acq) | 3 => some (some .rel)
  | 4 => some (some .acqrel) | _ => Option.none

def Scope.ofCode : Nat → Option (Option Scope)
  | 0 => some Option.none | 1 => some (some .lane) | 2 => some (some .block) | 3 => some (some .crew)
  | 4 => some (some .die) | 5 => some (some .pkg) | 6 => some (some .sys) | _ => Option.none

def Space.ofCode : Nat → Option (Option Space)
  | 0 => some Option.none | 1 => some (some .global) | 2 => some (some .scratch) | 3 => some (some .window)
  | 4 => some (some .column) | 5 => some (some .cshared) | 6 => some (some .const) | 7 => some (some .tile)
  | _ => Option.none

def Cache.ofCode : Nat → Option (Option Cache)
  | 0 => some Option.none | 1 => some (some .norm) | 2 => some (some .stream) | 3 => some (some .noalloc)
  | 4 => some (some .lastuse) | _ => Option.none

def Layer.ofBits : BitVec 2 → Layer
  | 0 => .none
  | 1 => .lwait
  | 2 => .lhold
  | _ => .lboth

def Ord.code : Option Ord → BitVec 3
  | Option.none => 0 | some .none => 1 | some .acq => 2 | some .rel => 3 | some .acqrel => 4

def Scope.code : Option Scope → BitVec 3
  | Option.none => 0 | some .lane => 1 | some .block => 2 | some .crew => 3 | some .die => 4 | some .pkg => 5
  | some .sys => 6

def Space.code : Option Space → BitVec 3
  | Option.none => 0 | some .global => 1 | some .scratch => 2 | some .window => 3 | some .column => 4
  | some .cshared => 5 | some .const => 6 | some .tile => 7

def Cache.code : Option Cache → BitVec 3
  | Option.none => 0 | some .norm => 1 | some .stream => 2 | some .noalloc => 3 | some .lastuse => 4

def Layer.code : Layer → BitVec 2
  | .none => 0
  | .lwait => 1
  | .lhold => 2
  | .lboth => 3

/-- The prefix (R49, R50). -/
def decodePfx (w : W64) : Except DecodeError Pfx :=
  if bits w 32 24 ≠ 0 ∨ bits w 0 18 ≠ 0 then .error .reservedBits
  else
    match Ord.ofCode (bits w 29 3).toNat, Scope.ofCode (bits w 26 3).toNat,
      Space.ofCode (bits w 23 3).toNat, Cache.ofCode (bits w 20 3).toNat with
    | some ord, some scope, some space, some cache =>
      .ok { ord, scope, space, cache, layer := .ofBits (bits w 18 2) }
    | _, _, _, _ => .error .reservedCode

/-- The memory format (R45). -/
def decodeMem (pfx : Option Pfx) (w : W64) : Mem :=
  { pfx, sw := w.getLsbD 55, pred := bits w 52 3, data := bits w 44 8, base := bits w 36 8,
    index := bits w 28 8, ty := bits w 24 4, off := bits w 0 24 }

/-- The crew format (R251). -/
def decodeCrw (w : W64) : Option Crw :=
  if bits w 52 3 ≠ 0 ∨ bits w 0 24 ≠ 0 then none
  else some { sw := w.getLsbD 55, d := bits w 44 8, h := bits w 36 8, b := bits w 28 8, opt := bits w 24 4 }

/-- The copy format with its extension word (R271). -/
def decodeCpy (w x : W64) : Option Cpy :=
  if bits w 52 3 ≠ 0 ∨ bits w 9 3 ≠ 0 ∨ bits w 0 8 ≠ 0 ∨ bits x 0 24 ≠ 0 then none
  else some { sw := w.getLsbD 55, tok := bits w 44 8, sd := bits w 36 8, dd := bits w 28 8,
              sl := bits w 20 8, h := bits w 12 8, mem := w.getLsbD 8, rid := bits x 40 16,
              sta := bits x 32 8, stv := bits x 24 8 }

/-- The batch format (R281). -/
def decodeBat (w : W64) : Option Bat :=
  if bits w 52 3 ≠ 0 ∨ bits w 28 8 ≠ 0 ∨ bits w 0 24 ≠ 0 then none
  else some { sw := w.getLsbD 55, d := bits w 44 8, a := bits w 36 8, k := bits w 24 4 }

/-- The matrix format (R297). -/
def decodeMtx (w : W64) : Mtx :=
  { sw := w.getLsbD 55, pred := bits w 52 3, d := bits w 44 8, a := bits w 36 8, b := bits w 28 8,
    c := bits w 20 8, ty := bits w 16 4, rnd := .ofBits (bits w 14 2), opt := bits w 8 6, n := bits w 0 8 }

/-- The queue format (R328). -/
def decodeQue (w : W64) : Option Que :=
  if bits w 0 32 ≠ 0 then none
  else some { sw := w.getLsbD 55, pred := bits w 52 3, d := bits w 44 8, a := bits w 36 8, q := bits w 32 4 }

/-- The forms of the generic format, by major (R55). -/
def genOf : Nat → Option (Gen → Instr)
  | 0x00 => some .sadd
  | 0x01 => some .ssub
  | 0x02 => some .smul
  | 0x03 => some .smulhi
  | 0x04 => some .smin
  | 0x05 => some .smax
  | 0x06 => some .sand
  | 0x07 => some .sor
  | 0x08 => some .sxor
  | 0x09 => some .snot
  | 0x0A => some .sshl
  | 0x0B => some .sshr
  | 0x0C => some .ssar
  | 0x0D => some .sbfe
  | 0x0E => some .spopc
  | 0x0F => some .sclz
  | 0x10 => some .scmp
  | 0x11 => some .ssel
  | 0x12 => some .smov
  | 0x14 => some .sadd64
  | 0x18 => some .mset
  | 0x19 => some .mget
  | 0x1A => some .mand
  | 0x1B => some .mor
  | 0x1C => some .mxor
  | 0x1D => some .mandn
  | 0x1E => some .mpop
  | 0x1F => some .mfind
  | 0x23 => some .reconv
  | 0x24 => some .jmpi
  | 0x26 => some .ret
  | 0x27 => some .exit
  | 0x28 => some .spawn
  | 0x29 => some .yield
  | 0x2A => some .nop
  | 0x2B => some .waitcnt
  | 0x2C => some .sleep
  | 0x2D => some .trap
  | 0x2E => some .tret
  | 0x30 => some .sigrst
  | 0x31 => some .sread
  | 0x32 => some .swrite
  | 0x33 => some .reggrow
  | 0x34 => some .regshrink
  | 0x40 => some .vadd
  | 0x41 => some .vsub
  | 0x42 => some .vmul
  | 0x43 => some .vmulhi
  | 0x44 => some .vmad
  | 0x45 => some .vaddc
  | 0x46 => some .vadd64
  | 0x47 => some .vmin
  | 0x48 => some .vmax
  | 0x49 => some .vabs
  | 0x4A => some .vand
  | 0x4B => some .vor
  | 0x4C => some .vxor
  | 0x4D => some .vnot
  | 0x4E => some .vshl
  | 0x4F => some .vshr
  | 0x50 => some .vsar
  | 0x51 => some .vbfe
  | 0x52 => some .vbfi
  | 0x53 => some .vpopc
  | 0x54 => some .vclz
  | 0x55 => some .vbrev
  | 0x56 => some .vperm
  | 0x57 => some .vcmp
  | 0x58 => some .vsel
  | 0x59 => some .vmov
  | 0x5B => some .vsadd
  | 0x60 => some .vfadd
  | 0x61 => some .vfsub
  | 0x62 => some .vfmul
  | 0x63 => some .vfma
  | 0x64 => some .vfmin
  | 0x65 => some .vfmax
  | 0x66 => some .vfcmp
  | 0x67 => some .vfclass
  | 0x68 => some .vfrnd
  | 0x69 => some .vfdiv
  | 0x6A => some .vsfu
  | 0x6B => some .vcvt
  | 0x6D => some .vh2add
  | 0x6E => some .vh2mul
  | 0x6F => some .vh2fma
  | 0x70 => some .vdot2
  | 0x71 => some .vdadd
  | 0x72 => some .vdmul
  | 0x73 => some .vdfma
  | 0x80 => some .vote
  | 0x81 => some .shfl
  | 0x82 => some .vred
  | 0x83 => some .vscan
  | 0x84 => some .matchl
  | 0x85 => some .v2s
  | 0x86 => some .s2v
  | 0x87 => some .vcompact
  | 0xE8 => some .brk
  | 0xE9 => some .pmread
  | 0xEA => some .qpost
  | _ => none

/-- The forms of the immediate format. -/
def immOf : Nat → Option (Imm → Instr)
  | 0x13 => some .smovi
  | 0x15 => some .sldk
  | 0x2F => some .sigchk
  | 0x5A => some .vmovi
  | _ => none

/-- The forms of the branch format. -/
def braOf : Nat → Option (Bra → Instr)
  | 0x20 => some .bra
  | 0x21 => some .brc
  | 0x22 => some .brd
  | 0x25 => some .call
  | _ => none

/-- The memory words without an extension word. -/
def memOf : Nat → Option (Mem → Instr)
  | 0xA0 => some .vld
  | 0xA1 => some .vst
  | 0xA2 => some .vldx
  | 0xA3 => some .vstx
  | 0xA4 => some .sld
  | 0xA5 => some .sst
  | 0xA9 => some .fence
  | 0xAA => some .acq
  | 0xAB => some .rel
  | 0xAC => some .bind
  | 0xAD => some .bindt
  | 0xAE => some .unbind
  | 0xAF => some .cinv
  | 0xB0 => some .cwb
  | 0xB1 => some .cpref
  | 0xB2 => some .alloc
  | 0xB3 => some .free
  | _ => none

/-- The crew words. -/
def crwOf : Nat → Option (Crw → Instr)
  | 0xC0 => some .crnew
  | 0xC1 => some .crjoin
  | 0xC2 => some .crleave
  | 0xC3 => some .crsync
  | 0xC4 => some .crarrive
  | 0xC5 => some .crwait
  | 0xC6 => some .crquery
  | 0xC7 => some .crmap
  | _ => none

/-- The batch, query and cancel words. -/
def batOf : Nat → Option (Bat → Instr)
  | 0xCA => some .bseal
  | 0xCB => some .bwait
  | 0xCC => some .bquery
  | 0xCD => some .bcancel
  | _ => none

/-- The matrix words. -/
def mtxOf : Nat → Option (Mtx → Instr)
  | 0xD0 => some .tclaim
  | 0xD1 => some .trel
  | 0xD2 => some .tload
  | 0xD3 => some .tloads
  | 0xD4 => some .mma
  | 0xD5 => some .mmasp
  | 0xD6 => some .mloop
  | 0xD7 => some .mdist
  | 0xD8 => some .mtopk
  | 0xD9 => some .czero
  | 0xDA => some .cload
  | 0xDB => some .cstore
  | 0xDC => some .cpop
  | 0xDD => some .msync
  | _ => none

/-- The queue words. -/
def queOf : Nat → Option (Que → Instr)
  | 0xE0 => some .qpush
  | 0xE1 => some .qpop
  | 0xE2 => some .qpeek
  | 0xE3 => some .qcount
  | _ => none

/-- The extension word of ATOM (R226). -/
def decodeAtomExt (x : W64) : Option AtomExt :=
  if bits x 0 42 ≠ 0 then none
  else some { ret := bits x 48 8, op := bits x 44 4, rnd := .ofBits (bits x 42 2) }

/-- The extension word of ATOMCAS (R227). -/
def decodeCasExt (x : W64) : Option CasExt :=
  if bits x 0 40 ≠ 0 then none
  else some { ret := bits x 48 8, cmp := bits x 40 8 }

/-- The extension word of MWAIT (R229). -/
def decodeMwExt (x : W64) : Option MwExt :=
  if bits x 0 33 ≠ 0 then none
  else some { cmp := bits x 48 8, tmo := bits x 40 8, m := bits x 37 3, cond := bits x 33 4 }

/-- The extension word that must follow an owner. -/
def extWord : List W64 → Except DecodeError W64
  | x :: _ => if major x = 0xFD then .ok x else .error .missingExtension
  | [] => .error .missingExtension

/-- Accept a term only when it is well-formed. -/
def accept (n : Nat) (i : Instr) : Except DecodeError (Instr × Nat) :=
  if i.wf then .ok (i, n) else .error .illFormed

def orReserved {α : Type} : Option α → Except DecodeError α
  | some a => .ok a
  | none => .error .reservedBits

/-- A memory word with the words after it; `n` is how many words stand before it. -/
def decodeMemWord (pfx : Option Pfx) (n : Nat) (w : W64) (rest : List W64) :
    Except DecodeError (Instr × Nat) :=
  let m := decodeMem pfx w
  if major w = 0xA6 then do
    let x ← orReserved (decodeAtomExt (← extWord rest))
    accept (n + 2) (.atom m x)
  else if major w = 0xA7 then do
    let x ← orReserved (decodeCasExt (← extWord rest))
    accept (n + 2) (.atomcas m x)
  else if major w = 0xA8 then do
    let x ← orReserved (decodeMwExt (← extWord rest))
    accept (n + 2) (.mwait m x)
  else match memOf (major w) with
    | some mk => accept (n + 1) (mk m)
    | none => .error .misplaced

/-- Is this a major of the memory family (R56)? -/
def isMemMajor (m : Nat) : Bool := 0xA0 ≤ m && m ≤ 0xB3

/-- VEXPR and its one or two extension words (R203). -/
def decodeVexpr (g : Gen) (rest : List W64) : Except DecodeError (Instr × Nat) := do
  let x0 ← extWord rest
  if g.sub = 0 then accept 2 (.vexpr g ⟨bits x0 0 56, none⟩)
  else do
    let x1 ← extWord rest.tail
    accept 3 (.vexpr g ⟨bits x0 0 56, some (bits x1 0 56)⟩)

/-- One issue unit at the head of a list of words: the instruction and the number of its words (R176). -/
def decode : List W64 → Except DecodeError (Instr × Nat)
  | [] => .error .noWord
  | w :: rest =>
    let m := major w
    if m = 0xFF then .error .headerInSlot
    else if m = 0xFD then .error .misplaced
    else if m = 0xFE then
      match rest with
      | [] => .error .misplaced
      | w1 :: rest1 =>
        if isMemMajor (major w1) then
          match decodePfx w with
          | .error e => .error e
          | .ok p => decodeMemWord (some p) 1 w1 rest1
        else .error .misplaced
    else if isMemMajor m then decodeMemWord none 0 w rest
    else if m = 0x6C then
      match decodeGen w with
      | none => .error .reservedCode
      | some g => decodeVexpr g rest
    else if m = 0xC8 ∨ m = 0xC9 then do
      let x ← extWord rest
      let c ← orReserved (decodeCpy w x)
      accept 2 (if m = 0xC8 then .bcopy c else .bcopyc c)
    else match genOf m with
      | some mk =>
        match decodeGen w with
        | none => .error .reservedCode
        | some g => accept 1 (mk g)
      | none => match immOf m with
        | some mk => accept 1 (mk (decodeImm w))
        | none => match braOf m with
          | some mk => accept 1 (mk (decodeBra w))
          | none => match crwOf m with
            | some mk => do accept 1 (mk (← orReserved (decodeCrw w)))
            | none => match batOf m with
              | some mk => do accept 1 (mk (← orReserved (decodeBat w)))
              | none => match mtxOf m with
                | some mk => accept 1 (mk (decodeMtx w))
                | none => match queOf m with
                  | some mk => do accept 1 (mk (← orReserved (decodeQue w)))
                  | none => .error .unassignedMajor

/-- How many words an issue unit that opens with these words spans, however it decodes: a prefix takes its
memory word, and an owner its extension words (R176). -/
def ownerLen (w : W64) : Nat :=
  let m := major w
  if m = 0xA6 ∨ m = 0xA7 ∨ m = 0xA8 ∨ m = 0xC8 ∨ m = 0xC9 then 2
  else if m = 0x6C then (if w.getLsbD 0 then 3 else 2)
  else 1

def unitLen : List W64 → Nat
  | [] => 0
  | w :: rest =>
    if major w = 0xFE then
      match rest with
      | w1 :: _ => 1 + ownerLen w1
      | [] => 1
    else ownerLen w

/-- The word a fault frame shows for an issue unit: the memory word or the owner (R176). -/
def unitWord : List W64 → W64
  | [] => 0
  | w :: rest => if major w = 0xFE then rest.headD w else w

/-! The encoder. -/

def boolBit (b : Bool) : BitVec 1 := BitVec.ofBool b

def encodeGen (m : BitVec 8) (g : Gen) : W64 :=
  m ++ boolBit g.sw ++ g.pred ++ g.d ++ g.a.field ++ g.b.field ++ g.c.field ++ g.a.kind ++ g.b.kind ++
    g.c.kind ++ g.ty.code ++ g.rnd.code ++ boolBit g.sat ++ g.sub

def encodeImm (m : BitVec 8) (g : Imm) : W64 :=
  m ++ boolBit g.sw ++ g.pred ++ g.d ++ g.a ++ g.sub ++ g.imm

def encodeBra (m : BitVec 8) (g : Bra) : W64 :=
  m ++ boolBit g.sw ++ g.pred ++ g.fld ++ g.cond ++ g.target

def encodePfx (p : Pfx) : W64 :=
  (0xFE : BitVec 8) ++ (0 : BitVec 24) ++ Ord.code p.ord ++ Scope.code p.scope ++ Space.code p.space ++
    Cache.code p.cache ++ p.layer.code ++ (0 : BitVec 18)

def encodeMem (m : BitVec 8) (g : Mem) : W64 :=
  m ++ boolBit g.sw ++ g.pred ++ g.data ++ g.base ++ g.index ++ g.ty ++ g.off

def encodeAtomExt (x : AtomExt) : W64 :=
  (0xFD : BitVec 8) ++ x.ret ++ x.op ++ x.rnd.code ++ (0 : BitVec 42)

def encodeCasExt (x : CasExt) : W64 := (0xFD : BitVec 8) ++ x.ret ++ x.cmp ++ (0 : BitVec 40)

def encodeMwExt (x : MwExt) : W64 :=
  (0xFD : BitVec 8) ++ x.cmp ++ x.tmo ++ x.m ++ x.cond ++ (0 : BitVec 33)

def encodeExpr (x : ExprExt) : List W64 :=
  ((0xFD : BitVec 8) ++ x.w0) :: (match x.w1 with | some w => [(0xFD : BitVec 8) ++ w] | none => [])

def encodeCrw (m : BitVec 8) (g : Crw) : W64 :=
  m ++ boolBit g.sw ++ (0 : BitVec 3) ++ g.d ++ g.h ++ g.b ++ g.opt ++ (0 : BitVec 24)

def encodeCpy (m : BitVec 8) (g : Cpy) : List W64 :=
  [m ++ boolBit g.sw ++ (0 : BitVec 3) ++ g.tok ++ g.sd ++ g.dd ++ g.sl ++ g.h ++ (0 : BitVec 3) ++
     boolBit g.mem ++ (0 : BitVec 8),
   (0xFD : BitVec 8) ++ g.rid ++ g.sta ++ g.stv ++ (0 : BitVec 24)]

def encodeBat (m : BitVec 8) (g : Bat) : W64 :=
  m ++ boolBit g.sw ++ (0 : BitVec 3) ++ g.d ++ g.a ++ (0 : BitVec 8) ++ g.k ++ (0 : BitVec 24)

def encodeMtx (m : BitVec 8) (g : Mtx) : W64 :=
  m ++ boolBit g.sw ++ g.pred ++ g.d ++ g.a ++ g.b ++ g.c ++ g.ty ++ g.rnd.code ++ g.opt ++ g.n

def encodeQue (m : BitVec 8) (g : Que) : W64 :=
  m ++ boolBit g.sw ++ g.pred ++ g.d ++ g.a ++ g.q ++ (0 : BitVec 32)

/-- A memory word behind its prefix, if it has one. -/
def withPfx (g : Mem) (ws : List W64) : List W64 :=
  match g.pfx with
  | some p => encodePfx p :: ws
  | none => ws

/-- The words of an instruction; a step that is no word has none. -/
def encode : Instr → List W64
  | .sadd g => [encodeGen 0x00 g]
  | .ssub g => [encodeGen 0x01 g]
  | .smul g => [encodeGen 0x02 g]
  | .smulhi g => [encodeGen 0x03 g]
  | .smin g => [encodeGen 0x04 g]
  | .smax g => [encodeGen 0x05 g]
  | .sand g => [encodeGen 0x06 g]
  | .sor g => [encodeGen 0x07 g]
  | .sxor g => [encodeGen 0x08 g]
  | .snot g => [encodeGen 0x09 g]
  | .sshl g => [encodeGen 0x0A g]
  | .sshr g => [encodeGen 0x0B g]
  | .ssar g => [encodeGen 0x0C g]
  | .sbfe g => [encodeGen 0x0D g]
  | .spopc g => [encodeGen 0x0E g]
  | .sclz g => [encodeGen 0x0F g]
  | .scmp g => [encodeGen 0x10 g]
  | .ssel g => [encodeGen 0x11 g]
  | .smov g => [encodeGen 0x12 g]
  | .sadd64 g => [encodeGen 0x14 g]
  | .mset g => [encodeGen 0x18 g]
  | .mget g => [encodeGen 0x19 g]
  | .mand g => [encodeGen 0x1A g]
  | .mor g => [encodeGen 0x1B g]
  | .mxor g => [encodeGen 0x1C g]
  | .mandn g => [encodeGen 0x1D g]
  | .mpop g => [encodeGen 0x1E g]
  | .mfind g => [encodeGen 0x1F g]
  | .reconv g => [encodeGen 0x23 g]
  | .jmpi g => [encodeGen 0x24 g]
  | .ret g => [encodeGen 0x26 g]
  | .exit g => [encodeGen 0x27 g]
  | .spawn g => [encodeGen 0x28 g]
  | .yield g => [encodeGen 0x29 g]
  | .nop g => [encodeGen 0x2A g]
  | .waitcnt g => [encodeGen 0x2B g]
  | .sleep g => [encodeGen 0x2C g]
  | .trap g => [encodeGen 0x2D g]
  | .tret g => [encodeGen 0x2E g]
  | .sigrst g => [encodeGen 0x30 g]
  | .sread g => [encodeGen 0x31 g]
  | .swrite g => [encodeGen 0x32 g]
  | .reggrow g => [encodeGen 0x33 g]
  | .regshrink g => [encodeGen 0x34 g]
  | .vadd g => [encodeGen 0x40 g]
  | .vsub g => [encodeGen 0x41 g]
  | .vmul g => [encodeGen 0x42 g]
  | .vmulhi g => [encodeGen 0x43 g]
  | .vmad g => [encodeGen 0x44 g]
  | .vaddc g => [encodeGen 0x45 g]
  | .vadd64 g => [encodeGen 0x46 g]
  | .vmin g => [encodeGen 0x47 g]
  | .vmax g => [encodeGen 0x48 g]
  | .vabs g => [encodeGen 0x49 g]
  | .vand g => [encodeGen 0x4A g]
  | .vor g => [encodeGen 0x4B g]
  | .vxor g => [encodeGen 0x4C g]
  | .vnot g => [encodeGen 0x4D g]
  | .vshl g => [encodeGen 0x4E g]
  | .vshr g => [encodeGen 0x4F g]
  | .vsar g => [encodeGen 0x50 g]
  | .vbfe g => [encodeGen 0x51 g]
  | .vbfi g => [encodeGen 0x52 g]
  | .vpopc g => [encodeGen 0x53 g]
  | .vclz g => [encodeGen 0x54 g]
  | .vbrev g => [encodeGen 0x55 g]
  | .vperm g => [encodeGen 0x56 g]
  | .vcmp g => [encodeGen 0x57 g]
  | .vsel g => [encodeGen 0x58 g]
  | .vmov g => [encodeGen 0x59 g]
  | .vsadd g => [encodeGen 0x5B g]
  | .vfadd g => [encodeGen 0x60 g]
  | .vfsub g => [encodeGen 0x61 g]
  | .vfmul g => [encodeGen 0x62 g]
  | .vfma g => [encodeGen 0x63 g]
  | .vfmin g => [encodeGen 0x64 g]
  | .vfmax g => [encodeGen 0x65 g]
  | .vfcmp g => [encodeGen 0x66 g]
  | .vfclass g => [encodeGen 0x67 g]
  | .vfrnd g => [encodeGen 0x68 g]
  | .vfdiv g => [encodeGen 0x69 g]
  | .vsfu g => [encodeGen 0x6A g]
  | .vcvt g => [encodeGen 0x6B g]
  | .vh2add g => [encodeGen 0x6D g]
  | .vh2mul g => [encodeGen 0x6E g]
  | .vh2fma g => [encodeGen 0x6F g]
  | .vdot2 g => [encodeGen 0x70 g]
  | .vdadd g => [encodeGen 0x71 g]
  | .vdmul g => [encodeGen 0x72 g]
  | .vdfma g => [encodeGen 0x73 g]
  | .vote g => [encodeGen 0x80 g]
  | .shfl g => [encodeGen 0x81 g]
  | .vred g => [encodeGen 0x82 g]
  | .vscan g => [encodeGen 0x83 g]
  | .matchl g => [encodeGen 0x84 g]
  | .v2s g => [encodeGen 0x85 g]
  | .s2v g => [encodeGen 0x86 g]
  | .vcompact g => [encodeGen 0x87 g]
  | .brk g => [encodeGen 0xE8 g]
  | .pmread g => [encodeGen 0xE9 g]
  | .qpost g => [encodeGen 0xEA g]
  | .smovi m => [encodeImm 0x13 m]
  | .sldk m => [encodeImm 0x15 m]
  | .sigchk m => [encodeImm 0x2F m]
  | .vmovi m => [encodeImm 0x5A m]
  | .bra b => [encodeBra 0x20 b]
  | .brc b => [encodeBra 0x21 b]
  | .brd b => [encodeBra 0x22 b]
  | .call b => [encodeBra 0x25 b]
  | .vld m => withPfx m [encodeMem 0xA0 m]
  | .vst m => withPfx m [encodeMem 0xA1 m]
  | .vldx m => withPfx m [encodeMem 0xA2 m]
  | .vstx m => withPfx m [encodeMem 0xA3 m]
  | .sld m => withPfx m [encodeMem 0xA4 m]
  | .sst m => withPfx m [encodeMem 0xA5 m]
  | .fence m => withPfx m [encodeMem 0xA9 m]
  | .acq m => withPfx m [encodeMem 0xAA m]
  | .rel m => withPfx m [encodeMem 0xAB m]
  | .bind m => withPfx m [encodeMem 0xAC m]
  | .bindt m => withPfx m [encodeMem 0xAD m]
  | .unbind m => withPfx m [encodeMem 0xAE m]
  | .cinv m => withPfx m [encodeMem 0xAF m]
  | .cwb m => withPfx m [encodeMem 0xB0 m]
  | .cpref m => withPfx m [encodeMem 0xB1 m]
  | .alloc m => withPfx m [encodeMem 0xB2 m]
  | .free m => withPfx m [encodeMem 0xB3 m]
  | .atom m x => withPfx m [encodeMem 0xA6 m, encodeAtomExt x]
  | .atomcas m x => withPfx m [encodeMem 0xA7 m, encodeCasExt x]
  | .mwait m x => withPfx m [encodeMem 0xA8 m, encodeMwExt x]
  | .vexpr g x => encodeGen 0x6C g :: encodeExpr x
  | .bcopy w => encodeCpy 0xC8 w
  | .bcopyc w => encodeCpy 0xC9 w
  | .crnew w => [encodeCrw 0xC0 w]
  | .crjoin w => [encodeCrw 0xC1 w]
  | .crleave w => [encodeCrw 0xC2 w]
  | .crsync w => [encodeCrw 0xC3 w]
  | .crarrive w => [encodeCrw 0xC4 w]
  | .crwait w => [encodeCrw 0xC5 w]
  | .crquery w => [encodeCrw 0xC6 w]
  | .crmap w => [encodeCrw 0xC7 w]
  | .bseal w => [encodeBat 0xCA w]
  | .bwait w => [encodeBat 0xCB w]
  | .bquery w => [encodeBat 0xCC w]
  | .bcancel w => [encodeBat 0xCD w]
  | .tclaim w => [encodeMtx 0xD0 w]
  | .trel w => [encodeMtx 0xD1 w]
  | .tload w => [encodeMtx 0xD2 w]
  | .tloads w => [encodeMtx 0xD3 w]
  | .mma w => [encodeMtx 0xD4 w]
  | .mmasp w => [encodeMtx 0xD5 w]
  | .mloop w => [encodeMtx 0xD6 w]
  | .mdist w => [encodeMtx 0xD7 w]
  | .mtopk w => [encodeMtx 0xD8 w]
  | .czero w => [encodeMtx 0xD9 w]
  | .cload w => [encodeMtx 0xDA w]
  | .cstore w => [encodeMtx 0xDB w]
  | .cpop w => [encodeMtx 0xDC w]
  | .msync w => [encodeMtx 0xDD w]
  | .qpush w => [encodeQue 0xE0 w]
  | .qpop w => [encodeQue 0xE1 w]
  | .qpeek w => [encodeQue 0xE2 w]
  | .qcount w => [encodeQue 0xE3 w]
  | _ => []

/-- Is this constructor an instruction word (and not one of the machine's other steps)? -/
def Instr.isWord (i : Instr) : Bool := !(encode i).isEmpty

/-- The words of a number whose bit 0 is bit 0 of the first word (little-endian words, first at the lowest
address), `n` of them. -/
def wordsOf : Nat → Nat → List W64
  | 0, _ => []
  | n + 1, w => BitVec.ofNat 64 w :: wordsOf n (w >>> 64)

/-- The longest issue unit: a prefix, a memory word and its extension word; or VEXPR with two. -/
def maxUnit : Nat := 3

/-- What the decoder reads from an instruction whose bits are w; every bit above nbits is zero. -/
def decodeTableWord (nbits w : Nat) : Option Instr :=
  match decode (wordsOf maxUnit (w % 2 ^ nbits)) with
  | .ok (i, _) => some i
  | .error _ => none

end Sys2Proof
end

