-- ==== Sys2Proof/Config.lean ====
section
/-! DEFINITION. Config.lean: what the manual leaves open and the model leaves free.  Each value is opaque: it
has no body, nothing can evaluate it, and every statement holds whatever it is (log 7). -/

namespace Sys2Proof.Config

/-- The n-th free 32-bit value: a row of a slot at and after a failed TLOAD (R301), log 7. -/
opaque freeWord : Nat → W32

/-- What a matrix sum returns for its exact value's operands: a candidate, used only when it lies within
the bound of R81; keyed by the accumulator pattern and a digest of the terms (R81, log 8). -/
opaque matrixSum : W32 → List (Int × Int) → W32

/-- What VSFU returns for a function code and an operand pattern: a candidate, used only when it lies
within the bound of R198 (log 9). -/
opaque sfu : Nat → W32 → W32

/-- What a load of a line returns when mappings of its frame disagree on NEAR (R346, log 10). -/
opaque nearConflict : Nat → Line

/-- Whether a line of a slice whose tags have failed can still be read (R367, log 103). -/
opaque readable : Nat → Nat → Bool

/-- What a fetch uses of a word overwritten since its launch was accepted: the instruction cache's copy, or the home's
(R38, log 104). -/
opaque oldCode : Nat → Bool

/-- What a TLOADS or MLOOP reads as scale bytes from a scale region inside a T6PACK range (R322, log 11). -/
opaque packedScale : Nat → Byte

/-- The host's and key owners' secrets, as far as the device's answers depend on them: the body of a signature
or of a session's key material in a response (R416, log 13). -/
opaque secret : Nat → W64

/-- The digest of what a measurement covers: its SHA-256 over a form the manual does not give (R416, log 13). -/
opaque digest : List Nat → BitVec 256

/-- A key unwrapped with the secrets of a session (RFC 3394); none when the wrapped form fails its own check (R417,
log 13). -/
opaque unwrapKey : Nat → BitVec 576 → Option (BitVec 512)

/-- The queues that management assigns to a partition of n chiplets (R372, log 18). -/
opaque queueCount : Nat → Nat → Nat

/-- The host window of a partition of n chiplets: an offset in its DRAM and a size, or none (R409, log 18). -/
opaque hostWindow : Nat → Nat → Option (Nat × Nat)

end Sys2Proof.Config
end

