-- ==== Sys2Proof/Machine/Tab.lean ====
section
/-! DEFINITION. Machine/Tab.lean: the operations of sparse tables and number sets, in canonical form (keys
strictly rising, no entry equal to the default), and small bit helpers. -/

namespace Sys2Proof.Machine

/-- The entry of a key. -/
def tget {α : Type} : List (Nat × α) → Nat → Option α
  | [], _ => none
  | (k, v) :: t, n => if k = n then some v else if n < k then none else tget t n

/-- The entry of a key, or the default. -/
def tgetD {α : Type} (t : List (Nat × α)) (n : Nat) (d : α) : α := (tget t n).getD d

/-- Insert or replace. -/
def tins {α : Type} : List (Nat × α) → Nat → α → List (Nat × α)
  | [], n, x => [(n, x)]
  | (k, v) :: t, n, x =>
    if n < k then (n, x) :: (k, v) :: t
    else if k = n then (n, x) :: t
    else (k, v) :: tins t n x

/-- Remove.  A list with keys that do not rise reads as if its entries out of order were absent; removing keeps that. -/
def tdel {α : Type} : List (Nat × α) → Nat → List (Nat × α)
  | [], _ => []
  | (k, v) :: t, n => if k = n then t.dropWhile (fun e => e.1 ≤ n) else if n < k then (k, v) :: t else (k, v) :: tdel t n

/-- Remove the keys from lo on and below hi. -/
def tcut {α : Type} : List (Nat × α) → Nat → Nat → List (Nat × α)
  | [], _, _ => []
  | (k, v) :: t, lo, hi =>
    if k < lo then (k, v) :: tcut t lo hi else if k < hi then t.dropWhile (fun e => e.1 < hi) else (k, v) :: t

/-- Write with a default: writing the default removes the entry. -/
def tput {α : Type} [DecidableEq α] (d : α) (t : List (Nat × α)) (n : Nat) (x : α) : List (Nat × α) :=
  if x = d then tdel t n else tins t n x

/-- Change the entry of a key, if there is one. -/
def tmod {α : Type} (t : List (Nat × α)) (n : Nat) (f : α → α) : List (Nat × α) :=
  match tget t n with
  | some x => tins t n (f x)
  | none => t

/-- The keys. -/
def tkeys {α : Type} (t : List (Nat × α)) : List Nat := t.map (·.1)

/-- Keys strictly rising. -/
def tsorted {α : Type} : List (Nat × α) → Bool
  | [] => true
  | [_] => true
  | (k, _) :: (k', v) :: t => k < k' && tsorted ((k', v) :: t)

/-- Sets. -/
def smem (t : List Nat) (n : Nat) : Bool := t.contains n

def sins : List Nat → Nat → List Nat
  | [], n => [n]
  | k :: t, n => if n < k then n :: k :: t else if k = n then k :: t else k :: sins t n

def sdel (t : List Nat) (n : Nat) : List Nat := t.filter (· != n)

def sput (t : List Nat) (n : Nat) (b : Bool) : List Nat := if b then sins t n else sdel t n

/-- The lowest number below the bound that satisfies the predicate. -/
def lowest (p : Nat → Bool) (n : Nat) : Option Nat := (List.range n).find? p

/-- The bits that are set, lowest first. -/
def setBits {w : Nat} (x : BitVec w) : List Nat := (List.range w).filter (x.getLsbD ·)

def popcount {w : Nat} (x : BitVec w) : Nat := (setBits x).length

/-- A word from its set of bits. -/
def ofBits (w : Nat) (p : Nat → Bool) : BitVec w :=
  BitVec.ofNat w ((List.range w).foldl (fun acc i => if p i then acc + 2 ^ i else acc) 0)

def setBit {w : Nat} (x : BitVec w) (i : Nat) (b : Bool) : BitVec w :=
  if b then x ||| BitVec.ofNat w (2 ^ i) else x &&& ~~~ (BitVec.ofNat w (2 ^ i))

/-- Byte i of a word. -/
def byteOf {w : Nat} (x : BitVec w) (i : Nat) : Byte := x.extractLsb' (8 * i) 8

/-- Little-endian bytes of a number (R2). -/
def leBytes (n x : Nat) : List Byte := (List.range n).map fun i => BitVec.ofNat 8 (x / 256 ^ i)

/-- The number that little-endian bytes hold (R2). -/
def leNat : List Byte → Nat
  | [] => 0
  | b :: t => b.toNat + 256 * leNat t

def alignDown (a n : Nat) : Nat := a / n * n
def alignUp (a n : Nat) : Nat := (a + n - 1) / n * n

/-- The least k with x ≤ 2^k. -/
def ceilLog2 (x : Nat) : Nat := if x ≤ 1 then 0 else (x - 1).log2 + 1

/-- Interval [a, a + n) meets [b, b + m). -/
def overlaps (a n b m : Nat) : Bool := 0 < n && 0 < m && a < b + m && b < a + n

/-- Insert by a key, behind equals. -/
def insertBy {α : Type} (f : α → Nat) (x : α) : List α → List α
  | [] => [x]
  | y :: t => if f x < f y then x :: y :: t else y :: insertBy f x t

/-- Stable sort by a key. -/
def sortBy {α : Type} (f : α → Nat) (l : List α) : List α := l.foldl (fun acc x => insertBy f x acc) []

/-- Fold a step over a list of numbers. -/
def foldN {σ : Type} (n : Nat) (f : Nat → σ → σ) (s : σ) : σ := (List.range n).foldl (fun s i => f i s) s

end Sys2Proof.Machine
end

