-- ==== Sys2Proof/Machine/Num.lean ====
section
/-! DEFINITION. Machine/Num.lean: the numbers of chapter 03: IEEE formats, T8, T6, E8, conversions, sums.
Values are exact (dyadic) and rounded once at the end (R66, R76). -/

namespace Sys2Proof.Machine

/-- An IEEE format by its exponent and fraction widths (R64). -/
structure Fmt where
  eb : Nat
  fb : Nat
deriving DecidableEq, Repr

def Fmt.bias (f : Fmt) : Nat := 2 ^ (f.eb - 1) - 1
def Fmt.width (f : Fmt) : Nat := f.eb + f.fb + 1
def Fmt.qnan (f : Fmt) : Nat := (2 ^ f.eb - 1) * 2 ^ f.fb + 2 ^ (f.fb - 1)
def Fmt.infPat (f : Fmt) (neg : Bool) : Nat :=
  (2 ^ f.eb - 1) * 2 ^ f.fb + (if neg then 2 ^ (f.eb + f.fb) else 0)

def f32 : Fmt := ⟨8, 23⟩
def f64 : Fmt := ⟨11, 52⟩
def f16 : Fmt := ⟨5, 10⟩
def bf16 : Fmt := ⟨8, 7⟩

/-- The format of an IEEE type; FP32 stands in for the rest. -/
def Fmt.of : Ty → Fmt
  | .f64 => f64 | .f16 => f16 | .bf16 => bf16 | _ => f32

/-- A decoded value: m × 2^e with its sign, an infinity, or a NaN (also NaR). -/
inductive FV
  | nan
  | inf (neg : Bool)
  | fin (neg : Bool) (m : Nat) (e : Int)
deriving DecidableEq, Repr

def FV.isNan : FV → Bool | .nan => true | _ => false
def FV.isInf : FV → Bool | .inf _ => true | _ => false
def FV.isZero : FV → Bool | .fin _ 0 _ => true | _ => false
def FV.isNeg : FV → Bool | .nan => false | .inf n => n | .fin n _ _ => n
def FV.neg : FV → FV | .nan => .nan | .inf n => .inf !n | .fin n m e => .fin (!n) m e

/-- The value of a pattern (R64, R65). -/
def unpack (f : Fmt) (x : Nat) : FV :=
  let fr := x % 2 ^ f.fb
  let ex := x / 2 ^ f.fb % 2 ^ f.eb
  let neg := x / 2 ^ (f.eb + f.fb) % 2 == 1
  if ex = 2 ^ f.eb - 1 then (if fr = 0 then .inf neg else .nan)
  else if ex = 0 then .fin neg fr (1 - (f.bias : Int) - f.fb)
  else .fin neg (fr + 2 ^ f.fb) ((ex : Int) - f.bias - f.fb)

/-- Whether a magnitude is rounded away from zero, given the last kept bit and what is dropped (R66). -/
def roundUp (r : Rnd) (neg odd : Bool) (rem half : Nat) (any : Bool) : Bool :=
  match r with
  | .rn => rem > half || (rem == half && odd)
  | .rz => false
  | .ru => any && !neg
  | .rd => any && neg

/-- Round (m × 2^e) once to a format.  A caller with an inexact tail passes m with its lowest bit set and
enough bits below the last place (R66). -/
def roundTo (f : Fmt) (r : Rnd) (neg : Bool) (m : Nat) (e : Int) : Nat :=
  let sgn := if neg then 2 ^ (f.eb + f.fb) else 0
  if m = 0 then sgn
  else
    let p : Int := f.fb + 1
    let l : Int := m.log2 + 1
    let lsb : Int := max (e + l - p) (1 - (f.bias : Int) - f.fb)
    let kept : Nat :=
      if lsb ≤ e then m * 2 ^ (e - lsb).toNat
      else
        let sh := (lsb - e).toNat
        let q := m / 2 ^ sh
        let rem := m % 2 ^ sh
        if roundUp r neg (q % 2 == 1) rem (2 ^ (sh - 1)) (rem != 0) then q + 1 else q
    let big := kept ≥ 2 ^ (f.fb + 1)
    let kept' := if big then kept / 2 else kept
    let lsb' : Int := if big then lsb + 1 else lsb
    if kept' < 2 ^ f.fb then sgn + kept'
    else
      let ex : Int := lsb' + f.fb + f.bias
      if ex ≥ 2 ^ f.eb - 1 then
        let toInf := match r with | .rn => true | .rz => false | .ru => !neg | .rd => neg
        if toInf then f.infPat neg else sgn + ((2 ^ f.eb - 1) * 2 ^ f.fb - 1)
      else sgn + ex.toNat * 2 ^ f.fb + (kept' - 2 ^ f.fb)

/-- The pattern of a value, rounded once. -/
def packV (f : Fmt) (r : Rnd) : FV → Nat
  | .nan => f.qnan
  | .inf n => f.infPat n
  | .fin n m e => roundTo f r n m e

/-- Signed mantissa at a common exponent. -/
def FV.scaled (lo : Int) : FV → Int
  | .fin n m e => (if n then -1 else 1) * ((m : Int) * 2 ^ (e - lo).toNat)
  | _ => 0

def FV.exp : FV → Int
  | .fin _ 0 _ => 0
  | .fin _ _ e => e
  | _ => 0

/-- The exact sum with the sign rule of R67 for a zero. -/
def sumV (r : Rnd) (xs : List FV) : FV :=
  if xs.any FV.isNan then .nan
  else if xs.any (fun x => x.isInf && x.isNeg) && xs.any (fun x => x.isInf && !x.isNeg) then .nan
  else if xs.any FV.isInf then .inf (xs.any fun x => x.isInf && x.isNeg)
  else
    let lo : Int := xs.foldl (fun a x => min a x.exp) 0
    let t : Int := xs.foldl (fun a x => a + x.scaled lo) 0
    if t = 0 then
      if xs.all (fun x => x.isZero && x.isNeg) && !xs.isEmpty then .fin true 0 0
      else if xs.all (fun x => x.isZero && !x.isNeg) then .fin false 0 0
      else .fin (r == .rd) 0 0
    else .fin (t < 0) t.natAbs lo

/-- The exact product. -/
def mulV : FV → FV → FV
  | .nan, _ => .nan
  | _, .nan => .nan
  | .inf a, .inf b => .inf (a != b)
  | .inf a, .fin b m _ => if m = 0 then .nan else .inf (a != b)
  | .fin a m _, .inf b => if m = 0 then .nan else .inf (a != b)
  | .fin a m e, .fin b k h => .fin (a != b) (m * k) (e + h)

def fAdd (f : Fmt) (r : Rnd) (a b : Nat) : Nat := packV f r (sumV r [unpack f a, unpack f b])
def fSub (f : Fmt) (r : Rnd) (a b : Nat) : Nat := packV f r (sumV r [unpack f a, (unpack f b).neg])
def fMul (f : Fmt) (r : Rnd) (a b : Nat) : Nat := packV f r (mulV (unpack f a) (unpack f b))
def fFma (f : Fmt) (r : Rnd) (a b c : Nat) : Nat :=
  packV f r (sumV r [mulV (unpack f a) (unpack f b), unpack f c])

/-- Strict order of two values that are not NaN, zeros equal. -/
def ltV (a b : FV) : Bool :=
  match a, b with
  | .nan, _ => false
  | _, .nan => false
  | .inf x, .inf y => x && !y
  | .inf x, .fin _ _ _ => x
  | .fin _ _ _, .inf y => !y
  | a, b => let lo := min a.exp b.exp; a.scaled lo < b.scaled lo

def eqV (a b : FV) : Bool := !a.isNan && !b.isNan && !ltV a b && !ltV b a

/-- minimumNumber of R67: −0.0 orders below +0.0; a NaN drops out. -/
def fMin (f : Fmt) (a b : Nat) : Nat :=
  let x := unpack f a
  let y := unpack f b
  if x.isNan then (if y.isNan then f.qnan else b)
  else if y.isNan then a
  else if ltV x y then a
  else if ltV y x then b
  else if x.isNeg then a else b

def fMax (f : Fmt) (a b : Nat) : Nat :=
  let x := unpack f a
  let y := unpack f b
  if x.isNan then (if y.isNan then f.qnan else b)
  else if y.isNan then a
  else if ltV x y then b
  else if ltV y x then a
  else if x.isNeg then b else a

/-- Round a value to an integer by the direction (R76, R196). -/
def toIntV (r : Rnd) (neg : Bool) (m : Nat) (e : Int) : Int :=
  let k : Nat :=
    if 0 ≤ e then m * 2 ^ e.toNat
    else
      let sh := (-e).toNat
      let q := m / 2 ^ sh
      let rem := m % 2 ^ sh
      if roundUp r neg (q % 2 == 1) (2 * rem) (2 ^ sh) (rem != 0) then q + 1 else q
  if neg then -(k : Int) else k

/-- VFRND (R196). -/
def fRnd (f : Fmt) (r : Rnd) (a : Nat) : Nat :=
  match unpack f a with
  | .nan => f.qnan
  | .inf n => f.infPat n
  | .fin n m e =>
    let k := toIntV r n m e
    roundTo f .rn n k.natAbs 0

/-- Division (R197). -/
def fDiv (f : Fmt) (r : Rnd) (a b : Nat) : Nat :=
  match unpack f a, unpack f b with
  | .nan, _ => f.qnan
  | _, .nan => f.qnan
  | .inf _, .inf _ => f.qnan
  | .inf n, .fin n' _ _ => f.infPat (n != n')
  | .fin n _ _, .inf n' => roundTo f r (n != n') 0 0
  | .fin n m e, .fin n' m' e' =>
    if m' = 0 then (if m = 0 then f.qnan else f.infPat (n != n'))
    else
      let sh := 2 * f.fb + 8 + m'.log2
      let q := m * 2 ^ sh / m'
      let sticky := if m * 2 ^ sh % m' = 0 then 0 else 1
      roundTo f r (n != n') (2 * q + sticky) (e - e' - sh - 1)

/-- Square root by digits: the largest r with r² ≤ n. -/
def isqrtGo : Nat → Nat → Nat → Nat
  | 0, _, r => r
  | k + 1, n, r => isqrtGo k n (if (r + 2 ^ k) * (r + 2 ^ k) ≤ n then r + 2 ^ k else r)

def isqrt (n : Nat) : Nat := isqrtGo (n.log2 / 2 + 1) n 0

def fSqrt (f : Fmt) (r : Rnd) (a : Nat) : Nat :=
  match unpack f a with
  | .nan => f.qnan
  | .inf n => if n then f.qnan else f.infPat false
  | .fin n m e =>
    if m = 0 then a
    else if n then f.qnan
    else
      let (m1, e1) := if e % 2 = 0 then (m, e) else (2 * m, e - 1)
      let sh := f.fb + 8
      let big := m1 * 2 ^ (2 * sh)
      let q := isqrt big
      let sticky := if q * q = big then 0 else 1
      roundTo f r false (2 * q + sticky) (e1 / 2 - sh - 1)

/-! T8, T6, E8 (R69-R77). -/

/-- Length of the run of bits equal to the top bit of a 7-bit magnitude (R69). -/
def runLen (m : Nat) : Nat :=
  let b := m / 64 % 2
  let rec go : Nat → Nat → Nat
    | 0, k => k
    | i + 1, k => if m / 2 ^ i % 2 = b then go i (k + 1) else k
  go 6 1

/-- The value of a T8 magnitude in units of 2⁻¹² (R69). -/
def t8Mag (m : Nat) : Nat :=
  if m = 0 then 0
  else
    let k := runLen m
    let g : Int := if m / 64 % 2 = 1 then (k : Int) - 1 else -(k : Int)
    let e : Nat := if k ≤ 5 then m / 2 ^ (5 - k) % 2 else 0
    let fw := if k ≤ 4 then 5 - k else 0
    let f := m % 2 ^ fw
    -- 4^g 2^e (1 + f / 2^fw), scaled by 2^12
    (2 ^ fw + f) * 2 ^ ((2 * g + 12).toNat + e) / 2 ^ fw

def decodeT8 (p : Nat) : FV :=
  if p % 256 = 0x80 then .nan else .fin (p / 128 % 2 == 1) (t8Mag (p % 128)) (-12)

def decodeT6 (p : Nat) : FV := decodeT8 (p % 64 * 4)

/-- Round a magnitude (m × 2^e) to the nearest of a rising list of magnitudes, linearly, ties to the even
pattern (R77); `top` is maxpos. -/
def nearestMag (mag : Nat → Nat) (top : Nat) (m : Nat) (e : Int) : Nat :=
  -- both in units of 2^(min e (-12))
  let lo : Int := min e (-12)
  let a := m * 2 ^ (e - lo).toNat
  let val (k : Nat) := mag k * 2 ^ (-12 - lo).toNat
  if val top ≤ a then top
  else if a ≤ val 1 then 1
  else
    let k := (List.range (top + 1)).foldl (fun best i => if val i ≤ a then i else best) 0
    let dl := a - val k
    let dh := val (k + 1) - a
    if dl < dh then k else if dh < dl then k + 1 else if k % 2 = 0 then k else k + 1

def encodeT8 : FV → Nat
  | .nan => 0x80
  | .inf _ => 0x80
  | .fin n m e => if m = 0 then 0 else (if n then 128 else 0) + nearestMag t8Mag 127 m e

def encodeT6 : FV → Nat
  | .nan => 0x20
  | .inf _ => 0x20
  | .fin n m e => if m = 0 then 0 else (if n then 32 else 0) + nearestMag (fun k => t8Mag (4 * k)) 31 m e

/-- T8 rounded to T6 and expanded again (R73, R74). -/
def t8ViaT6 (p : Nat) : Nat := encodeT6 (decodeT8 p) * 4

/-- Two's complement reading of the low w bits. -/
def sgn (w x : Nat) : Int :=
  let y := x % 2 ^ w
  if 2 * y ≥ 2 ^ w then (y : Int) - 2 ^ w else y

/-- The low w bits of an integer. -/
def wrapN (w : Nat) (x : Int) : Nat := (x % 2 ^ w).toNat

def tyBits (t : Ty) : Nat :=
  match t with
  | .i8 | .n8 | .t8 => 8 | .t6 => 6 | .i16 | .n16 | .f16 | .bf16 => 16
  | .i64 | .n64 | .f64 => 64 | _ => 32

def tySigned : Ty → Bool
  | .i8 | .i16 | .i32 | .i64 => true
  | _ => false

/-- The integer a pattern of an integer type holds. -/
def intOf (t : Ty) (x : Nat) : Int := if tySigned t then sgn (tyBits t) x else (x % 2 ^ (tyBits t) : Nat)

def tyMin (t : Ty) : Int := if tySigned t then -(2 ^ ((tyBits t) - 1)) else 0
def tyMax (t : Ty) : Int := if tySigned t then 2 ^ ((tyBits t) - 1) - 1 else 2 ^ (tyBits t) - 1

/-- Clamp to a type's range (R68). -/
def clampTy (t : Ty) (x : Int) : Int := max (tyMin t) (min (tyMax t) x)

/-- An integer as a pattern of the type: wrapped, or clamped under .sat (R68). -/
def intPat (t : Ty) (sat : Bool) (x : Int) : Nat := wrapN (tyBits t) (if sat then clampTy t x else x)

/-- How a narrow result fills its register word (R63). -/
def widen (t : Ty) (x : Nat) : Nat :=
  match t with
  | .i8 | .i16 => wrapN 32 (sgn (tyBits t) x)
  | _ => x

/-- The exact value of a pattern of any type (R76). -/
def valueOf (t : Ty) (x : Nat) : FV :=
  match t with
  | .t8 => decodeT8 (x % 256)
  | .t6 => decodeT6 (x % 64)
  | .f16 => unpack f16 (x % 2 ^ 16)
  | .bf16 => unpack bf16 (x % 2 ^ 16)
  | .f32 => unpack f32 (x % 2 ^ 32)
  | .f64 => unpack f64 (x % 2 ^ 64)
  | t => let k := intOf t x; .fin (k < 0) k.natAbs 0

/-- A conversion (R76, R202): the pattern of the target. -/
def convert (dst src : Ty) (r : Rnd) (sat : Bool) (x : Nat) : Nat :=
  if dst.isInt then
    -- widening extends by the source's signedness, whatever the suffix
    if src.isInt then intPat dst (sat && tyBits dst ≤ tyBits src) (intOf src x)
    else match valueOf src x with
      | .nan => 0
      | .inf n => wrapN (tyBits dst) (if n then tyMin dst else tyMax dst)
      | .fin n m e => wrapN (tyBits dst) (clampTy dst (toIntV r n m e))
  else match dst with
    | .t8 => encodeT8 (valueOf src x)
    | .t6 => encodeT6 (valueOf src x)
    | _ =>
      match valueOf src x with
      | .fin n 0 e => packV (Fmt.of dst) r (.fin (n && !(src == Ty.t8 || src == Ty.t6)) 0 e)
      | v => packV (Fmt.of dst) r v

/-- The E8 scale as an exponent, or none for the NaR-scale (R75). -/
def scaleE8 (b : Nat) : Option Int := if b = 0xFF then none else some ((b : Int) - 127)

/-- A value times its scale (R75, R81). -/
def FV.scale (v : FV) (s : Option Int) : FV :=
  match s, v with
  | none, _ => .nan
  | some k, .fin n m e => .fin n m (e + k)
  | _, v => v

/-- Whether |a - b| ≤ bound for dyadic values a, b and a bound (m, e). -/
def withinV (a b : FV) (bm : Nat) (be : Int) : Bool :=
  match a, b with
  | .fin .., .fin .. =>
    let lo := min be (min a.exp b.exp)
    (a.scaled lo - b.scaled lo).natAbs ≤ bm * 2 ^ (be - lo).toNat
  | _, _ => false

/-- The mantissa and exponent pairs of finite terms: the key of a matrix sum. -/
def FV.key : FV → Int × Int
  | .fin n m e => ((if n then -(m : Int) else m), e)
  | _ => (0, 0)

/-- A matrix sum into an FP32 accumulator (R81, R82): the free candidate when it lies within the bound, else
the correctly rounded sum. -/
def matrixSum (c : W32) (terms : List FV) : W32 :=
  let all := unpack f32 c.toNat :: terms
  match sumV .rn all with
  | .fin n m e =>
    if m = 0 then BitVec.ofNat 32 (packV f32 .rn (.fin n m e))
    else
      let exact := roundTo f32 .rn n m e
      let cand := Config.matrixSum c (terms.map FV.key)
      let lo : Int := all.foldl (fun a x => min a x.exp) 0
      let mag : Nat := all.foldl (fun a x => a + (x.scaled lo).natAbs) 0
      -- (n + 1) 2^-24 mag 2^lo + n 2^-149
      let k := terms.length
      let be : Int := min (lo - 24) (-149)
      let bm := (k + 1) * mag * 2 ^ (lo - 24 - be).toNat + k * 2 ^ (-149 - be).toNat
      if exact % 2 ^ 31 ≠ 0x7F800000 && withinV (unpack f32 cand.toNat) (.fin n m e) bm be then cand
      else BitVec.ofNat 32 exact
  | v => BitVec.ofNat 32 (packV f32 .rn v)

/-! VSFU (R198): a reference in fixed point with 2⁻⁹⁶ resolution, and the free candidate within the bound. -/

def fxBits : Nat := 128
def fxOne : Int := 2 ^ fxBits
def fxMul (a b : Int) : Int := a * b / fxOne
def fxDiv (a b : Int) : Int := a * fxOne / b

/-- Σ x^k / k! for |x| small. -/
def fxExpGo : Nat → Int → Int → Int → Int → Int
  | 0, _, _, _, acc => acc
  | n + 1, x, term, k, acc => fxExpGo n x (fxMul term x / k) (k + 1) (acc + term)

def fxExp (x : Int) : Int := fxExpGo 60 x fxOne 1 0

/-- ln 2 from the series Σ 1 / (k 2^k). -/
def fxLn2 : Int := (List.range 140).foldl (fun a k => a + fxOne / ((k + 1 : Nat) * 2 ^ (k + 1) : Int)) 0

/-- atanh series: Σ y^(2k+1) / (2k+1). -/
def fxAtanhGo : Nat → Int → Int → Int → Int → Int
  | 0, _, _, _, acc => acc
  | n + 1, y2, p, k, acc => fxAtanhGo n y2 (fxMul p y2) (k + 2) (acc + p / k)

/-- ln of a mantissa in [1, 2). -/
def fxLn (m : Int) : Int :=
  let y := fxDiv (m - fxOne) (m + fxOne)
  2 * fxAtanhGo 60 (fxMul y y) y 1 0

/-- arctan 1/n. -/
def fxAtanInvGo : Nat → Int → Int → Int → Int → Int
  | 0, _, _, _, acc => acc
  | j + 1, n2, p, k, acc => fxAtanInvGo j n2 (-(p / n2)) (k + 2) (acc + p / k)

def fxPi : Int := 4 * (4 * fxAtanInvGo 60 25 (fxOne / 5) 1 0 - fxAtanInvGo 40 57121 (fxOne / 239) 1 0)

/-- sine of x radians, |x| ≤ π/2. -/
def fxSinGo : Nat → Int → Int → Int → Int → Int
  | 0, _, _, _, acc => acc
  | n + 1, x2, t, k, acc => fxSinGo n x2 (-(fxMul t x2) / ((k + 1) * (k + 2))) (k + 2) (acc + t)

def fxSin (x : Int) : Int := fxSinGo 40 (fxMul x x) x 1 0

/-- m × 2^e in fixed point. -/
def fxOf (m : Int) (e : Int) : Int :=
  if 0 ≤ e + fxBits then m * 2 ^ (e + fxBits).toNat else m / 2 ^ (-(e + fxBits)).toNat

/-- A reference result: an FV accurate to about 2⁻⁹⁶ relative, or an exact special case. -/
inductive Ref
  | exact (pat : Nat)
  | near (v : FV)

/-- sin(2π t) for a turn fraction t = m 2^e reduced to [0, 1). -/
def sinTurns (t : Int) : Int :=
  -- t in fixed point, in [0, 1)
  let q := 4 * t / fxOne
  let r := t - q * fxOne / 4
  let a := fxMul (2 * fxPi) r
  match q with
  | 0 => fxSin a
  | 1 => fxSin (fxPi / 2 - a)
  | 2 => -(fxSin a)
  | _ => -(fxSin (fxPi / 2 - a))

def ofFx (x : Int) (e : Int) : FV := .fin (x < 0) x.natAbs (e - fxBits)

def nanPat : Nat := f32.qnan
def onePat : Nat := 0x3F800000

def sfuRef (fn : Nat) (a : Nat) : Ref :=
  match fn, unpack f32 a with
  | _, .nan => .exact nanPat
  | 0, .inf n => .exact (roundTo f32 .rn n 0 0)
  | 0, .fin n m e =>
    if m = 0 then .exact (f32.infPat n)
    else
      let q := 2 ^ (160 + m.log2) / m
      let v := FV.fin n (2 * q + 1) (-e - 161 - (m.log2 : Nat))
      if f32.infPat false ≤ roundTo f32 .rn false (2 * q + 1) (-e - 161 - (m.log2 : Nat)) then .exact (f32.infPat n)
      else .near v
  | 1, .inf n => .exact (if n then nanPat else 0)
  | 1, .fin n m e =>
    if m = 0 then .exact (f32.infPat n)
    else if n then .exact nanPat
    else
      let (m1, e1) := if e % 2 = 0 then (m, e) else (2 * m, e - 1)
      .near (.fin false (isqrt (2 ^ 400 / m1)) (-e1 / 2 - 200))
  | 3, .inf n => .exact (if n then 0 else f32.infPat false)
  | 3, .fin n m e =>
    if m = 0 then .exact onePat
    else
      let big := (m.log2 : Int) + e
      if big ≥ 9 then .exact (if n then 0 else f32.infPat false)
      else
        let k := toIntV .rd n m e
        let x : Int := (if n then -1 else 1) * fxOf m e
        let fr := x - k * fxOne
        if fr = 0 && big ≥ -100 then .exact (roundTo f32 .rn false 1 k)
        else .near (ofFx (fxExp (fxMul fr fxLn2)) k)
  | 4, .inf n => .exact (if n then nanPat else f32.infPat false)
  | 4, .fin n m e =>
    if m = 0 then .exact (f32.infPat true)
    else if n then .exact nanPat
    else
      let l := m.log2
      let k : Int := l + e
      if m = 2 ^ l then .exact (roundTo f32 .rn (k < 0) k.natAbs 0)
      else
        let mant := (m : Int) * 2 ^ (fxBits - l)
        .near (ofFx (fxDiv (fxLn mant) fxLn2 + k * fxOne) 0)
  | 5, .inf _ => .exact nanPat
  | 5, .fin n m e =>
    if m = 0 then .exact a
    else
      if 0 ≤ e || m % 2 ^ (-e).toNat = 0 then .exact (if n then 0x80000000 else 0)
      else
        let d := 2 ^ (-e).toNat
        let fr := m % d
        let fr' := if n then d - fr else fr
        if 4 * fr' = d then .exact onePat
        else .near (ofFx (sinTurns (fr' * fxOne / d)) 0)
  | 6, .inf _ => .exact nanPat
  | 6, .fin n m e =>
    if m = 0 || 0 ≤ e || m % 2 ^ (-e).toNat = 0 then .exact onePat
    else
      let d := 2 ^ (-e).toNat
      let fr := m % d
      let fr' := if n then d - fr else fr
      .near (ofFx (sinTurns (((fr' * fxOne / d) + fxOne / 4) % fxOne)) 0)
  | _, .inf n => .exact (if n then 0xBF800000 else onePat)
  | _, .fin n m e =>
    if m = 0 then .exact a
    else if (m.log2 : Int) + e ≥ 6 then .near (.fin n (2 ^ 200 - 1) (-200))
    else if (m.log2 : Int) + e ≤ -20 then
      -- tanh x = x (1 - x²/3 + …): relative 2^-80 at this size
      let q := 3 * 2 ^ 200
      let t := if e * 2 + 200 ≥ 0 then m * m * 2 ^ (e * 2 + 200).toNat else 0
      .near (.fin n (m * (q - t) / 3) (e - 200))
    else
      let x2 := fxOf (2 * m) e
      let k := x2 / fxLn2
      let ex := fxExp (x2 - k * fxLn2) * 2 ^ k.toNat
      .near (.fin n (fxDiv (ex - fxOne) (ex + fxOne)).natAbs (-(fxBits : Int)))

/-- The unit in the last place of the FP32 value nearest a reference. -/
def ulpExp (v : FV) : Int :=
  match v with
  | .fin _ m e => max ((m.log2 : Int) + e - 23) (-149)
  | _ => 0

/-- VSFU: special cases, .sqrt, or a free candidate within the bound, else the correctly rounded value. -/
def sfu (fn : Nat) (r : Rnd) (a : W32) : W32 :=
  if fn = 2 then BitVec.ofNat 32 (fSqrt f32 r a.toNat)
  else match sfuRef fn a.toNat with
    | .exact p => BitVec.ofNat 32 p
    | .near v =>
      let cand := Config.sfu fn a
      let good := packV f32 .rn v
      -- bounds in units of 2^-64 of an ulp, a hair inside the manual's, and absolute ones
      let k : Nat := if fn = 0 then 1 else 2
      let absolute := fn == 5 || fn == 6 ||
        (fn == 4 && !ltV (unpack f32 a.toNat) (.fin false 1 (-1)) && !ltV (.fin false 2 0) (unpack f32 a.toNat))
      let ok := if absolute then withinV (unpack f32 cand.toNat) v (2 ^ 64 - 1) (-22 - 64)
                else withinV (unpack f32 cand.toNat) v (k * 2 ^ 64 - 1) (ulpExp v - 64)
      let good' := BitVec.ofNat 32 good
      if ok then cand else good'

/-! CRC-32C (R171). -/

def crcBit (c : W32) : W32 := if c.getLsbD 0 then (c >>> 1) ^^^ 0x82F63B78#32 else c >>> 1

def crcByte (c : W32) (b : Byte) : W32 :=
  crcBit (crcBit (crcBit (crcBit (crcBit (crcBit (crcBit (crcBit (c ^^^ b.zeroExtend 32))))))))

def crcBytes (c : W32) (bs : List Byte) : W32 := bs.foldl crcByte c

/-- crc32c_update over the 8 bytes of a word, little-endian (R171). -/
def crcWord (c : W32) (w : W64) : W32 := crcBytes c ((List.range 8).map (byteOf w))

/-! Inline constants (R47, R48). -/

/-- The named value of entries 0x30-0x3D as an exact or 80-bit value. -/
def constV (n : Nat) : FV :=
  if n < 0x20 then .fin false n 0
  else if n < 0x30 then .fin true (n - 0x1F) 0
  else match n with
    | 0x30 => .fin false 1 (-1) | 0x31 => .fin true 1 (-1)
    | 0x32 => .fin false 1 0 | 0x33 => .fin true 1 0
    | 0x34 => .fin false 2 0 | 0x35 => .fin true 2 0
    | 0x36 => .fin false 4 0 | 0x37 => .fin true 4 0
    | 0x38 => .fin false 0x28BE60DB9391054A7F09D (-84)
    | 0x39 => .fin false 0x3243F6A8885A308D31319 (-80)
    | 0x3A => .fin false 0xB17217F7D1CF79ABC9E3 (-80)
    | 0x3B => .fin false 0x171547652B82FE1777D0F (-80)
    | 0x3C => .inf false | 0x3D => .inf true
    | 0x3E => .fin true 0 0
    | _ => .nan

/-- The integer of entries 0x00-0x2F; the FP32 pattern of the others (R48). -/
def constInt (w n : Nat) : Nat :=
  if n < 0x20 then n else if n < 0x30 then wrapN w (-((n : Int) - 0x1F)) else packV f32 .rn (constV n)

/-- The pattern a constant supplies for an operand type (R48). -/
def constPat (t : Ty) (n : Nat) : Nat :=
  match t with
  | .f32 | .f16 | .bf16 | .f64 => packV (Fmt.of t) .rn (constV n)
  | .t8 => encodeT8 (constV n)
  | .t6 => encodeT6 (constV n)
  | t => constInt (if (tyBits t) = 64 then 64 else 32) n

end Sys2Proof.Machine
end

