-- ==== Sys2Proof/Machine/State.lean ====
section
/-! DEFINITION. Machine/State.lean: everything the manual gives the machine, as plain data; what it holds at
reset; the reasons a step can stop.  Sparse tables are canonical (Machine/Tab.lean).  INVENTORY.md lists
every piece with its rule and its value at reset. -/

namespace Sys2Proof.Machine

/-! Warps and blocks (R125-R147). -/

/-- The state of a path slot (R137 text, R150). -/
inductive PState
  | empty | live | held
deriving DecidableEq, Repr

/-- What a path waits for (R150, R209, R423, R175). -/
inductive Wait
  | none
  | sleep (deadline : Nat)
  | mwait (deadline : Nat)
  /-- For a phase; under .pub, whether the acquire at its scope, resolved as the word issued, empties the L1 (R259). -/
  | crew (handle phase : Nat) (pub : Option Bool) (counted : Bool)
  | grow
  | driver (frame : W64)
  /-- At a cross-lane word, with the lanes of the other path it waited for (R209). -/
  | cross (lanes : W32)
  /-- For a barrier unit's answer to its word (R423). -/
  | answer
  /-- CRLEAVE of a share crew, for copies into the block's scratch (R262). -/
  | drain
deriving DecidableEq, Repr

/-- A path slot (R137, R35).  `words` holds the rest of the clause that has been fetched; `remain` counts words of a
clause that must be read again before they issue. -/
structure Path where
  st : PState := .empty
  pc : W64 := 0
  mask : W32 := 0
  rpc : Option W64 := none
  words : List W64 := []
  remain : Nat := 0
  cls : BitVec 2 := 0
  /-- MEMWAIT and ENGWAIT of a clause whose first word has not issued (R30). -/
  limits : Option (Nat × Nat) := none
  /-- The next word is the first of its clause (R209). -/
  first : Bool := false
  parked : Bool := false
  wait : Wait := .none
  /-- Suspended by the other slot's handler or driver wait (R178). -/
  susp : Bool := false
  /-- The word whose transfer reached pc; 0 otherwise (R36). -/
  via : W64 := 0
  /-- The waiting word issued while both slots were in use, so it does not enter SIGS (R171). -/
  unsig : Bool := false
  /-- Its next word was tried and stalled in this base clock: not ready (R145). -/
  tried : Bool := false
  /-- Arithmetic time since which it stalls on the scoreboard between clauses (R146). -/
  since : Option Nat := none
  /-- Its next word is an engine push that its engine has not accepted (R32, R284, R298). -/
  push : Bool := false
deriving DecidableEq, Repr

inductive SKind
  | pending | join | arrived
deriving DecidableEq, Repr

/-- A divergence stack entry (R137). -/
structure StackEntry where
  kind : SKind
  mask : W32
  rpc : Option W64
  pc : W64
deriving DecidableEq, Repr

/-- The fault classes of R7, in order. -/
inductive FClass
  | undef | misalign | xlate | prot | scrbnd | tdesc | scale | poison | sigfail | queue | crew | window
  | seal | diverge | timeout | version
deriving DecidableEq, Repr

/-- A trap that has been detected (R176). -/
structure Trap where
  kind : BitVec 8 := 0
  cls : FClass := .undef
  word : W64 := 0
  sector : W64 := 0
  lanes : W32 := 0
  fetch : Bool := false
  detail : W32 := 0
deriving DecidableEq, Repr

/-- A queue entry of 32 lane words with its poison bits (R128, R317). -/
structure QEnt where
  data : Line
  poison : W32 := 0
deriving DecidableEq, Repr

/-- One warp context (R125). -/
structure Warp where
  block : Nat := 0
  index : Nat := 0
  pipe : Nat := 0
  age : Nat := 0
  /-- Store offset in 1 KiB units of each granule (R133). -/
  granules : List Nat := []
  stackUnit : Nat := 0
  /-- Register n of lane l at key 32 n + l. -/
  v : Tab W32 := []
  vPoison : NatSet := []
  sc : Tab W32 := []
  m : Tab W32 := []
  exited : W32 := 0
  a : Path := {}
  b : Path := {}
  /-- Top first. -/
  stack : List StackEntry := []
  sigs : W32 := 0xFFFFFFFF
  sigd : W32 := 0
  poisonat : W64 := 0
  trapframe : W64 := 0
  /-- Pending registers: v n at n, s n at 256 + n, m n at 512 + n (R147). -/
  pend : NatSet := []
  /-- REGGROW: granules asked, mask register, exec, slot, order of the request on the core (R165). -/
  grow : Option (Nat × Nat × W32 × Slot × Nat) := none
  /-- The slot in the trap handler and the stack depth at entry (R178). -/
  handler : Option (Slot × Nat) := none
  /-- Where that trap's frame was written (R179). -/
  handlerFrame : W64 := 0
  /-- A trap not yet delivered: older results in flight, or a provisional block (R177, R399). -/
  heldTrap : Option (Slot × Trap) := none
  unsealed : List Nat := []
  batches : Tab (List Nat) := []
  /-- Crews, next phases, and whether the warp joined while others had arrived (R250). -/
  crews : List (Nat × Nat × Bool) := []
  /-- SREAD .wait of SHAPE outstanding: destination is a vector register, its number, exec (R174). -/
  shapeWaits : List (Bool × Nat × W32) := []
  /-- MSYNC destinations with the number of commands each waits for (R314). -/
  msyncs : List (Nat × Nat) := []
  mstatus : W32 := 0
  /-- Matrix commands pushed and completed. -/
  mpushed : Nat := 0
  mdone : Nat := 0
  issued : Nat := 0
  /-- Times passed over since it last issued (R145). -/
  passed : Nat := 0
  active : Bool := true
  /-- The slot that issued its last clause (R143). -/
  last : Slot := .b
  /-- Not ready for the next choice of its pipe (R170). -/
  yielded : Bool := false
  /-- The driver's answer, while the line of its frame is on its way (R373). -/
  resp : Option Nat := none
  storeCrc : W32 := 0xFFFFFFFF
deriving DecidableEq, Repr

/-- Redundant execution of a block (R422). -/
inductive Shadow
  | none
  /-- Screened; the site of its shadow (core, block slot) while it runs. -/
  | original (id : Nat)
  | shadow (id : Nat)
deriving DecidableEq, Repr

/-- A crust claim (R235). -/
structure Claim where
  obj : Nat
  record : List Byte
  tile : Nat
deriving DecidableEq, Repr

/-- One block slot (R125, R388). -/
structure Block where
  launch : Nat := 0
  sub : Nat := 0
  bx : W32 := 0
  byy : W32 := 0
  bz : W32 := 0
  linear : Nat := 0
  scratchBase : Nat := 0
  scratchGran : Nat := 0
  scratch : Tab Byte := []
  /-- Poisoned lane words of scratch. -/
  scratchPoison : NatSet := []
  /-- The column whose bank holds the granules, and the granules (R332). -/
  bankCol : Nat := 0
  colGran : List Nat := []
  sharedBank : Bool := false
  bcrew : Nat := 0
  /-- Share crew and map index (R261). -/
  share : Option (Nat × Nat) := none
  /-- The block has started as provisional and is not resolved (R397). -/
  prov : Bool := false
  bundle : Bool := false
  /-- Arena blocks allocated while provisional, newest first (R245, R401). -/
  arena : List (Nat × Nat) := []
  shadow : Shadow := .none
  claims : List Claim := []
  /-- Sums of SIGD and of store hashes of warps that have ended (R422). -/
  sigdSum : W32 := 0
  hashSum : W32 := 0
  /-- Every warp has ended; granules are held for copies and matrix commands (R163). -/
  ended : Bool := false
  failed : Bool := false
deriving DecidableEq, Repr

/-! A core's memory side. -/

/-- A line of a cluster's instruction cache: its number, the number of the next launch when it was read, and what was
read (R38). -/
structure CodeLine where
  line : Nat
  mark : Nat
  data : Line
deriving DecidableEq, Repr

/-- A line of the L1 (R131, R225). -/
structure L1Line where
  line : Nat
  home : Nat
  data : Line
  poison : BitVec 4
  first : Bool := false
  /-- Virtual address of the line when it was filled (R101). -/
  va : Nat := 0
  /-- Number of the next launch when it was filled (R106). -/
  mark : Nat := 0
deriving DecidableEq, Repr

/-- How an access's sectors are screened by the race detector (R122). -/
structure Race where
  gid : Nat
  epoch : Nat
  trap : Bool
  pc : W64
  ctx : Nat
  /-- SCOPE recorded by a write (R121). -/
  scope : Nat
  /-- Virtual address of each sector of the line that is checked. -/
  vas : List (Nat × Nat) := []
deriving DecidableEq, Repr

/-- One lane of a request: lane, byte offset in the line, operand, comparand. -/
structure LaneReq where
  lane : Nat
  off : Nat
  opnd : W64 := 0
  cmp : W64 := 0
deriving DecidableEq, Repr

/-- What a request does at its home. -/
inductive Act
  /-- A read for lanes of an operation. -/
  | read
  /-- Bring the line in; nothing is returned (prefetch and internal reads). -/
  | probe
  | write (data : Line) (mask : LineMask) (poison : BitVec 4)
  /-- Operation code of R226, 9 for compare and swap; 16 more when the write is suppressed (R422). -/
  | atom (op : Nat) (ty : Ty) (rnd : Rnd)
deriving DecidableEq, Repr

/-- A request of a core or of an engine of this package to a home (R19). -/
structure Req where
  /-- Core, or 1024 for the base die's own units. -/
  core : Nat
  warp : Nat := 0
  /-- The operation it belongs to; 0 for none.  Of the base die's own units: who asked. -/
  op : Nat := 0
  line : Nat
  home : Nat
  act : Act
  lanes : List LaneReq := []
  /-- Cache policy 0-3 of R50 order. -/
  pol : Nat := 0
  /-- Served by forwarding from port buffers (R98). -/
  fwd : Bool := true
  fill : Bool := false
  /-- Launch and block index of a provisional store (R350). -/
  prov : Option (Nat × Nat) := none
  race : Option Race := none
  part : Nat := 0
  /-- Virtual address of the line. -/
  va : Nat := 0
  /-- Order of arrival at the port buffers. -/
  seq : Nat := 0
  /-- The slot, its warp's age and the instruction word, for a refusal that comes late (R344, R358). -/
  slot : Slot := .a
  age : Nat := 0
  word : W64 := 0
  /-- The launch of the block it belongs to (R379). -/
  launch : Nat := 0
deriving DecidableEq, Repr

/-- Where the result of a memory operation goes. -/
inductive Dest
  | none
  | vec (reg : Nat) (n : Nat)
  | sca (reg : Nat) (n : Nat)
  /-- MWAIT: scalar register, width in words, mask register. -/
  | mwait (reg n mreg : Nat)
deriving DecidableEq, Repr

/-- A memory operation whose result is outstanding (R32). -/
structure MemOp where
  id : Nat
  warp : Nat
  slot : Slot
  dest : Dest
  ty : Ty
  /-- Requests not yet performed. -/
  left : Nat
  /-- Later memory words of the warp wait for it (an acquire or .lhold). -/
  holds : Bool := false
  acq : Bool := false
  /-- Ranges of virtual lines invalidated in L1 at completion: none, all, or the bound ones (R94, R101). -/
  inval : Option (List (Nat × Nat)) := none
  invalAll : Bool := false
  /-- Lanes it writes. -/
  lanes : W32 := 0
  /-- Poisoned sectors read, lowest first; VA of the lowest. -/
  poisonVa : Option Nat := none
  vas : List (Nat × Nat) := []
  /-- MWAIT's comparand, as its word read it (R147, R230). -/
  cmp : W64 := 0
  store : Bool := false
deriving DecidableEq, Repr

/-- A store in a core's write-combining buffer (R19, R21). -/
structure Wc where
  warp : Nat
  req : Req
deriving DecidableEq, Repr

/-- A translation held by a TLB (R221, R374). -/
structure TlbE where
  ctx : Nat
  va : Nat
  level : Nat
  leaf : W64
deriving DecidableEq, Repr

/-- A matrix command of q0 (R298). -/
structure QCmd where
  word : W64
  vals : List W32
  warp : Nat
  block : Nat
  /-- Age of the pushing warp, which tells it from a later one in its context. -/
  age : Nat := 0
  /-- The pushing warp has ended. -/
  orphan : Bool := false
  /-- The ended warp's matrix status has a CODE: the command is discarded when reached (R300). -/
  dead : Bool := false
  /-- Physical scale-tile addresses found at issue, two a step for MLOOP (R302, R303). -/
  scales : List Nat := []
  /-- Address of the word. -/
  pc : W64 := 0
  /-- Core and block whose scratch a crew-shared address names (R262). -/
  own : Option (Nat × Nat) := none
  /-- Number of the core's next memory operation when it was pushed: earlier ones precede it (R315). -/
  after : Nat := 0
  /-- The engine has done a part of it (R319). -/
  begun : Bool := false
deriving DecidableEq, Repr

/-- A crew's phase state (R250), with its kind and the contexts it belongs to. -/
structure Crew where
  ctx : Nat
  members : Nat := 0
  arrived : Nat := 0
  joins : Nat := 0
  phase : Nat := 0
  remote : Bool := false
  share : Bool := false
  /-- Home cluster of a share crew (R261). -/
  cluster : Nat := 0
  broken : Bool := false
  /-- The core that keeps the phase state while the crew is local. -/
  core : Nat := 0
  /-- Share crew members: map index, core, block slot (R261). -/
  maps : List (Nat × Nat × Nat) := []
  /-- A word carrying .pub has arrived in the open phase (R122). -/
  pub : Bool := false
deriving DecidableEq, Repr

/-- One core (R125, R128, R131, R294-R296). -/
structure Core where
  ctx : Option Nat := none
  l1ways : BitVec 2 := 0b10
  blocks : Tab Block := []
  warps : Tab Warp := []
  ages : Nat := 0
  l1 : List L1Line := []
  wc : List Wc := []
  tlb : List TlbE := []
  ops : List MemOp := []
  nextOp : Nat := 1
  q0 : List QCmd := []
  q1 : List QEnt := []
  q2 : List QEnt := []
  q9 : List QEnt := []
  transit : List QEnt := []
  qfree8 : Nat := 16
  growFail : W32 := 0
  /-- Byte b of slot t at 8192 t + b. -/
  slots : Tab Byte := []
  slotPoison : NatSet := []
  /-- Element (m, n) of tile c at 4096 c + 64 m + n. -/
  acc : Tab W32 := []
  accPoison : NatSet := []
  /-- Block slot that holds each slot and tile (R296). -/
  slotOwner : Tab Nat := []
  accOwner : Tab Nat := []
  /-- Units whose TREL is on its way: slot n at n, tile n at 64 + n (R296). -/
  releasing : NatSet := []
  cmd : Option (QCmd × Nat) := none
  memdef : W32 := 0x269
  trapvec : W64 := 0
  /-- Arithmetic time at which the context was placed or restored here (R182). -/
  since : Nat := 0
  l1Hits : Nat := 0
  l1Misses : Nat := 0
  copies : Nat := 0
  macs : Nat := 0
  /-- Matrix commands that the core's engine has ended. -/
  cmdsDone : Nat := 0
  /-- Arithmetic time that paths have waited in REGGROW, and stalled on the scoreboard (R182). -/
  growTime : Nat := 0
  stallTime : Nat := 0
  /-- Paths of the core stand still for a save (R148). -/
  stopped : Bool := false
  /-- The save that is in progress: its reason and the clock it began at. -/
  saving : Option (Nat × Nat) := none
  /-- A STORECFG write made while a context was held has been reported (R131). -/
  cfgReport : Bool := false
deriving DecidableEq, Repr

/-! The base die. -/

/-- How this package holds a remote line (R357). -/
inductive Held
  | s | e | m | o
deriving DecidableEq, Repr

/-- A way of a slice (R347). -/
structure Way where
  line : Nat
  data : Line := 0
  valid : BitVec 4 := 0
  dirty : BitVec 4 := 0
  poison : BitVec 4 := 0
  glaze : W32 := 0
  glazeDirty : Bool := false
  first : Bool := false
  /-- A remote line's state. -/
  held : Option Held := none
deriving DecidableEq, Repr

/-- A provisional line (R350). -/
structure ProvLine where
  line : Nat
  launch : Nat
  block : Nat
  /-- Its place in the slice: 16 times its set, and its way (R347). -/
  key : Nat
  data : Line
  mask : LineMask
  /-- Sectors that its bytes leave poisoned (R278, R317). -/
  poison : BitVec 4 := 0
  /-- Its stores, oldest first, as the detector checks and records them at the commit (R124). -/
  races : List (Race × BitVec 4) := []
deriving DecidableEq, Repr

/-- A request queued at a home. -/
inductive HReq
  | own (r : Req)
  | rds (agent : Nat)
  | rdx (agent : Nat)
  | upg (agent : Nat)
deriving DecidableEq, Repr

/-- The transient states (R356, R357, R358). -/
inductive Phase
  | fd
  | fs (owner : Nat) (written : Bool)
  | fx (owner : Nat) (targets : List Nat) (written : Bool)
  /-- A remote line: RdS, RdX or Upg sent, a write-back not acknowledged, an uncached read or write. -/
  | sentS | sentX | sentU | sentWb | sentRdU | sentWrU
deriving DecidableEq, Repr

/-- A transient-buffer entry (R348). -/
structure TEntry where
  line : Nat
  phase : Phase
  cur : HReq
  queue : List HReq := []
  data : Option Line := none
  since : Nat := 0
deriving DecidableEq, Repr

/-- The answer to an access of the base die's own units to a remote line that may not be held (R353, R358): who asked,
and the bytes of an uncached read or of an acknowledged write, or none for a refusal. -/
structure Answer where
  line : Nat
  who : Nat
  data : Option Line
deriving DecidableEq, Repr

/-- A slice (R347-R351, R359). -/
structure Slice where
  /-- Way w of set s at 16 s + w. -/
  ways : Tab Way := []
  /-- Tree bits of each set, 15 bits. -/
  plru : Tab (BitVec 15) := []
  entries : List TEntry := []
  /-- Requests that wait for an entry. -/
  input : List HReq := []
  inputLines : List Nat := []
  provs : List ProvLine := []
  gated : Bool := false
  /-- The gate has begun and the slice is giving up what it holds (R359). -/
  gating : Bool := false
  answers : List Answer := []
deriving DecidableEq, Repr

/-- A message sent to another agent (R353). -/
inductive MKind
  | rds | rdx | upg | wbd | wbc | rdu | wru
  | datas | datae | datam | gntm | wback | datau | nocache | err | snps | snpi
  | rspi | rsps | rspod | rspid
  /-- Kept S, dirty data returned: the answer to the host of R410. -/
  | rspsd
deriving DecidableEq, Repr

structure Msg where
  agent : Nat
  kind : MKind
  line : Nat
  data : Line := 0
  mask : LineMask := 0
deriving DecidableEq, Repr

/-- A tile descriptor (R268). -/
structure TDesc where
  base : Nat
  space : Nat
  log2es : Nat
  columns : Nat
  rows : Nat
  stride : Nat
  extent : Nat
deriving DecidableEq, Repr

/-- One member's part of a copy (R274). -/
structure CSlice where
  core : Nat
  warp : Nat
  block : Nat
  src : TDesc
  dst : TDesc
  firstRow : Nat
  count : Nat
  /-- Token register. -/
  tok : Option Nat
  sta : Option Nat
  stv : W64 := 0
  /-- The issuing warp has ended. -/
  orphan : Bool := false
  prov : Option (Nat × Nat) := none
  gid : Nat := 0
  /-- Address of the copy word. -/
  pc : W64 := 0
  launch : Nat := 0
  /-- Core and block whose scratch a crew-shared side names (R262). -/
  srcOwn : Option (Nat × Nat) := none
  dstOwn : Option (Nat × Nat) := none
  /-- Its copy record in the save area of its member, while that is saved (R288). -/
  rec' : Option (Nat × Nat) := none
deriving DecidableEq, Repr

/-- How far a copy has come; a moved one has started (R274, R276). -/
inductive CState
  | gathering | ready | moved
deriving DecidableEq, Repr

/-- A copy (R274-R279). -/
structure Copy where
  ctx : Nat
  engine : Nat
  handle : Nat
  rid : Nat
  cond : Bool
  /-- Members still expected: core, warp. -/
  members : List (Nat × Nat)
  slices : List CSlice
  st : CState
  order : Nat := 0
  status : W32 := 0
  /-- A COPY command: partition, queue, index (R290). -/
  cmd : Option (Nat × Nat × Nat) := none
  locked : Bool := false
  /-- Leaf entry and level of each 64 KiB page that it found at its start, by VA / 65536 (R276). -/
  pages : Tab (W64 × Nat) := []
  /-- Parts of the payload moved so far (R370). -/
  parts : Nat := 0
  /-- Source bytes of the row in hand that are read and not yet written (R275). -/
  ahead : List (Byte × Bool) := []
  /-- Destination bytes that were written poisoned: slice, address (R278). -/
  bad : List (Nat × Nat) := []
  /-- Stamps written so far (R279). -/
  stamped : Nat := 0
deriving DecidableEq, Repr

/-- A message on its way to a barrier unit: the word at which a path waits for the answer (R263, R423). -/
structure BPost where
  handle : Nat
  core : Nat
  warp : Nat
  slot : Slot
  /-- The scope of a .pub arrival's release, until it has finished and the arrival is sent (R259, R263). -/
  rel : Option Scope := none
  /-- Whether an acquire at crew scope, resolved as the word issued, empties the L1 (R259). -/
  wide : Bool := false
deriving DecidableEq, Repr

/-- What a unit sends back to a core: the end of a phase, or the answer to a word (R263, R423). -/
structure BRelease where
  warp : Nat
  slot : Slot
  handle : Nat := 0
  /-- Trap with this reason, or go on. -/
  reason : Option Nat := none
  /-- Scalar register and value to write. -/
  wr : Option (Nat × W32) := none
  /-- The word completes with .pub; whether its acquire empties the L1 (R259). -/
  acq : Option Bool := none
deriving DecidableEq, Repr

/-- A barrier unit (R246, R247). -/
structure BUnit where
  /-- Records in use, by index; local crews keep a record too (R249). -/
  crews : Tab Crew := []
  /-- Records freed, oldest first; then those never used, from `fresh` on. -/
  freed : List Nat := []
  fresh : Nat := 1
  inbox : List BPost := []
deriving DecidableEq, Repr

/-! Column link and sites. -/

/-- A column by physical position, and its link registers (R337). -/
structure Column where
  target : Nat := 0x10
  migrate : Bool := false
  discard : Nat := 0
  repairs : Nat := 0
  spares : Nat := 32
  failed : Bool := false
  /-- One of its cores has failed (R11, R421). -/
  dead : Bool := false
  frozen : Bool := false
  abandoned : Bool := false
  migrating : Bool := false
  /-- Arithmetic time at which a migration's drain began. -/
  began : Nat := 0
  absent : Bool := false
  /-- The spare column serves this logical position (R16). -/
  spare : Bool := false
deriving DecidableEq, Repr

/-- A cluster pair's leaf controllers and gate (R337-R339). -/
structure Pair where
  req : Bool := false
  gate : Nat := 0
  gates : Nat := 0
  spareUsed : Bool := false
  spareFailed : Bool := false
  cols : Tab Column := []
deriving DecidableEq, Repr

/-- A leaf controller's work (R386, R389). -/
structure Leaf where
  /-- Blocks sent to it and not yet placed: launch, linear index.  Each uses one of the leaf's two permits for the
  launch. -/
  waiting : List (Nat × Nat) := []
  /-- Its neighbour has taken over (R390). -/
  lost : Bool := false
deriving DecidableEq, Repr

/-! Scheduling engine. -/

/-- A partition's scheduler page (R372). -/
structure SPage where
  qtbase : Nat := 0
  qtlim : Nat := 0
  ctx0 : W64 := 0
  tlbCtx : Nat := 0
  tlbBusy : Bool := false
  notebase : Nat := 0
  notesize : Nat := 0
  lost : W32 := 0
  head : W32 := 0
  tail : W64 := 0
deriving DecidableEq, Repr

/-- The monitor's view of a queue (R375). -/
structure Queue where
  /-- 0 disabled, 1 active, 2 faulted. -/
  st : Nat := 0
  code : Nat := 0
  wasActive : Bool := false
  /-- The monitor watches the next slot (R376). -/
  watch : Bool := false
  /-- An enable whose descriptors are still being read (R375). -/
  enabling : Bool := false
  ring : Nat := 0
  len : Nat := 2
  prio : Nat := 0
  ctx : Nat := 0
  consumed : Nat := 0
  /-- LINK slots still expected, and the index of the LAUNCH they belong to (R382). -/
  links : Nat := 0
  head : Nat := 0
  /-- What waiting has added to its priority (R385). -/
  aged : Nat := 0
deriving DecidableEq, Repr

inductive CmdState
  | parsed | started | waiting
deriving DecidableEq, Repr

/-- An accepted command (R376-R385). -/
structure Cmd where
  part : Nat
  queue : Nat
  index : Nat
  ctx : Nat
  bytes : List Byte
  st : CmdState := .parsed
  /-- Completes with this code without running. -/
  code : Option Nat := none
  launch : Nat := 0
  deadline : Nat := 0
  spilled : Bool := false
  /-- Clock since which it could start (R385). -/
  ready : Option Nat := none
  /-- A slot of the bundle of the LAUNCH with this index (R382). -/
  bundle : Option Nat := none
deriving DecidableEq, Repr

/-- One sub-launch (R381, R382). -/
structure Sub where
  entry : W64
  cbank : Nat
  cbsize : Nat
  lanes : Nat
  regs : Nat
  scratch : Nat
  colbank : Nat
deriving DecidableEq, Repr

/-- A launch (R381, R386, R392-R404). -/
structure Launch where
  ctx : Nat
  part : Nat
  queue : Nat
  index : Nat
  number : W32
  subs : List Sub
  gx : Nat
  gy : Nat
  gz : Nat
  g : Nat
  pairs : Bool
  sharedBank : Bool
  first : Nat
  count : Nat
  arena : Nat
  faillog : Nat
  failcap : Nat
  failed : Nat := 0
  logged : Nat := 0
  /-- Block units ended. -/
  ended : Nat := 0
  /-- Block units to run. -/
  total : Nat
  /-- Clock at which it started (R390). -/
  born : Nat := 0
  /-- A block of it has been bound (R378). -/
  bound : Bool := false
  dists : Tab (List Nat) := []
  /-- Pending loads of a shared bank: pair, column, granules, blocks (R333). -/
  banks : List (Nat × Nat × List Nat × Nat) := []
  proofed : Bool := false
  ktag : W32 := 0
  mode : Nat := 0
  shapeSrc : Nat := 0
  floor : Nat := 0
  predicted : Nat := 0
  limit : Nat := 0
  resolved : Bool := true
  /-- The resolved shape (R397). -/
  shape : Nat := 0
  deadline : Nat := 0
  acq : Nat := 0
  rel : Nat := 0
  timedOut : Bool := false
  /-- Screened blocks: id, linear index, and the sums of SIGD and store hashes of the original and of the shadow
  once they have ended (R422). -/
  screens : List (Nat × Nat × Option (W32 × W32) × Option (W32 × W32)) := []
  /-- Provisional blocks lost before the resolution, with the reason (R406). -/
  lost : List (Nat × Nat) := []
deriving DecidableEq, Repr

/-- A binding (R233, R235). -/
structure Binding where
  obj : Nat
  base : Nat
  lines : Nat
  race : Bool
  trap : Bool
  bindt : Bool := false
deriving DecidableEq, Repr

/-- A context as the device keeps it beside its descriptor (R24, R391). -/
structure Ctx where
  desc : Nat := 0
  part : Nat := 0
  launches : Nat := 0
  bindings : List Binding := []
  /-- Epochs: of the context, and of objects (R122). -/
  epoch : BitVec 8 := 0
  objEpochs : Tab (BitVec 8) := []
  /-- Records written to the race log ring (R123). -/
  raceCount : Nat := 0
deriving DecidableEq, Repr

/-- A saved context (R148-R151).  Its core's state stands in `cores` under a number from 4096 on, where nothing issues;
the memory of the save area holds its image. -/
structure Saved where
  ctx : Nat
  /-- Save area of the context's table. -/
  area : Nat
  /-- Logical core saved from, and the number its state has now. -/
  core : Nat
  held : Nat
  reason : Nat
  /-- Responses of the driver that arrived while it was saved: warp and action (R373). -/
  responses : List (Nat × Nat) := []
  /-- Column-bank bytes at 2^20 b + offset, and their poisoned lane words, unless the granules are kept (R339). -/
  bank : Tab Byte := []
  bankPoison : NatSet := []
  keepBank : Bool := false
  /-- What the sections of the area hold, in their order: warp contexts with their granules, blocks with their scratch
  and column-bank granules, tile slots, accumulator tiles (R149). -/
  warps : List (Nat × Nat) := []
  blocks : List (Nat × Nat × Nat) := []
  slots : List Nat := []
  tiles : List Nat := []
deriving DecidableEq, Repr

/-- A predictor entry (R394). -/
structure Pred where
  tag : W32 := 0
  count : Nat := 0
  h : List W32 := []
deriving DecidableEq, Repr

/-- A partition (R414). -/
structure Part where
  n : Nat
  page : SPage := {}
  predictor : Tab Pred := []
  /-- Host window: base and size (R409). -/
  window : Option (Nat × Nat) := none
  owner : Option Nat := none
  ended : Bool := false
deriving DecidableEq, Repr

/-! Device level. -/

/-- A chiplet site (R16, R27). -/
structure Chiplet where
  fenced : Bool := false
  dropped : Bool := false
  resetting : Bool := false
  /-- Arithmetic time at which the reset began (R27). -/
  began : Nat := 0
deriving DecidableEq, Repr

/-- A response of the SPDM responder (R416). -/
structure Resp where
  code : Nat
  request : Nat
  body : List W64 := []
deriving DecidableEq, Repr

/-- A secure session (R416). -/
structure Session where
  id : Nat
  open_ : Bool
  chain : Nat
  keys : Nat := 0
deriving DecidableEq, Repr

/-- Partition-independent device registers and engines (R407-R421). -/
structure Dev where
  ready : Bool := false
  /-- 0 normal, 1 minimal, 2 ROM only. -/
  mode : Nat := 0
  keptChiplet : Nat := 0
  reason : BitVec 8 := 0
  fails : BitVec 8 := 0
  reasons : List (BitVec 8) := []
  log : List (Nat × Nat) := []
  irqs : List (Nat × Nat) := []
  self : Nat := 0
  agents : Tab Nat := []
  sessions : List Session := []
  responses : List Resp := []
  leaf : Nat := 0
  leafEnd : Nat := 0
  /-- IDE streams: keyed, and refused because insecure (R411). -/
  streams : Tab Bool := []
  ports : Tab Nat := []
  replays : Tab Nat := []
  portsFailed : NatSet := []
  schedulers : Nat := 2
  /-- Accesses of the host refused or answered, newest first: address, bytes or none (R409). -/
  hostReads : List (Nat × Option (List Byte)) := []
  /-- Firmware images written to flash, and which of them the last start read (R418, R419). -/
  images : Nat := 0
  running : Nat := 0
  /-- Corrected symbols by channel and position; positions spared (R367). -/
  corrected : Tab Nat := []
  spared : NatSet := []
  spareSlices : Nat := 2
  spareEngines : Nat := 2
  /-- The host link has trained in CXL mode, so that agent 0 exists (R407). -/
  cxl : Bool := true
  /-- Accesses of the host whose lines are on their way: partition, whether a write, address, bytes (R409). -/
  hostWaits : List (Nat × Bool × Nat × List Byte) := []
deriving DecidableEq, Repr

/-- A write of the device itself at a virtual address: the partition, the context descriptor whose tables translate it,
the bytes, what the mailbox logs when it cannot be made, and the vector raised after it.  It waits in State.late while a
line of the tables is on its way (R362). -/
structure Late where
  part : Nat
  desc : Nat
  va : Nat
  bytes : List Byte
  fail : Option (Nat × Nat) := none
  irq : Option Nat := none
deriving DecidableEq, Repr

/-- Steps of the scheduling engine that a round of the device holds (log 3), by what they name. -/
inductive Own
  | saveDeadline (core : Nat)
  | waitTimeout (part queue index : Nat)
  | priorityAge (part queue : Nat)
  | blockSend (launch site leaf : Nat)
  | steal (launch site : Nat)
  | blockPlace (leaf : Nat)
  | shapeResolve (launch : Nat)
  | shapeTimeout (launch : Nat)
  | hostRetry
  | enableRetry (part queue : Nat)
deriving DecidableEq, Repr

/-- What moves next (log 3). -/
inductive Turn
  /-- Issue the next word of a path. -/
  | issue (core warp : Nat) (slot : Slot)
  /-- A step that is no word. -/
  | event (i : Instr)
  /-- Base clocks pass. -/
  | tick (n : Nat)
  /-- The oldest store of a core's write-combining buffer enters its port buffer (R21). -/
  | accept (core : Nat)
  /-- A copy engine writes the next 16-byte part of a copy that it has started (R370). -/
  | part (copy : Nat)
  /-- A step of the scheduling engine. -/
  | own (o : Own)
deriving DecidableEq, Repr

/-- The whole machine. -/
structure State where
  /-- What moves next (log 3): the model's own field. -/
  agenda : List Turn
  /-- The path that issues: core, warp context, slot. -/
  cur : Option (Nat × Nat × Slot)
  /-- Free values drawn so far (log 7): the model's own field. -/
  freeCount : Nat
  /-- CLOCK, in base clocks (R129). -/
  clock : Nat
  /-- The arithmetic clock in MHz (R4). -/
  mhz : Nat
  /-- Arithmetic time, in 1,600ths of an arithmetic cycle: none lost or counted twice when the clock changes (R4). -/
  arith : Nat
  cores : Tab Core
  clusterTlb : Tab (List TlbE)
  /-- Instruction caches, by cluster (R38). -/
  icache : Tab (List CodeLine)
  /-- Port buffers: requests in order of arrival (R21). -/
  ports : Tab (List Req)
  slices : Tab Slice
  /-- DRAM, by physical address (R344). -/
  mem : List Host.Cell
  /-- Poisoned DRAM sectors, PA / 32 (R367). -/
  memPoison : NatSet
  /-- Sideband glaze, by line; an absent entry is 0, state H (R352). -/
  glaze : Tab W32
  /-- Byte b of column c's bank at 262144 c + b (R332). -/
  banks : Tab Byte
  bankPoison : NatSet
  /-- Bank granules in use: 16 c + granule. -/
  bankUsed : NatSet
  pairs : Tab Pair
  copies : Tab Copy
  nextCopy : Nat
  /-- Requests that have reached a port buffer: the model's own count of arrivals. -/
  nextReq : Nat
  bunits : Tab BUnit
  /-- Releases on their way to cores. -/
  releases : Tab (List BRelease)
  leaves : Tab Leaf
  queues : Tab Queue
  cmds : List Cmd
  launches : Tab Launch
  nextLaunch : Nat
  contexts : Tab Ctx
  saves : List Saved
  /-- Bytes 0 to 126 of the bind record last written into block slot k of core c, at 16 c + k (R388). -/
  binds : Tab (List Byte)
  late : List Late
  parts : Tab Part
  chiplets : Tab Chiplet
  windows : Tab WinRegs
  keys : Tab (BitVec 512)
  carve : Tab W64
  outbox : List Msg
  dev : Dev
deriving DecidableEq, Repr

/-- Why a run stops with a fault. -/
inductive Fault
  /-- Raised by no step: every fault of the manual is a trap or a status, and so a next state.  Safe. -/
  | noStep
deriving DecidableEq, Repr

/-- Why a step has no meaning. -/
inductive Refusal
  /-- The dispatcher's answer for an instruction without a meaning; no arm gives it at present.  Safe. -/
  | notModelled (mnemonic : String)
deriving DecidableEq, Repr

/-- The machine at cold power-on, before the start sequence of R418 (log 4).  Registers hold the Reset column
of their maps; DRAM lists nothing (log 2). -/
def State.reset : State where
  agenda := []
  cur := none
  freeCount := 0
  clock := 0
  mhz := 850
  arith := 0
  cores := []
  clusterTlb := []
  icache := []
  ports := []
  slices := []
  mem := []
  memPoison := []
  glaze := []
  banks := []
  bankPoison := []
  bankUsed := []
  pairs := []
  copies := []
  nextCopy := 1
  nextReq := 1
  bunits := []
  releases := []
  leaves := []
  queues := []
  cmds := []
  launches := []
  nextLaunch := 1
  contexts := []
  saves := []
  binds := []
  late := []
  parts := []
  chiplets := []
  windows := []
  keys := []
  carve := []
  outbox := []
  dev := {}

end Sys2Proof.Machine
end

