-- ==== Sys2Proof/Machine/Paths.lean ====
section
/-! DEFINITION. Machine/Paths.lean: a warp's registers and path slots; divergence (R137-R142) and SIGD (R172). -/

namespace Sys2Proof.Machine

def otherSlot : Slot → Slot | .a => .b | .b => .a

def pathOf (w : Warp) : Slot → Path | .a => w.a | .b => w.b

def setPath (w : Warp) (sl : Slot) (p : Path) : Warp :=
  match sl with
  | .a => { w with a := p }
  | .b => { w with b := p }

def modPath (w : Warp) (sl : Slot) (f : Path → Path) : Warp := setPath w sl (f (pathOf w sl))

/-- A vector register's lane (R126). -/
def vget (w : Warp) (n l : Nat) : W32 := tgetD w.v (32 * n + l) 0
def vpois (w : Warp) (n l : Nat) : Bool := smem w.vPoison (32 * n + l)

/-- Write a lane word with its poison bit (R242). -/
def vset (w : Warp) (n l : Nat) (x : W32) (poison : Bool := false) : Warp :=
  { w with v := tput 0 w.v (32 * n + l) x, vPoison := sput w.vPoison (32 * n + l) poison }

def sget (w : Warp) (n : Nat) : W32 := tgetD w.sc n 0
def sset (w : Warp) (n : Nat) (x : W32) : Warp := { w with sc := tput 0 w.sc n x }
/-- The pair s[n]:s[n+1] (R40, R63). -/
def sget64 (w : Warp) (n : Nat) : W64 := sget w (n + 1) ++ sget w n
def sset64 (w : Warp) (n : Nat) (x : W64) : Warp :=
  sset (sset w n (x.extractLsb' 0 32)) (n + 1) (x.extractLsb' 32 32)

/-- m0 reads as the path's mask (R127). -/
def mget (w : Warp) (sl : Slot) (n : Nat) : W32 := if n = 0 then (pathOf w sl).mask else tgetD w.m n 0
def mset (w : Warp) (n : Nat) (x : W32) : Warp := if n = 0 then w else { w with m := tput 0 w.m n x }

/-- The execution set (R42). -/
def execOf (w : Warp) (sl : Slot) (pred : BitVec 3) : W32 :=
  if pred = 0 then (pathOf w sl).mask else (pathOf w sl).mask &&& mget w sl pred.toNat

/-- SIGD's update at a split, merge or EXIT (R172). -/
def sigdEvent (w : Warp) (kind : Nat) (mask : W32) : Warp :=
  let e : W64 := BitVec.ofNat 32 kind ++ mask
  { w with sigd := w.sigd + (crcWord 0xFFFFFFFF e ^^^ 0xFFFFFFFF) }

/-- An empty slot. -/
def emptyPath : Path := {}

/-- A path that starts at a header. -/
def livePath (pc : W64) (mask : W32) (rpc : Option W64) : Path :=
  { st := .live, pc := pc, mask := mask, rpc := rpc }

/-- A slot is at the header it is about to issue and that header is its RPC (R139); a suspended slot issues nothing, and
arrives when it resumes (R178). -/
def atRpc (p : Path) : Bool :=
  p.st == .live && !p.susp && p.words.isEmpty && p.remain == 0 && p.rpc == some p.pc

/-- Pending work of R139-R141: an arrival, a refill of an emptied slot. -/
inductive Todo
  | arrive (sl : Slot)
  | refill (sl : Slot)

/-- One case of R139 for path P in slot sl; the result lists what follows. -/
def arriveOnce (w : Warp) (sl : Slot) : Warp × List Todo :=
  let p := pathOf w sl
  let q := pathOf w (otherSlot sl)
  if !atRpc p then (w, [])
  else if q.st != .empty && q.rpc == p.rpc then
    if q.st == .held then
      let merged := (w.a.mask ||| w.b.mask) &&& ~~~ w.exited
      let w := sigdEvent w 2 merged
      ({ w with a := { p with mask := merged, st := .live }, b := emptyPath }, [.refill .b, .arrive .a])
    else (setPath w sl { p with st := .held }, [])
  else match w.stack with
    | e :: rest =>
      let m := e.mask &&& ~~~ w.exited
      let takes := (e.rpc == p.rpc && e.kind != .join) || (e.kind == .join && some e.pc == p.rpc)
      if takes && m == 0 then ({ w with stack := rest }, [.arrive sl])
      else if e.kind == .arrived && e.rpc == p.rpc then
        let merged := (p.mask ||| m) &&& ~~~ w.exited
        let w := sigdEvent w 2 merged
        (setPath { w with stack := rest } sl { p with mask := merged }, [.arrive sl])
      else if e.kind == .pending && e.rpc == p.rpc then
        let arrived : StackEntry := { kind := .arrived, mask := p.mask, rpc := p.rpc, pc := p.pc }
        (setPath { w with stack := arrived :: rest } sl { p with pc := e.pc, mask := m, rpc := e.rpc, via := 0 },
         [.arrive sl])
      else if e.kind == .join && some e.pc == p.rpc then
        (setPath { w with stack := rest } sl { p with rpc := e.rpc }, [.arrive sl])
      else if q.st == .live then (setPath w sl { p with st := .held }, [])
      else (setPath w sl { p with rpc := none }, [])
    | [] =>
      if q.st == .live then (setPath w sl { p with st := .held }, [])
      else (setPath w sl { p with rpc := none }, [])

/-- Refill an emptied slot from the stack (R140). -/
def refillOnce (w : Warp) (sl : Slot) : Warp × List Todo :=
  if (pathOf w sl).st != .empty then (w, [])
  else match w.stack with
    | [] => (w, [])
    | e :: rest =>
      let m := e.mask &&& ~~~ w.exited
      let both := (pathOf w (otherSlot sl)).st == .empty
      if e.kind == .join && !both then (w, [])
      else if m == 0 then ({ w with stack := rest }, [.refill sl])
      else if e.kind == .join then
        ({ w with stack := rest, a := livePath e.pc m e.rpc }, [.arrive .a])
      else (setPath { w with stack := rest } sl (livePath e.pc m e.rpc), [.arrive sl])

/-- Do pending work in order; the fuel exceeds what 32 stack entries and two slots can cause. -/
def settle : Nat → List Todo → Warp → Warp
  | 0, _, w => w
  | _, [], w => w
  | n + 1, .arrive sl :: t, w => let (w', t') := arriveOnce w sl; settle n (t' ++ t) w'
  | n + 1, .refill sl :: t, w => let (w', t') := refillOnce w sl; settle n (t' ++ t) w'

def settleFuel : Nat := 256

/-- A path has come to a header: it arrives when that header is its RPC (R139). -/
def arrive (w : Warp) (sl : Slot) : Warp := settle settleFuel [.arrive sl] w

/-- A path is no longer held. -/
def unheld (p : Path) : Path := if p.st == .held then { p with st := .live } else p

/-- A slot has emptied: its partner is no longer held; refill and its arrivals; then a partner that stands at its RPC
arrives again (R140, R141). -/
def slotEmptied (w : Warp) (sl : Slot) : Warp :=
  settle settleFuel [.refill sl, .arrive (otherSlot sl)] (modPath (setPath w sl emptyPath) (otherSlot sl) unheld)

/-- The signature of a warp that has nothing left to run (R140). -/
def warpOver (w : Warp) : Bool := w.a.st == .empty && w.b.st == .empty && w.stack.isEmpty

/-- Redirect a path to a header (R160). -/
def transfer (p : Path) (pc via : W64) : Path :=
  { p with pc := pc, words := [], remain := 0, first := false, limits := none, via := via, unsig := false,
           tried := false, push := false }

/-- What a BRD would push (R138, R142). -/
def brdPushes (w : Warp) (sl : Slot) (r : W64) (taken : W32) : List StackEntry :=
  let p := pathOf w sl
  let join : List StackEntry :=
    if some r == p.rpc then [] else [{ kind := .join, mask := p.mask, rpc := p.rpc, pc := r }]
  let side : StackEntry :=
    { kind := .pending, mask := p.mask &&& ~~~ taken, rpc := some r, pc := p.pc + 8 }
  if (pathOf w (otherSlot sl)).st == .empty then join else side :: join

/-- BRD on a path whose word ends its clause at pc (R138); the caller has checked the stack depth. -/
def brd (w : Warp) (sl : Slot) (taken : W32) (target r : W64) : Warp :=
  let p := pathOf w sl
  let n := p.mask &&& ~~~ taken
  let via := p.pc
  if taken == 0 then modPath w sl fun p => transfer p (p.pc + 8) 0
  else if n == 0 then modPath w sl fun p => transfer p target via
  else
    let w' := { w with stack := brdPushes w sl r taken ++ w.stack }
    let w' := if (pathOf w (otherSlot sl)).st == .empty
      then setPath w' (otherSlot sl) (livePath (p.pc + 8) n (some r)) else w'
    sigdEvent (modPath w' sl fun p => { transfer p target via with mask := taken, rpc := some r }) 1 taken

/-- Words that leave SIGS alone: SIGCHK and SIGRST (R171). -/
def sigExempt (w : W64) : Bool := major w == 0x2F || major w == 0x30

/-- Exactly one slot is non-empty (R171). -/
def oneSlot (w : Warp) : Bool := (w.a.st == .empty) != (w.b.st == .empty)

/-- SIGS after the words of an issue unit (R171). -/
def sigsAfter (w : Warp) (ws : List W64) : W32 :=
  if oneSlot w && !sigExempt (unitWord ws) then ws.foldl crcWord w.sigs else w.sigs

/-- Whether a unit's last instruction word carries the switch marker (R54). -/
def unitSw (ws : List W64) : Bool := (unitWord ws).getLsbD 55

/-- The path after its issue unit (R35, R37): PC past it, the clause's rest, parked under SW at a clause's end. -/
def nextPath (p : Path) (ws : List W64) : Path :=
  { p with pc := p.pc + BitVec.ofNat 64 (8 * ws.length), words := p.words.drop ws.length, first := false,
           limits := none, parked := unitSw ws && (p.words.drop ws.length).isEmpty, via := 0, wait := .none,
           unsig := false, tried := false, push := false }

/-- What issuing an issue unit counts, whatever follows (R171, R182). -/
def countW (w : Warp) (sl : Slot) (ws : List W64) : Warp :=
  { w with sigs := if (pathOf w sl).unsig then w.sigs else sigsAfter w ws, issued := w.issued + ws.length }

/-- The issuing path completes a word of its clause (R35, R139, R171); a parked warp leaves the active set (R146). -/
def retireW (w : Warp) (sl : Slot) (ws : List W64) : Warp :=
  let p := nextPath (pathOf w sl) ws
  let w' := countW w sl ws
  arrive (setPath { w' with active := w'.active && !p.parked } sl p) sl

/-- The words of the unit at a path's PC. -/
def unitAt (p : Path) : List W64 := p.words.take (max 1 (unitLen p.words))

/-! The path of a trap (R177). -/

/-- The trapping path stays at its word, with the rest of its clause as a remainder (R35, R177). -/
def squash (p : Path) (fetch : Bool) : Path :=
  { p with remain := if fetch then 0 else if p.words.isEmpty then p.remain else p.words.length, words := [],
           first := false, limits := none, via := 0, wait := .none, unsig := false, tried := false, push := false }

/-- A warp with a trap that waits for delivery. -/
def trapWarp (w : Warp) (sl : Slot) (t : Trap) : Warp :=
  { modPath w sl fun p => squash p t.fetch with heldTrap := some (sl, t), active := false }

end Sys2Proof.Machine
end

