-- ==== Sys2Proof/Machine/Operands.lean ====
section
/-! DEFINITION. Machine/Operands.lean: what each operand form supplies (R40, R47, R48, R63, R184), which registers a
word names (R40, R147), and which lanes it consumes (R185). -/

namespace Sys2Proof.Machine

/-! Values. -/

/-- A 32-bit source of the scalar family (R152). -/
def scaVal (w : Warp) : Src → W32
  | .reg n | .sca n => sget w n.toNat
  | .con n => BitVec.ofNat 32 (constInt 32 n.toNat)

/-- A 64-bit source of the scalar family; a constant is sign-extended (R48). -/
def scaVal64 (w : Warp) : Src → W64
  | .reg n | .sca n => sget64 w n.toNat
  | .con n => BitVec.ofNat 64 (constInt 64 n.toNat)

/-- A source of the mask family (R157). -/
def mskVal (w : Warp) (sl : Slot) : Src → W32
  | .reg n | .sca n => mget w sl n.toNat
  | .con n => BitVec.ofNat 32 (constInt 32 n.toNat)

/-- A register pair's 64 bits in a lane. -/
def vget64 (w : Warp) (n l : Nat) : Nat := (vget w n l).toNat + (vget w (n + 1) l).toNat * 2 ^ 32

/-- Lane l of a vector-family source as a pattern of a type (R63, R184). -/
def laneVal (w : Warp) (t : Ty) (l : Nat) (x : Src) : Nat :=
  let raw := match x with
    | .reg n => if t.is64 then vget64 w n.toNat l else (vget w n.toNat l).toNat
    | .sca n => if t.is64 then (sget64 w n.toNat).toNat else (sget w n.toNat).toNat
    | .con n => constPat t n.toNat
  raw % 2 ^ tyBits t

/-- The 32 raw bits of lane l of a source. -/
def laneRaw (w : Warp) (l : Nat) (x : Src) : W32 :=
  match x with
  | .reg n => vget w n.toNat l
  | .sca n => sget w n.toNat
  | .con n => BitVec.ofNat 32 (constInt 32 n.toNat)

/-- The 32 bits of lane l of a source of a 32-bit type: a constant as R48 gives it for that type. -/
def laneBits (w : Warp) (t : Ty) (l : Nat) (x : Src) : W32 := BitVec.ofNat 32 (laneVal w t l x)

/-- Element i of lane l of a packed source: a constant stands in every element (R184). -/
def lanePacked (w : Warp) (t : Ty) (l i : Nat) (x : Src) : Nat :=
  let b := tyBits t
  match x with
  | .con n => constPat t n.toNat % 2 ^ b
  | x => (laneRaw w l x).toNat / 2 ^ (b * i) % 2 ^ b

/-- Whether reading lane l of a source of a width consumes poison (R185). -/
def lanePoison (w : Warp) (wide : Bool) (l : Nat) : Src → Bool
  | .reg n => vpois w n.toNat l || (wide && vpois w (n.toNat + 1) l)
  | _ => false

/-! Registers named, as pending numbers (R147): v n is n, s n is 256 + n, m n is 512 + n. -/

def pv (n : BitVec 8) (wide : Bool := false) : List Nat := if wide then [n.toNat, n.toNat + 1] else [n.toNat]
def ps (n : BitVec 8) (wide : Bool := false) : List Nat :=
  if wide then [256 + n.toNat, 257 + n.toNat] else [256 + n.toNat]
def pm (n : Nat) : List Nat := if n = 0 then [] else [512 + n]

/-- A source of the scalar family. -/
def pS (x : Src) (wide : Bool := false) : List Nat :=
  match x with
  | .reg n | .sca n => ps n wide
  | .con _ => []

/-- A source of the mask family. -/
def pM : Src → List Nat
  | .reg n | .sca n => pm n.toNat
  | .con _ => []

/-- A source of the vector family. -/
def pV (x : Src) (wide : Bool := false) : List Nat :=
  match x with
  | .reg n => pv n wide
  | .sca n => ps n wide
  | .con _ => []

/-- A scalar field that 0xFF leaves out. -/
def psOr (n : BitVec 8) (wide : Bool := false) : List Nat := if n = 0xFF then [] else ps n wide
def pvOr (n : BitVec 8) (wide : Bool := false) : List Nat := if n = 0xFF then [] else pv n wide

/-- n scalars from a field. -/
def psN (a : BitVec 8) (n : Nat) : List Nat := (List.range n).map (· + 256 + a.toNat)

/-! The memory fields that a word takes from its prefix or from MEMDEF (R49-R52). -/

/-- MEMDEF's codes, as read by the defaults of R51. -/
def defOrd (m : W32) : Ord :=
  match m.toNat % 8 with | 2 => .acq | 3 => .rel | 4 => .acqrel | _ => .none
def defScope (m : W32) : Scope :=
  match m.toNat / 8 % 8 with | 1 => .lane | 2 => .block | 3 => .crew | 4 => .die | 6 => .sys | _ => .pkg
def defSpace (m : W32) : Space :=
  match m.toNat / 64 % 8 with
  | 2 => .scratch | 3 => .window | 4 => .column | 5 => .cshared | 6 => .const | 7 => .tile | _ => .global
def defCache (m : W32) : Cache :=
  match m.toNat / 512 % 8 with | 2 => .stream | 3 => .noalloc | 4 => .lastuse | _ => .norm

/-- The fields in force for a memory word (R52). -/
structure Mods where
  ord : Ord
  scope : Scope
  space : Space
  cache : Cache
  layer : Layer
deriving DecidableEq, Repr

def modsOf (memdef : W32) (p : Option Pfx) : Mods :=
  { ord := (p.bind (·.ord)).getD (defOrd memdef)
    scope := (p.bind (·.scope)).getD (defScope memdef)
    space := (p.bind (·.space)).getD (defSpace memdef)
    cache := (p.bind (·.cache)).getD (defCache memdef)
    layer := match p with | some x => x.layer | none => .none }

/-- The type of a memory word; 0xF never reaches here (R215). -/
def memTy (m : Mem) : Ty := (Ty.ofCode m.ty.toNat).getD .b32

/-- Base, index and predicate of an addressed word. -/
def pAddr (md : W32) (m : Mem) : List Nat :=
  let sp := (modsOf md m.pfx).space
  psOr m.base (sp == .global || sp == .const) ++ pvOr m.index ++ pm m.pred.toNat

/-- Base of a word whose address is always global. -/
def pObj (m : Mem) : List Nat := psOr m.base true ++ pm m.pred.toNat

def mtxGlobal (o : BitVec 6) : Bool := o.toNat % 8 == 1

/-- Every register that a word names, read or written (R40, R147). -/
def regsOf (md : W32) : Instr → List Nat
  | .sadd g | .ssub g | .smul g | .smulhi g | .smin g | .smax g | .sand g | .sor g | .sxor g
  | .sshl g | .sshr g | .ssar g | .scmp g => ps g.d ++ pS g.a ++ pS g.b
  | .snot g | .spopc g | .sclz g | .smov g => ps g.d ++ pS g.a
  | .sbfe g | .ssel g => ps g.d ++ pS g.a ++ pS g.b ++ pS g.c
  | .smovi m => ps m.d
  | .sadd64 g => ps g.d true ++ pS g.a true ++ pS g.b true
  | .sldk m => ps m.d (m.sub == 1) ++ psOr m.a
  | .mset g => pm g.d.toNat ++ pS g.a
  | .mget g | .mpop g | .mfind g => ps g.d ++ pM g.a
  | .mand g | .mor g | .mxor g | .mandn g => pm g.d.toNat ++ pM g.a ++ pM g.b
  | .bra _ | .reconv _ | .exit _ | .yield _ | .nop _ | .waitcnt _ | .trap _ | .tret _ | .sigchk _ | .sigrst _
  | .brk _ => []
  | .brc b => [256 + b.fld.toNat / 256]
  | .brd b => pm (b.cond.toNat % 8)
  | .call b => [256 + b.fld.toNat / 256, 257 + b.fld.toNat / 256]
  | .jmpi g | .ret g => pS g.a true
  | .spawn g =>
    pm g.d.toNat ++ pS g.b true ++ (match g.a with | .reg n => psN n 8 | _ => [])
  | .sleep g => pS g.a
  | .sread g =>
    (match g.a with
     | .reg a =>
       if g.sub.getLsbD 0 then pv g.d (selWide a.toNat) else ps g.d (selWide a.toNat)
     | _ => [])
  | .swrite g => pS g.a (g.d == 0x10)
  | .reggrow g => pm g.d.toNat
  | .regshrink _ => []
  | .vadd g | .vsub g | .vmul g | .vmulhi g | .vmin g | .vmax g | .vand g | .vor g | .vxor g | .vshl g | .vshr g
  | .vsar g | .vsadd g | .vh2add g | .vh2mul g => pm g.pred.toNat ++ pv g.d ++ pV g.a ++ pV g.b
  | .vmad g | .vbfe g | .vbfi g | .vperm g | .vh2fma g | .vdot2 g =>
    pm g.pred.toNat ++ pv g.d ++ pV g.a ++ pV g.b ++ pV g.c
  | .vaddc g | .vsel g => pm g.pred.toNat ++ pv g.d ++ pV g.a ++ pV g.b ++ pM g.c
  | .vadd64 g | .vdadd g | .vdmul g => pm g.pred.toNat ++ pv g.d true ++ pV g.a true ++ pV g.b true
  | .vdfma g => pm g.pred.toNat ++ pv g.d true ++ pV g.a true ++ pV g.b true ++ pV g.c true
  | .vabs g | .vnot g | .vpopc g | .vclz g | .vbrev g | .vmov g | .vsfu g => pm g.pred.toNat ++ pv g.d ++ pV g.a
  | .vcmp g => pm g.pred.toNat ++ pm g.d.toNat ++ pV g.a ++ pV g.b
  | .vmovi m => pm m.pred.toNat ++ pv m.d
  | .vfadd g | .vfsub g | .vfmul g | .vfmin g | .vfmax g | .vfdiv g =>
    pm g.pred.toNat ++ pv g.d g.ty.is64 ++ pV g.a g.ty.is64 ++ pV g.b g.ty.is64
  | .vfma g => pm g.pred.toNat ++ pv g.d ++ pV g.a ++ pV g.b ++ pV g.c
  | .vfcmp g => pm g.pred.toNat ++ pm g.d.toNat ++ pV g.a g.ty.is64 ++ pV g.b g.ty.is64
  | .vfclass g => pm g.pred.toNat ++ pv g.d ++ pV g.a g.ty.is64
  | .vfrnd g => pm g.pred.toNat ++ pv g.d g.ty.is64 ++ pV g.a g.ty.is64
  | .vcvt g => pm g.pred.toNat ++ pv g.d g.ty.is64 ++ pV g.a ((Ty.ofCode g.sub.toNat).getD .b32).is64
  | .vexpr g x =>
    let used (c : Nat) (s : Src) : List Nat := if x.tokens.any (·.1 == c) then pV s else []
    pm g.pred.toNat ++ pv g.d ++ used 1 g.a ++ used 2 g.b ++ used 3 g.c
  | .vote g => pm g.pred.toNat ++ ps g.d ++ pV g.a ++ pm (g.sub.toNat % 8) ++ pm (g.sub.toNat / 8 % 8)
  | .shfl g | .vcompact g =>
    pm g.pred.toNat ++ pv g.d ++ pV g.a ++ pV g.b ++ pm (g.sub.toNat % 8) ++ pm (g.sub.toNat / 8 % 8)
  | .vred g | .vscan g | .matchl g =>
    pm g.pred.toNat ++ pv g.d ++ pV g.a ++ pm (g.sub.toNat % 8) ++ pm (g.sub.toNat / 8 % 8)
  | .v2s g => pm g.pred.toNat ++ ps g.d ++ pV g.a ++ pV g.b ++ pm (g.sub.toNat % 8) ++ pm (g.sub.toNat / 8 % 8)
  | .s2v g => pm g.pred.toNat ++ pv g.d ++ pV g.a ++ pV g.b
  | .vld m | .vst m => pAddr md m ++ pv m.data (memTy m).is64
  | .vldx m | .vstx m => pAddr md m ++ (List.range 4).map (· + m.data.toNat)
  | .sld m | .sst m => pAddr md m ++ ps m.data (memTy m).is64
  | .atom m x => pAddr md m ++ pv m.data (memTy m).is64 ++ pvOr x.ret (memTy m).is64
  | .atomcas m x => pAddr md m ++ pv m.data (memTy m).is64 ++ pv x.cmp (memTy m).is64 ++ pvOr x.ret (memTy m).is64
  | .mwait m x =>
    pObj m ++ ps m.data (memTy m).is64 ++ ps x.cmp (memTy m).is64 ++ ps x.tmo ++ pm x.m.toNat
  | .fence m => pm m.pred.toNat
  | .acq m | .rel m => pObj m ++ ps m.data true
  | .bind m | .bindt m => pObj m ++ psN m.data 4
  | .unbind m => pObj m
  | .cinv m | .cwb m | .cpref m | .free m => pObj m ++ ps m.data
  | .alloc m => psOr m.base ++ pm m.pred.toNat ++ ps m.data true
  | .crnew w => ps w.d
  | .crjoin w | .crleave w | .crsync w => ps w.h
  | .crarrive w | .crquery w | .crmap w => ps w.d ++ ps w.h
  | .crwait w => ps w.h ++ ps w.b
  | .bcopy w | .bcopyc w =>
    (if w.tok = 0xFF then [] else ps w.tok) ++ psOr w.sl true ++ psOr w.h ++
    (if w.mem then ps w.sd true ++ ps w.dd true else psN w.sd 8 ++ psN w.dd 8) ++
    (if w.sta = 0xFF then [] else ps w.sta true ++ ps w.stv true)
  | .bseal _ | .bwait _ => []
  | .bquery w => ps w.d
  | .bcancel w => ps w.d ++ ps w.a
  | .tclaim w => ps w.d
  | .trel _ | .mma _ | .mmasp _ | .mdist _ | .czero _ => []
  | .tload w | .cload w => ps w.a (mtxGlobal w.opt) ++ ps w.b
  | .tloads w => ps w.a true
  | .mloop w => psN w.a 8
  | .mtopk w => ps w.b
  | .cstore w => if w.opt.toNat < 8 then ps w.a (mtxGlobal w.opt) ++ ps w.b else []
  | .cpop w => pm w.pred.toNat ++ pv w.d
  | .msync w => ps w.d
  | .qpush w => pm w.pred.toNat ++ pv w.a
  | .qpop w | .qpeek w => pm w.pred.toNat ++ pv w.d
  | .qcount w => ps w.d
  | .pmread g => ps g.d true
  | .qpost g => pS g.a true ++ pS g.b
  | _ => []

/-- The lanes of a mask for which a predicate holds. -/
def lanesWhere (m : W32) (p : Nat → Bool) : W32 := ofBits 32 fun l => m.getLsbD l && p l

/-- Write one value per lane of a mask (R184). -/
def writeLanes (w : Warp) (d : Nat) (mask : W32) (f : Nat → W32) : Warp :=
  (setBits mask).foldl (fun w l => vset w d l (f l)) w

/-- Write a value of a type per lane: a pair for 64 bits, a narrow value under R63. -/
def writeTy (w : Warp) (d : Nat) (mask : W32) (t : Ty) (f : Nat → Nat) : Warp :=
  if t.is64 then
    (setBits mask).foldl (fun w l =>
      vset (vset w d l (BitVec.ofNat 32 (f l))) (d + 1) l (BitVec.ofNat 32 (f l / 2 ^ 32))) w
  else writeLanes w d mask fun l => BitVec.ofNat 32 (widen t (f l))

end Sys2Proof.Machine
end

