-- ==== Sys2Proof/Machine/Flags.lean ====
section
/-! DEFINITION. Machine/Flags.lean: conditions and what they write.  The part has no arithmetic flags: a comparison
writes a mask or a scalar (R155, R191, R194), VADDC carries in a mask (R188), and saturation is per word (R68). -/

namespace Sys2Proof.Machine

/-- The six conditions of R155 on integers. -/
def condInt (cc : Nat) (a b : Int) : Bool :=
  match cc with
  | 0 => a == b
  | 1 => a != b
  | 2 => a < b
  | 3 => a ≥ b
  | 4 => a > b
  | _ => a ≤ b

/-- The conditions of R155 on patterns of a type. -/
def condTy (t : Ty) (cc a b : Nat) : Bool := condInt cc (intOf t a) (intOf t b)

/-- BRC's conditions on a signed scalar against zero (R44). -/
def condZero (cc : Nat) (x : W32) : Bool := condInt cc x.toInt 0

/-- The conditions of VFCMP (R194). -/
def condFloat (f : Fmt) (cc a b : Nat) : Bool :=
  let x := unpack f a
  let y := unpack f b
  let un := x.isNan || y.isNan
  match cc with
  | 0 => eqV x y
  | 1 => un || !eqV x y
  | 2 => ltV x y
  | 3 => !un && !ltV x y
  | 4 => ltV y x
  | 5 => !un && !ltV y x
  | 6 => un
  | _ => !un

/-- A mask destination takes one bit per executing lane; the other bits stand (R191). -/
def maskWrite (old exec : W32) (p : Nat → Bool) : W32 := (old &&& ~~~ exec) ||| lanesWhere exec p

/-- The class bit of R195. -/
def fclass (f : Fmt) (x : Nat) : Nat :=
  let fr := x % 2 ^ f.fb
  let ex := x / 2 ^ f.fb % 2 ^ f.eb
  let neg := x / 2 ^ (f.eb + f.fb) % 2 = 1
  if ex = 2 ^ f.eb - 1 then
    (if fr = 0 then (if neg then 0 else 7) else if fr ≥ 2 ^ (f.fb - 1) then 9 else 8)
  else if ex = 0 then
    (if fr = 0 then (if neg then 3 else 4) else if neg then 2 else 5)
  else if neg then 1 else 6

/-- Carry or borrow of R188: sum and carry out. -/
def addCarry (sub : Bool) (a b c : Nat) : Nat × Bool :=
  if sub then (wrapN 32 ((a : Int) - b - c), (a : Int) - b - c < 0)
  else ((a + b + c) % 2 ^ 32, a + b + c ≥ 2 ^ 32)

end Sys2Proof.Machine
end

