-- ==== Sys2Proof/Machine/Crypto.lean ====
section
/-! DEFINITION. Machine/Crypto.lean: AES-256-XTS of sealed windows (R364), on bytes held as numbers. -/

namespace Sys2Proof.Machine

def xtime (a : Nat) : Nat := if a < 128 then 2 * a else Nat.xor (2 * a - 256) 0x1B

def gmulGo : Nat → Nat → Nat → Nat → Nat
  | 0, _, _, acc => acc
  | k + 1, a, b, acc => gmulGo k (xtime a) (b / 2) (if b % 2 = 1 then Nat.xor acc a else acc)

def gmul (a b : Nat) : Nat := gmulGo 8 a b 0

/-- a^254: the inverse in GF(2^8), 0 for 0. -/
def ginv (a : Nat) : Nat :=
  let a2 := gmul a a
  let a4 := gmul a2 a2
  let a8 := gmul a4 a4
  let a16 := gmul a8 a8
  let a32 := gmul a16 a16
  let a64 := gmul a32 a32
  let a128 := gmul a64 a64
  gmul a2 (gmul a4 (gmul a8 (gmul a16 (gmul a32 (gmul a64 a128)))))

def rotl8 (a k : Nat) : Nat := (a * 2 ^ k + a / 2 ^ (8 - k)) % 256

def sbox (a : Nat) : Nat :=
  let b := ginv a
  Nat.xor 0x63 (Nat.xor b (Nat.xor (rotl8 b 1) (Nat.xor (rotl8 b 2) (Nat.xor (rotl8 b 3) (rotl8 b 4)))))

def sboxInv (a : Nat) : Nat :=
  ginv (Nat.xor 0x05 (Nat.xor (rotl8 a 1) (Nat.xor (rotl8 a 3) (rotl8 a 6))))

def xorL (a b : List Nat) : List Nat := List.zipWith Nat.xor a b

/-- The key schedule: words of four bytes, latest first. -/
def expandGo : Nat → Nat → Nat → List (List Nat) → List (List Nat)
  | 0, _, _, ws => ws
  | n + 1, i, rc, ws =>
    let prev := ws.headD []
    let back := ws.getD 7 []
    let t := if i % 8 = 0 then
        match prev.map sbox with
        | [a, b, c, d] => [Nat.xor b rc, c, d, a]
        | l => l
      else if i % 8 = 4 then prev.map sbox else prev
    expandGo n (i + 1) (if i % 8 = 0 then xtime rc else rc) (xorL back t :: ws)

def chunks4 : List Nat → List (List Nat)
  | a :: b :: c :: d :: t => [a, b, c, d] :: chunks4 t
  | _ => []

/-- The 15 round keys of 16 bytes. -/
def roundKeys (key : List Nat) : List (List Nat) :=
  let ws := (expandGo 52 8 1 (chunks4 key).reverse).reverse
  (List.range 15).map fun r => ((List.range 4).map fun c => ws.getD (4 * r + c) []).flatten

def shiftRows (s : List Nat) : List Nat :=
  (List.range 16).map fun i => s.getD ((i % 4) + 4 * ((i / 4 + i % 4) % 4)) 0

def shiftRowsInv (s : List Nat) : List Nat :=
  (List.range 16).map fun i => s.getD ((i % 4) + 4 * ((i / 4 + 4 - i % 4) % 4)) 0

def mixWith (k : List Nat) (s : List Nat) : List Nat :=
  (List.range 16).map fun i =>
    (List.range 4).foldl (fun acc j =>
      Nat.xor acc (gmul (k.getD ((j + 4 - i % 4) % 4) 0) (s.getD (4 * (i / 4) + j) 0))) 0

def aesRound (s k : List Nat) : List Nat := xorL (mixWith [2, 3, 1, 1] (shiftRows (s.map sbox))) k

def aesEnc (rks : List (List Nat)) (s : List Nat) : List Nat :=
  let s := xorL s (rks.getD 0 [])
  let s := (List.range 13).foldl (fun s i => aesRound s (rks.getD (i + 1) [])) s
  xorL (shiftRows (s.map sbox)) (rks.getD 14 [])

def aesDec (rks : List (List Nat)) (s : List Nat) : List Nat :=
  let s := (shiftRowsInv (xorL s (rks.getD 14 []))).map sboxInv
  let s := (List.range 13).foldl (fun s i =>
    (shiftRowsInv (mixWith [14, 11, 13, 9] (xorL s (rks.getD (13 - i) [])))).map sboxInv) s
  xorL s (rks.getD 0 [])

def natBytes (n x : Nat) : List Nat := (List.range n).map fun i => x / 256 ^ i % 256

/-- Multiply a tweak by x in GF(2^128), little-endian. -/
def tweakNext (t : Nat) : Nat :=
  let d := 2 * t
  if d ≥ 2 ^ 128 then Nat.xor (d - 2 ^ 128) 0x87 else d

def bytesNat : List Nat → Nat
  | [] => 0
  | b :: t => b + 256 * bytesNat t

def xtsGo (f : List Nat → List Nat) : Nat → Nat → List Nat → List Nat
  | 0, _, _ => []
  | n + 1, t, bs =>
    let tb := natBytes 16 t
    xorL (f (xorL (bs.take 16) tb)) tb ++ xtsGo f n (tweakNext t) (bs.drop 16)

/-- XTS over whole blocks; the tweak is the unit's first physical byte address (R364). -/
def xts (enc : Bool) (key : BitVec 512) (addr : Nat) (bs : List Byte) : List Byte :=
  let k1 := roundKeys (natBytes 32 (key.toNat % 2 ^ 256))
  let k2 := roundKeys (natBytes 32 (key.toNat / 2 ^ 256))
  let t := bytesNat (aesEnc k2 (natBytes 16 addr))
  let data := bs.map (·.toNat)
  (xtsGo (if enc then aesEnc k1 else aesDec k1) (bs.length / 16) t data).map (BitVec.ofNat 8)

end Sys2Proof.Machine
end

