-- ==== Sys2Proof/Machine/Home.lean ====
section
/-! DEFINITION. Machine/Home.lean: physical memory, windows, slices and the coherence protocol of chapter 15. -/

namespace Sys2Proof.Machine

/-! Units and their numbers (R15, R414). -/

def coreOf (s : State) (c : Nat) : Core := tgetD s.cores c {}
def setCore (s : State) (c : Nat) (x : Core) : State := { s with cores := tins s.cores c x }
def modCore (s : State) (c : Nat) (f : Core → Core) : State := setCore s c (f (coreOf s c))
def modWarp (s : State) (c w : Nat) (f : Warp → Warp) : State :=
  modCore s c fun co => { co with warps := tmod co.warps w f }
def modBlock (s : State) (c b : Nat) (f : Block → Block) : State :=
  modCore s c fun co => { co with blocks := tmod co.blocks b f }
def sliceOf (s : State) (h : Nat) : Slice := tgetD s.slices h {}
def modSlice (s : State) (h : Nat) (f : Slice → Slice) : State :=
  { s with slices := tins s.slices h (f (sliceOf s h)) }
def modDev (s : State) (f : Dev → Dev) : State := { s with dev := f s.dev }

def chipletOf (core : Nat) : Nat := core / 128
def portOf (core : Nat) : Nat := 4 * (core / 128) + core / 16 % 4
/-- Cluster number of a core: chiplet × 8 + tier × 4 + cluster; also its copy engine (R15). -/
def clusterOf (core : Nat) : Nat := core / 128 * 8 + core / 64 % 2 * 4 + core / 16 % 4
def partnerOf (core : Nat) : Nat := if core / 64 % 2 = 0 then core + 64 else core - 64
/-- Logical column position: pair and position in the cluster (R337). -/
def pairOf (core : Nat) : Nat := portOf core
def posOf (core : Nat) : Nat := core % 16

/-- The lowest chiplet of a partition: its number, or in minimal mode the chiplet that is kept (R414, R419). -/
def lowSite (s : State) (p : Nat) : Nat := if s.dev.mode = 1 then s.dev.keptChiplet else p

/-- The partition that owns a chiplet (R414). -/
def partOfChiplet (s : State) (c : Nat) : Option Nat :=
  (s.parts.find? fun (p, x) => lowSite s p ≤ c && c < lowSite s p + x.n).map (·.1)

def partOfCore (s : State) (core : Nat) : Option Nat := partOfChiplet s (core / 128)
def chipletsOf (s : State) (p : Nat) : List Nat :=
  match tget s.parts p with
  | some x => (List.range x.n).map (· + lowSite s p)
  | none => []

/-! Memory cells. -/

/-- One byte of DRAM; an address nothing has written reads as zero (log 2). -/
def memRead (m : List Host.Cell) (a : Nat) : Byte := tgetD m a 0
def memWrite (m : List Host.Cell) (a : Nat) (b : Byte) : List Host.Cell := tput 0 m a b

/-- The canonical form of memory: addresses rising, no zero byte listed. -/
def memWf (m : List Host.Cell) : Bool := tsorted m && m.all fun c => c.2 != 0

/-- n bytes from an address, in one pass. -/
def memBytes (m : List Host.Cell) (a n : Nat) : List Byte :=
  let near := m.filter fun c => a ≤ c.1 && c.1 < a + n
  (List.range n).map fun i => memRead near (a + i)

def memPut (m : List Host.Cell) (a : Nat) (bs : List Byte) : List Host.Cell :=
  ((List.range bs.length).zip bs).foldl (fun m (i, b) => memWrite m (a + i) b) m

/-! Lines. -/

def lineBytes (l : Line) : List Byte := (List.range 128).map (byteOf l)
def ofLineBytes (bs : List Byte) : Line := BitVec.ofNat 1024 (leNat bs)

/-- The 1,024-bit mask of a byte mask. -/
def maskBits (m : LineMask) : Line := ofBits 1024 fun i => m.getLsbD (i / 8)

/-- The masked bytes of `new` over `old`. -/
def mergeLine (old new : Line) (m : LineMask) : Line :=
  let k := maskBits m
  (old &&& ~~~ k) ||| (new &&& k)

/-- n bytes at an offset in a line. -/
def lineField (l : Line) (off n : Nat) : Nat := l.toNat / 256 ^ off % 256 ^ n

def fieldLine (off n x : Nat) : Line := BitVec.ofNat 1024 (x % 256 ^ n * 256 ^ off)
def fieldMask (off n : Nat) : LineMask := BitVec.ofNat 128 ((2 ^ n - 1) * 2 ^ off)

/-- Sectors a mask touches, and those it covers whole. -/
def sectorsTouched (m : LineMask) : BitVec 4 := ofBits 4 fun i => m.extractLsb' (32 * i) 32 != 0
def sectorsWhole (m : LineMask) : BitVec 4 := ofBits 4 fun i => m.extractLsb' (32 * i) 32 == BitVec.allOnes 32

/-! Physical address map (R344) and the choice of home (R345). -/

def isDram (line : Nat) : Bool := line < 2 ^ 33
def isPacked (line : Nat) : Bool := 2 ^ 33 ≤ line && line < 2 ^ 34
def isRemote (line : Nat) : Bool := 2 ^ 40 ≤ line && line < 2 ^ 41
def agentOfLine (line : Nat) : Nat := line / 2 ^ 34 % 64

/-- The controller of a line of site c, 4c + q, and the stack that it drives (R344). -/
def controllerOf (line : Nat) : Nat := 4 * (line / 2 ^ 30 % 8) + Nat.xor (line / 2 % 4) (line / 2 ^ 9 % 4)
def stackOf (line : Nat) : Nat := 2 * (line / 2 ^ 30 % 8) + controllerOf line % 4 / 2

/-! Windows (R363-R365). -/

def winBase (w : WinRegs) : Nat := w.base.toNat % 2 ^ 32 * 65536
def winLimit (w : WinRegs) : Nat := w.base.toNat / 2 ^ 32 * 65536
def winStore (w : WinRegs) : Nat := w.store.toNat % 2 ^ 32 * 65536
def winKt (w : WinRegs) : Nat := w.scale.toNat / 2 ^ 48 % 2 ^ 12 + 1
def winScaleBase (w : WinRegs) : Nat := w.scale.toNat / 2 ^ 7 % 2 ^ 41 * 128
def winFormat (w : WinRegs) : Nat := w.ctl.toNat % 4
def winSealOf (w : WinRegs) : Nat := w.ctl.toNat / 4 % 4
def winKeySlot (w : WinRegs) : Nat := w.ctl.toNat / 16 % 64
def winPart (w : WinRegs) : Nat := w.ctl.toNat / 1024 % 8
def winValid (w : WinRegs) : Bool := w.ctl.getLsbD 13
def winScaleV (w : WinRegs) : Bool := w.ctl.getLsbD 14
/-- Length of the scale region (R363). -/
def winScaleLen (w : WinRegs) : Nat :=
  let size := winLimit w - winBase w
  let rows := (size + 64 * winKt w - 1) / (64 * winKt w)
  (rows + 63) / 64 * winKt w * 128

/-- The valid window that covers a physical address. -/
def windowAt (s : State) (pa : Nat) : Option (Nat × WinRegs) :=
  s.windows.find? fun (_, w) => winValid w && winBase w ≤ pa && pa < winLimit w

/-- The window whose packed storage covers a DRAM address. -/
def storageAt (s : State) (pa : Nat) : Option (Nat × WinRegs) :=
  s.windows.find? fun (_, w) => winValid w && winFormat w == 1 && winStore w ≤ pa &&
    pa < winStore w + (winLimit w - winBase w) / 128 * 96

def packedLine (s : State) (line : Nat) : Bool := isPacked line && (windowAt s (128 * line)).isSome

/-- The window in LOAD or ACTIVE that a line belongs to: a logical line of it, or a DRAM line of its storage (R364). -/
def sealedWin (s : State) (line : Nat) : Option WinRegs :=
  let found := match windowAt s (128 * line) with
    | some p => some p
    | none => storageAt s (128 * line)
  match found with
  | some (_, w) => if winSealOf w == 1 || winSealOf w == 2 then some w else none
  | none => none

def sealedLine (s : State) (line : Nat) : Bool := (sealedWin s line).isSome

/-- A packed-aperture line that no window covers is backed by nothing (R344). -/
def unbacked (s : State) (line : Nat) : Bool := isPacked line && !packedLine s line

/-- The partition of a line (R345); `ctx` is the partition of the accessing context. -/
def partOfLine (s : State) (ctx line : Nat) : Nat :=
  if isDram line then (partOfChiplet s (line / 2 ^ 30 % 8)).getD ctx
  else if isPacked line then (match windowAt s (128 * line) with | some (_, w) => winPart w | none => ctx)
  else (tget s.dev.agents (agentOfLine line)).getD ctx

/-- The fold of R345. -/
def foldPa (pa : Nat) : Nat :=
  let f (i : Nat) := pa / 2 ^ (7 + 8 * i) % 256
  Nat.xor (f 0) (Nat.xor (f 1) (Nat.xor (f 2) (Nat.xor (f 3) (Nat.xor (f 4) (pa / 2 ^ 47 % 2)))))

/-- The home slice by the hash (R345). -/
def hashHome (s : State) (part line : Nat) : Nat :=
  let f := foldPa (128 * line)
  let n := match tget s.parts part with | some x => x.n | none => 1
  32 * (lowSite s part + f / 32 % 8 % n) + f % 32

/-! DRAM lines as the controllers give them (R352, R364, R365, R367). -/

def keyOf (s : State) (w : WinRegs) : BitVec 512 := tgetD s.keys (winKeySlot w) 0

/-- The 96 stored bytes of a packed line. -/
def storedAt (w : WinRegs) (line : Nat) : Nat := winStore w + 96 * (line - winBase w / 128)

def packT6 (bs : List Byte) : List Byte :=
  leBytes 96 (((List.range 128).zip bs).foldl (fun a (i, b) => a + encodeT6 (decodeT8 b.toNat) * 64 ^ i) 0)

def expandT6 (bs : List Byte) : List Byte :=
  let n := leNat bs
  (List.range 128).map fun i => BitVec.ofNat 8 (n / 64 ^ i % 64 * 4)

def sectorPoison (s : State) (a n : Nat) : Bool :=
  s.memPoison.any fun k => overlaps (32 * k) 32 a n

/-- Poison of a line's sectors in DRAM. -/
def dramPoison (s : State) (line : Nat) : BitVec 4 :=
  match windowAt s (128 * line) with
  | some (_, w) =>
    if winFormat w = 1 then ofBits 4 fun i => sectorPoison s (storedAt w line + 24 * i) 24
    else ofBits 4 fun i => smem s.memPoison (4 * line + i)
  | none => ofBits 4 fun i => smem s.memPoison (4 * line + i)

/-- What a fill brings: data and poison by sector. -/
def dramLine (s : State) (line : Nat) : Line × BitVec 4 :=
  let data := match windowAt s (128 * line) with
    | some (_, w) =>
      if winFormat w = 1 then
        let a := storedAt w line
        let raw := memBytes s.mem a 96
        ofLineBytes (expandT6 (if winSealOf w = 2 then xts false (keyOf s w) a raw else raw))
      else
        let a := 128 * line
        let raw := memBytes s.mem a 128
        ofLineBytes (if winSealOf w = 2 then xts false (keyOf s w) a raw else raw)
    | none => ofLineBytes (memBytes s.mem (128 * line) 128)
  (data, dramPoison s line)

/-- The POISON bit of a DRAM line's sideband glaze follows its sectors (R352). -/
def noteGlaze (s : State) (line : Nat) : State :=
  if isDram line then
    let bad := (List.range 4).any fun i => smem s.memPoison (4 * line + i)
    { s with glaze := tput 0 s.glaze line (setBit (tgetD s.glaze line 0) 25 bad) }
  else s

/-- The poison of the dirty sectors of a line, as they are written. -/
def poisonSet (p : NatSet) (line : Nat) (dirty poison : BitVec 4) : NatSet :=
  foldN 4 (fun i p => if dirty.getLsbD i then sput p (4 * line + i) (poison.getLsbD i) else p) p

/-- Write a line back: data and poison of the dirty sectors (R347, R365). -/
def dramStore (s : State) (line : Nat) (data : Line) (dirty poison : BitVec 4) : State :=
  if dirty = 0 then s
  else
    let bs := lineBytes data
    match windowAt s (128 * line) with
    | some (_, w) =>
      if winFormat w = 1 then
        let a := storedAt w line
        let st := packT6 bs
        let st := if winSealOf w = 2 then xts true (keyOf s w) a st else st
        let bad := (List.range 4).filter poison.getLsbD
        let hit (k : Nat) := bad.any fun i => overlaps (32 * k) 32 (a + 24 * i) 24
        let s := { s with mem := memPut s.mem a st
                          memPoison := foldN 3 (fun i p => sput p (a / 32 + i) (hit (a / 32 + i))) s.memPoison }
        noteGlaze (noteGlaze s (a / 128)) ((a + 95) / 128)
      else
        let a := 128 * line
        let st := if winSealOf w = 2 then xts true (keyOf s w) a bs else bs
        noteGlaze { s with mem := memPut s.mem a st, memPoison := poisonSet s.memPoison line dirty poison } line
    | none =>
      let parts := (List.range 4).filter dirty.getLsbD
      noteGlaze { s with
        mem := parts.foldl (fun m i => memPut m (128 * line + 32 * i) ((bs.drop (32 * i)).take 32)) s.mem
        memPoison := poisonSet s.memPoison line dirty poison } line

/-! Glaze (R352). -/

def glazeState (g : W32) : Nat := g.toNat % 8
def glazeOwner (g : W32) : Nat := g.toNat / 8 % 64
def glazeSharers (g : W32) : Nat := g.toNat / 512 % 65536

def glazeMk (st owner sharers : Nat) (poison : Bool) : W32 :=
  BitVec.ofNat 32 (st + owner * 8 + sharers * 512 + (if poison then 2 ^ 25 else 0))

/-- A glaze word that breaks the table of R352. -/
def glazeBad (g : W32) : Bool :=
  glazeState g > 4 || g.toNat / 2 ^ 26 != 0 || (glazeOwner g != 0 && (glazeState g ≤ 1)) ||
  (glazeSharers g != 0 && glazeState g != 1 && glazeState g != 3)

/-- The coherence domain: in CXL mode the host, and the agents assigned to a partition (R407, R413). -/
def domain (s : State) : List Nat := (if s.dev.cxl then [0] else []) ++ (tkeys s.dev.agents).filter (· != 0)

/-- The agents that a SHARERS field covers. -/
def sharersOf (s : State) (g : W32) : List Nat :=
  (domain s).filter fun a => glazeSharers g / 2 ^ (a / 4) % 2 == 1

def addSharer (sh a : Nat) : Nat := if sh / 2 ^ (a / 4) % 2 = 1 then sh else sh + 2 ^ (a / 4)

/-! Ways (R347). -/

def setOf (line : Nat) : Nat := Nat.xor (line % 512) (line / 512 % 512)

def findWay (sl : Slice) (line : Nat) : Option (Nat × Way) :=
  sl.ways.find? fun (_, w) => w.line == line

def provsOf (sl : Slice) (st : Nat) : Nat := (sl.provs.filter fun p => setOf p.line == st).length

/-- The way a tree of 15 bits points at (log 14). -/
def plruWay (t : BitVec 15) : Nat :=
  let b0 := if t.getLsbD 0 then 1 else 0
  let b1 := if t.getLsbD (1 + b0) then 1 else 0
  let b2 := if t.getLsbD (3 + 2 * b0 + b1) then 1 else 0
  let b3 := if t.getLsbD (7 + 4 * b0 + 2 * b1 + b2) then 1 else 0
  8 * b0 + 4 * b1 + 2 * b2 + b3

/-- After a use of a way, the tree points away from it. -/
def plruTouch (t : BitVec 15) (w : Nat) : BitVec 15 :=
  let b0 := w / 8 % 2
  let b1 := w / 4 % 2
  let b2 := w / 2 % 2
  let t := setBit t 0 (b0 == 0)
  let t := setBit t (1 + b0) (b1 == 0)
  let t := setBit t (3 + 2 * b0 + b1) (b2 == 0)
  setBit t (7 + 4 * b0 + 2 * b1 + b2) (w % 2 == 0)

def touch (sl : Slice) (key : Nat) : Slice :=
  { sl with plru := tput 0 sl.plru (key / 16) (plruTouch (tgetD sl.plru (key / 16) 0) (key % 16)) }

def send (s : State) (m : Msg) : State := { s with outbox := s.outbox ++ [m] }

/-- The agent that homes a remote line. -/
def sendHome (s : State) (k : MKind) (line : Nat) (data : Line := 0) (mask : LineMask := 0) : State :=
  send s { agent := agentOfLine line, kind := k, line := line, data := data, mask := mask }

/-- Another slice holds the line too: mappings of its frame disagree on NEAR (R346). -/
def twoHomes (s : State) (h line : Nat) : Bool :=
  s.slices.any fun (k, sl) => k != h && (findWay sl line).isSome

/-- A way leaves the slice: dirty sectors and glaze go to DRAM; a remote line is given up (R347, R357). -/
def evict (s : State) (h key : Nat) (w : Way) : State :=
  let s := modSlice s h fun sl => { sl with ways := tdel sl.ways key }
  match w.held with
  | none =>
    let twice := twoHomes s h w.line
    let data := if twice then Config.nearConflict s.freeCount else w.data
    let s := if twice then { s with freeCount := s.freeCount + 1 } else s
    let s := dramStore s w.line data (w.dirty &&& w.valid) w.poison
    if w.glazeDirty then { s with glaze := tput 0 s.glaze w.line w.glaze } else s
  | some .s => s
  | some st =>
    let k : MKind := if st == .e then .wbc else .wbd
    let s := sendHome s k w.line w.data
    modSlice s h fun sl =>
      { sl with entries := sl.entries ++
          [{ line := w.line, phase := .sentWb, cur := .own { core := 1024, line := w.line, home := h, act := .probe },
             since := s.clock }] }

def entryOf (sl : Slice) (line : Nat) : Option TEntry := sl.entries.find? (·.line == line)

/-- The way key for a new line: a free one, else the victim.  Provisional ways are never victims, and a remote line
whose message is not answered stays (R347, R357). -/
def chooseWay (sl : Slice) (line : Nat) : Nat :=
  let st := setOf line
  let keys := ((List.range 16).map (· + 16 * st)).filter fun k => !sl.provs.any fun p => p.key == k
  match keys.find? fun k => (tget sl.ways k).isNone with
  | some k => k
  | none =>
    let keys := keys.filter fun k => match tget sl.ways k with
      | some w => w.held.isNone || (entryOf sl w.line).isNone
      | none => true
    match keys.find? fun k => (match tget sl.ways k with | some w => w.first | none => false) with
    | some k => k
    | none =>
      let k := 16 * st + plruWay (tgetD sl.plru st 0)
      if keys.contains k then k else keys.headD (16 * st)

/-- A way whose cached glaze has the POISON bit as its sectors have it: those it holds dirty, the others as DRAM has
them (R352). -/
def stamped (s : State) (w : Way) : Way :=
  let bad := ((w.poison &&& w.valid) ||| (dramPoison s w.line &&& ~~~ (w.dirty &&& w.valid))) != 0
  if w.held.isSome || !isDram w.line || w.glaze.getLsbD 25 == bad then w
  else { w with glaze := setBit w.glaze 25 bad, glazeDirty := true }

/-- Bring a way into a slice, evicting the victim. -/
def fillWay (s : State) (h : Nat) (w : Way) : State :=
  let sl := sliceOf s h
  let key := match findWay sl w.line with | some (k, _) => k | none => chooseWay sl w.line
  let s := match tget sl.ways key with
    | some v => if v.line = w.line then s else evict s h key v
    | none => s
  modSlice s h fun sl => touch { sl with ways := tins sl.ways key (stamped s w) } key

def setWay (s : State) (h key : Nat) (w : Way) : State :=
  modSlice s h fun sl => touch { sl with ways := tins sl.ways key (stamped s w) } key

def addEntry (s : State) (h : Nat) (e : TEntry) : State :=
  modSlice s h fun sl => { sl with entries := sl.entries ++ [{ e with since := s.clock }] }
def modEntry (s : State) (h line : Nat) (f : TEntry → TEntry) : State :=
  modSlice s h fun sl => { sl with entries := sl.entries.map fun e => if e.line == line then f e else e }
def dropEntry (s : State) (h line : Nat) : State :=
  modSlice s h fun sl => { sl with entries := sl.entries.filter (·.line != line) }

/-! Results of operations. -/

def findOp (co : Core) (id : Nat) : Option MemOp := co.ops.find? (·.id == id)
def modOp (s : State) (c id : Nat) (f : MemOp → MemOp) : State :=
  modCore s c fun co => { co with ops := co.ops.map fun o => if o.id == id then f o else o }

/-- The registers a destination names, as pending numbers (R147). -/
def destRegs : Dest → List Nat
  | .none => []
  | .vec r n => (List.range n).map (· + r)
  | .sca r n => (List.range n).map (· + (256 + r))
  | .mwait r n m => (512 + m) :: (List.range n).map (· + (256 + r))

def unpend (w : Warp) (d : Dest) : Warp := { w with pend := w.pend.filter fun r => !(destRegs d).contains r }
def addPend (w : Warp) (d : Dest) : Warp := { w with pend := (destRegs d).foldl sins w.pend }

/-- Invalidate lines of a core's L1: all of them, or ranges of virtual lines (R94, R101).  A line lies in a range by the
address through which it was filled: the model's choice (log 101). -/
def l1Drop (co : Core) (all : Bool) (rs : List (Nat × Nat)) : Core :=
  if all then { co with l1 := [] }
  else { co with l1 := co.l1.filter fun x => !rs.any fun (a, n) => a ≤ x.va / 128 && x.va / 128 < a + n }

/-- Invalidate a line of a core's L1 by its physical number. -/
def l1DropLine (co : Core) (line : Nat) : Core := { co with l1 := co.l1.filter (·.line != line) }

/-- POISONAT ← the sector of a poisoned load (R242). -/
def notePoison (w : Warp) (va : Nat) : Warp := { w with poisonat := BitVec.ofNat 64 (va / 32 * 32 + 1) }

/-- An operation whose last request has been performed: registers are no longer pending (R32, R147). -/
def completeOp (s : State) (c id : Nat) : State :=
  match findOp (coreOf s c) id with
  | none => s
  | some o =>
    let s := modWarp s c o.warp fun w =>
      let w := unpend w o.dest
      match o.poisonVa with | some va => notePoison w va | none => w
    modCore s c fun co =>
      l1Drop { co with ops := co.ops.filter (·.id != id) } o.invalAll (o.inval.getD [])

/-- One lane's value into its register, under R63 (R222, R223). -/
def putLane (w : Warp) (d : Dest) (ty : Ty) (lane : Nat) (x : Nat) (bad : Nat → Bool) : Warp :=
  match d with
  | .none => w
  | .vec r n =>
    if n = 1 then vset w r lane (BitVec.ofNat 32 (widen ty (if ty == .t6 then x % 64 else x))) (bad 0)
    else foldN n (fun i w => vset w (r + i) lane (BitVec.ofNat 32 (x / 2 ^ (32 * i))) (bad i)) w
  | .sca r n =>
    if n = 1 then sset w r (BitVec.ofNat 32 (widen ty (if ty == .t6 then x % 64 else x)))
    else foldN n (fun i w => sset w (r + i) (BitVec.ofNat 32 (x / 2 ^ (32 * i)))) w
  | .mwait r n _ => foldN n (fun i w => sset w (r + i) (BitVec.ofNat 32 (x / 2 ^ (32 * i)))) w

/-- Bytes one lane moves: four words for VLDX, else the type's size. -/
def destSize (d : Dest) (ty : Ty) : Nat :=
  match d with
  | .vec _ 4 => 16
  | _ => ty.bytes

/-- The virtual address recorded for a lane of an operation. -/
def laneVa (o : MemOp) (lane : Nat) : Nat := (tget o.vas lane).getD 0

/-- A trap for a word that has already issued: its warp traps where it stands, with that word in the frame (log 98). -/
def lateTrap (s : State) (r : Req) (cls : FClass) (lanes : W32) (sector : Nat) : State :=
  match tget (coreOf s r.core).warps r.warp with
  | none => s
  | some x =>
    let sl := if (pathOf x r.slot).st == .empty then otherSlot r.slot else r.slot
    if r.core ≥ 1024 || x.age ≠ r.age || x.heldTrap.isSome || (pathOf x sl).st == .empty then s
    else modWarp s r.core r.warp fun x =>
      trapWarp x sl { cls := cls, word := r.word, sector := BitVec.ofNat 64 sector, lanes := lanes }

/-- A poisoned byte of n from an offset in a line. -/
def poisoned (p : BitVec 4) (off n : Nat) : Bool := (List.range n).any fun i => p.getLsbD ((off + i) / 32 % 4)

/-- Deliver a line's data to the lanes of an operation.  A scalar read takes no poison: it traps (R222, R242). -/
def deliver (s : State) (r : Req) (data : Line) (poison : BitVec 4) : State :=
  match findOp (coreOf s r.core) r.op with
  | none => s
  | some o =>
    let n := destSize o.dest o.ty
    let bads := (r.lanes.filter fun x => poisoned poison x.off n).map fun x => laneVa o x.lane
    let low := bads.foldl (fun (a : Option Nat) b => match a with | some v => some (min v b) | none => some b) o.poisonVa
    let stops := !bads.isEmpty && (match o.dest with | .sca .. => true | _ => false)
    let s := if stops then s else r.lanes.foldl (fun s x =>
      modWarp s r.core o.warp fun w =>
        putLane w o.dest o.ty x.lane (lineField data x.off n) fun i => poisoned poison (x.off + 4 * i) (min 4 n)) s
    let s := modOp s r.core r.op fun o => { o with left := o.left - 1, poisonVa := low }
    let s := if o.left ≤ 1 then completeOp s r.core r.op else s
    if stops then lateTrap s r .poison o.lanes (bads.foldl min (2 ^ 64 - 1) / 32 * 32) else s

/-- A request of an operation that returns nothing has been performed. -/
def performed (s : State) (r : Req) : State :=
  match findOp (coreOf s r.core) r.op with
  | none => s
  | some o =>
    let s := modOp s r.core r.op fun o => { o with left := o.left - 1 }
    if o.left ≤ 1 then completeOp s r.core r.op else s

/-! L1 and forwarding (R21, R98, R224, R225). -/

def l1Cap (co : Core) : Nat := 256 * 2 ^ co.l1ways.toNat

/-- Keep a line in an L1; a full L1 gives up a line marked first to evict, else its oldest (log 15). -/
def l1Fill (co : Core) (x : L1Line) : Core :=
  let rest := co.l1.filter (·.line != x.line)
  let rest := if rest.length < l1Cap co then rest
    else match rest.find? (·.first) with
      | some y => rest.filter (·.line != y.line)
      | none => rest.drop 1
  { co with l1 := rest ++ [x] }

def isStore (r : Req) : Bool := match r.act with | .write .. => true | _ => false

/-- Requests of this package that wait at a slice: at its input, and on its entries. -/
def sliceReqs (sl : Slice) : List Req :=
  (sl.input ++ sl.entries.flatMap fun e => e.cur :: e.queue).filterMap fun q =>
    match q with | .own r => some r | _ => none

/-- The stores that a chiplet has accepted before a request and that are not performed, oldest first: in its port
buffers, or waiting at the line's home.  With a tag, the provisional ones of that block; else those of no such block. -/
def acceptedStores (s : State) (chiplet line home seq : Nat) (tag : Option (Nat × Nat)) : List Req :=
  let ports := (List.range 4).flatMap fun q => tgetD s.ports (4 * chiplet + q) []
  let waiting := (sliceReqs (sliceOf s home)).filter fun r => r.core < 1024 && chipletOf r.core == chiplet
  sortBy (·.seq) ((ports ++ waiting).filter fun r =>
    r.line == line && r.home == home && r.prov == tag && r.seq < seq && isStore r)

/-- A line's data and poison with a store's bytes over them: a sector covered whole is poisoned no more (R242, R243). -/
def storeOver (x : Line × BitVec 4) (data : Line) (m : LineMask) (poison : BitVec 4) : Line × BitVec 4 :=
  (mergeLine x.1 data m, (x.2 &&& ~~~ sectorsWhole m) ||| poison)

/-- A request's bytes over a line. -/
def reqOver (x : Line × BitVec 4) (r : Req) : Line × BitVec 4 :=
  match r.act with
  | .write d m p => storeOver x d m p
  | _ => x

/-- Accepted stores over the line as the home has it (R21, R98). -/
def forward (s : State) (chiplet line home seq : Nat) (tag : Option (Nat × Nat)) (x : Line × BitVec 4) :
    Line × BitVec 4 :=
  (acceptedStores s chiplet line home seq tag).foldl reqOver x

/-- The core's own write-combining buffer over a line. -/
def forwardWc (co : Core) (line : Nat) (x : Line × BitVec 4) : Line × BitVec 4 :=
  ((co.wc.map (·.req)).filter fun r => r.line == line && r.prov.isNone).foldl reqOver x

/-- Round stored bytes to T6 values in a T6PACK window (R365). -/
def roundPacked (s : State) (line : Nat) (d : Line) : Line :=
  match windowAt s (128 * line) with
  | some (_, w) =>
    if winFormat w = 1 then ofLineBytes ((lineBytes d).map fun b => BitVec.ofNat 8 (t8ViaT6 b.toNat)) else d
  | none => d

/-- Put written bytes into a way (R243, R347). -/
def wayWrite (s : State) (w : Way) (data : Line) (m : LineMask) (poison : BitVec 4) : Way :=
  let (d, p) := storeOver (w.data, w.poison) (roundPacked s w.line data) m poison
  { w with data := d, dirty := w.dirty ||| sectorsTouched m, poison := p }

/-- The line as the package sees it at its home when no agent owns it: slice copy or DRAM. -/
def peekWay (s : State) (h line : Nat) : Option Way := (findWay (sliceOf s h) line).map (·.2)

/-- A line's ways in the package's slices that hold all its data. -/
def wholeWays (s : State) (line : Nat) : List Way :=
  s.slices.filterMap fun (_, sl) => (sl.ways.find? fun (_, w) => w.line == line && w.valid == 0xF).map (·.2)

/-- Device-internal view of a line: the slice copy if valid, else DRAM (log 16); with two homes, a free value (R346). -/
def peekLine (s : State) (line : Nat) : Line × BitVec 4 :=
  match wholeWays s line with
  | [] => if isRemote line then (0, 0) else dramLine s line
  | [w] => (w.data, w.poison)
  | w :: _ => (Config.nearConflict s.freeCount, w.poison)

def peekBytes (s : State) (pa n : Nat) : List Byte :=
  (List.range n).map fun i => byteOf (peekLine s ((pa + i) / 128)).1 ((pa + i) % 128)

def peek64 (s : State) (pa : Nat) : Nat := lineField (peekLine s (pa / 128)).1 (pa % 128) 8
def peek32 (s : State) (pa : Nat) : Nat := lineField (peekLine s (pa / 128)).1 (pa % 128) 4

/-- Device-internal write of bytes within one line: into the slice copy if there is one, else into DRAM. -/
def pokeLine (s : State) (line : Nat) (data : Line) (m : LineMask) (poison : BitVec 4 := 0) : State :=
  if unbacked s line then s
  else match s.slices.find? fun (_, sl) => sl.ways.any fun (_, w) => w.line == line && w.valid == 0xF with
  | some (h, sl) =>
    match findWay sl line with
    | some (k, w) => setWay s h k (wayWrite s w data m poison)
    | none => s
  | none =>
    let (d, p) := storeOver (dramLine s line) (roundPacked s line data) m poison
    dramStore s line d (sectorsTouched m) p

/-- Write bytes at a physical address, line by line. -/
def pokeBytes (s : State) (pa : Nat) (bs : List Byte) : State :=
  let first := pa / 128
  let last := (pa + bs.length - 1) / 128
  if bs.isEmpty then s
  else foldN (last - first + 1) (fun i s =>
    let line := first + i
    let lo := max pa (128 * line)
    let hi := min (pa + bs.length) (128 * line + 128)
    pokeLine s line (fieldLine (lo - 128 * line) (hi - lo) (leNat ((bs.drop (lo - pa)).take (hi - lo))))
      (fieldMask (lo - 128 * line) (hi - lo))) s

def poke64 (s : State) (pa x : Nat) : State := pokeBytes s pa (leBytes 8 x)

/-! The race detector at the home (R120-R124, R366). -/

def carveBase (s : State) (site : Nat) : Option Nat :=
  match tget s.carve site with
  | some r => if r.getLsbD 0 then some (r.toNat / 2 ^ 34 % 2 ^ 14 * 2 ^ 34) else none
  | none => none

def inCarve (s : State) (pa : Nat) : Bool :=
  (List.range 8).any fun c => match carveBase s c with
    | some b => b ≤ pa && pa < b + 2 ^ 34
    | none => false

/-- Where the shadow word of a sector lies, if it is checked. -/
def shadowAt (s : State) (pa : Nat) : Option Nat :=
  if isDram (pa / 128) && !inCarve s pa then
    (carveBase s (pa / 2 ^ 37)).map fun b => b + 4 * (pa % 2 ^ 37 / 32)
  else none

/-- Whether warp g lies in the scope unit of the writer (R122). -/
def gidCore (g : Nat) : Nat := (g - 1) / 64
def inScopeOf (s : State) (sc writer g : Nat) : Bool :=
  if sc = 1 then
    let wc := coreOf s (gidCore writer)
    let b1 := (tget wc.warps ((writer - 1) % 64)).map (·.block)
    let gc := coreOf s (gidCore g)
    let w2 := tget gc.warps ((g - 1) % 64)
    let w1 := tget wc.warps ((writer - 1) % 64)
    (gidCore writer == gidCore g && b1 == w2.map (·.block)) ||
      (match w1, w2 with
       | some x, some y => x.crews.any fun c => y.crews.any fun d => c.1 == d.1
       | _, _ => false)
  else gidCore writer / 128 == gidCore g / 128

/-- A conflict of an access with a sector's shadow word (R122). -/
def conflicts (s : State) (x : Race) (pa : Nat) : Option W32 :=
  match shadowAt s pa with
  | none => none
  | some a =>
    let w : W32 := BitVec.ofNat 32 (leNat (memBytes s.mem a 4))
    let writer := w.toNat % 2 ^ 20
    let iv := w.toNat / 2 ^ 20 % 256
    let sc := w.toNat / 2 ^ 28 % 4
    if writer != 0 && writer != x.gid && iv == x.epoch &&
      (sc == 0 || ((sc == 1 || sc == 2) && !inScopeOf s sc writer x.gid)) then some w else none

/-- Record a write in the shadow words of the sectors it touches. -/
def recordWrite (s : State) (x : Race) (line : Nat) (secs : BitVec 4) : State :=
  foldN 4 (fun i s =>
    if secs.getLsbD i then
      match shadowAt s (128 * line + 32 * i) with
      | some a =>
        { s with mem := memPut s.mem a (leBytes 4 (x.gid + x.epoch * 2 ^ 20 + x.scope * 2 ^ 28)) }
      | none => s
    else s) s

/-! Performing a request of this package on a line whose data the home holds (R349, R350, R355). -/

/-- Arithmetic of R226 on the old value; none leaves the location (compare and swap). -/
def atomNew (op : Nat) (ty : Ty) (r : Rnd) (old opnd cmp : Nat) : Option Nat :=
  let w := tyBits ty
  match op with
  | 0 => some (if ty == .f32 then fAdd f32 r old opnd else wrapN w (intOf ty old + intOf ty opnd))
  | 1 => some (if ty == .f32 then fMin f32 old opnd else if intOf ty old ≤ intOf ty opnd then old else opnd)
  | 2 => some (if ty == .f32 then fMax f32 old opnd else if intOf ty old ≤ intOf ty opnd then opnd else old)
  | 3 => some (Nat.land old opnd)
  | 4 => some (Nat.lor old opnd)
  | 5 => some (Nat.xor old opnd)
  | 6 => some opnd
  | 7 => some (if old ≥ opnd then 0 else old + 1)
  | 8 => some (if old = 0 || old > opnd then opnd else old - 1)
  | 9 => if old = cmp then some opnd else none
  | _ => none  -- 16 and above: the suppressed write of a shadow (R422)

/-- The atomic's lanes in ascending order on a line: new line, old values per lane (R228). -/
def atomLanes (op : Nat) (ty : Ty) (r : Rnd) (bad : Nat → Bool) :
    List LaneReq → Line → Line × List (Nat × Nat × Bool)
  | [], d => (d, [])
  | x :: t, d =>
    let n := ty.bytes
    let old := lineField d x.off n
    let b := bad (x.off / 32)
    let d' := if b then d else match atomNew op ty r old (x.opnd.toNat % 256 ^ n) (x.cmp.toNat % 256 ^ n) with
      | some v => mergeLine d (fieldLine x.off n v) (fieldMask x.off n)
      | none => d
    let (d'', l) := atomLanes op ty r bad t d'
    (d'', (x.lane, old, b) :: l)

/-- A block's own provisional bytes over a line (R350). -/
def overlayProv (sl : Slice) (tag : Option (Nat × Nat)) (line : Nat) (x : Line × BitVec 4) : Line × BitVec 4 :=
  (sl.provs.filter fun p => p.line == line && some (p.launch, p.block) == tag).foldl
    (fun x p => storeOver x p.data p.mask p.poison) x

/-- Whether a set has room for a block's provisional line: it holds the line, or fewer than four (R350). -/
def provRoom (sl : Slice) (line : Nat) (tag : Nat × Nat) : Bool :=
  provsOf sl (setOf line) < 4 || sl.provs.any fun p => p.line == line && p.launch == tag.1 && p.block == tag.2

/-- A provisional store: merged into the block's line at the home, or a new line in a way of its set (R347, R350). -/
def addProv (s : State) (h : Nat) (r : Req) (data : Line) (m : LineMask) (poison : BitVec 4) (tag : Nat × Nat) : State :=
  let sl := sliceOf s h
  let mine (p : ProvLine) := p.line == r.line && p.launch == tag.1 && p.block == tag.2
  let races := match r.race with | some x => [(x, sectorsTouched m)] | none => []
  let more (p : ProvLine) : ProvLine :=
    { p with data := mergeLine p.data data m, mask := p.mask ||| m, poison := (storeOver (0, p.poison) 0 m poison).2,
             races := p.races ++ races }
  if sl.provs.any mine then
    modSlice s h fun sl => { sl with provs := sl.provs.map fun p => if mine p then more p else p }
  else
    let key := chooseWay sl r.line
    let s := match tget sl.ways key with | some v => evict s h key v | none => s
    modSlice s h fun sl => { sl with provs := sl.provs ++
      [{ line := r.line, launch := tag.1, block := tag.2, key := key, data := data, mask := m, poison := poison,
         races := races }] }

/-! Page tables (R360-R362). -/

/-- The result of a walk: the leaf entry with its level, no valid translation, or a table line that another
agent owns and that must be fetched first. -/
inductive Xl
  | ok (leaf : W64) (level : Nat)
  | bad
  | busy (line : Nat)
deriving DecidableEq, Repr

def pageBits (level : Nat) : Nat := if level = 1 then 30 else if level = 2 then 21 else 16

def entryAddr (e : W64) : Nat := e.toNat % 2 ^ 48 / 256 * 256

/-- Whether [pa, pa + n) lies in the DRAM of a partition. -/
def inPartDram (s : State) (part pa n : Nat) : Bool :=
  pa + n ≤ 2 ^ 40 && 0 < n && partOfChiplet s (pa / 2 ^ 37) == some part &&
  partOfChiplet s ((pa + n - 1) / 2 ^ 37) == some part

/-- A malformed entry (R361). -/
def badEntry (s : State) (part level : Nat) (e : W64) : Bool :=
  let leaf := e.getLsbD 1
  let pa := entryAddr e
  e.toNat / 2 ^ 54 != 0 || (leaf && level == 0) || (!leaf && level == 3) ||
  (if leaf then
    let n := 2 ^ pageBits level
    pa % n != 0 || e.toNat / 64 % 4 == 3 ||
    (let line := pa / 128
     if isDram line then e.getLsbD 5 && e.toNat / 2 ^ 48 % 8 != pa / 2 ^ 37
     else if isPacked line then
       (match windowAt s pa with
        | some (_, w) => winFormat w != 1 || winPart w != part || winLimit w < pa + n
        | none => true) || e.getLsbD 5
     else if isRemote line then
       tget s.dev.agents (agentOfLine line) != some part || e.getLsbD 5 || (agentOfLine line == 0 && !s.dev.cxl)
     else true)
   else
    e.toNat / 4 % 64 != 0 || e.toNat / 2 ^ 48 % 64 != 0 ||
    (level < 2 && pa % 4096 != 0) || !inPartDram s part pa (if level < 2 then 4096 else 256))

def vaIndex (va level : Nat) : Nat :=
  if level = 0 then va / 2 ^ 39 % 512 else if level = 1 then va / 2 ^ 30 % 512
  else if level = 2 then va / 2 ^ 21 % 512 else va / 2 ^ 16 % 32

/-- A line that the device reads in place must not be owned by another agent. -/
def ownedAway (s : State) (line : Nat) : Bool :=
  let (g, copy) := match s.slices.find? fun (_, sl) => (findWay sl line).isSome with
    | some (_, sl) => (match findWay sl line with | some (_, w) => (w.glaze, w.valid == 0xF) | none => (0, false))
    | none => (tgetD s.glaze line 0, false)
  glazeState g == 2 || glazeState g == 4 || (glazeState g == 3 && !copy)

/-- A DRAM line of another partition, outside every window: an access to a window has its own check (R26, R244). -/
def foreignLine (s : State) (part line : Nat) : Bool :=
  isDram line && partOfChiplet s (line / 2 ^ 30) != some part && (windowAt s (128 * line)).isNone

def walkGo (s : State) (part va : Nat) : Nat → Nat → Nat → Xl
  | 0, _, _ => .bad
  | n + 1, level, table =>
    let at' := table + 8 * vaIndex va level
    if ownedAway s (at' / 128) then .busy (at' / 128)
    else
      let e : W64 := BitVec.ofNat 64 (peek64 s at')
      if !e.getLsbD 0 || badEntry s part level e then .bad
      else if e.getLsbD 1 then .ok e level
      else walkGo s part va n (level + 1) (entryAddr e)

def ctxOf (s : State) (c : Nat) : Ctx := tgetD s.contexts c {}

/-- The physical address a leaf gives. -/
def leafPa (leaf : W64) (level va : Nat) : Nat :=
  alignDown (entryAddr leaf) (2 ^ pageBits level) + va % 2 ^ pageBits level

/-- A leaf as a partition may use it at an address: on another partition's DRAM it permits nothing (R26, log 38). -/
def ownLeaf (s : State) (part : Nat) (leaf : W64) (level va : Nat) : W64 :=
  if foreignLine s part (leafPa leaf level va / 128) then leaf &&& ~~~ 0x1C else leaf

/-- The same of a translation. -/
def ownXl (s : State) (part va : Nat) (r : Xl) : Xl :=
  match r with
  | .ok leaf level => .ok (ownLeaf s part leaf level va) level
  | r => r

/-- A line that the device reads in place is elsewhere: with another agent that owns it, or not yet fetched from its
agent. -/
def lineAway (s : State) (line : Nat) : Bool :=
  if isRemote line then !s.slices.any fun p => (findWay p.2 line).isSome else ownedAway s line

/-- A walk from the root that a context descriptor names, in the DRAM of the partition (R360, R361, R391). -/
def walkRoot (s : State) (desc part va : Nat) : Xl :=
  let root := peek64 s (desc + 8)
  if va ≥ 2 ^ 48 then .bad
  else if lineAway s (desc / 128) then .busy (desc / 128)
  else if root % 4096 ≠ 0 || !inPartDram s part root 4096 then .bad
  else walkGo s part va 4 0 root

/-- The leaf that a context's page tables hold for a virtual address (R360). -/
def walkLeaf (s : State) (ctx va : Nat) : Xl := walkRoot s (ctxOf s ctx).desc (ctxOf s ctx).part va

/-- Translate a virtual address of a context. -/
def walk (s : State) (ctx va : Nat) : Xl := ownXl s (ctxOf s ctx).part va (walkLeaf s ctx va)

/-- The home of a line reached through a leaf (R345, R346). -/
def leafHome (s : State) (part : Nat) (leaf : W64) (line : Nat) : Nat :=
  if leaf.getLsbD 5 then 32 * (leaf.toNat / 2 ^ 48 % 8) + foldPa (128 * line) % 32
  else hashHome s (partOfLine s part line) line

/-- Translate for the device itself: the physical address when the permission is there. -/
def vaToPa (s : State) (ctx va : Nat) (write : Bool) : Option Nat :=
  match walk s ctx va with
  | .ok leaf level => if leaf.getLsbD (if write then 3 else 2) then some (leafPa leaf level va) else none
  | _ => none

/-- Append a record to the context's race log ring (R123): it is dropped and counted when the ring is full.  A record
whose place in the ring does not translate is counted and written nowhere: the model's choice (log 102).  The record is
written with the device's own writes (log 118). -/
def raceLog (s : State) (x : Race) (va : Nat) (shadow : W32) (kind : Nat) : State :=
  let c := ctxOf s x.ctx
  let n := peek32 s (c.desc + 0x40)
  if c.raceCount ≥ n then
    pokeBytes s (c.desc + 0x44) (leBytes 4 (peek32 s (c.desc + 0x44) + 1))
  else
    let ring := peek64 s (c.desc + 0x38) + 32 * c.raceCount
    let rec' := leBytes 8 (va / 32 * 32) ++ leBytes 8 x.pc.toNat ++ leBytes 4 x.gid ++
      leBytes 4 (shadow.toNat % 2 ^ 20) ++ leBytes 1 (shadow.toNat / 2 ^ 20) ++
      leBytes 1 (shadow.toNat / 2 ^ 28) ++ leBytes 1 kind ++ leBytes 5 0
    let s := { s with contexts := tmod s.contexts x.ctx fun c => { c with raceCount := c.raceCount + 1 } }
    { s with late := s.late ++ [{ part := c.part, desc := c.desc, va := ring, bytes := rec' }] }

/-- Check a performed access in log mode, and record a write (R122-R124). -/
def raceDo (s : State) (r : Req) (secs : BitVec 4) (kind : Nat) : State :=
  match r.race with
  | none => s
  | some x =>
    let s := foldN 4 (fun i s =>
      if secs.getLsbD i && !x.trap then
        match conflicts s x (128 * r.line + 32 * i) with
        | some w => raceLog s x (tgetD x.vas i 0) w kind
        | none => s
      else s) s
    if kind = 0 then s else recordWrite s x r.line secs

end Sys2Proof.Machine
end

