-- ==== Sys2Proof/Machine/Perform.lean ====
section
/-! DEFINITION. Machine/Perform.lean: how a home takes and performs requests (R19-R21, R348-R350, R355, R356, R368,
R369), and accesses of the device itself. -/

namespace Sys2Proof.Machine

def markFirst (r : Req) : Bool := r.pol == 1 || r.pol == 3

/-- ALLOC and FREE on the header line; memory of the links is read and written through `rd` and `wr` (R241). -/
def headerLine (data : Line) (i : Nat) : Nat := lineField data (8 * i) 8

/-! Screening (R422). -/

/-- The running hash of a warp's global writes: address, size and bytes of each (log 17). -/
def hashStore (w : Warp) (a n v : Nat) : Warp :=
  { w with storeCrc := crcBytes w.storeCrc (leBytes 8 a ++ leBytes 1 n ++ leBytes n v) }

/-- Whether the warp's block is screened, or is a shadow. -/
def screened (s : State) (core w : Nat) : Bool :=
  let co := coreOf s core
  match (tget co.warps w).bind fun x => tget co.blocks x.block with
  | some b => b.shadow != .none
  | none => false

/-- Atomic writes of a screened warp enter its hash, a suppressed one's too (R422). -/
def hashAtoms (s : State) (r : Req) (warp : Nat) (o : MemOp) (op : Nat) (ty : Ty) (rnd : Rnd)
    (olds : List (Nat × Nat × Bool)) : State :=
  if !screened s r.core warp then s
  else olds.foldl (fun s (lane, old, bad) =>
    match r.lanes.find? fun q => q.lane == lane with
    | none => s
    | some q =>
      let n := ty.bytes
      match atomNew op ty rnd old (q.opnd.toNat % 256 ^ n) (q.cmp.toNat % 256 ^ n) with
      | some v => if bad then s else modWarp s r.core warp fun w => hashStore w (laneVa o lane) n v
      | none => s) s

/-- A provisional block whose stores still count: its launch is not resolved, and it is not lost (R350, R401, R406). -/
def provLive (s : State) (tag : Nat × Nat) : Bool :=
  match tget s.launches tag.1 with
  | some l => !l.resolved && !l.lost.any fun p => p.1 == tag.2
  | none => false

/-- A store or an atomic of a core on a line still to be performed, which an L1 line filled now would lack: at a
home, or an atomic in a port buffer, from which nothing is forwarded (R90, R228). -/
def lateWrite (s : State) (core line : Nat) : Bool :=
  let atom (r : Req) : Bool := match r.act with | .atom .. => true | _ => false
  let store (r : Req) : Bool := match r.act with | .write .. => r.prov.isNone | _ => false
  (tgetD s.ports (portOf core) []).any (fun r => r.core == core && r.line == line && atom r) ||
  s.slices.any fun (_, sl) => (sliceReqs sl).any fun r => r.core == core && r.line == line && (atom r || store r)

/-- The line's data as a request finds it at the home: with two homes, a free value (R346). -/
def homeData (s : State) (h : Nat) (w : Way) : State × Line :=
  if twoHomes s h w.line then ({ s with freeCount := s.freeCount + 1 }, Config.nearConflict s.freeCount) else (s, w.data)

/-- The sectors that a request's lanes name. -/
def laneSectors (r : Req) : BitVec 4 := r.lanes.foldl (fun a x => a ||| BitVec.ofNat 4 (2 ^ (x.off / 32))) 0

/-- What a read finds: the home's line with the stores that its chiplet has accepted, and its own block's provisional
bytes over them (R21, R98, R350). -/
def seenBy (s : State) (h : Nat) (r : Req) (seq : Nat) (x : Line × BitVec 4) : Line × BitVec 4 :=
  if r.core ≥ 1024 then overlayProv (sliceOf s h) r.prov r.line x
  else
    let x := forward s (chipletOf r.core) r.line h seq none x
    let x := overlayProv (sliceOf s h) r.prov r.line x
    if r.prov.isNone then x else forward s (chipletOf r.core) r.line h seq r.prov x

/-- What came back to one of the base die's own units: a refusal, or bytes (R353, R358). -/
def answerUnit (s : State) (r : Req) (d : Option Line) : State :=
  if r.core < 1024 || r.op = 0 then s
  else modSlice s r.home fun sl => { sl with answers := sl.answers ++ [{ line := r.line, who := r.op, data := d }] }

/-- Perform a request on a way that the home may use as it stands. -/
def performOn (s : State) (h key : Nat) (w : Way) (r : Req) : State :=
  match r.act with
  | .probe => performed (setWay s h key w) r
  | .read =>
    let s := if r.fill then raceDo s r (laneSectors r) 0 else s
    let (s, base) := homeData s h w
    let seen := if r.fwd then seenBy s h r r.seq (base, w.poison) else overlayProv (sliceOf s h) r.prov r.line (base, w.poison)
    let all := seenBy s h r s.nextReq (base, w.poison)
    let s := if r.pol = 2 then s
             else setWay s h key { w with first := w.first || markFirst r }
    let s := if r.core ≥ 1024 then s
      else if !r.fill || r.prov.isSome || lateWrite s r.core r.line then
        -- the warp has a value of the home: the L1 keeps no older one (R90)
        modCore s r.core fun co => l1DropLine co r.line
      else
        let mark := s.nextLaunch
        modCore s r.core fun co =>
          let (d, p) := forwardWc co r.line all
          l1Fill co { line := r.line, home := h, data := d, poison := p, first := r.pol == 1, va := r.va, mark := mark }
    deliver s r seen.1 seen.2
  | .write data m poison =>
    match r.prov with
    | some tag => performed (if provLive s tag then addProv s h r data m poison tag else s) r
    | none =>
      let s := raceDo s r (sectorsTouched m) 1
      let w' := wayWrite s w data m poison
      let s := performed (setWay s h key { w' with first := w'.first || markFirst r }) r
      if m = 0 then s else answerUnit s r (some 0)
  | .atom op ty rnd =>
    let s := raceDo s r (laneSectors r) 2
    let (s, base) := homeData s h w
    let (d, olds) := atomLanes op ty rnd w.poison.getLsbD r.lanes base
    let s := setWay s h key { w with data := d, dirty := if d = w.data then w.dirty else w.dirty ||| laneSectors r }
    match findOp (coreOf s r.core) r.op with
    | none => s
    | some o =>
      let s := hashAtoms s r o.warp o (op % 16) ty rnd olds
      let s := olds.foldl (fun s (lane, old, bad) =>
        modWarp s r.core o.warp fun w => putLane w o.dest o.ty lane old fun _ => bad) s
      let bads := (olds.filter (·.2.2)).map fun x => laneVa o x.1
      let low := bads.foldl (fun (a : Option Nat) b => match a with | some v => some (min v b) | none => some b) o.poisonVa
      let s := modOp s r.core r.op fun o => { o with left := o.left - 1, poisonVa := low }
      if o.left ≤ 1 then completeOp s r.core r.op else s

def wantsOwn (r : Req) : Bool :=
  match r.act with
  | .read | .probe => false
  | .write .. => r.prov.isNone
  | _ => true

/-! The stable states (R355) and the transient ones (R356). -/

def dataMsg (s : State) (a : Nat) (k : MKind) (line : Nat) (d : Line) : State :=
  send s { agent := a, kind := k, line := line, data := d }

def poisonOf (w : Way) : Bool := w.poison != 0
def withGlaze (w : Way) (st owner sharers : Nat) : Way :=
  { w with glaze := glazeMk st owner sharers (poisonOf w), glazeDirty := true }
/-- The home's own copy is dropped (R355). -/
def dropCopy (w : Way) : Way := { w with valid := 0, dirty := 0, data := 0 }

def sendSnoops (s : State) (line : Nat) (k : MKind) (ts : List Nat) : State :=
  ts.foldl (fun s a => send s { agent := a, kind := k, line := line }) s

/-- FX without an owner (R356); 64 in its place marks a recovery of glaze (R367). -/
def noOwner : Nat := 65

/-- Start FX: SnpI to the targets; with none the caller goes on at once. -/
def startFx (s : State) (h line owner : Nat) (ts : List Nat) (r : HReq) : State :=
  sendSnoops (addEntry s h { line := line, phase := .fx owner ts false, cur := r }) line .snpi ts

/-- End of FX with an empty target set, or a grant that needs no snoop (R356). -/
def grant (s : State) (h : Nat) (key : Nat) (w : Way) (r : HReq) : State :=
  match r with
  | .own q => performOn s h key { w with glaze := glazeMk 0 0 0 (poisonOf w), glazeDirty := true } q
  | .rdx a =>
    let s := dataMsg s a .datam w.line w.data
    setWay s h key (withGlaze (dropCopy w) 4 a 0)
  | .upg a =>
    let s := send s { agent := a, kind := .gntm, line := w.line }
    setWay s h key (withGlaze (dropCopy w) 4 a 0)
  | .rds a =>
    let s := dataMsg s a .datas w.line w.data
    setWay s h key (withGlaze w 1 0 (addSharer 0 a))

/-- Take a request under R355 on a line whose way is known. -/
def takeReq (s : State) (h key : Nat) (w : Way) (r : HReq) : State :=
  let line := w.line
  let st := glazeState w.glaze
  let o := glazeOwner w.glaze
  let sh := glazeSharers w.glaze
  let covers (a : Nat) : Bool := sh / 2 ^ (a / 4) % 2 == 1
  let shAgents := sharersOf s w.glaze
  let have' := w.valid == 0xF
  match st with
  | 0 =>
    match r with
    | .own q => performOn s h key w q
    | .rds a =>
      if w.dirty == 0 then
        setWay (dataMsg s a .datae line w.data) h key (withGlaze (dropCopy w) 2 a 0)
      else setWay (dataMsg s a .datas line w.data) h key (withGlaze w 1 0 (addSharer 0 a))
    | .rdx a | .upg a => grant s h key w (.rdx a)
  | 1 =>
    match r with
    | .own q => if wantsOwn q then (if shAgents.isEmpty then grant s h key w r else startFx s h line noOwner shAgents r)
                else performOn s h key w q
    | .rds a => setWay (dataMsg s a .datas line w.data) h key (withGlaze w 1 0 (addSharer sh a))
    | .rdx a =>
      let ts := shAgents.filter (· != a)
      if ts.isEmpty then grant s h key w r else startFx s h line noOwner ts r
    | .upg a =>
      let r' : HReq := if covers a then .upg a else .rdx a
      let ts := shAgents.filter (· != a)
      if ts.isEmpty then grant s h key w r' else startFx s h line noOwner ts r'
  | 3 =>
    match r with
    | .own q =>
      if wantsOwn q then startFx s h line o (o :: shAgents.filter (· != o)) r
      else if have' then performOn s h key w q
      else sendSnoops (addEntry s h { line := line, phase := .fs o false, cur := r }) line .snps [o]
    | .rds a =>
      if have' then setWay (dataMsg s a .datas line w.data) h key (withGlaze w 3 o (addSharer sh a))
      else sendSnoops (addEntry s h { line := line, phase := .fs o false, cur := r }) line .snps [o]
    | .rdx a => startFx s h line o ((o :: shAgents.filter (· != o)).filter (· != a)) r
    | .upg a =>
      let ts := (o :: shAgents.filter (· != o)).filter (· != a)
      if a = o || covers a then
        (if ts.isEmpty then grant s h key w (.upg a) else startFx s h line o ts (.upg a))
      else startFx s h line o ts (.rdx a)
  | _ =>
    match r with
    | .own q =>
      if wantsOwn q then startFx s h line o [o] r
      else sendSnoops (addEntry s h { line := line, phase := .fs o false, cur := r }) line .snps [o]
    | .rds _ => sendSnoops (addEntry s h { line := line, phase := .fs o false, cur := r }) line .snps [o]
    | .rdx a | .upg a => startFx s h line o [o] (.rdx a)

/-- A remote line: what the slice may do at once, or the message it sends (R357, R368). -/
def takeRemote (s : State) (h line : Nat) (q : Req) : State :=
  let slice := sliceOf s h
  let sent (s : State) (k : MKind) (ph : Phase) : State :=
    addEntry (sendHome s k line) h { line := line, phase := ph, cur := .own q }
  match findWay slice line with
  | some (key, w) =>
    if !wantsOwn q then performOn s h key w q
    else match w.held with
      | some .e | some .m => performOn s h key { w with held := some .m } q
      | _ => sent s .upg .sentU
  | none => if wantsOwn q then sent s .rdx .sentX else sent s .rds .sentS

/-! The home's own copy. -/

def away (g : W32) : Bool := glazeState g == 2 || glazeState g == 4

/-- A way for a line of this package: its copy, or one from DRAM; while another agent owns it there is no data. -/
def newWay (s : State) (line : Nat) : Way :=
  let g := tgetD s.glaze line 0
  let (d, p) := dramLine s line
  if away g then { line := line, glaze := g } else { line := line, data := d, valid := 0xF, poison := p, glaze := g }

/-- Sectors that a way lacks come from DRAM. -/
def fillMissing (s : State) (w : Way) : Way :=
  if away w.glaze then w
  else
    let (d, p) := dramLine s w.line
    let m : LineMask := ofBits 128 fun i => !w.valid.getLsbD (i / 32)
    { w with data := mergeLine w.data d m, valid := 0xF, poison := (w.poison &&& w.valid) ||| (p &&& ~~~ w.valid) }

/-- The line's way at its home, brought in when it is absent. -/
def homeWay (s : State) (h line : Nat) : State × Nat × Way :=
  let s := match findWay (sliceOf s h) line with
    | some _ => s
    | none => fillWay s h (newWay s line)
  match findWay (sliceOf s h) line with
  | some (k, w) => (s, k, w)
  | none => (s, 0, { line := line })

/-- The line's glaze as its home has it. -/
def glazeOf (s : State) (h line : Nat) : W32 :=
  match findWay (sliceOf s h) line with
  | some (_, w) => w.glaze
  | none => tgetD s.glaze line 0

/-! Taking a request (R348). -/

/-- Entries of the transient buffer: those that wait for a fetch or a snoop (R348, R356). -/
def inBuffer (sl : Slice) : Nat :=
  (sl.entries.filter fun e => match e.phase with | .fd => true | .fs .. => true | .fx .. => true | _ => false).length

/-- A glaze word that breaks its table, so that the next request finds it lost (R352). -/
def loseGlaze (s : State) (h line : Nat) : State :=
  match findWay (sliceOf s h) line with
  | some (k, w) => setWay s h k { w with glaze := 7, glazeDirty := true }
  | none => { s with glaze := tput 0 s.glaze line 7 }

/-- An entry is over: it leaves the buffer, the requests queued on it stand at the head of the slice's input, and its own
request has what `f` does (R348, R369). -/
def finishWith (s : State) (h line : Nat) (f : State → State) : State :=
  match entryOf (sliceOf s h) line with
  | none => s
  | some e =>
    f (modSlice (dropEntry s h line) h fun sl =>
      { sl with input := e.queue ++ sl.input, inputLines := e.queue.map (fun _ => line) ++ sl.inputLines })

/-- Data from another agent as the home copy. -/
def withData (w : Way) (d : Line) (dirty : BitVec 4) : Way :=
  { w with data := d, valid := 0xF, dirty := dirty, poison := 0 }

/-- FX with no target left: the write is performed, or the grant goes out; merged data is the home copy (R356, R369).
After a loss of glaze the line ends in H, poisoned when no dirty data came (R367). -/
def endFx (s : State) (h line : Nat) (e : TEntry) (owner : Nat) (merged : Bool) : State :=
  finishWith s h line fun s =>
    let (s, k, w) := homeWay s h line
    let (d, p) := dramLine s line
    let w := match e.data with
      | some x => if merged then withData w x 0xF else w
      | none => w
    let w := if w.valid == 0xF then w else { w with data := d, valid := 0xF, dirty := 0, poison := p }
    if owner = 64 then
      let w := if merged then w else { w with poison := 0xF, dirty := 0xF }
      takeReq s h k { w with glaze := glazeMk 0 0 0 (poisonOf w), glazeDirty := true } e.cur
    else grant s h k w e.cur

/-- The recovery of a lost glaze: an agent of the domain answers each snoop, and where the domain is empty nothing is
waited for. -/
def recover (s : State) (h line : Nat) (e : TEntry) : State :=
  let s := sendSnoops s line .snpi (domain s)
  if (domain s).isEmpty then endFx s h line e 64 false else s

/-- Glaze is lost: SnpI goes to every agent of the domain (R366, R367).  Owner 64 marks the recovery; with no entry free
it begins with the next request. -/
def startLost (s : State) (h line : Nat) (cur : HReq) : State :=
  let e : TEntry := { line := line, phase := .fx 64 (domain s) false, cur := cur }
  match entryOf (sliceOf s h) line with
  | some o =>
    recover (modEntry s h line fun o => { o with phase := e.phase, data := none, since := s.clock }) h line { e with cur := o.cur }
  | none => if inBuffer (sliceOf s h) < 64 then recover (addEntry s h e) h line e else loseGlaze s h line

/-- A request waits at the slice input. -/
def waitIn (s : State) (h line : Nat) (r : HReq) : State :=
  modSlice s h fun sl => { sl with input := sl.input ++ [r], inputLines := sl.inputLines ++ [line] }

/-- The block to whose provisional line a request adds (R350). -/
def provWrite (r : HReq) : Option (Nat × Nat) :=
  match r with
  | .own q => (match q.act with | .write .. => q.prov | _ => none)
  | _ => none

/-- Requests to the line wait at the slice's input, in front of one of block `tag` or of none.  A provisional store, which
may wait for its set until its shape resolves, holds up only those of its own block: it stalls no other agent (R350). -/
def lineWaits (sl : Slice) (line : Nat) (tag : Option (Nat × Nat) := none) : Bool :=
  (sl.inputLines.zip sl.input).any fun p => p.1 == line && (provWrite p.2 == none || provWrite p.2 == tag)

/-- Take a request whose line has no entry; none while it needs an entry and all 64 are in use, or a provisional way and
its set has four (R348, R350). -/
def tryTake (s : State) (h line : Nat) (r : HReq) : Option State :=
  let sl := sliceOf s h
  let room := inBuffer sl < 64
  let fetch := if room then some (addEntry s h { line := line, phase := .fd, cur := r }) else none
  let provOf : Option (Req × Line × LineMask × BitVec 4 × (Nat × Nat)) := match r with
    | .own q => (match q.act, q.prov with | .write d m p, some tag => some (q, d, m, p, tag) | _, _ => none)
    | _ => none
  match provOf with
  | some (q, d, m, p, tag) =>
    if !provLive s tag then some (performed s q)
    else if provRoom sl line tag then some (performed (addProv s h q d m p tag) q)
    else none
  | none =>
    if isRemote line then some (match r with | .own q => takeRemote s h line q | _ => s)
    else match findWay sl line with
      | some (key, w) =>
        if glazeBad w.glaze then (if room then some (startLost s h line r) else none)
        else if w.valid == 0xF || glazeState w.glaze ≥ 2 then
          let t := takeReq s h key w r
          if inBuffer (sliceOf t h) ≤ 64 then some t else none
        else fetch
      | none => fetch

/-- A request arrives at a home slice: behind those to its line that wait at the input, or on its line's entry; else it
is taken if it can be (R348).  A gate in progress ends; a gated slice keeps it until it wakes (R359). -/
def submit (s : State) (h line : Nat) (r : HReq) : State :=
  let sl := sliceOf s h
  let s := if sl.gating then modSlice s h fun sl => { sl with gating := false } else s
  if sl.gated || lineWaits sl line (provWrite r) then waitIn s h line r
  else if (entryOf sl line).isSome then modEntry s h line fun e => { e with queue := e.queue ++ [r] }
  else (tryTake s h line r).getD (waitIn s h line r)

/-- The first request at a slice's input, oldest of its line, that can be taken or queued on its line's entry leaves it. -/
def takeFirst (s : State) (h : Nat) : State :=
  let sl := sliceOf s h
  let one (i : Nat) : Option State :=
    match sl.input[i]?, sl.inputLines[i]? with
    | some r, some l =>
      if lineWaits { sl with input := sl.input.take i, inputLines := sl.inputLines.take i } l (provWrite r) then none
      else
        let t := modSlice s h fun sl => { sl with input := sl.input.eraseIdx i, inputLines := sl.inputLines.eraseIdx i }
        if (entryOf sl l).isSome then some (modEntry t h l fun e => { e with queue := e.queue ++ [r] })
        else tryTake t h l r
    | _, _ => none
  if sl.gated then s
  else ((List.range sl.input.length).findSome? one).getD s

/-- Base clocks at the slices: in each, a slice takes one of the requests that wait at its input (R368, R369). -/
def slicesTake (s : State) (n : Nat) : State :=
  (tkeys s.slices).foldl (fun s h => foldN (min n (sliceOf s h).input.length) (fun _ s => takeFirst s h) s) s

/-- A request that leaves no line at its home (R225). -/
def keepsNone (r : HReq) : Bool := match r with | .own q => q.pol == 2 | _ => false

/-- Take a request on a line that is not kept: its way stands outside the sets, unless a snoop must be waited for. -/
def takeAside (s : State) (h : Nat) (w : Way) (r : HReq) : State :=
  let s := takeReq (modSlice s h fun sl => { sl with ways := tins sl.ways 8192 w }) h 8192 w r
  let out (sl : Slice) : Slice := { sl with ways := tdel sl.ways 8192, plru := tdel sl.plru 512 }
  match tget (sliceOf s h).ways 8192 with
  | none => s
  | some w =>
    if (entryOf (sliceOf s h) w.line).isNone then modSlice (evict s h 8192 w) h out
    else fillWay (modSlice s h out) h w

/-- FD is over: the request is taken with the data and glaze that have arrived (R356). -/
def fetchDone (s : State) (h line : Nat) : State :=
  match entryOf (sliceOf s h) line with
  | none => s
  | some e =>
    if e.phase != .fd then s
    else if glazeBad (glazeOf s h line) then startLost s h line e.cur
    else finishWith s h line fun s =>
      if keepsNone e.cur && (findWay (sliceOf s h) line).isNone then takeAside s h (newWay s line) e.cur
      else
        let (s, k, w) := homeWay s h line
        takeReq s h k (fillMissing s w) e.cur

/-! Accesses of the device itself (log 16). -/

/-- The slice that holds a line, else its home: the one given, from the page that names it, or the one that the hash
names (R345, R346). -/
def holderOf (s : State) (line : Nat) (home : Option Nat := none) : Nat :=
  match s.slices.find? fun (_, sl) => (findWay sl line).isSome || (entryOf sl line).isSome with
  | some (h, _) => h
  | none => home.getD (hashHome s (partOfLine s 0 line) line)

/-- A line that no other agent owns and no request waits for, so the device may read or write it in one step. -/
def usable (s : State) (line : Nat) (own : Bool) (home : Option Nat := none) : Bool :=
  if isRemote line then
    match s.slices.find? fun (_, sl) => (findWay sl line).isSome with
    | some (h, sl) =>
      (entryOf (sliceOf s h) line).isNone && !lineWaits sl line &&
      (match findWay sl line with
       | some (_, w) => !own || w.held == some .m || w.held == some .e
       | none => false)
    | none => false
  else
    let h := holderOf s line home
    let sl := sliceOf s h
    let g := glazeOf s h line
    let v := match findWay sl line with | some (_, w) => w.valid == 0xF | none => false
    (entryOf sl line).isNone && !lineWaits sl line && !sl.gated && !sl.gating && !glazeBad g &&
    (glazeState g == 0 || (!own && glazeState g == 1) || (!own && glazeState g == 3 && v))

/-- Where a line's requests of the device go: its partition's hash, or the slice that has it. -/
def homeFor (s : State) (part line : Nat) (home : Option Nat) : Nat :=
  if isRemote line then hashHome s part line else holderOf s line home

/-- Ask for a line on behalf of one of the device's units, so that it becomes usable (log 16). -/
def wantLine (s : State) (part line : Nat) (own : Bool) (home : Option Nat := none) (who : Nat := 0) : State :=
  let h := homeFor s part line home
  if (entryOf (sliceOf s h) line).isSome || lineWaits (sliceOf s h) line then s
  else submit s h line (.own { core := 1024, op := who, line := line, home := h, part := part,
                               act := (if own then Act.write 0 0 0 else Act.probe) })

/-- A write by the device itself: at once when the line is usable, else as a request at the home (log 16). -/
def homeWrite (s : State) (part line : Nat) (data : Line) (m : LineMask) (poison : BitVec 4 := 0)
    (home : Option Nat := none) : State :=
  if unbacked s line then s
  else if usable s line true home then
    let s := pokeLine s line data m poison
    match s.slices.find? fun (_, sl) => (findWay sl line).isSome with
    | some (h, sl) =>
      match findWay sl line with
      | some (k, w) => if w.held.isSome then setWay s h k { w with held := some .m } else s
      | none => s
    | none => s
  else
    let h := homeFor s part line home
    submit s h line (.own { core := 1024, line := line, home := h, act := .write data m poison, part := part })

def homeWriteBytes (s : State) (part pa : Nat) (bs : List Byte) (home : Option Nat := none) : State :=
  let first := pa / 128
  let last := (pa + bs.length - 1) / 128
  if bs.isEmpty then s
  else foldN (last - first + 1) (fun i s =>
    let line := first + i
    let lo := max pa (128 * line)
    let hi := min (pa + bs.length) (128 * line + 128)
    homeWrite s part line (fieldLine (lo - 128 * line) (hi - lo) (leNat ((bs.drop (lo - pa)).take (hi - lo))))
      (fieldMask (lo - 128 * line) (hi - lo)) 0 home) s

/-! Answers to the base die's own units (R353, R358). -/

/-- What came back to a unit for a line. -/
def answerTo (s : State) (line who : Nat) : Option Answer :=
  s.slices.findSome? fun (_, sl) => sl.answers.find? fun a => a.line == line && a.who == who

def dropAnswer (s : State) (line who : Nat) : State :=
  { s with slices := s.slices.map fun (h, sl) =>
      (h, { sl with answers := sl.answers.filter fun a => !(a.line == line && a.who == who) }) }

/-- PROT for a request already on its way: its lanes get nothing, and its path traps where it stands (R344, R358). -/
def reqFault (s : State) (r : Req) : State :=
  let s := answerUnit (performed s r) r none
  let off := match r.lanes with | [] => 0 | q :: t => t.foldl (fun a y => min a y.off) q.off
  lateTrap s r .prot (r.lanes.foldl (fun a y => setBit a y.lane true) 0) (r.va + off)

/-! Lines for the units of the base die: engines, and words whose memory they read at the homes (log 16). -/

/-- What a unit comes to. -/
inductive Got
  | go (s : State)
  /-- A home or another agent does not permit the access. -/
  | prot (s : State)
  /-- The unit waits for a line, which has been asked for. -/
  | wait (s : State)

def dropAnswers (s : State) (who : Nat) : State :=
  if s.slices.any fun p => p.2.answers.any fun a => a.who == who then
    { s with slices := s.slices.map fun (h, sl) => (h, { sl with answers := sl.answers.filter fun a => a.who != who }) }
  else s

/-- No home serves the access (R344, R353, R358). -/
def refused (s : State) (line who : Nat) : Bool :=
  unbacked s line || (match answerTo s line who with | some a => a.data.isNone | none => false)

/-- A unit's read of lines at their homes: once all of them can be read, it goes on. -/
def unitReads (s : State) (part who : Nat) (ls : List (Nat × Nat)) : Got :=
  let missing := ls.filter fun l => (answerTo s l.1 who).isNone && !usable s l.1 false (some l.2)
  if ls.any fun l => refused s l.1 who then .prot (dropAnswers s who)
  else if missing.isEmpty then .go s
  else .wait (missing.foldl (fun s l => wantLine s part l.1 false (some l.2) who) s)

/-- A line that a unit may read, as it was sent or as it stands at its home. -/
def unitLine (s : State) (line who : Nat) : Line × BitVec 4 :=
  match answerTo s line who with
  | some { data := some d, .. } => (d, 0)
  | _ => peekLine s line

/-- The device's own readers besides copies, engines, words and waits, by their kind and number: 0 fetches, 1 frames,
2 commands, 3 queues, 4 launches. -/
def deviceWho (kind n : Nat) : Nat := 16 * (8 * n + kind + 1)

/-- A unit's read of n bytes in place: once all of their lines can be read, it has them. -/
def unitBytes (s : State) (part who pa n : Nat) : Got × List Byte :=
  let ls := (List.range ((pa % 128 + n + 127) / 128)).map (· + pa / 128)
  let away := ls.filter fun l => (answerTo s l who).isNone && !usable s l false
  let bytes := if ls.any fun l => (answerTo s l who).isSome then
      ((ls.flatMap fun l => leBytes 128 (lineField (unitLine s l who).1 0 128)).drop (pa % 128)).take n
    else peekBytes s pa n
  if ls.any fun l => refused s l who then (.prot (dropAnswers s who), [])
  else if away.isEmpty then (.go (dropAnswers s who), bytes)
  else (.wait (away.foldl (fun s l => wantLine s part l false none who) s), [])

/-- A write of a unit: a line, its home and the bytes. -/
structure UnitWrite where
  line : Nat
  home : Nat
  data : Line
  mask : LineMask
  poison : BitVec 4 := 0
  race : Option Race := none

/-- A write that its home can take at once, checked and recorded by the detector (R285). -/
def writeUnit (s : State) (part : Nat) (w : UnitWrite) : State :=
  let s := raceDo s { core := 1024, line := w.line, home := w.home, act := .probe, race := w.race } (sectorsTouched w.mask) 1
  homeWrite s part w.line w.data w.mask w.poison (some w.home)

/-- The unit knows that its write of a line is done. -/
def noteDone (s : State) (w : UnitWrite) (who : Nat) : State :=
  modSlice s w.home fun sl => { sl with answers := sl.answers ++ [{ line := w.line, who := who, data := some 0 }] }

/-- Writes of a unit, one a line: those that a home cannot take at once are sent to it as requests, and the others
follow when these have been performed.  `keep` has the unit remember them, since it has more to do. -/
def unitPut (s : State) (part who : Nat) (ws : List UnitWrite) (keep : Bool) : Got :=
  let todo := ws.filter fun w => (answerTo s w.line who).isNone
  let missing := todo.filter fun w => !usable s w.line true (some w.home)
  if ws.any fun w => refused s w.line who then .prot (dropAnswers s who)
  else if missing.isEmpty then
    .go (if keep then todo.foldl (fun s w => noteDone (writeUnit s part w) w who) s
         else dropAnswers (todo.foldl (fun s w => writeUnit s part w) s) who)
  else .wait (missing.foldl (fun s w =>
    let h := homeFor s part w.line (some w.home)
    if (entryOf (sliceOf s h) w.line).isSome || lineWaits (sliceOf s h) w.line then s
    else submit s h w.line (.own { core := 1024, op := who, line := w.line, home := h, part := part, race := w.race,
                                   act := .write w.data w.mask w.poison })) s)

def unitWrites (s : State) (part who : Nat) (ws : List UnitWrite) : Got := unitPut s part who ws false

/-! Requests from port buffers (R19-R21). -/

/-- A store or an atomic. -/
def writes (r : Req) : Bool := match r.act with | .write .. | .atom .. => true | _ => false

def portAll (s : State) (chiplet : Nat) : List Req := (List.range 4).flatMap fun q => tgetD s.ports (4 * chiplet + q) []

/-- An earlier request of the same warp to the line, or, for a write and for a load that must see it, an earlier write
from the chiplet, goes first, but a provisional store only before those of its own block (R350). -/
def portReady (s : State) (port : Nat) (r : Req) : Bool :=
  let earlier := (portAll s (port / 4)).filter fun q => q.line == r.line && q.seq < r.seq
  !(earlier.any fun q => q.core == r.core && q.warp == r.warp) &&
  (if writes r || !r.fwd then !(earlier.any fun q => writes q && (q.prov.isNone || q.prov == r.prov)) else true) &&
  (match r.act, r.prov with
   | .write .., some tag => provRoom (sliceOf s r.home) r.line tag
   | _, _ => true)

/-- The oldest such request to the line in a port's buffer reaches its home. -/
def portTake (s : State) (port line : Nat) (want : Req → Bool) : State :=
  let buf := tgetD s.ports port []
  match buf.find? fun r => r.line == line && want r && portReady s port r with
  | none => s
  | some r =>
    let s := { s with ports := tput [] s.ports port (buf.filter (·.seq != r.seq)) }
    if unbacked s line then reqFault s r else submit s r.home line (.own r)

end Sys2Proof.Machine
end

