-- ==== Sys2Proof/Machine/Work.lean ====
section
/-! DEFINITION. Machine/Work.lean: the lifetime of crews, blocks, launches and commands: crew phases (R246-R265),
the end and the failure of warps and blocks (R163, R383), completion records and notices (R373, R380). -/

namespace Sys2Proof.Machine

/-! Notices to the outside. -/

/-- Traffic for a partition is refused while its stream, or the link's, is insecure (R411): stream 0 is the link's, stream
1 + p that of partition p. -/
def insecure (s : State) (part : Nat) : Bool :=
  tget s.dev.streams 0 == some false || tget s.dev.streams (part + 1) == some false

/-- Raise MSI-X vector v of a partition (R408). -/
def irq (s : State) (part v : Nat) : State := modDev s fun d => { d with irqs := d.irqs ++ [(part, v)] }

/-- Log an event in the management mailbox. -/
def logEvent (s : State) (code arg : Nat) : State := modDev s fun d => { d with log := d.log ++ [(code, arg)] }

def pageOf (s : State) (part : Nat) : SPage := match tget s.parts part with | some p => p.page | none => {}
def modPage (s : State) (part : Nat) (f : SPage → SPage) : State :=
  { s with parts := tmod s.parts part fun p => { p with page := f p.page } }

/-- The context number that a descriptor's physical address names, for the scheduler page (R372). -/
def ctxAt (s : State) (pa : Nat) : Nat := peek32 s pa

/-- Walk through the tables of a descriptor at a physical address. -/
def walkDesc (s : State) (desc part va : Nat) : Xl :=
  ownXl s part va (walkRoot s desc part va)

/-- A write of the device at a virtual address is made now: where its tables give no leaf to write through, the mailbox
logs what it names; while a line of them is on its way, it waits. -/
def lateGo (s : State) (x : Late) : State :=
  let done (s : State) : State := match x.irq with | some v => irq s x.part v | none => s
  let lost (s : State) : State := match x.fail with | some (c, a) => logEvent s c a | none => s
  match walkDesc s x.desc x.part x.va with
  | .busy l => wantLine { s with late := s.late ++ [x] } x.part l false
  | .bad => done (lost s)
  | .ok leaf level =>
    if leaf.getLsbD 3 then done (homeWriteBytes s x.part (leafPa leaf level x.va) x.bytes) else done (lost s)

/-- It follows the earlier ones of its partition. -/
def devWrite (s : State) (x : Late) : State :=
  if s.late.any fun y => y.part == x.part then { s with late := s.late ++ [x] } else lateGo s x

/-- The writes that wait are looked at, in their order. -/
def lateAll (s : State) : State := s.late.foldl devWrite { s with late := [] }

/-- A write through a context's tables. -/
def ctxPut (s : State) (ctx va : Nat) (bs : List Byte) : State :=
  devWrite s { part := (ctxOf s ctx).part, desc := (ctxOf s ctx).desc, va := va, bytes := bs }

/-- Append a notice to a partition's ring and raise vector 0; a full ring drops it (R373). -/
def notice (s : State) (part : Nat) (value : W64) : State :=
  let p := pageOf s part
  let size := 2 ^ (p.notesize + 4)
  if (p.head.toNat + 2 ^ 32 - p.tail.toNat % 2 ^ 32) % 2 ^ 32 ≥ size then
    modPage s part fun p => { p with lost := p.lost + 1 }
  else
    let va := p.notebase + 8 * (p.head.toNat % size)
    let x : Late := { part := part, desc := p.ctx0.toNat, va := va, bytes := leBytes 8 value.toNat, irq := some 0 }
    devWrite (modPage s part fun p => { p with head := p.head + 1 }) x

/-! Completion of commands (R377, R380). -/

def cmdField (c : Cmd) (off n : Nat) : Nat := leNat ((c.bytes.drop off).take n)
def cmdTrailer (c : Cmd) : Nat := cmdField c 0xFC 4
def cmdType (c : Cmd) : Nat := cmdTrailer c / 2 ^ 16 % 256
def cmdClass (c : Cmd) : Nat := cmdTrailer c / 2 ^ 12 % 16
def sameCmd (a : Cmd) (part queue index : Nat) : Bool := a.part == part && a.queue == queue && a.index == index

def findCmd (s : State) (part queue index : Nat) : Option Cmd := s.cmds.find? fun c => sameCmd c part queue index
def modCmd (s : State) (part queue index : Nat) (f : Cmd → Cmd) : State :=
  { s with cmds := s.cmds.map fun c => if sameCmd c part queue index then f c else c }

/-- The completion-record address of a command: 0x38 for LAUNCH and PROOFED, 0xF0 for those of R384; a LINK and a slot
of no type name none. -/
def recordVa (c : Cmd) : Nat :=
  if cmdType c = 1 || cmdType c = 3 then cmdField c 0x38 8
  else if 4 ≤ cmdType c && cmdType c ≤ 8 then cmdField c 0xF0 8 else 0

/-- Write the completion record, raise the IRQ and drop the command (R380). -/
def completeCmd (s : State) (c : Cmd) (code failed : Nat) : State :=
  let s := { s with cmds := s.cmds.filter fun d => !sameCmd d c.part c.queue c.index }
  let va := recordVa c
  let rec' := leBytes 4 (code + 256 * cmdType c) ++ leBytes 4 failed ++ leBytes 4 c.index ++ leBytes 4 1
  let q := cmdField c 0xF8 2
  let v := if q ≥ 2 ^ 15 then some (q % 2 ^ 11) else none
  let bare (s : State) : State := match v with | some n => irq s c.part n | none => s
  if va = 0 then bare s
  else if va % 16 ≠ 0 then bare (logEvent s 0x380 va)
  else devWrite s { part := c.part, desc := (ctxOf s c.ctx).desc, va := va, bytes := rec', fail := some (0x381, va), irq := v }

/-! Queue faults (R385). -/

def queueKey (part q : Nat) : Nat := 4096 * part + q
def queueOf (s : State) (part q : Nat) : Queue := tgetD s.queues (queueKey part q) {}
def modQueue (s : State) (part q : Nat) (f : Queue → Queue) : State :=
  { s with queues := tins s.queues (queueKey part q) (f (queueOf s part q)) }

/-- Bytes of a queue's descriptor are written as a release at system scope (R375). -/
def queuePut (s : State) (part q off : Nat) (bs : List Byte) : State :=
  let p := pageOf s part
  devWrite s { part := part, desc := p.ctx0.toNat, va := p.qtbase + 64 * q + off, bytes := bs }

/-- Write STATE into the queue descriptor as a release at system scope (R375). -/
def putQueueState (s : State) (part q st code : Nat) : State :=
  let s := modQueue s part q fun x => { x with st := st, code := code }
  queuePut s part q 0x20 (leBytes 4 (st + 256 * code))

/-- Fault a queue: commands accepted and not started will complete QFAULTED in slot order (R385). -/
def faultQueue (s : State) (part q code : Nat) : State :=
  let s := putQueueState s part q 2 code
  { s with cmds := s.cmds.map fun c =>
      if c.part == part && c.queue == q && c.st == .parsed && c.code.isNone then { c with code := some 0x13 } else c }

/-! Crews (R246-R265). -/

def unitOf (s : State) (u : Nat) : BUnit := tgetD s.bunits u {}
def modUnit (s : State) (u : Nat) (f : BUnit → BUnit) : State :=
  { s with bunits := tins s.bunits u (f (unitOf s u)) }

def crewOf (s : State) (h : Nat) : Option Crew := tget (unitOf s (h / 8192)).crews (h % 8192)
def modCrew (s : State) (h : Nat) (f : Crew → Crew) : State :=
  modUnit s (h / 8192) fun u => { u with crews := tmod u.crews (h % 8192) f }

/-- Allocate a record of a unit: never-used ones first, then freed ones in the order of their freeing (R247). -/
def allocCrew (s : State) (u : Nat) (c : Crew) : Option (Nat × State) :=
  let b := unitOf s u
  if b.fresh ≤ 8191 then
    some (8192 * u + b.fresh, modUnit s u fun b => { b with fresh := b.fresh + 1, crews := tins b.crews b.fresh c })
  else match b.freed with
    | i :: t => some (8192 * u + i, modUnit s u fun b => { b with freed := t, crews := tins b.crews i c })
    | [] => none

/-- A record is free in a unit. -/
def crewFree (s : State) (u : Nat) : Bool := (unitOf s u).fresh ≤ 8191 || !(unitOf s u).freed.isEmpty

def freeCrew (s : State) (h : Nat) : State :=
  modUnit s (h / 8192) fun u => { u with crews := tdel u.crews (h % 8192), freed := u.freed ++ [h % 8192] }

/-- Local crews kept in a core's crew table (R249). -/
def localCrews (s : State) (core : Nat) : Nat :=
  s.bunits.foldl (fun n (_, u) => n + (u.crews.filter fun (_, c) => !c.remote && c.core == core).length) 0

def crewNext (w : Warp) (h : Nat) : Option (Nat × Bool) :=
  (w.crews.find? fun c => c.1 == h).map (·.2)
def setNext (w : Warp) (h next : Nat) (joined : Bool) : Warp :=
  if w.crews.any fun c => c.1 == h then
    { w with crews := w.crews.map fun c => if c.1 == h then (h, next, joined) else c }
  else { w with crews := w.crews ++ [(h, next, joined)] }
def dropNext (w : Warp) (h : Nat) : Warp := { w with crews := w.crews.filter fun c => c.1 != h }

def isMember (w : Warp) (h : Nat) : Bool := (crewNext w h).isSome

/-- Every warp of a context on every core. -/
def warpsOf (s : State) : List (Nat × Nat × Warp) :=
  s.cores.flatMap fun (c, co) => co.warps.map fun (w, x) => (c, w, x)

/-- Every warp of the context that shares a crew with a warp, as core and block (R95). -/
def crewMates (s : State) (core : Nat) (x : Warp) : List (Nat × Nat) :=
  (warpsOf s).filterMap fun (c, _, y) =>
    if (coreOf s c).ctx == (coreOf s core).ctx && y.crews.any fun k => isMember x k.1 then some (c, y.block) else none

/-- A .pub completion is an acquire at crew scope, resolved as the word issued; wider than a block, it empties the L1
(R94, R259). -/
def pubDone (s : State) (core : Nat) (wide : Bool) : State :=
  if wide then modCore s core fun co => { co with l1 := [] } else s

/-- A path waiting for the completion of a phase resumes: its word completes, as an acquire under .pub
(R258, R259). -/
def resumeCrew (s : State) (core w : Nat) (sl : Slot) : State :=
  match tget (coreOf s core).warps w with
  | none => s
  | some x =>
    match (pathOf x sl).wait with
    | .crew _ _ pub _ =>
      pubDone (modWarp s core w fun x => retireW x sl (unitAt (pathOf x sl))) core (pub.getD false)
    | _ => s

/-- Release every warp that waits for a phase (R250); for a remote barrier each release crosses to its core
(R263). -/
def releasePhase (s : State) (h phase : Nat) (remote : Bool) : State :=
  let ws := (warpsOf s).flatMap fun (c, w, x) =>
    [Slot.a, Slot.b].filterMap fun sl =>
      match (pathOf x sl).wait with
      | .crew h' p' _ _ => if h' = h && p' = phase then some (c, w, sl) else none
      | _ => none
  ws.foldl (fun s (c, w, sl) =>
    if remote then
      { s with releases := tins s.releases c (tgetD s.releases c [] ++ [{ warp := w, slot := sl }]) }
    else resumeCrew s c w sl) s

/-- check() of R250. -/
def crewCheck (s : State) (h : Nat) : State :=
  match crewOf s h with
  | none => s
  | some c =>
    if c.arrived = c.members then
      let s := modCrew s h fun c =>
        { c with phase := (c.phase + 1) % 2 ^ 32, arrived := 0, members := c.members + c.joins, joins := 0, pub := false }
      -- the completion of a .pub barrier advances the context's epoch (R122)
      let s := if c.pub then { s with contexts := tmod s.contexts c.ctx fun k => { k with epoch := k.epoch + 1 } } else s
      let s := releasePhase s h c.phase c.remote
      if c.members + c.joins = 0 then freeCrew s h else s
    else s

/-- join(w) of R250. -/
def crewJoin (s : State) (h core w : Nat) : State :=
  match crewOf s h with
  | none => s
  | some c =>
    if c.arrived = 0 then
      modWarp (modCrew s h fun c => { c with members := c.members + 1 }) core w fun x => setNext x h c.phase false
    else
      modWarp (modCrew s h fun c => { c with joins := c.joins + 1 }) core w fun x =>
        setNext x h ((c.phase + 1) % 2 ^ 32) true

/-- arrive(w) of R250, for a warp that may arrive; `pub` when its word carries .pub. -/
def crewArrive (s : State) (h core w : Nat) (pub : Bool) : State :=
  match crewOf s h with
  | none => s
  | some c =>
    let s := modCrew s h fun c => { c with arrived := c.arrived + 1, pub := c.pub || pub }
    crewCheck (modWarp s core w fun x => setNext x h ((c.phase + 1) % 2 ^ 32) false) h

/-- leave(w) of R250. -/
def crewLeave (s : State) (h core w : Nat) : State :=
  match crewOf s h, tget (coreOf s core).warps w with
  | some c, some x =>
    match crewNext x h with
    | none => s
    | some (next, joined) =>
      let later := next == (c.phase + 1) % 2 ^ 32
      let s := modCrew s h fun c =>
        if later && joined then { c with joins := c.joins - 1 }
        else if later then { c with arrived := c.arrived - 1, members := c.members - 1 }
        else { c with members := c.members - 1 }
      let s := modWarp s core w fun x => dropNext x h
      if c.broken then
        (match crewOf s h with
         | some c => if c.members + c.joins = 0 then freeCrew s h else s
         | none => s)
      else crewCheck s h
  | _, _ => s

/-- A member of the copy is saved, so its slice is withdrawn until the restore (R287). -/
def withdrawn (c : Copy) : Bool := c.slices.any fun y => y.core ≥ 4096

/-- A copy that gathers no longer expects this warp; it is ready when it expects no one (R274). -/
def copyForget (s : State) (core w : Nat) (h : Option Nat) : State :=
  { s with nextReq := s.nextReq + 1, copies := s.copies.map fun (id, c) =>
      if c.st == .gathering && (match h with | some x => c.handle == x | none => true) &&
         c.members.contains (core, w) then
        let ms := c.members.filter (· != (core, w))
        (id, { c with members := ms, st := if ms.isEmpty && !c.slices.isEmpty && !withdrawn c then .ready else c.st, order := s.nextReq })
      else (id, c) }

/-- A gathering copy left with neither members nor slices does not exist any more. -/
def dropEmptyCopies (s : State) : State :=
  { s with copies := s.copies.filter fun (_, c) => !(c.st == .gathering && c.members.isEmpty && c.slices.isEmpty) }

/-- The warp leaves every crew it belongs to; leaving counts as arriving (R163, R117). -/
def leaveAll (s : State) (core w : Nat) : State :=
  match tget (coreOf s core).warps w with
  | none => s
  | some x =>
    let s := x.crews.foldl (fun s c => crewLeave s c.1 core w) s
    dropEmptyCopies (copyForget s core w none)

/-- Take a crew's barrier to its home unit (R249). -/
def makeRemote (s : State) (h : Nat) : State := modCrew s h fun c => { c with remote := true }

/-- A block's mapping in a share crew is revoked, both ways (R262). -/
def revokeShare (s : State) (core b : Nat) : State :=
  match tget (coreOf s core).blocks b with
  | none => s
  | some x =>
    match x.share with
    | none => s
    | some (h, _) =>
      let s := modCrew s h fun c => { c with maps := c.maps.filter fun m => !(m.2.1 == core && m.2.2 == b) }
      modBlock s core b fun x => { x with share := none }

/-! Ends of warps and blocks (R163, R296, R327, R332). -/

/-- Every matrix command that is queued or in progress. -/
def mtxCmds (s : State) : List QCmd :=
  s.cores.flatMap fun (_, co) => co.q0 ++ (match co.cmd with | some (q, _) => [q] | none => [])

/-- Work that still reads or writes a block's storage: copies and matrix commands (R163, R262). -/
def blockBusy (s : State) (core b : Nat) : Bool :=
  let local' (d : TDesc) : Bool := d.space == 2 || d.space == 4 || d.space == 7
  s.copies.any (fun (_, c) => c.slices.any fun x =>
    (x.core == core && x.block == b && (local' x.src || local' x.dst)) ||
    x.srcOwn == some (core, b) || x.dstOwn == some (core, b)) ||
  (coreOf s core).q0.any (·.block == b) ||
  (match (coreOf s core).cmd with | some (q, _) => q.block == b | none => false) ||
  (mtxCmds s).any (·.own == some (core, b))

/-- Free the column-bank granules of a block (R332, R333). -/
def freeBank (s : State) (b : Block) : State :=
  if b.sharedBank then
    match tget s.launches b.launch with
    | none => s
    | some l =>
      let hit := l.banks.filter fun x => x.2.1 == b.bankCol
      let keep := l.banks.map fun x => if x.2.1 == b.bankCol then (x.1, x.2.1, x.2.2.1, x.2.2.2 - 1) else x
      let gone := hit.any fun x => x.2.2.2 ≤ 1
      let s := { s with launches := tins s.launches b.launch { l with banks := keep.filter fun x => x.2.2.2 != 0 } }
      if gone then { s with bankUsed := s.bankUsed.filter fun k => !b.colGran.any fun g => k == 16 * b.bankCol + g } else s
  else { s with bankUsed := s.bankUsed.filter fun k => !b.colGran.any fun g => k == 16 * b.bankCol + g }

/-- Release a block's matrix units (R296). -/
def freeUnits (co : Core) (b : Nat) : Core :=
  { co with slotOwner := co.slotOwner.filter (·.2 != b), accOwner := co.accOwner.filter (·.2 != b),
            releasing := co.releasing.filter fun k =>
              !(if k < 64 then tget co.slotOwner k == some b else tget co.accOwner (k - 64) == some b) }

/-- n entries have left a core's q9: its partner may push as many more, if it still holds the same context (R325). -/
def creditFree (s : State) (core ctx n : Nat) : State :=
  if (coreOf s (partnerOf core)).ctx == some ctx then
    modCore s (partnerOf core) fun co => { co with qfree8 := min 16 (co.qfree8 + n) }
  else s

/-- Reads of a core that are on their way bring it no line any more: its L1 serves no other context (R131). -/
def forgetReads (s : State) (core : Nat) : State :=
  let f (r : Req) : Req := if r.core = core then { r with fill := false } else r
  let g (q : HReq) : HReq := match q with | .own r => .own (f r) | q => q
  { s with ports := s.ports.map fun (p, rs) => (p, rs.map f)
           slices := s.slices.map fun (h, sl) =>
             (h, { sl with input := sl.input.map g,
                           entries := sl.entries.map fun e => { e with cur := g e.cur, queue := e.queue.map g } }) }

def modPair (s : State) (pair : Nat) (f : Pair → Pair) : State :=
  { s with pairs := tins s.pairs pair (f (tgetD s.pairs pair {})) }
def modCol (s : State) (pair pos : Nat) (f : Column → Column) : State :=
  modPair s pair fun p => { p with cols := tins p.cols pos (f (tgetD p.cols pos {})) }

/-- Cores of a cluster pair's upper cluster. -/
def upperCores (pair : Nat) : List Nat := (List.range 16).map fun i => pair / 4 * 128 + 64 + pair % 4 * 16 + i

/-- The gate of a cluster pair moves on once what it waits for is done (R339). -/
def gateMove (s : State) (pair : Nat) : State :=
  let p := tgetD s.pairs pair {}
  match p.gate with
  | 0 => if p.req && !(p.cols.any fun c => c.2.migrating) then modPair s pair fun p => { p with gate := 1 } else s
  | 1 =>
    if (upperCores pair).all fun c => (coreOf s c).ctx.isNone then
      modPair s pair fun p => { p with gate := 2, gates := (p.gates + 1) % 256 }
    else s
  | 2 => if p.req then s else modPair s pair fun p => { p with gate := 3 }
  | _ =>
    if s.saves.any fun v => v.reason == 2 && (upperCores pair).contains v.core then s
    else modPair s pair fun p => { p with gate := 0 }

def settleGate (s : State) (pair : Nat) : State := gateMove (gateMove (gateMove (gateMove s pair) pair) pair) pair

/-- Entries that were left in a core's q9 are counted as discarded (R327). -/
def countDiscards (s : State) (core n : Nat) : State :=
  if n = 0 then s else modCol s (pairOf core) (posOf core) fun c => { c with discard := (c.discard + n) % 256 }

/-- The core gives up its context when its last block has ended (R327). -/
def releaseCore (s : State) (core : Nat) : State :=
  let co := coreOf s core
  if core < 1024 && co.blocks.isEmpty && co.warps.isEmpty && co.ctx.isSome && co.q0.isEmpty && co.cmd.isNone &&
     co.transit.isEmpty && co.wc.isEmpty && co.ops.isEmpty then
    let n := co.q9.length
    let s := modCore (forgetReads s core) core fun co =>
      { co with ctx := none, q1 := [], q2 := [], q9 := [], slots := [], slotPoison := [], acc := [],
                accPoison := [], slotOwner := [], accOwner := [], releasing := [], l1 := [], memdef := 0x269, trapvec := 0 }
    settleGate (countDiscards (creditFree s core (co.ctx.getD 0) n) core n) (pairOf core)
  else s

/-- Remove an ended block whose storage nothing uses any more. -/
def dropBlock (s : State) (core b : Nat) : State :=
  match tget (coreOf s core).blocks b with
  | none => s
  | some x =>
    let s := freeBank s x
    let s := modCore s core fun co => freeUnits { co with blocks := tdel co.blocks b } b
    releaseCore s core

/-- Ended blocks that were held for copies and commands (R163); an ended provisional block stays at its slot (R401). -/
def sweepBlocks (s : State) (core : Nat) : State :=
  let s := (tkeys (coreOf s core).blocks).foldl (fun s b =>
    match tget (coreOf s core).blocks b with
    | some x => if b ≥ 16 && x.ended && !blockBusy s core b then dropBlock s core b else s
    | none => s) s
  releaseCore s core

/-- Give an ended block that is still busy a key of its own, so that its slot is free (R163). -/
def parkBlock (s : State) (core b : Nat) : State :=
  match tget (coreOf s core).blocks b with
  | none => s
  | some x =>
    let k := (lowest (fun i => (tget (coreOf s core).blocks (16 + i)).isNone) 128).getD 128 + 16
    let re (n : Nat) := if n = b then k else n
    let s : State := modCore s core fun co =>
      { co with
        blocks := tins (tdel co.blocks b) k { x with ended := true }
        q0 := co.q0.map fun q => { q with block := re q.block }
        cmd := co.cmd.map fun (q, n) => ({ q with block := re q.block }, n)
        slotOwner := co.slotOwner.map fun (i, n) => (i, re n)
        accOwner := co.accOwner.map fun (i, n) => (i, re n) }
    let own (o : Option (Nat × Nat)) := if o == some (core, b) then some (core, k) else o
    let move (q : QCmd) : QCmd := { q with own := own q.own }
    let both (co : Core) : Core := { co with q0 := co.q0.map move, cmd := co.cmd.map (fun p => (move p.1, p.2)) }
    let s : State := { s with cores := s.cores.map fun p => (p.1, both p.2) }
    { s with copies := s.copies.map fun (id, c) => (id, { c with slices := c.slices.map fun y =>
        { y with block := if y.core = core then re y.block else y.block, srcOwn := own y.srcOwn, dstOwn := own y.dstOwn } }) }

/-- Append an entry to a launch's fail log (R383). -/
def failLog (s : State) (l : Launch) (entry : List Byte) : State :=
  if l.faillog = 0 || l.logged ≥ l.failcap then s
  else ctxPut s l.ctx (l.faillog + 64 * l.logged) entry

/-- The entry of a block lost without a frame (R383). -/
def lostEntry (x y z : W32) (reason : Nat) : List Byte :=
  leBytes 40 0 ++ leBytes 4 x.toNat ++ leBytes 4 y.toNat ++ leBytes 4 z.toNat ++ leBytes 4 0 ++
  leBytes 1 0 ++ leBytes 1 3 ++ leBytes 2 0 ++ leBytes 4 reason

/-- Requests on their way: in write-combining buffers, port buffers and at homes. -/
def reqsAbroad (s : State) : List Req :=
  (s.cores.flatMap fun c => c.2.wc.map (·.req)) ++ s.ports.flatMap (·.2) ++ s.slices.flatMap fun p => sliceReqs p.2

/-- Every write of a launch is performed: its blocks' stores, atomics, copies and matrix commands, and the device's own
writes for its partition (R379). -/
def launchQuiet (s : State) (id part : Nat) : Bool :=
  !((reqsAbroad s).any fun r => writes r && (r.launch == id || (r.core == 1024 && r.part == part))) &&
  !(s.copies.any fun c => c.2.slices.any fun y => y.launch == id && y.core != 1024) &&
  !(s.cores.any fun c => c.2.blocks.any fun b => b.2.launch == id)

/-- A launch all of whose blocks have ended or failed completes, once its writes are performed (R379, R386, R403,
R404). -/
def launchDone (s : State) (id : Nat) : State :=
  match tget s.launches id with
  | none => s
  | some l =>
    if l.ended ≥ l.total && l.resolved && l.screens.isEmpty && launchQuiet s id l.part then
      let code := if l.timedOut then 0x12 else if l.failed > 0 then 0x10 else 0
      let s := { s with launches := tdel s.launches id }
      match findCmd s l.part l.queue l.index with
      | some c => completeCmd s c code l.failed
      | none => s
    else s

/-- Compare a screened block with its shadow once both have ended (R422). -/
def screenDone (s : State) (launch id : Nat) (shadow : Bool) (res : Option (W32 × W32)) : State :=
  match tget s.launches launch with
  | none => s
  | some l =>
    match l.screens.find? (·.1 == id) with
    | none => s
    | some (_, b, o, h) =>
      let o := if shadow then o else res
      let h := if shadow then res else h
      match res, o, h with
      | none, _, _ =>
        let l := { l with screens := l.screens.filter (·.1 != id) }
        launchDone { s with launches := tins s.launches launch l } launch
      | _, some x, some y =>
        let l := { l with screens := l.screens.filter (·.1 != id) }
        let s := { s with launches := tins s.launches launch l }
        let s := if x == y then s
          else irq (logEvent (logEvent (logEvent s 0x422 b) x.1.toNat x.2.toNat) y.1.toNat y.2.toNat) l.part 1
        launchDone s launch
      | _, _, _ =>
        let l := { l with screens := l.screens.map fun e => if e.1 == id then (id, b, o, h) else e }
        { s with launches := tins s.launches launch l }

/-- One block unit of a launch has ended; a failed one is logged and counted (R383, R386). -/
def unitEnded (s : State) (launch : Nat) (failed : Option (List Byte)) : State :=
  match tget s.launches launch with
  | none => s
  | some l =>
    let s := match failed with | some e => failLog s l e | none => s
    let n := if failed.isSome then 1 else 0
    let l := { l with ended := l.ended + 1, failed := l.failed + n, logged := l.logged + n }
    launchDone { s with launches := tins s.launches launch l } launch

/-- A warp context is freed (R163): its copies' tokens and its commands' statuses have no reader. -/
def freeWarp (s : State) (core w : Nat) : State :=
  match tget (coreOf s core).warps w with
  | none => s
  | some x =>
    let s := leaveAll s core w
    let mail (u : BUnit) : BUnit := { u with inbox := u.inbox.filter fun p => !(p.core == core && p.warp == w) }
    let s := { s with bunits := s.bunits.map (fun (k, u) => (k, mail u)),
                      releases := tmod s.releases core fun l => l.filter fun r => r.warp != w }
    let s := { s with copies := s.copies.map fun (id, c) => (id, { c with slices := c.slices.map fun y =>
        if y.core == core && y.warp == w then { y with orphan := true } else y }) }
    let s := modBlock s core x.block fun b =>
      { b with sigdSum := b.sigdSum + x.sigd, hashSum := b.hashSum + (x.storeCrc ^^^ 0xFFFFFFFF) }
    let lose (q : QCmd) : QCmd :=
      if q.warp = w && q.age = x.age then { q with orphan := true, dead := x.mstatus.toNat % 256 != 0 } else q
    modCore s core fun co =>
      { co with
        warps := tdel co.warps w,
        q0 := co.q0.map lose,
        cmd := co.cmd.map fun (q, n) => (lose q, n) }

/-- The block ends: its slot returns, its storage once nothing uses it (R163). -/
def endBlock (s : State) (core b : Nat) (failed : Option (List Byte)) (count : Bool) : State :=
  match tget (coreOf s core).blocks b with
  | none => s
  | some x =>
    let s := revokeShare s core b
    let s := if blockBusy s core b then parkBlock s core b else dropBlock s core b
    let s := match x.shadow with
      | .none => s
      | .original id => screenDone s x.launch id false (if failed.isSome then none else some (x.sigdSum, x.hashSum))
      | .shadow id => screenDone s x.launch id true (if failed.isSome then none else some (x.sigdSum, x.hashSum))
    let isShadow := match x.shadow with | .shadow _ => true | _ => false
    if isShadow || !count then s else unitEnded s x.launch failed

def blockWarps (co : Core) (b : Nat) : List Nat := (co.warps.filter fun (_, w) => w.block == b).map (·.1)

/-- Memory results outstanding for a warp: operations, SREAD .wait and MSYNC results (R32). -/
def memOut (co : Core) (w : Nat) (wp : Warp) : Nat :=
  (co.ops.filter fun o => o.warp == w && !o.store).length + wp.shapeWaits.length + wp.msyncs.length

/-- A warp whose paths and stack are empty and whose results have returned ends (R163). -/
def endWarp (s : State) (core w : Nat) : State :=
  match tget (coreOf s core).warps w with
  | none => s
  | some x =>
    if warpOver x && x.heldTrap.isNone && memOut (coreOf s core) w x == 0 then
      let s := freeWarp s core w
      match tget (coreOf s core).blocks x.block with
      | none => s
      | some b =>
        if (blockWarps (coreOf s core) x.block).isEmpty then
          (if b.prov then
             -- an ended provisional block keeps its place until the shape resolves (R401)
             modBlock s core x.block fun b => { b with ended := true }
           else endBlock s core x.block none true)
        else s
    else s

/-- All warps of a block stop and the block fails (R177). -/
def failBlock (s : State) (core b : Nat) (entry : List Byte) : State :=
  let s := (blockWarps (coreOf s core) b).foldl (fun s w =>
    freeWarp (modCore s core fun co => { co with ops := co.ops.filter (·.warp != w) }) core w) s
  endBlock (modBlock s core b fun x => { x with failed := true }) core b (some entry) true

/-- A block is killed at trim: neither done nor failed (R401). -/
def killBlock (s : State) (core b : Nat) : State :=
  let s := (blockWarps (coreOf s core) b).foldl (fun s w =>
    freeWarp (modCore s core fun co => { co with ops := co.ops.filter (·.warp != w) }) core w) s
  endBlock s core b none false

end Sys2Proof.Machine
end

