-- ==== Sys2Proof/Machine/Ops.lean ====
section
/-! DEFINITION. Machine/Ops.lean: the shared operations of a word: who issues, the store units of a core, counts of
outstanding results, traps and the return from one (R176-R179), and the frame of every word's meaning. -/

namespace Sys2Proof.Machine

/-! The issuing path. -/

/-- The issuing path, its warp and core as they stand, and the words of its issue unit. -/
structure Here where
  core : Nat
  w : Nat
  sl : Slot
  co : Core
  wp : Warp
  ws : List W64

def Here.p (x : Here) : Path := pathOf x.wp x.sl

/-- PRED of a unit's instruction word (R39). -/
def predOf (ws : List W64) : BitVec 3 := bits (unitWord ws) 52 3

/-- The execution set (R42). -/
def Here.exec (x : Here) : W32 := execOf x.wp x.sl (predOf x.ws)

/-- The current path, if it is live. -/
def here (s : State) (ws : List W64) : Option Here :=
  match s.cur with
  | none => none
  | some (c, w, sl) =>
    match tget (coreOf s c).warps w with
    | none => none
    | some wp =>
      if (pathOf wp sl).st == .live then some { core := c, w := w, sl := sl, co := coreOf s c, wp := wp, ws := ws }
      else none

def setWarp (s : State) (c w : Nat) (x : Warp) : State := modWarp s c w fun _ => x

def Here.block (x : Here) : Block := (tget x.co.blocks x.wp.block).getD {}
def Here.ctx (x : Here) : Nat := x.co.ctx.getD 0
/-- The block is provisional and its launch is not resolved (R398). -/
def Here.prov (x : Here) : Bool := x.block.prov
/-- Launch and block index of a provisional access. -/
def Here.tag (x : Here) : Option (Nat × Nat) := if x.prov then some (x.block.launch, x.block.linear) else none
/-- Global warp id (R121). -/
def Here.gid (x : Here) : Nat := 1 + 64 * x.core + x.w

/-- The word completes with the warp as given (R35, R171). -/
def retire (s : State) (x : Here) (wp : Warp) : State := setWarp s x.core x.w (retireW wp x.sl x.ws)

/-- The word completes; the warp is read from the state. -/
def retireNow (s : State) (x : Here) : State := modWarp s x.core x.w fun w => retireW w x.sl x.ws

/-- The path goes on waiting at its word, outside the active set (R146). -/
def waitAt (s : State) (x : Here) (k : Wait) : State :=
  modWarp s x.core x.w fun w =>
    { modPath w x.sl fun p => { p with wait := k, unsig := !oneSlot w } with active := false }

/-! Counts (R32, R54, R168). -/

/-- Copy tokens not yet written. -/
def tokOut (s : State) (core w : Nat) : Nat :=
  s.copies.foldl (fun n (_, c) =>
    n + (c.slices.filter fun x => x.core == core && x.warp == w && x.tok.isSome && !x.orphan).length) 0

/-- Engine pushes not yet accepted: those that stand at their words; any other is accepted when it issues (R32, R284,
R298). -/
def engOut (wp : Warp) : Nat := (if wp.a.push then 1 else 0) + (if wp.b.push then 1 else 0)

/-- Nothing is outstanding for the warp (R54). -/
def quiet (s : State) (core w : Nat) (wp : Warp) : Bool :=
  memOut (coreOf s core) w wp == 0 && tokOut s core w == 0 && engOut wp == 0

/-- The word waits at issue for its engine or queue to accept it: it counts as a push until then (R32). -/
def pushWait (s : State) (x : Here) : State :=
  modWarp s x.core x.w fun w => modPath w x.sl fun p => { p with push := true }

/-! Choice of the issuing path (R37, R143-R146). -/

/-- A path in the midst of a clause holds its pipe (R37); one that waits for an answer holds it when its word is not the
last of the clause (R423). -/
def holdsPipe (p : Path) : Bool :=
  p.st == .live && !p.susp &&
  (if p.wait == .answer then p.words.length > max 1 (unitLen p.words)
   else p.wait == .none && !p.words.isEmpty && !p.first)

/-- A path can issue, as far as its own state says: live, not waiting, not parked, its clause's waits met. -/
def canIssue (s : State) (core w : Nat) (wp : Warp) (sl : Slot) : Bool :=
  let co := coreOf s core
  let p := pathOf wp sl
  p.st == .live && p.wait == .none && !p.susp && wp.heldTrap.isNone && co.ctx.isSome && !co.stopped && !p.parked &&
  (match p.limits with
   | none => true
   | some (m, e) =>
     p.words.isEmpty || ((m ≥ 31 || memOut co w wp ≤ m) && (e ≥ 15 || engOut wp ≤ e)))

/-- The next word of a path names a pending register (R147). -/
def scoreStall (co : Core) (wp : Warp) (p : Path) : Bool :=
  !p.words.isEmpty && !wp.pend.isEmpty &&
  (match decode p.words with
   | .ok (i, _) => (regsOf co.memdef i).any fun r => wp.pend.contains r
   | .error _ => false)

/-- A path between clauses is ready: it can issue its next word, as far as the scoreboard and its last try say (R145,
log 97). -/
def pathReady (s : State) (core w : Nat) (wp : Warp) (sl : Slot) : Bool :=
  canIssue s core w wp sl && !(pathOf wp sl).tried && !scoreStall (coreOf s core) wp (pathOf wp sl)

/-- A warp is ready when one of its paths is, but for the choice that follows its YIELD (R145, R170). -/
def warpReady (s : State) (core w : Nat) (wp : Warp) : Bool :=
  !wp.yielded && (pathReady s core w wp .a || pathReady s core w wp .b)

/-- The oldest of some warps. -/
def oldestOf (ws : Tab Warp) : Option Nat := ((sortBy (fun (p : Nat × Warp) => p.2.age) ws).head?).map (·.1)

/-- The warp that a pipe chooses: of its ready active warps the oldest that has been passed over 64 times, else the
oldest (R145). -/
def chosen (s : State) (core pipe : Nat) : Option Nat :=
  let ready := (coreOf s core).warps.filter fun (v, x) => x.pipe == pipe && x.active && warpReady s core v x
  let late := ready.filter fun (_, x) => x.passed ≥ 64
  oldestOf (if late.isEmpty then ready else late)

/-- The path has its pipe's slot: within a clause no other path issues (R37); else its warp is the one that the pipe
chooses, and of two ready paths the one that did not issue the last clause goes first (R143, R145). -/
def mayIssue (s : State) (core w : Nat) (sl : Slot) : Bool :=
  let co := coreOf s core
  match tget co.warps w with
  | none => false
  | some wp =>
    if co.warps.any fun (_, x) => x.pipe == wp.pipe && (holdsPipe x.a || holdsPipe x.b) then
      holdsPipe (pathOf wp sl) && canIssue s core w wp sl
    else
      pathReady s core w wp sl && chosen s core wp.pipe == some w &&
      (wp.last != sl || !pathReady s core w wp (otherSlot sl))

/-- The path takes its pipe's slot. -/
def takeTurn (s : State) (core w : Nat) (sl : Slot) : State := { s with cur := some (core, w, sl) }

/-- After a turn of a path, from s to t: a word that stalled is not tried again in this base clock; when the first word
of a clause has issued, the ready warps of the pipe have been passed over once more, those outside the active set when
it is full (R143, R145, R146). -/
def noteTurn (s t : State) (core w : Nat) (sl : Slot) : State :=
  match tget (coreOf s core).warps w, tget (coreOf t core).warps w with
  | some x, some y =>
    let p := pathOf x sl
    let q := pathOf y sl
    if q == { p with push := q.push } then setWarp t core w (setPath y sl { q with tried := true })
    else if !p.first then t
    else
      let full := ((coreOf s core).warps.filter fun (_, z) => z.pipe == x.pipe && z.active).length ≥ 4
      let behind (v : Nat) : Bool :=
        match tget (coreOf s core).warps v with
        | some z => z.pipe == x.pipe && (z.active || full) && warpReady s core v z
        | none => false
      modCore t core fun co => { co with warps := co.warps.map fun (v, z) =>
        if v == w then (v, { z with passed := 0, last := sl })
        else if z.pipe == x.pipe then (v, { z with passed := if behind v then z.passed + 1 else z.passed, yielded := false })
        else (v, z) }
  | _, _ => t

/-- Arithmetic time since which a path between clauses stalls on the scoreboard (R146). -/
def stallSince (s : State) (co : Core) (w : Warp) (p : Path) : Option Nat :=
  if p.st == .live && p.wait == .none && !p.susp && p.first && scoreStall co w p then some (p.since.getD s.arith) else none

/-- Paths whose results have all returned are no longer parked (R54), and stalls are timed (R146). -/
def refreshWarp (s : State) (core w : Nat) (x : Warp) : Warp :=
  let free := (x.a.parked || x.b.parked) && quiet s core w x
  let path (p : Path) : Path :=
    { p with parked := p.parked && !free, since := stallSince s (coreOf s core) x p }
  { x with a := path x.a, b := path x.b }

/-- A warp that has stalled between clauses for more than 32 arithmetic cycles, with no path that can go on (R146). -/
def mustLeave (s : State) (core w : Nat) (x : Warp) : Bool :=
  let long (p : Path) : Bool := match p.since with | some t => s.arith > t + 32 * 1600 | none => false
  x.active && (long x.a || long x.b) && !holdsPipe x.a && !holdsPipe x.b && !warpReady s core w x

/-- While a pipe's active set has a place, the oldest ready warp outside it enters (R146). -/
def fillSet (s : State) (core pipe : Nat) : State :=
  foldN 4 (fun _ s =>
    let ws := (coreOf s core).warps.filter fun (_, x) => x.pipe == pipe
    if (ws.filter fun (_, x) => x.active).length ≥ 4 then s
    else match oldestOf (ws.filter fun (v, x) => !x.active && warpReady s core v x) with
      | some v => modWarp s core v fun x => { x with active := true }
      | none => s) s

/-- The active sets of a core as R146 has them. -/
def activeSets (s : State) (core : Nat) : State :=
  let s := modCore s core fun co => { co with warps := co.warps.map fun (w, x) => (w, refreshWarp s core w x) }
  let s := modCore s core fun co => { co with warps := co.warps.map fun (w, x) =>
    (w, if mustLeave s core w x then { x with active := false } else x) }
  foldN 4 (fun p s => fillSet s core p) s

/-! The direct region (R131-R133): units of 512 bytes. -/

def storeUnits (co : Core) : Nat := (16 - 2 ^ co.l1ways.toNat) * 64

/-- Spans in use: granules, stack units, scratch. -/
def usedSpans (co : Core) : List (Nat × Nat) :=
  (co.warps.flatMap fun (_, w) => (w.stackUnit, 1) :: w.granules.map fun g => (2 * g, 2)) ++
  co.blocks.map fun (_, b) => (8 * b.scratchBase, 8 * b.scratchGran)

def spanFree (used : List (Nat × Nat)) (a n : Nat) : Bool := !used.any fun (b, m) => overlaps a n b m

/-- Free register granules, as store offsets in KiB. -/
def freeGranules (co : Core) : List Nat :=
  let used := usedSpans co
  (List.range (storeUnits co / 2)).filter fun g => spanFree used (2 * g) 2

/-- A free stack unit; the highest, so that units of 512 bytes do not break up granules. -/
def freeStack (co : Core) (taken : List (Nat × Nat)) : Option Nat :=
  let used := usedSpans co ++ taken
  (List.range (storeUnits co)).reverse.find? fun u => spanFree used u 1

/-- A place for n contiguous scratch granules. -/
def freeScratch (co : Core) (n : Nat) : Option Nat :=
  if n = 0 then some 0
  else
    let used := usedSpans co
    (List.range (storeUnits co / 8 + 1 - n)).find? fun b => spanFree used (8 * b) (8 * n)

/-! REGGROW (R165, R166). -/

/-- End a pending request. -/
def endGrow (s : State) (core w : Nat) (got : Option (List Nat)) : State :=
  match tget (coreOf s core).warps w with
  | none => s
  | some wp =>
    match wp.grow with
    | none => s
    | some (_, m, ex, sl, _) =>
      let wp := { wp with grow := none, granules := wp.granules ++ got.getD [],
                          pend := sdel wp.pend (512 + m) }
      let wp := mset wp m (if got.isSome then ex else 0)
      setWarp s core w (retireW wp sl (unitAt (pathOf wp sl)))

/-- The oldest pending request that the pool can meet is granted (R165). -/
def grantOne (s : State) (core : Nat) : State :=
  let co := coreOf s core
  let pool := freeGranules co
  let cands := co.warps.filterMap fun (w, x) => x.grow.map fun g => (w, g.1, g.2.2.2.2)
  let ok := cands.filter fun c => c.2.1 ≤ pool.length
  match ok.foldl (fun (b : Option (Nat × Nat × Nat)) c =>
      match b with | none => some c | some d => if c.2.2 < d.2.2 then some c else some d) none with
  | none => s
  | some (w, n, _) => endGrow s core w (some (pool.take n))

/-- The crew of a path whose message says that its warp waits for a phase it has arrived in (R250, R423). -/
def arrivedPost (s : State) (core : Nat) (w : Nat × Warp) (sl : Slot) : Option Nat :=
  ((s.bunits.flatMap fun u => u.2.inbox).find? fun p =>
    p.core == core && p.warp == w.1 && p.slot == sl &&
    (match crewOf s p.handle, crewNext w.2 p.handle with
     | some c, some (next, _) => next != c.phase
     | _, _ => false)).map (·.handle)

/-- A slot's state counts towards a blocked warp: 2 for a REGGROW or such a barrier wait, 1 for a held path (R166). -/
def slotBlocked (s : State) (core : Nat) (w : Nat × Warp) (sl : Slot) : Nat :=
  let p := pathOf w.2 sl
  match p.st with
  | .empty => 1
  | .held => 1
  | .live =>
    let asks (h : Nat) : Bool := (coreOf s core).warps.any fun (_, v) => isMember v h && v.grow.isSome
    match p.wait with
    | .grow => 2
    | .crew h _ _ _ => if asks h then 2 else 0
    | .answer => match arrivedPost s core w sl with
      | some h => if asks h then 2 else 0
      | none => 0
    | _ => 0

/-- A blocked warp (R166).  A warp that only waits for results, with nothing left to run, is not one, and so it holds a
mass failure off until it ends: the manual does not say (DESIGN CHOICE, log 105). -/
def warpBlocked (s : State) (core : Nat) (w : Nat × Warp) : Bool :=
  let a := slotBlocked s core w .a
  let b := slotBlocked s core w .b
  a != 0 && b != 0 && (a == 2 || b == 2)

/-- Every pending REGGROW of a core fails when every warp is blocked and the pool is short (R166). -/
def massFail (s : State) (core : Nat) : State :=
  let co := coreOf s core
  let asks := co.warps.filterMap fun (w, x) => x.grow.map fun g => (w, g.1)
  if asks.isEmpty || !co.warps.all fun w => warpBlocked s core w then s
  else
    let pool := (freeGranules co).length
    if asks.any fun a => a.2 ≤ pool then s
    else
      let s := asks.foldl (fun s a => endGrow s core a.1 none) s
      modCore s core fun co => { co with growFail := co.growFail + 1 }

/-! Traps (R176-R179). -/

/-- WARPID (R130). -/
def warpId (core w : Nat) (wp : Warp) : W32 := BitVec.ofNat 32 (core * 2 ^ 16 + wp.index * 2 ^ 8 + w)

def classCode : FClass → Nat
  | .undef => 0 | .misalign => 1 | .xlate => 2 | .prot => 3 | .scrbnd => 4 | .tdesc => 5 | .scale => 6
  | .poison => 7 | .sigfail => 8 | .queue => 9 | .crew => 10 | .window => 11 | .seal => 12 | .diverge => 13
  | .timeout => 14 | .version => 15

/-- The driver's route: class XLATE, or BRK (R177). -/
def trapDriver (t : Trap) : Bool := t.kind == 2 || (t.kind == 0 && t.cls == .xlate)

def slotBit : Slot → Nat | .a => 0 | .b => 1

/-- RPC as the frame and the save area hold it; all ones is NONE. -/
def rpcBits (r : Option W64) : Nat := match r with | some x => x.toNat | none => 2 ^ 64 - 1

/-- The 64-byte frame (R176). -/
def frameBytes (core w : Nat) (wp : Warp) (b : Block) (sl : Slot) (t : Trap) : List Byte :=
  let p := pathOf wp sl
  let flags := slotBit sl + (if t.fetch then 2 else 0) + (if t.kind == 0 && t.cls == .xlate then 4 else 0) +
    (if wp.handler.isSome then 8 else 0)
  let clause := if t.fetch then 0 else p.cls.toNat + 4 * (p.remain - 1)
  leBytes 8 p.pc.toNat ++ leBytes 8 t.word.toNat ++ leBytes 8 t.sector.toNat ++ leBytes 4 t.lanes.toNat ++
  leBytes 4 p.mask.toNat ++ leBytes 8 (rpcBits p.rpc) ++ leBytes 4 b.bx.toNat ++ leBytes 4 b.byy.toNat ++
  leBytes 4 b.bz.toNat ++ leBytes 4 (warpId core w wp).toNat ++
  leBytes 1 (if t.kind == 0 then classCode t.cls else 0) ++ leBytes 1 t.kind.toNat ++ leBytes 1 flags ++
  leBytes 1 clause ++ leBytes 4 t.detail.toNat

/-- A field of a context's descriptor. -/
def descField (s : State) (ctx off n : Nat) : Nat := leNat (peekBytes s ((ctxOf s ctx).desc + off) n)

/-- The virtual address of a frame (R176). -/
def frameVa (s : State) (ctx core w route : Nat) : Nat :=
  descField s ctx 0x10 8 + 128 * (48 * core + w) + 64 * route

/-- Suspend a slot that is not empty (R178). -/
def suspend (w : Warp) (sl : Slot) : Warp :=
  modPath w sl fun p => if p.st == .empty then p else { p with susp := true }

/-- The slot enters its handler at TRAPVEC (R178). -/
def enterHandler (w : Warp) (sl : Slot) (vec frame : W64) : Warp :=
  let w := { w with handler := some (sl, w.stack.length), handlerFrame := frame, heldTrap := none }
  let p := pathOf w sl
  let p := { p with pc := vec, rpc := none, words := [], remain := 0, first := false, limits := none,
                    parked := false, wait := .none, via := 0, susp := false, unsig := false, tried := false, push := false }
  suspend (setPath w sl p) (otherSlot sl)

/-- The path waits for the driver, with its frame's address (R177). -/
def waitDriver (w : Warp) (sl : Slot) (frame : W64) : Warp :=
  let w := { w with heldTrap := none, active := false }
  suspend (modPath w sl fun p => { p with wait := .driver frame }) (otherSlot sl)

/-- Registers that a waiting slot's own word will write: they do not hold a trap back (R178). -/
def waitRegs (co : Core) (w : Nat) (wp : Warp) : List Nat :=
  (co.ops.filter (·.warp == w)).flatMap (fun o =>
    match o.dest with | .mwait r n m => destRegs (.mwait r n m) | _ => []) ++
  (match wp.grow with | some (_, m, _) => [512 + m] | none => [])

def isMwait (o : MemOp) : Bool := match o.dest with | .mwait .. => true | _ => false

/-- Older writes of the warp have landed (R147, R177). -/
def landed (co : Core) (w : Nat) (wp : Warp) : Bool :=
  let skip := waitRegs co w wp
  !(co.ops.any fun o => o.warp == w && !isMwait o && !o.store) && wp.pend.all fun r => skip.contains r

/-- A frame as a write of the device: 64 bytes of one line. -/
def frameWrite (s : State) (part : Nat) (leaf : W64) (pa : Nat) (bytes : List Byte) : UnitWrite :=
  { line := pa / 128, home := leafHome s part leaf (pa / 128), data := fieldLine (pa % 128) 64 (leNat bytes),
    mask := fieldMask (pa % 128) 64 }

/-- Deliver a trap: write the frame and route it, once older writes have landed and the block is certain
(R177, R399).  A trap of a shadow block writes no frame and ends the block: R422 says only that the shadow ends early
at a trap (DESIGN CHOICE, log 107).  A frame that no home takes is not written (log 120). -/
def deliverTrap (s : State) (core w : Nat) : State :=
  let co := coreOf s core
  match tget co.warps w with
  | none => s
  | some wp =>
    match wp.heldTrap with
    | none => s
    | some (sl, t) =>
      let b := (tget co.blocks wp.block).getD {}
      if !landed co w wp || b.prov then s
      else if (match b.shadow with | .shadow _ => true | _ => false) then failBlock s core wp.block []
      else
        let ctx := co.ctx.getD 0
        let part := (ctxOf s ctx).part
        let drv := trapDriver t
        let va := frameVa s ctx core w (if drv then 1 else 0)
        let bytes := frameBytes core w wp b sl t
        let route (s : State) (pa : Option Nat) : State :=
          let s := modWarp s core w fun x => { x with trapframe := BitVec.ofNat 64 va }
          if drv then notice (modWarp s core w fun x => waitDriver x sl (BitVec.ofNat 64 va)) part (BitVec.ofNat 64 va)
          else if co.trapvec != 0 && wp.handler.isNone then
            let s := modWarp s core w fun x => enterHandler x sl co.trapvec (BitVec.ofNat 64 va)
            match pa with
            | some a => modCore s core fun co => l1DropLine co (a / 128)
            | none => s
          else failBlock s core wp.block bytes
        match walk s ctx va with
        | .busy line => wantLine s part line false
        | .bad => route s none
        | .ok leaf level =>
          if !leaf.getLsbD 3 then route s none
          else match unitWrites s part (deviceWho 1 (64 * core + w)) [frameWrite s part leaf (leafPa leaf level va) bytes] with
            | .wait s => s
            | .prot s => route s none
            | .go s => route s (some (leafPa leaf level va))

/-- What follows of itself on a core: traps are delivered, warps and blocks end, hopeless requests fail. -/
def calm (s : State) (core : Nat) : State :=
  let s := (tkeys (coreOf s core).warps).foldl (fun s w => endWarp (deliverTrap s core w) core w) s
  activeSets (massFail (sweepBlocks s core) core) core

/-- The same on every core; a saved core's state rests. -/
def calmAll (s : State) : State := ((tkeys s.cores).filter (· < 1024)).foldl calm s

/-- Take a trap: nothing younger issues; the frame and the route follow (R177). -/
def takeTrap (s : State) (x : Here) (t : Trap) : State :=
  calm (modWarp s x.core x.w fun w => trapWarp w x.sl t) x.core

/-- A fault of the issuing word (R7, R176). -/
def fault (s : State) (x : Here) (cls : FClass) (lanes : W32) (sector : Nat := 0) (detail : W32 := 0) : State :=
  takeTrap s x { cls := cls, word := unitWord x.ws, sector := BitVec.ofNat 64 sector, lanes := lanes,
                 detail := detail }

/-- A fault that concerns no particular lane. -/
def faultAll (s : State) (x : Here) (cls : FClass) (sector : Nat := 0) (detail : W32 := 0) : State :=
  fault s x cls x.exec sector detail

/-- POISONAT.SECTOR as a frame's sector address (R220). -/
def poisonSector (w : Warp) : Nat := w.poisonat.toNat / 32 * 32

/-! Returning from a trap (R179). -/

/-- A path at a word of a clause, or at a header: what TRET, replay and restore resume. -/
def resumeAt (p : Path) (pc : W64) (mask : W32) (rpc : Option W64) (cls : BitVec 2) (remain : Nat) : Path :=
  { p with st := .live, pc := pc, mask := mask, rpc := rpc, cls := cls, remain := remain, words := [],
           first := false, limits := none, parked := false, wait := .none, via := 0, unsig := false, tried := false,
           push := false }

/-- No slot is suspended any more. -/
def unsuspend (w : Warp) : Warp := { w with a := { w.a with susp := false }, b := { w.b with susp := false } }

/-- No slot is suspended any more; the one that was arrives if its wait has brought it to its RPC (R139, R178). -/
def resumed (w : Warp) (sl : Slot) : Warp := arrive (unsuspend w) sl

/-- The handler is over: no slot is suspended by it.  What it leaves in its slot comes first; then the slot that was
suspended arrives if its wait has brought it to its RPC (R178, R179). -/
def leaveHandler (w : Warp) : Warp := unsuspend { w with handler := none }

/-- The driver's wait is over; another slot suspended by it resumes, unless the warp is in its handler (R177). -/
def leaveDriver (w : Warp) (sl : Slot) : Warp :=
  let w := modPath w sl fun p => { p with wait := .none }
  if w.handler.isSome then w else resumed w (otherSlot sl)

/-- RPC from its 64-bit form. -/
def rpcOf (n : Nat) : Option W64 := if n = 2 ^ 64 - 1 then none else some (BitVec.ofNat 64 n)

/-- Restore a slot from frame bytes, past `skip` words of its clause under .next (R179).  `count` is COUNT of the
header at the frame PC when the trap was detected at fetch.  Bits of a rewritten frame that R176 reserves (FLAGS[7:4],
CLAUSE[7:6]) are ignored: the manual states no fault for them at TRET (DESIGN CHOICE, log 108). -/
def restoreFrame (w : Warp) (sl : Slot) (f : List Byte) (skip : Nat) (count : Nat) : Warp :=
  let at' (off n : Nat) := leNat ((f.drop off).take n)
  let pc := at' 0 8
  let mask : W32 := BitVec.ofNat 32 (at' 0x1C 4) &&& ~~~ w.exited
  let rpc := rpcOf (at' 0x20 8)
  let fetch := at' 0x3A 1 / 2 % 2 = 1
  let clause := at' 0x3B 1
  let left := clause / 4 % 16 + 1
  let p := pathOf w sl
  let p :=
    if fetch then resumeAt p (BitVec.ofNat 64 (if skip = 0 then pc else pc + 8 * (count + 2))) mask rpc 0 0
    else resumeAt p (BitVec.ofNat 64 (pc + 8 * skip)) mask rpc (BitVec.ofNat 2 clause) (left - skip)
  if mask = 0 then slotEmptied w sl
  else arrive (setPath w sl p) sl

/-! The frame of a word's meaning. -/

/-- A word's meaning: nothing without a current path; UNDEF for fields or modifiers (R36), then PROT for a register
beyond the window (R40); a stall while a named register is pending (R147); else its effect. -/
def word (i : Instr) (s : State) (f : State → Here → State) (undef : Here → Bool := fun _ => false) :
    Host.Outcome State Fault Refusal :=
  match here s (encode i) with
  | none => .next s
  | some x =>
    if !i.wf || undef x then .next (faultAll s x .undef)
    else
      let rs := regsOf x.co.memdef i
      if rs.any fun r => r < 256 && r ≥ 8 * x.wp.granules.length then .next (faultAll s x .prot)
      else if rs.any fun r => x.wp.pend.contains r then .next s
      else .next (f s x)

/-- The frame of an event's meaning: nothing when what it names does not exist (R10-R15). -/
def eventIf (ok : Bool) (s : State) (f : State → State) : Host.Outcome State Fault Refusal :=
  if ok then .next (f s) else .next s

/-- The same for an event given as an instruction. -/
def event (i : Instr) (s : State) (f : State → State) : Host.Outcome State Fault Refusal := eventIf i.wf s f

end Sys2Proof.Machine
end

