-- ==== Sys2Proof/Machine/Access.lean ====
section
/-! DEFINITION. Machine/Access.lean: how a word reaches memory: addresses (R45), the stages of R219, translation (R221),
the local spaces (R218), the core's write-combining buffer, L1 and port (R19, R21, R98, R224), and what an ordering
waits for (R94-R99). -/

namespace Sys2Proof.Machine

/-! Translation through the TLBs (R221, R362). -/

def tlbFind (es : List TlbE) (ctx va : Nat) : Option TlbE :=
  es.find? fun e => e.ctx == ctx && e.va / 2 ^ pageBits e.level == va / 2 ^ pageBits e.level

/-- Translate for a core: its TLB, the cluster's, then a walk, which both keep. -/
def xlate (s : State) (core ctx va : Nat) : State × Xl :=
  let own (e : TlbE) : Xl := .ok (ownLeaf s (ctxOf s ctx).part e.leaf e.level va) e.level
  match tlbFind (coreOf s core).tlb ctx va with
  | some e => (s, own e)
  | none =>
    match tlbFind (tgetD s.clusterTlb (clusterOf core) []) ctx va with
    | some e => (modCore s core fun co => { co with tlb := e :: co.tlb }, own e)
    | none =>
      match walkLeaf s ctx va with
      | .ok leaf level =>
        let e : TlbE := { ctx := ctx, va := va, level := level, leaf := leaf }
        let s := modCore s core fun co => { co with tlb := e :: co.tlb }
        let k := clusterOf core
        ({ s with clusterTlb := tins s.clusterTlb k (e :: tgetD s.clusterTlb k []) }, own e)
      | r => (s, r)

/-! Addresses (R45). -/

/-- The base of an address: a pair for global and constant space. -/
def baseVal (w : Warp) (b : BitVec 8) (pair : Bool) : Nat :=
  if b = 0xFF then 0 else if pair then (sget64 w b.toNat).toNat else (sget w b.toNat).toNat

def pairBase (sp : Space) : Bool := sp == .global || sp == .const

/-- The effective address of a lane. -/
def laneAddr (w : Warp) (m : Mem) (sp : Space) (l : Nat) : Nat :=
  let i := if m.index = 0xFF then 0 else (vget w m.index.toNat l).toNat
  wrapN 64 ((baseVal w m.base (pairBase sp) : Int) + i + m.off.toInt)

/-- The address of a word whose space is always global. -/
def objAddr (w : Warp) (m : Mem) : Nat := laneAddr w { m with index := 0xFF } .global 0

/-! Global lanes and their checks (R219, R220). -/

/-- A lane of a global access after translation. -/
structure GLane where
  lane : Nat
  va : Nat
  pa : Nat
  home : Nat
  leaf : W64

def GLane.line (g : GLane) : Nat := g.pa / 128

/-- The outcome of the checks. -/
inductive Chk (α : Type)
  | ok (a : α)
  /-- A class, the failing lanes, and the sector-address field. -/
  | trap (cls : FClass) (lanes : W32) (sector : Nat)
  /-- A page-table line is with another agent: the word waits. -/
  | busy
  /-- The word waits for these lines at their homes. -/
  | wait (ls : List GLane) (own : Bool)

/-- The trap for the failing lanes of a stage (R220). -/
def failLanes {α : Type} (cls : FClass) (exec : W32) (scalar : Bool) (bad : List (Nat × Nat)) : Chk α :=
  .trap cls (if scalar then exec else lanesWhere 0xFFFFFFFF fun l => bad.any fun b => b.1 == l)
    (bad.foldl (fun a b => min a b.2) (2 ^ 64 - 1))

/-- The conditions of R244 in their order: a window of another partition, an atomic in a T6PACK window, the seal state
with the SWIN attribute (R361). -/
def ownerBad (s : State) (part : Nat) (pa : Nat) : Bool :=
  match windowAt s pa with
  | some (_, w) => winPart w != part
  | none => false

def formatBad (s : State) (pa : Nat) (atomic : Bool) : Bool :=
  match windowAt s pa with
  | some (_, w) => atomic && winFormat w == 1
  | none => false

def sealBad (s : State) (part pa : Nat) (leaf : W64) : Bool :=
  match windowAt s pa with
  | some (_, w) => winSealOf w == 1 || (leaf.getLsbD 52 && !(winSealOf w == 2 && winPart w == part))
  | none => leaf.getLsbD 52

/-- The detector's setting for an access: a binding's flags, else the page's attribute under the context's setting
(R120, R122).  Of several that cover a sector, the first race-flagged binding counts: the model's choice (log 99). -/
def raceOf (s : State) (ctx gid : Nat) (pc : W64) (va : Nat) (leaf : W64) (scope : Nat) : Option Race :=
  let c := ctxOf s ctx
  let b := c.bindings.find? fun b => b.race && b.base ≤ va && va < b.base + 128 * b.lines
  match b with
  | some b =>
    some { gid := gid, epoch := (tgetD c.objEpochs b.obj 0).toNat, trap := b.trap, pc := pc, ctx := ctx, scope := scope }
  | none =>
    let f := descField s ctx 0x34 4
    if leaf.getLsbD 53 && f % 2 = 1 then
      some { gid := gid, epoch := c.epoch.toNat, trap := f / 2 % 2 = 1, pc := pc, ctx := ctx, scope := scope }
    else none

/-- Scope as a shadow word records it (R121); an acquire alone orders no write, and records 0: the model's choice
(log 100). -/
def raceScope (ord : Ord) (sc : Scope) : Nat :=
  match ord with
  | .rel | .acqrel => (match sc with | .die => 2 | .pkg | .sys => 3 | _ => 1)
  | _ => 0

/-- What an access needs of its page. -/
structure Need where
  r : Bool := false
  w : Bool := false
  atomic : Bool := false

def Need.ok (n : Need) (leaf : W64) : Bool := (!n.r || leaf.getLsbD 2) && (!n.w || leaf.getLsbD 3)

/-- Translate every lane in turn. -/
def xlateLanes (s : State) (core ctx : Nat) : List (Nat × Nat) → State × List (Nat × Nat × Xl)
  | [] => (s, [])
  | (l, a) :: t =>
    let (s, r) := xlate s core ctx a
    let (s, rs) := xlateLanes s core ctx t
    (s, (l, a, r) :: rs)

/-- Stages 4 to 7 of R219 for global lanes; the state carries what the TLBs have kept. -/
def checkGlobal (s : State) (core ctx : Nat) (exec : W32) (scalar : Bool) (need : Need) (addrs : List (Nat × Nat)) :
    State × Chk (List GLane) :=
  let part := (ctxOf s ctx).part
  let high := addrs.filter fun a => a.2 ≥ 2 ^ 48
  if !high.isEmpty then (s, failLanes .prot exec scalar high)
  else
    let (s, rs) := xlateLanes s core ctx addrs
    match rs.findSome? fun r => match r.2.2 with | .busy line => some line | _ => none with
    | some line => (wantLine s part line false, .busy)
    | none =>
      let badX := rs.filterMap fun r => match r.2.2 with | .ok .. => none | _ => some (r.1, r.2.1)
      if !badX.isEmpty then (s, failLanes .xlate exec scalar badX)
      else
        let ls : List GLane := rs.filterMap fun (l, a, r) =>
          match r with
          | .ok leaf level =>
            let pa := leafPa leaf level a
            some { lane := l, va := a, pa := pa, home := leafHome s part leaf (pa / 128), leaf := leaf }
          | _ => none
        let pick (p : GLane → Bool) := (ls.filter p).map fun g => (g.lane, g.va)
        let badP := pick fun g => !need.ok g.leaf || foreignLine s part g.line
        let badO := pick fun g => ownerBad s part g.pa
        let badF := pick fun g => formatBad s g.pa need.atomic
        let badS := pick fun g => sealBad s part g.pa g.leaf
        if !badP.isEmpty then (s, failLanes .prot exec scalar badP)
        else if !badO.isEmpty then (s, failLanes .window exec scalar badO)
        else if !badF.isEmpty then (s, failLanes .window exec scalar badF)
        else if !badS.isEmpty then (s, failLanes .seal exec scalar badS)
        else (s, .ok ls)

/-- The cache policy in force: the stronger of the word's and the page's (R362). -/
def polOf (c : Cache) (leaf : W64) : Nat :=
  let cp := leaf.toNat / 64 % 4
  let w := match c with | .norm => 0 | .stream => 1 | .noalloc => 2 | .lastuse => 3
  if cp = 0 then w else if w = 3 then cp else max w cp

/-- Lanes that the detector checks in trap mode, with what it checks them by: those of certain blocks, and of reads
those that fill into the L1; sectors that have no shadow word are not checked (R122, R124, R366). -/
def trapLanes (s : State) (x : Here) (mods : Mods) (reads : Bool) (bypass : Bool) (ls : List GLane) : List (GLane × Race) :=
  ls.filterMap fun g =>
    match raceOf s x.ctx x.gid x.p.pc g.va g.leaf (raceScope mods.ord mods.scope) with
    | some r =>
      let unseen := reads && ((!bypass && x.co.l1.any fun y => y.line == g.line) || polOf mods.cache g.leaf ≥ 2)
      if r.trap && !x.prov && !unseen && (shadowAt s g.pa).isSome then some (g, r) else none
    | none => none

/-- A line that its home can serve at once: no agent owns it, and no request to it is on its way. -/
def quickLine (s : State) (g : GLane) (own : Bool) : Bool :=
  usable s g.line own (some g.home) && !s.ports.any fun p => p.2.any fun r => r.line == g.line

/-- Stage 8: the detector in trap mode.  Its lines are held at their homes until every lane is checked and performed:
a word with such a lane waits until they can be served at once (R123, R219). -/
def checkRace (s : State) (x : Here) (mods : Mods) (reads : Bool) (bypass : Bool) (scalar : Bool) (ls : List GLane) :
    Chk (List GLane) :=
  let hot := trapLanes s x mods reads bypass ls
  let bad := (hot.filter fun p => (conflicts s p.2 p.1.pa).isSome).map (·.1)
  if hot.any fun p => !quickLine s p.1 (!reads) then .wait (hot.map (·.1)) (!reads)
  else if bad.isEmpty then .ok ls
  else
    let low := bad.foldl (fun a g => min a (g.va / 32 * 32)) (2 ^ 64)
    .trap .prot (if scalar then x.exec else lanesWhere 0xFFFFFFFF fun l => bad.any fun g => g.lane == l) (low + 1)

/-! Local spaces (R134, R218, R261). -/

/-- A byte of local storage. -/
inductive Loc
  | scr (core block off : Nat)
  | reg (core warp n off : Nat)
  | bank (col off : Nat)
  | tile (core off : Nat)
deriving DecidableEq, Repr

def Loc.at (x : Loc) (i : Nat) : Loc :=
  match x with
  | .scr c b o => .scr c b (o + i)
  | .reg c w n o => .reg c w n (o + i)
  | .bank c o => .bank c (o + i)
  | .tile c o => .tile c (o + i)

def bankKey (c o : Nat) : Nat := 262144 * c + o

def locByte (s : State) : Loc → Byte
  | .scr c b o => (match tget (coreOf s c).blocks b with | some x => tgetD x.scratch o 0 | none => 0)
  | .reg c w n o =>
    (match tget (coreOf s c).warps w with | some x => byteOf (vget x n (o / 4)) (o % 4) | none => 0)
  | .bank c o => tgetD s.banks (bankKey c o) 0
  | .tile c o => tgetD (coreOf s c).slots o 0

def locPoison (s : State) : Loc → Bool
  | .scr c b o => (match tget (coreOf s c).blocks b with | some x => smem x.scratchPoison (o / 4) | none => false)
  | .reg c w n o => (match tget (coreOf s c).warps w with | some x => vpois x n (o / 4) | none => false)
  | .bank c o => smem s.bankPoison (bankKey c o / 4)
  | .tile c o => smem (coreOf s c).slotPoison (o / 4)

def setByte (x : W32) (i : Nat) (b : Byte) : W32 :=
  (x &&& ~~~ (BitVec.ofNat 32 (255 * 256 ^ i))) ||| BitVec.ofNat 32 (b.toNat * 256 ^ i)

/-- Write a byte with the poison bit its lane word takes. -/
def locPut (s : State) (x : Loc) (b : Byte) (poison : Bool) : State :=
  match x with
  | .scr c bl o => modBlock s c bl fun y =>
      { y with scratch := tput 0 y.scratch o b, scratchPoison := sput y.scratchPoison (o / 4) poison }
  | .reg c w n o => modWarp s c w fun y => vset y n (o / 4) (setByte (vget y n (o / 4)) (o % 4) b) poison
  | .bank c o =>
    { s with banks := tput 0 s.banks (bankKey c o) b, bankPoison := sput s.bankPoison (bankKey c o / 4) poison }
  | .tile c o => modCore s c fun y =>
      { y with slots := tput 0 y.slots o b, slotPoison := sput y.slotPoison (o / 4) poison }

def locRead (s : State) (x : Loc) (n : Nat) : Nat := leNat ((List.range n).map fun i => locByte s (x.at i))
def locBad (s : State) (x : Loc) (n : Nat) : Bool := (List.range n).any fun i => locPoison s (x.at i)

/-- Whether a store of n bytes leaves a lane word poisoned: it covers the word in part (R242, R243). -/
def stays (s : State) (x : Loc) (n : Nat) (i : Nat) : Bool := n < 4 && locPoison s (x.at i)

def locWrite (s : State) (x : Loc) (n v : Nat) : State :=
  foldN n (fun i s => locPut s (x.at i) (BitVec.ofNat 8 (v / 256 ^ i)) (stays s x n i)) s

/-- The strips of a crust claim in scratch: offset and length (R236). -/
def recField (r : List Byte) (off n : Nat) : Nat := leNat ((r.drop off).take n)

def stripLen (r : List Byte) (face : Nat) : Nat :=
  let e (a : Nat) := if face / 2 = a then recField r 0x1D 1 else recField r (0x10 + 2 * a) 2
  e 0 * e 1 * e 2 * 2 ^ recField r 0x1C 1

def faceOn (r : List Byte) (face : Nat) : Bool := recField r 0x1E 1 / 2 ^ face % 2 = 1

def replicaLen (r : List Byte) : Nat :=
  (List.range 6).foldl (fun a f => if faceOn r f then a + stripLen r f else a) 0

/-- Whether n bytes of a block's scratch meet a crust replica (R114, R236). -/
def inReplica (b : Block) (off n : Nat) : Bool :=
  b.claims.any fun c => overlaps off n (recField c.record 0x20 4) (replicaLen c.record)

/-- Where a local address lies, or the class it fails with (R218). -/
def localAt (s : State) (x : Here) (sp : Space) (a n : Nat) (write : Bool) : Except FClass Loc :=
  let b := x.block
  match sp with
  | .scratch =>
    if a + n > 4096 * b.scratchGran || (write && inReplica b a n) then .error .prot
    else .ok (.scr x.core x.wp.block a)
  | .window =>
    let i := a / 32768
    match (x.co.warps.find? fun (_, y) => y.block == x.wp.block && y.index == i) with
    | none => .error .prot
    | some (w, y) =>
      let r := a % 32768 / 128
      if r ≥ 8 * y.granules.length then .error .prot else .ok (.reg x.core w r (a % 128))
  | .column =>
    if a + n > 16384 * b.colGran.length then .error .prot
    else .ok (.bank b.bankCol (16384 * (b.colGran.getD (a / 16384) 0) + a % 16384))
  | .cshared =>
    if a ≥ 2 ^ 24 then .error .prot
    else match b.share with
      | none => .error .crew
      | some (h, _) =>
        match (crewOf s h).bind fun c => c.maps.find? fun m => m.1 == a / 2 ^ 20 with
        | none => .error .crew
        | some (_, c, k) =>
          match tget (coreOf s c).blocks k with
          | none => .error .crew
          | some y =>
            if a % 2 ^ 20 + n > 4096 * y.scratchGran || (write && inReplica y (a % 2 ^ 20) n) then .error .prot
            else .ok (.scr c k (a % 2 ^ 20))
  | _ => .error .undef

def colOf (s : State) (pair pos : Nat) : Column := tgetD (tgetD s.pairs pair {}).cols pos {}

/-- Number of the bank of a logical column: the spare column of a pair has a bank of its own (R11, R342). -/
def bankNo (s : State) (pair pos : Nat) : Nat := 17 * pair + (if (colOf s pair pos).spare then 16 else pos)

/-- A bank's column migrates (R342). -/
def bankMoving (s : State) (bank : Nat) : Bool :=
  (List.range 16).any fun pos => bankNo s (bank / 17) pos == bank && (colOf s (bank / 17) pos).migrating

/-- A core reaches a bank over a frozen vertical bus (R338). -/
def busFrozen (s : State) (core bank : Nat) : Bool :=
  (List.range 16).any fun pos =>
    bankNo s (bank / 17) pos == bank && (colOf s (bank / 17) pos).frozen && pairOf core == bank / 17 && posOf core == pos

/-- The bank belongs to the core's own column, which reaches it over the vertical port (R334). -/
def ownBank (s : State) (core bank : Nat) : Bool := pairOf core == bank / 17 && bankNo s (pairOf core) (posOf core) == bank

/-- An access to a bank waits at its arbiter: over a frozen vertical bus, or at the horizontal port while its column
migrates (R338, R342). -/
def bankWaits (s : State) (core bank : Nat) : Bool :=
  (bankMoving s bank && !ownBank s core bank) || busFrozen s core bank

/-- Stage 4 for local lanes: every lane's place, or the trap of the failing ones. -/
def checkLocal (s : State) (x : Here) (sp : Space) (scalar write : Bool) (n : Nat) (addrs : List (Nat × Nat)) :
    Chk (List (Nat × Loc)) :=
  let rs := addrs.map fun (l, a) => (l, a, localAt s x sp a n write)
  let bads := rs.filterMap fun (l, a, r) => match r with | .error c => some (l, a, c) | .ok _ => none
  match bads with
  | [] =>
    if sp == .column && bankWaits s x.core x.block.bankCol then .busy
    else .ok (rs.filterMap fun (l, _, r) => match r with | .ok p => some (l, p) | .error _ => none)
  | (_, _, c) :: _ =>
    let c := if bads.any fun b => b.2.2 == .prot then FClass.prot else c
    failLanes c x.exec scalar ((bads.filter fun b => b.2.2 == c).map fun b => (b.1, b.2.1))

/-! Ordering (R94-R99). -/

/-- The scope in force: .crew is the narrowest unit that holds every crew mate (R95). -/
def effScope (s : State) (x : Here) (sc : Scope) : Scope :=
  match sc with
  | .crew =>
    let ms := crewMates s x.core x.wp
    if ms.all fun m => m.1 == x.core && m.2 == x.wp.block then .block
    else if ms.all fun m => chipletOf m.1 == chipletOf x.core then .die
    else .pkg
  | sc => sc

/-- Requests of a warp that are not yet performed, wherever they stand. -/
def ownReq (core w : Nat) (r : Req) : Bool := r.core == core && r.warp == w
def wcReqs (s : State) (core w : Nat) : List Req :=
  ((coreOf s core).wc.filter (·.warp == w)).map (·.req)
def portReqs (s : State) (core w : Nat) : List Req :=
  (tgetD s.ports (portOf core) []).filter (ownReq core w)
def homeReqs (s : State) (core w : Nat) : List Req :=
  s.slices.flatMap fun (_, sl) =>
    (sliceReqs sl).filter (ownReq core w)

def allReqs (s : State) (core w : Nat) : List Req := wcReqs s core w ++ portReqs s core w ++ homeReqs s core w

/-- No load, atomic or MWAIT of the warp is outstanding. -/
def loadsDone (co : Core) (w : Nat) : Bool := !(co.ops.any fun o => o.warp == w && !o.store)

/-- Every earlier store of the warp is performed at a scope (R94). -/
def storesDone (s : State) (core w : Nat) (sc : Scope) : Bool :=
  match sc with
  | .pkg | .sys => !(allReqs s core w).any writes
  | _ => (wcReqs s core w).isEmpty

/-- What a release at a scope waits for in the base layer (R96). -/
def releaseReady (s : State) (x : Here) (sc : Scope) : Bool :=
  loadsDone x.co x.w && storesDone s x.core x.w sc

/-- An acquire at this scope empties the L1 of global lines (R94). -/
def acqInvalidates (sc : Scope) : Bool := sc == .die || sc == .pkg || sc == .sys

/-- A space of the base layer (R22). -/
def baseLayer (sp : Space) : Bool := sp == .global || sp == .const

/-- Later accesses of the warp wait for .lhold, and in the base layer for an acquire (R50, R97). -/
def opHeld (x : Here) (base : Bool) : Bool := x.co.ops.any fun o => o.warp == x.w && (o.holds || (base && o.acq))

/-- Words that access memory wait for an outstanding SREAD .wait too (R174). -/
def memHeld (x : Here) (base : Bool) : Bool := !x.wp.shapeWaits.isEmpty || opHeld x base

/-- The context's epoch advances at a release at package or system scope (R122). -/
def advanceEpoch (s : State) (ctx : Nat) (sc : Scope) : State :=
  if sc == .pkg || sc == .sys then { s with contexts := tmod s.contexts ctx fun c => { c with epoch := c.epoch + 1 } }
  else s

/-! Requests (R19, R21). -/

/-- A request reaches its port buffer. -/
def toPort (s : State) (r : Req) : State :=
  let p := portOf r.core
  { s with ports := tins s.ports p (tgetD s.ports p [] ++ [{ r with seq := s.nextReq }]), nextReq := s.nextReq + 1 }

/-- A store leaves the write-combining buffer: L1 takes its bytes if it holds the line, the port takes it (R21, R224). -/
def accept (s : State) (core : Nat) (x : Wc) : State :=
  let s := match x.req.act with
    | .write d m _ =>
      if x.req.prov.isSome then s
      else modCore s core fun co => { co with l1 := co.l1.map fun y =>
        if y.line == x.req.line then { y with data := mergeLine y.data d m, poison := y.poison &&& ~~~ sectorsWhole m }
        else y }
    | _ => s
  toPort s x.req

/-- The oldest store of a core's buffer is accepted. -/
def acceptOne (s : State) (core : Nat) : State :=
  match (coreOf s core).wc with
  | [] => s
  | x :: t => accept (modCore s core fun co => { co with wc := t }) core x

/-- Stores of the buffer that meet a condition are accepted, oldest first. -/
def acceptIf (s : State) (core : Nat) (p : Wc → Bool) : State :=
  let all := (coreOf s core).wc
  let s := modCore s core fun co => { co with wc := all.filter fun x => !p x }
  (all.filter p).foldl (fun s x => accept s core x) s

/-- Groups of lanes on one line, in order of first lane. -/
def byLine (ls : List GLane) : List (List GLane) :=
  let lines := ls.foldl (fun (a : List Nat) g => if a.contains g.line then a else a ++ [g.line]) []
  lines.map fun n => ls.filter fun g => g.line == n

/-- The first lane of a group. -/
def groupHead (g : List GLane) : GLane := g.headD { lane := 0, va := 0, pa := 0, home := 0, leaf := 0 }

/-- The detector's data for a line, with the addresses of its sectors. -/
def raceLine (s : State) (x : Here) (mods : Mods) (g : GLane) : Option Race :=
  (raceOf s x.ctx x.gid x.p.pc g.va g.leaf (raceScope mods.ord mods.scope)).map fun r =>
    { r with vas := (List.range 4).map fun i => (i, g.va / 128 * 128 + 32 * i) }

/-- A request of the issuing warp for a group of lanes on one line. -/
def reqFor (s : State) (x : Here) (mods : Mods) (op : Nat) (act : Act) (lanes : List LaneReq) (g : GLane) : Req :=
  { core := x.core, warp := x.w, op := op, line := g.line, home := g.home, act := act, lanes := lanes,
    pol := polOf mods.cache g.leaf, prov := x.tag, race := raceLine s x mods g, part := (ctxOf s x.ctx).part,
    va := g.va / 128 * 128, slot := x.sl, age := x.wp.age, word := unitWord x.ws,
    launch := x.block.launch }

/-- A write that the device performs for a word is checked and recorded like the warp's own (R122, R124). -/
def noteWrite (s : State) (x : Here) (mods : Mods) (g : GLane) (n kind : Nat) : State :=
  raceDo s { core := x.core, line := g.line, home := g.home, act := .probe, race := raceLine s x mods g }
    (sectorsTouched (fieldMask (g.pa % 128) n)) kind

/-- A new operation of the warp; its number is returned. -/
def newOp (s : State) (core : Nat) (o : MemOp) : State × Nat :=
  let id := (coreOf s core).nextOp
  (modCore s core fun co => { co with nextOp := id + 1, ops := co.ops ++ [{ o with id := id }] }, id)

/-- The L1's copy of a line; for constant space, one filled since a launch was accepted (R106). -/
def l1Find (co : Core) (after : Option Nat) (line : Nat) : Option L1Line :=
  co.l1.find? fun y => y.line == line && (match after with | some n => y.mark > n | none => true)

/-- A way of a line at its home is marked first to evict (R225). -/
def markWay (s : State) (h line : Nat) : State :=
  modSlice s h fun sl => { sl with ways := sl.ways.map fun (k, w) => (k, if w.line == line then { w with first := true } else w) }

/-- What a hit leaves in the L1, and at the home (R225). -/
def hitMarks (s : State) (core pol home line : Nat) : State :=
  let s := modCore s core fun co =>
    let co := { co with l1Hits := co.l1Hits + 1 }
    if pol = 3 then l1DropLine co line
    else if pol = 1 then { co with l1 := co.l1.map fun y => if y.line == line then { y with first := true } else y }
    else co
  if pol = 1 || pol = 3 then markWay s home line else s

/-- Global loads (R98, R222, R224): hits in L1 are delivered at once, the other lines are requested.  A line of which the
warp has a read or an atomic on its way is no hit (R90), nor, for constant space, one filled before the launch was
accepted (R106).  `bound` gives the ranges an ACQ invalidates instead of the whole L1 (R101). -/
def loadGlobal (s : State) (x : Here) (dest : Dest) (ty : Ty) (mods : Mods) (ls : List GLane)
    (bound : Option (List (Nat × Nat)) := none) (after : Option Nat := none) : State :=
  let lines := ls.map (·.line)
  let s := acceptIf s x.core fun y => y.warp == x.w && lines.contains y.req.line
  let sc := effScope s x mods.scope
  let acq := mods.ord == .acq
  let home := acq && acqInvalidates sc
  let bypass := home || x.prov
  let co := coreOf s x.core
  let groups := byLine ls
  let mine := (allReqs s x.core x.w).filter fun r => !isStore r
  let hit (g : List GLane) : Option L1Line :=
    if bypass || mine.any fun r => r.line == (groupHead g).line then none
    else l1Find co after (groupHead g).line
  let n := destSize dest ty
  -- hits
  let s := groups.foldl (fun s g =>
    match hit g with
    | none => s
    | some y =>
      let s := g.foldl (fun s l =>
        modWarp s x.core x.w fun w =>
          putLane w dest ty l.lane (lineField y.data (l.pa % 128) n) fun i => poisoned y.poison (l.pa % 128 + 4 * i) (min 4 n)) s
      let bads := (g.filter fun l => poisoned y.poison (l.pa % 128) n).map (·.va)
      let s := match bads with
        | [] => s
        | v :: t => modWarp s x.core x.w fun w => notePoison w (t.foldl min v)
      hitMarks s x.core (polOf mods.cache (groupHead g).leaf) y.home y.line) s
  let misses := groups.filter fun g => (hit g).isNone
  let hold := mods.layer == .lhold || mods.layer == .lboth
  if misses.isEmpty then
    let all := acq && acqInvalidates sc && bound.isNone
    let rs := if acq && acqInvalidates sc then bound.getD [] else []
    retireNow (modCore s x.core fun co => l1Drop co all rs) x
  else
    let (s, id) := newOp s x.core
      { id := 0, warp := x.w, slot := x.sl, dest := dest, ty := ty, left := misses.length, holds := hold, acq := acq,
        invalAll := acq && acqInvalidates sc && bound.isNone,
        inval := if acq && acqInvalidates sc then bound else none, lanes := x.exec, vas := ls.map fun g => (g.lane, g.va) }
    let s := misses.foldl (fun s g =>
      let h := groupHead g
      let r := reqFor s x mods id .read (g.map fun l => { lane := l.lane, off := l.pa % 128 }) h
      toPort s { r with fwd := !(acq && (sc == .pkg || sc == .sys)), fill := r.pol < 2 && !x.prov }) s
    let s := modCore s x.core fun co =>
      let co := { co with l1Misses := co.l1Misses + misses.length }
      (misses.filter fun g => polOf mods.cache (groupHead g).leaf = 3).foldl (fun co g => l1DropLine co (groupHead g).line) co
    retireNow (modWarp s x.core x.w fun w => addPend w dest) x

/-- Bytes of a group's stores over a line: a higher lane's store is later (R89). -/
def storeBytes (s : State) (n : Nat) (g : List (GLane × Nat)) : Line × LineMask :=
  let (d, m) := g.foldl (fun (a : Line × LineMask) y =>
    let f := fieldMask (y.1.pa % 128) n
    (mergeLine a.1 (fieldLine (y.1.pa % 128) n y.2) f, a.2 ||| f)) (0, 0)
  match g with
  | y :: _ => (roundPacked s y.1.line d, m)
  | [] => (d, m)

/-- A provisional line cannot be added: the set already holds four (R350). -/
def provFull (s : State) (x : Here) (g : GLane) : Bool :=
  match x.tag with
  | some tag => !provRoom (sliceOf s g.home) g.line tag
  | none => false

/-- Global stores enter the write-combining buffer, one entry a line (R19, R222). -/
def storeGlobal (s : State) (x : Here) (mods : Mods) (n : Nat) (ls : List (GLane × Nat)) : State :=
  let groups := (byLine (ls.map (·.1))).map fun g => ls.filter fun y => y.1.line == (groupHead g).line
  let hold := mods.layer == .lhold || mods.layer == .lboth
  let (s, id) := if hold then
      newOp s x.core { id := 0, warp := x.w, slot := x.sl, dest := .none, ty := .b32, left := groups.length,
                       holds := true, store := true }
    else (s, 0)
  let s := groups.foldl (fun s g =>
    let h := groupHead (g.map (·.1))
    let (d, m) := storeBytes s n g
    let r := reqFor s x mods id (.write d m 0) (g.map fun y => { lane := y.1.lane, off := y.1.pa % 128 }) h
    modCore s x.core fun co => { co with wc := co.wc ++ [{ warp := x.w, req := r }] }) s
  let s := if mods.ord == .rel then advanceEpoch s x.ctx (effScope s x mods.scope) else s
  retireNow s x

/-- The requests of a word whose lines its homes hold for it are performed at once (R123, R219). -/
def rush (s : State) (core w : Nat) (lines : List Nat) : State :=
  let s := acceptIf s core fun y => y.warp == w && lines.contains y.req.line
  lines.foldl (fun s n =>
    let s := portTake s (portOf core) n fun r => r.core == core && r.warp == w
    fetchDone s (holderOf s n) n) s

/-! Lines that a word reads at their homes (log 16). -/

/-- A word that reads memory at its homes by itself, as one of the units that ask for lines: its number, and that of its
k-th read, stays the same while it is tried again. -/
def wordWho (x : Here) (k : Nat) : Nat := 16 * (1024 * (64 * x.wp.issued + x.w) + x.core) + 4 * (k + 1)

def wordReads (s : State) (x : Here) (k : Nat) (ls : List (Nat × Nat)) : Got :=
  unitReads s (ctxOf s x.ctx).part (wordWho x k) ls

/-- What a word's units have been answered is forgotten: its accesses are over. -/
def dropWord (s : State) (x : Here) : State := foldN 3 (fun k s => dropAnswers s (wordWho x k)) s

/-- No home lets a word own a line for an atomic (R353, R358). -/
def barred (s : State) (x : Here) (k line : Nat) : Bool :=
  refused s line (wordWho x k) || (answerTo s line (wordWho x k)).isSome

/-- Bytes of one line, read by a word at its home: they go on to `f`, poisoned or not. -/
def wordBytes (s : State) (x : Here) (k n : Nat) (g : GLane) (f : State → List Byte → Bool → State) : State :=
  match wordReads s x k [(g.line, g.home)] with
  | .wait s => s
  | .prot s => fault s x .prot x.exec g.va
  | .go s =>
    let (d, bad) := unitLine s g.line (wordWho x k)
    f (dropAnswers s (wordWho x k)) (leBytes n (lineField d (g.pa % 128) n)) (poisoned bad (g.pa % 128) n)

end Sys2Proof.Machine
end

