-- ==== Sys2Proof/Machine/Mem.lean ====
section
/-! DEFINITION. Machine/Mem.lean: the memory family but BINDT and REL, and SLDK (R156, R215-R245). -/

namespace Sys2Proof.Machine

/-! Fields and modifiers (R52, R216). -/

/-- The classes of memory words that share a row of R216. -/
inductive MKd
  | load | store | atom | mwait | fence | obj | pref | bare
deriving DecidableEq, Repr

/-- A value outside the word's list, or a combination that R52 forbids. -/
def modsBad (k : MKd) (p : Option Pfx) (m : Mods) : Bool :=
  let no {α : Type} (f : Pfx → Option α) : Bool := (p.bind f).isSome
  let noLayer := m.layer != .none
  match k with
  | .load =>
    !(m.ord == .none || m.ord == .acq) || m.space == .tile || (m.ord != .none && m.scope == .lane) ||
    (m.cache != .norm && !baseLayer m.space)
  | .store =>
    !(m.ord == .none || m.ord == .rel) || m.space == .tile || m.space == .const ||
    (m.ord != .none && m.scope == .lane) || (m.cache != .norm && !baseLayer m.space)
  | .atom =>
    !(m.space == .global || m.space == .scratch || m.space == .cshared) || (m.ord != .none && m.scope == .lane) ||
    no (·.cache)
  | .mwait =>
    !(m.ord == .none || m.ord == .acq) || m.space != .global || (m.ord != .none && m.scope == .lane) || no (·.cache)
  | .fence =>
    !(m.ord == .acq || m.ord == .rel) || m.scope == .lane || m.space == .const || m.space == .tile || no (·.cache)
  | .obj => no (·.ord) || m.scope == .lane || no (·.space) || no (·.cache)
  | .pref =>
    no (·.ord) || no (·.scope) || no (·.space) || noLayer ||
    !(m.cache == .norm || m.cache == .stream || m.cache == .noalloc)
  | .bare => no (·.ord) || no (·.scope) || no (·.space) || no (·.cache) || noLayer

/-- BASE must be even for a 64-bit base (R45, R215). -/
def baseBad (k : MKd) (b : BitVec 8) (sp : Space) : Bool :=
  (k == .load || k == .store || k == .atom) && b != 0xFF && pairBase sp && b.toNat % 2 == 1

/-- A memory word with its modifiers. -/
def memWord (i : Instr) (k : MKd) (m : Mem) (s : State) (f : State → Here → Mods → State) :
    Host.Outcome State Fault Refusal :=
  word i s (fun s x => f s x (modsOf x.co.memdef m.pfx)) fun x =>
    modsBad k m.pfx (modsOf x.co.memdef m.pfx) || baseBad k m.base (modsOf x.co.memdef m.pfx).space

/-- .lwait: every earlier access of the warp, to every layer, is performed (R50, R93). -/
def lwaitOk (s : State) (x : Here) (m : Mods) : Bool :=
  !(m.layer == .lwait || m.layer == .lboth) || (loadsDone x.co x.w && storesDone s x.core x.w .pkg)

def isRel (o : Ord) : Bool := o == .rel || o == .acqrel
def isAcq (o : Ord) : Bool := o == .acq || o == .acqrel

/-- Whether an access may go ahead: nothing of the warp holds it, and what its ordering waits for is done. -/
def mayGo (s : State) (x : Here) (m : Mods) : Bool :=
  !memHeld x (baseLayer m.space) && lwaitOk s x m &&
  (!(isRel m.ord && baseLayer m.space) || releaseReady s x (effScope s x m.scope))

/-- Lanes of exec with their addresses. -/
def vecAddrs (x : Here) (m : Mem) (sp : Space) : List (Nat × Nat) :=
  (setBits x.exec).map fun l => (l, laneAddr x.wp m sp l)

def indexPoison (x : Here) (m : Mem) (l : Nat) : Bool := m.index != 0xFF && vpois x.wp m.index.toNat l

/-- The poison of a line as the word would read it now. -/
def seenPoison (s : State) (x : Here) (bypass : Bool) (line : Nat) (after : Option Nat := none) : BitVec 4 :=
  match if bypass then none else l1Find x.co after line with
  | some y => y.poison
  | none => (peekLine s line).2

/-- A scalar read of poison traps at once (R242). -/
def poisonTrap (s : State) (x : Here) (va : Nat) : State :=
  let s := modWarp s x.core x.w fun w => notePoison w va
  fault s { x with wp := notePoison x.wp va } .poison x.exec (va / 32 * 32)

/-- Take the outcome of a check: a trap, a wait, or what follows. -/
def withChk {α : Type} (s : State) (x : Here) (c : Chk α) (f : α → State) : State :=
  match c with
  | .ok a => f a
  | .trap cls lanes sector => fault s x cls lanes sector
  | .busy => s
  | .wait ls own => ls.foldl (fun s g =>
      if usable s g.line own (some g.home) then s
      else wantLine s (ctxOf s x.ctx).part g.line own (some g.home)) s

/-- The modifiers of a word that has none. -/
def plainMods : Mods := { ord := .none, scope := .pkg, space := .global, cache := .norm, layer := .none }

/-- A load of the base layer after its checks (R219, R222-R225).  A scalar read of poison traps; one whose warp has a
store to the line on its way waits for it (R90, R242). -/
def loadLanes (s : State) (x : Here) (m : Mods) (dest : Dest) (ty : Ty) (scalar : Bool) (ls : List GLane)
    (bound : Option (List (Nat × Nat)) := none) (after : Option Nat := none) : State :=
  let n := destSize dest ty
  let bypass := (m.ord == .acq && acqInvalidates (effScope s x m.scope)) || x.prov
  withChk s x (checkRace s x m true bypass scalar ls) fun ls =>
    let bads := ls.filter fun g => poisoned (seenPoison s x bypass g.line after) (g.pa % 128) n
    match scalar, bads with
    | true, g :: _ =>
      if (allReqs s x.core x.w).any fun r => r.line == g.line && writes r then s else poisonTrap s x g.va
    | _, _ => rush (loadGlobal s x dest ty m ls bound after) x.core x.w ((trapLanes s x m true bypass ls).map (·.1.line))

/-- Read lanes of constant space: the bank's bytes as they stand, and no line from before the launch (R106). -/
def constLoad (s : State) (x : Here) (dest : Dest) (ty : Ty) (m : Mods) (scalar : Bool) (addrs : List (Nat × Nat)) :
    State :=
  let n := destSize dest ty
  let l := (tget s.launches x.block.launch).bind fun l => l.subs[x.block.sub]?
  let bank := match l with | some b => b.cbank | none => 0
  let size := match l with | some b => b.cbsize | none => 0
  let bad := addrs.filter fun a => a.2 + n > size
  if !bad.isEmpty then withChk s x (failLanes (α := Unit) .prot x.exec scalar bad) fun _ => s
  else
    let (s, c) := checkGlobal s x.core x.ctx x.exec scalar { r := true } (addrs.map fun a => (a.1, bank + a.2))
    withChk s x c fun ls => loadLanes s x m dest ty scalar ls none (some x.block.launch)

/-- Read lanes of a local space: performed at once (R88). -/
def localLoad (s : State) (x : Here) (dest : Dest) (ty : Ty) (sp : Space) (scalar : Bool) (addrs : List (Nat × Nat)) :
    State :=
  let n := destSize dest ty
  withChk s x (checkLocal s x sp scalar false n addrs) fun ls =>
    -- a window access of the owner waits for pending writes of the register (R135)
    if ls.any fun p => match p.2 with
      | .reg _ w r _ => w == x.w && x.wp.pend.contains r
      | _ => false then s
    else
      let vaOf (l : Nat) : Nat := (tget addrs l).getD 0
      let bads := (ls.filter fun p => locBad s p.2 n).map fun p => vaOf p.1
      match scalar, bads with
      | true, v :: _ => poisonTrap s x v
      | _, _ =>
        let vals := ls.map fun p => (p.1, locRead s p.2 n, p.2)
        let s' := vals.foldl (fun t (l, v, p) =>
          modWarp t x.core x.w fun w => putLane w dest ty l v fun i => locBad s (p.at (4 * i)) (min 4 n)) s
        let s' := match bads with
          | [] => s'
          | v :: t => modWarp s' x.core x.w fun w => notePoison w (t.foldl min v)
        retireNow s' x

/-- VLD, VLDX and SLD after their fields (R222-R224). -/
def doLoad (s : State) (x : Here) (m : Mods) (dest : Dest) (ty : Ty) (scalar : Bool) (bad : Nat → Bool)
    (addrs : List (Nat × Nat)) : State :=
  let n := destSize dest ty
  if x.exec = 0 then retireNow s x
  else if !mayGo s x m then s
  else
    let pl := lanesWhere x.exec bad
    let mis := addrs.filter fun a => a.2 % n != 0
    if pl ≠ 0 then fault s x .poison pl (poisonSector x.wp)
    else if !mis.isEmpty then withChk s x (failLanes (α := Unit) .misalign x.exec scalar mis) fun _ => s
    else match m.space with
      | .global =>
        let (s, c) := checkGlobal s x.core x.ctx x.exec scalar { r := true } addrs
        withChk s x c fun ls => loadLanes s x m dest ty scalar ls
      | .const => constLoad s x dest ty m scalar addrs
      | sp => localLoad s x dest ty sp scalar addrs

def execVld (m : Mem) (s : State) : Host.Outcome State Fault Refusal :=
  memWord (.vld m) .load m s fun s x md =>
    let ty := memTy m
    doLoad s x md (.vec m.data.toNat (if ty.is64 then 2 else 1)) ty false (indexPoison x m) (vecAddrs x m md.space)

def execVldx (m : Mem) (s : State) : Host.Outcome State Fault Refusal :=
  memWord (.vldx m) .load m s fun s x md =>
    doLoad s x md (.vec m.data.toNat 4) .b32 false (indexPoison x m) (vecAddrs x m md.space)

def execSld (m : Mem) (s : State) : Host.Outcome State Fault Refusal :=
  memWord (.sld m) .load m s fun s x md =>
    let ty := memTy m
    doLoad s x md (.sca m.data.toNat (if ty.is64 then 2 else 1)) ty true (fun _ => false)
      [(0, laneAddr x.wp m md.space 0)]

/-- SLDK: a load of the constant bank (R156). -/
def execSldk (m : Imm) (s : State) : Host.Outcome State Fault Refusal :=
  word (.sldk m) s fun s x =>
    if memHeld x true then s
    else
      let wide := m.sub == 1
      let n := if wide then 8 else 4
      let a := (if m.a = 0xFF then 0 else (sget x.wp m.a.toNat).toNat) + m.imm.toNat
      let md := { plainMods with space := Space.const }
      if a % n ≠ 0 then faultAll s x .misalign a
      else constLoad s x (.sca m.d.toNat (if wide then 2 else 1)) (if wide then .n64 else .b32) md true [(0, a)]

/-! Stores (R222-R224). -/

/-- The value a lane stores: the low bytes of its register; a .t6 byte has bits [7:6] zero (R222). -/
def storeVal (w : Warp) (vec : Bool) (d l n : Nat) (ty : Ty) : Nat :=
  let words := (List.range ((n + 3) / 4)).map fun i => if vec then vget w (d + i) l else sget w (d + i)
  let raw := (((List.range words.length).zip words).foldl (fun a (i, v) => a + v.toNat * 2 ^ (32 * i)) 0) % 256 ^ n
  if ty == .t6 then raw % 64 else raw

def dataPoison (x : Here) (d n l : Nat) : Bool := (List.range ((n + 3) / 4)).any fun i => vpois x.wp (d + i) l

def isShadow (b : Block) : Bool := match b.shadow with | .shadow _ => true | _ => false

/-- The hash of a screened block's global writes (R422). -/
def hashLanes (s : State) (x : Here) (n : Nat) (ls : List (GLane × Nat)) : State :=
  if x.block.shadow == .none then s
  else modWarp s x.core x.w fun w => ls.foldl (fun w y => hashStore w y.1.va n y.2) w

/-- VST, VSTX and SST after their fields. -/
def doStore (s : State) (x : Here) (m : Mods) (n : Nat) (ty : Ty) (d : Nat) (scalar : Bool) (bad : Nat → Bool)
    (addrs : List (Nat × Nat)) : State :=
  if x.exec = 0 then retireNow s x
  else if !mayGo s x m || (x.prov && isRel m.ord && m.scope == .sys) then s
  else
    let pl := lanesWhere x.exec bad
    let mis := addrs.filter fun a => a.2 % n != 0
    if pl ≠ 0 then fault s x .poison pl (poisonSector x.wp)
    else if !mis.isEmpty then withChk s x (failLanes (α := Unit) .misalign x.exec scalar mis) fun _ => s
    else
      let val (l : Nat) : Nat := storeVal x.wp (!scalar) d l n ty
      match m.space with
      | .global =>
        let (s, c) := checkGlobal s x.core x.ctx x.exec scalar { w := true } addrs
        withChk s x c fun ls =>
          withChk s x (checkRace s x m false true scalar ls) fun ls =>
            if x.prov && ls.any fun g => isRemote g.line || provFull s x g then s
            else
              let lv := ls.map fun g => (g, val g.lane)
              let s := hashLanes s x n lv
              if isShadow x.block then retireNow s x
              else rush (storeGlobal s x m n lv) x.core x.w ((trapLanes s x m false true ls).map (·.1.line))
      | sp =>
        withChk s x (checkLocal s x sp scalar true n addrs) fun ls =>
          if ls.any fun p => match p.2 with
            | .reg _ w r _ => w == x.w && x.wp.pend.contains r
            | _ => false then s
          else retireNow (ls.foldl (fun t p => locWrite t p.2 n (val p.1)) s) x

def execVst (m : Mem) (s : State) : Host.Outcome State Fault Refusal :=
  memWord (.vst m) .store m s fun s x md =>
    let ty := memTy m
    doStore s x md ty.bytes ty m.data.toNat false
      (fun l => indexPoison x m l || dataPoison x m.data.toNat ty.bytes l) (vecAddrs x m md.space)

def execVstx (m : Mem) (s : State) : Host.Outcome State Fault Refusal :=
  memWord (.vstx m) .store m s fun s x md =>
    doStore s x md 16 .b32 m.data.toNat false
      (fun l => indexPoison x m l || dataPoison x m.data.toNat 16 l) (vecAddrs x m md.space)

def execSst (m : Mem) (s : State) : Host.Outcome State Fault Refusal :=
  memWord (.sst m) .store m s fun s x md =>
    let ty := memTy m
    doStore s x md ty.bytes ty m.data.toNat true (fun _ => false) [(0, laneAddr x.wp m md.space 0)]

/-! Atomics (R226-R228). -/

/-- Local atomics, lane by lane in ascending order (R108, R228). -/
def localAtoms (s : State) (x : Here) (dest : Dest) (op : Nat) (ty : Ty) (rnd : Rnd)
    (ls : List (Nat × Loc × Nat × Nat × Nat)) : State :=
  let n := ty.bytes
  ls.foldl (fun s (l, p, va, opnd, cmp) =>
    let old := locRead s p n
    let bad := locBad s p n
    let s := if bad then modWarp s x.core x.w fun w => notePoison w va
      else match atomNew op ty rnd old opnd cmp with
        | some v => locWrite s p n v
        | none => s
    modWarp s x.core x.w fun w => putLane w dest ty l old fun _ => bad) s

/-- ATOM and ATOMCAS after their fields. -/
def doAtom (s : State) (x : Here) (m : Mods) (mem : Mem) (op : Nat) (rnd : Rnd) (ret : BitVec 8)
    (cmpReg : Option Nat) : State :=
  let ty := memTy mem
  let n := ty.bytes
  let wide := ty.is64
  let addrs := vecAddrs x mem m.space
  if x.exec = 0 then retireNow s x
  else if !mayGo s x m || (x.prov && (m.space == .global || (isRel m.ord && m.scope == .sys))) then s
  else
    let pl := lanesWhere x.exec fun l =>
      indexPoison x mem l || dataPoison x mem.data.toNat n l ||
      (match cmpReg with | some c => dataPoison x c n l | none => false)
    let mis := addrs.filter fun a => a.2 % n != 0
    if pl ≠ 0 then fault s x .poison pl (poisonSector x.wp)
    else if !mis.isEmpty then withChk s x (failLanes (α := Unit) .misalign x.exec false mis) fun _ => s
    else
      let dest : Dest := if ret = 0xFF then .none else .vec ret.toNat (if wide then 2 else 1)
      let opnd (l : Nat) : Nat := storeVal x.wp true mem.data.toNat l n ty
      let cmp (l : Nat) : Nat := match cmpReg with | some c => storeVal x.wp true c l n ty | none => 0
      match m.space with
      | .global =>
        let (s, c) := checkGlobal s x.core x.ctx x.exec false { r := true, w := true, atomic := true } addrs
        withChk s x c fun ls =>
          withChk s x (checkRace s x m false true false ls) fun ls =>
            let lines := ls.map (·.line)
            let s := acceptIf s x.core fun y => y.warp == x.w && lines.contains y.req.line
            let s := modCore s x.core fun co => { co with l1 := co.l1.filter fun y => !lines.contains y.line }
            let groups := byLine ls
            let sc := effScope s x m.scope
            let (s, id) := newOp s x.core
              { id := 0, warp := x.w, slot := x.sl, dest := dest, ty := ty, left := groups.length,
                holds := m.layer == .lhold || m.layer == .lboth, acq := isAcq m.ord,
                invalAll := isAcq m.ord && acqInvalidates sc, lanes := x.exec, vas := ls.map fun g => (g.lane, g.va) }
            let code := if isShadow x.block then 16 + op else op
            let s := groups.foldl (fun s g =>
              toPort s (reqFor s x m id (.atom code ty rnd)
                (g.map fun l => { lane := l.lane, off := l.pa % 128, opnd := BitVec.ofNat 64 (opnd l.lane),
                                  cmp := BitVec.ofNat 64 (cmp l.lane) }) (groupHead g))) s
            let s := if isRel m.ord then advanceEpoch s x.ctx sc else s
            let s := retireNow (modWarp s x.core x.w fun w => addPend w dest) x
            rush s x.core x.w ((trapLanes s x m false true ls).map (·.1.line))
      | sp =>
        withChk s x (checkLocal s x sp false true n addrs) fun ls =>
          retireNow (localAtoms s x dest op ty rnd (ls.map fun p =>
            (p.1, p.2, (tget addrs p.1).getD 0, opnd p.1, cmp p.1))) x

def execAtom (m : Mem) (e : AtomExt) (s : State) : Host.Outcome State Fault Refusal :=
  memWord (.atom m e) .atom m s fun s x md => doAtom s x md m e.op.toNat e.rnd e.ret none

def execAtomcas (m : Mem) (e : CasExt) (s : State) : Host.Outcome State Fault Refusal :=
  memWord (.atomcas m e) .atom m s fun s x md => doAtom s x md m 9 .rn e.ret (some e.cmp.toNat)

/-! MWAIT (R229, R230). -/

/-- The path at its word, for an engine or an event. -/
def hereAt (s : State) (core w : Nat) (sl : Slot) : Option Here :=
  (tget (coreOf s core).warps w).map fun wp =>
    { core := core, w := w, sl := sl, co := coreOf s core, wp := wp, ws := unitAt (pathOf wp sl) }

def mwaitDest (m : Mem) (e : MwExt) : Dest := .mwait m.data.toNat (if (memTy m).is64 then 2 else 1) e.m.toNat

/-- The MWAIT's operation goes away, its registers are no longer pending. -/
def dropMwait (s : State) (core w : Nat) (sl : Slot) (d : Dest) : State :=
  let s := modCore s core fun co =>
    { co with ops := co.ops.filter fun o => !(o.warp == w && o.slot == sl && isMwait o) }
  modWarp s core w fun x => unpend x d

/-- The unit that asks for a line on behalf of a waiting MWAIT: one number for each operation. -/
def mwaitWho (core id : Nat) : Nat := 4 * (65536 * id + core) + 3

/-- No operation. -/
def noOp : MemOp := { id := 0, warp := 0, slot := .a, dest := .none, ty := .b32, left := 0 }

/-- One test of a waiting MWAIT at the home, of the word and with the comparand that it read when it issued (R147,
R230). -/
def mwaitTest (s : State) (core w : Nat) (sl : Slot) : State :=
  match hereAt s core w sl with
  | none => s
  | some x =>
    match x.p.wait, decode x.ws with
    | .mwait deadline, .ok (.mwait m e, _) =>
      let ty := memTy m
      let n := ty.bytes
      let o := (x.co.ops.find? fun o => o.warp == w && o.slot == sl && isMwait o).getD noOp
      let va := laneVa o 0
      let d := mwaitDest m e
      let (s, c) := checkGlobal s core x.ctx o.lanes true { r := true } [(0, va)]
      let fail (s : State) (cls : FClass) (lanes : W32) (sector : Nat) : State :=
        let s := dropMwait s core w sl d
        match hereAt s core w sl with
        | some y => fault s y cls lanes sector
        | none => s
      (match c with
       | .busy => s
       | .wait .. => s
       | .trap cls lanes sector => fail s cls lanes sector
       | .ok ls =>
         let g := groupHead ls
         let line := g.line
         let who := mwaitWho core o.id
         -- earlier accesses of the warp to the word are performed first (R90)
         if (allReqs s core w).any fun r => r.line == line && (isStore r || r.op < o.id) then s
         else if unbacked s line then fail s .prot o.lanes va
         else match answerTo s line who with
         | some { data := none, .. } => fail (dropAnswer s line who) .prot o.lanes va
         | found =>
           if found.isNone && !usable s line false (some g.home) then
             wantLine s (ctxOf s x.ctx).part line false (some g.home) who
           else
             let (data, poison) := match found.bind (·.data) with | some d => (d, 0) | none => peekLine s line
             let s := dropAnswer s line who
             if poisoned poison (va % 128) n then
               fail (modWarp s core w fun y => notePoison y va) .poison o.lanes (va / 32 * 32)
             else
               let v := lineField data (va % 128) n
               let met := condTy ty e.cond.toNat v o.cmp.toNat
               if !met && s.clock < deadline then s
               else
                 let s := dropMwait s core w sl d
                 let s := modWarp s core w fun y =>
                   let y := putLane y d ty 0 v fun _ => false
                   mset y e.m.toNat (maskWrite (mget y sl e.m.toNat) o.lanes fun _ => met)
                 let s := modCore s core fun co =>
                   if o.invalAll then { co with l1 := [] } else l1DropLine co line
                 modWarp s core w fun y => retireW y sl x.ws)
    | _, _ => s

def execMwait (m : Mem) (e : MwExt) (s : State) : Host.Outcome State Fault Refusal :=
  memWord (.mwait m e) .mwait m s fun s x md =>
    let ty := memTy m
    let va := objAddr x.wp m
    if x.exec = 0 then retireNow s x
    else if !mayGo s x md || x.prov then s
    else if isShadow x.block then failBlock s x.core x.wp.block []
    else if va % ty.bytes ≠ 0 then faultAll s x .misalign va
    else
      let (s, c) := checkGlobal s x.core x.ctx x.exec true { r := true } [(0, va)]
      withChk s x c fun _ =>
        let d := mwaitDest m e
        let cmp := if ty.bytes = 8 then sget64 x.wp e.cmp.toNat else (sget x.wp e.cmp.toNat).setWidth 64
        let (s, _) := newOp s x.core
          { id := 0, warp := x.w, slot := x.sl, dest := d, ty := ty, left := 1, cmp := cmp, vas := [(0, va)],
            holds := md.layer == .lhold || md.layer == .lboth, acq := isAcq md.ord, lanes := x.exec,
            invalAll := isAcq md.ord && acqInvalidates (effScope s x md.scope) }
        let s := modWarp s x.core x.w fun w => addPend w d
        let s := waitAt s x (.mwait (s.clock + (sget x.wp e.tmo.toNat).toNat))
        mwaitTest s x.core x.w x.sl

/-! FENCE and ACQ (R99, R231, R232). -/

def execFence (m : Mem) (s : State) : Host.Outcome State Fault Refusal :=
  memWord (.fence m) .fence m s fun s x md =>
    let all := md.layer != .none
    let base := all || baseLayer md.space
    let sc := effScope s x md.scope
    if memHeld x base || (x.prov && md.scope == .sys) then s
    else if !base then retireNow s x
    else match md.ord with
      | .rel =>
        if releaseReady s x sc then retireNow (advanceEpoch s x.ctx sc) x else s
      | _ =>
        if loadsDone x.co x.w then
          retireNow (modCore s x.core fun co => if acqInvalidates sc then { co with l1 := [] } else co) x
        else s

/-- The regions bound to an object, as virtual lines. -/
def boundLines (s : State) (ctx obj : Nat) : List (Nat × Nat) :=
  ((ctxOf s ctx).bindings.filter (·.obj == obj)).map fun b => (b.base / 128, b.lines)

def execAcq (m : Mem) (s : State) : Host.Outcome State Fault Refusal :=
  memWord (.acq m) .obj m s fun s x md =>
    let va := objAddr x.wp m
    let md := { md with ord := Ord.acq, space := Space.global, cache := Cache.norm }
    if x.exec = 0 then retireNow s x
    else if !mayGo s x md then s
    else if va % 8 ≠ 0 then faultAll s x .misalign va
    else
      let (s, c) := checkGlobal s x.core x.ctx x.exec true { r := true } [(0, va)]
      withChk s x c fun ls => loadLanes s x md (.sca m.data.toNat 2) .n64 true ls (some (boundLines s x.ctx va))

/-! BIND and UNBIND (R100, R233, R234). -/

def execBind (m : Mem) (s : State) : Host.Outcome State Fault Refusal :=
  memWord (.bind m) .bare m s fun s x _ =>
    let d := m.data.toNat
    let obj := objAddr x.wp m
    let base := (sget64 x.wp d).toNat
    let lines := (sget x.wp (d + 2)).toNat
    let flags := sget x.wp (d + 3)
    if x.exec = 0 then retireNow s x
    else if memHeld x true then s
    else if obj % 8 ≠ 0 then faultAll s x .misalign obj
    else if base % 128 ≠ 0 then faultAll s x .misalign base
    else
      let bs := (ctxOf s x.ctx).bindings
      let same (b : Binding) : Bool := b.obj == obj && b.base == base && b.lines == lines && !b.bindt
      if lines = 0 || flags.toNat ≥ 4 || (!bs.any same && bs.length ≥ 64) then faultAll s x .prot obj
      else
        let b : Binding := { obj := obj, base := base, lines := lines, race := flags.getLsbD 0, trap := flags.getLsbD 1 }
        let bs := if bs.any same then bs.map fun y => if same y then b else y else bs ++ [b]
        retireNow { s with contexts := tmod s.contexts x.ctx fun c => { c with bindings := bs } } x

def execUnbind (m : Mem) (s : State) : Host.Outcome State Fault Refusal :=
  memWord (.unbind m) .bare m s fun s x _ =>
    let obj := objAddr x.wp m
    if x.exec = 0 then retireNow s x
    else if memHeld x true then s
    else if obj % 8 ≠ 0 then faultAll s x .misalign obj
    else
      let s := { s with contexts := tmod s.contexts x.ctx fun c =>
        { c with bindings := c.bindings.filter (·.obj != obj) } }
      let s := { s with cores := s.cores.map fun (k, co) =>
        if co.ctx == x.co.ctx then
          (k, { co with blocks := co.blocks.map fun (i, b) =>
            (i, { b with claims := b.claims.filter (·.obj != obj) }) })
        else (k, co) }
      retireNow s x

/-! Range maintenance (R238-R240). -/

/-- The pages of a range, each as the first address of the range in it. -/
def rangePages (a bytes : Nat) : List (Nat × Nat) :=
  if bytes = 0 then []
  else (List.range ((a + bytes - 1) / 65536 - a / 65536 + 1)).map fun i => (0, max a ((a / 65536 + i) * 65536))

/-- Physical spans of a range: first line, lines, virtual line, leaf. -/
def rangeSpans (a bytes : Nat) (ls : List GLane) : List (Nat × Nat × Nat × W64) :=
  ls.map fun g =>
    let stop := min (a + bytes) ((g.va / 65536 + 1) * 65536)
    (g.pa / 128, (stop - g.va) / 128, g.va / 128, g.leaf)

/-- The span that holds a physical line. -/
def spanOf (sp : List (Nat × Nat × Nat × W64)) (line : Nat) : Option (Nat × W64) :=
  (sp.find? fun (p, n, _, _) => p ≤ line && line < p + n).map fun (p, _, v, leaf) => (v + (line - p), leaf)

/-- Ways of every slice in the range: slice, key, way, virtual line, leaf. -/
def rangeWays (s : State) (sp : List (Nat × Nat × Nat × W64)) : List (Nat × Nat × Way × Nat × W64) :=
  s.slices.flatMap fun (h, sl) => sl.ways.filterMap fun (k, w) =>
    (spanOf sp w.line).map fun (v, leaf) => (h, k, w, v, leaf)

def wayDirty (w : Way) : Bool :=
  match w.held with
  | some .m | some .o => true
  | some _ => false
  | none => w.dirty != 0

/-- Give up a remote line with a message; its acknowledgement ends the word (R239, R357). -/
def giveUp (s : State) (h : Nat) (w : Way) (k : MKind) (r : Req) : State :=
  let s := sendHome s k w.line w.data
  modSlice s h fun sl => { sl with entries := sl.entries ++
    [{ line := w.line, phase := .sentWb, cur := .own { r with line := w.line, home := h }, since := s.clock }] }

/-- A way without its data; its glaze goes to DRAM. -/
def dropWay (s : State) (h k : Nat) (w : Way) : State :=
  let s := modSlice s h fun sl => { sl with ways := tdel sl.ways k }
  if w.held.isNone && w.glazeDirty then { s with glaze := tput 0 s.glaze w.line w.glaze } else s

/-- Invalidate one way of a range (R239). -/
def invalWay (r : Req) (s : State) (t : Nat × Nat × Way × Nat × W64) : State :=
  let (h, k, w, _, _) := t
  let s' := dropWay s h k w
  match w.held with
  | some .m | some .o => giveUp s' h w .wbd r
  | some .e => giveUp s' h w .wbc r
  | _ => s'

/-- Clean one way of a range (R239). -/
def cleanWay (r : Req) (s : State) (t : Nat × Nat × Way × Nat × W64) : State :=
  let (h, k, w, _, _) := t
  match w.held with
  | some .m | some .o => giveUp (dropWay s h k w) h w .wbd r
  | some _ => s
  | none =>
    if w.dirty = 0 then s
    else setWay (dramStore s w.line w.data (w.dirty &&& w.valid) w.poison) h k { w with dirty := 0 }

/-- CINV and CWB: the checks they share, then what they do to the ways of the range. -/
def rangeWord (s : State) (x : Here) (a lines : Nat) (inv clean : Bool) : State :=
  let bytes := 128 * lines
  if x.exec = 0 then retireNow s x
  else if memHeld x true || x.prov then s
  else if a % 128 ≠ 0 then faultAll s x .misalign a
  else if lines = 0 then retireNow s x
  else
    let (s, c) := checkGlobal s x.core x.ctx x.exec true {} (rangePages a bytes)
    withChk s x c fun ls =>
      let sp := rangeSpans a bytes ls
      let inRange (line : Nat) : Bool := (spanOf sp line).isSome
      let own := (allReqs s x.core x.w).any fun r => inRange r.line
      let busy := s.slices.any fun (_, sl) => sl.entries.any fun e => inRange e.line
      if own || busy then s
      else
        let ways := rangeWays s sp
        let dirty := ways.filter fun t => wayDirty t.2.2.1 && !t.2.2.2.2.getLsbD 51
        match if inv && !clean then dirty.map fun t => 128 * t.2.2.2.1 else [] with
        | v :: t => faultAll s x .prot (t.foldl min v)
        | [] =>
          let sends (t : Nat × Nat × Way × Nat × W64) : Bool :=
            match t.2.2.1.held with
            | some .m | some .o => true
            | some .e => inv
            | _ => false
          let n := (ways.filter sends).length
          let (s, id) := if n = 0 then (s, 0) else
            newOp s x.core { id := 0, warp := x.w, slot := x.sl, dest := .none, ty := .b32, left := n }
          let r : Req := { core := x.core, warp := x.w, op := id, line := 0, home := 0, act := .probe,
                           part := (ctxOf s x.ctx).part }
          let s := if clean then ways.foldl (cleanWay r) s else s
          let s := if inv then (rangeWays s sp).foldl (invalWay r) s else s
          let s := if inv then modCore s x.core fun co => { co with l1 := co.l1.filter fun y => !inRange y.line } else s
          retireNow s x

def execCinv (m : Mem) (s : State) : Host.Outcome State Fault Refusal :=
  memWord (.cinv m) .bare m s fun s x _ =>
    rangeWord s x (objAddr x.wp m) (sget x.wp m.data.toNat).toNat true false

def execCwb (m : Mem) (s : State) : Host.Outcome State Fault Refusal :=
  memWord (.cwb m) .bare m s fun s x _ =>
    rangeWord s x (objAddr x.wp m) (sget x.wp m.data.toNat).toNat (m.ty == 1) true

/-- CPREF asks for lines; it faults nothing and drops what fails (R240). -/
def execCpref (m : Mem) (s : State) : Host.Outcome State Fault Refusal :=
  memWord (.cpref m) .pref m s fun s x md =>
    let a := objAddr x.wp m
    let n := min 512 (sget x.wp m.data.toNat).toNat
    if x.exec = 0 then retireNow s x
    else if memHeld x true then s
    else if a % 128 ≠ 0 then retireNow s x
    else
      let s := foldN n (fun i s =>
        let (s, c) := checkGlobal s x.core x.ctx x.exec true { r := true } [(0, a + 128 * i)]
        match c with
        | .ok (g :: _) =>
          let r := reqFor s x { md with ord := .none, scope := .pkg, space := .global } 0 .read [] g
          -- no-allocate keeps the line out of the L1 alone
          toPort s { r with fill := r.pol < 2 && !x.prov, pol := if r.pol = 2 then 0 else r.pol, race := none }
        | _ => s) s
      retireNow s x

/-! The arena (R241). -/

def arenaOf (s : State) (x : Here) : Nat :=
  match tget s.launches x.block.launch with | some l => l.arena | none => 0

def sizeClass (n : Nat) : Nat := ceilLog2 n - 7

/-- link_ok: aligned, inside the arena, readable and writable, not poisoned (R241); its place in memory. -/
def linkOk (s : State) (ctx header limit q c : Nat) : Option Nat :=
  if q % 2 ^ (7 + c) = 0 && header + 128 ≤ q && q < limit then
    match walk s ctx q with
    | .ok leaf level =>
      let pa := leafPa leaf level q
      if leaf.getLsbD 2 && leaf.getLsbD 3 && usable s (pa / 128) false && !poisoned (peekLine s (pa / 128)).2 (pa % 128) 8 then some pa else none
    | _ => none
  else none

/-- The pop or the bump of ALLOC at the header: the block, and the header word to write with its offset. -/
def allocAt (s : State) (ctx va pa c : Nat) : Nat × Option (Nat × Nat) :=
  let head := peek64 s (pa + 16 + 8 * c)
  let top := peek64 s pa
  let limit := peek64 s (pa + 8)
  if head ≠ 0 then
    match linkOk s ctx va limit head c with
    | some q => (head, some (16 + 8 * c, peek64 s q))
    | none => (0, none)
  else
    let p := alignUp top (2 ^ (7 + c))
    if p + 2 ^ (7 + c) > limit then (0, none) else (p, some (0, p + 2 ^ (7 + c)))

/-- The lane of the header word at an offset. -/
def GLane.word (g : GLane) (off : Nat) : GLane := { g with va := g.va + off, pa := g.pa + off }

/-- ALLOC and FREE write one of their words, an atomic for the detector (R122, R241). -/
def arenaPut (s : State) (x : Here) (g : GLane) (v : Nat) : State :=
  homeWriteBytes (noteWrite s x plainMods g 8 2) (ctxOf s x.ctx).part g.pa (leBytes 8 v) (some g.home)

def execAlloc (m : Mem) (s : State) : Host.Outcome State Fault Refusal :=
  memWord (.alloc m) .bare m s fun s x _ =>
    let size := wrapN 64 ((baseVal x.wp m.base false : Int) + m.off.toInt)
    let hv := arenaOf s x
    let c := sizeClass size
    if x.exec = 0 then retireNow s x
    else if memHeld x true then s
    else if hv = 0 || size = 0 || size > 2 ^ 20 then
      retireNow (modWarp s x.core x.w fun w => sset64 w m.data.toNat 0) x
    else
      let (s, ch) := checkGlobal s x.core x.ctx x.exec true { r := true, w := true, atomic := true } [(0, hv)]
      withChk s x ch fun ls =>
        let g := groupHead ls
        let part := (ctxOf s x.ctx).part
        let head := peek64 s (g.pa + 16 + 8 * c)
        let bad (off : Nat) : Bool := poisoned (peekLine s g.line).2 (g.pa % 128 + off) 8
        if (allReqs s x.core x.w).any fun r => r.line == g.line then s
        else if barred s x 0 g.line then faultAll (dropWord s x) x .prot hv
        else if !usable s g.line true (some g.home) then wantLine s part g.line true (some g.home) (wordWho x 0)
        else if bad (16 + 8 * c) then poisonTrap s x (hv + 16 + 8 * c)
        else if head = 0 && (bad 0 || bad 8) then poisonTrap s x hv
        else
          let away := match walk s x.ctx head with
            | .ok leaf level =>
              let n := leafPa leaf level head / 128
              if usable s n false || barred s x 1 n then none else some n
            | .busy n => some n
            | .bad => none
          match if head ≠ 0 then away else none with
          | some n => wantLine s part n false none (wordWho x 1)
          | none =>
            let s := dropWord s x
            let (p, put) := allocAt s x.ctx hv g.pa c
            withChk s x (checkRace s x plainMods false true true (put.toList.map fun y => g.word y.1)) fun _ =>
              let s := if isShadow x.block then s else put.toList.foldl (fun s y => arenaPut s x (g.word y.1) y.2) s
              let s := modCore s x.core fun co => l1DropLine co g.line
              let s := if x.prov && p ≠ 0 then
                  modBlock s x.core x.wp.block fun b => { b with arena := (p, c) :: b.arena } else s
              retireNow (modWarp s x.core x.w fun w => sset64 w m.data.toNat (BitVec.ofNat 64 p)) x

def execFree (m : Mem) (s : State) : Host.Outcome State Fault Refusal :=
  memWord (.free m) .bare m s fun s x _ =>
    let p := objAddr x.wp m
    let size := (sget x.wp m.data.toNat).toNat
    let c := sizeClass size
    let hv := arenaOf s x
    if x.exec = 0 then retireNow s x
    else if memHeld x true || x.prov then s
    else if p % 2 ^ (7 + c) ≠ 0 then faultAll s x .misalign p
    else if size = 0 || size > 2 ^ 20 || hv = 0 then faultAll s x .prot p
    else
      let need : Need := { r := true, w := true, atomic := true }
      let (s, ch) := checkGlobal s x.core x.ctx x.exec true need [(0, hv)]
      withChk s x ch fun hs =>
        let g := groupHead hs
        let part := (ctxOf s x.ctx).part
        if barred s x 0 g.line then faultAll (dropWord s x) x .prot hv
        else if !usable s g.line true (some g.home) then wantLine s part g.line true (some g.home) (wordWho x 0)
        else if p < hv + 128 || p ≥ peek64 s (g.pa + 8) then faultAll s x .prot p
        else
          let (s, cp) := checkGlobal s x.core x.ctx x.exec true { w := true } [(0, p)]
          withChk s x cp fun ps =>
            let q := groupHead ps
            let h := g.word (16 + 8 * c)
            if (allReqs s x.core x.w).any fun r => r.line == q.line || r.line == g.line then s
            else if barred s x 1 q.line then faultAll (dropWord s x) x .prot p
            else if !usable s q.line true (some q.home) then wantLine s part q.line true (some q.home) (wordWho x 1)
            -- an atomic on a poisoned location changes nothing (R242)
            else if poisoned (peekLine s g.line).2 (h.pa % 128) 8 then
              retireNow (modWarp s x.core x.w fun w => notePoison w h.va) x
            else withChk s x (checkRace s x plainMods false true true [h, q]) fun _ =>
              let head := peek64 s h.pa
              let s := hashLanes s x 8 [(q, head), (h, p)]
              let s := if isShadow x.block then s else arenaPut (arenaPut s x q head) x h p
              let s := modCore s x.core fun co => l1DropLine (l1DropLine co g.line) q.line
              retireNow s x

end Sys2Proof.Machine
end

