-- ==== Sys2Proof/Machine/Crew.lean ====
section
/-! DEFINITION. Machine/Crew.lean: the crew family (R246-R262, R266, R423).  The phase state itself stands in
Machine/Work.lean; the events of the barrier units in Machine/Barrier.lean. -/

namespace Sys2Proof.Machine

/-- What a crew word comes to where its crew's phase state is kept. -/
inductive CrewRes
  | done (s : State) (wr : Option W32)
  | wait (s : State) (phase : Nat) (counted : Bool)
  /-- CRLEAVE waits for copies (R262). -/
  | drain (s : State)
  | trap (reason : Nat)
  /-- Not yet: the word is tried again. -/
  | again

/-- The crew that a handle register names in the context (R246, R254). -/
def crewAt (s : State) (ctx : Nat) (hv : W32) : Option (Nat × Crew) :=
  if hv.toNat ≥ 65536 then none
  else match crewOf s hv.toNat with
    | some c => if c.ctx == ctx then some (hv.toNat, c) else none
    | none => none

/-- CREW with its reason (R254). -/
def crewTrap (s : State) (x : Here) (hv : W32) (reason : Nat) : State :=
  faultAll s x .crew (hv.toNat % 65536 + reason * 65536)

/-- The launched warps of a block that have not ended (R255, R261). -/
def launched (co : Core) (b : Nat) : List (Nat × Warp) := co.warps.filter fun (_, w) => w.block == b && w.index < 16

def bothSlots (w : Warp) : Bool := w.a.st != .empty && w.b.st != .empty

/-- A member outside the issuing block. -/
def memberOutside (s : State) (x : Here) (h : Nat) : Bool :=
  (warpsOf s).any fun (c, _, y) => isMember y h && !(c == x.core && y.block == x.wp.block)

/-- Copies and matrix commands that use the block's scratch through its share crew's mapping (R262). -/
def mappedCopies (s : State) (core b : Nat) : Bool :=
  s.copies.any (fun (_, c) => c.slices.any fun y => y.srcOwn == some (core, b) || y.dstOwn == some (core, b)) ||
  (mtxCmds s).any (·.own == some (core, b))

/-! The words where the phase state is kept (R250, R254-R262). -/

def joinAct (s : State) (x : Here) (h : Nat) (c : Crew) : CrewRes :=
  if c.broken then .trap 2
  else if !isMember x.wp h && x.wp.crews.length ≥ 8 then .trap 5
  else if c.share then .trap 6
  else if isMember x.wp h then .done s none
  else if x.prov && memberOutside s x h then .again
  else .done (crewJoin (if c.core = x.core then s else makeRemote s h) h x.core x.w) none

def leaveAct (s : State) (x : Here) (h : Nat) (c : Crew) : CrewRes :=
  if !isMember x.wp h then .trap 3
  else if c.share then
    let ws := ((x.co.warps.filter fun (_, y) => y.block == x.wp.block && isMember y h).map (·.1))
    let s := ws.foldl (fun s w => crewLeave (copyForget s x.core w (some h)) h x.core w) s
    let s := dropEmptyCopies (revokeShare s x.core x.wp.block)
    if mappedCopies s x.core x.wp.block then .drain s else .done s none
  else .done (dropEmptyCopies (crewLeave (copyForget s x.core x.w (some h)) h x.core x.w)) none

/-- The checks an arrival makes, then arrive of R250; the phase in which the warp arrived. -/
def arriveRes (pub : Bool) (s : State) (x : Here) (h : Nat) (c : Crew) (f : State → Nat → CrewRes) : CrewRes :=
  if c.broken then .trap 2
  else match crewNext x.wp h with
    | none => .trap 3
    | some (next, _) =>
      if bothSlots x.wp then .trap 4
      else if next ≠ c.phase then .again
      else f (crewArrive s h x.core x.w pub) c.phase

def arriveAct (pub : Bool) (s : State) (x : Here) (h : Nat) (c : Crew) : CrewRes :=
  arriveRes pub s x h c fun s p => .done s (some (BitVec.ofNat 32 p))

def syncAct (pub : Bool) (s : State) (x : Here) (h : Nat) (c : Crew) : CrewRes :=
  arriveRes pub s x h c fun s p =>
    match crewOf s h with
    | some c' => if c'.phase = p then .wait s p true else .done s none
    | none => .done s none

def waitAct (b : W32) (s : State) (_x : Here) (_h : Nat) (c : Crew) : CrewRes :=
  if c.broken then .trap 2
  else
    let d := ((BitVec.ofNat 32 c.phase : W32) - b).toNat
    if d = 0 then .wait s c.phase false
    else if d < 2 ^ 31 then .done s none
    else .trap 7

def mapAct (s : State) (x : Here) (h : Nat) (c : Crew) : CrewRes :=
  let ws := launched x.co x.wp.block
  let mine := x.block.share.map (·.1)
  if c.broken then .trap 2
  else if (mine.isSome && mine != some h) || (c.share && clusterOf x.core != c.cluster) ||
      (c.share && mine.isNone && c.maps.length < 16 && ws.any fun (_, y) => !isMember y h && y.crews.length ≥ 8) then .trap 5
  else if !c.share then .trap 6
  else match x.block.share with
    | some (_, i) => .done s (some (BitVec.ofNat 32 i))
    | none =>
      if x.prov && memberOutside s x h then .again
      else match lowest (fun i => !c.maps.any fun m => m.1 == i) 16 with
      | none => .done s (some 0xFFFFFFFF)
      | some i =>
        let s := ws.foldl (fun s (w, y) => if isMember y h then s else crewJoin s h x.core w) s
        let s := modCrew s h fun c => { c with maps := c.maps ++ [(i, x.core, x.wp.block)] }
        .done (modBlock s x.core x.wp.block fun b => { b with share := some (h, i) }) (some (BitVec.ofNat 32 i))

/-- What a word needs besides its meaning: handle register, destination, and its part in ordering (R259). -/
structure CrewForm where
  h : BitVec 8
  d : Option (BitVec 8) := none
  /-- The word arrives with .pub. -/
  rel : Bool := false
  /-- The word completes with .pub. -/
  acq : Bool := false
  join : Bool := false
  act : State → Here → Nat → Crew → CrewRes

def pubOf (w : Crw) : Bool := w.opt == 1

/-- The crew words that consult a phase state. -/
def crewForm (wp : Warp) : Instr → Option CrewForm
  | .crjoin w => some { h := w.h, act := joinAct, join := true }
  | .crleave w => some { h := w.h, act := leaveAct }
  | .crsync w => some { h := w.h, act := syncAct (pubOf w), rel := pubOf w, acq := pubOf w }
  | .crarrive w => some { h := w.h, d := some w.d, act := arriveAct (pubOf w), rel := pubOf w }
  | .crwait w => some { h := w.h, act := waitAct (sget wp w.b.toNat), acq := pubOf w }
  | .crmap w => some { h := w.h, d := some w.d, act := mapAct }
  | _ => none

/-- A .pub arrival waits for the warp's copies and for what a release at its scope waits for (R259). -/
def pubReady (s : State) (x : Here) (sc : Scope) : Bool :=
  !(s.copies.any fun (_, c) => c.slices.any fun y => y.core == x.core && y.warp == x.w && !y.orphan) &&
  releaseReady s x sc

/-- What a completion does under .pub: whether an acquire at crew scope, resolved now, empties the L1 (R95, R259). -/
def CrewForm.wide (f : CrewForm) (s : State) (x : Here) : Option Bool :=
  if f.acq then some (acqInvalidates (effScope s x .crew)) else none

/-- The word is the last of its clause (R253). -/
def Here.last (x : Here) : Bool := x.p.words.length ≤ x.ws.length

/-- A crew word that is done: its register is written, its path goes on, under .pub as an acquire. -/
def crewDone (s : State) (x : Here) (wr : Option (Nat × W32)) (acq : Option Bool) : State :=
  let s := pubDone s x.core (acq.getD false)
  modWarp s x.core x.w fun w =>
    retireW (match wr with | some (d, v) => sset w d v | none => w) x.sl x.ws

/-- The path waits for a phase to complete, or for copies. -/
def crewWait (s : State) (core w : Nat) (sl : Slot) (k : Wait) : State :=
  modWarp s core w fun y => { modPath y sl fun p => { p with wait := k, unsig := p.unsig || !oneSlot y } with active := false }

/-- The word's message goes to where the phase state is kept, and the path waits for the answer; within a clause its
warp stays in the active set (R253, R423). -/
def crewPost (s : State) (x : Here) (h : Nat) (rel : Option Scope := none) (wide : Bool := false) : State :=
  let s := modUnit s (h / 8192) fun u =>
    { u with inbox := u.inbox ++ [{ handle := h, core := x.core, warp := x.w, slot := x.sl, rel := rel, wide := wide }] }
  modWarp (waitAt s x .answer) x.core x.w fun w => { w with active := x.wp.active && !x.last }

/-- A shadow block ends at a crew word that names another crew than its block crew (R422). -/
def foreignCrew (x : Here) (hv : W32) : Bool := isShadow x.block && hv.toNat != x.block.bcrew

/-- The outcome of a word on a local barrier; one that must wait goes on as a message (R253). -/
def crewLocal (s : State) (x : Here) (f : CrewForm) (h : Nat) (r : CrewRes) : State :=
  let wide := f.wide s x
  match r with
  | .done s wr => crewDone s x (f.d.bind fun d => wr.map fun v => (d.toNat, v)) wide
  | .wait s p counted => crewWait s x.core x.w x.sl (.crew h p wide counted)
  | .drain s => crewWait s x.core x.w x.sl .drain
  | .trap reason => crewTrap s x (BitVec.ofNat 32 h) reason
  | .again => crewPost s x h none (wide.getD false)

/-- The word goes on at its crew where the phase state is kept, its release done (R249, R423): a join of a warp of
another core takes the barrier to its unit first, once its checks have passed. -/
def crewAct (s : State) (x : Here) (f : CrewForm) (h : Nat) (c : Crew) : State :=
  if c.remote then crewPost s x h none ((f.wide s x).getD false)
  else match f.act s x h c with
    | .done t wr => if f.join && c.core != x.core then crewPost (makeRemote s h) x h else crewLocal s x f h (.done t wr)
    | r => crewLocal s x f h r

/-- A word on its crew: at once on a local barrier, else by message (R249, R423).  An arrival with .pub is sent only
once its release has finished (R263); the checks on a local barrier come first (R254). -/
def crewGo (s : State) (x : Here) (f : CrewForm) : State :=
  let hv := sget x.wp f.h.toNat
  if foreignCrew x hv then failBlock s x.core x.wp.block []
  else match crewAt s x.ctx hv with
  | none => crewTrap s x hv 1
  | some (h, c) =>
    if !f.rel then crewAct s x f h c
    else
      let sc := effScope s x .crew
      match c.remote, f.act s x h c with
      | false, .trap reason => crewTrap s x hv reason
      | _, _ =>
        if pubReady s x sc then crewAct (advanceEpoch s x.ctx sc) x f h c
        else crewPost s x h (some sc) ((f.wide s x).getD false)

/-- A crew word; `ends` for those that must stand last in their clause (R253). -/
def crewWord (i : Instr) (ends : Bool) (s : State) : Host.Outcome State Fault Refusal :=
  word i s (fun s x => match crewForm x.wp i with | some f => crewGo s x f | none => s) fun x => ends && !x.last

def execCrjoin (w : Crw) (s : State) : Host.Outcome State Fault Refusal := crewWord (.crjoin w) true s
def execCrleave (w : Crw) (s : State) : Host.Outcome State Fault Refusal := crewWord (.crleave w) true s
def execCrsync (w : Crw) (s : State) : Host.Outcome State Fault Refusal := crewWord (.crsync w) true s
def execCrarrive (w : Crw) (s : State) : Host.Outcome State Fault Refusal := crewWord (.crarrive w) false s
def execCrwait (w : Crw) (s : State) : Host.Outcome State Fault Refusal := crewWord (.crwait w) true s
def execCrmap (w : Crw) (s : State) : Host.Outcome State Fault Refusal := crewWord (.crmap w) true s

/-- CRNEW (R255): the handle, or 0 with nothing changed. -/
def newCrew (s : State) (x : Here) (share : Bool) : Option (Nat × State) :=
  let u := chipletOf x.core
  let ws := if share then launched x.co x.wp.block else [(x.w, x.wp)]
  if ws.any (fun (_, y) => y.crews.length ≥ 8) || x.wp.crews.length ≥ 8 || (share && x.block.share.isSome) then none
  else
    let c : Crew :=
      { ctx := x.ctx, members := ws.length, remote := share || localCrews s x.core ≥ 16, share := share,
        cluster := clusterOf x.core, core := x.core, maps := if share then [(0, x.core, x.wp.block)] else [] }
    match allocCrew s u c with
    | none => none
    | some (h, s) =>
      let s := ws.foldl (fun s (w, _) => modWarp s x.core w fun y => setNext y h 0 false) s
      some (h, if share then modBlock s x.core x.wp.block fun b => { b with share := some (h, 0) } else s)

def execCrnew (w : Crw) (s : State) : Host.Outcome State Fault Refusal :=
  word (.crnew w) s fun s x =>
    let (h, s) := (newCrew s x (w.opt == 1)).getD (0, s)
    modWarp s x.core x.w fun y => retireW (sset y w.d.toNat (BitVec.ofNat 32 h)) x.sl x.ws

/-- CRQUERY's snapshot (R260). -/
def crewQuery (s : State) (x : Here) (hv : W32) (sel : Nat) : W32 :=
  match crewAt s x.ctx hv with
  | none => 0xFFFFFFFF
  | some (h, c) =>
    match sel with
    | 0 => BitVec.ofNat 32 c.members
    | 1 => BitVec.ofNat 32 c.phase
    | 2 => BitVec.ofNat 32 c.arrived
    | 3 => BitVec.ofNat 32 ((if c.remote then 1 else 0) + (if c.share then 2 else 0) + h / 8192 * 4)
    | _ => match x.block.share with
      | some (k, i) => if k = h then BitVec.ofNat 32 i else 0xFFFFFFFF
      | none => 0xFFFFFFFF

def execCrquery (w : Crw) (s : State) : Host.Outcome State Fault Refusal :=
  word (.crquery w) s fun s x =>
    if foreignCrew x (sget x.wp w.h.toNat) then failBlock s x.core x.wp.block []
    else retire s x (sset x.wp w.d.toNat (crewQuery s x (sget x.wp w.h.toNat) w.opt.toNat))

end Sys2Proof.Machine
end

