-- ==== Sys2Proof/Machine/Copy.lean ====
section
/-! DEFINITION. Machine/Copy.lean: the copy family and the copy engines (R267-R290). -/

namespace Sys2Proof.Machine

/-- Split an address range at multiples of a power of two: each piece's address and length. -/
def pieces (size a n : Nat) : List (Nat × Nat) :=
  if n = 0 then []
  else (List.range ((a + n - 1) / size - a / size + 1)).map fun i =>
    let lo := max a ((a / size + i) * size)
    (lo, min (a + n) ((a / size + i + 1) * size) - lo)

/-! Tile descriptors (R268, R269). -/

def descNat (bs : List Byte) (off n : Nat) : Nat := leNat ((bs.drop off).take n)

def descOf (bs : List Byte) : TDesc :=
  { base := descNat bs 0 6, space := descNat bs 6 1 % 16, log2es := descNat bs 6 1 / 16, columns := descNat bs 8 2,
    rows := descNat bs 10 2, stride := descNat bs 12 4, extent := descNat bs 16 4 }

def rowLen (d : TDesc) : Nat := d.columns * 2 ^ d.log2es

/-- A malformed descriptor, by its role (R269). -/
def descBad (bs : List Byte) (dst : Bool) : Bool :=
  let d := descOf bs
  let es := 2 ^ d.log2es
  descNat bs 7 1 ≠ 0 || descNat bs 20 12 ≠ 0 ||
  !(d.space == 1 || d.space == 2 || d.space == 4 || d.space == 5 || (dst && d.space == 7)) ||
  d.log2es > 4 || d.columns = 0 || d.rows = 0 || d.base % es ≠ 0 || d.stride % es ≠ 0 ||
  (d.rows > 1 && d.stride < rowLen d) || d.extent < (d.rows - 1) * d.stride + rowLen d ||
  (if d.space = 1 then d.base + d.extent > 2 ^ 48 else d.base ≥ 2 ^ 32)

/-- The descriptors of one copy must agree in rows and row length. -/
def descDiffer (a b : TDesc) : Bool := a.rows != b.rows || rowLen a != rowLen b

/-! Allocations (R270). -/

/-- A crust replica of a block that an extent meets. -/
def replicaHit (b : Block) (off n : Nat) : Option Nat :=
  (b.claims.find? fun c => overlaps off n (recField c.record 0x20 4) (replicaLen c.record)).map fun c =>
    max off (recField c.record 0x20 4)

/-- The peer of a crew-shared offset: core, block slot, block. -/
def peerOf (s : State) (b : Block) (a : Nat) : Option (Nat × Nat × Block) :=
  match b.share with
  | none => none
  | some (h, _) =>
    match (crewOf s h).bind fun c => c.maps.find? fun m => m.1 == a / 2 ^ 20 % 16 with
    | none => none
    | some (_, c, k) => (tget (coreOf s c).blocks k).map fun y => (c, k, y)

/-- The failure of a descriptor's extent, with its sector address. -/
def allocFail (s : State) (x : Here) (d : TDesc) (dst : Bool) : Option (FClass × Nat) :=
  let b := x.block
  let beyond (size : Nat) : Option (FClass × Nat) :=
    if d.base + d.extent > size then some (.scrbnd, max d.base size) else none
  match d.space with
  | 2 =>
    (match beyond (4096 * b.scratchGran) with
     | some f => some f
     | none => if dst then (replicaHit b d.base d.extent).map fun a => (.prot, a) else none)
  | 4 => beyond (16384 * b.colGran.length)
  | 5 =>
    if d.base ≥ 2 ^ 24 then some (.scrbnd, d.base)
    else match peerOf s b d.base with
      | none => some (.crew, d.base)
      | some (_, _, y) =>
        let off := d.base % 2 ^ 20
        let up := d.base - off
        if off + d.extent > 4096 * y.scratchGran then some (.scrbnd, up + max off (4096 * y.scratchGran))
        else if dst then (replicaHit y off d.extent).map fun a => (.prot, up + a) else none
  | 7 =>
    let t0 := d.base / 8192
    let n := (d.base + d.extent - 1) / 8192 - t0 + 1
    ((List.range n).find? fun i => t0 + i ≥ 64 || (tget x.co.slotOwner (t0 + i)).isNone).map fun i =>
      (.scrbnd, max d.base (8192 * (t0 + i)))
  | _ => none

/-! Issue (R273-R275, R284, R286). -/

/-- A descriptor: registers, or its bytes at the homes. -/
def withDesc (s : State) (x : Here) (i : Nat) (mem : Bool) (n : BitVec 8) (k : State → List Byte → Nat → State) : State :=
  if !mem then k s ((List.range 8).flatMap fun i => leBytes 4 (sget x.wp (n.toNat + i)).toNat) 0
  else
    let a := (sget64 x.wp n.toNat).toNat
    let (s, c) := checkGlobal s x.core x.ctx x.exec true { r := true } [(0, a)]
    withChk s x c fun ls =>
      wordBytes s x i 32 (groupHead ls) fun s bs bad => if bad then poisonTrap s x a else k s bs a

/-- Copies of a context on a core that are not complete: one place for each slice it has supplied (R284). -/
def coreCopies (s : State) (core ctx : Nat) : Nat :=
  s.copies.foldl (fun n (_, c) =>
    if c.ctx == ctx && c.cmd.isNone then n + (c.slices.filter fun y => y.core == core).length else n) 0

/-- Copies that an engine holds; one that a save has withdrawn is not on it (R284, R287). -/
def engineCopies (s : State) (e : Nat) : Nat := (s.copies.filter fun (_, c) => c.engine == e && !withdrawn c).length

/-- The gathering copy of an identity. -/
def gatheringOf (s : State) (ctx h rid : Nat) : Option (Nat × Copy) :=
  s.copies.find? fun (_, c) => c.st == .gathering && c.ctx == ctx && c.handle == h && c.rid == rid

def suppliedBy (c : Copy) (core w : Nat) : Bool := c.slices.any fun y => y.core == core && y.warp == w && !y.orphan

/-- The crew checks of a copy word: reasons 2, 3 and 8 of R254. -/
def copyReason (s : State) (x : Here) (h : Nat) (c : Crew) (rid : Nat) : Option Nat :=
  if c.broken then some 2
  else if !isMember x.wp h then some 3
  else match gatheringOf s x.ctx h rid with
    | some (_, k) => if suppliedBy k x.core x.w then some 8 else none
    | none => none

/-- Whether a global page of the rows is homed on another agent (R286); a table line that must be fetched first. -/
def remotePages (s : State) (x : Here) (d : TDesc) : Bool × Option Nat :=
  if d.space = 1 then
    let rs := (rangePages d.base d.extent).map fun p => (p.2, walk s x.ctx p.2)
    (rs.any fun r => match r.2 with | .ok leaf level => isRemote (leafPa leaf level r.1 / 128) | _ => false,
     rs.findSome? fun r => match r.2 with | .busy l => some l | _ => none)
  else (false, none)

/-- A new slice of the issuing warp. -/
def sliceFor (s : State) (x : Here) (w : Cpy) (src dst : TDesc) (first count : Nat) : CSlice :=
  let own (d : TDesc) := if d.space = 5 then (peerOf s x.block d.base).map fun p => (p.1, p.2.1) else none
  { core := x.core, warp := x.w, block := x.wp.block, src := src, dst := dst, firstRow := first, count := count,
    tok := if w.tok = 0xFF then none else some w.tok.toNat,
    sta := if w.sta = 0xFF then none else some (sget64 x.wp w.sta.toNat).toNat,
    stv := if w.sta = 0xFF then 0 else sget64 x.wp w.stv.toNat,
    prov := x.tag, gid := x.gid, pc := x.p.pc, launch := x.block.launch, srcOwn := own src, dstOwn := own dst }

/-- The word is accepted into its copy. -/
def copyAccept (s : State) (x : Here) (w : Cpy) (id : Nat) (c : Copy) : State :=
  let s := { s with copies := tins s.copies id c, nextReq := s.nextReq + 1 }
  let s := modCore s x.core fun co => { co with copies := co.copies + 1 }
  modWarp s x.core x.w fun y =>
    retireW { y with unsealed := y.unsealed ++ [id],
                     pend := if w.tok = 0xFF then y.pend else sins y.pend (256 + w.tok.toNat) } x.sl x.ws

/-- Step 6 of R273 and the joining of R274; `crew` is the handle, if any. -/
def copySupply (s : State) (x : Here) (w : Cpy) (cond : Bool) (src dst : TDesc) (first count : Nat)
    (crew : Option Nat) : State :=
  let rid := w.rid.toNat
  let sl := sliceFor s x w src dst first count
  let far := [src, dst].map (remotePages s x)
  let held := x.prov && (cond || sl.sta.isSome || far.any (·.1) ||
    (match crew with | some h => memberOutside s x h | none => false))
  let busy := if x.prov then far.findSome? (·.2) else none
  match allocFail s x src false, allocFail s x dst true with
  | some (c, a), _ => faultAll s x c a
  | none, some (c, a) => faultAll s x c a
  | none, none =>
    if held then s
    else if busy.isSome then wantLine s (ctxOf s x.ctx).part (busy.getD 0) false
    else if coreCopies s x.core x.ctx ≥ 64 then pushWait s x
    else match crew with
      | none =>
        let e := clusterOf x.core
        if engineCopies s e ≥ 1024 then pushWait s x
        else
          let c : Copy := { ctx := x.ctx, engine := e, handle := 0, rid := rid, cond := cond, members := [],
                            slices := [sl], st := .ready, order := s.nextReq }
          copyAccept { s with nextCopy := s.nextCopy + 1 } x w s.nextCopy c
      | some h =>
        let add (c : Copy) : Copy :=
          let ms := c.members.filter (· != (x.core, x.w))
          { c with members := ms, slices := c.slices ++ [sl], st := if ms.isEmpty && !withdrawn c then .ready else .gathering,
                   order := s.nextReq }
        match gatheringOf s x.ctx h rid with
        | some (id, c) =>
          if c.cond != cond then faultAll s x .tdesc
          else if !c.members.contains (x.core, x.w) then s
          else copyAccept s x w id (add c)
        | none =>
          let ms := (warpsOf s).filterMap fun (k, v, y) => if isMember y h then some (k, v) else none
          let low := ms.foldl (fun a m => min a m.1) x.core
          let e := clusterOf low
          if engineCopies s e ≥ 1024 then pushWait s x
          else
            let c : Copy := { ctx := x.ctx, engine := e, handle := h, rid := rid, cond := cond, members := ms,
                              slices := [], st := .gathering }
            copyAccept { s with nextCopy := s.nextCopy + 1 } x w s.nextCopy (add c)

/-- Steps 3 to 5 of R273; `answered` when a remote barrier has made the crew checks (R423). -/
def copyChecks (s : State) (x : Here) (w : Cpy) (cond answered : Bool) (sb db : List Byte) (sa da : Nat) : State :=
  let src := descOf sb
  let dst := descOf db
  let first := if w.sl = 0xFF then 0 else (sget x.wp w.sl.toNat).toNat
  let count := if w.sl = 0xFF then src.rows else (sget x.wp (w.sl.toNat + 1)).toNat
  let st := (sget64 x.wp w.sta.toNat).toNat
  if descBad sb false then faultAll s x .tdesc sa
  else if descBad db true then faultAll s x .tdesc da
  else if descDiffer src dst || first + count > src.rows then faultAll s x .tdesc sa
  else if cond && dst.space = 1 && overlaps st 8 dst.base dst.extent then faultAll s x .tdesc da
  else if w.sta ≠ 0xFF && st % 8 ≠ 0 then faultAll s x .misalign st
  else if w.sta ≠ 0xFF && st ≥ 2 ^ 48 then faultAll s x .prot st
  else if w.h = 0xFF then copySupply s x w cond src dst first count none
  else
    let hv := sget x.wp w.h.toNat
    match crewAt s x.ctx hv with
    | none => crewTrap s x hv 1
    | some (h, c) =>
      if c.remote && !answered then crewPost s x h
      else match if answered then none else copyReason s x h c w.rid.toNat with
        | some r => crewTrap s x hv r
        | none => copySupply s x w cond src dst first count (some h)

/-- A copy word from its operands; it goes ahead once the warp's earlier accesses are performed (R275). -/
def copyBody (s : State) (x : Here) (w : Cpy) (cond answered : Bool) : State :=
  let mis (n : BitVec 8) : Bool := w.mem && (sget64 x.wp n.toNat).toNat % 32 != 0
  if memHeld x true || !releaseReady s x .pkg then s
  else if mis w.sd then faultAll s x .misalign (sget64 x.wp w.sd.toNat).toNat
  else if mis w.dd then faultAll s x .misalign (sget64 x.wp w.dd.toNat).toNat
  else withDesc s x 0 w.mem w.sd fun s sb sa =>
    withDesc s x 1 w.mem w.dd fun s db da => copyChecks s x w cond answered sb db sa da

def execBcopy (w : Cpy) (s : State) : Host.Outcome State Fault Refusal :=
  word (.bcopy w) s fun s x => copyBody s x w false false

def execBcopyc (w : Cpy) (s : State) : Host.Outcome State Fault Refusal :=
  word (.bcopyc w) s fun s x => copyBody s x w true false

/-! Batches, queries, cancels (R280-R282). -/

def liveCopy (s : State) (id : Nat) : Bool := (tget s.copies id).isSome

def execBseal (w : Bat) (s : State) : Host.Outcome State Fault Refusal :=
  word (.bseal w) s fun s x =>
    let k := w.k.toNat
    retire s x { x.wp with unsealed := [], batches := tput [] x.wp.batches k (tgetD x.wp.batches k [] ++ x.wp.unsealed) }

def execBwait (w : Bat) (s : State) : Host.Outcome State Fault Refusal :=
  word (.bwait w) s (fun s x =>
    let k := w.k.toNat
    if (tgetD x.wp.batches k []).any (liveCopy s) then s
    else retire s x { x.wp with batches := tput [] x.wp.batches k [] }) fun x => !x.last

def copyQuery (s : State) (x : Here) (sel : Nat) : Nat :=
  match sel with
  | 0 => (s.copies.filter fun (_, c) => suppliedBy c x.core x.w).length
  | 1 => coreCopies s x.core x.ctx
  | 2 => 64 - coreCopies s x.core x.ctx
  | _ =>
    let b (k : Nat) := if (tgetD x.wp.batches k []).any (liveCopy s) then 2 ^ k else 0
    (List.range 8).foldl (fun a k => a + b k) (if x.wp.unsealed.any (liveCopy s) then 256 else 0)

def execBquery (w : Bat) (s : State) : Host.Outcome State Fault Refusal :=
  word (.bquery w) s fun s x => retire s x (sset x.wp w.d.toNat (BitVec.ofNat 32 (copyQuery s x w.k.toNat)))

/-- Write bytes at a virtual address of a context, page by page. -/
def writeVa (s : State) (ctx va : Nat) (bs : List Byte) : State :=
  (pieces 65536 va bs.length).foldl (fun s p => ctxPut s ctx p.1 ((bs.drop (p.1 - va)).take p.2)) s

/-- The copy record of a saved member shows that the copy is complete, with its status (R287, R288). -/
def noteRecord (s : State) (ctx : Nat) (y : CSlice) (status : W32) : State :=
  match y.rec' with
  | some (va, st) => ctxPut (ctxPut s ctx (va + 0x30) (leBytes 4 status.toNat)) ctx (va + 0x36) (leBytes 2 st)
  | none => s

/-- Deliver a status: every token receives it, and the copy is complete (R277, R279). -/
def finishCopy (s : State) (id : Nat) (status : W32) : State :=
  match tget s.copies id with
  | none => s
  | some c =>
    let s := { s with copies := tdel s.copies id }
    c.slices.foldl (fun s y =>
      let s := noteRecord s c.ctx y status
      match y.tok with
      | some t =>
        if y.orphan then s
        else modWarp s y.core y.warp fun w => { sset w t status with pend := sdel w.pend (256 + t) }
      | none => s) s

/-- CRLEAVEs that waited for copies into their block's scratch (R262). -/
def drainDone (s : State) : State :=
  (warpsOf s).foldl (fun s (c, w, y) =>
    [Slot.a, Slot.b].foldl (fun s sl =>
      if (pathOf y sl).wait == .drain && !mappedCopies s c y.block then
        modWarp s c w fun y => retireW y sl (unitAt (pathOf y sl))
      else s) s) s

def execBcancel (w : Bat) (s : State) : Host.Outcome State Fault Refusal :=
  word (.bcancel w) s fun s x =>
    let rid := (sget x.wp w.a.toNat).toNat
    let hit := s.copies.find? fun (_, c) => c.st != .moved && c.cmd.isNone && c.rid == rid && suppliedBy c x.core x.w
    let s := match hit with | some (id, _) => drainDone (finishCopy s id 6) | none => s
    modWarp s x.core x.w fun y => retireW (sset y w.d.toNat (if hit.isSome then 1 else 0)) x.sl x.ws

/-! The start of a copy (R276). -/

/-- Rows of a slice on one side: offset or address, and length. -/
def sliceRows (y : CSlice) (d : TDesc) : List (Nat × Nat) :=
  (List.range y.count).map fun i => (d.base + (y.firstRow + i) * d.stride, rowLen d)

/-- The version word of a conditional copy: its address and expected value (R274). -/
def versionOf (c : Copy) : Option (Nat × W64) :=
  match c.slices with
  | y :: _ => if c.cond then y.sta.map fun a => (a, y.stv) else none
  | [] => none

/-- Every page that the copy touches, with what it needs there. -/
def copyPages (c : Copy) : List (Nat × Need) :=
  let side (y : CSlice) (d : TDesc) (n : Need) : List (Nat × Need) :=
    if d.space = 1 then (sliceRows y d).flatMap fun r => (pieces 65536 r.1 r.2).map fun p => (p.1, n) else []
  (c.slices.flatMap fun y =>
    side y y.src { r := true } ++ side y y.dst { w := true } ++
    (match y.sta with | some a => if c.cond then [] else [(a, { w := true })] | none => [])) ++
  (match versionOf c with
   | some (a, _) => [(a, { r := true, w := true, atomic := true })]
   | none => [])

inductive CopyChk
  | ok
  | fail (code : Nat)
  | busy (line : Nat)

/-- Steps 1 and 2: translation and permission of every page, then windows. -/
def pageStep (s : State) (ctx : Nat) : List (Nat × Need) → CopyChk
  | [] => .ok
  | (va, n) :: t =>
    match walk s ctx va with
    | .busy l => .busy l
    | .bad => .fail 2
    | .ok leaf _ => if n.ok leaf then pageStep s ctx t else .fail 3

def windowStep (s : State) (ctx : Nat) : List (Nat × Need) → CopyChk
  | [] => .ok
  | (va, n) :: t =>
    let part := (ctxOf s ctx).part
    match walk s ctx va with
    | .ok leaf level =>
      let pa := leafPa leaf level va
      if ownerBad s part pa || formatBad s pa n.atomic then .fail 4
      else if sealBad s part pa leaf then .fail 5
      else windowStep s ctx t
    | _ => windowStep s ctx t

/-- How an access of an engine finds the page of a virtual address: its leaf entry and level. -/
abbrev Pages := Nat → Option (W64 × Nat)

/-- Through the context's tables as they stand. -/
def tablesNow (s : State) (ctx : Nat) : Pages := fun va =>
  match walk s ctx va with
  | .ok leaf level => some (leaf, level)
  | _ => none

/-- The pages that a copy found at its start (R276): they stand until it completes (R289). -/
def foundPages (s : State) (c : Copy) : Tab (W64 × Nat) :=
  (copyPages c).foldl (fun t p =>
    match tablesNow s c.ctx p.1 with
    | some x => tins t (p.1 / 65536) x
    | none => t) []

def pagesOf (c : Copy) : Pages := fun va => tget c.pages (va / 65536)

/-- A global address through its page. -/
def gPa (pg : Pages) (va : Nat) : Nat :=
  match pg va with
  | some (leaf, level) => leafPa leaf level va
  | none => 0

def gHome (s : State) (ctx : Nat) (pg : Pages) (va : Nat) : Nat :=
  match pg va with
  | some (leaf, level) => leafHome s (ctxOf s ctx).part leaf (leafPa leaf level va / 128)
  | none => 0

/-- The place of a local offset of a slice. -/
def sliceLoc (s : State) (y : CSlice) (d : TDesc) (own : Option (Nat × Nat)) (off : Nat) : Loc :=
  match d.space with
  | 2 => .scr y.core y.block off
  | 4 =>
    let b := (tget (coreOf s y.core).blocks y.block).getD {}
    .bank b.bankCol (16384 * (b.colGran.getD (off / 16384) 0) + off % 16384)
  | 5 => (match own with | some (c, b) => .scr c b (off % 2 ^ 20) | none => .scr y.core y.block off)
  | _ => .tile y.core off

/-- Physical ranges of a side: space, unit, start and length. -/
def physRanges (s : State) (ctx : Nat) (y : CSlice) (d : TDesc) (own : Option (Nat × Nat)) : List (Nat × Nat × Nat) :=
  (sliceRows y d).flatMap fun r =>
    if d.space = 1 then (pieces 65536 r.1 r.2).map fun p => (0, gPa (tablesNow s ctx) p.1, p.2)
    else (pieces 16384 r.1 r.2).map fun p =>
      match sliceLoc s y d own p.1 with
      | .scr c b o => (1 + 4 * (1024 * c + b), o, p.2)
      | .bank c o => (2 + 4 * c, o, p.2)
      | .tile c o => (3 + 4 * c, o, p.2)
      | .reg c _ _ o => (4 * c + 4, o, p.2)

/-- Step 3: a range read may not overlap a range written. -/
def copyOverlap (s : State) (c : Copy) : Bool :=
  let rd := c.slices.flatMap fun y => physRanges s c.ctx y y.src y.srcOwn
  let wr := c.slices.flatMap fun y => physRanges s c.ctx y y.dst y.dstOwn
  rd.any fun a => wr.any fun b => a.1 == b.1 && overlaps a.2.1 a.2.2 b.2.1 b.2.2

/-! Payload (R276, R278). -/

/-- The copy, among the units that ask for lines. -/
def copyWho (id : Nat) : Nat := 4 * id + 1

/-- The lines of a global range with their homes. -/
def rangeLines (s : State) (ctx : Nat) (pg : Pages) (a n : Nat) : List (Nat × Nat) :=
  (pieces 128 a n).map fun p => (gPa pg p.1 / 128, gHome s ctx pg p.1)

/-- A row as bytes with their poison, as a unit that may read its lines sees it; with its own block's provisional stores. -/
def readRow (s : State) (ctx : Nat) (pg : Pages) (who : Nat) (y : CSlice) (r : Nat × Nat) : List (Byte × Bool) :=
  if y.src.space = 1 then
    (pieces 128 r.1 r.2).flatMap fun p =>
      let pa := gPa pg p.1
      let (d, bad) := overlayProv (sliceOf s (gHome s ctx pg p.1)) y.prov (pa / 128) (unitLine s (pa / 128) who)
      (List.range p.2).map fun i => (byteOf d (pa % 128 + i), bad.getLsbD ((pa % 128 + i) / 32))
  else (List.range r.2).map fun i =>
    let x := sliceLoc s y y.src y.srcOwn (r.1 + i)
    (locByte s x, locPoison s x)

/-- Whether a slice belongs to a shadow block (R422). -/
def sliceShadow (s : State) (y : CSlice) : Bool :=
  match tget (coreOf s y.core).blocks y.block with
  | some b => (match b.shadow with | .shadow _ => y.core < 1024 | _ => false)
  | none => false

/-- The detector's setting for a write of an engine: a conflict is always logged (R285). -/
def engineRace (s : State) (ctx : Nat) (pg : Pages) (y : CSlice) (va scope : Nat) : Option Race :=
  let leaf := match pg va with | some x => x.1 | none => 0
  (raceOf s ctx y.gid y.pc va leaf scope).map fun r =>
    { r with trap := false, vas := (List.range 4).map fun i => (i, va / 128 * 128 + 32 * i) }

/-- Bytes for one global line, as an engine writes them. -/
def pieceWrite (s : State) (ctx : Nat) (pg : Pages) (y : CSlice) (va scope : Nat) (bs : List (Byte × Bool)) : UnitWrite :=
  let pa := gPa pg va
  let off := pa % 128
  let n := bs.length
  { line := pa / 128, home := gHome s ctx pg va, data := fieldLine off n (leNat (bs.map (·.1))), mask := fieldMask off n,
    poison := ofBits 4 fun k =>
      (List.range n).any fun i => (off + i) / 32 == k && (match bs[i]? with | some b => b.2 | none => false),
    race := engineRace s ctx pg y va scope }

/-- An engine's write of pieces of global lines: only hashed for a shadow block (R422), into provisional lines for a
provisional one while its stores count (R286), else by way of the homes. -/
def writePieces (s : State) (ctx who : Nat) (pg : Pages) (y : CSlice) (ps : List (Nat × List (Byte × Bool))) : Got :=
  let ws := ps.map fun p => pieceWrite s ctx pg y p.1 0 p.2
  let hash (s : State) : State :=
    if y.core < 1024 && screened s y.core y.warp then
      ps.foldl (fun s p => modWarp s y.core y.warp fun w => hashStore w p.1 p.2.length (leNat (p.2.map (·.1)))) s
    else s
  if sliceShadow s y then .go (hash s)
  else match y.prov with
    | some tag =>
      if !provLive s tag then .go (hash s)
      else .go (ws.foldl (fun s w =>
        let r : Req := { core := y.core, warp := y.warp, line := w.line, home := w.home, act := .probe, race := w.race }
        addProv s w.home r (roundPacked s w.line w.data) w.mask w.poison tag) (hash s))
    | none =>
      match unitWrites s (ctxOf s ctx).part who ws with
      | .go s => .go (hash s)
      | r => r

/-- A row into local storage; a lane word takes poison when a poisoned byte comes into it, and loses it when it is
covered whole without (R243, R278). -/
def writeLocal (s : State) (y : CSlice) (off : Nat) (bs : List (Byte × Bool)) : State :=
  let n := bs.length
  let badWord (k : Nat) : Bool :=
    let mine := (List.range n).filter fun i => (off + i) / 4 == k
    mine.any (fun i => match bs[i]? with | some b => b.2 | none => false) ||
    (mine.length < 4 && locPoison s (sliceLoc s y y.dst y.dstOwn (4 * k)))
  ((List.range n).zip bs).foldl (fun t (i, b) =>
    locPut t (sliceLoc s y y.dst y.dstOwn (off + i)) b.1 (badWord ((off + i) / 4))) s

/-- An aligned 16-byte part of a row's destination: its slice, where its source begins, and the bytes of the row from
there on (R276, R370). -/
structure Part16 where
  idx : Nat
  y : CSlice
  src : Nat
  dst : Nat
  len : Nat
  rest : Nat

/-- The parts of a copy, in ascending order of each row. -/
def copyParts (c : Copy) : List Part16 :=
  ((List.range c.slices.length).zip c.slices).flatMap fun (i, y) =>
    ((sliceRows y y.src).zip (sliceRows y y.dst)).flatMap fun (p, q) =>
      (pieces 16 q.1 q.2).map fun d =>
        { idx := i, y := y, src := p.1 + (d.1 - q.1), dst := d.1, len := d.2, rest := q.2 - (d.1 - q.1) }

/-- The copy has ended with a code, or every part is written. -/
def copyMoved (c : Copy) : Bool := c.status.toNat % 256 != 0 || (copyParts c).length ≤ c.parts

/-- A provisional line of the destination would be a fifth in its set (R350). -/
def partFull (s : State) (c : Copy) (y : CSlice) (va : Nat) : Bool :=
  match y.prov with
  | none => false
  | some tag =>
    y.dst.space == 1 && provLive s tag &&
    !provRoom (sliceOf s (gHome s c.ctx (pagesOf c) va)) (gPa (pagesOf c) va / 128) tag

/-- An access of a copy to its member's column bank waits over a frozen bus (R338). -/
def busHolds (s : State) (y : CSlice) (d : TDesc) : Bool :=
  d.space == 4 && busFrozen s y.core ((tget (coreOf s y.core).blocks y.block).getD {}).bankCol

def copyEnd (s : State) (id : Nat) (status : W32) (locked : Bool) : State :=
  { s with copies := tmod s.copies id fun c => { c with st := .moved, status := status, locked := locked } }

/-- The source bytes that a part lacks are read, one aligned 16-byte part after the other, each once (R275). -/
def readAhead (id : Nat) (p : Part16) : Nat → State → Got
  | 0, s => .go s
  | n + 1, s =>
    match tget s.copies id with
    | none => .wait s
    | some c =>
      let got := c.ahead.length
      if got ≥ p.len then .go s
      else if busHolds s p.y p.y.src then .wait s
      else
        let a := p.src + got
        let k := min (16 - a % 16) (p.rest - got)
        let ls := if p.y.src.space = 1 then rangeLines s c.ctx (pagesOf c) a k else []
        match unitReads s (ctxOf s c.ctx).part (copyWho id) ls with
        | .go s =>
          let bs := readRow s c.ctx (pagesOf c) (copyWho id) p.y (a, k)
          let s := dropAnswers s (copyWho id)
          readAhead id p n { s with copies := tmod s.copies id fun c =>
            { c with ahead := c.ahead ++ bs, status := if bs.any (·.2) then c.status ||| 0x100 else c.status } }
        | r => r

/-- A part that has been read is written: an access of its own in the order of its home (R88, R370). -/
def writePart (s : State) (id : Nat) (c : Copy) (p : Part16) : Got :=
  let bs := c.ahead.take p.len
  let wrote : Got :=
    if partFull s c p.y p.dst || busHolds s p.y p.y.dst then .wait s
    else if p.y.dst.space ≠ 1 then .go (writeLocal s p.y p.dst bs)
    else writePieces s c.ctx (copyWho id) (pagesOf c) p.y
      ((pieces 128 p.dst p.len).map fun d => (d.1, (bs.drop (d.1 - p.dst)).take d.2))
  let bad := ((List.range bs.length).zip bs).filterMap fun (i, b) => if b.2 then some (p.idx, p.dst + i) else none
  match wrote with
  | .go s => .go { s with copies := tmod s.copies id fun c =>
      { c with parts := c.parts + 1, ahead := c.ahead.drop p.len, bad := c.bad ++ bad } }
  | r => r

/-- One part moves; it waits while a line it needs is with another agent (log 16). -/
def movePart (s : State) (id : Nat) (p : Part16) : State :=
  match readAhead id p 3 s with
  | .wait s => s
  | .prot s => copyEnd s id 3 false
  | .go s =>
    match tget s.copies id with
    | none => s
    | some c => match writePart s id c p with
      | .go s | .wait s => s
      | .prot s => copyEnd s id 3 false

/-- An engine writes the next part of a copy that it has started. -/
def copyPart (s : State) (id : Nat) : State :=
  match tget s.copies id with
  | none => s
  | some c =>
    if c.st != .moved || copyMoved c then s
    else match (copyParts c)[c.parts]? with
      | some p => movePart s id p
      | none => s

/-- The parts that are left, one after the other. -/
def movePayload (s : State) (id : Nat) : State :=
  match tget s.copies id with
  | some c => foldN ((copyParts c).length - c.parts) (fun _ s => copyPart s id) s
  | none => s

/-- The copy has started: its pages are found, and its payload is to be moved. -/
def copyBegin (s : State) (id : Nat) (pages : Tab (W64 × Nat)) (locked : Bool) : State :=
  { s with copies := tmod s.copies id fun c =>
      { c with st := .moved, status := 0, locked := locked, pages := pages, parts := 0, ahead := [], bad := [] } }

/-! Poison that the copy as a whole has covered (R278). -/

/-- The storage that a slice's destination lies in. -/
def dstArea (y : CSlice) : Nat × Nat × Nat :=
  match y.dst.space, y.dstOwn with
  | 5, some (c, b) => (2, c, b)
  | 1, _ => (1, 0, 0)
  | 7, _ => (7, y.core, 0)
  | n, _ => (n, y.core, y.block)

/-- An address in its area. -/
def areaOff (y : CSlice) (a : Nat) : Nat := if y.dst.space = 5 then a % 2 ^ 20 else a

/-- Whether the copy has written every byte of a range of an area, none of them poisoned. -/
def coversClean (c : Copy) (area : Nat × Nat × Nat) (a n : Nat) : Bool :=
  let mine := c.slices.filter fun y => dstArea y == area
  let rows := mine.flatMap fun y => (sliceRows y y.dst).map fun r => (areaOff y r.1, r.2)
  (List.range n).all (fun i => rows.any fun r => r.1 ≤ a + i && a + i < r.1 + r.2) &&
  !c.bad.any fun b =>
    match c.slices[b.1]? with
    | some y => dstArea y == area && a ≤ areaOff y b.2 && areaOff y b.2 < a + n
    | none => false

/-- A slice's global destination sectors that are poisoned still and that the copy has covered. -/
def staleSectors (s : State) (c : Copy) (y : CSlice) : List Nat :=
  if y.dst.space ≠ 1 || sliceShadow s y then []
  else ((sliceRows y y.dst).flatMap fun r => (pieces 32 r.1 r.2).filterMap fun p =>
    let va := p.1 / 32 * 32
    let pa := gPa (pagesOf c) va
    let own (q : ProvLine) : Bool := q.line == pa / 128 && some (q.launch, q.block) == y.prov
    let bad : BitVec 4 := match y.prov with
      | some _ => (match (sliceOf s (gHome s c.ctx (pagesOf c) va)).provs.find? own with | some q => q.poison | none => 0)
      | none => (peekLine s (pa / 128)).2
    if bad.getLsbD (pa % 128 / 32) && coversClean c (1, 0, 0) va 32 then some va else none)

/-- A global sector that the copy has covered is poisoned no more. -/
def cleanSector (s : State) (c : Copy) (y : CSlice) (va : Nat) : State :=
  let pa := gPa (pagesOf c) va
  let line := pa / 128
  let home := gHome s c.ctx (pagesOf c) va
  match y.prov with
  | some tag => modSlice s home fun sl => { sl with provs := sl.provs.map fun q =>
      if q.line == line && q.launch == tag.1 && q.block == tag.2 then
        { q with poison := setBit q.poison (pa % 128 / 32) false } else q }
  | none => homeWrite s (ctxOf s c.ctx).part line (peekLine s line).1 (fieldMask (pa % 128) 32) 0 (some home)

/-- A slice's local lane words that are poisoned still and that the copy has covered. -/
def cleanWords (s : State) (c : Copy) (y : CSlice) : State :=
  if y.dst.space = 1 then s
  else ((sliceRows y y.dst).flatMap fun r => (pieces 4 r.1 r.2).map fun p => p.1 / 4 * 4).foldl (fun t a =>
    let x := sliceLoc s y y.dst y.dstOwn a
    if locPoison t x && coversClean c (dstArea y) (areaOff y a) 4 then locPut t x (locByte t x) false else t) s

/-- The sectors and lane words that the copy has covered lose their poison; false while a line of them is away. -/
def copyClean (s : State) (c : Copy) : State × Bool :=
  let part := (ctxOf s c.ctx).part
  let bad := c.slices.flatMap fun y => (staleSectors s c y).map fun va => (y, va)
  let away := bad.filter fun p => p.1.prov.isNone &&
    !usable s (gPa (pagesOf c) p.2 / 128) true (some (gHome s c.ctx (pagesOf c) p.2))
  if away.isEmpty then
    (c.slices.foldl (fun s y => cleanWords s c y) (bad.foldl (fun s p => cleanSector s c p.1 p.2) s), true)
  else
    (away.foldl (fun s p =>
      wantLine s part (gPa (pagesOf c) p.2 / 128) true (some (gHome s c.ctx (pagesOf c) p.2))) s, false)

/-! The start. -/

/-- The copy writes into a column bank that is migrating: it stays pending (R342). -/
def intoMoving (s : State) (c : Copy) : Bool :=
  c.slices.any fun y => y.dst.space == 4 && bankMoving s ((tget (coreOf s y.core).blocks y.block).getD {}).bankCol

/-- Start a ready copy: the checks of R276 and the CAS of a conditional copy, which waits while the version's line is
with another agent (log 16).  The payload moves part by part from then on. -/
def copyGo (s : State) (id : Nat) (c : Copy) : State :=
  let part := (ctxOf s c.ctx).part
  let pages := copyPages c
  match pageStep s c.ctx pages with
  | .busy l => wantLine s part l false
  | .fail n => copyEnd s id (BitVec.ofNat 32 n) false
  | .ok =>
    match windowStep s c.ctx pages with
    | .busy l => wantLine s part l false
    | .fail n => copyEnd s id (BitVec.ofNat 32 n) false
    | .ok =>
      if copyOverlap s c then copyEnd s id 8 false
      else match versionOf c with
        | none => copyBegin s id (foundPages s c) false
        | some (va, exp) =>
          let pg := tablesNow s c.ctx
          let pa := gPa pg va
          let home := gHome s c.ctx pg va
          if refused s (pa / 128) (copyWho id) then copyEnd (dropAnswers s (copyWho id)) id 3 false
          else if !usable s (pa / 128) true (some home) then wantLine s part (pa / 128) true (some home) (copyWho id)
          else
            let same := peek64 s pa = exp.toNat && !exp.getLsbD 63
            let s := match c.slices with
              | y :: _ => raceDo s { core := 1024, line := pa / 128, home := home, act := .probe,
                                     race := engineRace s c.ctx pg y va 0 } (sectorsTouched (fieldMask (pa % 128) 8)) 2
              | [] => s
            if !same then copyEnd s id 1 false
            else
              let shadow := c.slices.any fun y => sliceShadow s y
              let t := if shadow then s else homeWriteBytes s part pa (leBytes 8 (exp.toNat + 2 ^ 63)) (some home)
              copyBegin t id (foundPages s c) true

/-- An engine starts its oldest ready copy (R276). -/
def execCopyStart (engine : Nat) (s : State) : Host.Outcome State Fault Refusal :=
  event (.copyStart engine) s fun s =>
    let ready := s.copies.filter fun (_, c) => c.st == .ready && c.engine == engine && !withdrawn c && !intoMoving s c
    match (sortBy (fun (p : Nat × Copy) => p.2.order) ready).head? with
    | some (id, c) => copyGo s id c
    | none => s

/-! Completion (R279, R283). -/

/-- What a completed copy still writes: stamps, or the next version, each for a slice. -/
def copyStamps (s : State) (c : Copy) : List (CSlice × Nat × W64) :=
  if c.status.toNat % 256 ≠ 0 || (c.cond && c.slices.any (sliceShadow s)) then []
  else if c.cond then
    match versionOf c, c.slices with
    | some (a, e), y :: _ => if c.locked then [(y, a, BitVec.ofNat 64 ((e.toNat + 1) % 2 ^ 63))] else []
    | _, _ => []
  else c.slices.filterMap fun y => if sliceShadow s y then none else y.sta.map fun a => (y, a, y.stv)

/-- A stamp is a release at package scope, at system scope on a line of another agent (R96, R283): it is checked and
recorded, and the context's epoch advances (R122, R124). -/
def copyStamp (s : State) (id : Nat) (c : Copy) (y : CSlice) (va : Nat) (v : W64) : Got :=
  let w := pieceWrite s c.ctx (pagesOf c) y va 3 ((leBytes 8 v.toNat).map fun b => (b, false))
  match unitWrites s (ctxOf s c.ctx).part (copyWho id) [w] with
  | .go s => .go { advanceEpoch s c.ctx .pkg with
      copies := tmod s.copies id fun c => { c with stamped := c.stamped + 1 } }
  | r => r

/-- The stamps that are left, one after the other; one that is refused is skipped. -/
def stampGo (id : Nat) : Nat → State → State
  | 0, s => s
  | n + 1, s =>
    match tget s.copies id with
    | none => s
    | some c =>
      match (copyStamps s c)[c.stamped]? with
      | none => s
      | some (y, va, v) =>
        match copyStamp s id c y va v with
        | .go s => stampGo id n s
        | .prot s => stampGo id n { s with copies := tmod s.copies id fun c => { c with stamped := c.stamped + 1 } }
        | .wait s => s

/-- Lines of the destination in an L1 of a member core, those with provisional bytes too. -/
def copyDropL1 (s : State) (c : Copy) : State :=
  let lines := c.slices.flatMap fun y =>
    if y.dst.space = 1 then
      (sliceRows y y.dst).flatMap fun r => (pieces 128 r.1 r.2).map fun p => gPa (pagesOf c) p.1 / 128
    else []
  c.slices.foldl (fun s y =>
    if y.core < 1024 then modCore s y.core fun co => { co with l1 := co.l1.filter fun z => !lines.contains z.line }
    else s) s

/-- Completion: the poison that the copy covered, its stamps, the L1 lines, the tokens, the command's record. -/
def copyComplete (s : State) (id : Nat) (c : Copy) : State :=
  let (s, clean) := if c.status.toNat % 256 = 0 then copyClean s c else (s, true)
  let n := (copyStamps s c).length
  let s := if clean then stampGo id n s else s
  let left := match tget s.copies id with | some c => c.stamped < n | none => true
  if !clean || left then s
  else
    let s := copyDropL1 s c
    let s := drainDone (finishCopy s id c.status)
    match c.cmd with
    | some (p, q, i) =>
      (match findCmd s p q i with
       | some k => completeCmd s k (c.status.toNat % 256) 0
       | none => s)
    | none => s

/-- A started copy moves what is left of its payload, and completes (R276, R279). -/
def execCopyComplete (copy : Nat) (s : State) : Host.Outcome State Fault Refusal :=
  event (.copyComplete copy) s fun s =>
    let s := movePayload s copy
    match tget s.copies copy with
    | some c => if c.st == .moved && copyMoved c then copyComplete s copy c else s
    | none => s

/-- An engine fails: with a spare its started copies run their payload again from its first part, else its copies end
with ENGINE (R289). -/
def execCopyEngineFail (engine : Nat) (s : State) : Host.Outcome State Fault Refusal :=
  event (.copyEngineFail engine) s fun s =>
    let mine := s.copies.filter fun (_, c) => c.engine == engine && !withdrawn c
    let s := logEvent s 0x289 engine
    if s.dev.spareEngines > 0 then
      let s := modDev s fun d => { d with spareEngines := d.spareEngines - 1 }
      mine.foldl (fun s (id, c) =>
        if c.st == .moved && c.status.toNat % 256 = 0 then copyBegin s id c.pages c.locked else s) s
    else mine.foldl (fun s (id, _) => copyEnd s id 7 false) s

end Sys2Proof.Machine
end

