-- ==== Sys2Proof/Machine/Barrier.lean ====
section
/-! DEFINITION. Machine/Barrier.lean: the barrier units' events (R263-R265, R423). -/

namespace Sys2Proof.Machine

/-- What a unit sends back to a path. -/
def answer (s : State) (core : Nat) (r : BRelease) : State :=
  { s with releases := tins s.releases core (tgetD s.releases core [] ++ [r]) }

/-- Put a message back at the tail of its unit's input. -/
def requeue (s : State) (u : Nat) (p : BPost) : State := modUnit s u fun b => { b with inbox := b.inbox ++ [p] }

/-- A crew word's outcome where its phase state is kept. -/
def unitRes (s : State) (u : Nat) (p : BPost) (f : CrewForm) (h : Nat) (r : CrewRes) : State :=
  match r with
  | .done s wr =>
    answer s p.core { warp := p.warp, slot := p.slot, handle := h, acq := if f.acq then some p.wide else none,
                      wr := f.d.bind fun d => wr.map fun v => (d.toNat, v) }
  | .wait s ph counted => crewWait s p.core p.warp p.slot (.crew h ph (if f.acq then some p.wide else none) counted)
  | .drain s => crewWait s p.core p.warp p.slot .drain
  | .trap reason => answer s p.core { warp := p.warp, slot := p.slot, handle := h, reason := some reason }
  | .again => requeue s u p

/-- The release of a .pub arrival is not done yet (R263). -/
def heldBack (s : State) (x : Here) (p : BPost) : Bool :=
  match p.rel with | some sc => !pubReady s x sc | none => false

/-- The message of a word, handled where the phase state is kept (R423).  A saved warp's message waits for its restore
(R264). -/
def unitTake (s : State) (u : Nat) (p : BPost) : State :=
  match hereAt s p.core p.warp p.slot with
  | none => s
  | some x =>
    if x.p.wait != .answer then s
    else if p.core ≥ 1024 || heldBack s x p then requeue s u p
    else
      let s := match p.rel with | some sc => advanceEpoch s x.ctx sc | none => s
      let p := { p with rel := none }
      let say (reason : Option Nat) : State :=
        answer s p.core { warp := p.warp, slot := p.slot, handle := p.handle, reason := reason }
      match crewAt s x.ctx (BitVec.ofNat 32 p.handle) with
      | none => say (some 1)
      | some (h, c) =>
        match decode x.ws with
        | .ok (.bcopy w, _) => say (copyReason s x h c w.rid.toNat)
        | .ok (.bcopyc w, _) => say (copyReason s x h c w.rid.toNat)
        | .ok (i, _) =>
          (match crewForm x.wp i with
           | some f => unitRes s u p f h (f.act s x h c)
           | none => s)
        | .error _ => s

def execBarrierMessage (chiplet : Nat) (s : State) : Host.Outcome State Fault Refusal :=
  event (.barrierMessage chiplet) s fun s =>
    match (unitOf s chiplet).inbox with
    | [] => s
    | p :: t => unitTake (modUnit s chiplet fun u => { u with inbox := t }) chiplet p

/-- The answer to a path's word has come back (R423). -/
def takeAnswer (s : State) (x : Here) (r : BRelease) : State :=
  match r.reason with
  | some n => crewTrap s x (BitVec.ofNat 32 r.handle) n
  | none =>
    match decode x.ws with
    | .ok (.bcopy w, _) => copyBody s x w false true
    | .ok (.bcopyc w, _) => copyBody s x w true true
    | _ => crewDone s x r.wr r.acq

/-- The first release for a core; a copy word that cannot go on yet keeps it. -/
def takeRelease (s : State) (core : Nat) (r : BRelease) (t : List BRelease) : State :=
  let pop (s : State) : State := { s with releases := tput [] s.releases core t }
  match hereAt s core r.warp r.slot with
  | none => pop s
  | some x =>
    match x.p.wait with
    | .crew .. => resumeCrew (pop s) core r.warp r.slot
    | .answer =>
      let s' := takeAnswer s x r
      (match hereAt s' core r.warp r.slot with
       | some y => if y.p.wait == .answer then s' else pop s'
       | none => pop s')
    | _ => pop s

def execBarrierRelease (core : Nat) (s : State) : Host.Outcome State Fault Refusal :=
  event (.barrierRelease core) s fun s =>
    match tgetD s.releases core [] with
    | [] => s
    | r :: t => takeRelease s core r t

/-- A crew's record is lost: it is broken, and every path that waits for it traps CREW with reason 2 (R265). -/
def breakCrew (s : State) (h : Nat) : State :=
  let ps := (warpsOf s).flatMap fun (c, w, x) =>
    [Slot.a, Slot.b].filterMap fun sl =>
      match (pathOf x sl).wait with
      | .crew k _ _ _ => if k = h then some (c, w, sl) else none
      | _ => none
  ps.foldl (fun s (c, w, sl) =>
    match hereAt s c w sl with
    | some x => crewTrap s x (BitVec.ofNat 32 h) 2
    | none => s) (modCrew s h fun c => { c with broken := true })

def execCrewRecordError (handle : Nat) (s : State) : Host.Outcome State Fault Refusal :=
  event (.crewRecordError handle) s fun s => breakCrew s handle

end Sys2Proof.Machine
end

