-- ==== Sys2Proof/Machine/Matrix.lean ====
section
/-! DEFINITION. Machine/Matrix.lean: the matrix words at issue: claims, checks, the command queue, CPOP and MSYNC
(R294-R300, R303, R307, R313, R314).  The engine stands in Machine/Engine.lean. -/

namespace Sys2Proof.Machine

/-! Units (R294-R296). -/

/-- Number of a unit in `releasing`. -/
def unitNo (tile : Bool) (n : Nat) : Nat := if tile then 64 + n else n
def unitOwner (co : Core) (tile : Bool) (n : Nat) : Option Nat := tget (if tile then co.accOwner else co.slotOwner) n

/-- A block may name a unit: it has claimed it, and no TREL of it has issued (R296). -/
def nameable (co : Core) (b : Nat) (u : Bool × Nat) : Bool :=
  unitOwner co u.1 u.2 == some b && !smem co.releasing (unitNo u.1 u.2)

def unitsFrom (tile : Bool) (first n : Nat) : List (Bool × Nat) := (List.range n).map fun i => (tile, first + i)

/-! Fields of the words. -/

def mtxLow (w : Mtx) : Nat := w.opt.toNat % 8
/-- Row length of TLOAD (R299). -/
def tloadLen (ty : Nat) : Nat := if ty = 0 || ty = 13 || ty = 14 then 64 else 128
/-- Row length of CLOAD and CSTORE (R312). -/
def accLen (ty : Nat) : Nat := if ty = 2 || ty = 11 then 256 else if ty = 9 || ty = 10 then 128 else 64
def spBlocks (w : Mtx) : Nat := if w.opt = 1 then 4 else 2

/-- The MLOOP record (R307). -/
structure Loop where
  aaddr : Nat
  baddr : Nat
  ainc : Int
  binc : Int
  apitch : Nat
  bpitch : Nat
  steps : Nat
  la : Nat
  lb : Nat
  reserved : Bool

def loopOf (vals : List W32) : Loop :=
  let v (i : Nat) : Nat := (vals.getD i 0).toNat
  let g := v 7
  { aaddr := v 0 + 2 ^ 32 * v 1, baddr := v 2 + 2 ^ 32 * v 3, ainc := sgn 32 (v 4), binc := sgn 32 (v 5),
    apitch := v 6 % 65536, bpitch := v 6 / 65536, steps := g % 4096 + 1, la := g / 65536 % 16 + 1,
    lb := g / 2 ^ 24 % 16 + 1, reserved := g / 4096 % 16 ≠ 0 || g / 2 ^ 20 % 16 ≠ 0 || g / 2 ^ 28 ≠ 0 }

def loopSc (w : Mtx) : Bool := w.opt.getLsbD 0
def loopDist (w : Mtx) : Bool := w.opt.getLsbD 1
def loopRes (w : Mtx) : Bool := w.opt.getLsbD 2

/-- Address of a step's tile. -/
def stepAddr (base : Nat) (inc : Int) (s : Nat) : Nat := wrapN 64 ((base : Int) + s * inc)
/-- Whether a step loads its tile (R308). -/
def stepLoads (inc : Int) (ring s : Nat) : Bool := !(inc == 0 && ring == 1 && s > 0)

/-- The units that a word names (R299). -/
def mtxUnits (vals : List W32) : Instr → List (Bool × Nat)
  | .trel w => unitsFrom (w.opt == 1) w.b.toNat w.n.toNat
  | .tload w | .tloads w => [(false, w.d.toNat)]
  | .mma w | .mdist w => [(true, w.d.toNat), (false, w.a.toNat), (false, w.b.toNat)]
  | .mmasp w => (true, w.d.toNat) :: (false, w.a.toNat) :: unitsFrom false w.b.toNat (spBlocks w)
  | .mloop w =>
    let r := loopOf vals
    (true, w.d.toNat) :: (unitsFrom false w.b.toNat r.la ++ unitsFrom false w.c.toNat r.lb).filter fun u => u.2 < 64
  | .mtopk w => [(true, w.d.toNat), (true, w.a.toNat)]
  | .czero w => unitsFrom true w.d.toNat w.n.toNat
  | .cload w => [(true, w.d.toNat)]
  | .cstore w => [(true, w.c.toNat)]
  | _ => []

/-- The rows that a word reads or writes: space, address, pitch, row length. -/
structure Rows where
  space : Nat
  addr : Nat
  pitch : Nat
  len : Nat
  dst : Bool

def rowsAt (w : Mtx) (vals : List W32) (len : Nat) (dst : Bool) : Rows :=
  let v (i : Nat) : Nat := (vals.getD i 0).toNat
  if mtxLow w = 1 then { space := 1, addr := v 0 + 2 ^ 32 * v 1, pitch := v 2, len := len, dst := dst }
  else { space := mtxLow w, addr := v 0, pitch := v 1, len := len, dst := dst }

def mtxRows (vals : List W32) : Instr → Option Rows
  | .tload w => some (rowsAt w vals (tloadLen w.ty.toNat) false)
  | .cload w => some (rowsAt w vals (accLen w.ty.toNat) false)
  | .cstore w => if w.opt.toNat < 8 then some (rowsAt w vals (accLen w.ty.toNat) true) else none
  | _ => none

def Rows.desc (r : Rows) : TDesc :=
  { base := r.addr, space := r.space, log2es := 0, columns := r.len, rows := 64, stride := r.pitch,
    extent := 63 * r.pitch + r.len }

/-! Scale tiles (R80, R302, R303). -/

/-- Whether a window has a scale region. -/
def winScaled (w : WinRegs) : Bool := winValid w && winScaleV w

/-- Scale tile (i, j) is partial: outside the region, or without 64 rows and 64 elements behind it (R80). -/
def scalePartial (w : WinRegs) (i j : Nat) : Bool :=
  let size := winLimit w - winBase w
  128 * (i * winKt w + j) + 128 > winScaleLen w || j ≥ winKt w ||
  (64 * i + 63) * (64 * winKt w) + 64 * j + 64 > size

/-- The check of a TLOADS scale tile at a physical address; `va` is reported. -/
def tloadsBad (s : State) (va pa : Nat) : Bool :=
  match s.windows.find? fun (_, w) => winScaled w && winScaleBase w ≤ pa && pa < winScaleBase w + winScaleLen w with
  | none => true
  | some (_, w) =>
    let t := (pa - winScaleBase w) / 128
    va % 128 ≠ 0 || scalePartial w (t / winKt w) (t % winKt w)

/-- The scale tile that an operand tile of MLOOP takes: its address and whether it offends (R303). -/
def loopScale (s : State) (va pa pitch : Nat) : Nat × Bool :=
  match windowAt s pa with
  | some (_, w) =>
    if winScaled w then
      let o := pa - winBase w
      let row := 64 * winKt w
      let i := o / row / 64
      let j := o % row / 64
      (winScaleBase w + 128 * (i * winKt w + j),
       o / row % 64 ≠ 0 || o % 64 ≠ 0 || pitch ≠ row || scalePartial w i j)
    else (va, true)
  | none => (va, true)

/-! The checks at issue (R299). -/

inductive MChk
  | ok (scales : List Nat)
  | trap (cls : FClass) (sector : Nat)
  | busy

/-- Operand tiles that an MLOOP loads: step, first operand or second, address, pitch. -/
def loopTiles (r : Loop) : List (Nat × Bool × Nat × Nat) :=
  (List.range r.steps).flatMap fun s =>
    (if stepLoads r.ainc r.la s then [(s, false, stepAddr r.aaddr r.ainc s, r.apitch)] else []) ++
    (if stepLoads r.binc r.lb s then [(s, true, stepAddr r.baddr r.binc s, r.bpitch)] else [])

/-- The outcome of translating first bytes. -/
def xlateChk (s : State) (x : Here) (rs : List (Nat × Nat × Xl)) (k : List (Nat × Nat) → State × MChk) : State × MChk :=
  match rs.findSome? fun r => match r.2.2 with | .busy line => some line | _ => none with
  | some line => (wantLine s (ctxOf s x.ctx).part line false, .busy)
  | none =>
    match rs.filterMap fun r => match r.2.2 with | .ok .. => none | _ => some r.2.1 with
    | v :: t => (s, .trap .xlate (t.foldl min v))
    | [] => k (rs.filterMap fun r => match r.2.2 with | .ok leaf level => some (r.2.1, leafPa leaf level r.2.1) | _ => none)

/-- Checks 6 and 7 of TLOADS. -/
def tloadsChk (s : State) (x : Here) (va : Nat) : State × MChk :=
  let (s, rs) := xlateLanes s x.core x.ctx [(0, va)]
  xlateChk s x rs fun ps =>
    match ps with
    | (_, pa) :: _ => if tloadsBad s va pa then (s, .trap .scale va) else (s, .ok [pa])
    | [] => (s, .busy)

/-- Checks 6 and 7 of MLOOP with .sc; the scale tiles of step i stand at 2i and 2i + 1.  Of offending tiles the lowest
number is reported, be it the address of a scale tile or, without a window, that of the operand tile: the manual does
not say how the two compare (DESIGN CHOICE, log 106). -/
def loopScChk (s : State) (x : Here) (r : Loop) : State × MChk :=
  let ts := loopTiles r
  let (s, rs) := xlateLanes s x.core x.ctx (ts.map fun t => (0, t.2.2.1))
  xlateChk s x rs fun ps =>
    let found := (ts.zip ps).map fun (t, p) => (t, loopScale s p.1 p.2 t.2.2.2)
    match (found.filter (·.2.2)).map (·.2.1) with
    | v :: t => (s, .trap .scale (t.foldl min v))
    | [] =>
      let at' (i : Nat) (b : Bool) : Nat :=
        match found.find? fun f => f.1.1 == i && f.1.2.1 == b with | some f => f.2.1 | none => 0
      (s, .ok ((List.range r.steps).flatMap fun i => [at' i false, at' i true]))

/-- A malformed record (R307). -/
def loopBad (w : Mtx) (r : Loop) : Bool :=
  r.reserved || w.b.toNat + r.la > 64 || w.c.toNat + r.lb > 64 ||
  (loopRes w && (r.aaddr ≠ 0 || r.baddr ≠ 0 || r.ainc ≠ 0 || r.binc ≠ 0 || r.apitch ≠ 0 || r.bpitch ≠ 0))

/-- Checks 3 and 4 of MLOOP, and the address limit of R307. -/
def loopChk (w : Mtx) (r : Loop) : Option FClass :=
  if loopBad w r then some .tdesc
  else if r.aaddr % 16 ≠ 0 || r.baddr % 16 ≠ 0 || r.ainc % 16 ≠ 0 || r.binc % 16 ≠ 0 || r.apitch % 16 ≠ 0 ||
    r.bpitch % 16 ≠ 0 then some .misalign
  else if r.aaddr ≥ 2 ^ 48 || r.baddr ≥ 2 ^ 48 then some .prot
  else none

/-- The checks of R299 after UNDEF, in their order. -/
def mtxCheck (s : State) (x : Here) (i : Instr) (vals : List W32) : State × MChk :=
  if !(mtxUnits vals i).all (nameable x.co x.wp.block) then (s, .trap .prot 0)
  else match i with
    | .mloop w =>
      let r := loopOf vals
      (match loopChk w r with
       | some c => (s, .trap c 0)
       | none => if loopSc w && !loopRes w then loopScChk s x r else (s, .ok []))
    | .tloads _ =>
      let va := (vals.getD 0 0).toNat + 2 ^ 32 * (vals.getD 1 0).toNat
      if va % 16 ≠ 0 then (s, .trap .misalign 0) else tloadsChk s x va
    | i =>
      match mtxRows vals i with
      | none => (s, .ok [])
      | some r =>
        if r.addr % 16 ≠ 0 || r.pitch % 16 ≠ 0 then (s, .trap .misalign 0)
        else if r.space = 1 then (s, .ok [])
        else match allocFail s x r.desc r.dst with
          | some (c, a) => (s, .trap c a)
          | none => (s, .ok [])

/-! Pushes (R298). -/

/-- The captured scalars. -/
def mtxVals (wp : Warp) : Instr → List W32
  | .mloop w => (List.range 8).map fun k => sget wp (w.a.toNat + k)
  | .tloads w => [sget wp w.a.toNat, sget wp (w.a.toNat + 1)]
  | .mtopk w => [sget wp w.b.toNat]
  | .tload w | .cload w | .cstore w =>
    if w.opt.toNat = 8 && w.a = 0 && w.b = 0 then []
    else if mtxLow w = 1 then [sget wp w.a.toNat, sget wp (w.a.toNat + 1), sget wp w.b.toNat]
    else [sget wp w.a.toNat, sget wp w.b.toNat]
  | _ => []

/-- The peer whose scratch a crew-shared address names. -/
def mtxOwn (s : State) (x : Here) (i : Instr) (vals : List W32) : Option (Nat × Nat) :=
  match mtxRows vals i with
  | some r => if r.space = 5 then (peerOf s x.block r.addr).map fun p => (p.1, p.2.1) else none
  | none => none

/-- The command enters q0; the units of a TREL stop being nameable. -/
def mtxPush (s : State) (x : Here) (i : Instr) (vals : List W32) (scales : List Nat) : State :=
  if (coreOf s x.core).q0.length ≥ 16 then pushWait s x
  else
    let q : QCmd := { word := unitWord x.ws, vals := vals, warp := x.w, block := x.wp.block, age := x.wp.age,
                      scales := scales, pc := x.p.pc, own := mtxOwn s x i vals, after := x.co.nextOp }
    let gone : List Nat := match i with | .trel _ => (mtxUnits vals i).map (fun u => unitNo u.1 u.2) | _ => []
    let s := modCore s x.core fun co => { co with q0 := co.q0 ++ [q], releasing := gone.foldl sins co.releasing }
    modWarp s x.core x.w fun w => retireW { w with mpushed := w.mpushed + 1 } x.sl x.ws

/-- Whether a command's accesses lie in the base layer; none when it accesses no memory (R22, R25). -/
def mtxLayer (i : Instr) (vals : List W32) : Option Bool :=
  match i with
  | .mloop w => if loopRes w then none else some true
  | .tloads _ => some true
  | i => (mtxRows vals i).map fun r => r.space == 1

/-- A command at issue: one that accesses memory waits for what holds the warp's later accesses (R50, R97, R174). -/
def mtxWord (i : Instr) (s : State) : Host.Outcome State Fault Refusal :=
  word i s fun s x =>
    let vals := mtxVals x.wp i
    if (match mtxLayer i vals with | some base => memHeld x base | none => !x.wp.shapeWaits.isEmpty) then s
    else
    let (s, c) := mtxCheck s x i vals
    match c with
    | .busy => s
    | .trap cls sector => faultAll s x cls sector
    | .ok scales => mtxPush s x i vals scales

def execTrel (w : Mtx) (s : State) : Host.Outcome State Fault Refusal := mtxWord (.trel w) s
def execTload (w : Mtx) (s : State) : Host.Outcome State Fault Refusal := mtxWord (.tload w) s
def execTloads (w : Mtx) (s : State) : Host.Outcome State Fault Refusal := mtxWord (.tloads w) s
def execMma (w : Mtx) (s : State) : Host.Outcome State Fault Refusal := mtxWord (.mma w) s
def execMmasp (w : Mtx) (s : State) : Host.Outcome State Fault Refusal := mtxWord (.mmasp w) s
def execMloop (w : Mtx) (s : State) : Host.Outcome State Fault Refusal := mtxWord (.mloop w) s
def execMdist (w : Mtx) (s : State) : Host.Outcome State Fault Refusal := mtxWord (.mdist w) s
def execMtopk (w : Mtx) (s : State) : Host.Outcome State Fault Refusal := mtxWord (.mtopk w) s
def execCzero (w : Mtx) (s : State) : Host.Outcome State Fault Refusal := mtxWord (.czero w) s
def execCload (w : Mtx) (s : State) : Host.Outcome State Fault Refusal := mtxWord (.cload w) s
def execCstore (w : Mtx) (s : State) : Host.Outcome State Fault Refusal := mtxWord (.cstore w) s

/-- TCLAIM (R296). -/
def claimUnits (co : Core) (b : Nat) (us : List (Bool × Nat)) : Core :=
  us.foldl (fun co u =>
    if u.1 then { co with accOwner := tins co.accOwner u.2 b } else { co with slotOwner := tins co.slotOwner u.2 b }) co

def execTclaim (w : Mtx) (s : State) : Host.Outcome State Fault Refusal :=
  word (.tclaim w) s fun s x =>
    let us := unitsFrom (w.opt == 1) w.b.toNat w.n.toNat
    let ok := us.all fun u => (unitOwner x.co u.1 u.2).isNone
    let s := if ok then modCore s x.core fun co => claimUnits co x.wp.block us else s
    modWarp s x.core x.w fun y => retireW (sset y w.d.toNat (if ok then 1 else 0)) x.sl x.ws

/-! Pops (R313, R326, R330). -/

/-- An entry of a queue into a vector register. -/
def popInto (w : Warp) (d : Nat) (exec : W32) (e : QEnt) : Warp :=
  (setBits exec).foldl (fun w l => vset w d l (e.data.extractLsb' (32 * l) 32) (e.poison.getLsbD l)) w

/-- The head of a pop queue. -/
def popHead (co : Core) (q : Nat) : Option QEnt :=
  if q = 1 then co.q1.head? else if q = 2 then co.q2.head? else co.q9.head?

def popRest (co : Core) (q : Nat) : Core :=
  if q = 1 then { co with q1 := co.q1.drop 1 }
  else if q = 2 then { co with q2 := co.q2.drop 1 } else { co with q9 := co.q9.drop 1 }

/-- A pop or a peek: nothing with an empty exec, a stall on an empty queue. -/
def popWord (s : State) (x : Here) (q d : Nat) (peek : Bool) : State :=
  if x.exec = 0 then retireNow s x
  else match popHead x.co q with
    | none => s
    | some e =>
      let s := if peek then s
        else
          let s := modCore s x.core fun co => popRest co q
          if q = 9 then creditFree s x.core x.ctx 1 else s
      modWarp s x.core x.w fun w => retireW (popInto w d x.exec e) x.sl x.ws

def execCpop (w : Mtx) (s : State) : Host.Outcome State Fault Refusal :=
  word (.cpop w) s fun s x =>
    if w.n = 1 || w.n = 2 then popWord s x w.n.toNat w.d.toNat false else faultAll s x .queue

/-! MSYNC (R314). -/

/-- MSYNCs whose commands are all complete take the status, oldest first. -/
def settleSyncs (w : Warp) : Warp :=
  w.msyncs.foldl (fun w m =>
    if m.2 ≤ w.mdone then
      { sset w m.1 w.mstatus with mstatus := 0, pend := sdel w.pend (256 + m.1), msyncs := w.msyncs.drop 1 }
    else w) w

def execMsync (w : Mtx) (s : State) : Host.Outcome State Fault Refusal :=
  word (.msync w) s fun s x =>
    let d := w.d.toNat
    retire s x (settleSyncs { x.wp with msyncs := x.wp.msyncs ++ [(d, x.wp.mpushed)], pend := sins x.wp.pend (256 + d) })

end Sys2Proof.Machine
end

