-- ==== Sys2Proof/Machine/Queue.lean ====
section
/-! DEFINITION. Machine/Queue.lean: the queue words and the column link's transfers (R324-R331). -/

namespace Sys2Proof.Machine

/-! Queue words (R328-R331). -/

def execQpush (w : Que) (s : State) : Host.Outcome State Fault Refusal :=
  word (.qpush w) s fun s x =>
    let a := w.a.toNat
    let bad := lanesWhere x.exec fun l => vpois x.wp a l
    if w.q ≠ 8 then faultAll s x .queue
    else if bad ≠ 0 then fault s x .poison bad (poisonSector x.wp)
    else if x.exec = 0 then retireNow s x
    else if opHeld x false then s
    else if x.co.qfree8 = 0 then pushWait s x
    else
      let e : QEnt := { data := BitVec.ofNat 1024 ((setBits x.exec).foldl (fun n l => n + (vget x.wp a l).toNat * 2 ^ (32 * l)) 0) }
      retireNow (modCore s x.core fun co => { co with qfree8 := co.qfree8 - 1, transit := co.transit ++ [e] }) x

/-- The queues that QPOP and QPEEK may name. -/
def popQueue (q : BitVec 4) : Bool := q == 1 || q == 2 || q == 9

def execQpop (w : Que) (s : State) : Host.Outcome State Fault Refusal :=
  word (.qpop w) s fun s x =>
    if !popQueue w.q then faultAll s x .queue
    else if w.q = 9 && opHeld x false then s
    else popWord s x w.q.toNat w.d.toNat false

def execQpeek (w : Que) (s : State) : Host.Outcome State Fault Refusal :=
  word (.qpeek w) s fun s x =>
    if !popQueue w.q then faultAll s x .queue
    else if w.q = 9 && opHeld x false then s
    else popWord s x w.q.toNat w.d.toNat true

/-- Entries held, or the free count of a push queue (R330). -/
def queueCount (co : Core) (q : Nat) : Nat :=
  match q with
  | 0 => 16 - co.q0.length
  | 1 => co.q1.length
  | 2 => co.q2.length
  | 8 => co.qfree8
  | _ => co.q9.length

def execQcount (w : Que) (s : State) : Host.Outcome State Fault Refusal :=
  word (.qcount w) s fun s x =>
    retire s x (sset x.wp w.d.toNat (BitVec.ofNat 32 (queueCount x.co w.q.toNat)))

/-! Columns (R337). -/

/-- The column of a core is frozen for repair (R338). -/
def frozen (s : State) (core : Nat) : Bool := (colOf s (pairOf core) (posOf core)).frozen

/-- The oldest transit entry enters the partner's q9 while the partner runs the same context and the bus is not frozen
(R324, R339). -/
def transitPlace (s : State) (core : Nat) : State :=
  let co := coreOf s core
  let p := partnerOf core
  let pc := coreOf s p
  match co.transit with
  | [] => s
  | e :: t =>
    if co.ctx.isSome && pc.ctx == co.ctx && !pc.stopped && !frozen s core && pc.q9.length < 16 then
      let s := modCore s core fun co => { co with transit := t }
      modCore s p fun co => { co with q9 := co.q9 ++ [e] }
    else s

def execTransitPlace (core : Nat) (s : State) : Host.Outcome State Fault Refusal :=
  event (.transitPlace core) s fun s => transitPlace s core

/-! Repair under load (R338). -/

/-- A column number names pair and position. -/
def colPair (column : Nat) : Nat := column / 16
def colPos (column : Nat) : Nat := column % 16

/-- A transfer that fails its check is resent: programs see only a stall. -/
def execVbusCheckFail (column : Nat) (s : State) : Host.Outcome State Fault Refusal :=
  event (.vbusCheckFail column) s fun s => s

/-- The bus freezes and a spare lane takes the place of the failing one. -/
def execLaneRepair (column : Nat) (s : State) : Host.Outcome State Fault Refusal :=
  event (.laneRepair column) s fun s =>
    let c := colOf s (colPair column) (colPos column)
    if c.spares = 0 || c.failed || c.frozen then s
    else modCol s (colPair column) (colPos column) fun c => { c with frozen := true, spares := c.spares - 1 }

def execBusThaw (column : Nat) (s : State) : Host.Outcome State Fault Refusal :=
  event (.busThaw column) s fun s =>
    if (colOf s (colPair column) (colPos column)).frozen then
      modCol s (colPair column) (colPos column) fun c => { c with frozen := false, repairs := min 255 (c.repairs + 1) }
    else s

end Sys2Proof.Machine
end

