-- ==== Sys2Proof/Machine/Image.lean ====
section
/-! DEFINITION. Machine/Image.lean: the bytes of a save area (R149, R150, R288, R320, R341). -/

namespace Sys2Proof.Machine

/-- A byte string at an offset of the save area. -/
abbrev Chunk := Nat × List Byte

def bitBytes (n : Nat) (p : Nat → Bool) : List Byte :=
  (List.range n).map fun i => ofBits 8 fun k => p (8 * i + k)

/-! Warp records (R150). -/

/-- Words left in the clause at the path's PC. -/
def leftWords (p : Path) : Nat := if p.words.isEmpty then p.remain else p.words.length

def stateBits (p : Path) : Nat :=
  let n := leftWords p
  (match p.st with | .empty => 0 | .live => 1 | .held => 2) +
  (if n = 0 then 0 else 4 * p.cls.toNat + 16 * (n - 1) + 512) + (if p.parked then 256 else 0)

def slotImg (p : Path) : List Byte :=
  leBytes 8 p.pc.toNat ++ leBytes 8 (rpcBits p.rpc) ++ leBytes 4 p.mask.toNat ++ leBytes 4 (stateBits p) ++ leBytes 8 0

/-- The slot runs the warp's trap handler (R178). -/
def handlerSlot (w : Warp) (sl : Slot) : Bool := match w.handler with | some (h, _) => h == sl | none => false

/-- The wait of a slot as its record holds it (R150, R178): a CRSYNC whose warp has arrived in the open phase waits for
that phase, its own arrival not yet counted. -/
def waitImg (s : State) (core k : Nat) (w : Warp) (sl : Slot) : List Byte :=
  let p := pathOf w sl
  let rec' (kind flags handle phase deadline frame : Nat) : List Byte :=
    leBytes 1 kind ++ leBytes 1 (flags + (if p.susp then 4 else 0)) ++ leBytes 2 handle ++ leBytes 4 phase ++
    leBytes 8 deadline ++ leBytes 8 frame ++ leBytes 8 0
  let plain := leBytes 1 (if p.susp then 6 else 0) ++ leBytes 31 0
  if handlerSlot w sl then leBytes 1 5 ++ leBytes 31 0
  else match p.wait with
    | .sleep d => rec' 1 0 0 0 d 0
    | .mwait d => rec' 2 0 0 0 d 0
    | .crew h ph pub counted => rec' 3 ((if counted then 1 else 0) + (if pub.isSome then 2 else 0)) h ph 0 0
    | .grow => rec' 4 0 0 0 0 0
    | .driver f => rec' 7 0 0 0 0 f.toNat
    | .answer =>
      (match decode p.words, arrivedPost s core (k, w) sl with
       | .ok (.crsync x, _), some h =>
         rec' 3 (if pubOf x then 2 else 0) h (match crewOf s h with | some c => c.phase | none => 0) 0 0
       | _, _ => plain)
    | _ => plain

def warpImg (s : State) (core k : Nat) (w : Warp) (tokens : Nat) : List Byte :=
  (List.range 64).flatMap (fun i => leBytes 4 (sget w i).toNat) ++ leBytes 4 w.exited.toNat ++
  (List.range 7).flatMap (fun i => leBytes 4 (tgetD w.m (i + 1) 0).toNat) ++ slotImg w.a ++ slotImg w.b ++
  leBytes 4 w.sigs.toNat ++ leBytes 4 w.sigd.toNat ++ leBytes 8 w.poisonat.toNat ++ leBytes 4 w.granules.length ++
  leBytes 4 w.stack.length ++ leBytes 4 (warpId core k w).toNat ++
  leBytes 4 (match w.grow with | some (n, _) => n | none => 0) ++ leBytes 8 tokens ++ waitImg s core k w .a ++
  waitImg s core k w .b ++
  leBytes 568 0

/-- A granule: registers 8j to 8j + 7, then their poison bits. -/
def granuleImg (w : Warp) (j : Nat) : List Byte :=
  (List.range 8).flatMap (fun i => (List.range 32).flatMap fun l => leBytes 4 (vget w (8 * j + i) l).toNat) ++
  bitBytes 32 fun b => vpois w (8 * j + b / 32) (b % 32)

/-- A divergence stack entry (R137). -/
def entryImg (e : StackEntry) : List Byte :=
  let kind := match e.kind with | .pending => 0 | .join => 1 | .arrived => 2
  let rpc := match e.rpc with | some r => r.toNat / 8 % 2 ^ 45 | none => 2 ^ 45 - 1
  leBytes 16 (kind * 2 ^ 122 + e.mask.toNat * 2 ^ 90 + rpc * 2 ^ 45 + e.pc.toNat / 8 % 2 ^ 45)

def stackImg (w : Warp) : List Byte :=
  let es := w.stack.reverse.flatMap entryImg
  es ++ leBytes (512 - es.length) 0

/-! Engine state (section 7). -/

/-- A q0 entry (R298). -/
def cmdImg (q : QCmd) : List Byte :=
  leBytes 8 q.word.toNat ++ (List.range 8).flatMap (fun i => leBytes 4 (q.vals.getD i 0).toNat) ++ leBytes 1 q.warp ++
  leBytes 1 q.block ++ leBytes 22 0

/-- Owners of units: block-table indices; a unit that an ended block still holds has none (R163, R320). -/
def ownerImg (t : Tab Nat) (n : Nat) : List Byte :=
  (List.range n).flatMap fun i => leBytes 1 (let b := tgetD t i 0xFF; if b < 16 then b else 0xFF)

def entImg (es : List QEnt) : List Byte := es.flatMap fun e => lineBytes e.data

def descImg (d : TDesc) : List Byte :=
  leBytes 6 d.base ++ leBytes 1 (d.space + 16 * d.log2es) ++ leBytes 1 0 ++ leBytes 2 d.columns ++ leBytes 2 d.rows ++
  leBytes 4 d.stride ++ leBytes 4 d.extent

/-- The kind and state of a copy record: 1 started, 2 complete (R288). -/
def copyStateBits (co : Core) (id : Nat) (c : Copy) (y : CSlice) (state : Nat) : Nat :=
  let w := (tget co.warps y.warp).getD {}
  let batch := (w.batches.find? fun b => b.2.contains id).map (·.1)
  state + (if c.cond then 4 else 0) + (if batch.isSome then 8 else 0) + 16 * batch.getD 0 + (if y.sta.isSome then 128 else 0)

/-- A copy record (R288) of a slice of the core. -/
def copyImg (co : Core) (id : Nat) (c : Copy) (y : CSlice) : List Byte :=
  descImg y.src ++ descImg y.dst ++ leBytes 2 y.firstRow ++ leBytes 2 y.count ++ leBytes 2 c.rid ++ leBytes 2 c.handle ++
  leBytes 4 (if c.st == .moved then c.status.toNat else 0) ++ leBytes 1 y.warp ++
  leBytes 1 (if y.orphan then 0xFF else y.tok.getD 0xFF) ++
  leBytes 2 (copyStateBits co id c y (if c.st == .moved then 2 else 1)) ++ leBytes 8 (y.sta.getD 0)

/-- Slices of a core's context with their copies, oldest first. -/
def coreSlices (s : State) (core : Nat) : List (Nat × Copy × CSlice) :=
  (s.copies.filter fun p => (coreOf s core).ctx == some p.2.ctx).flatMap fun (id, c) =>
    (c.slices.filter fun y => y.core == core).map fun y => (id, c, y)

/-- Zeros up to a length. -/
def padTo (n : Nat) (bs : List Byte) : List Byte := bs ++ leBytes (n - bs.length) 0

/-- Section 7 (R149, R288, R320, R341); what it does not use is zero. -/
def engineImg (s : State) (core : Nat) (co : Core) : List Chunk :=
  let (q, p, on) := match co.cmd with | some (q, p) => (cmdImg q, p, 1) | none => (leBytes 64 0, 0, 0)
  let warp (f : Warp → Nat) : List Byte :=
    (List.range 48).flatMap fun i => leBytes 4 (match tget co.warps i with | some w => f w | none => 0)
  let sl := (coreSlices s core).take 64
  [(0, q ++ leBytes 4 p ++ leBytes 4 on ++ leBytes 56 0), (0x80, warp fun w => w.mstatus.toNat),
   (0x140, warp fun w => w.mpushed - w.mdone), (0x200, ownerImg co.slotOwner 64), (0x240, ownerImg co.accOwner 96 ++ leBytes 352 0),
   (0x400, padTo 32 (bitBytes 8 (fun i => (tget co.slotOwner i).isSome) ++ bitBytes 12 (fun i => (tget co.accOwner i).isSome))),
   (0x420, leBytes 1 co.q0.length ++ leBytes 1 co.q1.length ++ leBytes 1 co.q2.length ++ leBytes 1 co.transit.length ++
     leBytes 1 co.q9.length ++ leBytes 1 co.qfree8 ++ leBytes 26 0),
   (0x800, padTo 1024 (co.q0.flatMap cmdImg)), (0xC00, padTo 2048 (entImg co.q1)), (0x1400, padTo 2048 (entImg co.q2)),
   (0x1C00, padTo 2048 (entImg co.transit)), (0x2400, padTo 2048 (entImg co.q9)),
   (0x2C00, padTo 4096 (sl.flatMap fun x => copyImg co x.1 x.2.1 x.2.2)),
   (0x3C00, padTo 1024 (sl.flatMap fun x => leBytes 8 x.2.2.stv.toNat ++ leBytes 8 0))]

/-! The whole area (R149). -/

def blockImg (s : State) (co : Core) (i : Nat) : List Byte :=
  match tget co.blocks i with
  | none => leBytes 32 0
  | some b =>
    let ws := (co.warps.filter fun p => p.2.block == i).map (·.2.index)
    let number := match tget s.launches b.launch with | some l => l.number.toNat | none => 0
    leBytes 4 b.bx.toNat ++ leBytes 4 b.byy.toNat ++ leBytes 4 b.bz.toNat ++ leBytes 4 number ++
    bitBytes 8 (fun k => k < 48 && ws.contains k) ++ leBytes 2 b.scratchGran ++ leBytes 2 b.colGran.length ++ leBytes 2 b.bcrew ++
    leBytes 2 0

/-- Scalar registers of a warp that await copy tokens. -/
def tokenBits (s : State) (core k : Nat) : Nat :=
  (coreSlices s core).foldl (fun n x =>
    match x.2.2.tok with
    | some t => if x.2.2.warp = k && !x.2.2.orphan && n / 2 ^ t % 2 = 0 then n + 2 ^ t else n
    | none => n) 0

def scratchImg (b : Block) : List Byte :=
  let n := 4096 * b.scratchGran
  (List.range n).map (fun i => tgetD b.scratch i 0) ++ bitBytes (n / 32) fun i => smem b.scratchPoison i

def bankImg (s : State) (b : Block) : List Byte :=
  b.colGran.flatMap fun g => (List.range 16384).map fun i => tgetD s.banks (262144 * b.bankCol + 16384 * g + i) 0

/-- Sections in order, each a list of chunks with its length. -/
def sections (s : State) (core : Nat) (keep : Bool) : List (Nat × List Chunk) :=
  let co := coreOf s core
  let flat (l : List (List Byte)) : Nat × List Chunk := (l.foldl (fun n x => n + x.length) 0, [(0, l.flatten)])
  [flat (co.warps.map fun p => warpImg s core p.1 p.2 (tokenBits s core p.1)),
   flat (co.warps.flatMap fun p => (List.range p.2.granules.length).map (granuleImg p.2)),
   flat (co.warps.map fun p => stackImg p.2), flat (co.blocks.map fun p => scratchImg p.2),
   flat (if keep then [] else co.blocks.map fun p => bankImg s p.2),
   flat (co.slotOwner.map fun p => (List.range 8192).map fun i => tgetD co.slots (8192 * p.1 + i) 0),
   flat (co.accOwner.map fun p => (List.range 4096).flatMap fun i => leBytes 4 (tgetD co.acc (4096 * p.1 + i) 0).toNat),
   (16384, engineImg s core co)]

/-- Lay sections out from an offset: directory entries and chunks. -/
def layOut : Nat → List (Nat × List Chunk) → List (Nat × Nat) × List Chunk
  | _, [] => ([], [])
  | at', (n, cs) :: t =>
    let (ds, rest) := layOut (at' + alignUp n 4096) t
    ((at', n) :: ds, cs.map (fun c => (at' + c.1, c.2)) ++ rest)

/-- What a save writes into its area. -/
def areaImg (s : State) (core reason : Nat) (keep : Bool) : List Chunk :=
  let co := coreOf s core
  let (dir, body) := layOut 4096 (sections s core keep)
  let head := leBytes 4 1 ++ leBytes 4 (co.ctx.getD 0) ++ leBytes 4 core ++
    leBytes 4 (co.l1ways.toNat + (16 - 2 ^ co.l1ways.toNat) * 16) ++ leBytes 4 co.warps.length ++
    leBytes 4 (co.blocks.filter fun p => p.1 < 16).length ++ leBytes 4 reason ++ leBytes 4 0 ++
    dir.flatMap (fun d => leBytes 8 d.1 ++ leBytes 8 d.2) ++ leBytes 96 0
  (0, head ++ (List.range 16).flatMap (blockImg s co) ++ leBytes 3328 0) :: body

end Sys2Proof.Machine
end

