-- ==== Sys2Proof/Machine/Back.lean ====
section
/-! DEFINITION. Machine/Back.lean: what a restore reads back from a save area (R151).  A section that cannot be read
where it stands leaves its part of the context as the save took it (log 109). -/

namespace Sys2Proof.Machine

/-! Bytes of an area. -/

/-- A number in a byte string. -/
def numAt (b : List Byte) (off n : Nat) : Nat := leNat ((b.drop off).take n)

/-- The 32-bit words of a byte string. -/
def words32 : List Byte → List W32
  | a :: b :: c :: d :: t => BitVec.ofNat 32 (leNat [a, b, c, d]) :: words32 t
  | _ => []

def bitAt (b : List Byte) (i : Nat) : Bool := (b.getD (i / 8) 0).getLsbD (i % 8)

/-- Pieces of the given lengths, in order. -/
def cuts : List Nat → List Byte → List (List Byte)
  | [], _ => []
  | n :: t, b => b.take n :: cuts t (b.drop n)

/-- A context's bytes from a multiple of 128 on, as they stand at their homes; none where a line cannot be read. -/
def readVa (s : State) (ctx va n : Nat) : Option (List Byte) :=
  ((List.range ((n + 127) / 128)).mapM fun i =>
    match vaToPa s ctx (va + 128 * i) false with
    | some pa => if usable s (pa / 128) false then some (lineBytes (peekLine s (pa / 128)).1) else none
    | none => none).map fun (ls : List (List Byte)) => ls.flatten.take n

/-- The entries of a table that a run of values from key `lo` makes; zero is not listed. -/
def runTab {α : Type} [BEq α] (zero : α) (lo : Nat) (xs : List α) : Tab α :=
  ((List.range xs.length).zip xs).filterMap fun (i, x) => if x == zero then none else some (lo + i, x)

/-- A run of keys takes new values. -/
def splice {α : Type} (t : Tab α) (lo hi : Nat) (xs : Tab α) : Tab α :=
  t.filter (fun p => p.1 < lo) ++ xs ++ t.filter fun p => hi ≤ p.1

def spliceSet (t : NatSet) (lo hi : Nat) (f : Nat → Bool) : NatSet :=
  t.filter (fun k => k < lo) ++ ((List.range (hi - lo)).filter f).map (lo + ·) ++ t.filter fun k => hi ≤ k

/-! Sections 0 to 3. -/

/-- A wait as its record gives it (R150). -/
def waitBack (w : Wait) (b : List Byte) : Wait :=
  match w, numAt b 0 1 with
  | .sleep _, 1 => .sleep (numAt b 8 8)
  | .mwait _, 2 => .mwait (numAt b 8 8)
  | .crew _ _ pub counted, 3 => .crew (numAt b 2 2) (numAt b 4 4) pub counted
  | .driver _, 7 => .driver (BitVec.ofNat 64 (numAt b 16 8))
  | w, _ => w

/-- A path slot (R150). -/
def slotBack (p : Path) (b wait : List Byte) : Path :=
  let st := numAt b 20 4
  { p with pc := BitVec.ofNat 64 (numAt b 0 8), rpc := rpcOf (numAt b 8 8), mask := BitVec.ofNat 32 (numAt b 16 4),
           st := (match st % 4 with | 0 => .empty | 1 => .live | _ => .held), cls := BitVec.ofNat 2 (st / 4),
           remain := if !p.words.isEmpty || st / 512 % 2 = 0 then 0 else st / 16 % 16 + 1, parked := st / 256 % 2 == 1,
           wait := waitBack p.wait wait }

/-- A warp record. -/
def warpBack (w : Warp) (b : List Byte) : Warp :=
  let at' (off n : Nat) : Nat := numAt b off n
  let part (off n : Nat) : List Byte := (b.drop off).take n
  { w with sc := runTab 0 0 (words32 (part 0 256)), exited := BitVec.ofNat 32 (at' 0x100 4),
           m := runTab 0 1 (words32 (part 0x104 28)), a := slotBack w.a (part 0x120 32) (part 0x188 32),
           b := slotBack w.b (part 0x140 32) (part 0x1A8 32), sigs := BitVec.ofNat 32 (at' 0x160 4),
           sigd := BitVec.ofNat 32 (at' 0x164 4), poisonat := BitVec.ofNat 64 (at' 0x168 8) }

/-- Register granule j. -/
def granuleBack (w : Warp) (j : Nat) (b : List Byte) : Warp :=
  { w with v := splice w.v (256 * j) (256 * j + 256) (runTab 0 (256 * j) (words32 (b.take 1024))),
           vPoison := spliceSet w.vPoison (256 * j) (256 * j + 256) (bitAt (b.drop 1024)) }

/-- A divergence stack entry (R137). -/
def entryBack (b : List Byte) : StackEntry :=
  let n := leNat b
  let rpc := n / 2 ^ 45 % 2 ^ 45
  { kind := (match n / 2 ^ 122 % 4 with | 0 => .pending | 1 => .join | _ => .arrived),
    mask := BitVec.ofNat 32 (n / 2 ^ 90), rpc := if rpc = 2 ^ 45 - 1 then none else some (BitVec.ofNat 64 (8 * rpc)),
    pc := BitVec.ofNat 64 (8 * (n % 2 ^ 45)) }

def stackBack (w : Warp) (depth : Nat) (b : List Byte) : Warp :=
  { w with stack := ((cuts (List.replicate (min depth 32) 16) b).map entryBack).reverse }

/-- A block's scratchpad with its poison bits. -/
def scratchBack (x : Block) (gran : Nat) (b : List Byte) : Block :=
  { x with scratch := runTab 0 0 (b.take (4096 * gran)),
           scratchPoison := spliceSet [] 0 (1024 * gran) (bitAt (b.drop (4096 * gran))) }

/-- Apply a section's pieces, one for each item; nothing when the section cannot be read. -/
def eachPiece {σ ι : Type} (sec : Option (List Byte)) (items : List ι) (len : ι → Nat) (f : σ → ι → List Byte → σ)
    (x : σ) : σ :=
  match sec with
  | none => x
  | some b => (items.zip (cuts (items.map len) b)).foldl (fun x p => f x p.1 p.2) x

/-! Section 7 (R288, R320). -/

def cmdBack (q : QCmd) (b : List Byte) : QCmd :=
  { q with word := BitVec.ofNat 64 (numAt b 0 8), vals := (words32 ((b.drop 8).take 32)).take q.vals.length }

def entsBack (es : List QEnt) (b : List Byte) : List QEnt :=
  (es.zip (cuts (List.replicate es.length 128) b)).map fun (e, x) => { e with data := ofLineBytes x }

/-- The token of a completed copy is written into its register (R151). -/
def tokenBack (co : Core) (b : List Byte) : Core :=
  let t := numAt b 0x35 1
  if numAt b 0x36 1 % 4 = 2 && t < 64 then
    { co with warps := tmod co.warps (numAt b 0x34 1) fun w => sset w t (BitVec.ofNat 32 (numAt b 0x30 4)) }
  else co

def engineBack (co : Core) (e : List Byte) : Core :=
  let part (off n : Nat) : List Byte := (e.drop off).take n
  let warp (k : Nat) (w : Warp) : Warp :=
    { w with mstatus := BitVec.ofNat 32 (numAt e (0x80 + 4 * k) 4), mpushed := w.mdone + numAt e (0x140 + 4 * k) 4 }
  let co := { co with
    cmd := co.cmd.map (fun (q, _) => (cmdBack q (part 0 64), numAt e 0x40 4)),
    warps := co.warps.map (fun p => (p.1, warp p.1 p.2)),
    q0 := (co.q0.zip (cuts (List.replicate co.q0.length 64) (part 0x800 1024))).map (fun p => cmdBack p.1 p.2),
    q1 := entsBack co.q1 (part 0xC00 2048), q2 := entsBack co.q2 (part 0x1400 2048),
    transit := entsBack co.transit (part 0x1C00 2048), q9 := entsBack co.q9 (part 0x2400 2048) }
  (cuts (List.replicate 64 64) (part 0x2C00 4096)).foldl tokenBack co

/-! The area. -/

/-- Where a save's area lies. -/
def areaVa (s : State) (ctx area : Nat) : Nat := descField s ctx 0x18 8 + 3 * 2 ^ 20 * area

/-- Lengths of sections 0 to 7. -/
def sectionLens (v : Saved) : List Nat :=
  let sum (l : List Nat) : Nat := l.foldl (· + ·) 0
  [1024 * v.warps.length, sum (v.warps.map fun p => 1056 * p.2), 512 * v.warps.length,
   sum (v.blocks.map fun b => 4224 * b.2.1), if v.reason = 2 then 0 else sum (v.blocks.map fun b => 16384 * b.2.2),
   8192 * v.slots.length, 16384 * v.tiles.length, 16384]

/-- A section as it stands in memory. -/
def sectionOf (s : State) (v : Saved) (i : Nat) : Option (List Byte) :=
  let ls := sectionLens v
  readVa s v.ctx (areaVa s v.ctx v.area + (ls.take i).foldl (fun a n => a + alignUp n 4096) 4096) (ls.getD i 0)

/-- Everything that R151 writes back, over a context's state as the save took it. -/
def areaBack (s : State) (v : Saved) (co : Core) : Core :=
  let sec := sectionOf s v
  let granules := v.warps.flatMap fun p => (List.range p.2).map fun j => (p.1, j)
  let warp (f : Warp → List Byte → Warp) (co : Core) (p : Nat × Nat) (b : List Byte) : Core :=
    { co with warps := tmod co.warps p.1 fun w => f w b }
  let depth (k : Nat) : Nat := ((v.warps.zip (cuts (v.warps.map fun _ => 1024) ((sec 0).getD []))).find? fun p => p.1.1 == k).elim
    0 fun p => numAt p.2 0x174 4
  let co := eachPiece (sec 0) v.warps (fun _ => 1024) (warp warpBack) co
  let co := eachPiece (sec 1) granules (fun _ => 1056)
    (fun co p b => { co with warps := tmod co.warps p.1 fun w => granuleBack w p.2 b }) co
  let co := if (sec 0).isNone then co else eachPiece (sec 2) v.warps (fun _ => 512)
    (fun co p b => { co with warps := tmod co.warps p.1 fun w => stackBack w (depth p.1) b }) co
  let co := eachPiece (sec 3) v.blocks (fun b => 4224 * b.2.1)
    (fun co p b => { co with blocks := tmod co.blocks p.1 fun x => scratchBack x p.2.1 b }) co
  let co := eachPiece (sec 5) v.slots (fun _ => 8192)
    (fun co t b => { co with slots := splice co.slots (8192 * t) (8192 * t + 8192) (runTab 0 (8192 * t) b) }) co
  let co := eachPiece (sec 6) v.tiles (fun _ => 16384)
    (fun co t b => { co with acc := splice co.acc (4096 * t) (4096 * t + 4096) (runTab 0 (4096 * t) (words32 b)) }) co
  match sec 7 with
  | some e => engineBack co e
  | none => co

/-- The column-bank bytes of a save, by block; those of a bank that blocks share come with the save that took them last
(log 110). -/
def bankArea (s : State) (v : Saved) (co : Core) : Tab Byte :=
  let own (i : Nat) : Bool := match tget co.blocks i with | some b => !b.sharedBank | none => false
  if v.keepBank then v.bank
  else eachPiece (sectionOf s v 4) v.blocks (fun b => 16384 * b.2.2) (fun t p b =>
    if own p.1 then splice t (2 ^ 20 * p.1) (2 ^ 20 * p.1 + 16384 * p.2.2) (runTab 0 (2 ^ 20 * p.1) b) else t) v.bank

/-- The pages of a save area (R391). -/
def areaPages (s : State) (v : Saved) : List Nat := (List.range 48).map fun i => areaVa s v.ctx v.area + 65536 * i

/-- Writes of the device itself to the save area are still on their way. -/
def areaBusy (s : State) (v : Saved) : Bool :=
  let ws := (reqsAbroad s).filter fun r => r.core == 1024 && writes r
  s.late.any (fun x => x.desc == (ctxOf s v.ctx).desc && overlaps x.va x.bytes.length (areaVa s v.ctx v.area) 0x300000) ||
  (!ws.isEmpty && (areaPages s v).any fun va =>
    match walk s v.ctx va with
    | .ok leaf level => ws.any fun r => leafPa leaf level va / 128 ≤ r.line && r.line < leafPa leaf level va / 128 + 512
    | _ => false)

/-- Lines that are with another agent and that reading the area needs: of the tables, and of the area itself. -/
def areaLines (s : State) (v : Saved) : List Nat :=
  let taken := (s.glaze.map (·.1) ++ s.slices.flatMap fun p => p.2.ways.map (·.2.line) ++ p.2.entries.map (·.line)).filter
    fun l => !usable s l false
  ((areaPages s v).flatMap fun va =>
    match walk s v.ctx va with
    | .ok leaf level => taken.filter fun l => leafPa leaf level va / 128 ≤ l && l < leafPa leaf level va / 128 + 512
    | .busy l => [l]
    | .bad => []).eraseDups

end Sys2Proof.Machine
end

