-- ==== Sys2Proof/Machine/Engine.lean ====
section
/-! DEFINITION. Machine/Engine.lean: what the matrix engine does with a command (R294-R323). -/

namespace Sys2Proof.Machine

/-! Matrix status (R300). -/

/-- Change the pushing warp, if it has not ended. -/
def mineQ (s : State) (core : Nat) (q : QCmd) (f : Warp → Warp) : State :=
  modWarp s core q.warp fun w => if w.age = q.age then f w else w

/-- POISONED and SPARSEOV accumulate. -/
def addStatus (s : State) (core : Nat) (q : QCmd) (poison many : Bool) : State :=
  mineQ s core q fun w =>
    { w with mstatus := w.mstatus ||| (if poison then 0x100 else 0) ||| (if many then 0x200 else 0) }

/-- Only the first failure sets CODE. -/
def setCode (s : State) (core : Nat) (q : QCmd) (code step : Nat) : State :=
  if code = 0 then s
  else
    let s := mineQ s core q fun w =>
      if w.mstatus.toNat % 256 = 0 then { w with mstatus := w.mstatus ||| BitVec.ofNat 32 (code + step * 65536) } else w
    modCore s core fun co => { co with q0 := co.q0.map fun e =>
      if e.age = q.age && e.orphan then { e with dead := true } else e }

/-- A failed warp's later commands are discarded (R300). -/
def discarded (s : State) (core : Nat) (q : QCmd) : Bool :=
  q.dead ||
  (match tget (coreOf s core).warps q.warp with
   | some w => w.age == q.age && w.mstatus.toNat % 256 != 0
   | none => false)

/-! Rows of memory (R299, R301, R312, R315). -/

/-- The outcome of a step of the engine. -/
inductive EngRes
  | done (s : State)
  /-- Still in progress, with PROGRESS (R319). -/
  | more (s : State) (progress : Nat)
  /-- Nothing done yet: a line or room is missing. -/
  | stay (s : State)

/-- The command's accesses as those of one slice of its block; provisional as long as the block is (R318). -/
def mtxSlice (s : State) (core : Nat) (q : QCmd) (r : Rows) : CSlice :=
  let b := (tget (coreOf s core).blocks q.block).getD {}
  { core := core, warp := q.warp, block := q.block, src := r.desc, dst := r.desc, firstRow := 0, count := 64,
    tok := none, sta := none, prov := if b.prov then some (b.launch, b.linear) else none, gid := 1 + 64 * core + q.warp,
    pc := q.pc, srcOwn := q.own, dstOwn := q.own }

def Rows.list (r : Rows) : List (Nat × Nat) := (List.range 64).map fun i => ((r.addr + i * r.pitch) % 2 ^ 64, r.len)

inductive Plan
  | busy (line : Nat)
  | go (rows code : Nat)

/-- How many rows may be accessed, and the CODE of the first that may not. -/
def planRows (s : State) (ctx : Nat) (need : Need) (n : Nat) : List (Nat × Nat) → Plan
  | [] => .go n 0
  | (a, len) :: t =>
    if a + len > 2 ^ 48 then .go n 3
    else
      let ps := (pieces 65536 a len).map fun p => (p.1, need)
      match pageStep s ctx ps with
      | .busy l => .busy l
      | .fail c => .go n c
      | .ok =>
        match windowStep s ctx ps with
        | .busy l => .busy l
        | .fail c => .go n c
        | .ok => planRows s ctx need (n + 1) t

/-- The engine of a core at its present command, among the units that ask for lines. -/
def engWho (s : State) (core : Nat) : Nat := 4 * (1024 * (coreOf s core).cmdsDone + core) + 2

def rowsLines (s : State) (ctx : Nat) (rows : List (Nat × Nat)) : List (Nat × Nat) :=
  rows.flatMap fun r => rangeLines s ctx (tablesNow s ctx) r.1 r.2

/-- How many rows no home refuses (R344, R353). -/
def rowsServed (s : State) (core ctx : Nat) (rows : List (Nat × Nat)) : Nat :=
  (rows.takeWhile fun r => !(rowsLines s ctx [r]).any fun l => refused s l.1 (engWho s core)).length

/-- A line through the core's port, with what its buffers hold (R21, R315), or as another agent has sent it. -/
def portLine (s : State) (core line home : Nat) (tag : Option (Nat × Nat)) : Line × BitVec 4 :=
  match answerTo s line (engWho s core) with
  | some { data := some d, .. } => (d, 0)
  | _ => seenBy s home { core := core, line := line, home := home, act := .read, prov := tag } s.nextReq (peekLine s line)

/-- An access of the command to its block's column bank waits at the arbiter (R334). -/
def engWaits (s : State) (core : Nat) (q : QCmd) (space : Nat) : Bool :=
  space == 4 && bankWaits s core ((tget (coreOf s core).blocks q.block).getD {}).bankCol

def mtxRead (s : State) (ctx : Nat) (y : CSlice) (r : Nat × Nat) : List (Byte × Bool) :=
  if y.src.space = 1 then
    (pieces 128 r.1 r.2).flatMap fun p =>
      let pa := gPa (tablesNow s ctx) p.1
      let (d, bad) := portLine s y.core (pa / 128) (gHome s ctx (tablesNow s ctx) p.1) y.prov
      (List.range p.2).map fun i => (byteOf d (pa % 128 + i), bad.getLsbD ((pa % 128 + i) / 32))
  else readRow s ctx (tablesNow s ctx) 0 y r

/-- Read rows: those that may be read, and the CODE that ends them. -/
def rowsIn (s : State) (ctx : Nat) (q : QCmd) (y : CSlice) (rows : List (Nat × Nat))
    (k : State → List (List (Byte × Bool)) → Nat → EngRes) : EngRes :=
  if y.src.space ≠ 1 then
    if engWaits s y.core q y.src.space then .stay s else k s (rows.map (mtxRead s ctx y)) 0
  else match planRows s ctx { r := true } 0 rows with
    | .busy l => .stay (wantLine s (ctxOf s ctx).part l false)
    | .go n code =>
      let m := rowsServed s y.core ctx (rows.take n)
      let rs := rows.take m
      match unitReads s (ctxOf s ctx).part (engWho s y.core) (rowsLines s ctx rs) with
      | .wait s | .prot s => .stay s
      | .go s => k s (rs.map (mtxRead s ctx y)) (if m < n then 3 else code)

/-! Slots (R294, R301, R302). -/

/-- Bytes with their poison into the slots of a core; whole lane words. -/
def slotPut (co : Core) (a : Nat) (bs : List (Byte × Bool)) : Core :=
  let slots := ((List.range bs.length).zip bs).foldl (fun t p => tput 0 t (a + p.1) p.2.1) co.slots
  let pois := (List.range (bs.length / 4)).foldl
    (fun t k => sput t (a / 4 + k) (((bs.drop (4 * k)).take 4).any (·.2))) co.slotPoison
  { co with slots := slots, slotPoison := pois }

/-- What a TLOAD lays down from 64 rows (R301). -/
def slotImage (ty : Nat) (trans : Bool) (rows : List (List (Byte × Bool))) : List (Byte × Bool) :=
  let flat := rows.flatten
  if trans then
    let at' (i : Nat) : Byte × Bool := (flat[i]?).getD (0, false)
    (List.range 64).flatMap fun n => (List.range 64).flatMap fun k => [at' (128 * k + 2 * n), at' (128 * k + 2 * n + 1)]
  else if ty = 14 then flat.map fun b => (BitVec.ofNat 8 (b.1.toNat % 64 * 4), b.2)
  else flat

/-- A row of free bytes: at and after a failure a slot's content is not specified (R301, log 7). -/
def freeRow (s : State) (i len : Nat) : List (Byte × Bool) :=
  (List.range len).map fun k => (byteOf (Config.freeWord (s.freeCount + 32 * i + k / 4)) (k % 4), false)

def scaleOnes : List (Byte × Bool) := List.replicate 512 (0x7F, false)

/-- Free values used by a load: rows not read and scale bytes not specified. -/
def drawFree (s : State) (n : Nat) : State := { s with freeCount := s.freeCount + n }

/-- The home of a physical line as the block's own provisional stores have it, else its holder. -/
def provHome (s : State) (line : Nat) (tag : Option (Nat × Nat)) : Nat :=
  match s.slices.find? fun p => p.2.provs.any fun v => v.line == line && some (v.launch, v.block) == tag with
  | some (h, _) => h
  | none => holderOf s line

/-- A scale tile at its physical address, with the block's own provisional stores (R318); unspecified in a T6PACK range
(R322, log 11). -/
def scaleTile (s : State) (core pa : Nat) (tag : Option (Nat × Nat)) : List (Byte × Bool) :=
  if packedLine s (pa / 128) then (List.range 128).map fun i => (Config.packedScale (s.freeCount + i), false)
  else
    let (d, bad) := portLine s core (pa / 128) (provHome s (pa / 128) tag) tag
    (List.range 128).map fun i => (byteOf d i, bad.getLsbD (i / 32))

/-- The scale tile that a command names, once its line can be read. -/
def scaleIn (s : State) (core ctx : Nat) (tag : Option (Nat × Nat)) (scale : Option Nat)
    (k : State → List (Byte × Bool) → EngRes) : EngRes :=
  match scale with
  | none => k s []
  | some pa =>
    match unitReads s (ctxOf s ctx).part (engWho s core) [(pa / 128, holderOf s (pa / 128))] with
    | .wait s => .stay s
    | .prot s | .go s => k (drawFree s 128) (scaleTile s core pa tag)
/-- What a load has read for a slot: rows, their CODE, and the scale tile. -/
structure SlotIn where
  rows : List (List (Byte × Bool)) := []
  code : Nat := 0
  tile : List (Byte × Bool) := []

/-- The reads of a TLOAD, or of a step of MLOOP with the scale tile that .sc names (R301, R308). -/
def loadRead (s : State) (core : Nat) (q : QCmd) (ctx : Nat) (r : Rows) (scale : Option Nat)
    (k : State → SlotIn → EngRes) : EngRes :=
  let y := mtxSlice s core q r
  rowsIn s ctx q y r.list fun s got code =>
    scaleIn s core ctx y.prov scale fun s tile => k s { rows := got, code := code, tile := tile }

/-- What they lay down in the slot. -/
def loadWrite (s : State) (core : Nat) (q : QCmd) (len ty : Nat) (trans : Bool) (slot : Nat) (x : SlotIn) : State :=
  let pad := (List.range (64 - x.rows.length)).map fun i => freeRow s i len
  let img := slotImage ty trans (x.rows ++ pad)
  let bad := x.rows.any (fun b => b.any (·.2)) || x.tile.any (·.2)
  let s := modCore s core fun co =>
    let co := slotPut co (8192 * slot) img
    let co := if ty = 13 || ty = 14 then slotPut co (8192 * slot + 0x1000) scaleOnes else co
    slotPut co (8192 * slot + 0x1000) x.tile
  addStatus (drawFree s 2048) core q bad false

/-! Multiplying (R304-R306, R81-R83). -/

def slotByte (co : Core) (t off : Nat) : Nat := (tgetD co.slots (8192 * t + off) 0).toNat
def slotBad (co : Core) (t off : Nat) : Bool := smem co.slotPoison ((8192 * t + off) / 4)

/-- The offset of a row's scale (R78). -/
def scaleOff (r g : Nat) : Nat := 32 * (r % 4) + 2 * (r / 4) + g

def slotK (ty : Nat) : Nat := if ty = 11 then 32 else 64

/-- val(S, r, k) of R304. -/
def slotVal (co : Core) (ty t r k : Nat) : FV :=
  let b (off : Nat) : Nat := slotByte co t off
  match ty with
  | 13 => (decodeT8 (b (64 * r + k))).scale (scaleE8 (b (0x1000 + scaleOff r (k / 32))))
  | 9 => unpack f16 (b (128 * r + 2 * k) + 256 * b (128 * r + 2 * k + 1))
  | 10 => unpack bf16 (b (128 * r + 2 * k) + 256 * b (128 * r + 2 * k + 1))
  | _ =>
    unpack f32 (b (128 * r + 4 * k) + 256 * b (128 * r + 4 * k + 1) + 65536 * b (128 * r + 4 * k + 2) +
      2 ^ 24 * b (128 * r + 4 * k + 3))

/-- A row of a slot consumes a poisoned word. -/
def rowBad (co : Core) (ty t r : Nat) : Bool :=
  let len := if ty = 0 || ty = 13 then 64 else 128
  (List.range (len / 4)).any (fun k => slotBad co t (len * r + 4 * k)) ||
  (ty == 13 && (slotBad co t (0x1000 + scaleOff r 0) || slotBad co t (0x1000 + scaleOff r 1)))

/-- A product; a T8 product is never -0 (R82). -/
def prodTerm (ty : Nat) (a b : FV) : FV :=
  match mulV a b with
  | .fin n m e => .fin (n && !(ty == 13 && m == 0)) m e
  | v => v

/-- The term of MDIST (R305). -/
def distTerm (a b : FV) : FV :=
  if a.isNan || b.isNan then .nan
  else if a.isInf || b.isInf then .inf false
  else
    let d := sumV .rn [a, b.neg]
    mulV d d

def accKey (c m n : Nat) : Nat := 4096 * c + 64 * m + n
def accGet (co : Core) (c m n : Nat) : W32 := tgetD co.acc (accKey c m n) 0
def accBad (co : Core) (c m n : Nat) : Bool := smem co.accPoison (accKey c m n)
def accPut (co : Core) (c m n : Nat) (x : W32) (bad : Bool) : Core :=
  { co with acc := tput 0 co.acc (accKey c m n) x, accPoison := sput co.accPoison (accKey c m n) bad }

/-- Apply a function to every element of a tile, reading the core as it was. -/
def accMap (co : Core) (c : Nat) (f : Nat → Nat → W32 × Bool) : Core :=
  foldN 64 (fun m co => foldN 64 (fun n co => accPut co c m n (f m n).1 (f m n).2) co) co

/-- INT8 sums, clamped once (R83). -/
def intSum (c : W32) (terms : List Int) : W32 :=
  BitVec.ofNat 32 (wrapN 32 (clampTy .i32 (terms.foldl (· + ·) (sgn 32 c.toNat))))

/-- A value for each row of one operand and each row of another. -/
def tileOf {α β : Type} (a : List α) (b : List β) (f : Nat → Nat → α → β → W32) : List (List W32) :=
  ((List.range a.length).zip a).map fun (m, x) => ((List.range b.length).zip b).map fun (n, y) => f m n x y

/-- One multiply or distance (R304, R305); whether poison was propagated. -/
def accMul (co : Core) (dist : Bool) (ty c ta tb : Nat) : Core × Bool :=
  let ks := List.range (slotK ty)
  let badA := (List.range 64).map fun m => rowBad co ty ta m
  let badB := (List.range 64).map fun n => rowBad co ty tb n
  let bad (m n : Nat) : Bool := badA.getD m false || badB.getD n false || accBad co c m n
  let rows (α : Type) (f : Nat → Nat → α) : List (List α) := (List.range 64).map fun r => ks.map (f r)
  let out : List (List W32) :=
    if ty = 0 then
      let a := rows Int fun r k => sgn 8 (slotByte co ta (64 * r + k))
      let b := rows Int fun r k => sgn 8 (slotByte co tb (64 * r + k))
      tileOf a b fun m n x y => intSum (accGet co c m n)
        (List.zipWith (fun x y => if dist then (x - y) * (x - y) else x * y) x y)
    else
      let a := rows FV (slotVal co ty ta)
      let b := rows FV (slotVal co ty tb)
      tileOf a b fun m n x y => matrixSum (accGet co c m n)
        (List.zipWith (fun x y => if dist then distTerm x y else prodTerm ty x y) x y)
  let co' := accMap co c fun m n => ((out.getD m []).getD n 0, bad m n)
  (co', (List.range 64).any fun m => (List.range 64).any fun n => bad m n)

/-! Sparse multiplies (R306). -/

def maskOff (ng m g : Nat) : Nat := 0x1200 + 4 * (m * ng + g)

def groupMask (co : Core) (t ng m g : Nat) : W32 :=
  BitVec.ofNat 32 (leNat ((List.range 4).map fun i => BitVec.ofNat 8 (slotByte co t (maskOff ng m g + i))))

/-- Stored values of a row: byte of the slot, logical K. -/
def sparseOf (co : Core) (t nb m : Nat) : List (Nat × Nat) :=
  let ng := 2 * nb
  let s := 32 / nb
  (List.range ng).flatMap fun g =>
    let bits := (setBits (groupMask co t ng m g)).take s
    ((List.range bits.length).zip bits).map fun (q, b) => (64 * m + s * g + q, 32 * g + b)

def sparseScale (m k : Nat) : Nat := 0x1000 + 128 * (k / 64) + scaleOff m (k % 64 / 32)

def sparseRowBad (co : Core) (t nb m : Nat) : Bool :=
  (List.range (2 * nb)).any (fun g => slotBad co t (maskOff (2 * nb) m g)) ||
  (sparseOf co t nb m).any fun p => slotBad co t p.1 || slotBad co t (sparseScale m p.2)

def accSparse (co : Core) (nb c ta tb : Nat) : Core × Bool × Bool :=
  let rows := (List.range 64).map (sparseOf co ta nb)
  let badA := (List.range 64).map (sparseRowBad co ta nb)
  let badB := (List.range 64).map fun n => (List.range nb).any fun i => rowBad co 13 (tb + i) n
  let bad (m n : Nat) : Bool := badA.getD m false || badB.getD n false || accBad co c m n
  let a := (List.range 64).map fun m => (rows.getD m []).map fun p =>
    ((decodeT8 (slotByte co ta p.1)).scale (scaleE8 (slotByte co ta (sparseScale m p.2))), p.2)
  let b := (List.range 64).map fun n => (List.range (64 * nb)).map fun k => slotVal co 13 (tb + k / 64) n (k % 64)
  let out := tileOf a b fun m n x y =>
    matrixSum (accGet co c m n) (x.map fun p => prodTerm 13 p.1 (y.getD p.2 (.fin false 0 0)))
  let many := (List.range 64).any fun m => (List.range (2 * nb)).any fun g =>
    popcount (groupMask co ta (2 * nb) m g) > 32 / nb
  let co' := accMap co c fun m n => ((out.getD m []).getD n 0, bad m n)
  (co', (List.range 64).any (fun m => (List.range 64).any fun n => bad m n), many)

/-- Multiplies and distances of one step, for PMREAD (R304). -/
def macsOf (ty : Nat) : Nat := if ty = 11 then 131072 else 262144

def mulStep (s : State) (core : Nat) (q : QCmd) (dist : Bool) (ty c ta tb : Nat) : State :=
  let (co, bad) := accMul (coreOf s core) dist ty c ta tb
  addStatus (setCore s core { co with macs := co.macs + macsOf ty }) core q bad false

/-! Selection (R309-R311). -/

/-- A candidate: value, index, poison. -/
structure Cand where
  v : W32
  i : W32
  bad : Bool

/-- Strictly before, under rank_key of R310. -/
def rankBefore (isF max : Bool) (a b : Cand) : Bool :=
  let lower := a.i.toNat < b.i.toNat
  if isF then
    let x := unpack f32 a.v.toNat
    let y := unpack f32 b.v.toNat
    if x.isNan && y.isNan then lower
    else if x.isNan then false
    else if y.isNan then true
    else if if max then ltV y x else ltV x y then true
    else if if max then ltV x y else ltV y x then false
    else lower
  else
    let x := sgn 32 a.v.toNat
    let y := sgn 32 b.v.toNat
    if if max then y < x else x < y then true
    else if if max then x < y else y < x then false
    else lower

/-- Stable insertion. -/
def insertRank (before : Cand → Cand → Bool) (x : Cand) : List Cand → List Cand
  | [] => [x]
  | y :: t => if before x y then x :: y :: t else y :: insertRank before x t

def rankAll (before : Cand → Cand → Bool) (l : List Cand) : List Cand := l.foldl (fun a x => insertRank before x a) []

def worstOf (isF max : Bool) : W32 :=
  if isF then (if max then 0xFF800000 else 0x7F800000) else if max then 0x80000000 else 0x7FFFFFFF

/-- One row of MTOPK; whether it met poison. -/
def topkRow (w : Mtx) (base : W32) (co : Core) (m : Nat) : Core × Bool :=
  let isF := w.ty == 11
  let max := w.opt.getLsbD 2
  let d := w.d.toNat
  let a := w.a.toNat
  let k := w.n.toNat
  let canon (x : W32) : W32 := if isF && (unpack f32 x.toNat).isNan then BitVec.ofNat 32 nanPat else x
  let co := if w.opt.getLsbD 0 then
      foldN 15 (fun j co => accPut (accPut co d m j (worstOf isF max) false) d m (32 + j) 0xFFFFFFFF false) co
    else co
  let st := (List.range k).map fun j =>
    ({ v := canon (accGet co d m j), i := accGet co d m (32 + j), bad := accBad co d m j || accBad co d m (32 + j) } : Cand)
  let ti := (List.range 64).map fun n =>
    ({ v := canon (accGet co a m n), i := base + BitVec.ofNat 32 n, bad := accBad co a m n } : Cand)
  let bad := (st ++ ti).any (·.bad)
  let best := rankAll (rankBefore isF max) (st ++ ti)
  let co := ((List.range k).zip best).foldl (fun co p =>
    accPut (accPut co d m p.1 p.2.v bad) d m (32 + p.1) p.2.i bad) co
  let zero (j : Nat) (co : Core) : Core := accPut (accPut co d m (15 + j) 0 false) d m (47 + j) 0 false
  (foldN 17 zero co, bad)

def topk (w : Mtx) (base : W32) (co : Core) : Core × Bool :=
  (List.range 64).foldl (fun a m => let r := topkRow w base a.1 m; (r.1, a.2 || r.2)) (co, false)

def lineOfWords (f : Nat → W32) : Line :=
  BitVec.ofNat 1024 ((List.range 32).foldl (fun a l => a + (f l).toNat * 2 ^ (32 * l)) 0)

/-- The q1 entry of a row (R311). -/
def topkEntry (w : Mtx) (warp : Nat) (co : Core) (m : Nat) : QEnt :=
  let d := w.d.toNat
  let k := w.n.toNat
  let f (l : Nat) : W32 :=
    if l < k then accGet co d m (32 + l)
    else if l < 15 then 0xFFFFFFFF
    else if l = 15 then BitVec.ofNat 32 (m + 256 * warp)
    else if l < 16 + k then accGet co d m (l - 16)
    else if l < 31 then worstOf (w.ty == 11) (w.opt.getLsbD 2)
    else BitVec.ofNat 32 k
  let bad (l : Nat) : Bool :=
    (l < k && accBad co d m (32 + l)) || (16 ≤ l && l < 16 + k && accBad co d m (l - 16))
  { data := lineOfWords f, poison := ofBits 32 bad }

/-- The q2 entry of half a row (R312). -/
def drainEntry (c : Nat) (co : Core) (i : Nat) : QEnt :=
  let f (l : Nat) : W32 := accGet co c (i / 2) (32 * (i % 2) + l)
  { data := lineOfWords f, poison := ofBits 32 fun l => accBad co c (i / 2) (32 * (i % 2) + l) }

/-- Push entries from PROGRESS on while the queue has room. -/
def pushRows (s : State) (core : Nat) (q : QCmd) (total p : Nat) (q1 : Bool) (ent : Core → Nat → QEnt) : EngRes :=
  let co := coreOf s core
  let room := 16 - (if q1 then co.q1 else co.q2).length
  let n := min room (total - p)
  let es := (List.range n).map fun i => ent co (p + i)
  let s := setCore s core (if q1 then { co with q1 := co.q1 ++ es } else { co with q2 := co.q2 ++ es })
  let s := addStatus s core q (es.any (·.poison != 0)) false
  if p + n ≥ total then .done s else .more s (p + n)

/-! Accumulator transfers (R312). -/

def clearTile (co : Core) (c : Nat) : Core :=
  { co with acc := tcut co.acc (4096 * c) (4096 * c + 4096), accPoison := co.accPoison.filter (fun k => k / 4096 != c) }

/-- An element as CSTORE lays it down. -/
def storeElem (ty : Nat) (rnd : Rnd) (x : W32) : List Byte :=
  match ty with
  | 9 => leBytes 2 (convert .f16 .f32 rnd false x.toNat)
  | 10 => leBytes 2 (convert .bf16 .f32 rnd false x.toNat)
  | 13 => leBytes 1 (convert .t8 .f32 .rn false x.toNat)
  | 0 => leBytes 1 (wrapN 8 (clampTy .i8 (sgn 32 x.toNat)))
  | _ => leBytes 4 x.toNat

def storeRow (co : Core) (w : Mtx) (m : Nat) : List (Byte × Bool) :=
  let c := w.c.toNat
  (List.range 64).flatMap fun n =>
    (storeElem w.ty.toNat w.rnd (accGet co c m n)).map fun b => (b, accBad co c m n)

/-- An element that CLOAD reads at a byte of its row. -/
def loadElem (ty : Nat) (row : List (Byte × Bool)) (n : Nat) : W32 × Bool :=
  let size := if ty = 10 then 2 else 4
  let bs := (row.drop (size * n)).take size
  let v := leNat (bs.map (·.1))
  (BitVec.ofNat 32 (if ty = 10 then convert .f32 .bf16 .rn false v else v), bs.any (·.2))

def cload (s : State) (core : Nat) (q : QCmd) (ctx : Nat) (w : Mtx) (r : Rows) : EngRes :=
  rowsIn s ctx q (mtxSlice s core q r) r.list fun s got code =>
    let s := modCore s core fun co => ((List.range got.length).zip got).foldl (fun co p =>
      foldN 64 (fun n co =>
        let e := loadElem w.ty.toNat p.2 n
        accPut co w.d.toNat p.1 n e.1 e.2) co) co
    .done (setCode (addStatus s core q (got.any fun b => b.any (·.2)) false) core q code 0)

/-- The block was trimmed: its stores have no effect (R318, R401). -/
def trimmed (s : State) (core : Nat) (q : QCmd) : Bool :=
  q.block ≥ 16 && (match tget (coreOf s core).blocks q.block with | some b => b.prov | none => false)

/-- The lines of a row that an L1 may hold go from it. -/
def dropRow (s : State) (core ctx : Nat) (row : Nat × Nat) : State :=
  let lines := (rowsLines s ctx [row]).map (·.1)
  modCore s core fun co => { co with l1 := co.l1.filter fun z => !lines.contains z.line }

/-- A provisional row has no place: a line homed on another agent, or a fifth one in its set (R350). -/
def rowFull (s : State) (ctx : Nat) (tag : Option (Nat × Nat)) (row : Nat × Nat) : Bool :=
  match tag with
  | none => false
  | some tag => provLive s tag && (rowsLines s ctx [row]).any fun l =>
      isRemote l.1 || !provRoom (sliceOf s l.2) l.1 tag

/-- CSTORE into memory, row by row; `n` rows are left that may be written, and `code` ends them. -/
def storeRows (core : Nat) (q : QCmd) (ctx : Nat) (w : Mtx) (y : CSlice) (code : Nat) :
    Nat → Nat → List (Nat × Nat) → State → EngRes
  | 0, _, _, s => .done (setCode s core q code 0)
  | _, _, [], s => .done s
  | n + 1, m, row :: rows, s =>
    let bs := storeRow (coreOf s core) w m
    if rowFull s ctx y.prov row then .more s m
    else match writePieces s ctx (engWho s core) (tablesNow s ctx) y
        ((pieces 128 row.1 row.2).map fun p => (p.1, (bs.drop (p.1 - row.1)).take p.2)) with
      | .wait s => .more s m
      | .prot s => .done (setCode s core q 3 0)
      | .go s =>
        storeRows core q ctx w y code n (m + 1) rows
          (dropRow (addStatus s core q (bs.any (·.2)) false) core ctx row)

/-- CSTORE from PROGRESS, the next row. -/
def cstore (s : State) (core : Nat) (q : QCmd) (ctx : Nat) (w : Mtx) (r : Rows) (p : Nat) : EngRes :=
  let y := mtxSlice s core q r
  if r.space ≠ 1 then
    if engWaits s core q r.space then .stay s
    else
      let rows := ((List.range 64).zip r.list).map fun p => (p.2, storeRow (coreOf s core) w p.1)
      .done (addStatus (rows.foldl (fun s p => writeLocal s y p.1.1 p.2) s) core q (rows.any fun p => p.2.any (·.2)) false)
  else if trimmed s core q then .done s
  else match planRows s ctx { w := true } 0 (r.list.drop p) with
    | .busy l => .stay (wantLine s (ctxOf s ctx).part l false)
    | .go n code => storeRows core q ctx w y code n p (r.list.drop p) s

/-! The engine (R298, R308, R319). -/

/-- One step of MLOOP: both tiles are read before either is laid down, so that a step that fails writes nothing
(R300). -/
def loopStep (s : State) (core : Nat) (q : QCmd) (ctx : Nat) (w : Mtx) (p : Nat) : EngRes :=
  let r := loopOf q.vals
  let ty := w.ty.toNat
  let ta := w.b.toNat + p % r.la
  let tb := w.c.toNat + p % r.lb
  let len := tloadLen ty
  let read (s : State) (on second : Bool) (k : State → Option SlotIn → EngRes) : EngRes :=
    if loopRes w || !on then k s none
    else
      let rows : Rows := { space := 1, addr := if second then stepAddr r.baddr r.binc p else stepAddr r.aaddr r.ainc p,
                           pitch := if second then r.bpitch else r.apitch, len := len, dst := false }
      let scale := if loopSc w then q.scales[2 * p + (if second then 1 else 0)]? else none
      loadRead s core q ctx rows scale fun s x =>
        if x.code = 0 then k s (some x) else .done (setCode s core q x.code p)
  let lay (s : State) (slot : Nat) (x : Option SlotIn) : State :=
    match x with
    | some x => loadWrite s core q len ty false slot x
    | none => s
  read s (stepLoads r.ainc r.la p) false fun s a =>
    read s (stepLoads r.binc r.lb p) true fun s b =>
      let s := mulStep (lay (lay s ta a) tb b) core q (loopDist w) ty w.d.toNat ta tb
      if p + 1 ≥ r.steps then .done s else .more (dropAnswers s (engWho s core)) (p + 1)

/-- Units become free when the engine reaches their TREL (R296). -/
def freeRange (co : Core) (us : List (Bool × Nat)) : Core :=
  us.foldl (fun co u =>
    let co := if u.1 then { co with accOwner := tdel co.accOwner u.2 } else { co with slotOwner := tdel co.slotOwner u.2 }
    { co with releasing := sdel co.releasing (unitNo u.1 u.2) }) co

/-- Perform a command, or its next part, from PROGRESS. -/
def engDo (s : State) (core : Nat) (q : QCmd) (p : Nat) : EngRes :=
  let ctx := (coreOf s core).ctx.getD 0
  match decode [q.word] with
  | .error _ => .done s
  | .ok (i, _) =>
    match i with
    | .trel _ => .done (modCore s core fun co => freeRange co (mtxUnits q.vals i))
    | .tload w =>
      let r := rowsAt w q.vals (tloadLen w.ty.toNat) false
      loadRead s core q ctx r none fun s x =>
        .done (setCode (loadWrite s core q r.len w.ty.toNat (w.opt.getLsbD 3) w.d.toNat x) core q x.code 0)
    | .tloads w =>
      let b := (tget (coreOf s core).blocks q.block).getD {}
      let tag := if b.prov then some (b.launch, b.linear) else none
      scaleIn s core ctx tag (some (q.scales.headD 0)) fun s t =>
        let s := modCore s core fun co => slotPut co (8192 * w.d.toNat + 0x1000 + 128 * w.n.toNat) t
        .done (addStatus s core q (t.any (·.2)) false)
    | .mma w => .done (mulStep s core q false w.ty.toNat w.d.toNat w.a.toNat w.b.toNat)
    | .mdist w => .done (mulStep s core q true w.ty.toNat w.d.toNat w.a.toNat w.b.toNat)
    | .mmasp w =>
      let nb := spBlocks w
      let (co, bad, many) := accSparse (coreOf s core) nb w.d.toNat w.a.toNat w.b.toNat
      .done (addStatus (setCore s core { co with macs := co.macs + 262144 * nb }) core q bad many)
    | .mloop w => loopStep s core q ctx w p
    | .mtopk w =>
      let (co, bad) := if q.begun then (coreOf s core, false) else topk w (q.vals.headD 0) (coreOf s core)
      let s := addStatus (setCore s core co) core q bad false
      if w.opt.getLsbD 1 then pushRows s core q 64 p true (topkEntry w q.warp) else .done s
    | .czero w => .done (modCore s core fun co => foldN w.n.toNat (fun k co => clearTile co (w.d.toNat + k)) co)
    | .cload w => cload s core q ctx w (rowsAt w q.vals (accLen w.ty.toNat) false)
    | .cstore w =>
      if w.opt.toNat < 8 then cstore s core q ctx w (rowsAt w q.vals (accLen w.ty.toNat) true) p
      else pushRows s core q 128 p false (drainEntry w.c.toNat)
    | _ => .done s

/-- The command is complete: its warp's count, MSYNCs and whatever waited for it (R298, R314). -/
def engFinish (s : State) (core : Nat) (q : QCmd) : State :=
  let s := dropAnswers s (engWho s core)
  let s := modCore s core fun co => { co with cmd := none, cmdsDone := co.cmdsDone + 1 }
  drainDone (mineQ s core q fun w => settleSyncs { w with mdone := w.mdone + 1 })

/-- What the command at a word accesses: none, or whether it lies in the base layer. -/
def cmdLayer (q : QCmd) : Option Bool :=
  match decode [q.word] with
  | .ok (i, _) => mtxLayer i q.vals
  | .error _ => none

/-- The pushing warp's earlier accesses are performed at the package before a command's own (R315). -/
def engReady (s : State) (core : Nat) (q : QCmd) : Bool := cmdLayer q != some true || (allReqs s core q.warp).isEmpty

/-- An MWAIT that precedes the push has not ended: its deciding load comes before the command's accesses (R230, R315).
A save does not wait for it, and the command stays in q0. -/
def afterMwait (s : State) (core : Nat) (q : QCmd) : Bool :=
  cmdLayer q == some true && (coreOf s core).ops.any fun o => o.warp == q.warp && isMwait o && o.id < q.after

/-- Commands that a save may leave in progress: an MLOOP, and a push of rows that has begun (R319). -/
def resumable (q : QCmd) : Bool :=
  match decode [q.word] with
  | .ok (.mloop _, _) => true
  | .ok (.mtopk _, _) => q.begun
  | .ok (.cstore w, _) => q.begun && w.opt.toNat ≥ 8
  | _ => false

/-- The command in progress goes on from PROGRESS. -/
def engRun (s : State) (core : Nat) (q : QCmd) (p : Nat) : State :=
  let hold (s : State) (q : QCmd) (p : Nat) : State := modCore s core fun co => { co with cmd := some (q, p) }
  if !q.begun && !engReady s core q then hold s q p
  else match engDo s core q p with
    | .done s => engFinish s core q
    | .more s p => hold s { q with begun := true } p
    | .stay s => hold s q p

/-- Take a command through its next part.  Under a save only the one in progress goes on, until it can resume
(R319). -/
def engStep (s : State) (core : Nat) : State :=
  let co := coreOf s core
  if co.ctx.isNone || core ≥ 1024 then s
  else match co.cmd with
    | some (q, p) => if co.stopped && resumable q then s else engRun s core q p
    | none =>
      match co.q0 with
      | [] => s
      | q :: rest =>
        if co.stopped || afterMwait s core q then s
        else
          let t := modCore s core fun co => { co with q0 := rest }
          if discarded s core q then engFinish t core q else engRun t core q 0

def execEnginePerform (core : Nat) (s : State) : Host.Outcome State Fault Refusal :=
  event (.enginePerform core) s fun s => engStep s core

end Sys2Proof.Machine
end

