-- ==== Sys2Proof/Machine/Context.lean ====
section
/-! DEFINITION. Machine/Context.lean: saves and restores of contexts (R148-R151, R264, R287, R319, R339-R343, R390,
R391) and the driver's responses (R373). -/

namespace Sys2Proof.Machine

/-! Names of cores. -/

/-- Rename a core wherever work names it. -/
def renameCore (s : State) (a b : Nat) : State :=
  let n (c : Nat) : Nat := if c = a then b else c
  let o (p : Option (Nat × Nat)) : Option (Nat × Nat) := p.map fun q => (n q.1, q.2)
  let slice (y : CSlice) : CSlice := { y with core := n y.core, srcOwn := o y.srcOwn, dstOwn := o y.dstOwn }
  let copy (c : Copy) : Copy := { c with members := c.members.map fun m => (n m.1, m.2), slices := c.slices.map slice }
  let crew (c : Crew) : Crew := { c with core := n c.core, maps := c.maps.map fun m => (m.1, n m.2.1, m.2.2) }
  let unit (u : BUnit) : BUnit := { u with crews := u.crews.map (fun p => (p.1, crew p.2)),
                                           inbox := u.inbox.map fun p => { p with core := n p.core } }
  let cmd (q : QCmd) : QCmd := { q with own := o q.own }
  let core (c : Core) : Core := { c with q0 := c.q0.map cmd, cmd := c.cmd.map (fun p => (cmd p.1, p.2)) }
  { s with copies := s.copies.map (fun p => (p.1, copy p.2)), bunits := s.bunits.map (fun p => (p.1, unit p.2)),
           cores := s.cores.map (fun p => (p.1, core p.2)) }

/-- A free number for a saved core's state. -/
def firstHeld (s : State) : Nat := 4096 + (lowest (fun i => (tget s.cores (4096 + i)).isNone) 65536).getD 65536

/-! Saving. -/

/-- Save areas of a context's table, and the lowest free one (R391). -/
def freeArea (s : State) (ctx : Nat) : Option Nat :=
  lowest (fun i => !s.saves.any fun v => v.ctx == ctx && v.area == i) (descField s ctx 0x20 4)

/-- Every path of a core stops; its local barriers become remote and its stores go out (R148, R264). -/
def stopCore (s : State) (core reason : Nat) : State :=
  if (coreOf s core).stopped || (coreOf s core).ctx.isNone then s
  else
    let s := modCore s core fun co => { co with stopped := true, saving := some (reason, s.clock) }
    let crew (c : Crew) : Crew := if c.core = core then { c with remote := true } else c
    let unit (u : BUnit) : BUnit := { u with crews := u.crews.map fun p => (p.1, crew p.2) }
    acceptIf { s with bunits := s.bunits.map fun p => (p.1, unit p.2) } core fun _ => true

/-- A core runs on. -/
def unstop (s : State) (core : Nat) : State := modCore s core fun co => { co with stopped := false, saving := none }

/-- A request of a core that a save waits for, anywhere on the base die. -/
def coreReqs (s : State) (core : Nat) : Bool :=
  let mine (r : Req) : Bool := r.core == core && (match r.act with | .probe => r.op != 0 | _ => true)
  s.ports.any (fun p => p.2.any mine) || s.slices.any fun p => (sliceReqs p.2).any mine

/-- More than n arithmetic cycles have passed since an arithmetic time (R4). -/
def lateBy (s : State) (t n : Nat) : Bool := s.arith > t + 1600 * n

/-- Steps 1 to 3 of R148 are done, started copies are complete, and the engine's command is where it can resume
(R319).  What a barrier unit has sent back counts as a result in flight; a word that still waits for its answer is saved
with its message (R264). -/
def saveReady (s : State) (core reason : Nat) : Bool :=
  let co := coreOf s core
  co.wc.isEmpty && !(co.ops.any fun o => !isMwait o) &&
  !(co.warps.any fun p => p.2.a.wait == .drain || p.2.b.wait == .drain) && (tgetD s.releases core []).isEmpty &&
  !coreReqs s core && !(s.copies.any fun p => p.2.st == .moved && p.2.slices.any (·.core == core)) &&
  (match co.cmd with | some (q, _) => resumable q | none => true) &&
  !(reason == 2 && (coreOf s (partnerOf core)).ctx == co.ctx && !co.transit.isEmpty)

/-- A path as it resumes: the rest of its clause is read again, a wait at a cross-lane word starts over (R35, R150). -/
def settlePath (p : Path) : Path :=
  let p := match p.wait with | .cross _ => { p with wait := .none } | _ => p
  let p := { p with via := 0, tried := false, since := none, push := false }
  if p.wait == .none then { p with remain := leftWords p, words := [], first := false } else p

def settleWarp (w : Warp) : Warp := { w with a := settlePath w.a, b := settlePath w.b, active := false }

/-- Column-bank bytes of a core's blocks, by block and column offset. -/
def bankOut (s : State) (co : Core) : Tab Byte × NatSet :=
  let spots := co.blocks.flatMap fun (i, b) => (List.range (16384 * b.colGran.length)).map fun o =>
    (2 ^ 20 * i + o, 262144 * b.bankCol + 16384 * (b.colGran.getD (o / 16384) 0) + o % 16384)
  (spots.foldl (fun t p => tput 0 t p.1 (tgetD s.banks p.2 0)) [],
   spots.foldl (fun t p => if p.1 % 4 = 0 then sput t (p.1 / 4) (smem s.bankPoison (p.2 / 4)) else t) [])

/-- Saved blocks that share the bank bytes of a core take its latest ones with them (log 110). -/
def shareOut (s : State) (co : Core) (bank : Tab Byte) : State :=
  let mine := co.blocks.filter fun p => p.2.sharedBank
  let one (v : Saved) : Saved :=
    if v.keepBank then v
    else (coreOf s v.held).blocks.foldl (fun v p =>
      match mine.find? fun q => p.2.sharedBank && q.2.launch == p.2.launch && q.2.bankCol == p.2.bankCol with
      | some (i, b) =>
        let n := 16384 * b.colGran.length
        let got := (bank.filter fun e => 2 ^ 20 * i ≤ e.1 && e.1 < 2 ^ 20 * i + n).map fun e => (e.1 - 2 ^ 20 * i + 2 ^ 20 * p.1, e.2)
        { v with bank := splice v.bank (2 ^ 20 * p.1) (2 ^ 20 * p.1 + n) got }
      | none => v) v
  if mine.isEmpty then s else { s with saves := s.saves.map one }

/-- A saved core's slices of copies: their records in the area, and their copies withdrawn; a collective one gathers on
(R287, R288). -/
def withdrawCopies (s : State) (core held base : Nat) : State :=
  let recs := ((coreSlices s held).map fun x => (x.1, x.2.2)).take 64
  let va (id : Nat) (y : CSlice) : Option Nat := (recs.findIdx? fun r => r.1 == id && r.2 == y).map fun i => base + 0x2C00 + 64 * i
  let slice (id : Nat) (c : Copy) (y : CSlice) : CSlice :=
    if y.core = held then { y with rec' := (va id y).map fun a => (a, copyStateBits (coreOf s held) id c y 2) } else y
  let copy (id : Nat) (c : Copy) : Copy :=
    if c.slices.any fun y => y.core == held then
      { c with slices := c.slices.map (slice id c), st := if c.handle = 0 then c.st else .gathering }
    else c
  dropAnswers { s with copies := s.copies.map fun p => (p.1, copy p.1 p.2) } (engWho s core)

/-- Under a fence or a reset a collective copy that gathers and has a saved member is cancelled (R27, R287). -/
def cancelSaved (s : State) (held : Nat) : State :=
  let hit := s.copies.filter fun p => p.2.st == .gathering &&
    (p.2.members.any (fun m => m.1 == held) || p.2.slices.any fun y => y.core == held)
  hit.foldl (fun s p => drainDone (finishCopy s p.1 6)) s

/-- Step 4 of R148: the area is written, and the core is empty.  `keep` leaves column-bank granules where they are. -/
def saveNow (s : State) (core reason area : Nat) (keep : Bool) : State :=
  let co := coreOf s core
  let ctx := co.ctx.getD 0
  let base := areaVa s ctx area
  let secs := (layOut 4096 (sections s core (reason == 2))).1
  let s := (areaImg s core reason (reason == 2)).foldl (fun s c => writeVa s ctx (base + c.1) c.2) s
  let (bank, pois) := if keep then ([], []) else bankOut s co
  let s := if keep then s else co.blocks.foldl (fun s b => freeBank s b.2) (shareOut s co bank)
  let held := firstHeld s
  let s := renameCore s core held
  let image : Core := { coreOf s core with stopped := false, saving := none, l1 := [], wc := [], tlb := [],
                                           warps := co.warps.map fun p => (p.1, settleWarp p.2) }
  let rest : Core := { l1ways := co.l1ways, tlb := co.tlb, qfree8 := co.qfree8, growFail := co.growFail, ages := co.ages,
                       nextOp := co.nextOp, cfgReport := co.cfgReport }
  let v : Saved := { ctx := ctx, area := area, core := core, held := held, reason := reason, bank := bank,
                     bankPoison := pois, keepBank := keep, warps := co.warps.map (fun p => (p.1, p.2.granules.length)),
                     blocks := co.blocks.map (fun p => (p.1, p.2.scratchGran, p.2.colGran.length)),
                     slots := tkeys co.slotOwner, tiles := tkeys co.accOwner }
  let s : State := { s with cores := tins (tins s.cores core rest) held image, saves := s.saves ++ [v],
                            cur := if s.cur.any (fun c => c.1 == core) then none else s.cur }
  let s := withdrawCopies s core held (base + (secs.getD 7 (0, 0)).1)
  settleGate (if reason = 1 then cancelSaved s held else s) (pairOf core)

/-- Column-bank granules stay where they are only under the upper-tier gate (R339). -/
def keepsBank (reason : Nat) : Bool := reason == 2

/-- A reset's time for its saves is over (R27). -/
def saveLate (s : State) (core reason : Nat) : Bool :=
  let c := tgetD s.chiplets (chipletOf core) {}
  reason == 1 && (c.resetting || c.dropped) && lateBy s c.began 65536

/-- Go on with a save: it is performed when the core is ready and an area is free; a pre-emption without an area does
not start (R391). -/
def saveStep (s : State) (core reason : Nat) : State :=
  let s := stopCore s core reason
  let co := coreOf s core
  match co.ctx with
  | none => s
  | some ctx =>
    match freeArea s ctx with
    | none => if reason = 0 then unstop s core else s
    | some a => if saveReady s core reason && !saveLate s core reason then saveNow s core reason a (keepsBank reason) else s

/-! Restoring. -/

/-- The image on a core with this L1: its store offsets as they are, or packed anew (R151). -/
def repack (co : Core) : Option Core :=
  let total := storeUnits co
  if (usedSpans co).all fun p => p.1 + p.2 ≤ total then some co
  else
    let need := co.blocks.foldl (fun n b => n + 8 * b.2.scratchGran) 0 +
      co.warps.foldl (fun n w => n + 2 * w.2.granules.length + 1) 0
    if need > total then none
    else
      let (bs, _) := co.blocks.foldl (fun (a : Tab Block × Nat) b =>
        let top := a.2 - b.2.scratchGran
        (a.1 ++ [(b.1, { b.2 with scratchBase := top })], top)) ([], total / 8)
      let (ws, g) := co.warps.foldl (fun (a : Tab Warp × Nat) w =>
        let n := w.2.granules.length
        (a.1 ++ [(w.1, { w.2 with granules := (List.range n).map (· + a.2) })], a.2 + n)) ([], 0)
      let (ws, _) := ws.foldl (fun (a : Tab Warp × Nat) w => (a.1 ++ [(w.1, { w.2 with stackUnit := a.2 })], a.2 + 1))
        ([], 2 * g)
      some { co with blocks := bs, warps := ws }

/-- The other half of a column: on the partner core, or saved from it (R340). -/
def otherHalf (s : State) (v : Saved) : Option (Nat × Option Saved) :=
  let p := partnerOf v.core
  if (coreOf s p).ctx == some v.ctx then some (p, none)
  else (s.saves.find? fun u => u.ctx == v.ctx && u.core == p).map fun u => (u.held, some u)

/-- The saved context has link state (R340). -/
def linked (s : State) (v : Saved) : Bool :=
  match otherHalf s v with
  | none => false
  | some (k, _) =>
    let a := coreOf s v.held
    let b := coreOf s k
    !a.transit.isEmpty || !a.q9.isEmpty || !b.transit.isEmpty || !b.q9.isEmpty || a.qfree8 < 16 || b.qfree8 < 16

/-- A migrating column of the pair has this position as its target (R342). -/
def targeted (s : State) (core : Nat) : Bool :=
  (List.range 16).any fun pos =>
    let c := colOf s (pairOf core) pos
    c.migrating && c.target == posOf core

/-- The core is on a column and a chiplet that take work. -/
def coreInService (s : State) (core : Nat) : Bool :=
  let c := tgetD s.chiplets (chipletOf core) {}
  let col := colOf s (pairOf core) (posOf core)
  let gate := (tgetD s.pairs (pairOf core) {}).gate
  core < 1024 && !c.fenced && !c.dropped && !c.resetting && !col.absent && !col.failed && !col.migrating &&
  !targeted s core && !col.dead &&
  (core / 64 % 2 == 0 || gate == 0)

/-- Free granules of a bank. -/
def bankFree (s : State) (bank : Nat) : List Nat := (List.range 16).filter fun g => !smem s.bankUsed (16 * bank + g)

/-- The column is absent from the logical map, or its chiplet has been dropped (R11, R27). -/
def columnGone (s : State) (core : Nat) : Bool :=
  (colOf s (pairOf core) (posOf core)).absent || (tgetD s.chiplets (chipletOf core) {}).dropped

/-- The launch asks for column pairs. -/
def pairLaunch (s : State) (id : Nat) : Bool := match tget s.launches id with | some m => m.pairs | none => false

/-- A block of a column pair runs on the core, and blocks of another launch would join it in its column (R336). -/
def rivalOf (s : State) (core : Nat) (ids : List Nat) : Bool :=
  (coreOf s core).blocks.any fun b => pairLaunch s b.2.launch && ids.any (· != b.2.launch)

/-- The bank that blocks of a launch share in a cluster pair (R333). -/
def sharedIn (s : State) (id pair : Nat) : Option (Nat × List Nat) :=
  (tget s.launches id).bind fun l => (l.banks.find? fun x => x.1 == pair).map fun x => (x.2.1, x.2.2.1)

/-- Granules that blocks need in the bank of a core's column: none for those whose launch has its bank in the pair. -/
def granNeed (s : State) (im : Core) (core : Nat) : Nat :=
  (im.blocks.foldl (fun (a : Nat × List Nat) p =>
    if !p.2.sharedBank then (a.1 + p.2.colGran.length, a.2)
    else if (sharedIn s p.2.launch (pairOf core)).isSome || a.2.contains p.2.launch then a
    else (a.1 + p.2.colGran.length, p.2.launch :: a.2)) (0, [])).1

/-- Whether a saved half may come back onto a core by itself (R24, R151, R336, R340). -/
def restoreFits (s : State) (v : Saved) (core : Nat) : Bool :=
  let co := coreOf s core
  let im := coreOf s v.held
  let gateOk := (tgetD s.pairs (pairOf core) {}).gate == 3 && v.reason == 2
  co.ctx.isNone && partOfCore s core == some (ctxOf s v.ctx).part &&
  (coreInService s core || (gateOk && core == v.core)) && (repack { im with l1ways := co.l1ways }).isSome &&
  !(s.cores.any fun p => p.1 == core && !p.2.blocks.isEmpty) && !areaBusy s v &&
  !rivalOf s (partnerOf core) (im.blocks.map (·.2.launch)) &&
  (if v.keepBank then im.blocks.all (fun p => p.2.colGran.isEmpty) || core == v.core
   else granNeed s im core ≤ (bankFree s (bankNo s (pairOf core) (posOf core))).length)

def sameTier (a b : Nat) : Bool := a / 64 % 2 == b / 64 % 2

/-- A half that comes back onto its own column only, while that is there (R340). -/
def bound (s : State) (v : Saved) (core : Nat) : Bool :=
  core == v.core || (v.reason != 2 && v.reason != 3) || columnGone s v.core

/-- The saved half that must come back together with this one: link state, and the other half saved too (R340). -/
def restoreBoth (s : State) (v : Saved) : Option Saved := if linked s v then (otherHalf s v).bind (·.2) else none

/-- Where a saved context may go: its link state binds it to the core whose partner holds the other half, or to one
column together with it (R340). -/
def restoreOk (s : State) (v : Saved) (core : Nat) : Bool :=
  restoreFits s v core &&
  (if !linked s v then true
   else match restoreBoth s v with
     | none => core == v.core
     | some u => sameTier core v.core && restoreFits s u (partnerOf core) && bound s v core && bound s u (partnerOf core))

/-- Fresh granules of a core's bank with bytes and poison from block `i` of a save. -/
def placeBank (s : State) (v : Saved) (bytes : Tab Byte) (core i n : Nat) : State × Nat × List Nat :=
  let bank := bankNo s (pairOf core) (posOf core)
  let gs := (bankFree s bank).take n
  let place (o : Nat) : Nat := 262144 * bank + 16384 * (gs.getD (o / 16384) 0) + o % 16384
  let mine (k : Nat) : Bool := k / 262144 == bank && gs.contains (k % 262144 / 16384)
  let from' (k : Nat) : Bool := k / 2 ^ 20 == i
  ({ s with bankUsed := gs.foldl (fun t g => sins t (16 * bank + g)) s.bankUsed,
            banks := (bytes.filter fun p => from' p.1).foldl (fun t p => tput 0 t (place (p.1 % 2 ^ 20)) p.2)
              (s.banks.filter fun p => !mine p.1),
            bankPoison := (v.bankPoison.filter fun k => from' (4 * k)).foldl (fun t k => sins t (place (4 * k % 2 ^ 20) / 4))
              (s.bankPoison.filter fun k => !mine (4 * k)) }, bank, gs)

/-- Column-bank granules for restored blocks, with their bytes; blocks that share a bank find the one that their launch
has in the pair, with what it holds, or bring theirs (R333, log 110). -/
def bankBack (s : State) (v : Saved) (bytes : Tab Byte) (core : Nat) : State :=
  if v.keepBank then s
  else (coreOf s core).blocks.foldl (fun s (i, b) =>
    let put (s : State) (bank : Nat) (gs : List Nat) : State :=
      modBlock s core i fun x => { x with bankCol := bank, colGran := gs }
    let pair := pairOf core
    let listed (s : State) (f : List (Nat × Nat × List Nat × Nat) → List (Nat × Nat × List Nat × Nat)) : State :=
      { s with launches := tmod s.launches b.launch fun l => { l with banks := f l.banks } }
    if b.colGran.isEmpty then s
    else if !b.sharedBank then
      let (s, bank, gs) := placeBank s v bytes core i b.colGran.length
      put s bank gs
    else match sharedIn s b.launch pair with
      | some (bank, gs) =>
        put (listed s fun l => l.map fun x => if x.1 = pair then (x.1, x.2.1, x.2.2.1, x.2.2.2 + 1) else x) bank gs
      | none =>
        let (s, bank, gs) := placeBank s v bytes core i b.colGran.length
        put (listed s fun l => l ++ [(pair, bank, gs, 1)]) bank gs) s

/-- Granules that a save left on a column go into the save, since the column leaves the logical map (R11, R27). -/
def evacuate (s : State) (core : Nat) : State :=
  s.saves.foldl (fun s v =>
    if v.core ≠ core || !v.keepBank then s
    else
      let co := coreOf s v.held
      let (bank, pois) := bankOut s co
      let s := co.blocks.foldl (fun s b => freeBank s b.2) (shareOut s co bank)
      { s with saves := s.saves.map fun u =>
          if u.held = v.held then { u with bank := bank, bankPoison := pois, keepBank := false } else u }) s

/-- A warp that waits for a phase waits on, or goes on when the phase has completed (R264). -/
def recheckCrews (s : State) (core : Nat) : State :=
  let ps := (coreOf s core).warps.flatMap fun (w, x) =>
    [Slot.a, Slot.b].filterMap fun sl =>
      match (pathOf x sl).wait with
      | .crew h ph _ _ => some (w, sl, h, ph)
      | _ => none
  ps.foldl (fun s (w, sl, h, ph) =>
    match crewOf s h with
    | none => resumeCrew s core w sl
    | some c =>
      if c.broken then
        (match hereAt s core w sl with | some x => crewTrap s x (BitVec.ofNat 32 h) 2 | none => s)
      else if c.phase ≠ ph then resumeCrew s core w sl else s) s

/-! The driver's responses (R373). -/

/-- The slot of a warp that waits for the driver, with its frame's address. -/
def driverSlot (w : Warp) : Option (Slot × W64) :=
  match w.a.wait, w.b.wait with
  | .driver f, _ => some (.a, f)
  | _, .driver f => some (.b, f)
  | _, _ => none

/-- A frame as the device reads it at its home, and zeros where it cannot be read. -/
def frameRead (s : State) (core w va : Nat) : Got × List Byte :=
  let ctx := (coreOf s core).ctx.getD 0
  match walk s ctx va with
  | .busy l => (.wait (wantLine s (ctxOf s ctx).part l false), [])
  | .bad => (.prot s, [])
  | .ok leaf level => unitBytes s (ctxOf s ctx).part (deviceWho 1 (64 * core + w)) (leafPa leaf level va) 64

/-- Resume past a BRK, or fail (R177, R179). -/
def driverEnd (s : State) (core w : Nat) (x : Warp) (sl : Slot) (action : Nat) (frame : List Byte) : State :=
  if action = 1 && (frame.getD 0x39 0).toNat = 2 then
    modWarp s core w fun x => restoreFrame (leaveDriver x sl) sl frame 1 0
  else failBlock s core x.block frame

/-- Replay, resume or fail (R177, R179, R221); an answer that needs the frame waits while a line of it is on its way. -/
def driverAct (s : State) (core w action : Nat) : State :=
  match tget (coreOf s core).warps w with
  | none => s
  | some x =>
    match driverSlot x with
    | none => s
    | some (sl, f) =>
      if x.resp.isSome then s
      else if action = 0 then modWarp s core w fun x => leaveDriver x sl
      else match frameRead s core w f.toNat with
        | (.wait s, _) => modWarp s core w fun x => { x with resp := some action }
        | (.prot s, _) => driverEnd s core w x sl action (leBytes 64 0)
        | (.go s, frame) => driverEnd s core w x sl action frame

/-- Answers that wait for their frame are looked at again. -/
def respAll (s : State) : State :=
  let ws := (warpsOf s).filterMap fun p => if p.1 < 1024 then p.2.2.resp.map fun a => (p.1, p.2.1, a) else none
  ws.foldl (fun s (c, w, a) => driverAct (modWarp s c w fun x => { x with resp := none }) c w a) s

/-- A write of DRVRESP: on the warp that waits, or kept for a saved one. -/
def driverResponse (s : State) (part ctxid core w action : Nat) : State :=
  let ctx := part * 2 ^ 32 + ctxid
  let waits (k : Nat) : Bool := match tget (coreOf s k).warps w with | some x => (driverSlot x).isSome | none => false
  if (coreOf s core).ctx == some ctx then driverAct s core w action
  else { s with saves := s.saves.map fun v =>
    if v.ctx == ctx && v.core == core && waits v.held && !v.responses.any (fun r => r.1 == w) then
      { v with responses := v.responses ++ [(w, action)] }
    else v }

def execDrvrespReplay (part ctxid core warp : Nat) (s : State) : Host.Outcome State Fault Refusal :=
  event (.drvrespReplay part ctxid core warp) s fun s => if insecure s part then s else driverResponse s part ctxid core warp 0

def execDrvrespResume (part ctxid core warp : Nat) (s : State) : Host.Outcome State Fault Refusal :=
  event (.drvrespResume part ctxid core warp) s fun s => if insecure s part then s else driverResponse s part ctxid core warp 1

def execDrvrespFail (part ctxid core warp : Nat) (s : State) : Host.Outcome State Fault Refusal :=
  event (.drvrespFail part ctxid core warp) s fun s => if insecure s part then s else driverResponse s part ctxid core warp 2

/-! The restore (R151). -/

/-- MEMDEF of a descriptor; 0 stands for the default (R391). -/
def descMemdef (s : State) (ctx : Nat) : W32 :=
  let v := descField s ctx 0x24 4
  BitVec.ofNat 32 (if v = 0 then 0x269 else v)

/-- QFREE.Q8 of a core that takes a context: what the partner holds of it counts (R325, R341). -/
def freshFree (s : State) (core : Nat) (transit : Nat) (v : Option Saved) (ctx : Nat) : Nat :=
  let p := coreOf s (partnerOf core)
  let site := partnerOf (match v with | some v => v.core | none => core)
  let held := if p.ctx == some ctx then p.q9.length
    else match s.saves.find? fun u => u.ctx == ctx && u.core == site with
      | some u => (coreOf s u.held).q9.length
      | none => 0
  16 - transit - held

/-- The copies of a restored core are reissued in their recorded order, solo ones to its cluster's engine; a collective
one is ready once no member is missing (R151, R287). -/
def reissue (s : State) (core : Nat) : State :=
  (coreSlices s core).foldl (fun s x =>
    let copy (c : Copy) : Copy :=
      let c := { c with slices := c.slices.map (fun y => if y.core = core then { y with rec' := none } else y) }
      if c.cmd.isSome || withdrawn c then c
      else if c.handle = 0 then { c with engine := clusterOf core, order := s.nextReq }
      else if c.members.isEmpty && c.st == .gathering then { c with st := .ready, order := s.nextReq }
      else c
    { s with copies := tmod s.copies x.1 copy, nextReq := s.nextReq + 1 }) s

/-- Bytes 0 to 126 of the bind record of a block slot (R388). -/
def bindImg (s : State) (core k : Nat) : List Byte :=
  let co := coreOf s core
  match tget co.blocks k with
  | none => leBytes 127 0
  | some b =>
    let ws := co.warps.filter fun p => p.2.block == k
    let at' (i : Nat) (f : Warp → Nat) : Nat := match ws.find? fun p => p.2.index == i with | some p => f p.2 | none => 0
    let number := match tget s.launches b.launch with | some l => l.number.toNat | none => 0
    let regs := ws.foldl (fun n p => max n p.2.granules.length) 0
    leBytes 4 (co.ctx.getD 0) ++ leBytes 4 number ++ leBytes 4 b.bx.toNat ++ leBytes 4 b.byy.toNat ++ leBytes 4 b.bz.toNat ++
    leBytes 1 k ++ leBytes 1 ws.length ++ leBytes 2 b.bcrew ++ bitBytes 8 (fun i => ws.any fun p => p.1 == i) ++
    leBytes 4 ((List.range 16).foldl (fun n i => n + 4 ^ i * at' i (·.pipe)) 0) ++ leBytes 2 b.scratchBase ++
    leBytes 2 b.scratchGran ++ leBytes 2 (b.colGran.foldl (fun n j => n + 2 ^ j) 0) ++ leBytes 1 regs ++
    leBytes 1 (bit b.prov + 2 * bit b.bundle) ++ leBytes 4 0 ++
    (List.range 16).flatMap (fun i => leBytes 2 (at' i (·.granules.headD 0))) ++
    (List.range 16).flatMap (fun i => leBytes 2 (at' i (·.stackUnit))) ++ leBytes 15 0
where
  bit (b : Bool) : Nat := if b then 1 else 0

/-- The leaf controller writes the bind record of a block. -/
def noteBind (s : State) (core k : Nat) : State := { s with binds := tins s.binds (16 * core + k) (bindImg s core k) }

/-- A saved context comes back onto a core, from its area (R151). -/
def restoreNow (s : State) (v : Saved) (core : Nat) : State :=
  let old := coreOf s core
  let bytes := bankArea s v (coreOf s v.held)
  let back := areaBack s v (coreOf s v.held)
  let s' := renameCore { s with cores := tins s.cores v.held back } v.held core
  match repack { coreOf s' v.held with l1ways := old.l1ways } with
  | none => s
  | some im =>
    let free := freshFree s core im.transit.length (some v) v.ctx
    let co : Core :=
      { im with ctx := some v.ctx, tlb := old.tlb, l1 := [], qfree8 := free, growFail := old.growFail,
                ages := max old.ages im.ages, nextOp := max old.nextOp im.nextOp, cfgReport := old.cfgReport,
                memdef := descMemdef s v.ctx, trapvec := BitVec.ofNat 64 (descField s v.ctx 0x28 8), since := s.arith,
                l1Hits := 0, l1Misses := 0, copies := 0, macs := 0, growTime := 0, stallTime := 0,
                warps := im.warps.map fun p => (p.1, { p.2 with issued := 0 }) }
    let s := s'
    let s := { s with cores := tins (tdel s.cores v.held) core co, releases := tdel s.releases v.held,
                      saves := s.saves.filter fun u => u.held != v.held }
    let s := recheckCrews (reissue (bankBack s v bytes core) core) core
    let s := ((tkeys (coreOf s core).blocks).filter (· < 16)).foldl (fun s k => noteBind s core k) s
    let s := v.responses.foldl (fun s r => driverAct s core r.1 r.2) s
    settleGate s (pairOf v.core)

/-- The saved contexts that may go to a core, in the order of their saves; the first of them goes (R389). -/
def restoreFirst (s : State) (core : Nat) : Option Saved := s.saves.find? fun v => restoreOk s v core

def execContextRestore (core index : Nat) (s : State) : Host.Outcome State Fault Refusal :=
  event (.contextRestore core index) s fun s =>
    match s.saves[index]?, restoreFirst s core with
    | some v, some u =>
      if v.held = u.held then
        let both := restoreBoth s v
        let away := areaLines s v ++ (match both with | some o => areaLines s o | none => [])
        if !away.isEmpty then away.foldl (fun s l => wantLine s (ctxOf s v.ctx).part l false) s
        else
          let s := restoreNow s v core
          (match both with
           | some o => restoreNow s o (partnerOf core)
           | none => s)
      else s
    | _, _ => s

/-! Reasons for a save (R390). -/

/-- A queue's effective priority (R385). -/
def effPrio (s : State) (part queue : Nat) : Nat :=
  let q := queueOf s part queue
  min 7 (q.prio + q.aged)

/-- The launches whose blocks a core holds. -/
def launchesOn (s : State) (core : Nat) : List Launch :=
  (coreOf s core).blocks.filterMap fun p => tget s.launches p.2.launch

/-- A launch of the queue has waited 2^20 base clocks without a core, and outranks what the core runs. -/
def starved (s : State) (core part queue : Nat) : Bool :=
  s.launches.any fun (id, l) =>
    l.part == part && l.queue == queue && s.clock ≥ l.born + 2 ^ 20 &&
    !(s.cores.any fun p => p.2.blocks.any fun b => b.2.launch == id) &&
    (launchesOn s core).all fun k => effPrio s k.part k.queue < effPrio s part queue

def execPriorityPreempt (core part queue : Nat) (s : State) : Host.Outcome State Fault Refusal :=
  event (.priorityPreempt core part queue) s fun s =>
    if partOfCore s core == some part && !(coreOf s core).blocks.isEmpty && starved s core part queue then
      saveStep s core 0
    else s

/-- A saved half needs this core for its column (R340, R390). -/
def wanted (s : State) (core : Nat) : Bool :=
  s.saves.any fun v => v.core == core && (coreOf s core).ctx.isSome && (coreOf s core).ctx != some v.ctx && linked s v

/-- Whether the leaf controller may save a core's context for a reason (R390). -/
def mayStart (s : State) (core reason : Nat) : Bool :=
  let c := tgetD s.chiplets (chipletOf core) {}
  let col := colOf s (pairOf core) (posOf core)
  (match (coreOf s core).saving with | some (r, _) => r == reason | none => false) ||
  (match reason with
   | 0 => wanted s core
   | 1 => c.fenced || c.resetting
   | 2 => core / 64 % 2 == 1 && (tgetD s.pairs (pairOf core) {}).gate == 1
   | _ => col.failed || col.dead)

end Sys2Proof.Machine
end

