-- ==== Sys2Proof/Machine/Column.lean ====
section
/-! DEFINITION. Machine/Column.lean: saves, migrations, gates and the registers of the column link (R131, R337-R343). -/

namespace Sys2Proof.Machine

/-- The two cores of a logical column. -/
def lowerOf (pair pos : Nat) : Nat := pair / 4 * 128 + pair % 4 * 16 + pos
def upperOf (pair pos : Nat) : Nat := lowerOf pair pos + 64

/-! A bank moves to another (R342). -/

def usedOf (s : State) (bank : Nat) : List Nat := (List.range 16).filter fun g => smem s.bankUsed (16 * bank + g)

/-- Where each granule of a bank goes in another one. -/
def granMap (s : State) (a b : Nat) : List (Nat × Nat) := (usedOf s a).zip (bankFree s b)

def moveBank (s : State) (a b : Nat) : State :=
  let m := granMap s a b
  let gran (g : Nat) : Nat := ((m.find? fun p => p.1 == g).map (·.2)).getD g
  let key (k : Nat) : Nat := 262144 * b + 16384 * gran (k % 262144 / 16384) + k % 16384
  let block (x : Block) : Block := if x.bankCol = a then { x with bankCol := b, colGran := x.colGran.map gran } else x
  let core (c : Core) : Core := { c with blocks := c.blocks.map fun p => (p.1, block p.2) }
  let load (x : Nat × Nat × List Nat × Nat) : Nat × Nat × List Nat × Nat :=
    if x.2.1 = a then (x.1, b, x.2.2.1.map gran, x.2.2.2) else x
  let away := s.banks.filter fun p => p.1 / 262144 != a
  let awayP := s.bankPoison.filter fun k => 4 * k / 262144 != a
  let here' := s.banks.filter fun p => p.1 / 262144 == a
  let hereP := s.bankPoison.filter fun k => 4 * k / 262144 == a
  { s with
    cores := s.cores.map fun p => (p.1, core p.2),
    launches := s.launches.map fun p => (p.1, { p.2 with banks := p.2.banks.map load }),
    bankUsed := m.foldl (fun t p => sins (sdel t (16 * a + p.1)) (16 * b + p.2)) s.bankUsed,
    banks := here'.foldl (fun t p => tput 0 t (key p.1) p.2) away,
    bankPoison := hereP.foldl (fun t k => sins t (key (4 * k) / 4)) awayP }

/-! Migration (R342, R343). -/

/-- A started copy still writes the bank. -/
def bankBusy (s : State) (bank : Nat) : Bool :=
  s.copies.any fun p => p.2.st == .moved && p.2.slices.any fun y =>
    y.dst.space == 4 && (match tget (coreOf s y.core).blocks y.block with | some b => b.bankCol == bank | none => false)

def halfReady (s : State) (core : Nat) : Bool := (coreOf s core).ctx.isNone || saveReady s core 3

/-- Save areas are free for the halves that hold a context. -/
def areasFor (s : State) (cores : List Nat) : Bool :=
  let cs := cores.filterMap fun c => (coreOf s c).ctx
  let free (c : Nat) : Nat :=
    ((List.range (descField s c 0x20 4)).filter fun i => !s.saves.any fun v => v.ctx == c && v.area == i).length
  cs.all fun c => (cs.filter (· == c)).length ≤ free c

def saveHalf (s : State) (core : Nat) : State :=
  match (coreOf s core).ctx with
  | none => unstop s core
  | some ctx => (match freeArea s ctx with | some a => saveNow s core 3 a true | none => s)

/-- The half saved from a core comes back onto another. -/
def restoreHalf (s : State) (old core : Nat) : State :=
  match s.saves.find? fun v => v.core == old && v.reason == 3 && v.keepBank with
  | some v => restoreNow s v core
  | none => s

/-- A column's logical number passes to the spare column, which has link registers of its own. -/
def toSpare (s : State) (pair pos : Nat) : State :=
  let s := modCol s pair pos fun c => { ({} : Column) with target := c.target, spare := true, abandoned := c.abandoned }
  modPair s pair fun p => { p with spareUsed := true }

/-- The cores of TARGET hold no context any more: what transit they had has been placed (R324, R327). -/
def targetFree (s : State) (pair pos : Nat) : Bool :=
  let t := (colOf s pair pos).target
  t = 16 || ((coreOf s (lowerOf pair t)).ctx.isNone && (coreOf s (upperOf pair t)).ctx.isNone)

/-- Step 3 and 4 of R342, once the drain is complete and not too late (R343). -/
def migrateStep (s : State) (pair pos : Nat) : State :=
  let c := colOf s pair pos
  let l := lowerOf pair pos
  let u := upperOf pair pos
  let old := bankNo s pair pos
  let new := if c.target = 16 then 17 * pair + 16 else bankNo s pair c.target
  let fits := (usedOf s old).length ≤ (bankFree s new).length
  if lateBy s c.began 65536 || !fits || c.frozen || !targetFree s pair pos || !halfReady s l || !halfReady s u ||
      bankBusy s old || !areasFor s [l, u] then s
  else
    let s := moveBank (saveHalf (saveHalf s l) u) old new
    let s := modCol s pair pos fun c => { c with migrate := false, migrating := false }
    let s := if c.target = 16 then toSpare s pair pos else s
    let t := if c.target = 16 then pos else c.target
    let s := restoreHalf (restoreHalf s l (lowerOf pair t)) u (upperOf pair t)
    settleGate s pair

def execContextSave (core reason : Nat) (s : State) : Host.Outcome State Fault Refusal :=
  event (.contextSave core reason) s fun s =>
    let c := colOf s (pairOf core) (posOf core)
    if reason = 3 && c.migrating then migrateStep s (pairOf core) (posOf core)
    else if mayStart s core reason then saveStep s core reason
    else s

/-- A migration that R337 ignores. -/
def migrateIgnored (s : State) (pair pos : Nat) : Bool :=
  let p := tgetD s.pairs pair {}
  let c := colOf s pair pos
  let t := c.target
  let a := coreOf s (lowerOf pair t)
  let b := coreOf s (upperOf pair t)
  let link := a.ctx.isSome && a.ctx == b.ctx &&
    (!a.transit.isEmpty || !b.transit.isEmpty || !a.q9.isEmpty || !b.q9.isEmpty || a.qfree8 < 16 || b.qfree8 < 16)
  c.migrating || t > 16 || t = pos || p.gate ≠ 0 ||
  (if t = 16 then p.spareUsed || p.spareFailed
   else (colOf s pair t).absent || !a.blocks.isEmpty || !b.blocks.isEmpty || link)

def execMigrate (pair position : Nat) (s : State) : Host.Outcome State Fault Refusal :=
  event (.migrate pair position) s fun s =>
    if migrateIgnored s pair position then s
    else
      let s := modCol s pair position fun c => { c with migrate := true, migrating := true, began := s.arith }
      stopCore (stopCore s (lowerOf pair position) 3) (upperOf pair position) 3

def unstopFor (s : State) (core reason : Nat) : State :=
  match (coreOf s core).saving with
  | some (r, _) => if r = reason then unstop s core else s
  | none => s

def execMigrationDrainTimeout (pair position : Nat) (s : State) : Host.Outcome State Fault Refusal :=
  event (.migrationDrainTimeout pair position) s fun s =>
    let c := colOf s pair position
    if c.migrating && lateBy s c.began 65536 then
      let s := modCol s pair position fun c => { c with abandoned := true, migrate := false, migrating := false }
      settleGate (unstopFor (unstopFor s (lowerOf pair position) 3) (upperOf pair position) 3) pair
    else s

/-! Failures of a column (R11, R338). -/

def execBusFail (column : Nat) (s : State) : Host.Outcome State Fault Refusal :=
  event (.busFail column) s fun s =>
    if (colOf s (colPair column) (colPos column)).spares = 0 then
      modCol s (colPair column) (colPos column) fun c => { c with failed := true }
    else s

/-- A failed column that holds no context passes to the spare with what its bank still holds, or is marked absent
(R11, R16). -/
def remap (s : State) (pair position : Nat) : State :=
  let p := tgetD s.pairs pair {}
  let c := colOf s pair position
  let free (k : Nat) : Bool := (coreOf s k).ctx.isNone
  if (c.failed || c.dead) && !c.absent && free (lowerOf pair position) && free (upperOf pair position) then
    if !p.spareUsed && !p.spareFailed then
      toSpare (moveBank s (bankNo s pair position) (17 * pair + 16)) pair position
    else
      let s := evacuate (evacuate s (lowerOf pair position)) (upperOf pair position)
      let s := modCol s pair position fun c => { c with absent := true }
      if c.spare then modPair s pair fun p => { p with spareFailed := true } else s
  else s

/-- A column leaves the map: its vertical bus has failed, or a core of it has, which this event reports; its contexts
are saved first, as R338 has it for a bus (R11, R26, R421, log 111). -/
def execColumnRemap (pair position : Nat) (s : State) : Host.Outcome State Fault Refusal :=
  event (.columnRemap pair position) s fun s =>
    let c := colOf s pair position
    remap (if c.failed || c.absent then s else modCol s pair position fun c => { c with dead := true }) pair position

/-! The gate (R339) and STORECFG (R131). -/

def execGateRequest (pair : Nat) (s : State) : Host.Outcome State Fault Refusal :=
  event (.gateRequest pair) s fun s => settleGate (modPair s pair fun p => { p with req := true }) pair

def execGatePowerOn (pair : Nat) (s : State) : Host.Outcome State Fault Refusal :=
  event (.gatePowerOn pair) s fun s => settleGate (modPair s pair fun p => { p with req := false }) pair

def execStorecfgWrite (core : Nat) (l1ways : BitVec 2) (s : State) : Host.Outcome State Fault Refusal :=
  event (.storecfgWrite core l1ways) s fun s =>
    if (coreOf s core).ctx.isNone then modCore s core fun co => { co with l1ways := l1ways, l1 := [] }
    else modCore s core fun co => { co with cfgReport := true }

end Sys2Proof.Machine
end

