-- ==== Sys2Proof/Machine/Request.lean ====
section
/-! DEFINITION. Machine/Request.lean: requests of this package at its homes, fetches and the gate of a slice (R19-R21,
R344-R350, R359, R368, R369). -/

namespace Sys2Proof.Machine

/-! A fetch (R356). -/

def execDramFetchDone (slice line : Nat) (s : State) : Host.Outcome State Fault Refusal :=
  event (.dramFetchDone slice line) s fun s => fetchDone s slice line

/-! Requests from port buffers (R19-R21). -/

def execLr (port line : Nat) (s : State) : Host.Outcome State Fault Refusal :=
  event (.lr port line) s fun s => portTake s port line fun r => !writes r

def execLw (port line : Nat) (s : State) : Host.Outcome State Fault Refusal :=
  event (.lw port line) s fun s => portTake s port line writes

/-! Power (R359). -/

/-- The gate of a slice, one action at a time: it begins; once the transient entries are finished, one line after the
other is given up; then the slice powers off.  A message for the slice ends it before that. -/
def execSliceGate (slice : Nat) (s : State) : Host.Outcome State Fault Refusal :=
  event (.sliceGate slice) s fun s =>
    let sl := sliceOf s slice
    if sl.gated || !sl.provs.isEmpty then s
    else if !sl.gating then modSlice s slice fun sl => { sl with gating := true }
    else if !sl.entries.isEmpty || !sl.input.isEmpty then s
    else match sl.ways with
      | (k, w) :: _ => evict s slice k w
      | [] => modSlice s slice fun sl => { sl with gated := true, gating := false, plru := [] }

/-- A gated slice wakes for the requests that wait at its input, which it then takes in order. -/
def execSliceWake (slice : Nat) (s : State) : Host.Outcome State Fault Refusal :=
  event (.sliceWake slice) s fun s =>
    let sl := sliceOf s slice
    if sl.gated && !sl.input.isEmpty then modSlice s slice fun sl => { sl with gated := false } else s

end Sys2Proof.Machine
end

