-- ==== Sys2Proof/Machine/Protocol.lean ====
section
/-! DEFINITION. Machine/Protocol.lean: the messages of chapter 15 at the home and at a caching slice (R353-R358, R364,
R368, R369, R410). -/

namespace Sys2Proof.Machine

/-! Requests of other agents (R355, R358). -/

/-- This package is the home of the line. -/
def homedHere (line : Nat) : Bool := isDram line || isPacked line

/-- Lines that no other agent caches (R358). -/
def uncachable (s : State) (line : Nat) : Bool := isPacked line || sealedLine s line

def refuse (s : State) (agent line : Nat) : State := send s { agent := agent, kind := .err, line := line }

/-- The bytes a read from outside gets of a line of a sealed window: as DRAM holds them (R364). -/
def storedLine (s : State) (line : Nat) : Line := ofLineBytes (memBytes s.mem (128 * line) 128)

/-- An uncached read (R358, R364). -/
def uncachedRead (s : State) (agent line : Nat) : State :=
  if isDram line && sealedLine s line then
    send s { agent := agent, kind := .datau, line := line, data := storedLine s line }
  else refuse s agent line

/-- Copies of a line in the package's slices go without being written back. -/
def dropCopies (s : State) (line : Nat) : State :=
  s.slices.foldl (fun s p =>
    match findWay p.2 line with
    | some (k, w) => dropWay s p.1 k w
    | none => s) s

/-- The lines whose copies hold a DRAM line of a window: itself, and the logical lines packed into it. -/
def overLines (w : WinRegs) (line : Nat) : List Nat :=
  if winFormat w = 1 then
    let first := (128 * line - winStore w) / 96
    let last := (128 * line + 127 - winStore w) / 96
    line :: (List.range (last - first + 1)).map fun i => winBase w / 128 + first + i
  else [line]

/-- An uncached write: stored as given in LOAD, refused in ACTIVE (R358, R364). -/
def uncachedWrite (s : State) (agent line : Nat) (data : Line) (mask : LineMask) : State :=
  match sealedWin s line with
  | some w =>
    if isDram line && winSealOf w = 1 then
      let s := (overLines w line).foldl dropCopies s
      let new := mergeLine (storedLine s line) data mask
      let s := noteGlaze { s with mem := memPut s.mem (128 * line) (lineBytes new),
                                  memPoison := poisonSet s.memPoison line (sectorsWhole mask) 0 } line
      send s { agent := agent, kind := .wback, line := line }
    else refuse s agent line
  | none => refuse s agent line

/-- A line of a partition's host window (R409). -/
def hostLine (s : State) (line : Nat) : Bool :=
  s.parts.any fun p => match p.2.window with | some (b, n) => b ≤ 128 * line && 128 * line + 128 ≤ b + n | none => false

/-- The home serves the agent at a line: the host only in a host window (R409). -/
def mayAsk (s : State) (agent line : Nat) : Bool := homedHere line && (agent != 0 || hostLine s line)

/-- Agent 0 is there only in CXL mode, and its link takes nothing of an insecure stream (R407, R411). -/
def heard (s : State) (agent : Nat) : Bool := agent != 0 || (s.dev.cxl && tget s.dev.streams 0 != some false)

/-- A message of an agent. -/
def fromAgent (agent : Nat) (i : Instr) (s : State) (f : State → State) : Host.Outcome State Fault Refusal :=
  event i s fun s => if heard s agent then f s else s

/-- A request for a copy; the host's to a sealed line is served uncached (R358). -/
def askLine (s : State) (agent line : Nat) (r : HReq) : State :=
  if !mayAsk s agent line then refuse s agent line
  else if uncachable s line then
    (if agent = 0 then uncachedRead s agent line else send s { agent := agent, kind := .nocache, line := line })
  else submit s (holderOf s line) line r

def execRds (agent line : Nat) (s : State) : Host.Outcome State Fault Refusal :=
  fromAgent agent (.rds agent line) s fun s => askLine s agent line (.rds agent)

def execRdx (agent line : Nat) (s : State) : Host.Outcome State Fault Refusal :=
  fromAgent agent (.rdx agent line) s fun s => askLine s agent line (.rdx agent)

def execUpg (agent line : Nat) (s : State) : Host.Outcome State Fault Refusal :=
  fromAgent agent (.upg agent line) s fun s => askLine s agent line (.upg agent)

def execRdu (agent line : Nat) (s : State) : Host.Outcome State Fault Refusal :=
  fromAgent agent (.rdu agent line) s fun s => if mayAsk s agent line then uncachedRead s agent line else refuse s agent line

def execWru (agent line : Nat) (data : Line) (mask : LineMask) (s : State) : Host.Outcome State Fault Refusal :=
  fromAgent agent (.wru agent line data mask) s fun s =>
    if mayAsk s agent line then uncachedWrite s agent line data mask else refuse s agent line

/-! Write-backs (R355, R356). -/

/-- A write-back reaches a line in a stable state. -/
def backStable (s : State) (h agent line : Nat) (data : Option Line) : State :=
  let (s, k, w) := homeWay s h line
  let s := send s { agent := agent, kind := .wback, line := line }
  let st := glazeState w.glaze
  if st ≥ 2 && st ≤ 4 && glazeOwner w.glaze = agent then
    let g := if st = 3 then glazeMk 1 0 (glazeSharers w.glaze) false else glazeMk 0 0 0 false
    let w := { w with glaze := g, glazeDirty := true }
    setWay s h k (match data with | some d => withData w d 0xF | none => fillMissing s w)
  else logEvent s 0x355 (64 * line + agent)

/-- A message reaches a slice: a gate in progress ends, and a gated slice wakes (R359). -/
def stir (s : State) (h : Nat) : State :=
  if (sliceOf s h).gating || (sliceOf s h).gated then modSlice s h fun sl => { sl with gating := false, gated := false }
  else s

/-- A line whose glaze is found lost is recovered (R352, R367). -/
def checkGlaze (s : State) (h line : Nat) : State :=
  if (entryOf (sliceOf s h) line).isNone && glazeBad (glazeOf s h line) then
    startLost s h line (.own { core := 1024, line := line, home := h, act := .probe })
  else s

/-- A write-back, with data or without. -/
def writeBack (s : State) (agent line : Nat) (data : Option Line) : State :=
  if !homedHere line then refuse s agent line
  else if uncachable s line then
    (match data with
     | some d => if agent = 0 && hostLine s line then uncachedWrite s agent line d (BitVec.allOnes 128)
                 else logEvent (send s { agent := agent, kind := .wback, line := line }) 0x355 (64 * line + agent)
     | none => send s { agent := agent, kind := .wback, line := line })
  else
    let h := holderOf s line
    let s := checkGlaze (stir s h) h line
    match entryOf (sliceOf s h) line with
    | none => backStable s h agent line data
    | some e =>
      match e.phase with
      | .fs o false =>
        if o = agent then
          let (s, k, w) := homeWay s h line
          let w := { w with glaze := glazeMk 0 0 0 false, glazeDirty := true }
          let s := setWay s h k (match data with | some d => withData w d 0xF | none => fillMissing s w)
          send (modEntry s h line fun e => { e with phase := .fs o true }) { agent := agent, kind := .wback, line := line }
        else backStable s h agent line data
      | .fx o ts false =>
        -- after a loss of glaze (owner 64) dirty data of any agent counts (R367)
        if o = agent || (o = 64 && data.isSome) then
          -- o owns the line no longer; its RspI is still awaited
          let s := modEntry s h line fun e =>
            { e with phase := .fx (if o = 64 then 64 else noOwner) ts data.isSome, data := data }
          send s { agent := agent, kind := .wback, line := line }
        else backStable s h agent line data
      | _ => backStable s h agent line data

def execWbd (agent line : Nat) (data : Line) (s : State) : Host.Outcome State Fault Refusal :=
  fromAgent agent (.wbd agent line data) s fun s => writeBack s agent line (some data)

def execWbc (agent line : Nat) (s : State) : Host.Outcome State Fault Refusal :=
  fromAgent agent (.wbc agent line) s fun s => writeBack s agent line none

/-! Responses to snoops (R356, R369). -/

/-- A target has answered; dirty data is merged. -/
def targetDone (s : State) (h agent line : Nat) (data : Option Line) : State :=
  match entryOf (sliceOf s h) line with
  | none => s
  | some e =>
    match e.phase with
    | .fx o ts merged =>
      if !ts.contains agent then s
      else
        let ts := ts.filter (· != agent)
        let e := { e with phase := .fx o ts (merged || data.isSome), data := if data.isSome then data else e.data }
        let s := modEntry s h line fun _ => e
        if ts.isEmpty then endFx s h line e o (merged || data.isSome) else s
    | _ => s

/-- FS is over with the owner's data: the request is served on a line the owner keeps, S or O (R356). -/
def ownerKept (s : State) (h agent line : Nat) (data : Line) (dirty : Bool) : State :=
  match entryOf (sliceOf s h) line with
  | none => s
  | some e =>
    match e.phase with
    | .fs o false =>
      if o ≠ agent then s
      else finishWith s h line fun s =>
        let (s, k, w) := homeWay s h line
        let sh := glazeSharers w.glaze
        let w := if dirty then withData w data 0xF else { withData w data 0 with poison := (dramLine s line).2 }
        let (st, own, sh) := if dirty then (3, o, sh) else (1, 0, addSharer 0 o)
        match e.cur with
        | .rds a => setWay (dataMsg s a .datas line data) h k (withGlaze w st own (addSharer sh a))
        | .own q => performOn s h k (withGlaze w st own sh) q
        | r => takeReq s h k (withGlaze w st own sh) r
    | _ => s

/-- RspI: a target holds no copy, or the owner holds none after its write-back (R356). -/
def heldNone (s : State) (h agent line : Nat) : State :=
  match entryOf (sliceOf s h) line with
  | none => s
  | some e =>
    match e.phase with
    | .fs o written =>
      if o ≠ agent then s
      else if !written then startLost s h line e.cur
      else finishWith s h line fun s =>
        let (s, k, w) := homeWay s h line
        takeReq s h k (fillMissing s { w with glaze := glazeMk 0 0 0 false, glazeDirty := true }) e.cur
    | _ => targetDone s h agent line none

def execRspi (agent line : Nat) (s : State) : Host.Outcome State Fault Refusal :=
  fromAgent agent (.rspi agent line) s fun s => heldNone s (holderOf s line) agent line

def execRsps (agent line : Nat) (data : Line) (s : State) : Host.Outcome State Fault Refusal :=
  fromAgent agent (.rsps agent line data) s fun s => ownerKept s (holderOf s line) agent line data false

def execRspod (agent line : Nat) (data : Line) (s : State) : Host.Outcome State Fault Refusal :=
  fromAgent agent (.rspod agent line data) s fun s => ownerKept s (holderOf s line) agent line data true

def execRspid (agent line : Nat) (data : Line) (s : State) : Host.Outcome State Fault Refusal :=
  fromAgent agent (.rspid agent line data) s fun s => targetDone s (holderOf s line) agent line (some data)

/-! A slice that caches a remote line (R357, R368, R410). -/

/-- The slice that holds a remote line or waits for it. -/
def cacherOf (s : State) (line : Nat) : Nat := holderOf s line

/-- The line's entry, when it is in one of the phases a message answers. -/
def waitsFor (s : State) (line : Nat) (p : Phase → Bool) : Option (Nat × TEntry) :=
  if !isRemote line then none
  else
    let h := cacherOf s line
    match entryOf (sliceOf s h) line with
    | some e => if p e.phase then some (h, e) else none
    | none => none

/-- Answer a snoop at once. -/
def snoop (s : State) (line : Nat) (inv : Bool) : State :=
  if !isRemote line then s
  else
    let h := cacherOf s line
    let s := if (sliceOf s h).gating then stir s h else s
    let sl := sliceOf s h
    let ph := (entryOf sl line).map (·.phase)
    match if ph == some .sentWb then none else findWay sl line with
    | none => sendHome s .rspi line
    | some (k, w) =>
      let gone (s : State) : State := modSlice s h fun sl => { sl with ways := tdel sl.ways k }
      let keep (x : Held) (d : BitVec 4) : State := setWay s h k { w with held := some x, dirty := d }
      match inv, w.held with
      | true, some .m => sendHome (gone s) .rspid line w.data
      | true, some .o => if ph == some .sentU then sendHome (gone s) .rspi line else sendHome (gone s) .rspid line w.data
      | true, _ => sendHome (gone s) .rspi line
      | false, some .m =>
        if agentOfLine line = 0 then sendHome (keep .s 0) .rspsd line w.data else sendHome (keep .o w.dirty) .rspod line w.data
      | false, some .o => sendHome s .rspod line w.data
      | false, _ => sendHome (keep .s 0) .rsps line w.data

def execSnps (line : Nat) (s : State) : Host.Outcome State Fault Refusal :=
  fromAgent (agentOfLine line) (.snps line) s fun s => snoop s line false

def execSnpi (line : Nat) (s : State) : Host.Outcome State Fault Refusal :=
  fromAgent (agentOfLine line) (.snpi line) s fun s => snoop s line true

/-- A grant has come: the line is held, and the request that waited is performed (R368). -/
def granted (s : State) (line : Nat) (p : Phase → Bool) (held : Held) (data : Option Line) : State :=
  match waitsFor s line p with
  | none => s
  | some (h, e) =>
    let old := (findWay (sliceOf s h) line).map fun q => q.2.data
    match (match data with | some d => some d | none => old) with
    | none => s
    | some d =>
      finishWith s h line fun s =>
        let s := fillWay s h { line := line, data := d, valid := 0xF, held := some held }
        match findWay (sliceOf s h) line, e.cur with
        | some (k, w), .own q => performOn s h k w q
        | _, _ => s

def execDatas (line : Nat) (data : Line) (s : State) : Host.Outcome State Fault Refusal :=
  fromAgent (agentOfLine line) (.datas line data) s fun s => granted s line (· == .sentS) .s (some data)

def execDatae (line : Nat) (data : Line) (s : State) : Host.Outcome State Fault Refusal :=
  fromAgent (agentOfLine line) (.datae line data) s fun s => granted s line (· == .sentS) .e (some data)

def execDatam (line : Nat) (data : Line) (s : State) : Host.Outcome State Fault Refusal :=
  fromAgent (agentOfLine line) (.datam line data) s fun s => granted s line (fun p => p == .sentX || p == .sentU) .m (some data)

def execGntm (line : Nat) (s : State) : Host.Outcome State Fault Refusal :=
  fromAgent (agentOfLine line) (.gntm line) s fun s => granted s line (· == .sentU) .m none

/-- An entry is over with its own request performed as it is. -/
def endSent (s : State) (h line : Nat) (e : TEntry) (f : State → Req → State) : State :=
  finishWith s h line fun s => match e.cur with | .own q => f s q | _ => s

/-- A write-back or an uncached write is acknowledged. -/
def execWback (line : Nat) (s : State) : Host.Outcome State Fault Refusal :=
  fromAgent (agentOfLine line) (.wback line) s fun s =>
    match waitsFor s line fun p => p == .sentWb || p == .sentWrU with
    | some (h, e) => endSent s h line e fun s q => answerUnit (performed s q) q (some 0)
    | none => s

/-- The bytes of an uncached read go to its lanes; no line is allocated. -/
def execDatau (line : Nat) (data : Line) (s : State) : Host.Outcome State Fault Refusal :=
  fromAgent (agentOfLine line) (.datau line data) s fun s =>
    match waitsFor s line (· == .sentRdU) with
    | some (h, e) => endSent s h line e fun s q =>
        if q.act == .read then deliver s q data 0 else answerUnit (performed s q) q (some data)
    | none => s

/-- The line may not be cached: PROT for a packed line and for an atomic, else the access again, uncached (R358). -/
def execNocache (line : Nat) (s : State) : Host.Outcome State Fault Refusal :=
  fromAgent (agentOfLine line) (.nocache line) s fun s =>
    match waitsFor s line fun p => p == .sentS || p == .sentX || p == .sentU with
    | none => s
    | some (h, e) =>
      match e.cur with
      | .own q =>
        if isPacked (line % 2 ^ 34) then endSent s h line e reqFault
        else
          (match q.act with
           | .write _ 0 _ => endSent s h line e reqFault
           | .write d m _ => sendHome (modEntry s h line fun e => { e with phase := .sentWrU }) .wru line d m
           | .atom .. => endSent s h line e reqFault
           | _ => sendHome (modEntry s h line fun e => { e with phase := .sentRdU }) .rdu line)
      | _ => s

/-- The access is refused and ends with PROT. -/
def execErr (line : Nat) (s : State) : Host.Outcome State Fault Refusal :=
  fromAgent (agentOfLine line) (.err line) s fun s =>
    match waitsFor s line fun p => p == .sentS || p == .sentX || p == .sentU || p == .sentRdU || p == .sentWrU with
    | some (h, e) => endSent s h line e reqFault
    | none => s

end Sys2Proof.Machine
end

