-- ==== Sys2Proof/Machine/Slices.lean ====
section
/-! DEFINITION. Machine/Slices.lean: errors at the homes (R367), and blocks that are lost (R27, R383, R406). -/

namespace Sys2Proof.Machine

/-! Lost blocks. -/

/-- Provisional lines of a launch's blocks go (R401). -/
def dropProvs (s : State) (launch : Nat) (p : Nat → Bool) : State :=
  { s with slices := s.slices.map fun q =>
      (q.1, { q.2 with provs := q.2.provs.filter fun l => !(l.launch == launch && p l.block) }) }

/-- A block is lost for a reason of R383; a provisional one waits for the resolution to be reported (R406). -/
def loseBlock (s : State) (core b reason : Nat) : State :=
  match tget (coreOf s core).blocks b with
  | none => s
  | some x =>
    if x.prov then
      let s := killBlock (dropProvs s x.launch (· == x.linear)) core b
      { s with launches := tmod s.launches x.launch fun l => { l with lost := l.lost ++ [(x.linear, reason)] } }
    else failBlock s core b (lostEntry x.bx x.byy x.bz reason)

/-- Blocks of a core that have a slot. -/
def slotBlocks (s : State) (core : Nat) : List Nat := (tkeys (coreOf s core).blocks).filter (· < 16)

/-- Every block of a core's context is lost. -/
def loseCore (s : State) (core reason : Nat) : State :=
  (slotBlocks s core).foldl (fun s b => loseBlock s core b reason) s

/-- BLOCKID of a linear index (R381). -/
def blockId (l : Launch) (b : Nat) : W32 × W32 × W32 :=
  (BitVec.ofNat 32 (b % l.gx), BitVec.ofNat 32 (b / l.gx % l.gy), BitVec.ofNat 32 (b / l.gx / l.gy))

/-- A block that no core has taken is lost, each of its parts. -/
def loseUnplaced (s : State) (id b reason : Nat) : State :=
  match tget s.launches id with
  | none => s
  | some l =>
    let (x, y, z) := blockId l b
    l.subs.foldl (fun s _ => unitEnded s id (some (lostEntry x y z reason))) s

/-- Blocks of a launch that wait at distributors or leaf controllers; a pair's unit stands for two. -/
def unplacedOf (s : State) (id : Nat) : List Nat :=
  match tget s.launches id with
  | none => []
  | some l =>
    let us := l.dists.flatMap (·.2) ++ s.leaves.flatMap fun f => (f.2.waiting.filter (·.1 == id)).map (·.2)
    if l.pairs then us.flatMap fun b => [b, b + 1] else us

/-- Nothing of a launch waits to be placed any more. -/
def withdraw (s : State) (id : Nat) (p : Nat → Bool) : State :=
  { s with
    launches := tmod s.launches id fun l => { l with dists := l.dists.map fun d => (d.1, d.2.filter fun b => !p b) },
    leaves := s.leaves.map fun f => (f.1, { f.2 with waiting := f.2.waiting.filter fun w => !(w.1 == id && p w.2) }) }

/-- A whole launch is lost. -/
def loseLaunch (s : State) (id reason : Nat) : State :=
  match tget s.launches id with
  | none => s
  | some l =>
    let un := if l.resolved then unplacedOf s id else (unplacedOf s id).filter (· < l.floor)
    let s := withdraw s id fun _ => true
    let sites := s.cores.flatMap fun c => (c.2.blocks.filter fun b => b.1 < 16 && b.2.launch == id).map fun b => (c.1, b.1)
    let s := sites.foldl (fun s p => loseBlock s p.1 p.2 reason) (dropProvs s id fun _ => true)
    let s := { s with launches := tmod s.launches id fun l =>
                 if l.resolved then l else { l with resolved := true, total := l.floor, lost := [] } }
    launchDone (un.foldl (fun s b => loseUnplaced s id b reason) s) id

/-- Every context of a partition fails: each launch reports its blocks failed with this reason (R367). -/
def losePart (s : State) (part reason : Nat) : State :=
  ((s.launches.filter fun l => l.2.part == part).map (·.1)).foldl (fun s id => loseLaunch s id reason) s

/-! DRAM (R367). -/

/-- The glaze of a line that a slice holds takes its POISON bit anew (R352). -/
def restamp (s : State) (line : Nat) : State :=
  { s with slices := s.slices.map fun (h, sl) =>
      (h, { sl with ways := sl.ways.map fun (k, w) => (k, if w.line == line then stamped s w else w) }) }

/-- Sectors of a DRAM line become poisoned, and its glaze says so. -/
def poisonDram (s : State) (line : Nat) (bad : BitVec 4) : State :=
  if bad = 0 || !isDram line then s
  else
    let s := { s with memPoison := (setBits bad).foldl (fun p i => sins p (4 * line + i)) s.memPoison }
    logEvent (restamp (noteGlaze s line) line) 0x367 line

/-- A symbol error is corrected; the 64th at its position spares the position. -/
def execDramCorrectable (channel position : Nat) (s : State) : Host.Outcome State Fault Refusal :=
  event (.dramCorrectable channel position) s fun s =>
    let k := 65536 * channel + position
    let n := tgetD s.dev.corrected k 0 + 1
    modDev s fun d => { d with corrected := tins d.corrected k n, spared := if n ≥ 64 then sins d.spared k else d.spared }

def execDramUncorrectable (line : Nat) (sectors : BitVec 4) (s : State) : Host.Outcome State Fault Refusal :=
  event (.dramUncorrectable line sectors) s fun s => poisonDram s line sectors

def execPatrolScrub (line : Nat) (bad : BitVec 4) (s : State) : Host.Outcome State Fault Refusal :=
  event (.patrolScrub line bad) s fun s => poisonDram s line bad

/-- A line's glaze is lost: its recovery begins, or begins anew for the request in hand. -/
def execGlazeLost (line : Nat) (s : State) : Host.Outcome State Fault Refusal :=
  event (.glazeLost line) s fun s =>
    if isDram line then
      let h := holderOf s line
      let busy := match entryOf (sliceOf s h) line with
        | some e => (match e.phase with | .fx .. => true | _ => false)
        | none => false
      if busy then s else startLost s h line (.own { core := 1024, line := line, home := h, act := .probe })
    else s

/-! Slices (R367). -/

/-- Corrected in place: nothing that programs see changes. -/
def execSliceCorrectable (slice line : Nat) (s : State) : Host.Outcome State Fault Refusal :=
  event (.sliceCorrectable slice line) s fun s => s

/-- Clean sectors go and are fetched again; dirty ones are poisoned. -/
def execSliceDataUncorrectable (slice line : Nat) (sectors : BitVec 4) (s : State) : Host.Outcome State Fault Refusal :=
  event (.sliceDataUncorrectable slice line sectors) s fun s =>
    match findWay (sliceOf s slice) line with
    | none => s
    | some (k, w) =>
      match w.held with
      | some .s | some .e => evict s slice k w
      | some _ => setWay s slice k { w with poison := w.poison ||| sectors }
      | none => setWay s slice k { w with poison := w.poison ||| (sectors &&& w.dirty), valid := w.valid &&& ~~~ (sectors &&& ~~~ w.dirty) }

/-! Agents that do not answer (R367). -/

/-- Its line in E, M or O is poisoned, dirty, and ends in H. -/
def poisonLine (s : State) (h line : Nat) : State :=
  let (s, k, w) := homeWay s h line
  let w := fillMissing s { w with glaze := glazeMk 0 0 0 true, glazeDirty := true }
  setWay s h k { w with poison := 0xF, dirty := 0xF }

/-- A snoop unanswered for 2^24 base clocks: the agent is reported failed, its answer taken as RspI. -/
def execSnoopTimeout (agent line : Nat) (s : State) : Host.Outcome State Fault Refusal :=
  event (.snoopTimeout agent line) s fun s =>
    let h := holderOf s line
    match entryOf (sliceOf s h) line with
    | none => s
    | some e =>
      let late := s.clock ≥ e.since + 2 ^ 24
      let note (s : State) : State := logEvent s 0x368 agent
      match e.phase with
      | .fs o false =>
        if late && o = agent then
          heldNone (modEntry (poisonLine (note s) h line) h line fun e => { e with phase := .fs o true }) h agent line
        else s
      | .fs o true => if late && o = agent then heldNone (note s) h agent line else s
      | .fx o ts m =>
        if !late || !ts.contains agent then s
        else
          let s := if o = agent && !m then poisonLine (note s) h line else note s
          targetDone s h agent line none
      | _ => s

end Sys2Proof.Machine
end

