-- ==== Sys2Proof/Machine/Control.lean ====
section
/-! DEFINITION. Machine/Control.lean: fetching a clause (R30-R36) and the control family but SREAD and SWRITE
(R159-R173, R176-R180). -/

namespace Sys2Proof.Machine

/-! Reading code (R36, R362). -/

/-- What a read of a code word gives: the word, a class, or a line that another agent holds. -/
inductive CodeRd
  | word (w : W64)
  | bad (cls : FClass)
  | busy (line : Nat)
deriving DecidableEq, Repr

/-- The translation a core has for an address, without keeping a new one. -/
def xlateSeen (s : State) (core ctx va : Nat) : Xl :=
  ownXl s (ctxOf s ctx).part va
    (match tlbFind (coreOf s core).tlb ctx va with
     | some e => .ok e.leaf e.level
     | none =>
       match tlbFind (tgetD s.clusterTlb (clusterOf core) []) ctx va with
       | some e => .ok e.leaf e.level
       | none => walkLeaf s ctx va)

/-- What a fetch uses of a word: the home's, or, when the two differ, that of a line which the cluster's instruction
cache took in once the launch had started: old words or new ones, word by word (R38; log 104).  Bytes at an address that
is no multiple of 8 are read as they stand (R164, log 113). -/
def codeWord (s : State) (x : Here) (pa va : Nat) : W64 :=
  let now : W64 := BitVec.ofNat 64 (if pa % 8 = 0 then peek64 s pa else leNat (peekBytes s pa 8))
  match (tgetD s.icache (clusterOf x.core) []).find? fun l => l.line == pa / 128 && x.block.launch < l.mark with
  | some l =>
    let old : W64 := BitVec.ofNat 64 (lineField l.data (pa % 128) 8)
    if pa % 8 == 0 && old != now && Config.oldCode (2 ^ 64 * s.clock + va) then old else now
  | none => now

/-- A path's fetch, among the units that ask for lines. -/
def fetchWho (x : Here) : Nat := deviceWho 0 (64 * x.core + x.w)

/-- Read the word at an address with execute permission. -/
def codeAt (s : State) (x : Here) (va : W64) : CodeRd :=
  match xlateSeen s x.core x.ctx va.toNat with
  | .busy line => .busy line
  | .bad => .bad .xlate
  | .ok leaf level =>
    let pa := leafPa leaf level va.toNat
    if !leaf.getLsbD 4 || refused s (pa / 128) (fetchWho x) then .bad .prot
    else match answerTo s (pa / 128) (fetchWho x) with
      | some { data := some d, .. } => .word (BitVec.ofNat 64 (lineField d (pa % 128) 8))
      | _ => if usable s (pa / 128) false then .word (codeWord s x pa va.toNat) else .busy (pa / 128)

/-- The cluster's instruction cache takes a line in, unless it holds one that the launch may use (R38). -/
def keepLine (s : State) (x : Here) (line : Nat) : State :=
  let k := clusterOf x.core
  let ls := tgetD s.icache k []
  if !usable s line false || ls.any fun l => l.line == line && x.block.launch < l.mark then s
  else
    let new : CodeLine := { line := line, mark := s.nextLaunch, data := (peekLine s line).1 }
    { s with icache := tins s.icache k (new :: ls.filter (·.line != line)) }

/-- The lines of n words of code. -/
def codeLines (s : State) (x : Here) (va : W64) (n : Nat) : List Nat :=
  ((List.range n).filterMap fun i =>
    let a := (va + 8 * BitVec.ofNat 64 i).toNat
    match xlateSeen s x.core x.ctx a with
    | .ok leaf level => some (leafPa leaf level a / 128)
    | _ => none).eraseDups

def isHeader (w : W64) : Bool := major w == 0xFF

/-- Words read in address order, or the first that cannot be read. -/
inductive CodeRds
  | ok (ws : List W64)
  | bad (cls : FClass) (va : W64)
  | busy (line : Nat)
deriving DecidableEq, Repr

def codeWords (s : State) (x : Here) (va : W64) : Nat → CodeRds
  | 0 => .ok []
  | n + 1 =>
    match codeAt s x va with
    | .bad c => .bad c va
    | .busy l => .busy l
    | .word w =>
      match codeWords s x (va + 8) n with
      | .ok ws => .ok (w :: ws)
      | r => r

/-! The header (R30) and the checks of a clause (R31, R34, R36). -/

def hdrCount (h : W64) : Nat := (bits h 52 4).toNat + 1
def hdrClass (h : W64) : BitVec 2 := bits h 50 2
def hdrMem (h : W64) : Nat := (bits h 44 5).toNat
def hdrEng (h : W64) : Nat := (bits h 40 4).toNat
def hdrReserved (h : W64) : Bool := bits h 0 40 != 0

/-- The class of an assigned major (R31, R56); none for an unassigned one. -/
def classOf (m : Nat) : Option (BitVec 2) :=
  if m ≤ 0x15 || (0x18 ≤ m && m ≤ 0x34) || (0x40 ≤ m && m ≤ 0x5B) || (0x60 ≤ m && m ≤ 0x73) || (0x80 ≤ m && m ≤ 0x87) then
    some 0
  else if isMemMajor m then some 1
  else if (0xC0 ≤ m && m ≤ 0xCD) || (0xD0 ≤ m && m ≤ 0xDD) || (0xE0 ≤ m && m ≤ 0xE3) then some 2
  else if 0xE8 ≤ m && m ≤ 0xEA then some 3
  else none

/-- The clause-ending words (R34). -/
def endsClause (m : Nat) : Bool := (0x20 ≤ m && m ≤ 0x27) || m == 0x29 || (0x2C ≤ m && m ≤ 0x2E) || m == 0xE8

/-- The addresses that a word at an address names as headers: its target, and BRD's reconvergence (R35, R44). -/
def wordTargets (w va : W64) : List W64 :=
  let m := major w
  let t : W64 := va + 8 * (bits w 0 32).signExtend 64
  if m = 0x20 ∨ m = 0x21 ∨ m = 0x25 then [t]
  else if m = 0x22 then [t, va + 8 * (bits w 36 16).signExtend 64]
  else []

/-- The outcome of step 5 of R36: fine, an offending word with its sector address, or a line to wait for. -/
inductive Check5
  | ok
  | bad (w sector : W64)
  | busy (line : Nat)
deriving DecidableEq, Repr

/-- The words of a clause of a class, from an address, with `owed` extension words of an owner still to come. -/
def check5 (s : State) (x : Here) (cls : BitVec 2) : List W64 → W64 → Nat → Check5
  | [], _, _ => .ok
  | _ :: t, va, owed + 1 => check5 s x cls t (va + 8) owed
  | w :: t, va, 0 =>
    let m := major w
    if m = 0xFD then .bad w 0
    else if m = 0xFE then
      if cls == 1 && (match t with | w1 :: _ => isMemMajor (major w1) | [] => false) then
        check5 s x cls t (va + 8) 0
      else .bad w 0
    else match classOf m with
      | none => check5 s x cls t (va + 8) 0
      | some c =>
        let n := ownerLen w - 1
        let exts := t.take n
        if c != cls && m != 0x2A then .bad w 0
        else if exts.length < n || exts.any (fun e => major e != 0xFD) then .bad w 0
        else if (endsClause m || w.getLsbD 55) && t.length != n then .bad w 0
        else
          let rs := (wordTargets w va).map (codeAt s x)
          match rs.findSome? fun r => match r with | .busy l => some l | _ => none with
          | some l => .busy l
          | none =>
            if rs.any fun r => match r with | .word h => !isHeader h | _ => false then .bad w va
            else check5 s x cls t (va + 8) n

/-- A trap detected at fetch (R36, R176). -/
def fetchTrap (s : State) (x : Here) (cls : FClass) (word sector : W64) : State :=
  takeTrap (dropAnswers s (fetchWho x)) x { cls := cls, word := word, sector := sector, lanes := x.p.mask, fetch := true }

/-- The words that a path has yet to issue of its clause are read again after a resumption (R35); one that cannot be
read traps at that word (log 30). -/
def refetch (s : State) (x : Here) : State :=
  let part := (ctxOf s x.ctx).part
  match codeWords s x x.p.pc x.p.remain with
  | .busy l => wantLine s part l false none (fetchWho x)
  | .bad cls va => takeTrap (dropAnswers s (fetchWho x)) x { cls := cls, sector := va, lanes := x.p.mask }
  | .ok ws =>
    -- a word behind a header is the first of its clause (R209)
    let go (first : Bool) : State :=
      modWarp (dropAnswers s (fetchWho x)) x.core x.w fun w =>
        modPath w x.sl fun p => { p with words := ws, remain := 0, first := first }
    match codeAt s x (x.p.pc - 8) with
    | .busy l => wantLine s part l false none (fetchWho x)
    | .word h => go (isHeader h)
    | .bad _ => go false

/-- Fetch and check the clause at a path's PC (R36).  Where a transfer's target cannot be read (step 1), R160 gives the
sector field to the transferring word and the table of R36 to the address that could not be read: the model follows
the table (DESIGN CHOICE, log 112).  A spawn entry that is no multiple of 8 is fetched like any other (log 113). -/
def fetchClause (s : State) (x : Here) : State :=
  let part := (ctxOf s x.ctx).part
  match codeAt s x x.p.pc with
  | .busy l => wantLine s part l false none (fetchWho x)
  | .bad cls => fetchTrap s x cls 0 x.p.pc
  | .word h =>
    if !isHeader h then fetchTrap s x .undef h x.p.via
    else if hdrReserved h then fetchTrap s x .undef h 0
    else match codeWords s x (x.p.pc + 8) (hdrCount h) with
      | .busy l => wantLine s part l false none (fetchWho x)
      | .bad cls va => fetchTrap s x cls 0 va
      | .ok ws =>
        match check5 s x (hdrClass h) ws (x.p.pc + 8) 0 with
        | .busy l => wantLine s part l false none (fetchWho x)
        | .bad w sector => fetchTrap s x .undef w sector
        | .ok =>
          let s := (codeLines s x x.p.pc (hdrCount h + 1)).foldl (fun s l => keepLine s x l) s
          modWarp (dropAnswers s (fetchWho x)) x.core x.w fun w => modPath w x.sl fun p =>
            { p with pc := p.pc + 8, words := ws, cls := hdrClass h, limits := some (hdrMem h, hdrEng h),
                     first := true, via := 0 }

def execClauseFetch (s : State) : Host.Outcome State Fault Refusal :=
  event .clauseFetch s fun s =>
    match here s [] with
    | none => s
    | some x =>
      if !x.p.words.isEmpty then s
      else if x.p.remain ≠ 0 then refetch s x
      else fetchClause s x

/-! Transfers (R160-R162). -/

/-- The word issues and its path goes to a header, where it arrives (R139); under SW the path parks (R54). -/
def goTo (s : State) (x : Here) (wp : Warp) (pc via : W64) : State :=
  let w := countW wp x.sl x.ws
  let park := unitSw x.ws
  let w := { modPath w x.sl fun p => { transfer p pc via with parked := park } with active := w.active && !park }
  setWarp s x.core x.w (arrive w x.sl)

/-- The next header after a clause-ending word. -/
def Here.next (x : Here) : W64 := x.p.pc + 8

/-- The target of a branch (R44). -/
def Here.target (x : Here) (b : Bra) : W64 := x.p.pc + 8 * b.target.signExtend 64

def execBra (b : Bra) (s : State) : Host.Outcome State Fault Refusal :=
  word (.bra b) s fun s x => goTo s x x.wp (x.target b) x.p.pc

def execBrc (b : Bra) (s : State) : Host.Outcome State Fault Refusal :=
  word (.brc b) s fun s x =>
    if condZero b.cond.toNat (sget x.wp (b.fld.toNat / 256)) then goTo s x x.wp (x.target b) x.p.pc
    else goTo s x x.wp x.next 0

/-- The lanes that BRD takes (R44). -/
def brdTaken (x : Here) (b : Bra) : W32 :=
  let m := mget x.wp x.sl (b.cond.toNat % 8)
  x.p.mask &&& (if b.cond.getLsbD 3 then ~~~ m else m)

def execBrd (b : Bra) (s : State) : Host.Outcome State Fault Refusal :=
  word (.brd b) s fun s x =>
    let t := brdTaken x b
    let r : W64 := x.p.pc + 8 * b.fld.signExtend 64
    let split := t ≠ 0 && x.p.mask &&& ~~~ t ≠ 0
    let depth := x.wp.stack.length
    if split && depth + (brdPushes x.wp x.sl r t).length > 32 then
      faultAll s x .diverge 0 (BitVec.ofNat 32 depth)
    else
      let park := unitSw x.ws
      let w := brd (countW x.wp x.sl x.ws) x.sl t (x.target b) r
      let w := { modPath w x.sl fun p => { p with parked := park } with active := w.active && !park }
      let w := arrive w x.sl
      setWarp s x.core x.w (if split then arrive w (otherSlot x.sl) else w)

def execReconv (g : Gen) (s : State) : Host.Outcome State Fault Refusal :=
  word (.reconv g) s fun s x => goTo s x x.wp (x.p.rpc.getD x.next) 0

/-- A 64-bit scalar source named by its even register. -/
def pairOfSrc (w : Warp) : Src → W64
  | .reg n | .sca n => sget64 w n.toNat
  | .con _ => 0

/-- An address that no header can have: bits [63:48] or [2:0] (R160). -/
def badTarget (a : W64) : Bool := bits a 48 16 != 0 || bits a 0 3 != 0

def execJmpi (g : Gen) (s : State) : Host.Outcome State Fault Refusal :=
  word (.jmpi g) s (fun s x =>
    if badTarget (pairOfSrc x.wp g.a) then faultAll s x .undef
    else goTo s x x.wp (pairOfSrc x.wp g.a) x.p.pc)

def execRet (g : Gen) (s : State) : Host.Outcome State Fault Refusal :=
  word (.ret g) s (fun s x =>
    if badTarget (pairOfSrc x.wp g.a) then faultAll s x .undef
    else goTo s x x.wp (pairOfSrc x.wp g.a) x.p.pc)

def execCall (b : Bra) (s : State) : Host.Outcome State Fault Refusal :=
  word (.call b) s fun s x =>
    goTo s x (sset64 x.wp (b.fld.toNat / 256) x.next) (x.target b) x.p.pc

/-! EXIT and SPAWN (R141, R163, R164). -/

/-- The path's lanes exit and its slot empties; a handler that ends so lets the other slot resume (R178). -/
def exitPath (w : Warp) (sl : Slot) (exec : W32) : Warp :=
  let w := sigdEvent w 3 exec
  let w := { w with exited := w.exited ||| exec }
  let w := match w.handler with
    | some (h, _) => if h == sl then leaveHandler w else w
    | none => w
  slotEmptied w sl

def execExit (g : Gen) (s : State) : Host.Outcome State Fault Refusal :=
  word (.exit g) s fun s x => setWarp s x.core x.w (exitPath (countW x.wp x.sl x.ws) x.sl x.exec)

/-- A spawned warp (R164). -/
def spawned (x : Here) (index : Nat) (granules : List Nat) (unit : Nat) (first : Nat) (entry : W64) : Warp :=
  { block := x.wp.block, index := index, pipe := x.wp.pipe, age := x.co.ages, granules := granules, stackUnit := unit,
    sc := foldN 8 (fun i t => tput 0 t i (sget x.wp (first + i))) [], a := livePath entry x.exec none, active := false }

/-- The resources a SPAWN takes: context, index, granules and stack unit, when all are free. -/
def spawnPlace (x : Here) (n : Nat) : Option (Nat × Nat × List Nat × Nat) :=
  let ws := x.co.warps
  let mine := ws.filter fun (_, y) => y.block == x.wp.block
  let gs := (freeGranules x.co).take n
  match lowest (fun c => (tget ws c).isNone) 48, lowest (fun i => 16 ≤ i && !mine.any fun (_, y) => y.index == i) 48,
        freeStack x.co (gs.map fun g => (2 * g, 2)) with
  | some c, some i, some u =>
    if (ws.filter fun (_, y) => y.pipe == x.wp.pipe).length < 12 &&
       (mine.filter fun (_, y) => 16 ≤ y.index).length < 32 && gs.length == n then some (c, i, gs, u)
    else none
  | _, _, _ => none

/-- Earlier accesses of the spawner are performed before the new warp can access anything (R164, log 35). -/
def spawnReady (s : State) (x : Here) : Bool := !x.prov && loadsDone x.co x.w && storesDone s x.core x.w .pkg

def execSpawn (g : Gen) (s : State) : Host.Outcome State Fault Refusal :=
  word (.spawn g) s fun s x =>
    let first := match g.a with | .reg n => n.toNat | _ => 0
    if !spawnReady s x then s
    else match spawnPlace x g.sub.toNat with
      | none => retire s x (mset x.wp g.d.toNat 0)
      | some (c, i, gs, u) =>
        let y := spawned x i gs u first (pairOfSrc x.wp g.b)
        let s := modCore s x.core fun co => { co with warps := tins co.warps c y, ages := co.ages + 1 }
        retire s x (mset x.wp g.d.toNat x.exec)

/-! Waiting (R168-R170). -/

/-- YIELD: the warp is not ready for the next choice of its pipe; with the active set full and a ready warp outside it,
the warp leaves the set (R170). -/
def yieldWarp (s : State) (x : Here) : State :=
  let mates := x.co.warps.filter fun (v, y) => v != x.w && y.pipe == x.wp.pipe
  let full := (mates.filter fun (_, y) => y.active).length ≥ 3
  let ready := mates.any fun (v, y) => !y.active && warpReady s x.core v y
  retire s x { x.wp with active := x.wp.active && !(full && ready), yielded := true }

def execYield (g : Gen) (s : State) : Host.Outcome State Fault Refusal :=
  word (.yield g) s fun s x => yieldWarp s x

def execNop (g : Gen) (s : State) : Host.Outcome State Fault Refusal :=
  word (.nop g) s fun s x => retireNow s x

/-- A plain number in a source field. -/
def numOf : Src → Nat
  | .reg n | .sca n => n.toNat
  | .con n => n.toNat

def waitMetBy (s : State) (x : Here) (m e t : Nat) : Bool :=
  (m ≥ 31 || memOut x.co x.w x.wp ≤ m) && (e ≥ 15 || engOut x.wp ≤ e) && (t ≥ 63 || tokOut s x.core x.w ≤ t)

def execWaitcnt (g : Gen) (s : State) : Host.Outcome State Fault Refusal :=
  word (.waitcnt g) s fun s x =>
    if waitMetBy s x (numOf g.a) (numOf g.b) (numOf g.c) then retireNow s x else s

def execSleep (g : Gen) (s : State) : Host.Outcome State Fault Refusal :=
  word (.sleep g) s fun s x =>
    let n := (scaVal x.wp g.a).toNat
    if n = 0 then yieldWarp s x else waitAt s x (.sleep (s.clock + n))

/-! Traps by word (R179, R180). -/

/-- A trap of a kind with a code; the word itself never completes (R177). -/
def trapWord (s : State) (x : Here) (kind : BitVec 8) (code : Nat) : State :=
  takeTrap s x { kind := kind, word := unitWord x.ws, lanes := x.exec, detail := BitVec.ofNat 32 code }

def execTrap (g : Gen) (s : State) : Host.Outcome State Fault Refusal :=
  word (.trap g) s fun s x => trapWord s x 1 g.sub.toNat

/-- TRET is issued by the slot in the handler, at the handler's stack depth (R179). -/
def tretOk (x : Here) : Bool :=
  match x.wp.handler with
  | some (sl, depth) => sl == x.sl && depth == x.wp.stack.length
  | none => false

/-- What .next skips: the words of the unit at the frame PC, or for a trap at fetch COUNT of its header. -/
inductive Skip
  | by_ (units count : Nat)
  | undef
  | bad (cls : FClass) (va : W64)
  | busy (line : Nat)

def tretSkip (s : State) (x : Here) (next fetch : Bool) (pc : W64) : Skip :=
  if !next then .by_ 0 0
  else match codeAt s x pc with
    | .busy l => .busy l
    | .bad c => .bad c pc
    | .word w =>
      if fetch then (if isHeader w then .by_ 1 ((bits w 52 4).toNat) else .undef)
      else if major w = 0xFE then
        (match codeAt s x (pc + 8) with
         | .busy l => .busy l
         | .bad c => .bad c (pc + 8)
         | .word v => .by_ (unitLen [w, v]) 0)
      else .by_ (unitLen [w]) 0

def execTret (g : Gen) (s : State) : Host.Outcome State Fault Refusal :=
  word (.tret g) s (fun s x =>
    let va := x.wp.handlerFrame.toNat
    let part := (ctxOf s x.ctx).part
    if !tretOk x then faultAll s x .undef
    else if !storesDone s x.core x.w .pkg then s
    else
      let (s, c) := checkGlobal s x.core x.ctx x.exec true { r := true } [(0, va)]
      match c with
      | .busy | .wait .. => s
      | .trap cls lanes sector => fault s x cls lanes sector
      | .ok ls =>
        wordBytes s x 2 64 (groupHead ls) fun s f _ =>
          let pc : W64 := BitVec.ofNat 64 (leNat (f.take 8))
          let fetch := (f.getD 0x3A 0).getLsbD 1
          let skip := tretSkip s x (g.sub = 1) fetch pc
          let s := dropAnswers s (fetchWho x)
          match skip with
          | .busy l => wantLine s part l false none (fetchWho x)
          | .undef => faultAll s x .undef
          | .bad cls at' => faultAll s x cls at'.toNat
          | .by_ n count =>
            let park := unitSw x.ws
            let w := leaveHandler (countW x.wp x.sl x.ws)
            let w := arrive (restoreFrame w x.sl f n count) (otherSlot x.sl)
            let w := { modPath w x.sl fun p => { p with parked := park && p.st != .empty } with active := w.active && !park }
            setWarp s x.core x.w w)

/-! Signatures (R171, R173). -/

def execSigchk (m : Imm) (s : State) : Host.Outcome State Fault Refusal :=
  word (.sigchk m) s fun s x =>
    if oneSlot x.wp && x.wp.sigs != m.imm then faultAll s x .sigfail 0 x.wp.sigs else retireNow s x

def execSigrst (g : Gen) (s : State) : Host.Outcome State Fault Refusal :=
  word (.sigrst g) s fun s x =>
    retire s x (if oneSlot x.wp then { x.wp with sigs := 0xFFFFFFFF, sigd := 0 } else x.wp)

/-! REGGROW and REGSHRINK (R165-R167). -/

def execReggrow (g : Gen) (s : State) : Host.Outcome State Fault Refusal :=
  word (.reggrow g) s fun s x =>
    let n := g.sub.toNat
    if x.wp.grow.isSome then s
    else if x.wp.granules.length + n > 32 then retire s x (mset x.wp g.d.toNat 0)
    else
      let s := modWarp s x.core x.w fun w =>
        { w with grow := some (n, g.d.toNat, x.exec, x.sl, x.co.nextOp), pend := sins w.pend (512 + g.d.toNat) }
      let s := modCore s x.core fun co => { co with nextOp := co.nextOp + 1 }
      grantOne (waitAt s x .grow) x.core

/-- The window loses its highest granules, with what they held. -/
def shrink (w : Warp) (n : Nat) : Warp :=
  let keep := w.granules.length - n
  { w with granules := w.granules.take keep, v := w.v.filter fun e => e.1 < 256 * keep,
           vPoison := w.vPoison.filter fun k => k < 256 * keep }

def execRegshrink (g : Gen) (s : State) : Host.Outcome State Fault Refusal :=
  word (.regshrink g) s fun s x =>
    let n := g.sub.toNat
    let held := x.wp.granules.length
    if n ≥ held then faultAll s x .prot
    else if x.wp.pend.any fun r => r < 256 && r ≥ 8 * (held - n) then s
    else retire s x (shrink x.wp n)

end Sys2Proof.Machine
end

