-- ==== Sys2Proof/Machine/Sys.lean ====
section
/-! DEFINITION. Machine/Sys.lean: special registers (R129, R130, R174, R175) and the system family (R181-R183). -/

namespace Sys2Proof.Machine

/-! SREAD (R129, R130, R174). -/

def launchOf (s : State) (b : Block) : Option Launch := tget s.launches b.launch

/-- SHAPE: the prediction until the launch is resolved, then its shape (R397). -/
def shapeNow (s : State) (b : Block) : Nat :=
  match launchOf s b with
  | some l => if l.resolved then l.shape else l.predicted
  | none => 0

def resolvedNow (s : State) (b : Block) : Bool :=
  match launchOf s b with
  | some l => l.resolved
  | none => true

def shapeFlag (s : State) (b : Block) : Nat := if resolvedNow s b then 2 else if b.prov then 1 else 0

/-- GRIDDIM.x of a proofed launch is its LIMIT (R397). -/
def gridX (s : State) (b : Block) : Nat :=
  match launchOf s b with
  | some l => if l.proofed then l.limit else l.gx
  | none => 0

def storeCfg (co : Core) : Nat := co.l1ways.toNat + (16 - 2 ^ co.l1ways.toNat) * 16
def qFree (co : Core) : Nat := 16 - co.q0.length + co.qfree8 * 2 ^ 16

/-- The value of a special register for a lane of the issuing warp (R129). -/
def specVal (s : State) (x : Here) (sel lane : Nat) : W64 :=
  let b := x.block
  let n (k : Nat) : W64 := BitVec.ofNat 64 k
  let l := launchOf s b
  match sel with
  | 0x00 => n lane
  | 0x01 => n (warpId x.core x.w x.wp).toNat
  | 0x02 => n b.bx.toNat
  | 0x03 => n b.byy.toNat
  | 0x04 => n b.bz.toNat
  | 0x05 => n (gridX s b)
  | 0x06 => n (match l with | some l => l.gy | none => 0)
  | 0x07 => n (match l with | some l => l.gz | none => 0)
  | 0x08 => n (b.bcrew % 2 ^ 16)
  | 0x09 => n (shapeNow s b)
  | 0x0A => n (shapeFlag s b)
  | 0x0B => n s.clock
  | 0x0C => n (storeCfg x.co)
  | 0x0D => n x.co.memdef.toNat
  | 0x0E => n x.wp.sigs.toNat
  | 0x0F => n x.wp.sigd.toNat
  | 0x10 => x.co.trapvec
  | 0x11 => x.wp.trapframe
  | 0x12 => x.wp.poisonat
  | 0x13 => n (qFree x.co)
  | 0x14 => n x.co.growFail.toNat
  | 0x15 => n (x.ctx % 2 ^ 32)
  | 0x16 => n (ctxOf s x.ctx).part
  | 0x17 => n (descField s x.ctx 0x30 4)
  | _ => 0

/-- Write a value per lane of a mask, or to a scalar, 32 or 64 bits wide. -/
def specWrite (w : Warp) (vec wide : Bool) (d : Nat) (exec : W32) (f : Nat → W64) : Warp :=
  if vec then
    (if wide then writeTy w d exec .n64 fun l => (f l).toNat
     else writeLanes w d exec fun l => (f l).extractLsb' 0 32)
  else if wide then sset64 w d (f 0)
  else sset w d ((f 0).extractLsb' 0 32)

def execSread (g : Gen) (s : State) : Host.Outcome State Fault Refusal :=
  word (.sread g) s fun s x =>
    let sel := numOf g.a
    let vec := g.sub.getLsbD 0
    let d := g.d.toNat
    if g.sub.getLsbD 1 && !resolvedNow s x.block then
      retire s x { x.wp with shapeWaits := x.wp.shapeWaits ++ [(vec, d, x.exec)],
                             pend := sins x.wp.pend (if vec then d else 256 + d) }
    else
      let s := if g.sub.getLsbD 1 then modCore s x.core fun co => { co with l1 := [] } else s
      retire s x (specWrite x.wp vec (selWide sel) d x.exec (specVal s x sel))

/-! SWRITE (R51, R175). -/

/-- A legal MEMDEF value (R51). -/
def memdefOk (v : W32) : Bool :=
  let f (i : Nat) := v.toNat / 8 ^ i % 8
  v.toNat < 4096 && 1 ≤ f 0 && f 0 ≤ 4 && 1 ≤ f 1 && f 1 ≤ 6 && 1 ≤ f 2 && f 2 ≤ 7 && 1 ≤ f 3 && f 3 ≤ 4

/-- A register of the context: its field of the descriptor is written at its home, and every core that runs the context
loads it (R175); the word waits while the line is with another agent. -/
def ctxWrite (s : State) (x : Here) (off : Nat) (bs : List Byte) (load : Core → Core) : State :=
  let c := ctxOf s x.ctx
  let pa := c.desc + off
  if !usable s (pa / 128) true then wantLine s c.part (pa / 128) true
  else
    let s := homeWriteBytes s c.part pa bs
    let s := { s with cores := s.cores.map fun (k, co) => if co.ctx == x.co.ctx then (k, load co) else (k, co) }
    retireNow s x

def execSwrite (g : Gen) (s : State) : Host.Outcome State Fault Refusal :=
  word (.swrite g) s fun s x =>
    if g.d = 0x0D then
      let v := scaVal x.wp g.a
      if memdefOk v then ctxWrite s x 0x24 (leBytes 4 v.toNat) fun co => { co with memdef := v }
      else faultAll s x .undef
    else if g.d = 0x10 then
      let v := scaVal64 x.wp g.a
      if badTarget v then faultAll s x .undef
      else ctxWrite s x 0x28 (leBytes 8 v.toNat) fun co => { co with trapvec := v }
    else
      let v := scaVal x.wp g.a
      retire s x (if v.getLsbD 0 then { x.wp with poisonat := x.wp.poisonat &&& ~~~ 1 } else x.wp)

/-! The system family (R181-R183). -/

def execBrk (g : Gen) (s : State) : Host.Outcome State Fault Refusal :=
  word (.brk g) s fun s x => trapWord s x 2 g.sub.toNat

/-- The counts of R182; those of waits and stalls add up every path's time (log 12). -/
def perfCount (s : State) (x : Here) (sel : Nat) : W64 :=
  match sel with
  | 0 => BitVec.ofNat 64 ((s.arith - x.co.since) / 1600)
  | 1 => BitVec.ofNat 64 x.wp.issued
  | 2 => BitVec.ofNat 64 x.co.l1Hits
  | 3 => BitVec.ofNat 64 x.co.l1Misses
  | 4 => BitVec.ofNat 64 (x.co.growTime / 1600)
  | 5 => BitVec.ofNat 64 (x.co.stallTime / 1600)
  | 6 => BitVec.ofNat 64 x.co.copies
  | 7 => BitVec.ofNat 64 (x.co.macs / 4096)
  | _ => 0

def execPmread (g : Gen) (s : State) : Host.Outcome State Fault Refusal :=
  word (.pmread g) s fun s x =>
    retire s x (sset64 x.wp g.d.toNat (perfCount s x (numOf g.a)))

/-- The 256 bytes of the image in scratch. -/
def qpostImage (b : Block) (off : Nat) : List Byte := (List.range 256).map fun i => tgetD b.scratch (off + i) 0

/-- The modifiers of the release that publishes a slot. -/
def postMods : Mods := { plainMods with ord := .rel }

/-- A place in the slot. -/
def slotLane (s : State) (x : Here) (g : GLane) (off : Nat) : GLane :=
  { g with va := g.va + off, pa := g.pa + off, home := leafHome s (ctxOf s x.ctx).part g.leaf ((g.pa + off) / 128) }

/-- Bytes of the image, of one line, as a write of the device. -/
def slotWrite (s : State) (x : Here) (g : GLane) (mods : Mods) (img : List Byte) (off n : Nat) : UnitWrite :=
  let q := slotLane s x g off
  { line := q.line, home := q.home, data := fieldLine (q.pa % 128) n (leNat ((img.drop off).take n)),
    mask := fieldMask (q.pa % 128) n, race := raceLine s x mods q }

/-- The word completes. -/
def qpostDone (s : State) (x : Here) (g : GLane) (img : List Byte) : State :=
  let s := if x.block.shadow == .none then s
    else modWarp s x.core x.w fun w =>
      hashStore (hashStore w g.va 255 (leNat (img.take 255))) (g.va + 255) 1 (img.getD 255 0).toNat
  let s := modCore (dropWord s x) x.core fun co => l1DropLine (l1DropLine co g.line) (g.line + 1)
  retireNow (advanceEpoch s x.ctx .pkg) x

/-- Bytes 0 to 254 of the slot are written; once they are performed, the valid byte is, as a release (log 16). -/
def qpostWrite (s : State) (x : Here) (g : GLane) (img : List Byte) : State :=
  let part := (ctxOf s x.ctx).part
  let no (s : State) : State := faultAll (dropWord s x) x .prot g.va
  let body := [slotWrite s x g plainMods img 0 128, slotWrite s x g plainMods img 128 127]
  let valid := slotWrite s x g postMods img 255 1
  let ready (w : UnitWrite) : Bool :=
    usable s w.line true (some w.home) && !refused s w.line (wordWho x 0) && (answerTo s w.line (wordWho x 0)).isNone
  if isShadow x.block then qpostDone s x g img
  else if body.all ready then qpostDone (writeUnit (body.foldl (fun s w => writeUnit s part w) s) part valid) x g img
  else match unitPut s part (wordWho x 0) body true with
    | .wait s => s
    | .prot s => no s
    | .go s =>
      match unitWrites s part (wordWho x 1) [valid] with
      | .wait s => s
      | .prot s => no s
      | .go s => qpostDone s x g img

def execQpost (g : Gen) (s : State) : Host.Outcome State Fault Refusal :=
  word (.qpost g) s fun s x =>
    let va := (pairOfSrc x.wp g.a).toNat
    let off := (scaVal x.wp g.b).toNat
    if x.prov || memHeld x true then s
    else if va % 256 ≠ 0 then faultAll s x .misalign va
    else if off % 32 ≠ 0 then faultAll s x .misalign off
    else if off + 256 > 4096 * x.block.scratchGran then faultAll s x .prot off
    else
      let (s, c) := checkGlobal s x.core x.ctx x.exec true { w := true } [(0, va)]
      match c with
      | .busy | .wait .. => s
      | .trap cls lanes sector => fault s x cls lanes sector
      | .ok ls =>
        let g := groupHead ls
        if !releaseReady s x .pkg then s
        else withChk s x (checkRace s x postMods false true true ((List.range 8).map fun k => slotLane s x g (32 * k)))
          fun _ => qpostWrite s x g (qpostImage x.block off)

end Sys2Proof.Machine
end

