-- ==== Sys2Proof/Machine/Sched.lean ====
section
/-! DEFINITION. Machine/Sched.lean: the queue monitor and the global scheduler: queues, contexts, slots and the commands
other than launches (R372-R380, R384, R385, R391). -/

namespace Sys2Proof.Machine

/-! Context descriptors (R391). -/

/-- A well-formed context descriptor for queues of a partition. -/
def descOk (s : State) (part : Nat) (bs : List Byte) : Bool :=
  let f (off n : Nat) : Nat := descNat bs off n
  let k := f 0x30 4 / 2 ^ 16 % 32
  let trap : W64 := BitVec.ofNat 64 (f 0x28 8)
  f 0x04 1 == part && (tget s.parts part).isSome && f 0x05 3 == 0 && f 0x48 56 == 0 && f 0x34 4 < 4 &&
  (f 0x24 4 == 0 || memdefOk (BitVec.ofNat 32 (f 0x24 4))) && !badTarget trap &&
  f 0x30 4 < 2 ^ 21 && (k == 0 || (4 ≤ k && k ≤ 16)) &&
  f 0x08 8 % 4096 == 0 && inPartDram s part (f 0x08 8) 4096 &&
  1 ≤ f 0x20 4 && f 0x20 4 ≤ 1024 && f 0x10 8 % 65536 == 0 && f 0x18 8 % 65536 == 0 && f 0x38 8 % 32 == 0 &&
  (f 0x34 4 % 2 == 0 || f 0x40 4 == 2 ^ (f 0x40 4).log2)

/-- The device's entry for the context of a descriptor. -/
def adoptCtx (s : State) (part desc : Nat) (bs : List Byte) : State × Nat :=
  let key := part * 2 ^ 32 + descNat bs 0 4
  let c := ctxOf s key
  ({ s with contexts := tins s.contexts key { c with desc := desc, part := part } }, key)

/-! Queues (R375). -/

def queueBad (bs : List Byte) : Bool :=
  let len := descNat bs 8 4
  descNat bs 0 8 % 256 != 0 || len < 2 || len > 65536 || len != 2 ^ len.log2 || descNat bs 0x0C 1 > 7 ||
  descNat bs 0x0D 3 != 0 || descNat bs 0x24 28 != 0 || descNat bs 0x10 8 % 128 != 0

/-- The monitor waits with an enable for a line of a descriptor. -/
def enableLater (s : State) (part q : Nat) : State := modQueue s part q fun x => { x with enabling := true }

/-- The queue is not enabled: code 0x11. -/
def enableBad (s : State) (part q : Nat) : State :=
  putQueueState (modQueue s part q fun x => { x with wasActive := false, watch := false, enabling := false }) part q 2 0x11

/-- Its descriptor cannot be read, and so its state can be written nowhere: the mailbox logs it. -/
def enableLost (s : State) (part q : Nat) : State :=
  logEvent (modQueue s part q fun x => { x with enabling := false }) 0x375 q

/-- The queue is watched in its context. -/
def enableGood (s : State) (part q : Nat) (bs : List Byte) (desc : Nat) (ds : List Byte) : State :=
  let (s, key) := adoptCtx s part desc ds
  let s := modQueue s part q fun x =>
    { x with ring := descNat bs 0 8, len := descNat bs 8 4, prio := descNat bs 0x0C 1, ctx := key,
             consumed := descNat bs 0x18 8, wasActive := true, watch := true, links := 0, aged := 0, enabling := false }
  putQueueState s part q 1 0

/-- A context descriptor lies in its partition's DRAM, or at an agent of the partition (R361, log 121). -/
def descPlaced (s : State) (part pa : Nat) : Bool :=
  inPartDram s part pa 128 || (isRemote (pa / 128) && tget s.dev.agents (agentOfLine (pa / 128)) == some part)

/-- The monitor reads the queue's descriptor and its context's: the queue is watched, or refused with code 0x11. -/
def enableQueue (s : State) (part q pa : Nat) : State :=
  match unitBytes s part (deviceWho 3 (queueKey part q)) pa 64 with
  | (.wait s, _) => enableLater s part q
  | (.prot s, _) => enableLost s part q
  | (.go s, bs) =>
    let desc := descNat bs 0x10 8
    if queueBad bs || !descPlaced s part desc then enableBad s part q
    else match unitBytes s part (deviceWho 3 (32768 + queueKey part q)) desc 128 with
      | (.wait s, _) => enableLater s part q
      | (.prot s, _) => enableBad s part q
      | (.go s, ds) => if descOk s part ds then enableGood s part q bs desc ds else enableBad s part q

/-- An enable is taken up. -/
def enableGo (s : State) (part q : Nat) : State :=
  let p := pageOf s part
  let va := p.qtbase + 64 * q
  match walkDesc s p.ctx0.toNat part va with
  | .busy l => enableLater (wantLine s part l false) part q
  | .bad => enableLost s part q
  | .ok leaf level => if leaf.getLsbD 2 then enableQueue s part q (leafPa leaf level va) else enableLost s part q

/-- An enable whose descriptors were on their way. -/
def execEnableRetry (part queue : Nat) (s : State) : Host.Outcome State Fault Refusal :=
  eventIf true s fun s => if (queueOf s part queue).enabling then enableGo s part queue else s

def queueHere (s : State) (part q : Nat) : Bool := (tget s.parts part).isSome && q < (pageOf s part).qtlim

def execQueueEnable (part queue : Nat) (s : State) : Host.Outcome State Fault Refusal :=
  eventIf (below part 8 && below queue 4096) s fun s =>
    if queueHere s part queue && !insecure s part then enableGo s part queue else s

def execQueueDisable (part queue : Nat) (s : State) : Host.Outcome State Fault Refusal :=
  eventIf (below part 8 && below queue 4096) s fun s =>
    if queueHere s part queue && !insecure s part then
      putQueueState (modQueue s part queue fun x => { x with watch := false, wasActive := false, enabling := false }) part queue 0 0
    else s

def execQueueClearFault (part queue : Nat) (s : State) : Host.Outcome State Fault Refusal :=
  eventIf (below part 8 && below queue 4096) s fun s =>
    let q := queueOf s part queue
    if queueHere s part queue && !insecure s part && q.st = 2 && q.wasActive then
      putQueueState (modQueue s part queue fun x => { x with watch := true }) part queue 1 0
    else s

/-! TLB invalidation (R374). -/

/-- GO: every TLB drops the context's translations. -/
def execTlbinv (part ctxid : Nat) (s : State) : Host.Outcome State Fault Refusal :=
  eventIf (below part 8) s fun s =>
    if (tget s.parts part).isNone || (pageOf s part).tlbBusy || insecure s part then s
    else
      let key := part * 2 ^ 32 + ctxid
      let keep (t : List TlbE) : List TlbE := t.filter (·.ctx != key)
      let s := { s with cores := s.cores.map (fun p => (p.1, { p.2 with tlb := keep p.2.tlb })),
                        clusterTlb := s.clusterTlb.map fun p => (p.1, keep p.2) }
      modPage s part fun p => { p with tlbCtx := ctxid, tlbBusy := true }

/-- BUSY clears once no access that was translated before is on its way, and no copy goes on with pages that it found
before. -/
def execTlbinvDone (part : Nat) (s : State) : Host.Outcome State Fault Refusal :=
  eventIf (below part 8) s fun s =>
    let key := part * 2 ^ 32 + (pageOf s part).tlbCtx
    let mine (r : Req) : Bool := r.core < 1024 && (coreOf s r.core).ctx == some key
    if (reqsAbroad s).any mine || s.copies.any fun c => c.2.ctx == key && !c.2.pages.isEmpty then s
    else modPage s part fun p => { p with tlbBusy := false }

/-! Slots (R376, R377). -/

/-- Bytes from a to b - 1 are zero. -/
def zeroFrom (bs : List Byte) (a b : Nat) : Bool := ((bs.drop a).take (b - a)).all (· == 0)

/-- The common tail breaks a rule; `cls` says whether its class does. -/
def tailBad (bs : List Byte) : Bool :=
  let t := descNat bs 0xFC 4
  let q := descNat bs 0xF8 2
  t % 256 != 0 || t / 2 ^ 12 % 16 > 2 || t / 2 ^ 10 % 4 > 1 || t / 2 ^ 8 % 4 > 2 || q / 2 ^ 11 % 16 != 0 ||
  !zeroFrom bs 0xFA 0xFC

/-- The fields of a LAUNCH or PROOFED that a LINK has too (R381). -/
def partBad (bs : List Byte) : Bool :=
  let f (off n : Nat) : Nat := descNat bs off n
  f 0 8 % 8 != 0 || f 8 8 % 8 != 0 || (f 8 8 == 0 && f 0x10 4 != 0) || f 0x10 4 > 65536 || f 0x10 4 % 8 != 0 ||
  f 0x14 4 != 0 || f 0x24 2 < 32 || f 0x24 2 > 512 || f 0x24 2 % 32 != 0 || f 0x26 2 < 1 || f 0x26 2 > 256 ||
  f 0x2C 4 > 262144

/-- Cores that a launch's CORESET and partition allow (R381); a core that has left the logical map is none (R16). -/
def allowedCore (s : State) (part first count core : Nat) : Bool :=
  partOfCore s core == some part && !columnGone s core && (count == 0 || (first ≤ core && core < first + count))

def gridBad (bs : List Byte) : Bool :=
  let f (off n : Nat) : Nat := descNat bs off n
  f 0x18 4 == 0 || f 0x1C 4 == 0 || f 0x20 4 == 0 || f 0x18 4 * f 0x1C 4 * f 0x20 4 ≥ 2 ^ 32

def launchBad (s : State) (part : Nat) (bs : List Byte) (proofed : Bool) : Bool :=
  let f (off n : Nat) : Nat := descNat bs off n
  let cs := f 0x40 4
  partBad bs || gridBad bs || f 0x34 4 > 3 || cs % 2 ^ 16 ≥ 2 ^ 10 || cs ≥ 2 ^ 27 || f 0x44 2 > 3 || f 0x46 2 != 0 ||
  f 0x48 8 % 128 != 0 || f 0x50 8 % 64 != 0 || f 0x5C 4 != 0 ||
  (f 0x34 4 % 2 == 1 && (f 0x18 4 % 2 == 1 || f 0x1C 4 != 1 || f 0x20 4 != 1)) ||
  !((List.range 1024).any fun c => allowedCore s part (cs % 2 ^ 10) (cs / 2 ^ 16) c) ||
  (if proofed then
     f 0x1C 4 != 1 || f 0x20 4 != 1 || f 0x44 2 != 0 || f 0x60 4 == 0 || f 0x64 1 > 3 || f 0x65 3 != 0 ||
     f 0x68 8 % 8 != 0 || f 0x70 4 > f 0x18 4 || f 0x78 8 == 0 || !zeroFrom bs 0x80 0xF8
   else f 0x60 4 != 0 || !zeroFrom bs 0x64 0xF8)

/-- A LINK of a bundle whose LAUNCH has these bytes (R382). -/
def linkBad (head bs : List Byte) : Bool :=
  descNat bs 0xFE 1 != 2 || partBad bs || descNat bs 0x18 8 != descNat head 0x18 8 ||
  descNat bs 0x20 4 != descNat head 0x20 4 || !zeroFrom bs 0x30 0xFE

def otherBad (ty : Nat) (bs : List Byte) : Bool :=
  match ty with
  | 4 =>
    !zeroFrom bs 0x50 0xF0 || descBad (bs.take 32) false || descBad ((bs.drop 32).take 32) true ||
    (descOf (bs.take 32)).space != 1 || (descOf ((bs.drop 32).take 32)).space != 1 ||
    descDiffer (descOf (bs.take 32)) (descOf ((bs.drop 32).take 32)) || descNat bs 0x40 8 % 8 != 0
  | 5 => descNat bs 0 8 % 8 != 0 || descNat bs 0x10 1 > 2 || !zeroFrom bs 0x11 0xF0
  | 6 => descNat bs 0 8 % 8 != 0 || descNat bs 0x10 1 > 5 || !zeroFrom bs 0x11 0x18 || !zeroFrom bs 0x20 0xF0
  | _ => !zeroFrom bs 0 0xF0

/-- A slot that completes MALFORMED. -/
def cmdBad (s : State) (part : Nat) (bs : List Byte) (inBundle : Bool) : Bool :=
  let ty := descNat bs 0xFE 1
  tailBad bs ||
  (match ty with
   | 1 => launchBad s part bs false || descNat bs 0x38 8 % 16 != 0
   | 2 => !inBundle
   | 3 => launchBad s part bs true || descNat bs 0x38 8 % 16 != 0
   | _ => ty == 0 || ty > 8 || otherBad ty bs || descNat bs 0xF0 8 % 16 != 0)

/-- LINK slots that belong to a slot. -/
def linksOf (bs : List Byte) : Nat :=
  if descNat bs 0xFE 1 = 1 && descNat bs 0x44 2 ≤ 3 then descNat bs 0x44 2 else 0

/-- The monitor takes a slot (R376): the command enters the tables, CONSUMED goes up. -/
def acceptSlot (s : State) (part qn : Nat) (q : Queue) (bs : List Byte) : State :=
  let inB := q.links > 0
  let code := if q.st = 2 then some 0x13 else if cmdBad s part bs inB then some 0x11 else none
  let c : Cmd := { part := part, queue := qn, index := q.consumed, ctx := q.ctx, bytes := bs, code := code,
                   bundle := if inB then some q.head else none }
  let n := if inB then q.links - 1 else linksOf bs
  let s := modQueue { s with cmds := s.cmds ++ [c] } part qn fun x =>
    { x with consumed := (q.consumed + 1) % 2 ^ 64, links := n, head := if inB then q.head else q.consumed }
  queuePut s part qn 0x18 (leBytes 8 (q.consumed + 1))

/-- The watched slot cannot be read (R376). -/
def slotFault (s : State) (part qn code : Nat) : State :=
  let s := faultQueue (modQueue s part qn fun x => { x with watch := false }) part qn code
  irq (logEvent s 0x376 (256 * qn + code)) part 0

def execSlotAccept (part queue : Nat) (s : State) : Host.Outcome State Fault Refusal :=
  eventIf (below part 8 && below queue 4096) s fun s =>
    let q := queueOf s part queue
    if !q.watch then s
    else
      let va := q.ring + 256 * (q.consumed % q.len)
      match walk s q.ctx va with
      | .busy l => wantLine s part l false
      | .bad => slotFault s part queue 2
      | .ok leaf level =>
        if !leaf.getLsbD 2 then slotFault s part queue 3
        else match unitBytes s part (deviceWho 3 (queueKey part queue)) (leafPa leaf level va) 256 with
          | (.wait s, _) => s
          | (.prot s, _) => slotFault s part queue 3
          | (.go s, bs) => if descNat bs 0xFF 1 = q.consumed / q.len % 255 + 1 then acceptSlot s part queue q bs else s

/-! When a command may start (R378, R380, R385). -/

/-- It counts as started for class PIPELINE: a launch at its first bound block, a PROOFED at its prediction. -/
def cmdStarted (s : State) (c : Cmd) : Bool :=
  c.st != .parsed &&
  (if cmdType c = 1 then (match tget s.launches c.launch with | some l => l.bound | none => true) else true)

/-- All slots of the bundle are there. -/
def bundleWhole (c : Cmd) : Bool := c.bytes.length ≥ 256 * (linksOf c.bytes + 1)

def isWaitCmd (c : Cmd) : Bool := cmdType c == 6

/-- Ordering classes, an earlier WAIT, MARKER and NOP. -/
def canStart (s : State) (c : Cmd) : Bool :=
  let earlier := s.cmds.filter fun d => d.part == c.part && d.queue == c.queue && d.index < c.index && d.bundle.isNone
  let plain := c.code.isNone
  c.st == .parsed && c.bundle.isNone && bundleWhole c &&
  (if plain && cmdType c == 8 then true
   else !(earlier.any isWaitCmd) &&
     (if plain && cmdType c == 7 then earlier.isEmpty
      else match cmdClass c with
        | 1 => earlier.all (cmdStarted s)
        | 2 => true
        | _ => earlier.isEmpty))

/-- The clock at which a command could first start. -/
def noteReady (s : State) : State :=
  { s with cmds := s.cmds.map fun c => if c.ready.isNone && canStart s c then { c with ready := some s.clock } else c }

/-- Ready commands of a partition go in order of priority, then of queue number, then of slot, once the device's writes
for earlier ones are made. -/
def mayStartCmd (s : State) (c : Cmd) : Bool :=
  canStart s c && !(s.late.any fun x => x.part == c.part) && !s.cmds.any fun d =>
    d.part == c.part && canStart s d &&
    (let a := effPrio s d.part d.queue
     let b := effPrio s c.part c.queue
     a > b || (a == b && (d.queue < c.queue || (d.queue == c.queue && d.index < c.index))))

/-- The frame of a command's start: one that completes with a code runs nothing. -/
def startCmd (s : State) (part queue index : Nat) (ty : Nat → Bool) (f : State → Cmd → State) : State :=
  match findCmd s part queue index with
  | none => s
  | some c =>
    if !ty (cmdType c) || !mayStartCmd s c then s
    else
      let s := modQueue s part queue fun q => { q with aged := 0 }
      match c.code with
      | some k => completeCmd s c k 0
      | none => f s c

/-- The oldest ready command has waited another 2^16 base clocks (R385). -/
def execPriorityAge (part queue : Nat) (s : State) : Host.Outcome State Fault Refusal :=
  eventIf (below part 8 && below queue 4096) s fun s =>
    match (s.cmds.filter fun c => c.part == part && c.queue == queue && canStart s c).head? with
    | none => s
    | some c =>
      let n := (s.clock - c.ready.getD s.clock) / 2 ^ 16
      if n > (queueOf s part queue).aged then modQueue s part queue fun q => { q with aged := n } else s

/-! COPY, MARKER and NOP (R290, R384). -/

/-- The partition's engine with the fewest copies (R290). -/
def freestEngine (s : State) (part : Nat) : Nat :=
  let es := (chipletsOf s part).flatMap fun c => (List.range 8).map (· + 8 * c)
  ((sortBy (engineCopies s) es).head?).getD 0

/-- A COPY goes to that engine; while it holds 1,024 copies the command waits (R284, R290). -/
def startCopy (s : State) (c : Cmd) : State :=
  if engineCopies s (freestEngine s c.part) ≥ 1024 then s
  else
  let d := descOf (c.bytes.take 32)
  let stamp := cmdField c 0x40 8
  let y : CSlice := { core := 1024, warp := 0, block := 0, src := d, dst := descOf ((c.bytes.drop 32).take 32),
                      firstRow := 0, count := d.rows, tok := none, sta := if stamp = 0 then none else some stamp,
                      stv := BitVec.ofNat 64 (cmdField c 0x48 8) }
  let k : Copy := { ctx := c.ctx, engine := freestEngine s c.part, handle := 0, rid := 0, cond := false, members := [],
                    slices := [y], st := .ready, order := s.nextReq, cmd := some (c.part, c.queue, c.index) }
  let s := { s with copies := tins s.copies s.nextCopy k, nextCopy := s.nextCopy + 1, nextReq := s.nextReq + 1 }
  modCmd s c.part c.queue c.index fun c => { c with st := .started }

def execCopy (part queue index : Nat) (s : State) : Host.Outcome State Fault Refusal :=
  eventIf (below part 8 && below queue 4096) s fun s => startCmd s part queue index (· == 4) startCopy

def execMarker (part queue index : Nat) (s : State) : Host.Outcome State Fault Refusal :=
  eventIf (below part 8 && below queue 4096) s fun s => startCmd s part queue index (· == 7) fun s c => completeCmd s c 0 0

/-- NOP; a slot of no type ends here too. -/
def execNopCmd (part queue index : Nat) (s : State) : Host.Outcome State Fault Refusal :=
  eventIf (below part 8 && below queue 4096) s fun s =>
    startCmd s part queue index (fun t => t == 8 || t == 0 || t > 8) fun s c => completeCmd s c 0 0

/-! SIGNAL and WAIT (R384, R385). -/

/-- What a command finds at its word. -/
inductive WordAt
  | fail (code : Nat)
  | busy (line : Nat)
  | ok (pa val : Nat)

/-- A command, among the units that ask for lines. -/
def cmdWho (c : Cmd) : Nat := deviceWho 2 (32768 * c.index + queueKey c.part c.queue)

/-- A command's word: one that its home does not let it use so is without permission (R353, R358). -/
def wordAt (s : State) (c : Cmd) (write : Bool) : WordAt :=
  let va := cmdField c 0 8
  match walk s c.ctx va with
  | .busy l => .busy l
  | .bad => .fail 2
  | .ok leaf level =>
    let pa := leafPa leaf level va
    if !leaf.getLsbD 2 || (write && !leaf.getLsbD 3) || refused s (pa / 128) (cmdWho c) then .fail 3
    else match answerTo s (pa / 128) (cmdWho c) with
      | some { data := some d, .. } => if write then .fail 3 else .ok pa (lineField d (pa % 128) 8)
      | _ => if usable s (pa / 128) write then .ok pa (peek64 s pa) else .busy (pa / 128)

def startSignal (s : State) (c : Cmd) : State :=
  match wordAt s c true with
  | .fail n => completeCmd (dropAnswers s (cmdWho c)) c n 0
  | .busy l => wantLine s c.part l true none (cmdWho c)
  | .ok pa old =>
    let v := cmdField c 8 8
    let new := match cmdField c 0x10 1 with | 0 => v | 1 => (old + v) % 2 ^ 64 | _ => max old v
    completeCmd (homeWriteBytes s c.part pa (leBytes 8 new)) c 0 0

def execSignal (part queue index : Nat) (s : State) : Host.Outcome State Fault Refusal :=
  eventIf (below part 8 && below queue 4096) s fun s => startCmd s part queue index (· == 5) startSignal

/-- The condition of a WAIT holds now; none while its word cannot be read. -/
def waitHolds (s : State) (c : Cmd) : Option Bool :=
  match wordAt s c false with
  | .ok _ v => some (condTy .n64 (cmdField c 0x10 1) v (cmdField c 8 8))
  | .fail _ => some false
  | .busy _ => none

/-- It times out, and its queue faults. -/
def waitOut (s : State) (c : Cmd) (code : Nat) : State :=
  faultQueue (completeCmd (dropAnswers s (cmdWho c)) c code 0) c.part c.queue code

/-- It succeeds. -/
def waitDone (s : State) (c : Cmd) : State := completeCmd (dropAnswers s (cmdWho c)) c 0 0

/-- WAITs in the table of 1,024 slots (R385). -/
def waitsHeld (s : State) : Nat := (s.cmds.filter fun c => c.st == .waiting && !c.spilled).length

def startWait (s : State) (c : Cmd) : State :=
  match wordAt s c false with
  | .fail n => waitOut s c n
  | .busy l => wantLine s c.part l false none (cmdWho c)
  | .ok .. =>
    let t := cmdField c 0x18 8
    let full := waitsHeld s ≥ 1024
    if waitHolds s c == some true && (t = 0 || !full) then waitDone s c
    else if t = 0 then waitOut s c 0x12
    else modCmd (dropAnswers s (cmdWho c)) c.part c.queue c.index fun c => { c with st := .waiting, deadline := s.clock + t, spilled := full }

def execWait (part queue index : Nat) (s : State) : Host.Outcome State Fault Refusal :=
  eventIf (below part 8 && below queue 4096) s fun s => startCmd s part queue index (· == 6) startWait

/-- The oldest spilled WAIT takes a slot of the table that has become free. -/
def unspill (s : State) (c : Cmd) : State × Bool :=
  if !c.spilled then (s, true)
  else match s.cmds.find? fun d => d.st == .waiting && d.spilled with
    | some d =>
      if sameCmd d c.part c.queue c.index && waitsHeld s < 1024 then
        (modCmd s c.part c.queue c.index fun c => { c with spilled := false }, true)
      else (s, false)
    | none => (s, false)

def execWaitMet (part queue index : Nat) (s : State) : Host.Outcome State Fault Refusal :=
  eventIf (below part 8 && below queue 4096) s fun s =>
    match findCmd s part queue index with
    | none => s
    | some c =>
      if c.st != .waiting || s.clock > c.deadline then s
      else
        let (s, held) := unspill s c
        if !held then s
        else match waitHolds s c with
          | some true => waitDone s c
          | some false => dropAnswers s (cmdWho c)
          | none => (match wordAt s c false with | .busy l => wantLine s part l false none (cmdWho c) | _ => s)

/-- The deadline: one more test in its base clock, then TIMEOUT. -/
def execWaitTimeout (part queue index : Nat) (s : State) : Host.Outcome State Fault Refusal :=
  eventIf (below part 8 && below queue 4096) s fun s =>
    match findCmd s part queue index with
    | none => s
    | some c =>
      if c.st != .waiting || s.clock < c.deadline then s
      else if s.clock = c.deadline && waitHolds s c == some true then waitDone s c
      else waitOut s c 0x12

/-! Takeover (R385, R421). -/

/-- Every partition gets vector 0. -/
def irqAll (s : State) : State := (tkeys s.parts).foldl (fun s p => irq s p 0) s

/-- Blocks of a launch that no leaf controller had bound are lost. -/
def loseUnbound (s : State) (id : Nat) : State :=
  match tget s.launches id with
  | none => s
  | some l =>
    let un := unplacedOf s id
    let s := withdraw s id fun _ => true
    let sure := if l.resolved then un else un.filter (· < l.floor)
    let open' := if l.resolved then [] else un.filter (· ≥ l.floor)
    let s := { s with launches := tmod s.launches id fun l => { l with lost := l.lost ++ open'.map fun b => (b, 3) } }
    sure.foldl (fun s b => loseUnplaced s id b 3) s

/-- The standby takes over; launches go on, commands in flight complete LOST. -/
def takeover (s : State) : State :=
  let s := modDev s fun d => { d with schedulers := d.schedulers - 1 }
  let s := (tkeys s.launches).foldl loseUnbound s
  let flying := s.cmds.filter fun c => c.st != .parsed && cmdType c != 1 && cmdType c != 3
  irqAll (logEvent (flying.foldl (fun s c => completeCmd s c 0x15 0) s) 0x385 0)

def execSchedulerTakeover (s : State) : Host.Outcome State Fault Refusal :=
  eventIf true s fun s => if s.dev.schedulers ≥ 2 then takeover s else s

end Sys2Proof.Machine
end

