-- ==== Sys2Proof/Machine/Place.lean ====
section
/-! DEFINITION. Machine/Place.lean: launches, distributors, leaf controllers and placement (R144, R248, R332, R333, R336,
R379, R381, R382, R386-R390, R422). -/

namespace Sys2Proof.Machine

/-! Room on a core (R389). -/

/-- The lowest place for n units of 512 bytes, aligned to `step` units. -/
def lowRun (used : List (Nat × Nat)) (total n step : Nat) : Option Nat :=
  ((List.range (total / step)).find? fun i => step * i + n ≤ total && spanFree used (step * i) n).map (step * ·)

/-- The highest run of scratch granules. -/
def highRun (used : List (Nat × Nat)) (total n : Nat) : Option Nat :=
  if n = 0 then some 0
  else (List.range (total / 8 + 1 - n)).reverse.find? fun i => spanFree used (8 * i) (8 * n)

/-- The pipe with the fewest warp contexts, the lower of equals; none when each has 12. -/
def freePipe (co : Core) : Option Nat :=
  let load (p : Nat) : Nat := (co.warps.filter fun w => w.2.pipe == p).length
  match (sortBy load [0, 1, 2, 3]).head? with
  | some p => if load p < 12 then some p else none
  | none => none

/-- One warp of a new block: its context, pipe, granules and stack unit. -/
def placeWarp (co : Core) (slot idx n : Nat) (entry : W64) (crew : Nat) : Option Core :=
  let used := usedSpans co
  let total := storeUnits co
  match lowest (fun w => (tget co.warps w).isNone) 48, freePipe co, lowRun used total (2 * n) 2 with
  | some w, some p, some g =>
    (match lowRun ((g, 2 * n) :: used) total 1 1 with
     | some u =>
       let x : Warp := { block := slot, index := idx, pipe := p, age := co.ages,
                         granules := (List.range n).map (· + g / 2), stackUnit := u,
                         a := livePath entry 0xFFFFFFFF none, crews := [(crew, 0, false)],
                         active := false }
       some { co with warps := tins co.warps w x, ages := co.ages + 1 }
     | none => none)
  | _, _, _ => none

def warpsOfSub (b : Sub) : Nat := b.lanes / 32
def scratchOfSub (b : Sub) : Nat := (b.scratch + 4095) / 4096
def regsOfSub (b : Sub) : Nat := (b.regs + 7) / 8
def bankOfSub (b : Sub) : Nat := (b.colbank + 16383) / 16384

/-- A block with its warps in a core's store; its slot. -/
def placePart (co : Core) (sub : Sub) (blk : Block) (crew : Nat) : Option (Core × Nat) :=
  match lowest (fun i => (tget co.blocks i).isNone) 16,
    highRun (usedSpans co) (storeUnits co) (scratchOfSub sub) with
  | some slot, some base =>
    let b := { blk with scratchBase := base, scratchGran := scratchOfSub sub, bcrew := crew }
    let co := { co with blocks := tins co.blocks slot b }
    ((List.range (warpsOfSub sub)).foldl (fun (a : Option Core) i =>
      a.bind fun co => placeWarp co slot i (regsOfSub sub) sub.entry crew) (some co)).map fun co => (co, slot)
  | _, _ => none

/-- Every part of a block on a core that is empty (R380, NOCAP). -/
def fitsEmpty (co : Core) (subs : List Sub) : Bool :=
  (subs.foldl (fun (a : Option Core) b => a.bind fun co => (placePart co b {} 0).map (·.1))
    (some { ({} : Core) with l1ways := co.l1ways })).isSome

/-- Some allowed core could hold one block, or a column one pair. -/
def capable (s : State) (l : Launch) : Bool :=
  let ok (c : Nat) : Bool := allowedCore s l.part l.first l.count c && fitsEmpty (coreOf s c) l.subs
  let need := l.subs.foldl (fun n b => n + bankOfSub b) 0
  let bank := (if l.sharedBank then l.subs.foldl (fun n b => max n (bankOfSub b)) 0 else if l.pairs then 2 * need else need) ≤ 16
  bank && (List.range 1024).any fun c => if l.pairs then c / 64 % 2 == 0 && ok c && ok (c + 64) else ok c

/-! LAUNCH and LINK (R381, R382). -/

def subOf (bs : List Byte) : Sub :=
  { entry := BitVec.ofNat 64 (descNat bs 0 8), cbank := descNat bs 8 8, cbsize := descNat bs 0x10 4,
    lanes := descNat bs 0x24 2, regs := descNat bs 0x26 2, scratch := descNat bs 0x28 4, colbank := descNat bs 0x2C 4 }

/-- A core that the launch may use: a column's lower one, with its partner, for pairs (R381, R336, log 96). -/
def mayUse (s : State) (l : Launch) (core : Nat) : Bool :=
  allowedCore s l.part l.first l.count core &&
  (!l.pairs || core / 64 % 2 == 0 && allowedCore s l.part l.first l.count (core + 64))

/-- The chiplet sites of a launch's distributors, in order (R386). -/
def distSites (s : State) (l : Launch) : List Nat :=
  (chipletsOf s l.part).filter fun c => (List.range 128).any fun i => mayUse s l (128 * c + i)

/-- Blocks go to the distributors by granules of G; a pair counts as one unit, by its even block. -/
def handOut (s : State) (l : Launch) (blocks : List Nat) : Launch :=
  let sites := distSites s l
  let n := max 1 sites.length
  let us := if l.pairs then blocks.filter (· % 2 == 0) else blocks
  { l with dists := ((List.range sites.length).zip sites).foldl (fun t (d, c) =>
      tput [] t c (tgetD t c [] ++ us.filter fun b => b / l.g % n == d)) l.dists }

/-- The launch that a slot describes. -/
def launchFrom (c : Cmd) : Launch :=
  let f (off n : Nat) : Nat := cmdField c off n
  let n := linksOf c.bytes
  let parts := (List.range (n + 1)).map fun i => subOf (c.bytes.drop (256 * i))
  let t := cmdTrailer c
  { ctx := c.ctx, part := c.part, queue := c.queue, index := c.index, number := 0, subs := parts,
    gx := f 0x18 4, gy := f 0x1C 4, gz := f 0x20 4, g := if f 0x30 4 = 0 then 4 else f 0x30 4,
    pairs := f 0x34 1 % 2 = 1, sharedBank := f 0x34 1 / 2 % 2 = 1, first := f 0x40 4 % 2 ^ 10, count := f 0x40 4 / 2 ^ 16,
    arena := f 0x48 8, faillog := f 0x50 8, failcap := f 0x58 4, total := f 0x18 4 * f 0x1C 4 * f 0x20 4 * (n + 1),
    acq := t / 2 ^ 8 % 4, rel := t / 2 ^ 10 % 4, shape := f 0x18 4 }

/-- A launch enters the tables, and its first blocks go to the distributors. -/
def beginLaunch (s : State) (c : Cmd) (l : Launch) (blocks : List Nat) : State :=
  let id := s.nextLaunch
  let l := handOut s { l with number := BitVec.ofNat 32 (ctxOf s c.ctx).launches, born := s.clock } blocks
  let s := { s with nextLaunch := id + 1, launches := tins s.launches id l,
                    contexts := tmod s.contexts c.ctx fun x => { x with launches := (x.launches + 1) % 2 ^ 32 } }
  launchDone (modCmd s c.part c.queue c.index fun c => { c with st := .started, launch := id }) id

def startLaunch (s : State) (c : Cmd) : State :=
  let links := (List.range (linksOf c.bytes)).map fun i => (c.bytes.drop (256 * (i + 1))).take 256
  if links.any (linkBad c.bytes) then completeCmd s c 0x11 0
  else
    let l := launchFrom c
    if !capable s l then completeCmd s c 0x14 0
    else beginLaunch s c l (List.range (l.gx * l.gy * l.gz))

def execLaunch (part queue index : Nat) (s : State) : Host.Outcome State Fault Refusal :=
  eventIf (below part 8 && below queue 4096) s fun s => startCmd s part queue index (· == 1) startLaunch

/-- A LINK joins its bundle; one that no LAUNCH expects completes MALFORMED. -/
def execLink (part queue index : Nat) (s : State) : Host.Outcome State Fault Refusal :=
  eventIf (below part 8 && below queue 4096) s fun s =>
    match findCmd s part queue index with
    | none => s
    | some c =>
      match c.bundle with
      | none => startCmd s part queue index (· == 2) fun s c => completeCmd s c 0x11 0
      | some h =>
        match findCmd s part queue h with
        | some a =>
          if a.bytes.length = 256 * (index - h) then
            let s := modCmd s part queue h fun a => { a with bytes := a.bytes ++ c.bytes }
            { s with cmds := s.cmds.filter fun d => !sameCmd d part queue index }
          else s
        | none => { s with cmds := s.cmds.filter fun d => !sameCmd d part queue index }

/-! Distributors (R386). -/

/-- The cores of a leaf controller's cluster. -/
def leafCores (leaf : Nat) : List Nat := (List.range 16).map fun i => leaf / 8 * 128 + leaf / 4 % 2 * 64 + leaf % 4 * 16 + i

def leafState (s : State) (leaf : Nat) : Leaf := tgetD s.leaves leaf {}
def modLeaf (s : State) (leaf : Nat) (f : Leaf → Leaf) : State := { s with leaves := tins s.leaves leaf (f (leafState s leaf)) }

/-- Unused permits of a leaf for a launch: it grants two, and a new one for each block it places. -/
def permits (s : State) (leaf id : Nat) : Nat := 2 - ((leafState s leaf).waiting.filter (·.1 == id)).length

/-- The chiplet takes work (R27). -/
def siteWorks (s : State) (site : Nat) : Bool :=
  let c := tgetD s.chiplets site {}
  !c.fenced && !c.dropped && !c.resetting

/-- The leaf has a core that the launch may use, on a chiplet that takes work. -/
def leafServes (s : State) (l : Launch) (leaf : Nat) : Bool :=
  siteWorks s (leaf / 8) && (leafCores leaf).any (mayUse s l)

def execBlockSend (launch site leaf : Nat) (s : State) : Host.Outcome State Fault Refusal :=
  eventIf (below site 8 && below leaf 64) s fun s =>
    match tget s.launches launch with
    | none => s
    | some l =>
      match tgetD l.dists site [] with
      | [] => s
      | b :: t =>
        if leafServes s l leaf && permits s leaf launch > 0 then
          modLeaf { s with launches := tins s.launches launch { l with dists := tput [] l.dists site t } } leaf fun f =>
            { f with waiting := f.waiting ++ [(launch, b)] }
        else s

/-- An idle distributor takes the higher half of what the fullest one has; the last block of a chiplet that takes no work
goes too, and that chiplet's distributor steals nothing (log 77). -/
def execSteal (launch site : Nat) (s : State) : Host.Outcome State Fault Refusal :=
  eventIf (below site 8) s fun s =>
    match tget s.launches launch with
    | none => s
    | some l =>
      let most := ((sortBy (fun (d : Nat × List Nat) => 2 ^ 33 - d.2.length) l.dists).head?).getD (0, [])
      let r := most.2.length
      if (tgetD l.dists site []).isEmpty && (distSites s l).contains site && siteWorks s site &&
          (r ≥ 2 || r = 1 && !siteWorks s most.1) then
        let keep := if r = 1 then 0 else r - r / 2
        let d := tput [] l.dists most.1 (most.2.take keep)
        { s with launches := tins s.launches launch { l with dists := tins d site (most.2.drop keep) } }
      else s

/-! Placement (R389). -/

/-- A core may take a block of the launch: it holds the same context, or none, and no saved context waits for it. -/
def coreTakes (s : State) (core id : Nat) (l : Launch) : Bool :=
  let co := coreOf s core
  coreInService s core && !co.stopped && allowedCore s l.part l.first l.count core &&
  !rivalOf s core [id] && !rivalOf s (partnerOf core) [id] &&
  (if co.ctx.isNone then co.blocks.isEmpty && co.warps.isEmpty && (restoreFirst s core).isNone else co.ctx == some l.ctx)

/-- An empty core takes a context (R325, R391). -/
def takeCtx (s : State) (core ctx : Nat) : State :=
  if (coreOf s core).ctx.isSome then s
  else
    let free := freshFree s core 0 none ctx
    modCore s core fun co =>
      { co with ctx := some ctx, l1 := [], growTime := 0, stallTime := 0, qfree8 := free, memdef := descMemdef s ctx,
                trapvec := BitVec.ofNat 64 (descField s ctx 0x28 8), since := s.arith, l1Hits := 0, l1Misses := 0,
                copies := 0, macs := 0 }

/-- Column-bank granules for a block, zeroed; a launch's shared ones are loaded once for a cluster pair (R332, R333). -/
def takeBank (s : State) (core id : Nat) (l : Launch) (n : Nat) : Option (State × Nat × List Nat) :=
  let own := bankNo s (pairOf core) (posOf core)
  let fresh (s : State) : Option (State × Nat × List Nat) :=
    let gs := (bankFree s own).take n
    if gs.length < n then none
    else
      let mine (k : Nat) : Bool := k / 262144 == own && gs.contains (k % 262144 / 16384)
      let s := { s with bankUsed := gs.foldl (fun t g => sins t (16 * own + g)) s.bankUsed,
                        banks := s.banks.filter (fun p => !mine p.1),
                        bankPoison := s.bankPoison.filter fun k => !mine (4 * k) }
      some (s, own, gs)
  if n = 0 then some (s, own, [])
  else if !l.sharedBank then fresh s
  else match l.banks.find? fun x => x.1 == pairOf core with
    | some (_, b, gs, _) =>
      let up (x : Nat × Nat × List Nat × Nat) := if x.1 = pairOf core then (x.1, x.2.1, x.2.2.1, x.2.2.2 + 1) else x
      some ({ s with launches := tmod s.launches id fun l => { l with banks := l.banks.map up } }, b, gs)
    | none =>
      (fresh s).map fun (s, b, gs) =>
        ({ s with launches := tmod s.launches id fun l => { l with banks := l.banks ++ [(pairOf core, b, gs, 1)] } }, b, gs)

/-- Bind one part of a block (R144, R248, R388). -/
def bindPart (s : State) (core id b k : Nat) (sub : Sub) (shadow : Shadow) : Option State :=
  match tget s.launches id with
  | none => none
  | some l =>
    if !coreTakes s core id l then none
    else
      let crew : Crew := { ctx := l.ctx, members := warpsOfSub sub, core := core, remote := localCrews s core ≥ 16 }
      match takeBank s core id l (bankOfSub sub), allocCrew s (chipletOf core) crew with
      | some (s1, bank, gs), some (h, _) =>
        let s := match allocCrew s1 (chipletOf core) crew with | some (_, s) => s | none => s1
        let (x, y, z) := blockId l b
        let blk : Block :=
          { launch := id, sub := k, bx := x, byy := y, bz := z, linear := b, bankCol := bank, colGran := gs,
            sharedBank := l.sharedBank && !gs.isEmpty, prov := !l.resolved && b ≥ l.floor, bundle := l.subs.length > 1,
            shadow := shadow }
        let s := takeCtx s core l.ctx
        let co := coreOf s core
        let co := if l.acq ≠ 0 || (l.proofed && l.resolved) then { co with l1 := [] } else co
        (placePart co sub blk h).map fun (co, slot) => noteBind (setCore s core co) core slot
      | _, _ => none

/-! Screening (R422). -/

/-- The blocks that redundant execution selects. -/
def selected (s : State) (l : Launch) (b : Nat) : Bool :=
  let r := descField s l.ctx 0x30 4
  let k := r / 2 ^ 16 % 32
  k ≥ 4 && (l.resolved || b < l.floor) &&
  (crcBytes 0xFFFFFFFF (leBytes 4 (r % 2 ^ 16) ++ leBytes 4 l.number.toNat ++ leBytes 4 b)).toNat % 2 ^ k == 0

/-- A part with its shadow on the lowest core of another cluster that can hold it. -/
def bindScreened (s : State) (core id b k : Nat) (sub : Sub) : Option State :=
  match tget s.launches id with
  | none => none
  | some l =>
    if !selected s l b then bindPart s core id b k sub .none
    else
      let n := 4 * b + k
      match bindPart s core id b k sub (.original n) with
      | none => none
      | some s =>
        let wide (s : State) : State :=
          { s with launches := tmod s.launches id fun l => { l with first := 0, count := 0 } }
        let back (s : State) : State :=
          { s with launches := tmod s.launches id fun m =>
              { m with first := l.first, count := l.count, screens := m.screens ++ [(n, b, none, none)] } }
        let cs := (List.range 1024).filter fun c => clusterOf c != clusterOf core
        (cs.findSome? fun c => bindPart (wide s) c id b k sub (.shadow n)).map back

/-- All parts of a block on one core (R382). -/
def bindBlock (s : State) (core id b : Nat) (subs : List Sub) : Option State :=
  ((List.range subs.length).zip subs).foldl (fun (a : Option State) (k, sub) =>
    a.bind fun s => bindScreened s core id b k sub) (some s)

/-- A unit of distribution: a block, or the two blocks of a pair on the two cores of a column (R336). -/
def bindUnit (s : State) (core id b : Nat) : Option State :=
  match tget s.launches id with
  | none => none
  | some l =>
    let handed := l.total / max 1 l.subs.length
    let s := bindBlock s core id b l.subs
    if l.pairs && b + 1 < handed then s.bind fun s => bindBlock s (partnerOf core) id (b + 1) l.subs else s

/-- Blocks of a launch on a core. -/
def blocksHere (s : State) (core id : Nat) : Nat := ((coreOf s core).blocks.filter fun b => b.1 < 16 && b.2.launch == id).length

/-- Place a waiting unit on the core of the cluster that holds the fewest blocks of its launch. -/
def placeUnit (s : State) (leaf id b : Nat) : Option State :=
  ((sortBy (fun c => blocksHere s c id) (leafCores leaf)).findSome? fun c => bindUnit s c id b).map fun s =>
    let s := modLeaf s leaf fun f => { f with waiting := f.waiting.filter (· != (id, b)) }
    { s with launches := tmod s.launches id fun l => { l with bound := true } }

/-- The next block of each launch that waits at a leaf: a block never passes one of its launch; launches go by priority,
then by arrival. -/
def leafNext (s : State) (leaf : Nat) : List (Nat × Nat) :=
  let w := (leafState s leaf).waiting
  let ids := w.foldl (fun (a : List Nat) x => if a.contains x.1 then a else a ++ [x.1]) []
  let first (id : Nat) : Nat := match (w.filter (·.1 == id)).map (·.2) with | [] => 0 | b :: t => t.foldl min b
  let prio (id : Nat) : Nat := match tget s.launches id with | some l => effPrio s l.part l.queue | none => 0
  (sortBy (fun id => 7 - prio id) ids).map fun id => (id, first id)

def execBlockPlace (leaf : Nat) (s : State) : Host.Outcome State Fault Refusal :=
  eventIf (below leaf 64) s fun s => ((leafNext s leaf).findSome? fun p => placeUnit s leaf p.1 p.2).getD s

/-- The neighbour, cluster k XOR 1 of the tier, serves a leaf that has missed its heartbeat (R390). -/
def execLeafTakeover (leaf : Nat) (s : State) : Host.Outcome State Fault Refusal :=
  eventIf (below leaf 64) s fun s =>
    if (leafState s leaf).lost || (leafState s (Nat.xor leaf 1)).lost then s
    else
      let s := logEvent (modLeaf s leaf fun f => { f with lost := true }) 0x390 leaf
      match partOfChiplet s (leaf / 8) with
      | some p => irq s p 0
      | none => s

end Sys2Proof.Machine
end

