-- ==== Sys2Proof/Machine/Proofed.lean ====
section
/-! DEFINITION. Machine/Proofed.lean: proofed launches (R350, R351, R392-R406). -/

namespace Sys2Proof.Machine

/-! Prediction (R394-R396). -/

def predictorOf (s : State) (part tag : Nat) : Pred :=
  match tget s.parts part with
  | some p => tgetD p.predictor (tag % 256) {}
  | none => {}

/-- The raw prediction of a mode. -/
def rawPred (e : Pred) (ktag : W32) (mode hint : Nat) : Int :=
  let h (i : Nat) : Int := ((e.h[i]?).getD 0).toNat
  if e.tag ≠ ktag || e.count = 0 then hint
  else match mode with
    | 0 => h 0
    | 1 => (List.range e.count).foldl (fun m i => max m (h i)) (h 0)
    | 2 => if e.count ≥ 2 then 2 * h 0 - h 1 else h 0
    | _ => hint

def predict (e : Pred) (ktag : W32) (mode hint floor limit : Nat) : Nat :=
  (min (max (rawPred e ktag mode hint) floor) limit).toNat

/-- The entry after a resolution with this shape. -/
def learn (e : Pred) (ktag : W32) (mode : Nat) (x : W32) : Pred :=
  if mode = 3 then e
  else if e.tag ≠ ktag then { tag := ktag, count := 1, h := [x] }
  else { e with h := (x :: e.h).take 4, count := min (e.count + 1) 4 }

/-! The command (R392). -/

def startProofed (s : State) (c : Cmd) : State :=
  let f (off n : Nat) : Nat := cmdField c off n
  match walk s c.ctx (f 0x68 8) with
  | .busy n => wantLine s c.part n false
  | .bad => completeCmd s c 2 0
  | .ok leaf _ =>
    if !leaf.getLsbD 2 then completeCmd s c 3 0
    else
      let l := launchFrom c
      let tag : W32 := BitVec.ofNat 32 (f 0x60 4)
      let p := predict (predictorOf s c.part tag.toNat) tag (f 0x64 1) (f 0x74 4) (f 0x70 4) l.gx
      let l := { l with proofed := true, ktag := tag, mode := f 0x64 1, shapeSrc := f 0x68 8, floor := f 0x70 4,
                        predicted := p, limit := l.gx, resolved := false, total := p,
                        deadline := s.clock + f 0x78 8 }
      if !capable s l then completeCmd s c 0x14 0 else beginLaunch s c l (List.range p)

def execProofed (part queue index : Nat) (s : State) : Host.Outcome State Fault Refusal :=
  eventIf (below part 8 && below queue 4096) s fun s => startCmd s part queue index (· == 3) startProofed

/-! Trim (R400, R401). -/

/-- Blocks of a launch on every core, saved ones too, that satisfy a condition: core and slot. -/
def sitesOf (s : State) (id : Nat) (p : Block → Bool) : List (Nat × Nat) :=
  s.cores.flatMap fun c => (c.2.blocks.filter fun b => b.1 < 16 && b.2.launch == id && p b.2).map fun b => (c.1, b.1)

/-- An arena block that a trimmed block had allocated is freed, as by FREE. -/
def arenaFree (s : State) (l : Launch) (p c : Nat) : State :=
  match vaToPa s l.ctx l.arena true, vaToPa s l.ctx p true with
  | some h, some q =>
    let s := homeWriteBytes s l.part q (leBytes 8 (peek64 s (h + 16 + 8 * c)))
    homeWriteBytes s l.part (h + 16 + 8 * c) (leBytes 8 p)
  | _, _ => s

/-- The lines that freeing needs, each with whether it is written: those of the arena, and of the tables where they are
with another agent. -/
def arenaLines (s : State) (l : Launch) (bs : List Block) : List (Nat × Bool) :=
  let need (va : Nat) : List (Nat × Bool) :=
    match walk s l.ctx va with
    | .ok leaf level => if leaf.getLsbD 3 then [(leafPa leaf level va / 128, true)] else []
    | .busy n => [(n, false)]
    | .bad => []
  (bs.flatMap fun b => b.arena.map (·.1)).flatMap fun p => need l.arena ++ need p

/-- A request of a provisional block: a trimmed block's is dropped, a survivor's is an ordinary one. -/
def reqAfter (id x : Nat) (r : Req) : Option Req :=
  match r.prov with
  | some (l, b) => if l ≠ id then some r else if b ≥ x then none else some { r with prov := none }
  | none => some r

def hreqAfter (id x : Nat) (h : HReq) : HReq :=
  match h with
  | .own r => (match reqAfter id x r with
    | some r => .own r
    | none => .own { r with act := .probe, prov := none, op := 0, fill := false })
  | h => h

/-- Requests of the launch's provisional blocks wherever they stand. -/
def sweepReqs (s : State) (id x : Nat) : State :=
  let wc (w : Wc) : Option Wc := (reqAfter id x w.req).map fun r => { w with req := r }
  let entry (e : TEntry) : TEntry := { e with cur := hreqAfter id x e.cur, queue := e.queue.map (hreqAfter id x) }
  { s with
    cores := s.cores.map (fun c => (c.1, { c.2 with wc := c.2.wc.filterMap wc })),
    ports := (s.ports.map fun p => (p.1, p.2.filterMap (reqAfter id x))).filter fun p => !p.2.isEmpty,
    slices := s.slices.map fun p =>
      (p.1, { p.2 with input := p.2.input.map (hreqAfter id x), entries := p.2.entries.map entry }) }

/-- Copies of trimmed blocks that have not started go; those of survivors are ordinary. -/
def sweepCopies (s : State) (id x : Nat) : State :=
  let dead (c : Copy) : Bool := c.st != .moved && c.slices.any fun y =>
    match y.prov with | some (l, b) => l == id && b ≥ x | none => false
  let slice (y : CSlice) : CSlice :=
    match y.prov with | some (l, b) => if l = id && b < x then { y with prov := none } else y | none => y
  { s with copies := (s.copies.filter fun c => !dead c.2).map fun c => (c.1, { c.2 with slices := c.2.slices.map slice }) }

/-- Kill a provisional block beyond the shape (R401). -/
def trimBlock (s : State) (l : Launch) (core b : Nat) : State :=
  match tget (coreOf s core).blocks b with
  | none => s
  | some x =>
    let s := x.arena.foldl (fun s a => arenaFree s l a.1 a.2) s
    killBlock (modBlock s core b fun y => { y with arena := [] }) core b

/-- A saved context left without a block is released where it lies: its transit entries go to the other half, what is
left in its q9 is discarded and counted, its area frees (R327, R406). -/
def dropSaved (s : State) (v : Saved) : State :=
  let im := coreOf s v.held
  let half := otherHalf s v
  let s := { s with saves := s.saves.filter (·.held != v.held), cores := tdel s.cores v.held }
  let s := match half with
    | none => s
    | some (k, _) => modCore s k fun co => { co with q9 := co.q9 ++ im.transit }
  settleGate (countDiscards (creditFree s v.core v.ctx im.q9.length) v.core im.q9.length) (pairOf v.core)

/-- One whose transit entries have nowhere to go yet is kept (R327). -/
def dropEmptySaves (s : State) : State :=
  s.saves.foldl (fun s v =>
    let im := coreOf s v.held
    if im.blocks.isEmpty && im.warps.isEmpty && (im.transit.isEmpty || (otherHalf s v).isSome) then dropSaved s v else s) s

/-! Commit (R351, R402). -/

/-- Provisional lines of a launch in ascending block index, each with its slice. -/
def provLines (s : State) (id : Nat) : List (Nat × ProvLine) :=
  sortBy (·.2.block) (s.slices.flatMap fun p => (p.2.provs.filter (·.launch == id)).map fun l => (p.1, l))

/-- A line is committed at its home: each of its stores is checked and recorded in turn, then its bytes are performed;
the L1 of its block's core keeps no older ones (R90, R124, R351). -/
def commitLine (s : State) (part h : Nat) (p : ProvLine) : State :=
  let check (s : State) (r : Race × BitVec 4) : State :=
    raceDo s { core := 1024, line := p.line, home := h, act := .probe, race := some { r.1 with trap := false } } r.2 1
  let s := homeWrite (p.races.foldl check s) part p.line p.data p.mask p.poison (some h)
  (sitesOf s p.launch fun b => b.linear == p.block).foldl (fun s k => modCore s k.1 fun co => l1DropLine co p.line) s

/-! Release and tail (R397, R400, R404, R405). -/

/-- SREAD .wait of SHAPE completes in every block, as an acquire. -/
def wakeShapes (s : State) (id : Nat) (shape : Nat) : State :=
  let done (w : Warp) : Warp :=
    let v : W64 := BitVec.ofNat 64 shape
    let w' := w.shapeWaits.foldl (fun w (vec, d, ex) =>
      let w := specWrite w vec false d ex fun _ => v
      { w with pend := sdel w.pend (if vec then d else 256 + d) }) w
    { w' with shapeWaits := [] }
  let core (c : Core) : Core :=
    let mine (w : Warp) : Bool := !w.shapeWaits.isEmpty &&
      (match tget c.blocks w.block with | some b => b.launch == id | none => false)
    if c.warps.any fun w => mine w.2 then
      { c with l1 := [], warps := c.warps.map fun w => (w.1, if mine w.2 then done w.2 else w.2) }
    else c
  { s with cores := s.cores.map fun c => (c.1, core c.2) }

/-- Survivors become certain; those that had ended are counted. -/
def makeCertain (s : State) (id : Nat) : State :=
  let ended := sitesOf s id fun b => b.prov && b.ended
  let core (c : Core) : Core :=
    { c with blocks := c.blocks.map fun b => (b.1, if b.2.launch = id then { b.2 with prov := false, arena := [] } else b.2) }
  let s := { s with cores := s.cores.map fun c => (c.1, core c.2) }
  ended.foldl (fun s p => endBlock s p.1 p.2 none true) s

/-- The launch's own counts after resolution with shape x. -/
def settleLaunch (s : State) (id x : Nat) (timeout : Bool) : State :=
  match tget s.launches id with
  | none => s
  | some l =>
    let total := if x ≥ l.predicted then min x l.limit else max x l.floor
    let l := { l with resolved := true, total := total, timedOut := timeout,
                      shape := if timeout then l.floor else min x l.limit, lost := [] }
    { s with launches := tins s.launches id l }

/-- Blocks beyond LIMIT never run: they are counted, with one entry (R404). -/
def beyondLimit (s : State) (id x : Nat) : State :=
  match tget s.launches id with
  | none => s
  | some l =>
    if x ≤ l.limit then s
    else
      let s := failLog s l (lostEntry (BitVec.ofNat 32 l.limit) 0 0 4)
      { s with launches := tmod s.launches id fun l => { l with failed := l.failed + (x - l.limit), logged := l.logged + 1 } }

/-- The tail's blocks go to the distributors (R400). -/
def addTail (s : State) (id x : Nat) : State :=
  { s with launches := tmod s.launches id fun l =>
      handOut s l ((List.range (min x l.limit)).filter (· ≥ l.predicted)) }

/-- A partition's predictor after a resolution (R396). -/
def learnShape (k : Nat) (tag : W32) (mode : Nat) (x : W32) (p : Part) : Part :=
  { p with predictor := tput ({} : Pred) p.predictor k (learn (tgetD p.predictor k ({} : Pred)) tag mode x) }

/-- Resolution in its order: trim, commit, release, tail, predict. -/
def resolve (s : State) (id x : Nat) (timeout : Bool) : State :=
  match tget s.launches id with
  | none => s
  | some l =>
    let gone := sitesOf s id fun b => b.prov && b.linear ≥ x
    let lines := arenaLines s l (gone.filterMap fun p => tget (coreOf s p.1).blocks p.2)
    let commit := (provLines s id).filter (·.2.block < x)
    let need := lines.map (fun n => (n.1, n.2, none)) ++ commit.map fun p => (p.2.line, true, some p.1)
    let missing := need.filter fun n => !usable s n.1 n.2.1 n.2.2
    if !missing.isEmpty then missing.foldl (fun s n => wantLine s l.part n.1 n.2.1 n.2.2) s
    else
      let s := withdraw s id fun b => b ≥ x && b ≥ l.floor
      let s := gone.foldl (fun s p => trimBlock s l p.1 p.2) s
      let s := dropEmptySaves (sweepCopies (sweepReqs s id x) id x)
      let s := dropProvs (commit.foldl (fun s p => commitLine s l.part p.1 p.2) s) id fun _ => true
      let s := settleLaunch s id x timeout
      let s := wakeShapes (makeCertain s id) id (if timeout then l.floor else min x l.limit)
      let s := (l.lost.filter fun p => p.1 < x).foldl (fun s p =>
        unitEnded s id (some (lostEntry (BitVec.ofNat 32 p.1) 0 0 p.2))) s
      let s := if timeout then faultQueue s l.part l.queue 0x12 else addTail (beyondLimit s id x) id x
      let s := if timeout then s else
        { s with parts := tmod s.parts l.part (learnShape (l.ktag.toNat % 256) l.ktag l.mode (BitVec.ofNat 32 x)) }
      launchDone s id

/-- A launch's shape word, among the units that ask for lines. -/
def shapeWho (id : Nat) : Nat := deviceWho 4 id

/-- The shape word as the monitor sees it now; a line of the tables may be on its way, or its own. -/
def shapeWord (s : State) (id : Nat) (l : Launch) : WordAt :=
  match walk s l.ctx l.shapeSrc with
  | .busy n => .busy n
  | .bad => .fail 2
  | .ok leaf level =>
    let pa := leafPa leaf level l.shapeSrc
    if !leaf.getLsbD 2 || refused s (pa / 128) (shapeWho id) then .fail 3
    else match answerTo s (pa / 128) (shapeWho id) with
      | some { data := some d, .. } => .ok pa (lineField d (pa % 128) 8)
      | _ => if usable s (pa / 128) false then .ok pa (peek64 s pa) else .busy (pa / 128)

def execShapeResolve (launch : Nat) (s : State) : Host.Outcome State Fault Refusal :=
  eventIf true s fun s =>
    match tget s.launches launch with
    | none => s
    | some l =>
      if l.resolved then s
      else match shapeWord s launch l with
        | .ok _ v =>
          let s := dropAnswers s (shapeWho launch)
          if v ≥ 2 ^ 63 then resolve s launch (v % 2 ^ 32) false else s
        | .busy line => wantLine s l.part line false none (shapeWho launch)
        | .fail _ => dropAnswers s (shapeWho launch)

def execShapeTimeout (launch : Nat) (s : State) : Host.Outcome State Fault Refusal :=
  eventIf true s fun s =>
    match tget s.launches launch with
    | none => s
    | some l =>
      if l.resolved || s.clock < l.deadline then s
      else match shapeWord s launch l with
        | .ok _ v => if v ≥ 2 ^ 63 then s else resolve s launch l.floor true
        | .busy line => wantLine s l.part line false none (shapeWho launch)
        | .fail _ => resolve s launch l.floor true

end Sys2Proof.Machine
end

