-- ==== Sys2Proof/Machine/Chiplet.lean ====
section
/-! DEFINITION. Machine/Chiplet.lean: fence, reset and drop of a chiplet (R27, R287, R421) and the arithmetic clock
(R4). -/

namespace Sys2Proof.Machine

def chipOf (s : State) (c : Nat) : Chiplet := tgetD s.chiplets c {}
def modChip (s : State) (c : Nat) (f : Chiplet → Chiplet) : State :=
  { s with chiplets := tput {} s.chiplets c (f (chipOf s c)) }
def coresOf (c : Nat) : List Nat := (List.range 128).map (· + 128 * c)

/-- An action is logged, and raises vector 0 of the partition it touches (R421). -/
def chipNote (s : State) (c code : Nat) : State :=
  let s := logEvent s code c
  match partOfChiplet s c with
  | some p => irq s p 0
  | none => s

/-- Collective copies that still gather and have a member on the chiplet are cancelled (R27, R287). -/
def cancelGather (s : State) (c : Nat) : State :=
  let site (core : Nat) : Nat := ((s.saves.find? fun v => v.held == core).map (·.core)).getD core
  let on (core : Nat) : Bool := core ≠ 1024 && chipletOf (site core) == c
  let hit := s.copies.filter fun p => p.2.st == .gathering &&
    (p.2.members.any (fun m => on m.1) || p.2.slices.any fun y => on y.core)
  hit.foldl (fun s p => drainDone (finishCopy s p.1 6)) s

/-- Blocks that wait at the chiplet's leaf controllers go back to its distributor. -/
def handBack (s : State) (c : Nat) : State :=
  let mine (k : Nat) : Bool := k / 8 == c
  let back := (s.leaves.filter fun f => mine f.1).flatMap fun f => f.2.waiting
  let bare (f : Leaf) : Leaf := { f with waiting := [] }
  let give (l : Launch) (b : Nat) : Launch :=
    { l with dists := tput [] l.dists c (insertBy id b (tgetD l.dists c [])) }
  let s : State := { s with leaves := s.leaves.map fun f => if mine f.1 then (f.1, bare f.2) else f }
  { s with launches := back.foldl (fun t w => tmod t w.1 fun l => give l w.2) s.launches }

/-- No block is placed on the chiplet any more; its contexts are saved by their own steps. -/
def fence (s : State) (c : Nat) : State :=
  if (chipOf s c).fenced then s
  else chipNote (handBack (cancelGather (modChip s c fun x => { x with fenced := true }) c) c) c 0x271

def execChipletFence (chiplet : Nat) (s : State) : Host.Outcome State Fault Refusal :=
  eventIf (below chiplet 8) s fun s => if (chipOf s chiplet).dropped then s else fence s chiplet

def execChipletReset (chiplet : Nat) (s : State) : Host.Outcome State Fault Refusal :=
  eventIf (below chiplet 8) s fun s =>
    if (chipOf s chiplet).dropped || (chipOf s chiplet).resetting then s
    else chipNote (modChip (fence s chiplet) chiplet fun x => { x with resetting := true, began := s.arith }) chiplet 0x272

/-! Contexts that are lost. -/

/-- A load or an atomic of a core. -/
def readsFor (core : Nat) (r : Req) : Bool :=
  r.core == core && (match r.act with | .read | .atom .. => true | _ => false)

/-- Loads and atomics of a core not yet performed at their homes are discarded; a line already asked for still comes. -/
def dropReads (s : State) (core : Nat) : State :=
  let bad (h : HReq) : Bool := match h with | .own r => readsFor core r | _ => false
  let cur (h : HReq) : HReq :=
    match h with
    | .own r => if readsFor core r then .own { r with core := 1024, op := 0, act := .probe, fill := false } else h
    | _ => h
  let entry (e : TEntry) : TEntry := { e with cur := cur e.cur, queue := e.queue.filter fun h => !bad h }
  let slice (x : Slice) : Slice :=
    let keep := (x.inputLines.zip x.input).filter fun p => !bad p.2
    { x with entries := x.entries.map entry, inputLines := keep.map (·.1), input := keep.map (·.2) }
  { s with ports := s.ports.map fun p => (p.1, p.2.filter fun r => !readsFor core r),
           slices := s.slices.map fun p => (p.1, slice p.2) }

/-- Every context state of a core is lost: its blocks are reported, accepted stores go on (R27). -/
def loseHeld (s : State) (core : Nat) : State :=
  let s := dropReads s core
  let s := modCore s core fun co =>
    { co with wc := [], ops := [], q0 := [], cmd := none, transit := [], stopped := false, saving := none }
  sweepBlocks (loseCore s core 1) core

def execSaveDeadline (core : Nat) (s : State) : Host.Outcome State Fault Refusal :=
  eventIf (below core 1024) s fun s =>
    let c := chipOf s (chipletOf core)
    if (c.resetting || c.dropped) && lateBy s c.began 65536 && (coreOf s core).ctx.isSome then loseHeld s core else s

/-- The chiplet leaves the logical map until the next cold power-on: its contexts are saved as under a fence, and those
not saved within the time of a reset are lost (R27, log 78). -/
def dropChip (s : State) (c : Nat) : State :=
  let s := handBack (cancelGather s c) c
  let s := modChip s c fun x =>
    { x with fenced := true, dropped := true, resetting := false, began := if x.resetting then x.began else s.arith }
  -- granules that a gate had left on its columns go into their saves
  chipNote ((coresOf c).foldl evacuate s) c 0x273

def execChipletDrop (chiplet : Nat) (s : State) : Host.Outcome State Fault Refusal :=
  eventIf (below chiplet 8) s fun s => if (chipOf s chiplet).dropped then s else dropChip s chiplet

/-- An empty chiplet comes back, or is dropped when it fails its self-test (R421). -/
def execChipletReinitialised (chiplet : Nat) (passes : Bool) (s : State) : Host.Outcome State Fault Refusal :=
  eventIf (below chiplet 8) s fun s =>
    if !(chipOf s chiplet).resetting || (coresOf chiplet).any (fun k => (coreOf s k).ctx.isSome) then s
    else if !passes then dropChip s chiplet
    else
      let fresh := (coresOf chiplet).foldl (fun t k => tdel t k) s.cores
      let leaves := s.leaves.filter fun f => f.1 / 8 != chiplet
      modChip { s with cores := fresh, leaves := leaves, clusterTlb := s.clusterTlb.filter fun p => p.1 / 8 != chiplet
                       icache := s.icache.filter fun p => p.1 / 8 != chiplet }
        chiplet fun _ => {}

/-! The clock (R4). -/

/-- The arithmetic clock takes a value of its grid, or 425, whatever it was: how far a change may jump, and how 425 is
reached, which steps of 50 from 850 do not give, the manual does not say (DESIGN CHOICE, log 114). -/
def execClockChange (mhz : Nat) (s : State) : Host.Outcome State Fault Refusal :=
  eventIf (mhz == 425 || (450 ≤ mhz && mhz ≤ 850 && mhz % 50 == 0)) s fun s => { s with mhz := mhz }

end Sys2Proof.Machine
end

