-- ==== Sys2Proof/Machine/Scalar.lean ====
section
/-! DEFINITION. Machine/Scalar.lean: the scalar and mask families but SLDK (R152-R158), and the integer functions
that the vector family shares with them. -/

namespace Sys2Proof.Machine

/-! Integer functions on patterns, shared with R187. -/

/-- Leading zeros of 32 bits; 32 for zero. -/
def clz32 (a : W32) : Nat := if a = 0 then 32 else 31 - a.toNat.log2

/-- The field extraction of R154. -/
def bfe (signed : Bool) (a b c : W32) : W32 :=
  let off := b.toNat % 32
  let w := min (c.toNat % 64) 32
  if w = 0 then 0
  else
    let x : W64 := if signed then a.signExtend 64 else a.zeroExtend 64
    let f := (x >>> off).toNat % 2 ^ w
    if signed then BitVec.ofNat 32 (wrapN 32 (sgn w f)) else BitVec.ofNat 32 f

/-- Bits [63:32] of a product, by type. -/
def mulHi (t : Ty) (a b : W32) : W32 := BitVec.ofNat 32 (wrapN 64 (intOf t a.toNat * intOf t b.toNat) / 2 ^ 32)

def mulLo (a b : W32) : W32 := a * b

/-- The lesser and the greater by type. -/
def minTy (t : Ty) (a b : W32) : W32 := if intOf t a.toNat ≤ intOf t b.toNat then a else b
def maxTy (t : Ty) (a b : W32) : W32 := if intOf t a.toNat ≤ intOf t b.toNat then b else a

/-- Sum and difference, wrapping or clamped (R68). -/
def addTy (t : Ty) (sat : Bool) (a b : W32) : W32 := BitVec.ofNat 32 (intPat t sat (intOf t a.toNat + intOf t b.toNat))
def subTy (t : Ty) (sat : Bool) (a b : W32) : W32 := BitVec.ofNat 32 (intPat t sat (intOf t a.toNat - intOf t b.toNat))
def add64 (t : Ty) (sat : Bool) (a b : W64) : W64 := BitVec.ofNat 64 (intPat t sat (intOf t a.toNat + intOf t b.toNat))

/-- Shifts by the low five bits of a count. -/
def shl32 (a b : W32) : W32 := a <<< (b.toNat % 32)
def shr32 (a b : W32) : W32 := a >>> (b.toNat % 32)
def sar32 (a b : W32) : W32 := a.sshiftRight (b.toNat % 32)

def popc32 (a : W32) : W32 := BitVec.ofNat 32 (popcount a)

/-! The scalar family (R153). -/

/-- A word that writes one scalar register. -/
def scaWord (i : Instr) (d : BitVec 8) (s : State) (f : Here → W32) : Host.Outcome State Fault Refusal :=
  word i s fun s x => retire s x (sset x.wp d.toNat (f x))

def execSadd (g : Gen) (s : State) : Host.Outcome State Fault Refusal :=
  scaWord (.sadd g) g.d s fun x => addTy g.ty g.sat (scaVal x.wp g.a) (scaVal x.wp g.b)
def execSsub (g : Gen) (s : State) : Host.Outcome State Fault Refusal :=
  scaWord (.ssub g) g.d s fun x => subTy g.ty g.sat (scaVal x.wp g.a) (scaVal x.wp g.b)
def execSmul (g : Gen) (s : State) : Host.Outcome State Fault Refusal :=
  scaWord (.smul g) g.d s fun x => mulLo (scaVal x.wp g.a) (scaVal x.wp g.b)
def execSmulhi (g : Gen) (s : State) : Host.Outcome State Fault Refusal :=
  scaWord (.smulhi g) g.d s fun x => mulHi g.ty (scaVal x.wp g.a) (scaVal x.wp g.b)
def execSmin (g : Gen) (s : State) : Host.Outcome State Fault Refusal :=
  scaWord (.smin g) g.d s fun x => minTy g.ty (scaVal x.wp g.a) (scaVal x.wp g.b)
def execSmax (g : Gen) (s : State) : Host.Outcome State Fault Refusal :=
  scaWord (.smax g) g.d s fun x => maxTy g.ty (scaVal x.wp g.a) (scaVal x.wp g.b)
def execSand (g : Gen) (s : State) : Host.Outcome State Fault Refusal :=
  scaWord (.sand g) g.d s fun x => scaVal x.wp g.a &&& scaVal x.wp g.b
def execSor (g : Gen) (s : State) : Host.Outcome State Fault Refusal :=
  scaWord (.sor g) g.d s fun x => scaVal x.wp g.a ||| scaVal x.wp g.b
def execSxor (g : Gen) (s : State) : Host.Outcome State Fault Refusal :=
  scaWord (.sxor g) g.d s fun x => scaVal x.wp g.a ^^^ scaVal x.wp g.b
def execSnot (g : Gen) (s : State) : Host.Outcome State Fault Refusal :=
  scaWord (.snot g) g.d s fun x => ~~~ scaVal x.wp g.a
def execSshl (g : Gen) (s : State) : Host.Outcome State Fault Refusal :=
  scaWord (.sshl g) g.d s fun x => shl32 (scaVal x.wp g.a) (scaVal x.wp g.b)
def execSshr (g : Gen) (s : State) : Host.Outcome State Fault Refusal :=
  scaWord (.sshr g) g.d s fun x => shr32 (scaVal x.wp g.a) (scaVal x.wp g.b)
def execSsar (g : Gen) (s : State) : Host.Outcome State Fault Refusal :=
  scaWord (.ssar g) g.d s fun x => sar32 (scaVal x.wp g.a) (scaVal x.wp g.b)
def execSbfe (g : Gen) (s : State) : Host.Outcome State Fault Refusal :=
  scaWord (.sbfe g) g.d s fun x => bfe (g.ty == .i32) (scaVal x.wp g.a) (scaVal x.wp g.b) (scaVal x.wp g.c)
def execSpopc (g : Gen) (s : State) : Host.Outcome State Fault Refusal :=
  scaWord (.spopc g) g.d s fun x => popc32 (scaVal x.wp g.a)
def execSclz (g : Gen) (s : State) : Host.Outcome State Fault Refusal :=
  scaWord (.sclz g) g.d s fun x => BitVec.ofNat 32 (clz32 (scaVal x.wp g.a))
def execScmp (g : Gen) (s : State) : Host.Outcome State Fault Refusal :=
  scaWord (.scmp g) g.d s fun x =>
    if condTy g.ty g.sub.toNat (scaVal x.wp g.a).toNat (scaVal x.wp g.b).toNat then 1 else 0
def execSsel (g : Gen) (s : State) : Host.Outcome State Fault Refusal :=
  scaWord (.ssel g) g.d s fun x => if scaVal x.wp g.c ≠ 0 then scaVal x.wp g.a else scaVal x.wp g.b
def execSmov (g : Gen) (s : State) : Host.Outcome State Fault Refusal :=
  scaWord (.smov g) g.d s fun x => scaVal x.wp g.a
def execSmovi (m : Imm) (s : State) : Host.Outcome State Fault Refusal :=
  scaWord (.smovi m) m.d s fun _ => m.imm
def execSadd64 (g : Gen) (s : State) : Host.Outcome State Fault Refusal :=
  word (.sadd64 g) s fun s x =>
    retire s x (sset64 x.wp g.d.toNat (add64 g.ty g.sat (scaVal64 x.wp g.a) (scaVal64 x.wp g.b)))

/-! The mask family (R157, R158). -/

/-- A word that writes one mask register. -/
def mskWord (i : Instr) (d : BitVec 8) (s : State) (f : Here → W32) : Host.Outcome State Fault Refusal :=
  word i s fun s x => retire s x (mset x.wp d.toNat (f x))

def execMset (g : Gen) (s : State) : Host.Outcome State Fault Refusal :=
  mskWord (.mset g) g.d s fun x => scaVal x.wp g.a
def execMget (g : Gen) (s : State) : Host.Outcome State Fault Refusal :=
  scaWord (.mget g) g.d s fun x => mskVal x.wp x.sl g.a
def execMand (g : Gen) (s : State) : Host.Outcome State Fault Refusal :=
  mskWord (.mand g) g.d s fun x => mskVal x.wp x.sl g.a &&& mskVal x.wp x.sl g.b
def execMor (g : Gen) (s : State) : Host.Outcome State Fault Refusal :=
  mskWord (.mor g) g.d s fun x => mskVal x.wp x.sl g.a ||| mskVal x.wp x.sl g.b
def execMxor (g : Gen) (s : State) : Host.Outcome State Fault Refusal :=
  mskWord (.mxor g) g.d s fun x => mskVal x.wp x.sl g.a ^^^ mskVal x.wp x.sl g.b
def execMandn (g : Gen) (s : State) : Host.Outcome State Fault Refusal :=
  mskWord (.mandn g) g.d s fun x => mskVal x.wp x.sl g.a &&& ~~~ mskVal x.wp x.sl g.b
def execMpop (g : Gen) (s : State) : Host.Outcome State Fault Refusal :=
  scaWord (.mpop g) g.d s fun x => popc32 (mskVal x.wp x.sl g.a)
def execMfind (g : Gen) (s : State) : Host.Outcome State Fault Refusal :=
  scaWord (.mfind g) g.d s fun x =>
    let m := mskVal x.wp x.sl g.a
    let order := if g.sub = 0 then List.range 32 else (List.range 32).reverse
    BitVec.ofNat 32 ((order.find? fun i => m.getLsbD i).getD 32)

end Sys2Proof.Machine
end

