-- ==== Sys2Proof/Machine/Cross.lean ====
section
/-! DEFINITION. Machine/Cross.lean: the cross-lane family (R84-R86, R207-R214). -/

namespace Sys2Proof.Machine

/-! Trees and prefixes (R84-R86).  A value is `none` where no present lane lies below it in a floating-point min or max. -/

/-- One level of the tree. -/
def treeLevel {α : Type} (op : α → α → α) : List α → List α
  | x :: y :: t => op x y :: treeLevel op t
  | l => l

/-- The levels of the tree, leaves first. -/
def treeLevels {α : Type} (op : α → α → α) : Nat → List α → List (List α)
  | 0, l => [l]
  | n + 1, l => l :: treeLevels op n (treeLevel op l)

/-- The inclusive prefix of n leaves: the aligned blocks of n's binary digits, combined left to right. -/
def prefixGo {α : Type} (op : α → α → α) (levels : List (List α)) (n : Nat) : Nat → Nat → Option α → Option α
  | 0, _, acc => acc
  | k + 1, start, acc =>
    if n / 2 ^ k % 2 = 1 then
      let node := (levels.getD k [])[start / 2 ^ k]?
      let acc' := match acc, node with
        | some a, some b => some (op a b)
        | none, b => b
        | a, none => a
      prefixGo op levels n k (start + 2 ^ k) acc'
    else prefixGo op levels n k start acc

def prefixOf {α : Type} (op : α → α → α) (levels : List (List α)) (n : Nat) : Option α :=
  prefixGo op levels n 6 0 none

/-- A reduction: what an absent lane enters, the node, and the value of nothing. -/
structure Reduce where
  ident : Option Nat
  node : Option Nat → Option Nat → Option Nat
  none : Nat

def liftBoth (f : Nat → Nat → Nat) : Option Nat → Option Nat → Option Nat
  | some a, some b => some (f a b)
  | some a, Option.none => some a
  | Option.none, b => b

/-- The operators of R207 with the identities of R86. -/
def reduceOf (op : Nat) (t : Ty) (rnd : Rnd) (sat : Bool) : Reduce :=
  let w (f : W32 → W32 → W32) (a b : Nat) : Nat := (f (BitVec.ofNat 32 a) (BitVec.ofNat 32 b)).toNat
  let r (z : Nat) (f : Nat → Nat → Nat) : Reduce := { ident := some z, node := liftBoth f, none := z }
  if t == .f32 then
    match op with
    | 0 => r (if rnd == .rd then 0 else 0x80000000) fun a b => fAdd f32 rnd a b
    | 1 => { ident := Option.none, node := liftBoth (fMin f32), none := 0x7F800000 }
    | _ => { ident := Option.none, node := liftBoth (fMax f32), none := 0xFF800000 }
  else
    match op with
    | 0 => r 0 (w (addTy t sat))
    | 1 => r (wrapN 32 (tyMax t)) (w (minTy t))
    | 2 => r (wrapN 32 (tyMin t)) (w (maxTy t))
    | 3 => r 0xFFFFFFFF fun a b => Nat.land a b
    | 4 => r 0 fun a b => Nat.lor a b
    | _ => r 0 fun a b => Nat.xor a b

/-- A leaf: the lane's value when present; a NaN enters as the canonical one (R65, R86). -/
def leafOf (k : Reduce) (t : Ty) (present : Bool) (v : W32) : Option Nat :=
  if present then some (if t == .f32 && (unpack f32 v.toNat).isNan then nanPat else v.toNat) else k.ident

/-! Forms: what each does to the warp for the present lanes, which here are also the written lanes, and which poisoned
lanes it consumes (R185, R212, R213). -/

structure CrossForm where
  effect : Warp → W32 → Warp
  uses : Warp → W32 → List (Nat × Src)

def lanesOf (ls : W32) (x : Src) : List (Nat × Src) := (setBits ls).map fun l => (l, x)

def voteForm (g : Gen) : CrossForm where
  effect w ps :=
    let on := lanesWhere ps fun l => laneRaw w l g.a != 0
    let vals := (setBits ps).map fun l => laneRaw w l g.a
    let r : W32 := match g.c with
      | .reg n =>
        if n = 0 then on
        else if n = 1 then popc32 on
        else if n = 2 then (if on = 0 then 0 else 1)
        else if n = 3 then (if on = ps then 1 else 0)
        else (if vals.all fun v => v == vals.headD 0 then 1 else 0)
      | _ => 0
    sset w g.d.toNat r
  uses _ ps := lanesOf ps g.a

/-- The source lane of a shuffle for a written lane (R212). -/
def shflSource (mode c l : Nat) : Option Nat :=
  match mode with
  | 0 => some c
  | 1 => if c ≤ l then some (l - c) else none
  | 2 => if l + c < 32 then some (l + c) else none
  | _ => some (Nat.xor l c)

def shflFrom (g : Gen) (w : Warp) (ps : W32) (l : Nat) : Nat :=
  match shflSource (numOf g.c) ((laneRaw w l g.b).toNat % 32) l with
  | some k => if ps.getLsbD k then k else l
  | none => l

def shflForm (g : Gen) : CrossForm where
  effect w ps := writeLanes w g.d.toNat ps fun l => laneRaw w (shflFrom g w ps l) g.a
  uses w ps := lanesOf ps g.b ++ (setBits ps).map fun l => (shflFrom g w ps l, g.a)

/-- The levels of a reduction over the present lanes. -/
def crossTree (k : Reduce) (g : Gen) (w : Warp) (ps : W32) : List (List (Option Nat)) :=
  treeLevels k.node 5 ((List.range 32).map fun l => leafOf k g.ty (ps.getLsbD l) (laneBits w g.ty l g.a))

def vredForm (g : Gen) : CrossForm where
  effect w ps :=
    let k := reduceOf (numOf g.c) g.ty g.rnd g.sat
    let root := (((crossTree k g w ps).getD 5 []).headD Option.none).getD k.none
    writeLanes w g.d.toNat ps fun _ => BitVec.ofNat 32 root
  uses _ ps := lanesOf ps g.a

def vscanForm (g : Gen) : CrossForm where
  effect w ps :=
    let k := reduceOf (numOf g.c) g.ty g.rnd g.sat
    let t := crossTree k g w ps
    let n (l : Nat) := if g.sub.getLsbD 6 then l else l + 1
    writeLanes w g.d.toNat ps fun l => BitVec.ofNat 32 (((prefixOf k.node t (n l)).getD Option.none).getD k.none)
  uses _ ps := lanesOf ps g.a

/-- The key of MATCH (R213). -/
def matchKey (t : Ty) (v : W32) : Nat :=
  if t == .f32 then
    (if v = 0x80000000 then 0 else if (unpack f32 v.toNat).isNan then nanPat else v.toNat)
  else v.toNat

def matchForm (g : Gen) : CrossForm where
  effect w ps :=
    writeLanes w g.d.toNat ps fun l =>
      lanesWhere ps fun p => matchKey g.ty (laneBits w g.ty p g.a) == matchKey g.ty (laneBits w g.ty l g.a)
  uses _ ps := lanesOf ps g.a

/-- The lane that V2S and S2V name. -/
def laneNamed (w : Warp) (x : Src) : Nat := (scaVal w x).toNat % 32

def v2sForm (g : Gen) : CrossForm where
  effect w ps :=
    let l := laneNamed w g.b
    sset w g.d.toNat (if ps.getLsbD l then laneRaw w l g.a else 0)
  uses w ps := let l := laneNamed w g.b; if ps.getLsbD l then [(l, g.a)] else []

/-- The lanes VCOMPACT keeps, in order. -/
def compactFrom (g : Gen) (w : Warp) (ps : W32) : List Nat := (setBits ps).filter fun l => laneRaw w l g.b != 0

def vcompactForm (g : Gen) : CrossForm where
  effect w ps :=
    let from' := compactFrom g w ps
    let rank (l : Nat) := (lanesWhere ps fun p => p < l)
    writeLanes w g.d.toNat ps fun l =>
      match from'[popcount (rank l)]? with
      | some q => laneRaw w q g.a
      | none => 0
  uses w ps := lanesOf ps g.b ++ (compactFrom g w ps).map fun l => (l, g.a)

/-- The cross-lane words that take part in R209. -/
def crossOf : Instr → Option (Gen × CrossForm)
  | .vote g => some (g, voteForm g)
  | .shfl g => some (g, shflForm g)
  | .vred g => some (g, vredForm g)
  | .vscan g => some (g, vscanForm g)
  | .matchl g => some (g, matchForm g)
  | .v2s g => some (g, v2sForm g)
  | .vcompact g => some (g, vcompactForm g)
  | _ => none

/-! Who executes (R208-R211). -/

inductive XMode
  | alone (miss : Bool)
  /-- Both paths at once. -/
  | joint
  /-- The other path waits at another cross-lane word: each alone, with MISS. -/
  | each
  | wait (lanes : W32)
deriving DecidableEq, Repr

def memberReg (g : Gen) : Nat := g.sub.toNat % 8
def missReg (g : Gen) : Nat := g.sub.toNat / 8 % 8

/-- The table of R209.  A path that waits keeps the lanes it waits for until they exit; one freed to run alone waits for
none (`.cross 0`), and the other path lets it go first. -/
def crossMode (s : State) (x : Here) (g : Gen) : XMode :=
  let k := memberReg g
  let q := pathOf x.wp (otherSlot x.sl)
  let here' := mget x.wp x.sl k &&& (if q.st == .empty then 0 else q.mask)
  let (waited, lanes) : Bool × W32 := match x.p.wait with
    | .cross w => (true, if q.st == .empty then 0 else w &&& ~~~ x.wp.exited)
    | _ => (false, here')
  let stay : XMode := .wait (match x.p.wait with | .cross w => w | _ => here')
  if k = 0 then .alone false
  else if lanes = 0 then .alone waited
  else if q.st == .held || q.susp then .alone true
  else match q.wait with
    | .cross w => if w = 0 then stay else if q.pc == x.p.pc then .joint else .each
    | _ =>
      if q.pc == x.p.pc && !q.words.isEmpty && canIssue s x.core x.w x.wp (otherSlot x.sl) then .joint
      else stay

/-- Slot B goes on with the rest of the clause as a remainder, behind slot A (R210). -/
def asRemainder (p : Path) : Path :=
  if p.words.isEmpty then p else { p with remain := p.words.length, words := [] }

/-- After a joint issue both paths are past the word. -/
def retireBoth (w : Warp) (ws : List W64) : Warp :=
  let a := nextPath w.a ws
  let b := asRemainder (nextPath w.b ws)
  let w := { countW w .a ws with a := a, b := b, active := w.active && !a.parked }
  arrive (arrive w .a) .b

/-- A trap of a cross-lane word: of a joint one on slot A, with both PCs at the word (R210). -/
def crossTrap (s : State) (x : Here) (joint : Bool) (cls : FClass) (lanes : W32) (sector : Nat) : State :=
  if joint then
    let s := modWarp s x.core x.w fun w => modPath w .b fun p => squash p false
    fault s { x with sl := .a } cls lanes sector
  else fault s x cls lanes sector

/-- The word executes for the issuing path, or for both. -/
def crossRun (s : State) (x : Here) (i : Instr) (g : Gen) (f : CrossForm) (joint miss : Bool) : State :=
  let other := execOf x.wp (otherSlot x.sl) (predOf x.ws)
  let ps := if joint then x.exec ||| other else x.exec
  let rs := regsOf x.co.memdef i
  if rs.any fun r => r < 256 && r ≥ 8 * x.wp.granules.length then crossTrap s x joint .prot ps 0
  else if rs.any fun r => x.wp.pend.contains r then s
  else
    let bads := (f.uses x.wp ps).filter fun u => lanePoison x.wp false u.1 u.2
    let bad := lanesWhere 0xFFFFFFFF fun l => bads.any fun u => u.1 == l
    if bad ≠ 0 then crossTrap s x joint .poison bad (poisonSector x.wp)
    else
      let w := f.effect x.wp ps
      let j := missReg g
      let w := if j = 0 then w else mset w j (maskWrite (tgetD w.m j 0) ps fun _ => miss)
      setWarp s x.core x.w (if joint then retireBoth w x.ws else retireW w x.sl x.ws)

/-- A cross-lane word at its path (R209). -/
def crossGo (s : State) (x : Here) (i : Instr) (g : Gen) (f : CrossForm) : State :=
  match crossMode s x g with
  | .alone miss => crossRun s x i g f false miss
  | .joint => crossRun s x i g f true false
  | .wait lanes => modWarp s x.core x.w fun w => modPath w x.sl fun p => { p with wait := .cross lanes }
  | .each =>
    -- neither waits any longer: each runs alone with MISS, this one now
    let free (p : Path) : Path := { p with wait := .cross 0 }
    let w := modPath (modPath x.wp x.sl free) (otherSlot x.sl) free
    crossRun (setWarp s x.core x.w w) { x with wp := w } i g f false true

/-- A cross-lane word: UNDEF for its fields, or with a member register anywhere but first in its clause (R209). -/
def crossWord (i : Instr) (g : Gen) (f : CrossForm) (s : State) : Host.Outcome State Fault Refusal :=
  match here s (encode i) with
  | none => .next s
  | some x =>
    if !i.wf || (memberReg g ≠ 0 && !x.p.first) then .next (faultAll s x .undef)
    else .next (crossGo s x i g f)

def execVote (g : Gen) (s : State) : Host.Outcome State Fault Refusal := crossWord (.vote g) g (voteForm g) s
def execShfl (g : Gen) (s : State) : Host.Outcome State Fault Refusal := crossWord (.shfl g) g (shflForm g) s
def execVred (g : Gen) (s : State) : Host.Outcome State Fault Refusal := crossWord (.vred g) g (vredForm g) s
def execVscan (g : Gen) (s : State) : Host.Outcome State Fault Refusal := crossWord (.vscan g) g (vscanForm g) s
def execMatchl (g : Gen) (s : State) : Host.Outcome State Fault Refusal := crossWord (.matchl g) g (matchForm g) s
def execV2s (g : Gen) (s : State) : Host.Outcome State Fault Refusal := crossWord (.v2s g) g (v2sForm g) s
def execVcompact (g : Gen) (s : State) : Host.Outcome State Fault Refusal :=
  crossWord (.vcompact g) g (vcompactForm g) s

/-- S2V writes one lane, when it executes (R212). -/
def execS2v (g : Gen) (s : State) : Host.Outcome State Fault Refusal :=
  word (.s2v g) s fun s x =>
    let l := laneNamed x.wp g.b
    retire s x (writeLanes x.wp g.d.toNat (lanesWhere x.exec fun k => k == l) fun _ => laneRaw x.wp l g.a)

/-- A waiting path decides again (R209, R214). -/
def execCrossLaneRelease (core warp : Nat) (slot : Slot) (s : State) : Host.Outcome State Fault Refusal :=
  event (.crossLaneRelease core warp slot) s fun s =>
    match hereAt s core warp slot with
    | none => s
    | some x =>
      match x.p.wait, decode x.ws with
      | .cross _, .ok (i, _) =>
        if x.p.susp || x.co.stopped then s
        else match crossOf i with
          | some (g, f) => crossGo s x i g f
          | none => s
      | _, _ => s

end Sys2Proof.Machine
end

