-- ==== Sys2Proof/Machine/Crust.lean ====
section
/-! DEFINITION. Machine/Crust.lean: BINDT and REL: tiles with crust (R102, R114, R235-R237, R291-R293). -/

namespace Sys2Proof.Machine

/-! The grid record (R235). -/

def recT (r : List Byte) (axis : Nat) : Nat := recField r (0x10 + 2 * axis) 2
def recG (r : List Byte) (axis : Nat) : Nat := recField r (0x16 + 2 * axis) 2
def recEs (r : List Byte) : Nat := 2 ^ recField r 0x1C 1
def recH (r : List Byte) : Nat := recField r 0x1D 1
def recTiles (r : List Byte) : Nat := recG r 0 * recG r 1 * recG r 2

/-- The record keeps the limits of R235. -/
def recOk (r : List Byte) : Bool :=
  let row := recField r 8 4
  let plane := recField r 0xC 4
  let axes := List.range 3
  recField r 0 8 % 128 = 0 &&
  axes.all (fun a => 1 ≤ recT r a && recT r a ≤ 4096 && 1 ≤ recG r a) && recTiles r ≤ 4096 &&
  recField r 0x1C 1 ≤ 3 &&
  row % 128 = 0 && row ≥ recG r 0 * recT r 0 * recEs r &&
  plane % row = 0 && plane ≥ recG r 1 * recT r 1 * row &&
  1 ≤ recH r && recH r ≤ 8 && (List.range 6).all (fun f => !faceOn r f || recH r ≤ recT r (f / 2)) &&
  recField r 0x1E 1 < 64 && recField r 0x1F 1 < 4 && recField r 0x20 4 % 128 = 0 &&
  (r.drop 0x26).all (· == 0)

/-- The coordinate of a tile on an axis. -/
def tileAt (r : List Byte) (tile axis : Nat) : Nat :=
  if axis = 0 then tile % recG r 0
  else if axis = 1 then tile / recG r 0 % recG r 1
  else tile / recG r 0 / recG r 1

/-- The neighbour tile across a face, inside the grid. -/
def tileNext (r : List Byte) (tile face : Nat) : Option Nat :=
  let a := face / 2
  let step := if a = 0 then 1 else if a = 1 then recG r 0 else recG r 0 * recG r 1
  if face % 2 = 1 then (if tileAt r tile a + 1 < recG r a then some (tile + step) else none)
  else if tileAt r tile a = 0 then none else some (tile - step)

/-- Where a face's strip starts in scratch (R236). -/
def stripOff (r : List Byte) (face : Nat) : Nat :=
  (List.range face).foldl (fun a f => if faceOn r f then a + stripLen r f else a) (recField r 0x20 4)

/-- First element and extent of a tile's strip on an axis of the array. -/
def stripSpan (r : List Byte) (tile face axis : Nat) : Nat × Nat :=
  let t := recT r axis
  let c := tileAt r tile axis
  if face / 2 = axis then ((if face % 2 = 1 then (c + 1) * t else c * t - recH r), recH r) else (c * t, t)

/-- Rows of a strip: array address, scratch offset, length (R235, R236). -/
def stripRows (r : List Byte) (tile face : Nat) : List (Nat × Nat × Nat) :=
  let (x0, sx) := stripSpan r tile face 0
  let (y0, sy) := stripSpan r tile face 1
  let (z0, sz) := stripSpan r tile face 2
  let n := sx * recEs r
  (List.range sz).flatMap fun z => (List.range sy).map fun y =>
    (recField r 0 8 + (z0 + z) * recField r 0xC 4 + (y0 + y) * recField r 8 4 + x0 * recEs r,
     stripOff r face + (z * sy + y) * n, n)

/-- Lines of the array, the region that the object guards. -/
def recLines (r : List Byte) : Nat :=
  ((recG r 2 * recT r 2 - 1) * recField r 0xC 4 + (recG r 1 * recT r 1 - 1) * recField r 8 4 +
    recG r 0 * recT r 0 * recEs r + 127) / 128

/-! Claims. -/

/-- Claims on an object in a context: core, block slot, claim.  Shadows claim beside their originals (R422). -/
def claimsOn (s : State) (ctx obj : Nat) : List (Nat × Nat × Claim) :=
  s.cores.flatMap fun (c, co) =>
    if co.ctx == some ctx then
      co.blocks.flatMap fun (b, y) =>
        if y.ended || isShadow y then [] else (y.claims.filter (·.obj == obj)).map fun k => (c, b, k)
    else []

/-- The pages of checked lanes. -/
def lanePages (ls : List GLane) : Pages := fun va =>
  (ls.find? fun g => g.va / 65536 == va / 65536).map fun g =>
    ((g.leaf &&& BitVec.ofNat 64 (2 ^ 64 - 2 ^ 48 + 255)) ||| BitVec.ofNat 64 (g.pa / 65536 * 65536), 3)

/-- A row of the array as it stands at its homes, into a block's scratch (R237, R293). -/
def crustRow (s : State) (x : Here) (pg : Pages) (core b : Nat) (row : Nat × Nat × Nat) : State :=
  let none' : TDesc := { base := 0, space := 1, log2es := 0, columns := 0, rows := 0, stride := 0, extent := 0 }
  let y : CSlice := { core := core, warp := x.w, block := b, src := none', dst := { none' with space := 2 },
                      firstRow := 0, count := 0, tok := none, sta := none }
  writeLocal s y row.2.1 (readRow s x.ctx pg (wordWho x 1) y (row.1, row.2.2))

/-- Pages of rows, as lanes for the checks of R219. -/
def rowPages (rows : List (Nat × Nat × Nat)) : List (Nat × Nat) :=
  rows.flatMap fun row => (pieces 65536 row.1 row.2.2).map fun p => (0, p.1)

/-- Copy rows of the array into strips once every page is readable and every line can be read (log 16). -/
def crustGo (s : State) (x : Here) (moves : List (Nat × Nat × List (Nat × Nat × Nat))) (k : State → State) : State :=
  let rows := moves.flatMap (·.2.2)
  let (s, c) := checkGlobal s x.core x.ctx x.exec true { r := true } (rowPages rows)
  withChk s x c fun ls =>
    let pg := lanePages ls
    let at' := rows.flatMap fun row => (pieces 128 row.1 row.2.2).map (·.1)
    match wordReads s x 1 (rows.flatMap fun row => rangeLines s x.ctx pg row.1 row.2.2) with
    | .wait s => s
    | .prot t =>
      let bad := at'.filter fun va => refused s (gPa pg va / 128) (wordWho x 1)
      faultAll t x .prot (bad.foldl min (bad.headD 0))
    | .go s =>
      k (dropAnswers (moves.foldl (fun s m => m.2.2.foldl (fun s row => crustRow s x pg m.1 m.2.1 row) s) s) (wordWho x 1))

/-! BINDT (R235-R237). -/

/-- The claim and the binding stand, and the replicas are filled; then the word completes. -/
def bindtClaim (s : State) (x : Here) (obj : Nat) (r : List Byte) (tile : Nat) : State :=
  let flags := recField r 0x1F 1
  let b : Binding := { obj := obj, base := recField r 0 8, lines := recLines r, race := flags % 2 = 1,
                       trap := flags / 2 = 1, bindt := true }
  let bs := (ctxOf s x.ctx).bindings
  let bs := if bs.any fun y => y.obj == obj && y.bindt then bs else bs ++ [b]
  let s := { s with contexts := tmod s.contexts x.ctx fun c => { c with bindings := bs } }
  let claim : Claim := { obj := obj, record := r, tile := tile }
  retireNow (modBlock s x.core x.wp.block fun y => { y with claims := y.claims ++ [claim] }) x

/-- The table of R235 below MISALIGN, then the fill. -/
def bindtGo (s : State) (x : Here) (obj recVa : Nat) (r : List Byte) (tile last : Nat) : State :=
  let hv : W32 := BitVec.ofNat 32 (recField r 0x24 2)
  let claims := claimsOn s x.ctx obj
  let size := 4096 * x.block.scratchGran
  let rep := recField r 0x20 4
  let bs := (ctxOf s x.ctx).bindings
  if !recOk r || tile ≥ recTiles r || claims.any (fun c => c.2.2.record != r) then faultAll s x .tdesc recVa
  else match crewAt s x.ctx hv with
    | none => crewTrap s x hv 1
    | some (h, _) =>
      if !(x.co.warps.any fun (_, y) => y.block == x.wp.block && isMember y h) then crewTrap s x hv 3
      else if replicaLen r > 0 && rep + replicaLen r > size then faultAll s x .scrbnd (max rep size)
      else if last ≠ 0 || (!isShadow x.block && claims.any fun c => c.2.2.tile == tile) ||
          bs.any (fun y => y.obj == obj && !y.bindt) ||
          (bs.length ≥ 64 && !bs.any fun y => y.obj == obj) then faultAll s x .prot obj
      else
        let rows := (List.range 6).flatMap fun f =>
          if faceOn r f && (tileNext r tile f).isSome then stripRows r tile f else []
        crustGo s x [(x.core, x.wp.block, rows)] fun s => bindtClaim s x obj r tile

def execBindt (m : Mem) (s : State) : Host.Outcome State Fault Refusal :=
  memWord (.bindt m) .bare m s fun s x _ =>
    let d := m.data.toNat
    let obj := objAddr x.wp m
    let a := (sget64 x.wp d).toNat
    if x.exec = 0 then retireNow s x
    else if memHeld x true then s
    else if obj % 8 ≠ 0 then faultAll s x .misalign obj
    else if a % 64 ≠ 0 then faultAll s x .misalign a
    else
      let (s, c) := checkGlobal s x.core x.ctx x.exec true { r := true } [(0, a)]
      withChk s x c fun ls =>
        wordBytes s x 0 64 (groupHead ls) fun s bs bad =>
          if bad then poisonTrap s x a
          else bindtGo s x obj a bs (sget x.wp (d + 2)).toNat (sget x.wp (d + 3)).toNat

/-! REL (R102, R232, R237). -/

/-- Regions bound to an object, in bytes. -/
def boundRanges (s : State) (ctx obj : Nat) : List (Nat × Nat) :=
  ((ctxOf s ctx).bindings.filter (·.obj == obj)).map fun b => (b.base, 128 * b.lines)

/-- Steps 1 and 2 of R102: the warp's accesses to bound regions are performed at the scope, and its copies into them are
complete. -/
def relReady (s : State) (x : Here) (sc : Scope) (obj : Nat) : Bool :=
  let rs := boundRanges s x.ctx obj
  let bound (r : Req) : Bool := rs.any fun b => overlaps r.va 128 b.1 b.2
  let rd (r : Req) : Bool := match r.act with | .probe => false | .write .. => false | _ => true
  let wr := if sc == .pkg || sc == .sys then allReqs s x.core x.w else wcReqs s x.core x.w
  let test (o : MemOp) : Bool := o.warp == x.w && isMwait o && o.vas.any fun v => rs.any fun b => overlaps v.2 1 b.1 b.2
  !(allReqs s x.core x.w).any (fun r => bound r && rd r) && !wr.any (fun r => bound r && writes r) &&
  !x.co.ops.any test &&
  !s.copies.any fun (_, c) => c.slices.any fun y =>
    y.core == x.core && y.warp == x.w && !y.orphan && y.dst.space == 1 &&
    (sliceRows y y.dst).any fun row => rs.any fun b => overlaps row.1 row.2 b.1 b.2

/-- The crust pushes of a REL (R237, R292): for each enabled face, in order, the neighbour across the opposite face. -/
def crustPushes (s : State) (x : Here) (obj : Nat) : List (Nat × Nat × List (Nat × Nat × Nat)) :=
  let all := claimsOn s x.ctx obj
  if isShadow x.block then []
  else (x.block.claims.filter (·.obj == obj)).flatMap fun k =>
    -- R292: the strip of face f of the neighbour across the opposite face
    [1, 0, 3, 2, 5, 4].flatMap fun f =>
      let away := if f % 2 = 0 then f + 1 else f - 1
      match if faceOn k.record f then tileNext k.record k.tile away else none with
      | none => []
      | some t => (all.filter fun c => c.2.2.tile == t).map fun c => (c.1, c.2.1, stripRows k.record t f)

/-- Step 4: the release write of the pair to the object word. -/
def relWrite (s : State) (x : Here) (m : Mem) (md : Mods) (g : GLane) : State :=
  let v := (sget64 x.wp m.data.toNat).toNat
  let s := hashLanes s x 8 [(g, v)]
  let s := { s with contexts := tmod s.contexts x.ctx fun c =>
    { c with objEpochs := tput 0 c.objEpochs g.va (tgetD c.objEpochs g.va 0 + 1) } }
  let s := advanceEpoch s x.ctx (effScope s x md.scope)
  if isShadow x.block then retireNow s x
  else
    let s := acceptIf s x.core fun y => y.warp == x.w && y.req.line == g.line
    let (s, id) := newOp s x.core { id := 0, warp := x.w, slot := x.sl, dest := .none, ty := .n64, left := 1,
                                    holds := md.layer == .lhold || md.layer == .lboth }
    let r := reqFor s x md id (.write (fieldLine (g.pa % 128) 8 v) (fieldMask (g.pa % 128) 8) 0) [] g
    retireNow (accept s x.core { warp := x.w, req := r }) x

def execRel (m : Mem) (s : State) : Host.Outcome State Fault Refusal :=
  memWord (.rel m) .obj m s fun s x md =>
    let va := objAddr x.wp m
    let md := { md with ord := Ord.rel, space := Space.global, cache := Cache.norm }
    if x.exec = 0 then retireNow s x
    else if memHeld x true || !lwaitOk s x md || x.prov then s
    else if va % 8 ≠ 0 then faultAll s x .misalign va
    else
      let (s, c) := checkGlobal s x.core x.ctx x.exec true { w := true } [(0, va)]
      withChk s x c fun ls =>
        withChk s x (checkRace s x md false true true ls) fun ls =>
          if !relReady s x (effScope s x md.scope) va then s
          else crustGo s x (crustPushes s x va) fun s =>
            rush (relWrite s x m md (groupHead ls)) x.core x.w ((trapLanes s x md false true ls).map (·.1.line))

end Sys2Proof.Machine
end

