-- ==== Sys2Proof/Machine/Manage.lean ====
section
/-! DEFINITION. Machine/Manage.lean: partitions, agents, windows and keys (R363, R364, R413-R417), and writes of plain
registers (R6, R337, R366, R372, R420). -/

namespace Sys2Proof.Machine

/-! Who asks, and the answer (R415). -/

def sessionOf (s : State) (n : Nat) : Option Session := s.dev.sessions.find? fun x => x.id == n && x.open_

/-- The requester's certificate chain of an open session. -/
def chainOf (s : State) (i : Issuer) : Option Nat :=
  match i with
  | .management => none
  | .session n => (sessionOf s n).map (·.chain)

def isManagement (i : Issuer) : Bool := match i with | .management => true | .session _ => false

/-- The key owner of a partition. -/
def ownsPart (s : State) (part : Nat) (i : Issuer) : Bool :=
  match tget s.parts part, chainOf s i with
  | some p, some c => p.owner == some c
  | _, _ => false

/-- An answer of the responder (R416). -/
def respond (s : State) (code request : Nat) (body : List W64) : State :=
  modDev s fun d => { d with responses := d.responses ++ [{ code := code, request := request, body := body }] }

/-- The answer to a key or partition operation: 0 when it is done, else the condition that was broken. -/
def answerOp (s : State) (i : Issuer) (op why : Nat) : State :=
  match i with
  | .management => logEvent s (0x4150 + op) why
  | .session _ => respond s (if why = 0 then 0x7E else 0x7F) op [BitVec.ofNat 64 why]

/-- The frame of an operation: refused with the number of the first condition that is broken. -/
def operate (s : State) (i : Issuer) (op : Nat) (conds : List (Bool × Nat)) (f : State → State) : State :=
  match conds.find? fun c => !c.1 with
  | some c => answerOp s i op c.2
  | none => answerOp (f s) i op 0

/-! Measurements (R416). -/

def bitNat (b : Bool) : Nat := if b then 1 else 0

/-- What measurement 0x10 + p covers: chiplets, windows, bound key slots, host window. -/
def partContent (s : State) (p : Nat) (x : Part) : List Nat :=
  let ws := s.windows.filter fun w => winPart w.2 == p
  let sites := chipletsOf s p
  let slots := (List.range 64).filter fun k => sites.contains (k / 8)
  x.n :: sites ++ ws.flatMap (fun w => [w.1, w.2.base.toNat, w.2.store.toNat, w.2.scale.toNat, w.2.ctl.toNat]) ++
  slots.map (fun k => bitNat (tget s.keys k).isSome) ++
  (match x.window with | some (b, n) => [1, b, n] | none => [0])

def configContent (s : State) : List Nat :=
  s.dev.mode :: s.parts.length :: s.parts.flatMap (fun p => [p.1, p.2.n]) ++ s.dev.agents.flatMap fun a => [a.1, a.2]

/-- A measurement by its index. -/
def measure (s : State) (i : Nat) : Option (BitVec 256) :=
  match i with
  | 1 => some (Config.digest [1])
  | 2 => some (if s.dev.mode = 2 then 0 else Config.digest [2, s.dev.running])
  | 3 => some (Config.digest [3])
  | 4 => some (Config.digest (4 :: configContent s))
  | _ =>
    if i < 0x10 then none
    else (tget s.parts (i - 0x10)).map fun x => Config.digest (i :: partContent s (i - 0x10) x)

/-! Partitions (R414, R415). -/

/-- Cells outside an address range. -/
def outside {α : Type} (t : List (Nat × α)) (lo hi : Nat) : List (Nat × α) := t.filter fun c => c.1 < lo || hi ≤ c.1
def outsideSet (t : NatSet) (lo hi : Nat) : NatSet := t.filter fun k => k < lo || hi ≤ k

/-- A range of DRAM reads as zero, and carries no poison. -/
def zeroDram (s : State) (lo hi : Nat) : State :=
  { s with mem := outside s.mem lo hi, memPoison := outsideSet s.memPoison (lo / 32) ((hi + 31) / 32) }

/-- The DRAM, glaze and slices of n chiplets from `lo` on are as new. -/
def zeroSites (s : State) (lo n : Nat) : State :=
  let s := zeroDram s (2 ^ 37 * lo) (2 ^ 37 * (lo + n))
  { s with glaze := outside s.glaze (2 ^ 30 * lo) (2 ^ 30 * (lo + n)), slices := outside s.slices (32 * lo) (32 * (lo + n)) }

/-- Queues of all partitions. -/
def queuesUsed (s : State) : Nat := s.parts.foldl (fun n p => n + p.2.page.qtlim) 0

/-- A partition appears: its resources are zeroed, its page and its window follow. -/
def makePart (s : State) (part lo n : Nat) : State :=
  let s := zeroSites s lo n
  let lim := min (Config.queueCount part n) (4096 - queuesUsed s)
  let win := match Config.hostWindow part n with
    | some (b, m) => if s.dev.mode = 0 && 0 < m && b + m ≤ 2 ^ 37 * n then some (2 ^ 37 * lo + b, m) else none
    | none => none
  { s with parts := tins s.parts part { n := n, page := { qtlim := lim }, window := win } }

/-- n chiplets from k × n on (R414). -/
def partSize (n k : Nat) : Bool := (n == 1 || n == 2 || n == 4 || n == 8) && (k + 1) * n ≤ 8

def partFree (s : State) (part n : Nat) : Bool :=
  !s.parts.any fun p => overlaps p.1 p.2.n part n

def execPartCreate (by_ : Issuer) (n k : Nat) (s : State) : Host.Outcome State Fault Refusal :=
  eventIf (partSize n k) s fun s =>
    operate s by_ 1 [(isManagement by_, 1), (s.dev.mode == 0, 2), (partFree s (k * n) n, 3)]
      fun s => makePart s (k * n) (k * n) n

/-- The partition holds a context or an enabled queue. -/
def partHeld (s : State) (part : Nat) : Bool :=
  s.cores.any (fun c => match c.2.ctx with | some k => (ctxOf s k).part == part | none => false) ||
  s.saves.any (fun v => (ctxOf s v.ctx).part == part) ||
  s.queues.any fun q => q.1 / 4096 == part && q.2.st != 0

/-- The function disappears; windows, keys and DRAM go, and with the contexts all that was still under way or cached for
them. -/
def unmakePart (s : State) (part : Nat) : State :=
  let sites := chipletsOf s part
  let s := zeroSites s (lowSite s part) sites.length
  { s with
    parts := tdel s.parts part,
    windows := s.windows.filter fun w => winPart w.2 != part,
    keys := s.keys.filter fun k => !sites.contains (k.1 / 8),
    cores := s.cores.map (fun c => (c.1, { c.2 with tlb := c.2.tlb.filter fun e => e.ctx / 2 ^ 32 != part })),
    clusterTlb := s.clusterTlb.map (fun c => (c.1, c.2.filter fun e => e.ctx / 2 ^ 32 != part)),
    icache := s.icache.filter fun c => !sites.contains (c.1 / 8),
    ports := s.ports.filter fun p => !sites.contains (p.1 / 4),
    copies := s.copies.filter fun c => (ctxOf s c.2.ctx).part != part,
    late := s.late.filter fun x => x.part != part,
    queues := s.queues.filter fun q => q.1 / 4096 != part,
    cmds := s.cmds.filter fun c => c.part != part,
    launches := s.launches.filter fun l => l.2.part != part,
    contexts := s.contexts.filter fun c => c.2.part != part }

def execPartDestroy (by_ : Issuer) (part : Nat) (s : State) : Host.Outcome State Fault Refusal :=
  eventIf (below part 8) s fun s =>
    operate s by_ 2 [(isManagement by_, 1), ((tget s.parts part).isSome, 2), (!partHeld s part, 3)]
      fun s => unmakePart s part

/-- A line of the agent is cached in the package. -/
def agentCached (s : State) (a : Nat) : Bool :=
  let of (line : Nat) : Bool := isRemote line && agentOfLine line == a
  s.slices.any fun p => p.2.ways.any (fun w => of w.2.line) || p.2.entries.any fun e => of e.line

def execAgentAssign (by_ : Issuer) (agent part : Nat) (s : State) : Host.Outcome State Fault Refusal :=
  eventIf (below agent 63 && below part 8) s fun s =>
    operate s by_ 3 [(isManagement by_, 1), (s.dev.mode == 0 && (tget s.parts part).isSome && agent != s.dev.self, 2),
                     (!agentCached s agent, 3)]
      fun s => modDev s fun d => { d with agents := tins d.agents agent part }

/-! Windows (R363). -/

/-- Address ranges of a window: itself, its storage, its scale region. -/
def winRanges (w : WinRegs) : List (Nat × Nat) :=
  let n := winLimit w - winBase w
  (winBase w, n) :: ((if winFormat w = 1 then [(winStore w, n / 128 * 96)] else []) ++
    (if winScaleV w then [(winScaleBase w, winScaleLen w)] else []))

def inRanges (rs : List (Nat × Nat)) (line : Nat) : Bool := rs.any fun r => overlaps r.1 r.2 (128 * line) 128

/-- Copies of the ranges leave the partition's slices and L1s, dirty ones written back first or not. -/
def flushRanges (s : State) (part : Nat) (rs : List (Nat × Nat)) (back : Bool) : State :=
  let sites := chipletsOf s part
  let hit := s.slices.flatMap fun p =>
    if sites.contains (p.1 / 32) then (p.2.ways.filter fun w => inRanges rs w.2.line).map fun w => (p.1, w.1, w.2) else []
  let s := hit.foldl (fun s t => if back then evict s t.1 t.2.1 t.2.2 else dropWay s t.1 t.2.1 t.2.2) s
  let core (p : Nat × Core) : Nat × Core :=
    if sites.contains (p.1 / 128) then (p.1, { p.2 with l1 := p.2.l1.filter fun l => !inRanges rs l.line }) else p
  { s with cores := s.cores.map core }

/-- The writable bits of the four registers. -/
def winMask (w : WinRegs) : WinRegs :=
  { base := w.base, store := w.store &&& 0xFFFFFFFF, scale := w.scale &&& 0x0FFFFFFFFFFFFF80, ctl := w.ctl &&& 0x7FFF }

def winOf (s : State) (k : Nat) : WinRegs := (tget s.windows k).getD { base := 0, store := 0, scale := 0, ctl := 0 }

/-- Every byte of a range lies in the partition's DRAM; an empty range lies anywhere. -/
def rangeInDram (s : State) (part : Nat) (r : Nat × Nat) : Bool := r.2 == 0 || inPartDram s part r.1 r.2

/-- The window, storage and scale region lie where they must. -/
def winPlaced (s : State) (w : WinRegs) : Bool :=
  let n := winLimit w - winBase w
  let p := winPart w
  (if winFormat w = 1 then
     2 ^ 40 ≤ winBase w && winLimit w ≤ 2 ^ 41 && rangeInDram s p (winStore w, n / 128 * 96)
   else rangeInDram s p (winBase w, n))

/-- Pieces of a list do not meet each other. -/
def apart : List (Nat × Nat) → Bool
  | [] => true
  | r :: t => !(t.any fun q => overlaps r.1 r.2 q.1 q.2) && apart t

/-- The conditions of R363 on a configuration; a window that is not valid is bound by those on its fields only. -/
def winConds (s : State) (k : Nat) (w : WinRegs) : List (Bool × Nat) :=
  let sites := chipletsOf s (winPart w)
  let v := winValid w
  let others := (s.windows.filter fun o => o.1 != k && winValid o.2).flatMap fun o => winRanges o.2
  [(winFormat w < 2 && winSealOf w < 3, 2), (winSealOf w == winSealOf (winOf s k), 8),
   (!v || sites.contains (k / 8), 3), (!v || sites.contains (winKeySlot w / 8), 4), (!v || winPlaced s w, 5),
   (!v || (apart (winRanges w) && !(winRanges w).any fun r => others.any fun q => overlaps r.1 r.2 q.1 q.2), 6),
   (!v || !winScaleV w || rangeInDram s (winPart w) (winScaleBase w, winScaleLen w), 7)]

/-- Management, or the key owner of the window's partition, before and after. -/
def mayWindow (s : State) (k : Nat) (w : WinRegs) (i : Issuer) : Bool :=
  isManagement i || (ownsPart s (winPart w) i && (!winValid (winOf s k) || winPart (winOf s k) == winPart w))

def execWinSet (by_ : Issuer) (window : Nat) (regs : WinRegs) (s : State) : Host.Outcome State Fault Refusal :=
  eventIf (below window 64) s fun s =>
    let w := winMask regs
    let old := winOf s window
    operate s by_ 4 ((mayWindow s window w by_, 1) :: winConds s window w) fun s =>
      let s := if winValid old then flushRanges s (winPart old) (winRanges old) true else s
      let s := if winValid w then flushRanges s (winPart w) (winRanges w) true else s
      { s with windows := tins s.windows window w }

/-! Seals and keys (R364, R417). -/

/-- The window's registers with another seal state. -/
def withSeal (w : WinRegs) (st : Nat) : WinRegs :=
  { w with ctl := BitVec.ofNat 64 (w.ctl.toNat - winSealOf w * 4 + st * 4) }

def setSeal (s : State) (k st : Nat) : State := { s with windows := tmod s.windows k fun w => withSeal w st }

/-- ACTIVE to OFF: copies of what is sealed go without being written back, the storage is zeroed and the key is
cleared; the scale region is not sealed. -/
def breakSeal (s : State) (k : Nat) : State :=
  let w := winOf s k
  let n := winLimit w - winBase w
  let s := flushRanges s (winPart w) (winRanges { w with ctl := w.ctl &&& ~~~ 0x4000 }) false
  let s := if winFormat w = 1 then zeroDram s (winStore w) (winStore w + n / 128 * 96)
           else zeroDram s (winBase w) (winLimit w)
  setSeal { s with keys := tdel s.keys (winKeySlot w) } k 0

/-- A transition that R364 allows. -/
def sealStep (s : State) (k st : Nat) : State :=
  let w := winOf s k
  match winSealOf w, st with
  | 2, _ => breakSeal s k
  | 0, _ => setSeal (flushRanges s (winPart w) (winRanges w) true) k 1
  | _, _ => setSeal s k st

def sealAllowed (s : State) (k st : Nat) : Bool :=
  let w := winOf s k
  match winSealOf w, st with
  | 0, 1 | 1, 0 | 2, 0 => true
  | 1, 2 => (tget s.keys (winKeySlot w)).isSome
  | _, _ => false

def execWinSeal (by_ : Issuer) (window state : Nat) (s : State) : Host.Outcome State Fault Refusal :=
  eventIf (below window 64 && below state 4) s fun s =>
    operate s by_ 5 [(ownsPart s (winPart (winOf s window)) by_, 1), (s.dev.mode == 0, 2),
                     ((tget s.windows window).isSome && sealAllowed s window state, 3)]
      fun s => sealStep s window state

/-- The session may bind keys to the partition: it owns it, or no one does. -/
def mayBind (s : State) (part : Nat) (i : Issuer) : Bool :=
  match tget s.parts part, chainOf s i with
  | some p, some c => p.owner.isNone || p.owner == some c
  | _, _ => false

def sessionNo (i : Issuer) : Nat := match i with | .management => 0 | .session n => n

def execKeyBind (by_ : Issuer) (part slot : Nat) (wrapped : BitVec 576) (digest : BitVec 256) (s : State) :
    Host.Outcome State Fault Refusal :=
  eventIf (below part 8 && below slot 64) s fun s =>
    let key := Config.unwrapKey (sessionNo by_) wrapped
    operate s by_ 6
      [(mayBind s part by_ && s.dev.mode == 0, 1), (measure s (0x10 + part) == some digest, 2),
       ((chipletsOf s part).contains (slot / 8), 3), ((tget s.keys slot).isNone, 4), (key.isSome, 5)] fun s =>
      let own (p : Part) : Part := { p with owner := if p.owner.isSome then p.owner else chainOf s by_ }
      { s with keys := tins s.keys slot (key.getD 0), parts := tmod s.parts part own }

def execKeyClear (by_ : Issuer) (slot : Nat) (s : State) : Host.Outcome State Fault Refusal :=
  eventIf (below slot 64) s fun s =>
    let part := (partOfChiplet s (slot / 8)).getD 8
    operate s by_ 7 [(isManagement by_ || ownsPart s part by_, 1)] fun s =>
      let ws := (s.windows.filter fun w => winSealOf w.2 == 2 && winKeySlot w.2 == slot).map (·.1)
      let s := ws.foldl breakSeal s
      { s with keys := tdel s.keys slot }

/-! Writes of plain registers. -/

def schedWrite (off : Nat) (v : W64) (p : SPage) : SPage :=
  let n := v.toNat
  match off with
  | 0x000 => { p with qtbase := n % 2 ^ 48 / 64 * 64 }
  | 0x010 => { p with ctx0 := v }
  | 0x028 => { p with tlbCtx := n / 2 ^ 32 }
  | 0x030 => { p with notebase := n % 2 ^ 48 / 4096 * 4096, notesize := n % 16 }
  | 0x040 => { p with tail := v }
  | _ => p

/-- COLCTL.TARGET, and CLSTAT.ABANDONED, which a 1 clears. -/
def linkWrite (off : Nat) (v : W64) (s : State) (pair : Nat) : State :=
  if 0x100 ≤ off && off ≤ 0x180 then
    modCol s pair ((off - 0x100) / 8) fun c => { c with target := v.toNat / 2 ^ 8 % 32 }
  else if 0x200 ≤ off && off ≤ 0x280 then
    modCol s pair ((off - 0x200) / 8) fun c => { c with abandoned := c.abandoned && !v.getLsbD 7 }
  else s

/-- RDCARVE of a site; a carve-out outside the site's DRAM is not taken. -/
def carveWrite (v : W64) (s : State) (site : Nat) : State :=
  let w := v &&& 0x0000FFFC00000001
  if !w.getLsbD 0 || w.toNat / 2 ^ 37 = site then { s with carve := tput 0 s.carve site w } else s

/-- START_REASON: FAILS and REASON are written, the rest is read only. -/
def reasonWrite (v : W64) (d : Dev) : Dev := { d with fails := v.extractLsb' 24 8, reason := v.extractLsb' 0 8 }

def execRegisterWrite (page : RegPage) (offset : Nat) (value : W64) (s : State) : Host.Outcome State Fault Refusal :=
  eventIf (offset % 8 == 0) s fun s =>
    match page with
    | .sched p => if insecure s p then s else modPage s p (schedWrite offset value)
    | .link p => if p < 32 then linkWrite offset value s p else s
    | .carve c => if offset = 0 && c < 8 then carveWrite value s c else s
    | .mgmt => if offset = 0 then modDev s (reasonWrite value) else s

/-! Reads of plain registers: a read changes nothing, and so it is no step (R3, R6). -/

/-- The scheduler page: reserved and write-only fields read as zero (R372). -/
def schedRead (off : Nat) (p : SPage) : Nat :=
  match off with
  | 0x000 => p.qtbase
  | 0x008 => p.qtlim
  | 0x010 => p.ctx0.toNat
  | 0x028 => 2 ^ 32 * p.tlbCtx + 2 * bitNat p.tlbBusy
  | 0x030 => p.notebase + p.notesize
  | 0x038 => 2 ^ 32 * p.lost.toNat + p.head.toNat
  | 0x040 => p.tail.toNat
  | _ => 0

/-- COLCTL and CLSTAT (R337). -/
def colctlRead (c : Column) : Nat := 2 ^ 8 * c.target + bitNat c.migrate
def clstatRead (c : Column) : Nat :=
  2 ^ 24 * c.discard + 2 ^ 16 * min 255 c.repairs + 2 ^ 10 * c.spares + 2 ^ 9 * bitNat c.failed + 2 ^ 8 * bitNat c.frozen +
  2 ^ 7 * bitNat c.abandoned + 2 ^ 6 * bitNat c.migrating

/-- The column-link page of a cluster pair. -/
def linkRead (s : State) (pair off : Nat) : Nat :=
  let p := tgetD s.pairs pair {}
  if off = 0 then 2 ^ 8 * p.gates + 2 ^ 2 * p.gate + bitNat p.req
  else if 0x100 ≤ off && off ≤ 0x180 then colctlRead (colOf s pair ((off - 0x100) / 8))
  else if 0x200 ≤ off && off ≤ 0x280 then clstatRead (colOf s pair ((off - 0x200) / 8))
  else 0

/-- Bytes of the leaf controller's address map beyond its SRAM: bind records, the column-link page, STORECFG (R387, R388).
A position's core is the column's, on the spare (16) that of the column that the spare serves. -/
def leafCore (s : State) (leaf pos : Nat) : Option Nat :=
  let base := leaf / 8 * 128 + leaf / 4 % 2 * 64 + leaf % 4 * 16
  (List.range 16).find? (fun p => if (colOf s (pairOf base) p).spare then pos == 16 else pos == p) |>.map (base + ·)

/-- A bind record: its last byte is valid while the block holds the slot. -/
def bindRead (s : State) (core k off : Nat) : Byte :=
  if off = 127 then (if (tget (coreOf s core).blocks k).isSome then 0xA5 else 0)
  else (tgetD s.binds (16 * core + k) []).getD off 0

/-- What the leaf controller reads there; none in its SRAM and where the map has nothing. -/
def leafRead (s : State) (leaf addr : Nat) : Option Byte :=
  let pair := leaf / 8 * 4 + leaf % 4
  if 0x10000 ≤ addr && addr < 0x10000 + 0x800 * 17 then
    (leafCore s leaf ((addr - 0x10000) / 0x800)).map fun c => bindRead s c ((addr - 0x10000) % 0x800 / 128) (addr % 128)
  else if 0x20000 ≤ addr && addr < 0x21000 then
    some (BitVec.ofNat 8 (linkRead s pair ((addr - 0x20000) / 8 * 8) / 256 ^ (addr % 8)))
  else if 0x30000 ≤ addr && addr < 0x30000 + 8 * 17 then
    (leafCore s leaf ((addr - 0x30000) / 8)).map fun c => BitVec.ofNat 8 (storeCfg (coreOf s c) / 256 ^ (addr % 8))
  else none

/-- START_REASON (R420). -/
def reasonRead (d : Dev) : Nat := 2 ^ 24 * d.fails.toNat + 2 ^ 12 * d.mode + 2 ^ 8 * d.keptChiplet + d.reason.toNat

/-- What a read of a mapped register gives. -/
def registerRead (s : State) (page : RegPage) (off : Nat) : W64 :=
  BitVec.ofNat 64 (match page with
    | .sched p => schedRead off (pageOf s p)
    | .link p => linkRead s p off
    | .carve c => if off = 0 then (tgetD s.carve c 0).toNat else 0
    | .mgmt => if off = 0 then reasonRead s.dev else 0)

end Sys2Proof.Machine
end

