-- ==== Sys2Proof/Machine/Device.lean ====
section
/-! DEFINITION. Machine/Device.lean: the SPDM responder, IDE, the host window, the Glauk links and the start of the
device (R407-R413, R416, R418-R421).  Message codes are those of SPDM 1.3 (log 13). -/

namespace Sys2Proof.Machine

/-! SPDM (R416, R419). -/

/-- An answer with a signature, which uses a leaf of the identity key; without one left, ResponseNotReady. -/
def respondSigned (s : State) (code request : Nat) (body : List W64) : State :=
  if s.dev.leaf < s.dev.leafEnd then
    respond (modDev s fun d => { d with leaf := d.leaf + 1 }) code request (body ++ [Config.secret s.dev.leaf])
  else respond s 0x7F request [0x42]

def spdmError (s : State) (request err : Nat) : State := respond s 0x7F request [BitVec.ofNat 64 err]

/-- A request that needs the firmware: the ROM refuses it. -/
def needsFirmware (s : State) (request : Nat) (f : State → State) : State :=
  if s.dev.mode = 2 then spdmError s request 7 else f s

/-- A request inside an open session. -/
def inSession (s : State) (r : SpdmReq) (request : Nat) (f : State → State) : State :=
  needsFirmware s request fun s => if (sessionOf s r.session).isSome then f s else spdmError s request 2

def words256 (x : BitVec 256) : List W64 := (List.range 4).map fun i => x.extractLsb' (64 * i) 64

def execGetVersion (_r : SpdmReq) (s : State) : Host.Outcome State Fault Refusal :=
  eventIf true s fun s => respond s 0x04 0x84 [0x1300]

def execGetCapabilities (_r : SpdmReq) (s : State) : Host.Outcome State Fault Refusal :=
  eventIf true s fun s => respond s 0x61 0xE1 []

def execNegotiateAlgorithms (_r : SpdmReq) (s : State) : Host.Outcome State Fault Refusal :=
  eventIf true s fun s => respond s 0x63 0xE3 []

def execGetDigests (_r : SpdmReq) (s : State) : Host.Outcome State Fault Refusal :=
  eventIf true s fun s => respond s 0x01 0x81 (words256 (Config.digest [0]))

def execGetCertificate (_r : SpdmReq) (s : State) : Host.Outcome State Fault Refusal :=
  eventIf true s fun s => respond s 0x02 0x82 (words256 (Config.digest [0]))

def execChallenge (r : SpdmReq) (s : State) : Host.Outcome State Fault Refusal :=
  eventIf true s fun s => respondSigned s 0x03 0x83 [BitVec.ofNat 64 r.arg]

/-- A measurement by its index in the low byte of the argument; an odd second byte asks for a signature. -/
def execGetMeasurements (r : SpdmReq) (s : State) : Host.Outcome State Fault Refusal :=
  eventIf true s fun s =>
    match measure s (r.arg % 256) with
    | none => spdmError s 0xE0 1
    | some d => if r.arg / 256 % 2 = 1 then respondSigned s 0x60 0xE0 (words256 d) else respond s 0x60 0xE0 (words256 d)

/-- A session begins; the argument stands for the requester's certificate chain. -/
def openSession (r : SpdmReq) (d : Dev) : Dev :=
  { d with sessions := { id := r.session, open_ := false, chain := r.arg } :: d.sessions }

def execKeyExchange (r : SpdmReq) (s : State) : Host.Outcome State Fault Refusal :=
  eventIf true s fun s => needsFirmware s 0xE4 fun s =>
    if s.dev.sessions.any fun x => x.id == r.session then spdmError s 0xE4 2
    else if s.dev.leaf < s.dev.leafEnd then respondSigned (modDev s (openSession r)) 0x64 0xE4 []
    else respondSigned s 0x64 0xE4 []

def modSession (r : SpdmReq) (f : Session → Session) (d : Dev) : Dev :=
  { d with sessions := d.sessions.map fun x => if x.id == r.session then f x else x }

def execFinish (r : SpdmReq) (s : State) : Host.Outcome State Fault Refusal :=
  eventIf true s fun s => needsFirmware s 0xE5 fun s =>
    if s.dev.sessions.any fun x => x.id == r.session && !x.open_ then
      respond (modDev s (modSession r fun x => { x with open_ := true })) 0x65 0xE5 []
    else spdmError s 0xE5 4

def execHeartbeat (r : SpdmReq) (s : State) : Host.Outcome State Fault Refusal :=
  eventIf true s fun s => inSession s r 0xE8 fun s => respond s 0x68 0xE8 []

def execKeyUpdate (r : SpdmReq) (s : State) : Host.Outcome State Fault Refusal :=
  eventIf true s fun s => inSession s r 0xE9 fun s =>
    respond (modDev s (modSession r fun x => { x with keys := x.keys + 1 })) 0x69 0xE9 []

def execEndSession (r : SpdmReq) (s : State) : Host.Outcome State Fault Refusal :=
  eventIf true s fun s => inSession s r 0xEC fun s =>
    let s := modDev s fun d => { d with sessions := d.sessions.filter fun x => x.id != r.session }
    respond s 0x6C 0xEC []

/-- The carrier of the key and partition operations, which are steps of their own (R415). -/
def execVendorDefinedRequest (r : SpdmReq) (s : State) : Host.Outcome State Fault Refusal :=
  eventIf true s fun s => inSession s r 0xFE fun s => respond s 0x7E 0xFE []

/-! IDE (R411): stream 0 is the link's, stream 1 + p that of partition p. -/

def execIdeKm (session stream : Nat) (s : State) : Host.Outcome State Fault Refusal :=
  eventIf (below stream 9) s fun s =>
    if (sessionOf s session).isSome && (stream == 0 || (tget s.parts (stream - 1)).isSome) then
      modDev s fun d => { d with streams := tins d.streams stream true }
    else s

/-- Vector 0 and a notice of all ones. -/
def insecureNotice (s : State) (part : Nat) : State :=
  let t := notice s part (BitVec.allOnes 64)
  if t.dev.irqs.length = s.dev.irqs.length then irq t part 0 else t

def execIdeIntegrityFail (stream : Nat) (s : State) : Host.Outcome State Fault Refusal :=
  eventIf (below stream 9) s fun s =>
    if tget s.dev.streams stream == some true then
      let s := modDev s fun d => { d with streams := tins d.streams stream false }
      if stream = 0 then (tkeys s.parts).foldl insecureNotice s
      else if (tget s.parts (stream - 1)).isSome then insecureNotice s (stream - 1) else s
    else s

/-! The host window (R409, R364). -/

/-- The seal state that an access by its physical address meets: of a window, or of a window's storage. -/
def sealAt (s : State) (pa : Nat) : Nat :=
  let f (o : Option (Nat × WinRegs)) : Nat := match o with | some (_, w) => winSealOf w | none => 0
  max (f (windowAt s pa)) (f (storageAt s pa))

def hostAnswer (s : State) (addr : Nat) (r : Option (List Byte)) : State :=
  modDev s fun d => { d with hostReads := (addr, r) :: d.hostReads }

/-- Slice copies of what a line stores: the line itself, or packed lines kept there. -/
def dropStored (s : State) (line : Nat) : State :=
  let s := dropCopies s line
  match storageAt s (128 * line) with
  | none => s
  | some (_, w) =>
    let lo := (128 * line - winStore w) / 96
    foldN 3 (fun i s => dropCopies s (winBase w / 128 + lo + i)) s

/-- Bytes are stored as they are given, while the window is loaded. -/
def storeRaw (s : State) (a : Nat) (bs : List Byte) : State :=
  let s := dropStored s (a / 128)
  { s with mem := memPut s.mem a bs }

def hostWrite (s : State) (part : Nat) (ps : List (Nat × Nat)) (addr : Nat) (bs : List Byte) : State :=
  ps.foldl (fun s p =>
    let b := (bs.drop (p.1 - addr)).take p.2
    if sealAt s p.1 = 1 then storeRaw s p.1 b else homeWriteBytes s part p.1 b) s

/-- An access of the host is made once its lines can be used; it waits until then. -/
def hostGo (s : State) (part : Nat) (write : Bool) (addr : Nat) (bytes : List Byte) : State :=
  let ok := match (tget s.parts part).bind (·.window) with
    | some (b, n) => b ≤ addr && addr + bytes.length ≤ b + n
    | none => false
  if !ok || insecure s part then hostAnswer s addr none
  else
    let ps := pieces 128 addr bytes.length
    let plain := ps.filter fun p => sealAt s p.1 == 0
    match plain.find? fun p => !usable s (p.1 / 128) write with
    | some p =>
      wantLine (modDev s fun d => { d with hostWaits := d.hostWaits ++ [(part, write, addr, bytes)] }) part (p.1 / 128) write
    | none =>
      if write then
        if ps.any fun p => sealAt s p.1 == 2 then hostAnswer s addr none
        else hostAnswer (hostWrite s part ps addr bytes) addr (some [])
      else
        hostAnswer s addr (some (ps.flatMap fun p =>
          if sealAt s p.1 = 0 then peekBytes s p.1 p.2 else memBytes s.mem p.1 p.2))

/-- The accesses to a partition's window go in their order. -/
def hostNext (s : State) (x : Nat × Bool × Nat × List Byte) : State :=
  if s.dev.hostWaits.any fun y => y.1 == x.1 then modDev s fun d => { d with hostWaits := d.hostWaits ++ [x] }
  else hostGo s x.1 x.2.1 x.2.2.1 x.2.2.2

def execHostAccess (part : Nat) (write : Bool) (addr : Nat) (bytes : List Byte) (s : State) :
    Host.Outcome State Fault Refusal :=
  eventIf (below part 8) s fun s => hostNext s (part, write, addr, bytes)

/-- Those that wait are looked at, in their order. -/
def execHostRetry (s : State) : Host.Outcome State Fault Refusal :=
  eventIf true s fun s => s.dev.hostWaits.foldl hostNext (modDev s fun d => { d with hostWaits := [] })

/-! Glauk links (R412, R413). -/

def portUp (s : State) (port : Nat) : Bool := (tget s.dev.ports port).isSome && !smem s.dev.portsFailed port

/-- The flit is resent from the replay buffer: nothing is lost. -/
def execFlitCrcFail (port : Nat) (s : State) : Host.Outcome State Fault Refusal :=
  eventIf (below port 16) s fun s =>
    if portUp s port then modDev s fun d => { d with replays := tins d.replays port (tgetD d.replays port 0 + 1) } else s

/-- The group goes on over its other ports; a peer without any answers no snoop. -/
def execPortFail (port : Nat) (s : State) : Host.Outcome State Fault Refusal :=
  eventIf (below port 16) s fun s =>
    if portUp s port then modDev s fun d => { d with portsFailed := sins d.portsFailed port } else s

def execLinkTrain (port agent : Nat) (s : State) : Host.Outcome State Fault Refusal :=
  eventIf (below port 16) s fun s =>
    if s.dev.mode ≠ 0 then s
    else if agent = 0 || agent ≥ 63 || agent = s.dev.self then
      logEvent (modDev s fun d => { d with ports := tdel d.ports port }) 0x413 port
    else modDev s fun d => { d with ports := tins d.ports port agent, portsFailed := sdel d.portsFailed port }

/-! The start (R418-R420). -/

/-- What a reset leaves: fuses, flash and repairs always, the columns' places in the logical map among them (R16, log 4);
START_REASON, the mailbox and dropped chiplets when it is warm. -/
def afterReset (s : State) (cold : Bool) : State :=
  let d := s.dev
  let dev : Dev := { leaf := d.leaf, leafEnd := d.leafEnd, images := d.images, running := d.running,
                     corrected := d.corrected, spared := d.spared, spareSlices := d.spareSlices,
                     spareEngines := d.spareEngines }
  let warm : Dev := { dev with reason := d.reason, fails := d.fails, reasons := d.reasons, log := d.log }
  let pair (p : Pair) : Pair :=
    { spareUsed := p.spareUsed, spareFailed := p.spareFailed,
      cols := p.cols.map fun c => (c.1, { ({} : Column) with absent := c.2.absent, spare := c.2.spare, dead := c.2.dead }) }
  { State.reset with
    agenda := s.agenda, freeCount := s.freeCount,
    pairs := s.pairs.map (fun p => (p.1, pair p.2)),
    clock := if cold then 0 else s.clock, arith := if cold then 0 else s.arith,
    chiplets := if cold then [] else s.chiplets.filter fun c => c.2.dropped,
    dev := if cold then dev else warm }

/-- ROM-only mode, with its reason. -/
def romOnly (s : State) (r : BitVec 8) : State :=
  modDev s fun d => { d with mode := 2, reason := r, reasons := (r :: d.reasons).take 64 }

/-- Steps 5 to 8 of a start with these chiplets. -/
def startParts (s : State) (x : StartIn) (good : List Nat) : State :=
  if s.dev.fails.toNat ≥ 3 then
    let k := good.headD 0
    let s := modDev s fun d => { d with mode := 1, keptChiplet := k, ready := x.ready }
    makePart s 0 k 1
  else
    let s := x.parts.foldl (fun s p =>
      if partSize p.1 p.2 && partFree s (p.1 * p.2) p.1 then makePart s (p.1 * p.2) (p.1 * p.2) p.1
      else s) s
    modDev s fun d => { d with ready := x.ready, self := x.agent,
                               agents := x.agents.foldl (fun t a => tins t a.1 a.2) d.agents }

/-- One start, for a reason; a failed one gives the reason of the next. -/
def startOnce (s : State) (x : StartIn) (r : BitVec 8) : State × Option (BitVec 8) :=
  let s := modDev s fun d => { d with cxl := x.cxl, reason := r, reasons := (r :: d.reasons).take 64, leaf := d.leafEnd,
                                      leafEnd := min (d.leafEnd + 4096) (2 ^ 40), running := d.images }
  if !x.imagePresent then (romOnly s 0x12, none)
  else if !x.sigValid then (romOnly s 0x10, none)
  else if !x.versionOk then (romOnly s 0x11, none)
  else if !x.baseDieOk then (s, some 0x20)
  else if !x.hbmOk then (s, some 0x21)
  else
    let bad := (List.range 8).filter fun c => !x.chipletsOk.getLsbD c
    let s := bad.foldl (fun s c => modChip s c fun _ => { fenced := true, dropped := true }) s
    let good := (List.range 8).filter fun c => !(chipOf s c).dropped
    if good.isEmpty then (romOnly s 0x22, none) else (startParts s x good, none)

/-- The device resets itself warmly after a failed start and starts again; its self-tests find what they found before. -/
def startGo : Nat → State → StartIn → BitVec 8 → State
  | 0, s, _, _ => s
  | n + 1, s, x, r =>
    match startOnce s x r with
    | (s, none) => s
    | (s, some r') =>
      startGo n (afterReset (modDev s fun d => { d with fails := if d.fails = 0xFF then 0xFF else d.fails + 1 }) false) x r'

def startCold (s : State) (x : StartIn) : State := startGo 4 (afterReset s true) x 0x00
def startWarm (s : State) (x : StartIn) (r : BitVec 8) : State := startGo 4 (afterReset s false) x r

def execColdPowerOn (x : StartIn) (s : State) : Host.Outcome State Fault Refusal :=
  eventIf true s fun s => startCold s x

def execWarmReset (x : StartIn) (s : State) : Host.Outcome State Fault Refusal :=
  eventIf true s fun s => startWarm s x 0x01

def execWatchdog (x : StartIn) (s : State) : Host.Outcome State Fault Refusal :=
  eventIf true s fun s => startWarm s x 0x02

/-- 120 s without step 8: a failed start. -/
def execStartTimeout (x : StartIn) (s : State) : Host.Outcome State Fault Refusal :=
  eventIf true s fun s =>
    if s.dev.ready || s.dev.mode = 2 then s
    else startWarm (modDev s fun d => { d with fails := if d.fails = 0xFF then 0xFF else d.fails + 1 }) x 0x40

def execFailsWindowExpire (s : State) : Host.Outcome State Fault Refusal :=
  eventIf true s fun s => modDev s fun d => { d with fails := 0 }

/-- In ROM-only mode an image that passes is written and the device starts afresh; one that fails is refused.  In the
other modes it takes effect at the next start. -/
def execImageUpdate (ok : Bool) (x : StartIn) (s : State) : Host.Outcome State Fault Refusal :=
  eventIf true s fun s =>
    let put (s : State) : State := modDev s fun d => { d with images := d.images + 1 }
    if s.dev.mode ≠ 2 then put s
    else if ok then startWarm (modDev (put s) fun d => { d with fails := 0 }) x 0x03
    else logEvent s 0x419 0

def execSchedulerDoubleFail (x : StartIn) (s : State) : Host.Outcome State Fault Refusal :=
  eventIf true s fun s => if s.dev.schedulers ≤ 1 then startWarm s x 0x30 else s

def execUnsparedBaseDieError (x : StartIn) (s : State) : Host.Outcome State Fault Refusal :=
  eventIf true s fun s => startWarm s x 0x31

/-! A slice whose tags cannot be corrected (R367). -/

/-- A start that finds the device as it is (log 103). -/
def sameStart (s : State) : StartIn :=
  { imagePresent := true, sigValid := true, versionOk := true, baseDieOk := true, hbmOk := true, chipletsOk := 0xFF,
    parts := s.parts.map fun p => (p.2.n, p.1 / p.2.n), agents := s.dev.agents, agent := s.dev.self, ready := true,
    cxl := s.dev.cxl }

/-- A line that cannot be read any more is gone: its dirty sectors are poisoned where it lies, and a glaze that only the
slice had is lost (log 103). -/
def loseWay (s : State) (h key : Nat) (w : Way) : State :=
  let s := modSlice s h fun sl => { sl with ways := tdel sl.ways key }
  if w.held.isSome then s
  else
    let s := poisonDram s w.line (w.dirty &&& w.valid)
    if w.glazeDirty then { s with glaze := tput 0 s.glaze w.line 7 } else s

/-- The spare takes the slice's number; the lines that can still be read are written back, and the partition's contexts
fail.  With no spare left it is an error of the base die (R26, R421). -/
def execSliceTagUncorrectable (slice : Nat) (s : State) : Host.Outcome State Fault Refusal :=
  event (.sliceTagUncorrectable slice) s fun s =>
    let s := (sliceOf s slice).ways.foldl (fun s p =>
      if Config.readable s.freeCount p.2.line then evict s slice p.1 p.2 else loseWay s slice p.1 p.2) s
    let s := { s with freeCount := s.freeCount + 1 }
    let s := logEvent s 0x16 slice
    if s.dev.spareSlices = 0 then startWarm s (sameStart s) 0x31
    else
      let s := modDev s fun d => { d with spareSlices := d.spareSlices - 1 }
      match partOfChiplet s (slice / 32) with
      | some p => irq (losePart s p 2) p 0
      | none => s

end Sys2Proof.Machine
end

