-- ==== Sys2Proof/Machine/Vector.lean ====
section
/-! DEFINITION. Machine/Vector.lean: the vector integer and vector float families (R184-R206). -/

namespace Sys2Proof.Machine

/-- A lane-wise word: a consumed poisoned lane traps POISON, and nothing is written (R185); else its effect. -/
def laneWord (i : Instr) (s : State) (srcs : List (Src × Bool)) (f : Here → Warp) :
    Host.Outcome State Fault Refusal :=
  word i s fun s x =>
    let bad := lanesWhere x.exec fun l => srcs.any fun (a, wide) => lanePoison x.wp wide l a
    if bad ≠ 0 then fault s x .poison bad (poisonSector x.wp) else retire s x (f x)

/-- One 32-bit result per lane from raw 32-bit sources. -/
def vecRaw (i : Instr) (d : BitVec 8) (s : State) (srcs : List Src) (f : Here → (Src → W32) → Nat → W32) :
    Host.Outcome State Fault Refusal :=
  laneWord i s (srcs.map fun a => (a, false)) fun x =>
    writeLanes x.wp d.toNat x.exec fun l => f x (laneRaw x.wp l) l

/-- One result of a type per lane from sources of that type. -/
def vecTy' (i : Instr) (d : BitVec 8) (t : Ty) (s : State) (srcs : List Src) (f : (Src → Nat) → Nat) :
    Host.Outcome State Fault Refusal :=
  laneWord i s (srcs.map fun a => (a, t.is64)) fun x =>
    writeTy x.wp d.toNat x.exec t fun l => f (laneVal x.wp t l)

/-- A word that writes one mask bit per lane (R191). -/
def vecMask (i : Instr) (d : BitVec 8) (s : State) (srcs : List (Src × Bool)) (f : Here → Nat → Bool) :
    Host.Outcome State Fault Refusal :=
  laneWord i s srcs fun x => mset x.wp d.toNat (maskWrite (mget x.wp x.sl d.toNat) x.exec (f x))

/-! Integer (R187-R192). -/

def execVadd (g : Gen) (s : State) : Host.Outcome State Fault Refusal :=
  vecRaw (.vadd g) g.d s [g.a, g.b] fun _ v _ => addTy g.ty g.sat (v g.a) (v g.b)
def execVsub (g : Gen) (s : State) : Host.Outcome State Fault Refusal :=
  vecRaw (.vsub g) g.d s [g.a, g.b] fun _ v _ => subTy g.ty g.sat (v g.a) (v g.b)
def execVmul (g : Gen) (s : State) : Host.Outcome State Fault Refusal :=
  vecRaw (.vmul g) g.d s [g.a, g.b] fun _ v _ =>
    BitVec.ofNat 32 (intPat g.ty g.sat (intOf g.ty (v g.a).toNat * intOf g.ty (v g.b).toNat))
def execVmulhi (g : Gen) (s : State) : Host.Outcome State Fault Refusal :=
  vecRaw (.vmulhi g) g.d s [g.a, g.b] fun _ v _ => mulHi g.ty (v g.a) (v g.b)
def execVmad (g : Gen) (s : State) : Host.Outcome State Fault Refusal :=
  vecRaw (.vmad g) g.d s [g.a, g.b, g.c] fun _ v _ =>
    BitVec.ofNat 32 (intPat g.ty g.sat
      (intOf g.ty (v g.a).toNat * intOf g.ty (v g.b).toNat + intOf g.ty (v g.c).toNat))

/-- VADDC: the mask supplies the carry and receives it (R188). -/
def execVaddc (g : Gen) (s : State) : Host.Outcome State Fault Refusal :=
  laneWord (.vaddc g) s [(g.a, false), (g.b, false)] fun x =>
    let mc := match g.c with | .reg n => n.toNat | _ => 0
    let m := mget x.wp x.sl mc
    let r (l : Nat) := addCarry (g.sub = 1) (laneRaw x.wp l g.a).toNat (laneRaw x.wp l g.b).toNat
      (if m.getLsbD l then 1 else 0)
    mset (writeLanes x.wp g.d.toNat x.exec fun l => BitVec.ofNat 32 (r l).1) mc
      (maskWrite m x.exec fun l => (r l).2)

def execVadd64 (g : Gen) (s : State) : Host.Outcome State Fault Refusal :=
  vecTy' (.vadd64 g) g.d g.ty s [g.a, g.b] fun v => intPat g.ty g.sat (intOf g.ty (v g.a) + intOf g.ty (v g.b))
def execVmin (g : Gen) (s : State) : Host.Outcome State Fault Refusal :=
  vecRaw (.vmin g) g.d s [g.a, g.b] fun _ v _ => minTy g.ty (v g.a) (v g.b)
def execVmax (g : Gen) (s : State) : Host.Outcome State Fault Refusal :=
  vecRaw (.vmax g) g.d s [g.a, g.b] fun _ v _ => maxTy g.ty (v g.a) (v g.b)
def execVabs (g : Gen) (s : State) : Host.Outcome State Fault Refusal :=
  vecRaw (.vabs g) g.d s [g.a] fun _ v _ =>
    BitVec.ofNat 32 (intPat g.ty g.sat ((intOf .i32 (v g.a).toNat).natAbs : Int))
def execVand (g : Gen) (s : State) : Host.Outcome State Fault Refusal :=
  vecRaw (.vand g) g.d s [g.a, g.b] fun _ v _ => v g.a &&& v g.b
def execVor (g : Gen) (s : State) : Host.Outcome State Fault Refusal :=
  vecRaw (.vor g) g.d s [g.a, g.b] fun _ v _ => v g.a ||| v g.b
def execVxor (g : Gen) (s : State) : Host.Outcome State Fault Refusal :=
  vecRaw (.vxor g) g.d s [g.a, g.b] fun _ v _ => v g.a ^^^ v g.b
def execVnot (g : Gen) (s : State) : Host.Outcome State Fault Refusal :=
  vecRaw (.vnot g) g.d s [g.a] fun _ v _ => ~~~ v g.a
def execVshl (g : Gen) (s : State) : Host.Outcome State Fault Refusal :=
  vecRaw (.vshl g) g.d s [g.a, g.b] fun _ v _ => shl32 (v g.a) (v g.b)
def execVshr (g : Gen) (s : State) : Host.Outcome State Fault Refusal :=
  vecRaw (.vshr g) g.d s [g.a, g.b] fun _ v _ => shr32 (v g.a) (v g.b)
def execVsar (g : Gen) (s : State) : Host.Outcome State Fault Refusal :=
  vecRaw (.vsar g) g.d s [g.a, g.b] fun _ v _ => sar32 (v g.a) (v g.b)
def execVbfe (g : Gen) (s : State) : Host.Outcome State Fault Refusal :=
  vecRaw (.vbfe g) g.d s [g.a, g.b, g.c] fun _ v _ => bfe (g.ty == .i32) (v g.a) (v g.b) (v g.c)

/-- Field insertion (R189). -/
def bfi (a b c : W32) : W32 :=
  let off := c.toNat % 32
  let w := min (c.toNat / 256 % 64) 32
  let k := BitVec.ofNat 32 ((2 ^ w - 1) * 2 ^ off)
  (b &&& ~~~ k) ||| ((a <<< off) &&& k)

def execVbfi (g : Gen) (s : State) : Host.Outcome State Fault Refusal :=
  vecRaw (.vbfi g) g.d s [g.a, g.b, g.c] fun _ v _ => bfi (v g.a) (v g.b) (v g.c)
def execVpopc (g : Gen) (s : State) : Host.Outcome State Fault Refusal :=
  vecRaw (.vpopc g) g.d s [g.a] fun _ v _ => popc32 (v g.a)
def execVclz (g : Gen) (s : State) : Host.Outcome State Fault Refusal :=
  vecRaw (.vclz g) g.d s [g.a] fun _ v _ => BitVec.ofNat 32 (clz32 (v g.a))
def execVbrev (g : Gen) (s : State) : Host.Outcome State Fault Refusal :=
  vecRaw (.vbrev g) g.d s [g.a] fun _ v _ => ofBits 32 fun i => (v g.a).getLsbD (31 - i)

/-- Byte selection from b:a (R190). -/
def perm (a b c : W32) : W32 :=
  let all : W64 := b ++ a
  let byte (i : Nat) : Nat :=
    let n := c.toNat / 16 ^ i % 16
    let x := (byteOf all (n % 8)).toNat
    if n < 8 then x else if x ≥ 128 then 0xFF else 0
  BitVec.ofNat 32 (byte 0 + byte 1 * 256 + byte 2 * 65536 + byte 3 * 2 ^ 24)

def execVperm (g : Gen) (s : State) : Host.Outcome State Fault Refusal :=
  vecRaw (.vperm g) g.d s [g.a, g.b, g.c] fun _ v _ => perm (v g.a) (v g.b) (v g.c)
def execVcmp (g : Gen) (s : State) : Host.Outcome State Fault Refusal :=
  vecMask (.vcmp g) g.d s [(g.a, false), (g.b, false)] fun x l =>
    condTy g.ty g.sub.toNat (laneRaw x.wp l g.a).toNat (laneRaw x.wp l g.b).toNat
def execVsel (g : Gen) (s : State) : Host.Outcome State Fault Refusal :=
  vecRaw (.vsel g) g.d s [g.a, g.b] fun x v l =>
    if (mskVal x.wp x.sl g.c).getLsbD l then v g.a else v g.b
def execVmov (g : Gen) (s : State) : Host.Outcome State Fault Refusal :=
  vecRaw (.vmov g) g.d s [g.a] fun _ v _ => v g.a
def execVmovi (m : Imm) (s : State) : Host.Outcome State Fault Refusal :=
  vecRaw (.vmovi m) m.d s [] fun _ _ _ => m.imm

/-- Packed elements of a lane word, element 0 in the low bits. -/
def packLane (n bits' : Nat) (f : Nat → Nat) : W32 :=
  BitVec.ofNat 32 ((List.range n).foldl (fun a i => a + f i % 2 ^ bits' * 2 ^ (bits' * i)) 0)

def execVsadd (g : Gen) (s : State) : Host.Outcome State Fault Refusal :=
  laneWord (.vsadd g) s [(g.a, false), (g.b, false)] fun x =>
    let b := tyBits g.ty
    writeLanes x.wp g.d.toNat x.exec fun l =>
      packLane (32 / b) b fun i =>
        let u := intOf g.ty (lanePacked x.wp g.ty l i g.a)
        let v := intOf g.ty (lanePacked x.wp g.ty l i g.b)
        intPat g.ty true (if g.sub = 1 then u - v else u + v)

/-! Floating point (R193-R202). -/

def execVfadd (g : Gen) (s : State) : Host.Outcome State Fault Refusal :=
  vecTy' (.vfadd g) g.d g.ty s [g.a, g.b] fun v => fAdd (Fmt.of g.ty) g.rnd (v g.a) (v g.b)
def execVfsub (g : Gen) (s : State) : Host.Outcome State Fault Refusal :=
  vecTy' (.vfsub g) g.d g.ty s [g.a, g.b] fun v => fSub (Fmt.of g.ty) g.rnd (v g.a) (v g.b)
def execVfmul (g : Gen) (s : State) : Host.Outcome State Fault Refusal :=
  vecTy' (.vfmul g) g.d g.ty s [g.a, g.b] fun v => fMul (Fmt.of g.ty) g.rnd (v g.a) (v g.b)
def execVfma (g : Gen) (s : State) : Host.Outcome State Fault Refusal :=
  vecTy' (.vfma g) g.d g.ty s [g.a, g.b, g.c] fun v => fFma (Fmt.of g.ty) g.rnd (v g.a) (v g.b) (v g.c)
def execVfmin (g : Gen) (s : State) : Host.Outcome State Fault Refusal :=
  vecTy' (.vfmin g) g.d g.ty s [g.a, g.b] fun v => fMin (Fmt.of g.ty) (v g.a) (v g.b)
def execVfmax (g : Gen) (s : State) : Host.Outcome State Fault Refusal :=
  vecTy' (.vfmax g) g.d g.ty s [g.a, g.b] fun v => fMax (Fmt.of g.ty) (v g.a) (v g.b)
def execVfcmp (g : Gen) (s : State) : Host.Outcome State Fault Refusal :=
  vecMask (.vfcmp g) g.d s [(g.a, g.ty.is64), (g.b, g.ty.is64)] fun x l =>
    condFloat (Fmt.of g.ty) g.sub.toNat (laneVal x.wp g.ty l g.a) (laneVal x.wp g.ty l g.b)
def execVfclass (g : Gen) (s : State) : Host.Outcome State Fault Refusal :=
  laneWord (.vfclass g) s [(g.a, g.ty.is64)] fun x =>
    writeLanes x.wp g.d.toNat x.exec fun l =>
      BitVec.ofNat 32 (2 ^ fclass (Fmt.of g.ty) (laneVal x.wp g.ty l g.a))
def execVfrnd (g : Gen) (s : State) : Host.Outcome State Fault Refusal :=
  vecTy' (.vfrnd g) g.d g.ty s [g.a] fun v => fRnd (Fmt.of g.ty) g.rnd (v g.a)
def execVfdiv (g : Gen) (s : State) : Host.Outcome State Fault Refusal :=
  vecTy' (.vfdiv g) g.d g.ty s [g.a, g.b] fun v => fDiv f32 g.rnd (v g.a) (v g.b)
def execVsfu (g : Gen) (s : State) : Host.Outcome State Fault Refusal :=
  vecTy' (.vsfu g) g.d g.ty s [g.a] fun v => (sfu g.sub.toNat g.rnd (BitVec.ofNat 32 (v g.a))).toNat
def execVcvt (g : Gen) (s : State) : Host.Outcome State Fault Refusal :=
  let src := (Ty.ofCode g.sub.toNat).getD .b32
  laneWord (.vcvt g) s [(g.a, src.is64)] fun x =>
    writeTy x.wp g.d.toNat x.exec g.ty fun l => convert g.ty src g.rnd g.sat (laneVal x.wp src l g.a)

/-! Expressions (R203-R206). -/

/-- One token on a stack of FP32 patterns, top first (R204). -/
def exprStep (src : Nat → Nat) (op : Nat) (r : Rnd) (st : List Nat) : List Nat :=
  match op, st with
  | 1, st => src 1 :: st
  | 2, st => src 2 :: st
  | 3, st => src 3 :: st
  | 4, st => 0 :: st
  | 5, st => 0x3F800000 :: st
  | 6, x :: st => x :: x :: st
  | 7, y :: x :: st => x :: y :: st
  | 8, x :: st => (if (unpack f32 x).isNan then f32.qnan else Nat.xor x (2 ^ 31)) :: st
  | 9, x :: st => (if (unpack f32 x).isNan then f32.qnan else x % 2 ^ 31) :: st
  | 10, y :: x :: st => fAdd f32 r x y :: st
  | 11, y :: x :: st => fSub f32 r x y :: st
  | 12, y :: x :: st => fMul f32 r x y :: st
  | 13, z :: y :: x :: st => fFma f32 r x y z :: st
  | 14, y :: x :: st => fMin f32 x y :: st
  | 15, y :: x :: st => fMax f32 x y :: st
  | 16, x :: st => (if (unpack f32 x).isNan then f32.qnan else fMax f32 (fMin f32 x 0x3F800000) 0) :: st
  | _, st => st

/-- Run the tokens up to the first END (R203). -/
def exprRun (src : Nat → Nat) : List (Nat × Nat) → List Nat → List Nat
  | [], st => st
  | (0, _) :: _, st => st
  | (op, r) :: t, st => exprRun src t (exprStep src op (Rnd.ofBits (BitVec.ofNat 2 r)) st)

def execVexpr (g : Gen) (e : ExprExt) (s : State) : Host.Outcome State Fault Refusal :=
  let used (c : Nat) (a : Src) : List (Src × Bool) := if e.tokens.any (·.1 == c) then [(a, false)] else []
  laneWord (.vexpr g e) s (used 1 g.a ++ used 2 g.b ++ used 3 g.c) fun x =>
    writeLanes x.wp g.d.toNat x.exec fun l =>
      let src (c : Nat) : Nat := laneVal x.wp .f32 l (if c = 1 then g.a else if c = 2 then g.b else g.c)
      let v := (exprRun src e.tokens []).headD 0
      BitVec.ofNat 32 (if (unpack f32 v).isNan then f32.qnan else v)

/-! Packed halves and FP64 (R199, R200). -/

/-- A packed two-element word. -/
def halfWord (i : Instr) (g : Gen) (s : State) (srcs : List Src) (f : (Src → Nat) → Nat) :
    Host.Outcome State Fault Refusal :=
  laneWord i s (srcs.map fun a => (a, false)) fun x =>
    writeLanes x.wp g.d.toNat x.exec fun l => packLane 2 16 fun k => f (lanePacked x.wp g.ty l k)

def execVh2add (g : Gen) (s : State) : Host.Outcome State Fault Refusal :=
  halfWord (.vh2add g) g s [g.a, g.b] fun v => fAdd (Fmt.of g.ty) g.rnd (v g.a) (v g.b)
def execVh2mul (g : Gen) (s : State) : Host.Outcome State Fault Refusal :=
  halfWord (.vh2mul g) g s [g.a, g.b] fun v => fMul (Fmt.of g.ty) g.rnd (v g.a) (v g.b)
def execVh2fma (g : Gen) (s : State) : Host.Outcome State Fault Refusal :=
  halfWord (.vh2fma g) g s [g.a, g.b, g.c] fun v => fFma (Fmt.of g.ty) g.rnd (v g.a) (v g.b) (v g.c)

/-- Two exact products and c, rounded once (R199). -/
def dot2 (f : Fmt) (r : Rnd) (a0 a1 b0 b1 c : Nat) : Nat :=
  packV f32 r (sumV r [mulV (unpack f a0) (unpack f b0), mulV (unpack f a1) (unpack f b1), unpack f32 c])

def execVdot2 (g : Gen) (s : State) : Host.Outcome State Fault Refusal :=
  laneWord (.vdot2 g) s [(g.a, false), (g.b, false), (g.c, false)] fun x =>
    writeLanes x.wp g.d.toNat x.exec fun l =>
      let v (k : Nat) (a : Src) := lanePacked x.wp g.ty l k a
      BitVec.ofNat 32 (dot2 (Fmt.of g.ty) g.rnd (v 0 g.a) (v 1 g.a) (v 0 g.b) (v 1 g.b) (laneVal x.wp .f32 l g.c))

def execVdadd (g : Gen) (s : State) : Host.Outcome State Fault Refusal :=
  vecTy' (.vdadd g) g.d .f64 s [g.a, g.b] fun v => fAdd f64 g.rnd (v g.a) (v g.b)
def execVdmul (g : Gen) (s : State) : Host.Outcome State Fault Refusal :=
  vecTy' (.vdmul g) g.d .f64 s [g.a, g.b] fun v => fMul f64 g.rnd (v g.a) (v g.b)
def execVdfma (g : Gen) (s : State) : Host.Outcome State Fault Refusal :=
  vecTy' (.vdfma g) g.d .f64 s [g.a, g.b, g.c] fun v => fFma f64 g.rnd (v g.a) (v g.b) (v g.c)

end Sys2Proof.Machine
end

