-- ==== Sys2Proof/Machine/Wake.lean ====
section
/-! DEFINITION. Machine/Wake.lean: what ends a path's wait, and the choice of the active set (R145, R146, R165, R169,
R230). -/

namespace Sys2Proof.Machine

/-- The path's wait and whether its core runs. -/
def waitingAt (s : State) (core w : Nat) (sl : Slot) : Option Wait :=
  let co := coreOf s core
  if co.ctx.isSome && !co.stopped then (tget co.warps w).map fun x => (pathOf x sl).wait else none

/-- A sleeping path goes on once CLOCK has reached its deadline (R169). -/
def execSleepDeadline (core warp : Nat) (slot : Slot) (s : State) : Host.Outcome State Fault Refusal :=
  event (.sleepDeadline core warp slot) s fun s =>
    match waitingAt s core warp slot with
    | some (.sleep d) =>
      if s.clock ≥ d then modWarp s core warp fun x => retireW x slot (unitAt (pathOf x slot)) else s
    | _ => s

/-- The home tests a watched word again (R230). -/
def execMwaitRetest (core warp : Nat) (slot : Slot) (s : State) : Host.Outcome State Fault Refusal :=
  event (.mwaitRetest core warp slot) s fun s =>
    match waitingAt s core warp slot with
    | some (.mwait _) => mwaitTest s core warp slot
    | _ => s

/-- The deadline of an MWAIT: the test made then ends it (R230). -/
def execMwaitTimeout (core warp : Nat) (slot : Slot) (s : State) : Host.Outcome State Fault Refusal :=
  event (.mwaitTimeout core warp slot) s fun s =>
    match waitingAt s core warp slot with
    | some (.mwait d) => if s.clock ≥ d then mwaitTest s core warp slot else s
    | _ => s

def execReggrowGrant (core : Nat) (s : State) : Host.Outcome State Fault Refusal :=
  event (.reggrowGrant core) s fun s => if (coreOf s core).stopped then s else grantOne s core

/-- A warp that has stalled on the scoreboard between clauses for more than 32 arithmetic cycles leaves the active set
(R146). -/
def execActiveSetEvict (core warp : Nat) (s : State) : Host.Outcome State Fault Refusal :=
  event (.activeSetEvict core warp) s fun s =>
    modWarp s core warp fun x => if mustLeave s core warp x then { x with active := false } else x

/-- Of the ready active warps of a pipe passed over 64 times, the oldest (R145). -/
def overdue (s : State) (core pipe : Nat) : Option Nat :=
  oldestOf ((coreOf s core).warps.filter fun (v, x) =>
    x.pipe == pipe && x.active && x.passed ≥ 64 && warpReady s core v x)

/-- It issues next. -/
def execPassedOverLimit (core warp : Nat) (s : State) : Host.Outcome State Fault Refusal :=
  event (.passedOverLimit core warp) s fun s =>
    let co := coreOf s core
    match tget co.warps warp with
    | none => s
    | some x =>
      if overdue s core x.pipe == some warp then
        (match [Slot.a, Slot.b].find? fun sl => mayIssue s core warp sl with
         | some sl => { s with agenda := .issue core warp sl :: s.agenda }
         | none => s)
      else s

end Sys2Proof.Machine
end

