-- ==== Sys2Proof/Machine/Dispatch.lean ====
section
/-! DEFINITION. Machine/Dispatch.lean: one arm per constructor of Instr. -/

namespace Sys2Proof.Machine

def exec (i : Instr) (s : State) : Host.Outcome State Fault Refusal :=
  match i with
  | .sadd g => Sys2Proof.Machine.execSadd g s
  | .ssub g => Sys2Proof.Machine.execSsub g s
  | .smul g => Sys2Proof.Machine.execSmul g s
  | .smulhi g => Sys2Proof.Machine.execSmulhi g s
  | .smin g => Sys2Proof.Machine.execSmin g s
  | .smax g => Sys2Proof.Machine.execSmax g s
  | .sand g => Sys2Proof.Machine.execSand g s
  | .sor g => Sys2Proof.Machine.execSor g s
  | .sxor g => Sys2Proof.Machine.execSxor g s
  | .snot g => Sys2Proof.Machine.execSnot g s
  | .sshl g => Sys2Proof.Machine.execSshl g s
  | .sshr g => Sys2Proof.Machine.execSshr g s
  | .ssar g => Sys2Proof.Machine.execSsar g s
  | .sbfe g => Sys2Proof.Machine.execSbfe g s
  | .spopc g => Sys2Proof.Machine.execSpopc g s
  | .sclz g => Sys2Proof.Machine.execSclz g s
  | .scmp g => Sys2Proof.Machine.execScmp g s
  | .ssel g => Sys2Proof.Machine.execSsel g s
  | .smov g => Sys2Proof.Machine.execSmov g s
  | .smovi m => Sys2Proof.Machine.execSmovi m s
  | .sadd64 g => Sys2Proof.Machine.execSadd64 g s
  | .sldk m => Sys2Proof.Machine.execSldk m s
  | .mset g => Sys2Proof.Machine.execMset g s
  | .mget g => Sys2Proof.Machine.execMget g s
  | .mand g => Sys2Proof.Machine.execMand g s
  | .mor g => Sys2Proof.Machine.execMor g s
  | .mxor g => Sys2Proof.Machine.execMxor g s
  | .mandn g => Sys2Proof.Machine.execMandn g s
  | .mpop g => Sys2Proof.Machine.execMpop g s
  | .mfind g => Sys2Proof.Machine.execMfind g s
  | .bra b => Sys2Proof.Machine.execBra b s
  | .brc b => Sys2Proof.Machine.execBrc b s
  | .brd b => Sys2Proof.Machine.execBrd b s
  | .reconv g => Sys2Proof.Machine.execReconv g s
  | .jmpi g => Sys2Proof.Machine.execJmpi g s
  | .call b => Sys2Proof.Machine.execCall b s
  | .ret g => Sys2Proof.Machine.execRet g s
  | .exit g => Sys2Proof.Machine.execExit g s
  | .spawn g => Sys2Proof.Machine.execSpawn g s
  | .yield g => Sys2Proof.Machine.execYield g s
  | .nop g => Sys2Proof.Machine.execNop g s
  | .waitcnt g => Sys2Proof.Machine.execWaitcnt g s
  | .sleep g => Sys2Proof.Machine.execSleep g s
  | .trap g => Sys2Proof.Machine.execTrap g s
  | .tret g => Sys2Proof.Machine.execTret g s
  | .sigchk m => Sys2Proof.Machine.execSigchk m s
  | .sigrst g => Sys2Proof.Machine.execSigrst g s
  | .sread g => Sys2Proof.Machine.execSread g s
  | .swrite g => Sys2Proof.Machine.execSwrite g s
  | .reggrow g => Sys2Proof.Machine.execReggrow g s
  | .regshrink g => Sys2Proof.Machine.execRegshrink g s
  | .vadd g => Sys2Proof.Machine.execVadd g s
  | .vsub g => Sys2Proof.Machine.execVsub g s
  | .vmul g => Sys2Proof.Machine.execVmul g s
  | .vmulhi g => Sys2Proof.Machine.execVmulhi g s
  | .vmad g => Sys2Proof.Machine.execVmad g s
  | .vaddc g => Sys2Proof.Machine.execVaddc g s
  | .vadd64 g => Sys2Proof.Machine.execVadd64 g s
  | .vmin g => Sys2Proof.Machine.execVmin g s
  | .vmax g => Sys2Proof.Machine.execVmax g s
  | .vabs g => Sys2Proof.Machine.execVabs g s
  | .vand g => Sys2Proof.Machine.execVand g s
  | .vor g => Sys2Proof.Machine.execVor g s
  | .vxor g => Sys2Proof.Machine.execVxor g s
  | .vnot g => Sys2Proof.Machine.execVnot g s
  | .vshl g => Sys2Proof.Machine.execVshl g s
  | .vshr g => Sys2Proof.Machine.execVshr g s
  | .vsar g => Sys2Proof.Machine.execVsar g s
  | .vbfe g => Sys2Proof.Machine.execVbfe g s
  | .vbfi g => Sys2Proof.Machine.execVbfi g s
  | .vpopc g => Sys2Proof.Machine.execVpopc g s
  | .vclz g => Sys2Proof.Machine.execVclz g s
  | .vbrev g => Sys2Proof.Machine.execVbrev g s
  | .vperm g => Sys2Proof.Machine.execVperm g s
  | .vcmp g => Sys2Proof.Machine.execVcmp g s
  | .vsel g => Sys2Proof.Machine.execVsel g s
  | .vmov g => Sys2Proof.Machine.execVmov g s
  | .vmovi m => Sys2Proof.Machine.execVmovi m s
  | .vsadd g => Sys2Proof.Machine.execVsadd g s
  | .vfadd g => Sys2Proof.Machine.execVfadd g s
  | .vfsub g => Sys2Proof.Machine.execVfsub g s
  | .vfmul g => Sys2Proof.Machine.execVfmul g s
  | .vfma g => Sys2Proof.Machine.execVfma g s
  | .vfmin g => Sys2Proof.Machine.execVfmin g s
  | .vfmax g => Sys2Proof.Machine.execVfmax g s
  | .vfcmp g => Sys2Proof.Machine.execVfcmp g s
  | .vfclass g => Sys2Proof.Machine.execVfclass g s
  | .vfrnd g => Sys2Proof.Machine.execVfrnd g s
  | .vfdiv g => Sys2Proof.Machine.execVfdiv g s
  | .vsfu g => Sys2Proof.Machine.execVsfu g s
  | .vcvt g => Sys2Proof.Machine.execVcvt g s
  | .vexpr g x => Sys2Proof.Machine.execVexpr g x s
  | .vh2add g => Sys2Proof.Machine.execVh2add g s
  | .vh2mul g => Sys2Proof.Machine.execVh2mul g s
  | .vh2fma g => Sys2Proof.Machine.execVh2fma g s
  | .vdot2 g => Sys2Proof.Machine.execVdot2 g s
  | .vdadd g => Sys2Proof.Machine.execVdadd g s
  | .vdmul g => Sys2Proof.Machine.execVdmul g s
  | .vdfma g => Sys2Proof.Machine.execVdfma g s
  | .vote g => Sys2Proof.Machine.execVote g s
  | .shfl g => Sys2Proof.Machine.execShfl g s
  | .vred g => Sys2Proof.Machine.execVred g s
  | .vscan g => Sys2Proof.Machine.execVscan g s
  | .matchl g => Sys2Proof.Machine.execMatchl g s
  | .v2s g => Sys2Proof.Machine.execV2s g s
  | .s2v g => Sys2Proof.Machine.execS2v g s
  | .vcompact g => Sys2Proof.Machine.execVcompact g s
  | .vld m => Sys2Proof.Machine.execVld m s
  | .vst m => Sys2Proof.Machine.execVst m s
  | .vldx m => Sys2Proof.Machine.execVldx m s
  | .vstx m => Sys2Proof.Machine.execVstx m s
  | .sld m => Sys2Proof.Machine.execSld m s
  | .sst m => Sys2Proof.Machine.execSst m s
  | .atom m x => Sys2Proof.Machine.execAtom m x s
  | .atomcas m x => Sys2Proof.Machine.execAtomcas m x s
  | .mwait m x => Sys2Proof.Machine.execMwait m x s
  | .fence m => Sys2Proof.Machine.execFence m s
  | .acq m => Sys2Proof.Machine.execAcq m s
  | .rel m => Sys2Proof.Machine.execRel m s
  | .bind m => Sys2Proof.Machine.execBind m s
  | .bindt m => Sys2Proof.Machine.execBindt m s
  | .unbind m => Sys2Proof.Machine.execUnbind m s
  | .cinv m => Sys2Proof.Machine.execCinv m s
  | .cwb m => Sys2Proof.Machine.execCwb m s
  | .cpref m => Sys2Proof.Machine.execCpref m s
  | .alloc m => Sys2Proof.Machine.execAlloc m s
  | .free m => Sys2Proof.Machine.execFree m s
  | .crnew w => Sys2Proof.Machine.execCrnew w s
  | .crjoin w => Sys2Proof.Machine.execCrjoin w s
  | .crleave w => Sys2Proof.Machine.execCrleave w s
  | .crsync w => Sys2Proof.Machine.execCrsync w s
  | .crarrive w => Sys2Proof.Machine.execCrarrive w s
  | .crwait w => Sys2Proof.Machine.execCrwait w s
  | .crquery w => Sys2Proof.Machine.execCrquery w s
  | .crmap w => Sys2Proof.Machine.execCrmap w s
  | .bcopy w => Sys2Proof.Machine.execBcopy w s
  | .bcopyc w => Sys2Proof.Machine.execBcopyc w s
  | .bseal w => Sys2Proof.Machine.execBseal w s
  | .bwait w => Sys2Proof.Machine.execBwait w s
  | .bquery w => Sys2Proof.Machine.execBquery w s
  | .bcancel w => Sys2Proof.Machine.execBcancel w s
  | .tclaim w => Sys2Proof.Machine.execTclaim w s
  | .trel w => Sys2Proof.Machine.execTrel w s
  | .tload w => Sys2Proof.Machine.execTload w s
  | .tloads w => Sys2Proof.Machine.execTloads w s
  | .mma w => Sys2Proof.Machine.execMma w s
  | .mmasp w => Sys2Proof.Machine.execMmasp w s
  | .mloop w => Sys2Proof.Machine.execMloop w s
  | .mdist w => Sys2Proof.Machine.execMdist w s
  | .mtopk w => Sys2Proof.Machine.execMtopk w s
  | .czero w => Sys2Proof.Machine.execCzero w s
  | .cload w => Sys2Proof.Machine.execCload w s
  | .cstore w => Sys2Proof.Machine.execCstore w s
  | .cpop w => Sys2Proof.Machine.execCpop w s
  | .msync w => Sys2Proof.Machine.execMsync w s
  | .qpush w => Sys2Proof.Machine.execQpush w s
  | .qpop w => Sys2Proof.Machine.execQpop w s
  | .qpeek w => Sys2Proof.Machine.execQpeek w s
  | .qcount w => Sys2Proof.Machine.execQcount w s
  | .brk g => Sys2Proof.Machine.execBrk g s
  | .pmread g => Sys2Proof.Machine.execPmread g s
  | .qpost g => Sys2Proof.Machine.execQpost g s
  | .clauseFetch => Sys2Proof.Machine.execClauseFetch s
  | .crossLaneRelease core warp slot => Sys2Proof.Machine.execCrossLaneRelease core warp slot s
  | .sleepDeadline core warp slot => Sys2Proof.Machine.execSleepDeadline core warp slot s
  | .mwaitRetest core warp slot => Sys2Proof.Machine.execMwaitRetest core warp slot s
  | .mwaitTimeout core warp slot => Sys2Proof.Machine.execMwaitTimeout core warp slot s
  | .reggrowGrant core => Sys2Proof.Machine.execReggrowGrant core s
  | .activeSetEvict core warp => Sys2Proof.Machine.execActiveSetEvict core warp s
  | .passedOverLimit core warp => Sys2Proof.Machine.execPassedOverLimit core warp s
  | .contextSave core reason => Sys2Proof.Machine.execContextSave core reason s
  | .contextRestore core index => Sys2Proof.Machine.execContextRestore core index s
  | .priorityPreempt core part queue => Sys2Proof.Machine.execPriorityPreempt core part queue s
  | .barrierMessage chiplet => Sys2Proof.Machine.execBarrierMessage chiplet s
  | .barrierRelease core => Sys2Proof.Machine.execBarrierRelease core s
  | .crewRecordError handle => Sys2Proof.Machine.execCrewRecordError handle s
  | .copyStart engine => Sys2Proof.Machine.execCopyStart engine s
  | .copyComplete copy => Sys2Proof.Machine.execCopyComplete copy s
  | .copyEngineFail engine => Sys2Proof.Machine.execCopyEngineFail engine s
  | .enginePerform core => Sys2Proof.Machine.execEnginePerform core s
  | .transitPlace core => Sys2Proof.Machine.execTransitPlace core s
  | .vbusCheckFail column => Sys2Proof.Machine.execVbusCheckFail column s
  | .laneRepair column => Sys2Proof.Machine.execLaneRepair column s
  | .busThaw column => Sys2Proof.Machine.execBusThaw column s
  | .busFail column => Sys2Proof.Machine.execBusFail column s
  | .gateRequest pair => Sys2Proof.Machine.execGateRequest pair s
  | .gatePowerOn pair => Sys2Proof.Machine.execGatePowerOn pair s
  | .migrate pair position => Sys2Proof.Machine.execMigrate pair position s
  | .migrationDrainTimeout pair position => Sys2Proof.Machine.execMigrationDrainTimeout pair position s
  | .columnRemap pair position => Sys2Proof.Machine.execColumnRemap pair position s
  | .storecfgWrite core l1ways => Sys2Proof.Machine.execStorecfgWrite core l1ways s
  | .registerWrite page offset value => Sys2Proof.Machine.execRegisterWrite page offset value s
  | .rds agent line => Sys2Proof.Machine.execRds agent line s
  | .rdx agent line => Sys2Proof.Machine.execRdx agent line s
  | .upg agent line => Sys2Proof.Machine.execUpg agent line s
  | .wbd agent line data => Sys2Proof.Machine.execWbd agent line data s
  | .wbc agent line => Sys2Proof.Machine.execWbc agent line s
  | .rdu agent line => Sys2Proof.Machine.execRdu agent line s
  | .wru agent line data mask => Sys2Proof.Machine.execWru agent line data mask s
  | .lr port line => Sys2Proof.Machine.execLr port line s
  | .lw port line => Sys2Proof.Machine.execLw port line s
  | .dramFetchDone slice line => Sys2Proof.Machine.execDramFetchDone slice line s
  | .rspi agent line => Sys2Proof.Machine.execRspi agent line s
  | .rsps agent line data => Sys2Proof.Machine.execRsps agent line data s
  | .rspod agent line data => Sys2Proof.Machine.execRspod agent line data s
  | .rspid agent line data => Sys2Proof.Machine.execRspid agent line data s
  | .snps line => Sys2Proof.Machine.execSnps line s
  | .snpi line => Sys2Proof.Machine.execSnpi line s
  | .datas line data => Sys2Proof.Machine.execDatas line data s
  | .datae line data => Sys2Proof.Machine.execDatae line data s
  | .datam line data => Sys2Proof.Machine.execDatam line data s
  | .gntm line => Sys2Proof.Machine.execGntm line s
  | .wback line => Sys2Proof.Machine.execWback line s
  | .datau line data => Sys2Proof.Machine.execDatau line data s
  | .nocache line => Sys2Proof.Machine.execNocache line s
  | .err line => Sys2Proof.Machine.execErr line s
  | .sliceGate slice => Sys2Proof.Machine.execSliceGate slice s
  | .sliceWake slice => Sys2Proof.Machine.execSliceWake slice s
  | .dramCorrectable channel position => Sys2Proof.Machine.execDramCorrectable channel position s
  | .dramUncorrectable line sectors => Sys2Proof.Machine.execDramUncorrectable line sectors s
  | .patrolScrub line bad => Sys2Proof.Machine.execPatrolScrub line bad s
  | .glazeLost line => Sys2Proof.Machine.execGlazeLost line s
  | .sliceCorrectable slice line => Sys2Proof.Machine.execSliceCorrectable slice line s
  | .sliceDataUncorrectable slice line sectors => Sys2Proof.Machine.execSliceDataUncorrectable slice line sectors s
  | .sliceTagUncorrectable slice => Sys2Proof.Machine.execSliceTagUncorrectable slice s
  | .snoopTimeout agent line => Sys2Proof.Machine.execSnoopTimeout agent line s
  | .queueEnable part queue => Sys2Proof.Machine.execQueueEnable part queue s
  | .queueDisable part queue => Sys2Proof.Machine.execQueueDisable part queue s
  | .queueClearFault part queue => Sys2Proof.Machine.execQueueClearFault part queue s
  | .drvrespReplay part ctxid core warp => Sys2Proof.Machine.execDrvrespReplay part ctxid core warp s
  | .drvrespResume part ctxid core warp => Sys2Proof.Machine.execDrvrespResume part ctxid core warp s
  | .drvrespFail part ctxid core warp => Sys2Proof.Machine.execDrvrespFail part ctxid core warp s
  | .tlbinv part ctxid => Sys2Proof.Machine.execTlbinv part ctxid s
  | .tlbinvDone part => Sys2Proof.Machine.execTlbinvDone part s
  | .slotAccept part queue => Sys2Proof.Machine.execSlotAccept part queue s
  | .launch part queue index => Sys2Proof.Machine.execLaunch part queue index s
  | .link part queue index => Sys2Proof.Machine.execLink part queue index s
  | .proofed part queue index => Sys2Proof.Machine.execProofed part queue index s
  | .copy part queue index => Sys2Proof.Machine.execCopy part queue index s
  | .signal part queue index => Sys2Proof.Machine.execSignal part queue index s
  | .wait part queue index => Sys2Proof.Machine.execWait part queue index s
  | .marker part queue index => Sys2Proof.Machine.execMarker part queue index s
  | .nopCmd part queue index => Sys2Proof.Machine.execNopCmd part queue index s
  | .waitMet part queue index => Sys2Proof.Machine.execWaitMet part queue index s
  | .waitTimeout part queue index => Sys2Proof.Machine.execWaitTimeout part queue index s
  | .priorityAge part queue => Sys2Proof.Machine.execPriorityAge part queue s
  | .schedulerTakeover => Sys2Proof.Machine.execSchedulerTakeover s
  | .blockSend launch site leaf => Sys2Proof.Machine.execBlockSend launch site leaf s
  | .steal launch site => Sys2Proof.Machine.execSteal launch site s
  | .blockPlace leaf => Sys2Proof.Machine.execBlockPlace leaf s
  | .leafTakeover leaf => Sys2Proof.Machine.execLeafTakeover leaf s
  | .shapeResolve launch => Sys2Proof.Machine.execShapeResolve launch s
  | .shapeTimeout launch => Sys2Proof.Machine.execShapeTimeout launch s
  | .chipletFence chiplet => Sys2Proof.Machine.execChipletFence chiplet s
  | .chipletReset chiplet => Sys2Proof.Machine.execChipletReset chiplet s
  | .saveDeadline core => Sys2Proof.Machine.execSaveDeadline core s
  | .chipletDrop chiplet => Sys2Proof.Machine.execChipletDrop chiplet s
  | .clockChange mhz => Sys2Proof.Machine.execClockChange mhz s
  | .partCreate by_ n k => Sys2Proof.Machine.execPartCreate by_ n k s
  | .partDestroy by_ part => Sys2Proof.Machine.execPartDestroy by_ part s
  | .agentAssign by_ agent part => Sys2Proof.Machine.execAgentAssign by_ agent part s
  | .winSet by_ window regs => Sys2Proof.Machine.execWinSet by_ window regs s
  | .winSeal by_ window state => Sys2Proof.Machine.execWinSeal by_ window state s
  | .keyBind by_ part slot wrapped digest => Sys2Proof.Machine.execKeyBind by_ part slot wrapped digest s
  | .keyClear by_ slot => Sys2Proof.Machine.execKeyClear by_ slot s
  | .getVersion r => Sys2Proof.Machine.execGetVersion r s
  | .getCapabilities r => Sys2Proof.Machine.execGetCapabilities r s
  | .negotiateAlgorithms r => Sys2Proof.Machine.execNegotiateAlgorithms r s
  | .getDigests r => Sys2Proof.Machine.execGetDigests r s
  | .getCertificate r => Sys2Proof.Machine.execGetCertificate r s
  | .challenge r => Sys2Proof.Machine.execChallenge r s
  | .getMeasurements r => Sys2Proof.Machine.execGetMeasurements r s
  | .keyExchange r => Sys2Proof.Machine.execKeyExchange r s
  | .finish r => Sys2Proof.Machine.execFinish r s
  | .heartbeat r => Sys2Proof.Machine.execHeartbeat r s
  | .keyUpdate r => Sys2Proof.Machine.execKeyUpdate r s
  | .endSession r => Sys2Proof.Machine.execEndSession r s
  | .vendorDefinedRequest r => Sys2Proof.Machine.execVendorDefinedRequest r s
  | .ideKm session stream => Sys2Proof.Machine.execIdeKm session stream s
  | .ideIntegrityFail stream => Sys2Proof.Machine.execIdeIntegrityFail stream s
  | .hostAccess part write addr bytes => Sys2Proof.Machine.execHostAccess part write addr bytes s
  | .flitCrcFail port => Sys2Proof.Machine.execFlitCrcFail port s
  | .portFail port => Sys2Proof.Machine.execPortFail port s
  | .linkTrain port agent => Sys2Proof.Machine.execLinkTrain port agent s
  | .coldPowerOn x => Sys2Proof.Machine.execColdPowerOn x s
  | .warmReset x => Sys2Proof.Machine.execWarmReset x s
  | .watchdog x => Sys2Proof.Machine.execWatchdog x s
  | .startTimeout x => Sys2Proof.Machine.execStartTimeout x s
  | .failsWindowExpire => Sys2Proof.Machine.execFailsWindowExpire s
  | .imageUpdate ok x => Sys2Proof.Machine.execImageUpdate ok x s
  | .schedulerDoubleFail x => Sys2Proof.Machine.execSchedulerDoubleFail x s
  | .unsparedBaseDieError x => Sys2Proof.Machine.execUnsparedBaseDieError x s
  | .chipletReinitialised chiplet passes => Sys2Proof.Machine.execChipletReinitialised chiplet passes s

end Sys2Proof.Machine
end

