-- ==== Sys2Proof/Machine/Round.lean ====
section
/-! DEFINITION. Machine/Round.lean: what the device does of itself when the agenda names nothing: a round of all its own
steps, ended by a base clock, so that none of them is put off for ever (R117, log 3). -/

namespace Sys2Proof.Machine

/-- A path issues, or what it waits for is looked at. -/
def pathTurns (core w : Nat) (x : Warp) (sl : Slot) : List Turn :=
  let p := pathOf x sl
  if p.st != .live then []
  else match p.wait with
    | .none => [.issue core w sl]
    | .sleep _ => [.event (.sleepDeadline core w sl)]
    | .mwait _ => [.event (.mwaitRetest core w sl), .event (.mwaitTimeout core w sl)]
    | .cross _ => [.event (.crossLaneRelease core w sl)]
    | .grow => [.event (.reggrowGrant core)]
    | _ => []

/-- A core: its paths, its buffer of stores, its engine, its link, what a barrier unit has sent it, its saves. -/
def coreTurns (s : State) (core : Nat) (co : Core) : List Turn :=
  co.warps.flatMap (fun p => pathTurns core p.1 p.2 .a ++ pathTurns core p.1 p.2 .b) ++
  co.wc.map (fun _ => .accept core) ++
  (if co.cmd.isSome || !co.q0.isEmpty then [.event (.enginePerform core)] else []) ++
  co.transit.map (fun _ => .event (.transitPlace core)) ++
  (tgetD s.releases core []).map (fun _ => .event (.barrierRelease core)) ++
  (if co.ctx.isNone then []
   else (((List.range 4).filter (mayStart s core)).map fun r => .event (.contextSave core r)) ++ [.own (.saveDeadline core)])

/-- What waits at a port buffer reaches its home. -/
def portTurns (port : Nat) (rs : List Req) : List Turn :=
  rs.flatMap fun r => [.event (.lr port r.line), .event (.lw port r.line)]

/-- Fetches of a slice come back, agents that do not answer are given up, a gated slice with work wakes. -/
def sliceTurns (h : Nat) (sl : Slice) : List Turn :=
  (sl.entries.flatMap fun e => match e.phase with
    | .fd => [.event (.dramFetchDone h e.line)]
    | .fs o _ => [.event (.snoopTimeout o e.line)]
    | .fx _ ts _ => ts.map fun a => .event (.snoopTimeout a e.line)
    | _ => []) ++
  (if sl.gated && !sl.input.isEmpty then [.event (.sliceWake h)] else [])

def copyTurns (id : Nat) (c : Copy) : List Turn :=
  match c.st with
  | .gathering => []
  | .ready => [.event (.copyStart c.engine)]
  | .moved => [.part id, .event (.copyComplete id)]

/-- A command starts, or is looked at while it waits. -/
def cmdTurns (c : Cmd) : List Turn :=
  if c.st == .waiting then [.event (.waitMet c.part c.queue c.index), .own (.waitTimeout c.part c.queue c.index)]
  else if c.st != .parsed then []
  else if c.bundle.isSome then [.event (.link c.part c.queue c.index)]
  else [.event (match cmdType c with
    | 1 => .launch c.part c.queue c.index
    | 2 => .link c.part c.queue c.index
    | 3 => .proofed c.part c.queue c.index
    | 4 => .copy c.part c.queue c.index
    | 5 => .signal c.part c.queue c.index
    | 6 => .wait c.part c.queue c.index
    | 7 => .marker c.part c.queue c.index
    | _ => .nopCmd c.part c.queue c.index), .own (.priorityAge c.part c.queue)]

/-- A launch's blocks go to its leaf controllers, and its shape is looked at. -/
def launchTurns (s : State) (id : Nat) (l : Launch) : List Turn :=
  (l.dists.flatMap fun d =>
    if d.2.isEmpty then [] else ((List.range 64).filter (leafServes s l)).map fun f => .own (.blockSend id d.1 f)) ++
  (if l.dists.any fun d => !d.2.isEmpty then (distSites s l).map fun c => .own (.steal id c) else []) ++
  (if l.resolved then [] else [.own (.shapeResolve id), .own (.shapeTimeout id)])

/-- A column that migrates, is repaired or leaves the map. -/
def columnTurns (pair pos : Nat) (c : Column) : List Turn :=
  (if c.migrating then [.event (.contextSave (lowerOf pair pos) 3), .event (.migrationDrainTimeout pair pos)] else []) ++
  (if c.frozen then [.event (.busThaw (16 * pair + pos))] else []) ++
  (if (c.failed || c.dead) && !c.absent then [.event (.columnRemap pair pos)] else [])

/-- A saved context comes back to the lowest core that takes it. -/
def restoreTurns (s : State) : List Turn :=
  ((List.range s.saves.length).zip s.saves).filterMap fun (i, v) =>
    ((List.range 1024).find? fun c => restoreFirst s c == some v).map fun c => .event (.contextRestore c i)

/-- One round. -/
def round (s : State) : List Turn :=
  (s.cores.filter (·.1 < 1024)).flatMap (fun p => coreTurns s p.1 p.2) ++
  (s.bunits.flatMap fun u => u.2.inbox.map fun _ => .event (.barrierMessage u.1)) ++
  s.ports.flatMap (fun p => portTurns p.1 p.2) ++ s.slices.flatMap (fun p => sliceTurns p.1 p.2) ++
  s.copies.flatMap (fun p => copyTurns p.1 p.2) ++
  (s.pairs.flatMap fun p => p.2.cols.flatMap fun c => columnTurns p.1 c.1 c.2) ++ restoreTurns s ++
  ((s.queues.filter fun q => q.2.watch).map fun q => .event (.slotAccept (q.1 / 4096) (q.1 % 4096))) ++
  ((s.queues.filter fun q => q.2.enabling).map fun q => .own (.enableRetry (q.1 / 4096) (q.1 % 4096))) ++
  (if s.dev.hostWaits.isEmpty then [] else [.own .hostRetry]) ++ s.cmds.flatMap cmdTurns ++ s.launches.flatMap (fun p => launchTurns s p.1 p.2) ++
  ((s.leaves.filter fun f => !f.2.waiting.isEmpty).map fun f => .own (.blockPlace f.1)) ++
  ((s.parts.filter fun p => p.2.page.tlbBusy).map fun p => .event (.tlbinvDone p.1)) ++ [.tick 1]

end Sys2Proof.Machine
end

