-- ==== Sys2Proof/Machine/Turn.lean ====
section
/-! DEFINITION. Machine/Turn.lean: what one turn of the agenda does besides running an instruction: the words that a
path fetches and issues, time, and what follows of itself after every turn (R35-R38, R146, R163, R379). -/

namespace Sys2Proof.Machine

/-- What follows of itself: traps are delivered, warps, blocks and launches end, commands become ready. -/
def afterTurn (s : State) : State :=
  let s := lateAll (respAll (calmAll s))
  noteReady ((tkeys s.launches).foldl launchDone s)

/-- Base clocks pass, and arithmetic time with them (R4). -/
def pass (s : State) (n : Nat) : State := { s with clock := s.clock + n, arith := s.arith + n * s.mhz }

/-- A path stalls on the scoreboard (R147, R182). -/
def stalls (co : Core) (w : Warp) (p : Path) : Bool :=
  p.st == .live && p.wait == .none && !p.susp && scoreStall co w p

/-- Base clocks pass on a core: the times of its waiting and stalled paths add up (R182), and what was not ready for
this clock's choice may be ready for the next (R145, R170). -/
def coreElapse (t : Nat) (co : Core) : Core :=
  let count (f : Warp → Path → Bool) : Nat :=
    co.warps.foldl (fun n p => n + (if f p.2 p.2.a then 1 else 0) + (if f p.2 p.2.b then 1 else 0)) 0
  let fresh (w : Warp) : Warp := { w with a := { w.a with tried := false }, b := { w.b with tried := false }, yielded := false }
  { co with growTime := co.growTime + t * count (fun _ p => p.wait == .grow),
            stallTime := co.stallTime + t * count (stalls co),
            warps := co.warps.map fun p => (p.1, fresh p.2) }

/-- Base clocks pass: slices take requests that wait at them, cores go on, time adds up (R4, R368, R369). -/
def elapse (s : State) (n : Nat) : State :=
  let s := slicesTake s n
  pass { s with cores := s.cores.map fun p => if p.1 < 1024 then (p.1, coreElapse (n * s.mhz) p.2) else p } n

/-- What the path's next turn is: the fetch of a clause, the word that its bits decode to, or a word that no row of
the table gives (R36, R38). -/
inductive Next
  | fetch
  | run (i : Instr)
  | undefined

def nextOf (ws : List W64) : Next :=
  match ws with
  | [] => .fetch
  | _ => match decode ws with
    | .ok (i, _) => .run i
    | .error _ => .undefined

/-- A word that the table does not give traps UNDEF (R36). -/
def undefinedWord (s : State) : State :=
  match s.cur with
  | none => s
  | some (c, w, sl) =>
    match tget (coreOf s c).warps w with
    | none => s
    | some wp =>
      match here s (pathOf wp sl).words with
      | some x => faultAll s x .undef
      | none => s

/-- The words of the current path's clause that have been fetched and not issued. -/
def curWords (s : State) : List W64 :=
  match s.cur with
  | none => []
  | some (c, w, sl) =>
    match tget (coreOf s c).warps w with
    | none => []
    | some wp => (pathOf wp sl).words

/-- The next turn: the head of the agenda, which begins a round when it is empty (log 3). -/
def nextTurn (s : State) : Turn × State :=
  match s.agenda with
  | t :: rest => (t, { s with agenda := rest })
  | [] =>
    match round s with
    | t :: rest => (t, { s with agenda := rest })
    | [] => (.tick 1, s)

/-! A program in place (log 4). -/

/-- A warp of one path that may use every register, at the first word of a clause. -/
def bootWarp : Warp :=
  { granules := List.range 32, stackUnit := 767, a := { st := .live, pc := 8, mask := 0xFFFFFFFF } }

/-- Core 0 with one block of one warp, in a context of a partition of all eight chiplets. -/
def boot (s : State) : State :=
  let co := coreOf s 0
  let co : Core := { co with ctx := some 0, blocks := [(0, {})], warps := [(0, bootWarp)], stopped := false, saving := none }
  { setCore s 0 co with
    parts := if (tget s.parts 0).isSome then s.parts else tins s.parts 0 { n := 8 },
    contexts := if (tget s.contexts 0).isSome then s.contexts else tins s.contexts 0 {},
    cur := some (0, 0, .a) }

/-- The current path issues next, with these words as the rest of its clause. -/
def placeWords (s : State) (ws : List W64) : State :=
  let ready := match s.cur with | some (c, w, sl) => mayIssue s c w sl | none => false
  let s := if ready then s else boot s
  match s.cur with
  | none => s
  | some (c, w, sl) =>
    { modWarp s c w fun x => modPath x sl fun p => { p with words := ws, first := true, limits := none, remain := 0 }
      with agenda := [.issue c w sl] }

/-- The issue unit that opens a list of words. -/
def oneUnit (ws : List W64) : List W64 := ws.take (unitLen ws)

end Sys2Proof.Machine
end

