-- ==== Sys2Proof/Machine/Step.lean ====
section
/-! DEFINITION. Machine/Step.lean: one step of the machine: the turn that the agenda gives, then what follows of itself
(log 3), and the place of an instruction that the next step runs. -/

namespace Sys2Proof.Machine

/-- What follows of itself after a next state. -/
def settleTurn (o : Host.Outcome State Fault Refusal) : Host.Outcome State Fault Refusal :=
  match o with
  | .next s => .next (afterTurn s)
  | .fault f => .fault f
  | .refused r => .refused r

/-- The path that has its pipe's slot fetches its clause, or issues the word that its bits decode to. -/
def issueStep (s : State) : Host.Outcome State Fault Refusal :=
  match nextOf (curWords s) with
  | .fetch => exec .clauseFetch s
  | .run i => exec i s
  | .undefined => .next (undefinedWord s)

/-- A step of the scheduling engine. -/
def ownStep (o : Own) (s : State) : Host.Outcome State Fault Refusal :=
  match o with
  | .saveDeadline core => execSaveDeadline core s
  | .waitTimeout part queue index => execWaitTimeout part queue index s
  | .priorityAge part queue => execPriorityAge part queue s
  | .blockSend launch site leaf => execBlockSend launch site leaf s
  | .steal launch site => execSteal launch site s
  | .blockPlace leaf => execBlockPlace leaf s
  | .shapeResolve launch => execShapeResolve launch s
  | .shapeTimeout launch => execShapeTimeout launch s
  | .hostRetry => execHostRetry s
  | .enableRetry part queue => execEnableRetry part queue s

/-- One turn: a path's word, a step that is no word, the passing of time, a store that enters a port buffer, or a part of a
copy. -/
def turnStep (t : Turn) (s : State) : Host.Outcome State Fault Refusal :=
  match t with
  | .issue c w sl =>
    if mayIssue s c w sl then
      match issueStep (takeTurn s c w sl) with
      | .next t => .next (noteTurn s t c w sl)
      | o => o
    else .next s
  | .event i => if i.isWord then .next s else exec i s
  | .tick n => .next (elapse s n)
  | .accept core => .next (acceptOne s core)
  | .part copy => .next (copyPart s copy)
  | .own o => ownStep o s

def step (s : State) : Host.Outcome State Fault Refusal :=
  settleTurn (turnStep (nextTurn s).1 (nextTurn s).2)

/-- The instruction whose bits are w stands where the next step takes its words (log 4). -/
def State.withFetchWord (s : State) (nbits w : Nat) : State :=
  placeWords s (oneUnit (wordsOf maxUnit (w % 2 ^ nbits)))

end Sys2Proof.Machine
end

