-- ==== Sys2Proof/Safety.lean ====
section
/-! DEFINITION. Safety.lean: what counts as a safe run, and the terms the statements are made in: when an instruction
word runs, and what it is to give a value. -/

namespace Sys2Proof

open Machine

/-- Memory is in its canonical form. -/
def Inv (s : State) : Prop := memWf s.mem = true

/-- The machine goes on from this state. -/
def Goes (s : State) : Prop := ∃ t, step s = .next t

/-- The next n steps all answer a next state in which the invariant holds. -/
def SafeFor : Nat → State → Prop
  | 0, s => Inv s
  | n + 1, s => Inv s ∧ ∃ t, step s = .next t ∧ SafeFor n t

/-- A word runs: it stands at the current live path, its fields are legal (R36, R39-R46), every vector register it names
lies in the warp's window (R40), and none it names has a result outstanding (R147). -/
structure Runs (i : Instr) (s : State) (x : Here) : Prop where
  stands : here s (encode i) = some x
  legal : i.wf = true
  window : ((regsOf x.co.memdef i).any fun r => r < 256 && r ≥ 8 * x.wp.granules.length) = false
  ready : ((regsOf x.co.memdef i).any fun r => x.wp.pend.contains r) = false

/-- The same, as a test. -/
def runsNow (i : Instr) (s : State) : Bool :=
  match here s (encode i) with
  | none => false
  | some x =>
    i.wf && !((regsOf x.co.memdef i).any fun r => r < 256 && r ≥ 8 * x.wp.granules.length) &&
    !((regsOf x.co.memdef i).any fun r => x.wp.pend.contains r)

/-- Nothing has come back to one of the device's units (R353, R358). -/
def Unanswered (s : State) (who : Nat) : Prop := ∀ p ∈ s.slices, ∀ a ∈ p.2.answers, a.who ≠ who

/-- The lines of n bytes stand at their homes for one of the device's units to read. -/
def Readable (s : State) (who pa n : Nat) : Prop :=
  Unanswered s who ∧ ∀ i, i < (pa % 128 + n + 127) / 128 →
    usable s (i + pa / 128) false = true ∧ unbacked s (i + pa / 128) = false

/-- A unit's line stands at its home, to be written. -/
def Writable (s : State) (who line home : Nat) : Prop :=
  Unanswered s who ∧ usable s line true (some home) = true ∧ unbacked s line = false

/-- No executing lane consumes poison from these sources, each with its width (R185). -/
def NoPoison (x : Here) (srcs : List (Src × Bool)) : Prop :=
  (lanesWhere x.exec fun l => srcs.any fun p => lanePoison x.wp p.2 l p.1) = 0

/-- The word completes, and its warp is as given but for the path's own progress (R35, R171). -/
def Gives (i : Instr) (f : Here → Warp) : Prop :=
  ∀ s x, Runs i s x → exec i s = .next (retire s x (f x))

/-- After its word the path does not stand at its reconvergence point: its clause goes on, or the next header is another
one (R35, R139). -/
def Away (x : Here) : Prop :=
  x.p.words.drop x.ws.length ≠ [] ∨ x.p.rpc ≠ some (x.p.pc + BitVec.ofNat 64 (8 * x.ws.length))

/-- The path has gone past its word and waits for nothing; the other slot, the divergence stack and everything else of
the warp are as given, but for the signatures, the count of words and the place in the active set (R35, R146, R171,
R182). -/
structure Past (x : Here) (wp y : Warp) : Prop where
  pc : (pathOf y x.sl).pc = (pathOf wp x.sl).pc + BitVec.ofNat 64 (8 * x.ws.length)
  words : (pathOf y x.sl).words = (pathOf wp x.sl).words.drop x.ws.length
  mask : (pathOf y x.sl).mask = (pathOf wp x.sl).mask
  rpc : (pathOf y x.sl).rpc = (pathOf wp x.sl).rpc
  wait : (pathOf y x.sl).wait = .none
  other : pathOf y (otherSlot x.sl) = pathOf wp (otherSlot x.sl)
  count : y.issued = wp.issued + x.ws.length
  rest : { y with a := wp.a, b := wp.b, sigs := wp.sigs, issued := wp.issued, active := wp.active } = wp

/-- Of the whole machine only the issuing warp has changed, to one with this property. -/
def OnlyWarp (s t : State) (x : Here) (p : Warp → Prop) : Prop :=
  { t with cores := s.cores } = s ∧ (∀ c, c ≠ x.core → coreOf t c = coreOf s c) ∧
  { coreOf t x.core with warps := x.co.warps } = x.co ∧
  (∀ v, v ≠ x.w → tget (coreOf t x.core).warps v = tget x.co.warps v) ∧
  ∃ y, tget (coreOf t x.core).warps x.w = some y ∧ p y

/-- The word completes and changes its warp alone. -/
def Ends (i : Instr) (s : State) (x : Here) (p : Warp → Prop) : Prop :=
  ∃ t, exec i s = .next t ∧ OnlyWarp s t x p

/-- The word leaves a value in scalar register d. -/
def GivesS (i : Instr) (d : BitVec 8) (v : Here → W32) : Prop := Gives i fun x => sset x.wp d.toNat (v x)

/-- The word leaves a value in mask register d. -/
def GivesM (i : Instr) (d : BitVec 8) (v : Here → W32) : Prop := Gives i fun x => mset x.wp d.toNat (v x)

/-- The word completes when no executing lane consumes poison. -/
def GivesL (i : Instr) (srcs : List (Src × Bool)) (f : Here → Warp) : Prop :=
  ∀ s x, Runs i s x → NoPoison x srcs → exec i s = .next (retire s x (f x))

/-- The word leaves one 32-bit value per executing lane in vector register d; no other lane is written (R184). -/
def GivesV (i : Instr) (d : BitVec 8) (srcs : List Src) (v : Here → Nat → W32) : Prop :=
  GivesL i (srcs.map fun a => (a, false)) fun x => writeLanes x.wp d.toNat x.exec (v x)

/-- The same with values of a type, which may be 64 bits wide (R63). -/
def GivesT (i : Instr) (d : BitVec 8) (t : Ty) (srcs : List Src) (v : Here → Nat → Nat) : Prop :=
  GivesL i (srcs.map fun a => (a, t.is64)) fun x => writeTy x.wp d.toNat x.exec t (v x)

/-- A 32-bit pattern as the number it stands for under .i32, else .n32. -/
def int32 (t : Ty) (a : W32) : Int := if t = .i32 then a.toInt else a.toNat

/-- A 64-bit pattern as the number it stands for under .i64, else .n64. -/
def int64 (t : Ty) (a : W64) : Int := if t = .i64 then a.toInt else a.toNat

/-- A number clamped to the range of a 32-bit type (R68). -/
def clamp32 (t : Ty) (v : Int) : Int :=
  if t = .i32 then max (-2147483648) (min 2147483647 v) else max 0 (min 4294967295 v)

/-- A number clamped to the range of a 64-bit type (R68). -/
def clamp64 (t : Ty) (v : Int) : Int :=
  if t = .i64 then max (-9223372036854775808) (min 9223372036854775807 v) else max 0 (min 18446744073709551615 v)

/-- The words that need nothing beyond their fields and registers to run: no rule of their own makes them UNDEF later. -/
def plainWord : Instr → Bool
  | .sadd _ | .ssub _ | .smul _ | .smulhi _ | .smin _ | .smax _ | .sand _ | .sor _ | .sxor _ | .snot _ | .sshl _
  | .sshr _ | .ssar _ | .sbfe _ | .spopc _ | .sclz _ | .scmp _ | .ssel _ | .smov _ | .smovi _ | .sadd64 _ | .sldk _
  | .mset _ | .mget _ | .mand _ | .mor _ | .mxor _ | .mandn _ | .mpop _ | .mfind _
  | .bra _ | .brc _ | .brd _ | .reconv _ | .jmpi _ | .call _ | .ret _ | .exit _ | .spawn _ | .yield _ | .nop _
  | .waitcnt _ | .sleep _ | .trap _ | .tret _ | .sigchk _ | .sigrst _ | .sread _ | .swrite _ | .reggrow _
  | .regshrink _
  | .vadd _ | .vsub _ | .vmul _ | .vmulhi _ | .vmad _ | .vaddc _ | .vadd64 _ | .vmin _ | .vmax _ | .vabs _ | .vand _
  | .vor _ | .vxor _ | .vnot _ | .vshl _ | .vshr _ | .vsar _ | .vbfe _ | .vbfi _ | .vpopc _ | .vclz _ | .vbrev _
  | .vperm _ | .vcmp _ | .vsel _ | .vmov _ | .vmovi _ | .vsadd _
  | .vfadd _ | .vfsub _ | .vfmul _ | .vfma _ | .vfmin _ | .vfmax _ | .vfcmp _ | .vfclass _ | .vfrnd _ | .vfdiv _
  | .vsfu _ | .vcvt _ | .vexpr _ _ | .vh2add _ | .vh2mul _ | .vh2fma _ | .vdot2 _ | .vdadd _ | .vdmul _ | .vdfma _
  | .s2v _ | .crnew _ | .crquery _ | .bcopy _ | .bcopyc _ | .bseal _ | .bquery _ | .bcancel _ | .tclaim _ | .cpop _
  | .msync _ | .qpush _ | .qpop _ | .qpeek _ | .qcount _ | .brk _ | .pmread _ | .qpost _ => true
  | _ => false

/-- A memory word runs: besides, what its prefix or MEMDEF gives is in the word's lists (R52, R216). -/
structure MemRuns (i : Instr) (k : MKd) (m : Mem) (s : State) (x : Here) : Prop extends Runs i s x where
  mods : modsBad k m.pfx (modsOf x.co.memdef m.pfx) = false
  base : baseBad k m.base (modsOf x.co.memdef m.pfx).space = false

/-- The spaces of storage that a core, a cluster or a column holds (R25). -/
def isLocal (sp : Space) : Prop := sp = .scratch ∨ sp = .window ∨ sp = .column ∨ sp = .cshared

/-- A 32-bit number from its low bits. -/
def low32 (v : Int) : W32 := BitVec.ofInt 32 v

end Sys2Proof
end

