-- ==== Sys2Proof/Certificates/Slice0/Obligations.lean ====
section
/-! DEFINITION. Obligations.lean: the statements for the provers, family by family. -/

open Sys2Proof Sys2Proof.Machine

/-! Scalar and mask words. -/

/-- R153: the two-source scalar forms, on the 32-bit values of sources A and B.
R153, R155: the other scalar forms but SLDK and SBFE.
R154: the field that SBFE extracts, by type. -/
def Obligations.ScalarResults : Prop :=
  (∀ g : Gen,
  let a (x : Here) := scaVal x.wp g.a
  let b (x : Here) := scaVal x.wp g.b
  let n (v : W32) := int32 g.ty v
  GivesS (.sadd g) g.d (fun x => if g.sat then low32 (clamp32 g.ty (n (a x) + n (b x))) else a x + b x) ∧
  GivesS (.ssub g) g.d (fun x => if g.sat then low32 (clamp32 g.ty (n (a x) - n (b x))) else a x - b x) ∧
  GivesS (.smul g) g.d (fun x => a x * b x) ∧
  GivesS (.smulhi g) g.d (fun x => low32 (n (a x) * n (b x) / 4294967296)) ∧
  GivesS (.smin g) g.d (fun x => if n (a x) ≤ n (b x) then a x else b x) ∧
  GivesS (.smax g) g.d (fun x => if n (a x) ≤ n (b x) then b x else a x) ∧
  GivesS (.sand g) g.d (fun x => a x &&& b x) ∧
  GivesS (.sor g) g.d (fun x => a x ||| b x) ∧
  GivesS (.sxor g) g.d (fun x => a x ^^^ b x) ∧
  GivesS (.sshl g) g.d (fun x => a x <<< ((b x).toNat % 32)) ∧
  GivesS (.sshr g) g.d (fun x => a x >>> ((b x).toNat % 32)) ∧
  GivesS (.ssar g) g.d (fun x => low32 ((a x).toInt / 2 ^ ((b x).toNat % 32)))) ∧
  (∀ (g : Gen) (m : Imm),
  let a (x : Here) := scaVal x.wp g.a
  let b (x : Here) := scaVal x.wp g.b
  let n (v : W32) := int32 g.ty v
  GivesS (.snot g) g.d (fun x => ~~~ a x) ∧
  GivesS (.spopc g) g.d (fun x => BitVec.ofNat 32 ((List.range 32).countP fun i => (a x).getLsbD i)) ∧
  GivesS (.sclz g) g.d (fun x => if a x = 0 then 32 else BitVec.ofNat 32 (31 - (a x).toNat.log2)) ∧
  GivesS (.scmp g) g.d (fun x =>
    if (g.sub = 0 ∧ n (a x) = n (b x)) ∨ (g.sub = 1 ∧ n (a x) ≠ n (b x)) ∨ (g.sub = 2 ∧ n (a x) < n (b x)) ∨
       (g.sub = 3 ∧ n (a x) ≥ n (b x)) ∨ (g.sub = 4 ∧ n (a x) > n (b x)) ∨ (g.sub = 5 ∧ n (a x) ≤ n (b x))
    then 1 else 0) ∧
  GivesS (.ssel g) g.d (fun x => if scaVal x.wp g.c ≠ 0 then a x else b x) ∧
  GivesS (.smov g) g.d a ∧
  GivesS (.smovi m) m.d (fun _ => m.imm) ∧
  Gives (.sadd64 g) (fun x =>
    let u := scaVal64 x.wp g.a
    let v := scaVal64 x.wp g.b
    sset64 x.wp g.d.toNat
      (if g.sat then BitVec.ofInt 64 (clamp64 g.ty (int64 g.ty u + int64 g.ty v)) else u + v))) ∧
  (∀ g : Gen,
  GivesS (.sbfe g) g.d (fun x =>
    let a := scaVal x.wp g.a
    let off := (scaVal x.wp g.b).toNat % 32
    let w := min ((scaVal x.wp g.c).toNat % 64) 32
    if w = 0 then 0
    else if g.ty = .i32 then
      let f := a.toInt / 2 ^ off % 2 ^ w
      low32 (if 2 * f ≥ 2 ^ w then f - 2 ^ w else f)
    else BitVec.ofNat 32 (a.toNat / 2 ^ off % 2 ^ w)))

/-- R157, R158: the mask forms; m0 reads as the issuing path's mask. -/
def Obligations.MaskResults : Prop := ∀ g : Gen,
  let a (x : Here) := mskVal x.wp x.sl g.a
  let b (x : Here) := mskVal x.wp x.sl g.b
  (∀ w sl, mskVal w sl (.reg 0) = (pathOf w sl).mask ∧ mskVal w sl (.con 0x20) = 0xFFFFFFFF) ∧
  (∀ i ∈ [Instr.mset g, .mand g, .mor g, .mxor g, .mandn g], i.wf = true → 1 ≤ g.d.toNat ∧ g.d.toNat ≤ 7) ∧
  GivesM (.mset g) g.d (fun x => scaVal x.wp g.a) ∧
  GivesS (.mget g) g.d a ∧
  GivesM (.mand g) g.d (fun x => a x &&& b x) ∧
  GivesM (.mor g) g.d (fun x => a x ||| b x) ∧
  GivesM (.mxor g) g.d (fun x => a x ^^^ b x) ∧
  GivesM (.mandn g) g.d (fun x => a x &&& ~~~ b x) ∧
  GivesS (.mpop g) g.d (fun x => BitVec.ofNat 32 ((List.range 32).countP fun i => (a x).getLsbD i)) ∧
  GivesS (.mfind g) g.d (fun x =>
    let up := if g.sub = 0 then List.range 32 else (List.range 32).reverse
    BitVec.ofNat 32 ((up.find? fun i => (a x).getLsbD i).getD 32))

/-! Control words. -/

/-- R160, R162: the transfers send the issuing path to a header, where it arrives (R139): BRA to its target, BRC there
when its condition on s[n] against zero holds and to the next header otherwise, JMPI and RET to the address in a
register pair, CALL to its target with the address of the next header in a pair, RECONV to the path's RPC or, without
one, the next header.
R160: a transfer never changes the mask; a path that does not come to its RPC stands at the header it was sent to,
with nothing left of its clause, and the other slot and the divergence stack are as they were. -/
def Obligations.TransfersMoveTheIssuingPath : Prop :=
  (∀ (b : Bra) (g : Gen) (s : State) (x : Here),
  let target := x.p.pc + 8 * b.target.signExtend 64
  let next := x.p.pc + 8
  let v := (sget x.wp (b.fld.toNat / 256)).toInt
  let met := match b.cond.toNat with
    | 0 => v == 0 | 1 => v != 0 | 2 => decide (v < 0) | 3 => decide (v ≥ 0) | 4 => decide (v > 0) | _ => decide (v ≤ 0)
  (Runs (.bra b) s x → exec (.bra b) s = .next (goTo s x x.wp target x.p.pc)) ∧
  (Runs (.brc b) s x → met = true → exec (.brc b) s = .next (goTo s x x.wp target x.p.pc)) ∧
  (Runs (.brc b) s x → met = false → exec (.brc b) s = .next (goTo s x x.wp next 0)) ∧
  (Runs (.call b) s x →
    exec (.call b) s = .next (goTo s x (sset64 x.wp (b.fld.toNat / 256) next) target x.p.pc)) ∧
  (Runs (.jmpi g) s x → badTarget (pairOfSrc x.wp g.a) = false →
    exec (.jmpi g) s = .next (goTo s x x.wp (pairOfSrc x.wp g.a) x.p.pc)) ∧
  (Runs (.jmpi g) s x → badTarget (pairOfSrc x.wp g.a) = true → exec (.jmpi g) s = .next (faultAll s x .undef)) ∧
  (Runs (.ret g) s x → badTarget (pairOfSrc x.wp g.a) = false →
    exec (.ret g) s = .next (goTo s x x.wp (pairOfSrc x.wp g.a) x.p.pc)) ∧
  (Runs (.ret g) s x → badTarget (pairOfSrc x.wp g.a) = true → exec (.ret g) s = .next (faultAll s x .undef)) ∧
  (Runs (.reconv g) s x → exec (.reconv g) s = .next (goTo s x x.wp (x.p.rpc.getD next) 0))) ∧
  (∀ (s : State) (x : Here) (wp : Warp) (pc via : W64) (w : Warp),
  tget (coreOf s x.core).warps x.w = some w → (pathOf wp x.sl).rpc ≠ some pc →
  ∃ w', tget (coreOf (goTo s x wp pc via) x.core).warps x.w = some w' ∧
    (pathOf w' x.sl).pc = pc ∧ (pathOf w' x.sl).mask = (pathOf wp x.sl).mask ∧ (pathOf w' x.sl).words = [] ∧
    (pathOf w' x.sl).rpc = (pathOf wp x.sl).rpc ∧ pathOf w' (otherSlot x.sl) = pathOf wp (otherSlot x.sl) ∧
    w'.stack = wp.stack ∧ w'.sc = wp.sc ∧ w'.m = wp.m ∧ w'.v = wp.v)

/-- R138, R161: BRD by how its taken lanes divide the issuing path's mask.  With none taken the path goes on at the next
header, with all taken it goes to the target.  A split with the other slot free puts the lanes not taken into that slot
at the next header, and both paths reconverge at the word's reconvergence point; with the other slot in use they go onto
the divergence stack.  A split that would need more than 32 entries traps DIVERGE with the depth. -/
def Obligations.DivergentBranchSplits : Prop := ∀ (b : Bra) (s : State) (x : Here), Runs (.brd b) s x →
  let k := b.cond.toNat % 8
  let m := mget x.wp x.sl k
  let taken := x.p.mask &&& (if b.cond.getLsbD 3 then ~~~ m else m)
  let rest := x.p.mask &&& ~~~ taken
  let target := x.p.pc + 8 * b.target.signExtend 64
  let r := x.p.pc + 8 * b.fld.signExtend 64
  let other := pathOf x.wp (otherSlot x.sl)
  let join : List StackEntry := if some r = x.p.rpc then [] else [{ kind := .join, mask := x.p.mask, rpc := x.p.rpc, pc := r }]
  let pushes := if other.st = .empty then join
    else { kind := .pending, mask := rest, rpc := some r, pc := x.p.pc + 8 } :: join
  let set (w : Warp) : Warp :=
    { modPath w x.sl fun p => { p with parked := unitSw x.ws } with active := w.active && !unitSw x.ws }
  let w := countW x.wp x.sl x.ws
  (taken = 0 → exec (.brd b) s =
    .next (setWarp s x.core x.w (arrive (set (modPath w x.sl fun p => transfer p (x.p.pc + 8) 0)) x.sl))) ∧
  (taken ≠ 0 → rest = 0 → exec (.brd b) s =
    .next (setWarp s x.core x.w (arrive (set (modPath w x.sl fun p => transfer p target x.p.pc)) x.sl))) ∧
  (taken ≠ 0 → rest ≠ 0 → x.wp.stack.length + pushes.length > 32 →
    exec (.brd b) s = .next (faultAll s x .diverge 0 (BitVec.ofNat 32 x.wp.stack.length))) ∧
  (taken ≠ 0 → rest ≠ 0 → x.wp.stack.length + pushes.length ≤ 32 →
    let w := { w with stack := pushes ++ x.wp.stack }
    let w := if other.st = .empty then setPath w (otherSlot x.sl) (livePath (x.p.pc + 8) rest (some r)) else w
    let w := sigdEvent (modPath w x.sl fun p => { transfer p target x.p.pc with mask := taken, rpc := some r }) 1 taken
    exec (.brd b) s = .next (setWarp s x.core x.w (arrive (arrive (set w) x.sl) (otherSlot x.sl))))

/-- R141, R163: EXIT ends the lanes of the issuing path for good.  Its slot empties and is refilled from the stack's top
entry, a pending or an arrived side (R140); with an empty stack and no other path the warp has nothing left to run; a
partner that was held at its reconvergence point is held no more, and with nothing left to join it goes on without one.
Nothing but the issuing warp changes.
R178: a handler that EXITs is over, and a slot that it had suspended is suspended no more.
Model choices: log 46. -/
def Obligations.ExitEndsItsLanes : Prop := ∀ (g : Gen) (s : State) (x : Here), Runs (.exit g) s x →
  let gone := x.wp.exited ||| x.p.mask
  let other := pathOf x.wp (otherSlot x.sl)
  (∀ depth, x.wp.handler = some (x.sl, depth) → Ends (.exit g) s x fun y =>
    y.exited = gone ∧ y.handler = none ∧ y.a.susp = false ∧ y.b.susp = false ∧ y.v = x.wp.v ∧ y.sc = x.wp.sc ∧
    y.m = x.wp.m ∧ (x.wp.stack = [] → other.st = .empty → y.a.st = .empty ∧ y.b.st = .empty ∧ y.stack = [])) ∧
  ((∀ depth, x.wp.handler ≠ some (x.sl, depth)) → Ends (.exit g) s x fun y => y.exited = gone ∧ y.issued = x.wp.issued + 1 ∧
    { y with a := x.wp.a, b := x.wp.b, stack := x.wp.stack, exited := x.wp.exited, sigs := x.wp.sigs, sigd := x.wp.sigd,
             issued := x.wp.issued } = x.wp ∧
    (x.wp.stack = [] → other.st = .empty → y.a.st = .empty ∧ y.b.st = .empty ∧ y.stack = []) ∧
    (x.wp.stack = [] → other.st = .live → atRpc other = false →
      (pathOf y x.sl).st = .empty ∧ pathOf y (otherSlot x.sl) = other ∧ y.stack = []) ∧
    (∀ e rest, x.wp.stack = e :: rest → e.kind ≠ .join → e.mask &&& ~~~ gone ≠ 0 → e.rpc ≠ some e.pc →
      other.st = .empty ∨ (other.st = .live ∧ atRpc other = false) →
      (pathOf y x.sl).st = .live ∧ (pathOf y x.sl).pc = e.pc ∧ (pathOf y x.sl).mask = e.mask &&& ~~~ gone ∧
      (pathOf y x.sl).rpc = e.rpc ∧ y.stack = rest ∧ pathOf y (otherSlot x.sl) = other) ∧
    (x.wp.stack = [] → other.st = .held → other.rpc = some other.pc → other.words = [] → other.remain = 0 →
      other.susp = false → (pathOf y x.sl).st = .empty ∧
      pathOf y (otherSlot x.sl) = { other with st := .live, rpc := none }))

/-- R164: SPAWN with its resources free and the spawner's earlier accesses performed creates a warp with the lanes of the
issuing path at the entry address, its s0 to s7 the eight named registers, and writes exec to the mask register; with a
resource missing it writes 0 and changes nothing else.
Model choices: log 35, 40. -/
def Obligations.SpawnCreatesWarpOrWritesZero : Prop := ∀ (g : Gen) (s : State) (x : Here), Runs (.spawn g) s x →
  spawnReady s x = true →
  let first := match g.a with | .reg n => n.toNat | _ => 0
  (spawnPlace x g.sub.toNat = none → exec (.spawn g) s = .next (retire s x (mset x.wp g.d.toNat 0))) ∧
  (∀ c i gs u, spawnPlace x g.sub.toNat = some (c, i, gs, u) →
    ∃ y t, exec (.spawn g) s = .next t ∧
      y.block = x.wp.block ∧ y.index = i ∧ 16 ≤ i ∧ i < 48 ∧ y.granules = gs ∧ gs.length = g.sub.toNat ∧ y.stackUnit = u ∧
      y.a.pc = pairOfSrc x.wp g.b ∧ y.a.mask = x.exec ∧ y.a.st = .live ∧ y.b.st = .empty ∧ y.exited = 0 ∧
      (∀ k, k < 8 → sget y k = sget x.wp (first + k)) ∧
      t = retire (modCore s x.core fun co => { co with warps := tins co.warps c y, ages := co.ages + 1 }) x
            (mset x.wp g.d.toNat x.exec))

/-- R168-R170: NOP only advances; WAITCNT does so once the warp's counts of memory results, engine pushes and copy
tokens are at or below its limits, and stalls while one is not; YIELD advances and makes its warp not ready for the
next choice of its pipe, and leaves the active set when it is full and a ready warp stands outside; SLEEP for n base
clocks waits at its word, outside the active set, until CLOCK has grown by n, and for none acts as YIELD.
R171, R173: each of these words updates SIGS while the warp has exactly one slot in use.  SIGRST then puts SIGS and SIGD
to their initial values and SIGCHK goes on when SIGS equals its immediate, both leaving SIGS otherwise alone; with both
slots in use neither has an effect; on a mismatch SIGCHK traps SIGFAIL with SIGS as DETAIL. -/
def Obligations.WaitingAndSignatureWords : Prop := ∀ (g : Gen) (m : Imm) (s : State) (x : Here), Away x →
  let one : Prop := ¬ (x.wp.a.st = .empty ↔ x.wp.b.st = .empty)
  let signed (i : Instr) (y : Warp) : Prop := x.p.unsig = false →
    (one → y.sigs = crcWord x.wp.sigs ((encode i).headD 0)) ∧ (¬ one → y.sigs = x.wp.sigs)
  let counts : Prop := (numOf g.a ≥ 31 ∨ memOut x.co x.w x.wp ≤ numOf g.a) ∧
    (numOf g.b ≥ 15 ∨ engOut x.wp ≤ numOf g.b) ∧ (numOf g.c ≥ 63 ∨ tokOut s x.core x.w ≤ numOf g.c)
  let mates := x.co.warps.filter fun p => p.1 != x.w && p.2.pipe == x.wp.pipe
  let yields (i : Instr) : Prop := Ends i s x fun y => Past x { x.wp with yielded := true } y ∧ signed i y ∧
    (∀ u, warpReady u x.core x.w y = false) ∧
    (3 ≤ (mates.filter fun p => p.2.active).length →
      (mates.any fun p => !p.2.active && warpReady s x.core p.1 p.2) = true → y.active = false)
  (Runs (.nop g) s x → Ends (.nop g) s x fun y => Past x x.wp y ∧ signed (.nop g) y) ∧
  (Runs (.waitcnt g) s x → counts → Ends (.waitcnt g) s x fun y => Past x x.wp y ∧ signed (.waitcnt g) y) ∧
  (Runs (.waitcnt g) s x → ¬ counts → exec (.waitcnt g) s = .next s) ∧
  (Runs (.yield g) s x → yields (.yield g)) ∧
  (Runs (.sleep g) s x → scaVal x.wp g.a = 0 → yields (.sleep g)) ∧
  (Runs (.sleep g) s x → scaVal x.wp g.a ≠ 0 → Ends (.sleep g) s x fun y =>
    (pathOf y x.sl).wait = .sleep (s.clock + (scaVal x.wp g.a).toNat) ∧ y.active = false ∧
    (pathOf y x.sl).pc = x.p.pc ∧ (pathOf y x.sl).words = x.p.words ∧ (pathOf y x.sl).mask = x.p.mask ∧
    pathOf y (otherSlot x.sl) = pathOf x.wp (otherSlot x.sl) ∧
    { y with a := x.wp.a, b := x.wp.b, active := x.wp.active } = x.wp) ∧
  (Runs (.sigrst g) s x → one → Ends (.sigrst g) s x fun y =>
    Past x { x.wp with sigd := 0 } y ∧ y.sigs = 0xFFFFFFFF ∧ y.sigd = 0) ∧
  (Runs (.sigrst g) s x → ¬ one → Ends (.sigrst g) s x fun y => Past x x.wp y ∧ y.sigs = x.wp.sigs ∧ y.sigd = x.wp.sigd) ∧
  (Runs (.sigchk m) s x → x.wp.sigs = m.imm ∨ ¬ one → Ends (.sigchk m) s x fun y => Past x x.wp y ∧ y.sigs = x.wp.sigs) ∧
  (Runs (.sigchk m) s x → x.wp.sigs ≠ m.imm → one → exec (.sigchk m) s = .next (faultAll s x .sigfail 0 x.wp.sigs))

/-- R165: REGGROW for more granules than a window can hold fails at once: mD is 0 and the window stays.  Else, when the
pool can meet it and no other request waits, it is granted: the window grows by granules of the pool and mD takes exec.
When the pool cannot, the path waits outside the active set with the old window.  A second request of the warp stalls.
R167: REGSHRINK gives up the highest granules, once no write to a register in them is pending, and what the others hold
stays; it traps PROT when it names as many granules as the warp holds or more.
Model choices: log 39. -/
def Obligations.WindowGrowsAndShrinks : Prop := ∀ (g : Gen) (s : State) (x : Here), Away x →
  let n := g.sub.toNat
  let held := x.wp.granules.length
  let asks : Prop := Runs (.reggrow g) s x ∧ x.wp.grow = none ∧ held + n ≤ 32 ∧ unitAt x.p = x.ws ∧
    ∀ p ∈ x.co.warps, p.2.grow = none
  (Runs (.reggrow g) s x → x.wp.grow ≠ none → exec (.reggrow g) s = .next s) ∧
  (Runs (.reggrow g) s x → x.wp.grow = none → held + n > 32 → Ends (.reggrow g) s x fun y =>
    tgetD y.m g.d.toNat 0 = 0 ∧ Past x { x.wp with m := y.m } y ∧ ∀ k, k ≠ g.d.toNat → tgetD y.m k 0 = tgetD x.wp.m k 0) ∧
  (asks → n ≤ (freeGranules x.co).length → ∃ t y, exec (.reggrow g) s = .next t ∧
    tget (coreOf t x.core).warps x.w = some y ∧ y.grow = none ∧ tgetD y.m g.d.toNat 0 = x.exec ∧
    y.granules = x.wp.granules ++ (freeGranules x.co).take n ∧ (∀ k, k ≠ g.d.toNat → tgetD y.m k 0 = tgetD x.wp.m k 0) ∧
    Past x { x.wp with granules := y.granules, m := y.m, pend := y.pend } y ∧ t.mem = s.mem) ∧
  (asks → (freeGranules x.co).length < n → ∃ t y, exec (.reggrow g) s = .next t ∧
    tget (coreOf t x.core).warps x.w = some y ∧ y.grow.isSome = true ∧ (pathOf y x.sl).wait = .grow ∧
    (pathOf y x.sl).pc = x.p.pc ∧ y.active = false ∧ y.granules = x.wp.granules ∧
    pathOf y (otherSlot x.sl) = pathOf x.wp (otherSlot x.sl) ∧ y.v = x.wp.v ∧ y.sc = x.wp.sc ∧ y.m = x.wp.m ∧ t.mem = s.mem) ∧
  (Runs (.regshrink g) s x → held ≤ n → exec (.regshrink g) s = .next (faultAll s x .prot)) ∧
  (Runs (.regshrink g) s x → n < held → (∃ r ∈ x.wp.pend, r < 256 ∧ 8 * (held - n) ≤ r) →
    exec (.regshrink g) s = .next s) ∧
  (Runs (.regshrink g) s x → n < held → (∀ r ∈ x.wp.pend, r < 256 → r < 8 * (held - n)) →
    Ends (.regshrink g) s x fun y => y.granules = x.wp.granules.take (held - n) ∧
      (∀ r l, l < 32 → r < 8 * (held - n) → vget y r l = vget x.wp r l) ∧
      Past x { x.wp with granules := y.granules, v := y.v, vPoison := y.vPoison } y)

/-! Special registers and the system family. -/

/-- R129, R130, R174: SREAD puts the special register in every lane of exec of a vector register, or in a scalar
register, a pair where the register has 64 bits; the values of the registers that the issuing warp, its block, its core
and the clock hold.  With .wait, before the launch is resolved, the destination is pending and nothing else changes.
R51, R175: SWRITE of MEMDEF and TRAPVEC reaches every core that runs the context, of POISONAT clears VALID; a value
that they do not admit traps UNDEF.
R182: PMREAD puts a 64-bit count in its pair: arithmetic cycles since the context was placed, words issued by the
warp, L1 hits and misses, cycles waited in REGGROW and stalled on the scoreboard, copies, and multiply-accumulates in
units of 4,096.
Model choices: log 12, 21. -/
def Obligations.SpecialRegistersAndCounts : Prop := ∀ (g : Gen) (s : State) (x : Here), Away x →
  let sel := numOf g.a
  let d := g.d.toNat
  let desc := (ctxOf s x.ctx).desc
  let count : Nat := match sel with
    | 0 => (s.arith - x.co.since) / 1600
    | 1 => x.wp.issued
    | 2 => x.co.l1Hits
    | 3 => x.co.l1Misses
    | 4 => x.co.growTime / 1600
    | 5 => x.co.stallTime / 1600
    | 6 => x.co.copies
    | _ => x.co.macs / 4096
  let narrow : List (Nat × W32) := [(0x01, BitVec.ofNat 32 (x.core * 2 ^ 16 + x.wp.index * 2 ^ 8 + x.w)),
    (0x02, x.block.bx), (0x03, x.block.byy), (0x04, x.block.bz), (0x08, BitVec.ofNat 32 (x.block.bcrew % 2 ^ 16)),
    (0x0D, x.co.memdef), (0x0E, x.wp.sigs), (0x0F, x.wp.sigd), (0x14, x.co.growFail),
    (0x15, BitVec.ofNat 32 (x.ctx % 2 ^ 32))]
  let wide : List (Nat × W64) := [(0x0B, BitVec.ofNat 64 s.clock), (0x10, x.co.trapvec), (0x11, x.wp.trapframe),
    (0x12, x.wp.poisonat)]
  let reads : Prop := Runs (.sread g) s x ∧ g.sub.getLsbD 1 = false
  (reads → g.sub.getLsbD 0 = false → (∀ p ∈ narrow, sel = p.1 → Ends (.sread g) s x fun y =>
      sget y d = p.2 ∧ Past x { x.wp with sc := y.sc } y ∧ ∀ k, k ≠ d → sget y k = sget x.wp k) ∧
    (∀ p ∈ wide, sel = p.1 → Ends (.sread g) s x fun y =>
      sget64 y d = p.2 ∧ Past x { x.wp with sc := y.sc } y ∧ ∀ k, k ≠ d → k ≠ d + 1 → sget y k = sget x.wp k)) ∧
  (reads → g.sub.getLsbD 0 = true → (∀ l, l < 32 → ∀ p ∈ (0, BitVec.ofNat 32 l) :: narrow, sel = p.1 → Ends (.sread g) s x fun y =>
      vget y d l = (if x.exec.getLsbD l then p.2 else vget x.wp d l) ∧
      Past x { x.wp with v := y.v, vPoison := y.vPoison } y ∧
      ∀ n k, k < 32 → n ≠ d → vget y n k = vget x.wp n k) ∧
    (∀ l, l < 32 → ∀ p ∈ wide, sel = p.1 → Ends (.sread g) s x fun y =>
      (x.exec.getLsbD l = true → vget y (d + 1) l ++ vget y d l = p.2) ∧
      (x.exec.getLsbD l = false → vget y d l = vget x.wp d l ∧ vget y (d + 1) l = vget x.wp (d + 1) l) ∧
      Past x { x.wp with v := y.v, vPoison := y.vPoison } y)) ∧
  (∀ l, Runs (.sread g) s x → g.sub.getLsbD 1 = true → tget s.launches x.block.launch = some l → l.resolved = false →
    Ends (.sread g) s x fun y => y.pend.contains (if g.sub.getLsbD 0 then d else 256 + d) = true ∧
      Past x { x.wp with pend := y.pend, shapeWaits := y.shapeWaits } y) ∧
  (Runs (.swrite g) s x → g.d = 0x12 → Ends (.swrite g) s x fun y =>
    (y.poisonat.getLsbD 0 = (x.wp.poisonat.getLsbD 0 && !(scaVal x.wp g.a).getLsbD 0)) ∧
    y.poisonat >>> 1 = x.wp.poisonat >>> 1 ∧ Past x { x.wp with poisonat := y.poisonat } y) ∧
  (Runs (.swrite g) s x → g.d = 0x0D → memdefOk (scaVal x.wp g.a) = false →
    exec (.swrite g) s = .next (faultAll s x .undef)) ∧
  (Runs (.swrite g) s x → g.d = 0x10 → badTarget (scaVal64 x.wp g.a) = true →
    exec (.swrite g) s = .next (faultAll s x .undef)) ∧
  (Runs (.swrite g) s x → g.d = 0x0D → memdefOk (scaVal x.wp g.a) = true → usable s ((desc + 0x24) / 128) true = true →
    ∃ t, exec (.swrite g) s = .next t ∧
      ∀ c co, tget t.cores c = some co → co.ctx = x.co.ctx → co.memdef = scaVal x.wp g.a) ∧
  (Runs (.swrite g) s x → g.d = 0x10 → badTarget (scaVal64 x.wp g.a) = false →
    usable s ((desc + 0x28) / 128) true = true → ∃ t, exec (.swrite g) s = .next t ∧
      ∀ c co, tget t.cores c = some co → co.ctx = x.co.ctx → co.trapvec = scaVal64 x.wp g.a) ∧
  (∀ v, memdefOk v = true ↔ v.toNat < 4096 ∧ ∀ i < 4, 1 ≤ v.toNat / 8 ^ i % 8 ∧
    v.toNat / 8 ^ i % 8 ≤ ([4, 6, 7, 4] : List Nat).getD i 0) ∧
  (Runs (.pmread g) s x → Ends (.pmread g) s x fun y => sget64 y d = BitVec.ofNat 64 count ∧
    Past x { x.wp with sc := y.sc } y ∧ ∀ k, k ≠ d → k ≠ d + 1 → sget y k = sget x.wp k)

/-- R177, R180, R181: TRAP and BRK hold a trap of their kind with their code for their path, which stays at the word with
its mask; what is held is delivered with everything else that follows of itself on the core. -/
def Obligations.TrapWordsHoldTheirTrap : Prop := ∀ (g : Gen) (s : State) (x : Here),
  let held (kind : BitVec 8) : Warp → Warp := fun w =>
    { modPath w x.sl (fun p => squash p false) with
      heldTrap := some (x.sl, { kind := kind, word := unitWord x.ws, lanes := x.exec, detail := g.sub.zeroExtend 32 }),
      active := false }
  (Runs (.trap g) s x → exec (.trap g) s = .next (calm (modWarp s x.core x.w (held 1)) x.core)) ∧
  (Runs (.brk g) s x → exec (.brk g) s = .next (calm (modWarp s x.core x.w (held 2)) x.core)) ∧
  (∀ p : Path, (squash p false).pc = p.pc ∧ (squash p false).mask = p.mask ∧ (squash p false).rpc = p.rpc)

/-- R176, R177, R178: a held trap whose older writes have landed is delivered.  Off the driver's route, with a handler
and the warp not in it, its path enters the handler at TRAPVEC with RPC NONE and its mask kept, the other slot is
suspended if it is in use, TRAPFRAME holds the frame's address, and the frame's 64 bytes are written where the page
tables put that address, once its line stands at its home; on the driver's route the path waits for the driver and a
notice is sent.
R178, R179: TRET in the handler, at the handler's stack depth, reads the frame and restores its slot from it, past the
words that .next skips, and lets the other slot go on; anywhere else it traps UNDEF.
Model choices: log 16, 27, 28, 41, 120.  -/
def Obligations.TrapEntryAndReturn : Prop :=
  (∀ (s : State) (core w : Nat) (wp : Warp) (sl : Slot) (t : Trap) (leaf : W64) (level : Nat),
  let co := coreOf s core
  let ctx := co.ctx.getD 0
  let b := (tget co.blocks wp.block).getD {}
  let route := if trapDriver t then 1 else 0
  let va := descField s ctx 0x10 8 + 128 * (48 * core + w) + 64 * route
  let pa := leafPa leaf level va
  let part := (ctxOf s ctx).part
  tget co.warps w = some wp → wp.heldTrap = some (sl, t) → landed co w wp = true → b.prov = false → b.shadow = .none →
  let line := pa / 128
  let who := deviceWho 1 (64 * core + w)
  walk s ctx va = .ok leaf level → leaf.getLsbD 3 = true → Writable s who line (leafHome s part leaf line) →
  let home := dropAnswers (homeWrite s part line (fieldLine (pa % 128) 64 (leNat (frameBytes core w wp b sl t)))
    (fieldMask (pa % 128) 64) 0 (some (leafHome s part leaf line))) who
  (trapDriver t = false → co.trapvec ≠ 0 → wp.handler = none →
    ∃ w', tget (coreOf (deliverTrap s core w) core).warps w = some w' ∧
      (pathOf w' sl).pc = co.trapvec ∧ (pathOf w' sl).rpc = none ∧ (pathOf w' sl).mask = (pathOf wp sl).mask ∧
      (pathOf w' sl).words = [] ∧ w'.handler = some (sl, wp.stack.length) ∧ w'.heldTrap = none ∧
      w'.trapframe = BitVec.ofNat 64 va ∧
      ((pathOf wp (otherSlot sl)).st ≠ .empty → (pathOf w' (otherSlot sl)).susp = true) ∧
      w'.v = wp.v ∧ w'.sc = wp.sc ∧ w'.m = wp.m ∧
      (deliverTrap s core w).mem = home.mem ∧ (deliverTrap s core w).slices = home.slices) ∧
  (trapDriver t = true →
    deliverTrap s core w =
      notice (modWarp (modWarp home core w fun x => { x with trapframe := BitVec.ofNat 64 va }) core w
        fun x => waitDriver x sl (BitVec.ofNat 64 va)) part (BitVec.ofNat 64 va) ∧
    (pathOf (waitDriver wp sl (BitVec.ofNat 64 va)) sl).wait = .driver (BitVec.ofNat 64 va) ∧
    (pathOf (waitDriver wp sl (BitVec.ofNat 64 va)) sl).pc = (pathOf wp sl).pc)) ∧
  (∀ (g : Gen) (s : State) (x : Here), Runs (.tret g) s x →
  let va := x.wp.handlerFrame.toNat
  let inHandler := x.wp.handler = some (x.sl, x.wp.stack.length)
  (¬ inHandler → exec (.tret g) s = .next (faultAll s x .undef)) ∧
  (∀ s' ls n count, inHandler → storesDone s x.core x.w .pkg = true →
    checkGlobal s x.core x.ctx x.exec true { r := true } [(0, va)] = (s', .ok ls) →
    let y := groupHead ls
    Unanswered s' (wordWho x 2) → Unanswered s' (fetchWho x) → usable s' y.line false (some y.home) = true →
    unbacked s' y.line = false →
    let f := leBytes 64 (lineField (peekLine s' y.line).1 (y.pa % 128) 64)
    tretSkip s' x (g.sub = 1) ((f.getD 0x3A 0).getLsbD 1) (BitVec.ofNat 64 (leNat (f.take 8))) = .by_ n count →
    let w := arrive (restoreFrame (leaveHandler (countW x.wp x.sl x.ws)) x.sl f n count) (otherSlot x.sl)
    exec (.tret g) s = .next (setWarp s' x.core x.w
      { modPath w x.sl (fun p => { p with parked := unitSw x.ws && p.st != .empty }) with
        active := w.active && !unitSw x.ws })) ∧
  (∀ (w : Warp) (f : List Byte) (n count : Nat),
    let mask : W32 := BitVec.ofNat 32 (leNat ((f.drop 0x1C).take 4)) &&& ~~~ w.exited
    let pc := leNat (f.take 8)
    let clause := leNat ((f.drop 0x3B).take 1)
    (f.getD 0x3A 0).getLsbD 1 = false → f.length = 64 → n < clause / 4 % 16 + 1 → mask ≠ 0 →
    (pathOf (restoreFrame w x.sl f n count) x.sl).pc = BitVec.ofNat 64 (pc + 8 * n) ∧
    (pathOf (restoreFrame w x.sl f n count) x.sl).mask = mask ∧
    (pathOf (restoreFrame w x.sl f n count) x.sl).remain = clause / 4 % 16 + 1 - n))

/-! Vector words (R184-R206). -/

/-- R187-R190, R192: the vector integer forms that write one 32-bit value per executing lane, on the raw values of the
lane's sources; a lane that would consume poison stops them (R185).
Model choices: log 20. -/
def Obligations.VectorIntegerResults : Prop := ∀ (g : Gen) (m : Imm),
  let a (x : Here) (l : Nat) := laneRaw x.wp l g.a
  let b (x : Here) (l : Nat) := laneRaw x.wp l g.b
  let c (x : Here) (l : Nat) := laneRaw x.wp l g.c
  let n (v : W32) := int32 g.ty v
  let fit (v : Int) : W32 := low32 (if g.sat then clamp32 g.ty v else v)
  GivesV (.vadd g) g.d [g.a, g.b] (fun x l => fit (n (a x l) + n (b x l))) ∧
  GivesV (.vsub g) g.d [g.a, g.b] (fun x l => fit (n (a x l) - n (b x l))) ∧
  GivesV (.vmul g) g.d [g.a, g.b] (fun x l => fit (n (a x l) * n (b x l))) ∧
  GivesV (.vmulhi g) g.d [g.a, g.b] (fun x l => low32 (n (a x l) * n (b x l) / 4294967296)) ∧
  GivesV (.vmad g) g.d [g.a, g.b, g.c] (fun x l => fit (n (a x l) * n (b x l) + n (c x l))) ∧
  GivesV (.vmin g) g.d [g.a, g.b] (fun x l => if n (a x l) ≤ n (b x l) then a x l else b x l) ∧
  GivesV (.vmax g) g.d [g.a, g.b] (fun x l => if n (a x l) ≤ n (b x l) then b x l else a x l) ∧
  GivesV (.vabs g) g.d [g.a] (fun x l => fit ((a x l).toInt.natAbs : Int)) ∧
  GivesV (.vand g) g.d [g.a, g.b] (fun x l => a x l &&& b x l) ∧
  GivesV (.vor g) g.d [g.a, g.b] (fun x l => a x l ||| b x l) ∧
  GivesV (.vxor g) g.d [g.a, g.b] (fun x l => a x l ^^^ b x l) ∧
  GivesV (.vnot g) g.d [g.a] (fun x l => ~~~ a x l) ∧
  GivesV (.vshl g) g.d [g.a, g.b] (fun x l => a x l <<< ((b x l).toNat % 32)) ∧
  GivesV (.vshr g) g.d [g.a, g.b] (fun x l => a x l >>> ((b x l).toNat % 32)) ∧
  GivesV (.vsar g) g.d [g.a, g.b] (fun x l => low32 ((a x l).toInt / 2 ^ ((b x l).toNat % 32))) ∧
  GivesV (.vbfe g) g.d [g.a, g.b, g.c] (fun x l =>
    let off := (b x l).toNat % 32
    let w := min ((c x l).toNat % 64) 32
    if w = 0 then 0
    else if g.ty = .i32 then
      let f := (a x l).toInt / 2 ^ off % 2 ^ w
      low32 (if 2 * f ≥ 2 ^ w then f - 2 ^ w else f)
    else BitVec.ofNat 32 ((a x l).toNat / 2 ^ off % 2 ^ w)) ∧
  GivesV (.vpopc g) g.d [g.a] (fun x l => BitVec.ofNat 32 ((List.range 32).countP fun i => (a x l).getLsbD i)) ∧
  GivesV (.vclz g) g.d [g.a] (fun x l => if a x l = 0 then 32 else BitVec.ofNat 32 (31 - (a x l).toNat.log2)) ∧
  GivesV (.vbrev g) g.d [g.a] (fun x l => (a x l).reverse) ∧
  GivesV (.vsel g) g.d [g.a, g.b] (fun x l => if (mskVal x.wp x.sl g.c).getLsbD l then a x l else b x l) ∧
  GivesV (.vmov g) g.d [g.a] a ∧
  GivesV (.vmovi m) m.d [] (fun _ _ => m.imm)

/-- R188-R190, R192: field insertion, byte permutation, packed saturating sums and 64-bit sums.
R188, R191, R194: the words that write one mask bit per executing lane and leave the others: VCMP and VFCMP by their
condition, VADDC the carry or borrow beside its sum.
Model choices: log 20. -/
def Obligations.VectorFieldAndConditionResults : Prop :=
  (∀ g : Gen,
  let a (x : Here) (l : Nat) := laneRaw x.wp l g.a
  let b (x : Here) (l : Nat) := laneRaw x.wp l g.b
  let c (x : Here) (l : Nat) := laneRaw x.wp l g.c
  (∃ f : W32 → W32 → W32 → W32, GivesV (.vbfi g) g.d [g.a, g.b, g.c] (fun x l => f (a x l) (b x l) (c x l)) ∧
    ∀ u v k i, i < 32 →
      let off := k.toNat % 32
      let w := min (k.toNat / 256 % 64) 32
      (f u v k).getLsbD i = if off ≤ i ∧ i < off + w then u.getLsbD (i - off) else v.getLsbD i) ∧
  (∃ f : W32 → W32 → W32 → W32, GivesV (.vperm g) g.d [g.a, g.b, g.c] (fun x l => f (a x l) (b x l) (c x l)) ∧
    ∀ u v k j, j < 4 →
      let n := k.toNat / 16 ^ j % 16
      let y := byteOf (v ++ u) (n % 8)
      byteOf (f u v k) j = if n < 8 then y else if y.msb then 0xFF else 0) ∧
  (GivesL (.vsadd g) [(g.a, false), (g.b, false)] fun x => writeLanes x.wp g.d.toNat x.exec fun l =>
    packLane (32 / tyBits g.ty) (tyBits g.ty) fun i =>
      let u := intOf g.ty (lanePacked x.wp g.ty l i g.a)
      let v := intOf g.ty (lanePacked x.wp g.ty l i g.b)
      wrapN (tyBits g.ty) (max (tyMin g.ty) (min (tyMax g.ty) (if g.sub = 1 then u - v else u + v)))) ∧
  (GivesT (.vadd64 g) g.d g.ty [g.a, g.b] fun x l =>
    let s := intOf g.ty (laneVal x.wp g.ty l g.a) + intOf g.ty (laneVal x.wp g.ty l g.b)
    wrapN 64 (if g.sat then max (tyMin g.ty) (min (tyMax g.ty) s) else s))) ∧
  (∀ g : Gen,
  let bitsOf (old exec : W32) (p : Nat → Bool) : W32 := (old &&& ~~~ exec) ||| lanesWhere exec p
  (∀ (m : W32) (p : Nat → Bool) l, l < 32 → (lanesWhere m p).getLsbD l = (m.getLsbD l && p l)) ∧
  GivesL (.vcmp g) [(g.a, false), (g.b, false)] (fun x =>
    mset x.wp g.d.toNat (bitsOf (mget x.wp x.sl g.d.toNat) x.exec fun l =>
      let u := int32 g.ty (laneRaw x.wp l g.a)
      let v := int32 g.ty (laneRaw x.wp l g.b)
      (g.sub == 0 && u == v) || (g.sub == 1 && u != v) || (g.sub == 2 && decide (u < v)) ||
      (g.sub == 3 && decide (u ≥ v)) || (g.sub == 4 && decide (u > v)) || (g.sub == 5 && decide (u ≤ v)))) ∧
  GivesL (.vfcmp g) [(g.a, g.ty.is64), (g.b, g.ty.is64)] (fun x =>
    mset x.wp g.d.toNat (bitsOf (mget x.wp x.sl g.d.toNat) x.exec fun l =>
      condFloat (Fmt.of g.ty) g.sub.toNat (laneVal x.wp g.ty l g.a) (laneVal x.wp g.ty l g.b))) ∧
  (∀ k, g.c = .reg k → GivesL (.vaddc g) [(g.a, false), (g.b, false)] (fun x =>
    let m := mget x.wp x.sl k.toNat
    let u (l : Nat) : Int := (laneRaw x.wp l g.a).toNat
    let v (l : Nat) : Int := (laneRaw x.wp l g.b).toNat
    let i (l : Nat) : Int := if m.getLsbD l then 1 else 0
    let r (l : Nat) : Int := if g.sub = 1 then u l - v l - i l else u l + v l + i l
    mset (writeLanes x.wp g.d.toNat x.exec fun l => low32 (r l)) k.toNat
      (bitsOf m x.exec fun l => decide (r l < 0) || decide (r l ≥ 4294967296)))))

/-- R193, R196, R197, R199-R201: the floating-point forms: each result is the exact value of the lane's operands rounded
once to the format by the word's rounding.
R198, R201, R203-R206: VSFU, VCVT and VEXPR: a function, a conversion and a postfix program per lane.  What VSFU
returns is free inside the bound of R198 (log 9): it is named here and no value of it is stated.
Model choices: log 9, 20. -/
def Obligations.VectorFloatResults : Prop :=
  (∀ g : Gen,
  let f := Fmt.of g.ty
  let v (x : Here) (l : Nat) (a : Src) := unpack f (laneVal x.wp g.ty l a)
  let p (x : Here) (l k : Nat) (a : Src) := unpack f (lanePacked x.wp g.ty l k a)
  let d (x : Here) (l : Nat) (a : Src) := unpack f64 (laneVal x.wp .f64 l a)
  let rnd := packV f g.rnd
  let half (h : Here → Nat → Nat → Nat) (x : Here) : Warp :=
    writeLanes x.wp g.d.toNat x.exec fun l => packLane 2 16 fun k => h x l k
  GivesT (.vfadd g) g.d g.ty [g.a, g.b] (fun x l => rnd (sumV g.rnd [v x l g.a, v x l g.b])) ∧
  GivesT (.vfsub g) g.d g.ty [g.a, g.b] (fun x l => rnd (sumV g.rnd [v x l g.a, (v x l g.b).neg])) ∧
  GivesT (.vfmul g) g.d g.ty [g.a, g.b] (fun x l => rnd (mulV (v x l g.a) (v x l g.b))) ∧
  GivesT (.vfma g) g.d g.ty [g.a, g.b, g.c] (fun x l => rnd (sumV g.rnd [mulV (v x l g.a) (v x l g.b), v x l g.c])) ∧
  GivesT (.vfmin g) g.d g.ty [g.a, g.b] (fun x l => fMin f (laneVal x.wp g.ty l g.a) (laneVal x.wp g.ty l g.b)) ∧
  GivesT (.vfmax g) g.d g.ty [g.a, g.b] (fun x l => fMax f (laneVal x.wp g.ty l g.a) (laneVal x.wp g.ty l g.b)) ∧
  GivesL (.vfclass g) [(g.a, g.ty.is64)] (fun x => writeLanes x.wp g.d.toNat x.exec fun l =>
    BitVec.ofNat 32 (2 ^ fclass f (laneVal x.wp g.ty l g.a))) ∧
  GivesT (.vfrnd g) g.d g.ty [g.a] (fun x l => fRnd f g.rnd (laneVal x.wp g.ty l g.a)) ∧
  GivesT (.vfdiv g) g.d g.ty [g.a, g.b] (fun x l =>
    fDiv f32 g.rnd (laneVal x.wp g.ty l g.a) (laneVal x.wp g.ty l g.b)) ∧
  GivesL (.vh2add g) [(g.a, false), (g.b, false)]
    (half fun x l k => rnd (sumV g.rnd [p x l k g.a, p x l k g.b])) ∧
  GivesL (.vh2mul g) [(g.a, false), (g.b, false)] (half fun x l k => rnd (mulV (p x l k g.a) (p x l k g.b))) ∧
  GivesL (.vh2fma g) [(g.a, false), (g.b, false), (g.c, false)]
    (half fun x l k => rnd (sumV g.rnd [mulV (p x l k g.a) (p x l k g.b), p x l k g.c])) ∧
  GivesL (.vdot2 g) [(g.a, false), (g.b, false), (g.c, false)] (fun x =>
    writeLanes x.wp g.d.toNat x.exec fun l =>
      BitVec.ofNat 32 (packV f32 g.rnd (sumV g.rnd
        [mulV (p x l 0 g.a) (p x l 0 g.b), mulV (p x l 1 g.a) (p x l 1 g.b), unpack f32 (laneVal x.wp .f32 l g.c)]))) ∧
  GivesT (.vdadd g) g.d .f64 [g.a, g.b] (fun x l => packV f64 g.rnd (sumV g.rnd [d x l g.a, d x l g.b])) ∧
  GivesT (.vdmul g) g.d .f64 [g.a, g.b] (fun x l => packV f64 g.rnd (mulV (d x l g.a) (d x l g.b))) ∧
  GivesT (.vdfma g) g.d .f64 [g.a, g.b, g.c]
    (fun x l => packV f64 g.rnd (sumV g.rnd [mulV (d x l g.a) (d x l g.b), d x l g.c]))) ∧
  (∀ (g : Gen) (e : ExprExt),
  let src := (Ty.ofCode g.sub.toNat).getD .b32
  GivesT (.vsfu g) g.d g.ty [g.a]
    (fun x l => (sfu g.sub.toNat g.rnd (BitVec.ofNat 32 (laneVal x.wp g.ty l g.a))).toNat) ∧
  GivesL (.vcvt g) [(g.a, src.is64)] (fun x =>
    writeTy x.wp g.d.toNat x.exec g.ty fun l => convert g.ty src g.rnd g.sat (laneVal x.wp src l g.a)) ∧
  GivesL (.vexpr g e)
    ([(1, g.a), (2, g.b), (3, g.c)].filterMap fun p => if e.tokens.any (·.1 == p.1) then some (p.2, false) else none)
    (fun x => writeLanes x.wp g.d.toNat x.exec fun l =>
      let v := (exprRun (fun c => laneVal x.wp .f32 l (if c = 1 then g.a else if c = 2 then g.b else g.c)) e.tokens []).headD 0
      if (unpack f32 v).isNan then 0x7FC00000 else BitVec.ofNat 32 v))

/-! Cross-lane words (R207-R214). -/

/-- R207, R212, R213: the cross-lane forms on a path that issues alone, over its present lanes: votes, shuffles whose
absent source lanes give the lane its own value, reductions and prefixes over the fixed tree, matches, lane reads and
writes, and compaction.  The MISS register, if named, reads 0 for them.
R209, R210: a cross-lane word with a member register, first in its clause, by the state of the other path: with no
member there it issues alone; when the other path is at the same word and can issue, it issues once for both, over the
lanes of both, and both go past it; when the other path still has to come, the issuing path waits.
Model choices: log 22, 23. -/
def Obligations.CrossLaneResults : Prop :=
  (∀ (g : Gen) (s : State) (x : Here),
  let ps := x.exec
  let a (l : Nat) := laneRaw x.wp l g.a
  let b (l : Nat) := laneRaw x.wp l g.b
  let j := missReg g
  let fin (w : Warp) : Host.Outcome State Fault Refusal :=
    .next (retire s x (if j = 0 then w else mset w j (tgetD w.m j 0 &&& ~~~ ps)))
  let alone (i : Instr) (f : CrossForm) : Prop :=
    Runs i s x ∧ memberReg g = 0 ∧ (∀ u ∈ f.uses x.wp ps, lanePoison x.wp false u.1 u.2 = false)
  let on := lanesWhere ps fun l => a l != 0
  let k := reduceOf (numOf g.c) g.ty g.rnd g.sat
  let tree := crossTree k g x.wp ps
  (alone (.vote g) (voteForm g) → g.c = .reg 0 → exec (.vote g) s = fin (sset x.wp g.d.toNat on)) ∧
  (alone (.vote g) (voteForm g) → g.c = .reg 1 →
    exec (.vote g) s = fin (sset x.wp g.d.toNat (BitVec.ofNat 32 (popcount on)))) ∧
  (alone (.vote g) (voteForm g) → g.c = .reg 2 →
    exec (.vote g) s = fin (sset x.wp g.d.toNat (if on = 0 then 0 else 1))) ∧
  (alone (.vote g) (voteForm g) → g.c = .reg 3 →
    exec (.vote g) s = fin (sset x.wp g.d.toNat (if on = ps then 1 else 0))) ∧
  (alone (.vote g) (voteForm g) → g.c = .reg 4 →
    exec (.vote g) s = fin (sset x.wp g.d.toNat
      (if ∀ l ∈ setBits ps, ∀ l' ∈ setBits ps, a l = a l' then 1 else 0))) ∧
  (alone (.shfl g) (shflForm g) → exec (.shfl g) s = fin (writeLanes x.wp g.d.toNat ps fun l =>
    let c := (b l).toNat % 32
    let from' : Option Nat := match numOf g.c with
      | 0 => some c
      | 1 => if c ≤ l then some (l - c) else none
      | 2 => if l + c < 32 then some (l + c) else none
      | _ => some (Nat.xor l c)
    match from' with
    | some q => if ps.getLsbD q then a q else a l
    | none => a l)) ∧
  (alone (.vred g) (vredForm g) → exec (.vred g) s = fin (writeLanes x.wp g.d.toNat ps fun _ =>
    BitVec.ofNat 32 (((tree.getD 5 []).headD none).getD k.none))) ∧
  (alone (.vscan g) (vscanForm g) → exec (.vscan g) s = fin (writeLanes x.wp g.d.toNat ps fun l =>
    BitVec.ofNat 32 (((prefixOf k.node tree (if g.sub.getLsbD 6 then l else l + 1)).getD none).getD k.none))) ∧
  (alone (.matchl g) (matchForm g) → exec (.matchl g) s = fin (writeLanes x.wp g.d.toNat ps fun l =>
    lanesWhere ps fun q => matchKey g.ty (laneBits x.wp g.ty q g.a) == matchKey g.ty (laneBits x.wp g.ty l g.a))) ∧
  (alone (.v2s g) (v2sForm g) → exec (.v2s g) s = fin (sset x.wp g.d.toNat
    (let l := (scaVal x.wp g.b).toNat % 32; if ps.getLsbD l then a l else 0))) ∧
  (alone (.vcompact g) (vcompactForm g) → exec (.vcompact g) s = fin (writeLanes x.wp g.d.toNat ps fun l =>
    let kept := (setBits ps).filter fun q => b q != 0
    match kept[(setBits ps).countP (· < l)]? with
    | some q => a q
    | none => 0)) ∧
  (Runs (.s2v g) s x → exec (.s2v g) s = .next (retire s x
    (let l := (scaVal x.wp g.b).toNat % 32
     if ps.getLsbD l then vset x.wp g.d.toNat l (laneRaw x.wp l g.a) else x.wp)))) ∧
  (∀ (i : Instr) (g : Gen) (f : CrossForm) (s : State) (x : Here),
  crossOf i = some (g, f) → Runs i s x → memberReg g ≠ 0 →
  let j := missReg g
  let other := execOf x.wp (otherSlot x.sl) (predOf x.ws)
  let mark (w : Warp) (ps : W32) (miss : Bool) : Warp :=
    if j = 0 then w else mset w j (maskWrite (tgetD w.m j 0) ps fun _ => miss)
  (x.p.first = false → exec i s = .next (faultAll s x .undef)) ∧
  (x.p.first = true → ∀ miss, crossMode s x g = .alone miss →
    (∀ u ∈ f.uses x.wp x.exec, lanePoison x.wp false u.1 u.2 = false) →
    exec i s = .next (retire s x (mark (f.effect x.wp x.exec) x.exec miss))) ∧
  (x.p.first = true → crossMode s x g = .joint →
    (∀ u ∈ f.uses x.wp (x.exec ||| other), lanePoison x.wp false u.1 u.2 = false) →
    exec i s = .next (setWarp s x.core x.w
      (retireBoth (mark (f.effect x.wp (x.exec ||| other)) (x.exec ||| other) false) x.ws))) ∧
  (x.p.first = true → ∀ lanes, crossMode s x g = .wait lanes →
    exec i s = .next (modWarp s x.core x.w fun w => modPath w x.sl fun p => { p with wait := .cross lanes })))

/-! Memory words. -/

/-- R45, R218, R222: the address of a lane is base plus index plus offset, modulo 2^64.
R88, R222, R223: VLD, VLDX and SLD in a local space complete at once: every lane's register takes the bytes at the
lane's address, read before anything is written, with the poison of the words read.
R88, R222, R223: VST, VSTX and SST in a local space complete at once: each lane's bytes are written at its address,
in ascending order of lanes.
R106, R156, R222: SLDK and a load of constant space read the launch's constant bank, whose bounds they check; they take no
line from before the launch was accepted.
Model choices: log 19, 25, 26. -/
def Obligations.LocalAndConstantAccesses : Prop :=
  (∀ (w : Warp) (m : Mem) (sp : Space) (l : Nat),
  laneAddr w m sp l =
    (((if m.base = 0xFF then (0 : W64)
       else if sp = .global ∨ sp = .const then sget w (m.base.toNat + 1) ++ sget w m.base.toNat
       else (sget w m.base.toNat).zeroExtend 64) +
      (if m.index = 0xFF then 0 else (vget w m.index.toNat l).zeroExtend 64) + m.off.signExtend 64).toNat)) ∧
  (∀ (m : Mem) (s : State) (x : Here),
  let md := modsOf x.co.memdef m.pfx
  let ty := memTy m
  let n := ty.bytes
  let w := if ty.is64 then 2 else 1
  let load (dest : Dest) (ty : Ty) (n : Nat) (ls : List (Nat × Loc)) : Host.Outcome State Fault Refusal :=
    .next (retireNow (ls.foldl (fun t p => modWarp t x.core x.w fun y =>
      putLane y dest ty p.1 (locRead s p.2 n) fun i => locBad s (p.2.at (4 * i)) (min 4 n)) s) x)
  let fine (i : Instr) (n : Nat) (scalar : Bool) (addrs : List (Nat × Nat)) (ls : List (Nat × Loc)) : Prop :=
    MemRuns i .load m s x ∧ isLocal md.space ∧ x.exec ≠ 0 ∧ mayGo s x md = true ∧ (∀ a ∈ addrs, a.2 % n = 0) ∧
    checkLocal s x md.space scalar false n addrs = .ok ls ∧ (∀ p ∈ ls, locBad s p.2 n = false) ∧
    (∀ p ∈ ls, ∀ c v r o, p.2 = .reg c v r o → (v == x.w && x.wp.pend.contains r) = false)
  (∀ ls, fine (.vld m) n false (vecAddrs x m md.space) ls → lanesWhere x.exec (indexPoison x m) = 0 →
    exec (.vld m) s = load (.vec m.data.toNat w) ty n ls) ∧
  (∀ ls, fine (.vldx m) 16 false (vecAddrs x m md.space) ls → lanesWhere x.exec (indexPoison x m) = 0 →
    exec (.vldx m) s = load (.vec m.data.toNat 4) .b32 16 ls) ∧
  (∀ ls, fine (.sld m) n true [(0, laneAddr x.wp m md.space 0)] ls →
    exec (.sld m) s = load (.sca m.data.toNat w) ty n ls)) ∧
  (∀ (m : Mem) (s : State) (x : Here),
  let md := modsOf x.co.memdef m.pfx
  let ty := memTy m
  let d := m.data.toNat
  let store (vec : Bool) (n : Nat) (ty : Ty) (ls : List (Nat × Loc)) : Host.Outcome State Fault Refusal :=
    .next (retireNow (ls.foldl (fun t p => locWrite t p.2 n (storeVal x.wp vec d p.1 n ty)) s) x)
  let fine (i : Instr) (n : Nat) (scalar : Bool) (addrs : List (Nat × Nat)) (ls : List (Nat × Loc)) : Prop :=
    MemRuns i .store m s x ∧ isLocal md.space ∧ x.exec ≠ 0 ∧ mayGo s x md = true ∧ (∀ a ∈ addrs, a.2 % n = 0) ∧
    checkLocal s x md.space scalar true n addrs = .ok ls ∧
    (∀ p ∈ ls, ∀ c v r o, p.2 = .reg c v r o → (v == x.w && x.wp.pend.contains r) = false)
  let clean (n : Nat) : Prop := lanesWhere x.exec (fun l => indexPoison x m l || dataPoison x d n l) = 0
  (∀ ls, fine (.vst m) ty.bytes false (vecAddrs x m md.space) ls → clean ty.bytes →
    exec (.vst m) s = store true ty.bytes ty ls) ∧
  (∀ ls, fine (.vstx m) 16 false (vecAddrs x m md.space) ls → clean 16 →
    exec (.vstx m) s = store true 16 .b32 ls) ∧
  (∀ ls, fine (.sst m) ty.bytes true [(0, laneAddr x.wp m md.space 0)] ls →
    exec (.sst m) s = store false ty.bytes ty ls)) ∧
  (∀ (g : Imm) (m : Mem) (s s' : State) (x : Here) (ls : List GLane) (b : Sub),
  let wide := g.sub == 1
  let n := if wide then 8 else 4
  let a := (if g.a = 0xFF then 0 else (sget x.wp g.a.toNat).toNat) + g.imm.toNat
  let dest : Dest := .sca g.d.toNat (if wide then 2 else 1)
  let mdK : Mods := { ord := .none, scope := .pkg, space := .const, cache := .norm, layer := .none }
  let md := modsOf x.co.memdef m.pfx
  let ty := memTy m
  let launch := x.block.launch
  let addrs := vecAddrs x m .const
  let loads (dest : Dest) (ty : Ty) (md : Mods) (bypass : Bool) : Host.Outcome State Fault Refusal :=
    .next (rush (loadGlobal s' x dest ty md ls none (some launch)) x.core x.w
      ((trapLanes s' x md true bypass ls).map fun p => p.1.pa / 128))
  ((tget s.launches launch).bind fun l => l.subs[x.block.sub]?) = some b →
  (MemRuns (.vld m) .load m s x → md.space = .const → md.ord = .none → x.exec ≠ 0 → mayGo s x md = true →
    lanesWhere x.exec (indexPoison x m) = 0 → (∀ a ∈ addrs, a.2 % ty.bytes = 0 ∧ a.2 + ty.bytes ≤ b.cbsize) →
    checkGlobal s x.core x.ctx x.exec false { r := true } (addrs.map fun a => (a.1, b.cbank + a.2)) = (s', .ok ls) →
    checkRace s' x md true x.prov false ls = .ok ls →
    exec (.vld m) s = loads (.vec m.data.toNat (if ty.is64 then 2 else 1)) ty md x.prov) ∧
  (Runs (.sldk g) s x → memHeld x true = false →
  (a % n ≠ 0 → exec (.sldk g) s = .next (faultAll s x .misalign a)) ∧
  (a % n = 0 → a + n > b.cbsize → exec (.sldk g) s = .next (faultAll s x .prot a)) ∧
  (a % n = 0 → a + n ≤ b.cbsize →
    checkGlobal s x.core x.ctx x.exec true { r := true } [(0, b.cbank + a)] = (s', .ok ls) →
    checkRace s' x mdK true x.prov true ls = .ok ls →
    (∀ y ∈ ls, poisoned (seenPoison s' x x.prov y.line (some launch)) (y.pa % 128) n = false) →
    exec (.sldk g) s = loads dest (if wide then .n64 else .b32) mdK x.prov)) ∧
  (∀ (co : Core) (launch line : Nat) (y : L1Line), l1Find co (some launch) line = some y → y.line = line ∧ y.mark > launch))

/-- R98, R222-R224, R147: VLD, VLDX, SLD and ACQ in global space: lines that the core's L1 holds are delivered, and for
every other line a request goes to the core's port and the destination registers are pending until it is answered; the
lines that the detector checks in trap mode are taken at their homes at once (R123).
Model choices: log 6. -/
def Obligations.GlobalLoadsRequestTheirLines : Prop := ∀ (m : Mem) (s s' : State) (x : Here) (ls : List GLane),
  let md := modsOf x.co.memdef m.pfx
  let ty := memTy m
  let n := ty.bytes
  let w := if ty.is64 then 2 else 1
  let scaAddr := [(0, laneAddr x.wp m .global 0)]
  let obj := objAddr x.wp m
  let mdA : Mods := { md with ord := .acq, space := .global, cache := .norm }
  let home (md : Mods) : Bool := (md.ord == .acq && acqInvalidates (effScope s' x md.scope)) || x.prov
  let fine (i : Instr) (k : MKd) (md : Mods) (n : Nat) (scalar : Bool) (addrs : List (Nat × Nat)) : Prop :=
    MemRuns i k m s x ∧ md.space = .global ∧ x.exec ≠ 0 ∧ mayGo s x md = true ∧ (∀ a ∈ addrs, a.2 % n = 0) ∧
    checkGlobal s x.core x.ctx x.exec scalar { r := true } addrs = (s', .ok ls) ∧
    checkRace s' x md true (home md) scalar ls = .ok ls
  let clean (md : Mods) (n : Nat) : Prop :=
    ∀ g ∈ ls, poisoned (seenPoison s' x (home md) g.line) (g.pa % 128) n = false
  let index := lanesWhere x.exec (indexPoison x m) = 0
  let done (md : Mods) (t : State) : Host.Outcome State Fault Refusal :=
    .next (rush t x.core x.w ((trapLanes s' x md true (home md) ls).map fun p => p.1.pa / 128))
  (fine (.vld m) .load md n false (vecAddrs x m .global) → index →
    exec (.vld m) s = done md (loadGlobal s' x (.vec m.data.toNat w) ty md ls)) ∧
  (fine (.vldx m) .load md 16 false (vecAddrs x m .global) → index →
    exec (.vldx m) s = done md (loadGlobal s' x (.vec m.data.toNat 4) .b32 md ls)) ∧
  (fine (.sld m) .load md n true scaAddr → clean md n →
    exec (.sld m) s = done md (loadGlobal s' x (.sca m.data.toNat w) ty md ls)) ∧
  (fine (.acq m) .obj mdA 8 true [(0, obj)] → clean mdA 8 →
    exec (.acq m) s = done mdA (loadGlobal s' x (.sca m.data.toNat 2) .n64 mdA ls (some (boundLines s' x.ctx obj)))) ∧
  (∀ d t (md : Mods) w, tget (coreOf s' x.core).warps x.w = some w → ls ≠ [] → md.ord = .none → x.prov = true →
    ∃ w', tget (coreOf (loadGlobal s' x d t md ls) x.core).warps x.w = some w' ∧
      (∀ r ∈ destRegs d, w'.pend.contains r = true) ∧ w'.v = w.v ∧ w'.sc = w.sc)

/-- R19, R21, R222: VST, VSTX and SST in global space put one entry a line into the core's write-combining buffer, whose
bytes are the lanes' with a higher lane over a lower one; nothing of memory or of a slice changes until the port and the
home take them.  Lines that the detector checks in trap mode are taken at their homes at once (R123).
Model choices: log 6, 17. -/
def Obligations.GlobalStoresEnterTheBuffer : Prop := ∀ (m : Mem) (s s' : State) (x : Here) (ls : List GLane),
  let md := modsOf x.co.memdef m.pfx
  let ty := memTy m
  let d := m.data.toNat
  let fine (i : Instr) (n : Nat) (scalar : Bool) (addrs : List (Nat × Nat)) : Prop :=
    MemRuns i .store m s x ∧ md.space = .global ∧ x.exec ≠ 0 ∧ mayGo s x md = true ∧ x.prov = false ∧
    x.block.shadow = .none ∧ (∀ a ∈ addrs, a.2 % n = 0) ∧
    checkGlobal s x.core x.ctx x.exec scalar { w := true } addrs = (s', .ok ls) ∧
    checkRace s' x md false true scalar ls = .ok ls
  let clean (n : Nat) : Prop := lanesWhere x.exec (fun l => indexPoison x m l || dataPoison x d n l) = 0
  let put (vec : Bool) (n : Nat) (ty : Ty) : Host.Outcome State Fault Refusal :=
    .next (rush (storeGlobal s' x md n (ls.map fun g => (g, storeVal x.wp vec d g.lane n ty))) x.core x.w
      ((trapLanes s' x md false true ls).map fun p => p.1.pa / 128))
  (fine (.vst m) ty.bytes false (vecAddrs x m .global) → clean ty.bytes → exec (.vst m) s = put true ty.bytes ty) ∧
  (fine (.vstx m) 16 false (vecAddrs x m .global) → clean 16 → exec (.vstx m) s = put true 16 .b32) ∧
  (fine (.sst m) ty.bytes true [(0, laneAddr x.wp m .global 0)] → exec (.sst m) s = put false ty.bytes ty) ∧
  (∀ (md : Mods) n (vs : List (GLane × Nat)),
    let t := storeGlobal s' x md n vs
    t.mem = s'.mem ∧ t.slices = s'.slices ∧ t.ports = s'.ports ∧
    ∃ es, (coreOf t x.core).wc = (coreOf s' x.core).wc ++ es ∧ es.length = (byLine (vs.map (·.1))).length ∧
      ∀ e ∈ es, e.warp = x.w ∧ e.req.core = x.core ∧ ∃ y ∈ vs, e.req.line = y.1.line ∧ e.req.home = y.1.home)

/-- R108, R226-R228: ATOM and ATOMCAS in a local space work lane by lane in ascending order; in global space one request
a line goes to the core's port with the lanes' operands, after the warp's own buffered stores to those lines, and the
L1's copies of them go; lines that the detector checks in trap mode are then taken at their homes at once (R123).  A compare and swap (operation 9) stores its operand only where the old value equals the
comparand.
Model choices: log 6, 16. -/
def Obligations.AtomicsAreDoneLaneByLane : Prop :=
  ∀ (m : Mem) (e : AtomExt) (c : CasExt) (s s' : State) (x : Here) (ls : List (Nat × Loc)) (gs : List GLane),
  let md := modsOf x.co.memdef m.pfx
  let ty := memTy m
  let n := ty.bytes
  let d := m.data.toNat
  let w := if ty.is64 then 2 else 1
  let addrs := vecAddrs x m md.space
  let dest (ret : BitVec 8) : Dest := if ret = 0xFF then .none else .vec ret.toNat w
  let fine (i : Instr) : Prop :=
    MemRuns i .atom m s x ∧ x.exec ≠ 0 ∧ mayGo s x md = true ∧ (∀ a ∈ addrs, a.2 % n = 0)
  let clean (more : Nat → Bool) : Prop :=
    lanesWhere x.exec (fun l => indexPoison x m l || dataPoison x d n l || more l) = 0
  let here (i : Instr) : Prop :=
    fine i ∧ (md.space = .scratch ∨ md.space = .cshared) ∧ checkLocal s x md.space false true n addrs = .ok ls
  let there (i : Instr) : Prop :=
    fine i ∧ md.space = .global ∧ x.prov = false ∧
    checkGlobal s x.core x.ctx x.exec false { r := true, w := true, atomic := true } addrs = (s', .ok gs) ∧
    checkRace s' x md false true false gs = .ok gs
  let sent (ret : BitVec 8) (t : State) : Prop :=
    ∃ o ∈ (coreOf t x.core).ops, o.warp = x.w ∧ o.dest = dest ret ∧ o.left = (byLine gs).length ∧
      ∀ g ∈ gs, ∃ r ∈ tgetD t.ports (portOf x.core) [], r.op = o.id ∧ r.line = g.line ∧ r.warp = x.w ∧
        r.lanes.any (fun l => l.lane == g.lane) = true
  let done (t : State) : Host.Outcome State Fault Refusal :=
    .next (rush t x.core x.w ((trapLanes s' x md false true gs).map fun p => p.1.pa / 128))
  let opnd (l : Nat) := storeVal x.wp true d l n ty
  let cas (l : Nat) := storeVal x.wp true c.cmp.toNat l n ty
  (here (.atom m e) → clean (fun _ => false) → exec (.atom m e) s =
    .next (retireNow (localAtoms s x (dest e.ret) e.op.toNat ty e.rnd
      (ls.map fun p => (p.1, p.2, (tget addrs p.1).getD 0, opnd p.1, 0))) x)) ∧
  (here (.atomcas m c) → clean (fun l => dataPoison x c.cmp.toNat n l) → exec (.atomcas m c) s =
    .next (retireNow (localAtoms s x (dest c.ret) 9 ty .rn
      (ls.map fun p => (p.1, p.2, (tget addrs p.1).getD 0, opnd p.1, cas p.1))) x)) ∧
  (there (.atom m e) → clean (fun _ => false) → ∃ t, exec (.atom m e) s = done t ∧ sent e.ret t) ∧
  (there (.atomcas m c) → clean (fun l => dataPoison x c.cmp.toNat n l) →
    ∃ t, exec (.atomcas m c) s = done t ∧ sent c.ret t) ∧
  (∀ old v cmp, atomNew 9 ty .rn old v cmp = if old = cmp then some v else none)

/-- R229, R230: MWAIT reads its operands and its comparand once, makes its registers pending, waits at its word and is
tested at once.  A test whose word meets the condition, or that comes at the deadline or later, ends the wait: the value
read and, per executing lane, whether the condition held are written, an older copy of the line leaves the L1, all of
them after an acquire wider than a block, and the path goes on; another test leaves it waiting.
Model choices: log 15, 44. -/
def Obligations.MemoryWaitTestsAndEnds : Prop :=
  ∀ (m : Mem) (e : MwExt) (s s' : State) (x : Here) (ls : List GLane) (k deadline : Nat) (o : MemOp),
  let ty := memTy m
  let n := ty.bytes
  let md := modsOf x.co.memdef m.pfx
  let va := objAddr x.wp m
  let dest : Dest := .mwait m.data.toNat (if ty.is64 then 2 else 1) e.m.toNat
  (MemRuns (.mwait m e) .mwait m s x → x.exec ≠ 0 → mayGo s x md = true → x.prov = false → isShadow x.block = false →
    va % n = 0 → checkGlobal s x.core x.ctx x.exec true { r := true } [(0, va)] = (s', .ok ls) →
    exec (.mwait m e) s = .next (mwaitTest (waitAt
      (modWarp (newOp s' x.core { id := 0, warp := x.w, slot := x.sl, dest := dest, ty := ty, left := 1,
                                  cmp := if n = 8 then sget64 x.wp e.cmp.toNat else (sget x.wp e.cmp.toNat).zeroExtend 64,
                                  vas := [(0, va)], holds := md.layer == .lhold || md.layer == .lboth,
                                  acq := isAcq md.ord, lanes := x.exec,
                                  invalAll := isAcq md.ord && acqInvalidates (effScope s' x md.scope) }).1
        x.core x.w fun w => addPend w dest)
      x (.mwait (s'.clock + (sget x.wp e.tmo.toNat).toNat))) x.core x.w x.sl)) ∧
  (let wva := laneVa o 0
   let line := (groupHead ls).pa / 128
   let t := dropAnswer s' line (mwaitWho x.core o.id)
   hereAt s x.core x.w x.sl = some x → x.p.wait = .mwait deadline → decode x.ws = .ok (.mwait m e, k) →
    (x.co.ops.find? fun o => o.warp == x.w && o.slot == x.sl && isMwait o) = some o →
    checkGlobal s x.core x.ctx o.lanes true { r := true } [(0, wva)] = (s', .ok ls) →
    ((allReqs s' x.core x.w).any fun r => r.line == line && (isStore r || r.op < o.id)) = false →
    unbacked s' line = false → answerTo s' line (mwaitWho x.core o.id) = none →
    usable s' line false (some (groupHead ls).home) = true → poisoned (peekLine s' line).2 (wva % 128) n = false →
    let v := lineField (peekLine s' line).1 (wva % 128) n
    let met := condTy ty e.cond.toNat v o.cmp.toNat
    (met = false → s'.clock < deadline → mwaitTest s x.core x.w x.sl = t) ∧
    (met = true ∨ deadline ≤ s'.clock →
      mwaitTest s x.core x.w x.sl = modWarp (modCore (modWarp (dropMwait t x.core x.w x.sl dest) x.core x.w fun y =>
        let y := putLane y dest ty 0 v fun _ => false
        mset y e.m.toNat (maskWrite (mget y x.sl e.m.toNat) o.lanes fun _ => met)) x.core fun co =>
        if o.invalAll then { co with l1 := [] } else l1DropLine co line) x.core x.w fun y => retireW y x.sl x.ws))

/-- R94, R96, R97, R99, R231: FENCE of a layer that a warp's global accesses belong to goes on, as a release once its loads are
done and its stores performed at the scope, as an acquire once its loads are done, when the L1 drops every line at a
scope of the die or wider; a fence of a layer it does not reach just goes on.
R102, R232, R237: REL without crust to push, once its bound regions are done, sends the register pair to the object
word as a write of eight bytes and advances the object's epoch; a shadow block's does not reach memory (R422).
Model choices: log 6, 16. -/
def Obligations.FencesAndReleasesWait : Prop :=
  (∀ (m : Mem) (s : State) (x : Here),
  MemRuns (.fence m) .fence m s x →
  let md := modsOf x.co.memdef m.pfx
  let base := md.layer != .none || baseLayer md.space
  let sc := effScope s x md.scope
  memHeld x base = false → (x.prov && md.scope == .sys) = false →
  (base = false → exec (.fence m) s = .next (retireNow s x)) ∧
  (base = true → md.ord = .rel → loadsDone x.co x.w = true → storesDone s x.core x.w sc = true →
    exec (.fence m) s = .next (retireNow (advanceEpoch s x.ctx sc) x)) ∧
  (base = true → md.ord = .acq → loadsDone x.co x.w = true →
    ∃ t, exec (.fence m) s = .next t ∧
      (sc = .die ∨ sc = .pkg ∨ sc = .sys → (coreOf t x.core).l1 = []) ∧
      (sc = .lane ∨ sc = .block → (coreOf t x.core).l1 = (coreOf s x.core).l1))) ∧
  (∀ (m : Mem) (s s' : State) (x : Here) (ls : List GLane),
  let va := objAddr x.wp m
  let md : Mods := { modsOf x.co.memdef m.pfx with ord := .rel, space := .global, cache := .norm }
  let g := groupHead ls
  let v := (sget64 x.wp m.data.toNat).toNat
  MemRuns (.rel m) .obj m s x → x.exec ≠ 0 → memHeld x true = false → lwaitOk s x md = true → x.prov = false →
  va % 8 = 0 → checkGlobal s x.core x.ctx x.exec true { w := true } [(0, va)] = (s', .ok ls) →
  checkRace s' x md false true true ls = .ok ls → relReady s' x (effScope s' x md.scope) va = true →
  crustPushes s' x va = [] → x.block.shadow = .none → x.tag = none → ls = [g] → g.va = va →
  ∃ t, exec (.rel m) s =
      .next (rush t x.core x.w ((trapLanes s' x md false true ls).map fun p => p.1.pa / 128)) ∧
    (∃ r ∈ tgetD t.ports (portOf x.core) [], r.core = x.core ∧ r.warp = x.w ∧ r.line = g.line ∧ r.home = g.home ∧
      r.act = .write (fieldLine (g.pa % 128) 8 v) (fieldMask (g.pa % 128) 8) 0) ∧
    (∀ c, tget s'.contexts x.ctx = some c → ∃ c', tget t.contexts x.ctx = some c' ∧
      tgetD c'.objEpochs va 0 = tgetD c.objEpochs va 0 + 1))

/-- R100, R233-R235: BIND adds or renews a binding of its context, UNBIND takes away every binding and crust claim of an
object, and BINDT with nothing to fetch adds its claim to the block beside the binding.
Model choices: log 49. -/
def Obligations.BindingsComeAndGo : Prop := ∀ (m : Mem) (s : State) (x : Here),
  let d := m.data.toNat
  let obj := objAddr x.wp m
  let base := (sget64 x.wp d).toNat
  let lines := (sget x.wp (d + 2)).toNat
  let flags := sget x.wp (d + 3)
  let bs := (ctxOf s x.ctx).bindings
  let same (b : Binding) : Bool := b.obj == obj && b.base == base && b.lines == lines && !b.bindt
  let b : Binding := { obj := obj, base := base, lines := lines, race := flags.getLsbD 0, trap := flags.getLsbD 1 }
  let ready (i : Instr) : Prop :=
    MemRuns i .bare m s x ∧ x.exec ≠ 0 ∧ memHeld x true = false ∧ obj % 8 = 0 ∧ (tget s.contexts x.ctx).isSome = true
  (ready (.bind m) → base % 128 = 0 → lines ≠ 0 → flags.toNat < 4 → bs.any same = true ∨ bs.length < 64 →
    ∃ t, exec (.bind m) s = .next t ∧ b ∈ (ctxOf t x.ctx).bindings ∧
      (∀ y ∈ bs, same y = false → y ∈ (ctxOf t x.ctx).bindings)) ∧
  (ready (.bind m) → base % 128 = 0 → lines = 0 ∨ flags.toNat ≥ 4 ∨ (bs.any same = false ∧ bs.length ≥ 64) →
    exec (.bind m) s = .next (faultAll s x .prot obj)) ∧
  (ready (.unbind m) → ∃ t, exec (.unbind m) s = .next t ∧
    (ctxOf t x.ctx).bindings = bs.filter fun y => y.obj != obj) ∧
  (∀ s' ls h c, ready (.bindt m) → base % 64 = 0 →
    checkGlobal s x.core x.ctx x.exec true { r := true } [(0, base)] = (s', .ok ls) →
    let g := groupHead ls
    let r := leBytes 64 (lineField (peekLine s' (g.pa / 128)).1 (g.pa % 128) 64)
    refused s' (g.pa / 128) (wordWho x 0) = false → answerTo s' (g.pa / 128) (wordWho x 0) = none →
    usable s' (g.pa / 128) false (some g.home) = true →
    poisoned (peekLine s' (g.pa / 128)).2 (g.pa % 128) 64 = false → recOk r = true →
    lines < recTiles r → claimsOn s' x.ctx obj = [] → crewAt s' x.ctx (BitVec.ofNat 32 (recField r 0x24 2)) = some (h, c) →
    (x.co.warps.any fun p => p.2.block == x.wp.block && isMember p.2 h) = true →
    replicaLen r = 0 → flags = 0 → bs = [] → (ctxOf s' x.ctx).bindings = [] →
    ((List.range 6).flatMap fun f =>
      if faceOn r f && (tileNext r lines f).isSome then stripRows r lines f else []) = [] →
    ∃ t, exec (.bindt m) s = .next t ∧
      ∀ y, tget (coreOf s' x.core).blocks x.wp.block = some y → ∃ y', tget (coreOf t x.core).blocks x.wp.block = some y' ∧
        ({ obj := obj, record := r, tile := lines } : Claim) ∈ y'.claims)

/-- R238-R240: CINV and CWB over a readable range with none of its lines in a transient entry or in a request of the
warp, and with no line of another package: CWB leaves the ways of the range clean, CINV leaves none; a CINV that would
lose changed data, off a page that allows it, traps PROT.  CPREF only asks for lines, and an address off a line asks for
none.
Model choices: log 16, 43. -/
def Obligations.RangeMaintenance : Prop := ∀ (m : Mem) (s s' : State) (x : Here) (ls : List GLane),
  let a := objAddr x.wp m
  let lines := (sget x.wp m.data.toNat).toNat
  let sp := rangeSpans a (128 * lines) ls
  let inside (l : Nat) : Bool := (spanOf sp l).isSome
  let ways (t : State) := rangeWays t sp
  let ready (i : Instr) : Prop :=
    MemRuns i .bare m s x ∧ x.exec ≠ 0 ∧ memHeld x true = false ∧ x.prov = false ∧ a % 128 = 0
  let calm : Prop :=
    lines ≠ 0 ∧ checkGlobal s x.core x.ctx x.exec true {} (rangePages a (128 * lines)) = (s', .ok ls) ∧
    ((allReqs s' x.core x.w).any fun r => inside r.line) = false ∧
    (s'.slices.any fun p => p.2.entries.any fun e => inside e.line) = false ∧ (∀ t ∈ ways s', t.2.2.1.held = none)
  (ready (.cinv m) → lines = 0 → exec (.cinv m) s = .next (retireNow s x)) ∧
  (ready (.cwb m) → lines = 0 → exec (.cwb m) s = .next (retireNow s x)) ∧
  (ready (.cinv m) → calm → (∀ t ∈ ways s', t.2.2.1.dirty = 0) →
    exec (.cinv m) s = .next (retireNow (modCore
      ((ways s').foldl (fun s t => dropWay s t.1 t.2.1 t.2.2.1) s') x.core
      fun co => { co with l1 := co.l1.filter fun y => !inside y.line }) x)) ∧
  (ready (.cinv m) → calm → (∃ t ∈ ways s', t.2.2.1.dirty ≠ 0 ∧ t.2.2.2.2.getLsbD 51 = false) →
    ∃ v, exec (.cinv m) s = .next (faultAll s' x .prot v)) ∧
  (ready (.cwb m) → m.ty = 0 → calm → ∃ r, exec (.cwb m) s = .next (retireNow ((ways s').foldl (cleanWay r) s') x)) ∧
  (∀ (r : Req) (t : State) h k (w : Way) v leaf, w.held = none →
    (w.dirty = 0 → cleanWay r t (h, k, w, v, leaf) = t) ∧
    (w.dirty ≠ 0 → cleanWay r t (h, k, w, v, leaf) =
      setWay (dramStore t w.line w.data (w.dirty &&& w.valid) w.poison) h k { w with dirty := 0 })) ∧
  (MemRuns (.cpref m) .pref m s x → x.exec ≠ 0 → memHeld x true = false → a % 128 ≠ 0 ∨ lines = 0 →
    exec (.cpref m) s = .next (retireNow s x)) ∧
  (MemRuns (.cpref m) .pref m s x → x.exec ≠ 0 → memHeld x true = false → a % 128 = 0 → lines = 1 →
    checkGlobal s x.core x.ctx x.exec true { r := true } [(0, a)] = (s', .ok ls) → ls ≠ [] →
    ∃ t, exec (.cpref m) s = .next t ∧ ∃ r ∈ tgetD t.ports (portOf x.core) [], r.line = (groupHead ls).line ∧ r.op = 0)

/-- R241: ALLOC of no bytes, of more than a mebibyte, or without an arena answers 0; with its header here it takes the
head of its size class's list, or else the arena's next aligned block, and writes the block's address; FREE puts a block
at the head of its class's list.  Both wait for the warp's own accesses to those lines (R90), and the detector checks and
records each word they write as an atomic's (R122).
R242: FREE on a poisoned list head changes nothing but POISONAT.
Model choices: log 16, 120.  -/
def Obligations.ArenaAllocatesAndFrees : Prop := ∀ (m : Mem) (s s' : State) (x : Here) (hs ps : List GLane),
  let size := ((if m.base = 0xFF then (0 : W64) else (sget x.wp m.base.toNat).zeroExtend 64) + m.off.signExtend 64).toNat
  let hv := arenaOf s x
  let g := groupHead hs
  let put (t : State) (y : GLane) (v : Nat) : State :=
    homeWriteBytes (noteWrite t x plainMods y 8 2) (ctxOf t x.ctx).part y.pa (leBytes 8 v) (some y.home)
  let own (t : State) (ls : List Nat) : Bool := (allReqs t x.core x.w).any fun r => ls.contains r.line
  let word (y : GLane) (off : Nat) : GLane := { y with va := y.va + off, pa := y.pa + off }
  let need : Need := { r := true, w := true, atomic := true }
  let p := objAddr x.wp m
  let fsize := (sget x.wp m.data.toNat).toNat
  let at' (c : Nat) := g.pa + 16 + 8 * c
  (MemRuns (.alloc m) .bare m s x → x.exec ≠ 0 → memHeld x true = false → hv = 0 ∨ size = 0 ∨ size > 1048576 →
    exec (.alloc m) s = .next (retireNow (modWarp s x.core x.w fun w => sset64 w m.data.toNat 0) x)) ∧
  (MemRuns (.alloc m) .bare m s x → x.exec ≠ 0 → memHeld x true = false → hv ≠ 0 → size ≠ 0 → size ≤ 1048576 →
    checkGlobal s x.core x.ctx x.exec true need [(0, hv)] = (s', .ok hs) →
    own s' [g.pa / 128] = false → usable s' (g.pa / 128) true (some g.home) = true →
    (∀ k, k < 3 → Unanswered s' (wordWho x k)) → unbacked s' (g.pa / 128) = false →
    (peekLine s' (g.pa / 128)).2 = 0 → x.prov = false → x.block.shadow = .none → peek64 s' (at' (sizeClass size)) = 0 →
    let c := sizeClass size
    let q := alignUp (peek64 s' g.pa) (2 ^ (7 + c))
    (q + 2 ^ (7 + c) ≤ peek64 s' (g.pa + 8) →
      checkRace s' x plainMods false true true [word g 0] = .ok [word g 0] →
      exec (.alloc m) s = .next (retireNow (modWarp (modCore (put s' (word g 0) (q + 2 ^ (7 + c)))
        x.core fun co => l1DropLine co (g.pa / 128)) x.core x.w fun w => sset64 w m.data.toNat (BitVec.ofNat 64 q)) x)) ∧
    (q + 2 ^ (7 + c) > peek64 s' (g.pa + 8) →
      exec (.alloc m) s = .next (retireNow (modWarp (modCore s' x.core fun co => l1DropLine co (g.pa / 128)) x.core x.w
        fun w => sset64 w m.data.toNat 0) x))) ∧
  (∀ s'', MemRuns (.free m) .bare m s x → x.exec ≠ 0 → memHeld x true = false → x.prov = false → fsize ≠ 0 →
    fsize ≤ 1048576 → hv ≠ 0 →
    let c := sizeClass fsize
    let q := groupHead ps
    p % 2 ^ (7 + c) = 0 → checkGlobal s x.core x.ctx x.exec true need [(0, hv)] = (s', .ok hs) →
    Writable s' (wordWho x 0) (g.pa / 128) g.home → hv + 128 ≤ p → p < peek64 s' (g.pa + 8) →
    checkGlobal s' x.core x.ctx x.exec true { w := true } [(0, p)] = (s'', .ok ps) →
    own s'' [q.pa / 128, g.pa / 128] = false → Writable s'' (wordWho x 1) (q.pa / 128) q.home →
    let h := word g (16 + 8 * c)
    let bad := poisoned (peekLine s'' (g.pa / 128)).2 (h.pa % 128) 8
    (bad = true → exec (.free m) s = .next (retireNow (modWarp s'' x.core x.w fun w => notePoison w h.va) x)) ∧
    (bad = false → checkRace s'' x plainMods false true true [h, q] = .ok [h, q] → x.block.shadow = .none →
      exec (.free m) s = .next (retireNow (modCore (put (put s'' q (peek64 s'' (at' c))) h p)
        x.core fun co => l1DropLine (l1DropLine co (g.pa / 128)) (q.pa / 128)) x)))

/-! Crew words. -/

/-- R250, R254, R256-R260: the crew words on a crew whose phase state the issuing core keeps: what join, leave, arrive and
wait do to its record, what CRARRIVE and CRQUERY write, and the reasons of CREW traps.  An arrival with .pub does so once
the warp's earlier accesses and copies are done; a completion with .pub is an acquire at the scope that crew scope stood for when the
word issued.
Model choices: log 24. -/
def Obligations.CrewWordsChangeTheirCrew : Prop := ∀ (w : Crw) (s : State) (x : Here) (h : Nat) (c : Crew),
  let at' (i : Instr) : Prop := Runs i s x ∧ isShadow x.block = false ∧ (i ≠ .crarrive w → x.last = true)
  let ready (i : Instr) : Prop :=
    at' i ∧ crewAt s x.ctx (sget x.wp w.h.toNat) = some (h, c) ∧ c.remote = false ∧ c.broken = false
  let member : Prop := ∃ j, crewNext x.wp h = some (c.phase, j)
  let arrives (i : Instr) : Prop :=
    ready i ∧ member ∧ bothSlots x.wp = false ∧ (pubOf w = true → pubReady s x (effScope s x .crew) = true)
  let warpIn (t : State) (p : Warp → Prop) : Prop := ∃ y, tget (coreOf t x.core).warps x.w = some y ∧ p y
  let over' : Crew :=
    { c with phase := (c.phase + 1) % 2 ^ 32, arrived := 0, members := c.members + c.joins, joins := 0, pub := false }
  let arrived' : Crew := { c with arrived := c.arrived + 1, pub := c.pub || pubOf w }
  let wide : Option Bool := if pubOf w then some (acqInvalidates (effScope s x .crew)) else none
  let trap (i : Instr) (reason : Nat) : Prop := exec i s = .next (crewTrap s x (BitVec.ofNat 32 h) reason)
  let d := ((BitVec.ofNat 32 c.phase : W32) - sget x.wp w.b.toNat).toNat
  (ready (.crjoin w) → c.core = x.core → c.share = false → isMember x.wp h = false → x.wp.crews.length < 8 → x.prov = false →
    ∃ t, exec (.crjoin w) s = .next t ∧ warpIn t (fun y => isMember y h = true) ∧
      crewOf t h = some (if c.arrived = 0 then { c with members := c.members + 1 } else { c with joins := c.joins + 1 })) ∧
  (ready (.crjoin w) → c.core = x.core → isMember x.wp h = false → x.wp.crews.length ≥ 8 → trap (.crjoin w) 5) ∧
  (ready (.crleave w) → c.share = false → member → c.phase < 2 ^ 32 →
    c.arrived ≠ c.members - 1 →
    ∃ t, exec (.crleave w) s = .next t ∧ crewOf t h = some { c with members := c.members - 1 } ∧
      warpIn t fun y => isMember y h = false) ∧
  (ready (.crleave w) → isMember x.wp h = false → trap (.crleave w) 3) ∧
  (arrives (.crarrive w) → c.arrived + 1 ≠ c.members →
    ∃ t, exec (.crarrive w) s = .next t ∧ crewOf t h = some arrived' ∧
      warpIn t fun y => sget y w.d.toNat = BitVec.ofNat 32 c.phase) ∧
  (arrives (.crarrive w) → c.arrived + 1 = c.members →
    ∃ t, exec (.crarrive w) s = .next t ∧ crewOf t h = some over' ∧
      warpIn t fun y => sget y w.d.toNat = BitVec.ofNat 32 c.phase) ∧
  (arrives (.crsync w) → c.arrived + 1 ≠ c.members →
    ∃ t, exec (.crsync w) s = .next t ∧ crewOf t h = some arrived' ∧
      warpIn t fun y => (pathOf y x.sl).wait = .crew h c.phase wide true) ∧
  (arrives (.crsync w) → c.arrived + 1 = c.members → c.phase < 2 ^ 32 →
    ∃ t, exec (.crsync w) s = .next t ∧ crewOf t h = some over' ∧ warpIn t fun y => (pathOf y x.sl).wait = .none) ∧
  (ready (.crwait w) → d = 0 → ∃ t, exec (.crwait w) s = .next t ∧
    warpIn t fun y => (pathOf y x.sl).wait = .crew h c.phase wide false) ∧
  (ready (.crwait w) → 0 < d → d < 2 ^ 31 →
    exec (.crwait w) s = .next (retireNow (if wide = some true then modCore s x.core fun co => { co with l1 := [] } else s) x)) ∧
  (ready (.crwait w) → d ≥ 2 ^ 31 → trap (.crwait w) 7) ∧
  (∀ i ∈ [Instr.crjoin w, .crleave w, .crsync w, .crarrive w, .crwait w, .crmap w], at' i →
    crewAt s x.ctx (sget x.wp w.h.toNat) = none → exec i s = .next (crewTrap s x (sget x.wp w.h.toNat) 1)) ∧
  (Runs (.crquery w) s x → isShadow x.block = false → ∃ v, exec (.crquery w) s = .next (retire s x (sset x.wp w.d.toNat v)) ∧
    (crewAt s x.ctx (sget x.wp w.h.toNat) = none → v = 0xFFFFFFFF) ∧
    (crewAt s x.ctx (sget x.wp w.h.toNat) = some (h, c) →
      (w.opt = 0 → v = BitVec.ofNat 32 c.members) ∧ (w.opt = 1 → v = BitVec.ofNat 32 c.phase) ∧
      (w.opt = 2 → v = BitVec.ofNat 32 c.arrived)))

/-- R247, R255: CRNEW puts a new crew of the one warp, or with .share of every launched warp of the block, into the lowest
record of its chiplet never used and writes its handle; with eight crews already it writes 0 and makes none.
Model choices: log 45. -/
def Obligations.NewCrewTakesFreshRecord : Prop := ∀ (w : Crw) (s : State) (x : Here) (b : Block), Runs (.crnew w) s x →
  let u := chipletOf x.core
  let h := 8192 * u + (unitOf s u).fresh
  let team := launched x.co x.wp.block
  (x.wp.crews.length ≥ 8 → exec (.crnew w) s = .next (retire s x (sset x.wp w.d.toNat 0))) ∧
  (w.opt = 1 → x.wp.crews.length < 8 → (unitOf s u).fresh ≤ 8191 → (∀ p ∈ team, p.2.crews.length < 8) →
    tget x.co.blocks x.wp.block = some b → b.share = none →
    ∃ t c y, exec (.crnew w) s = .next t ∧ crewOf t h = some c ∧ c.ctx = x.ctx ∧ c.members = team.length ∧
      c.arrived = 0 ∧ c.phase = 0 ∧ c.broken = false ∧ c.share = true ∧ c.remote = true ∧
      c.cluster = clusterOf x.core ∧ c.maps = [(0, x.core, x.wp.block)] ∧
      tget (coreOf t x.core).blocks x.wp.block = some { b with share := some (h, 0) } ∧
      tget (coreOf t x.core).warps x.w = some y ∧ sget y w.d.toNat = BitVec.ofNat 32 h) ∧
  (w.opt = 0 → x.wp.crews.length < 8 → (unitOf s u).fresh ≤ 8191 →
    ∃ t c y, exec (.crnew w) s = .next t ∧ crewOf t h = some c ∧ c.ctx = x.ctx ∧ c.members = 1 ∧ c.arrived = 0 ∧
      c.phase = 0 ∧ c.broken = false ∧ c.share = false ∧ c.remote = decide (localCrews s x.core ≥ 16) ∧
      (unitOf t u).fresh = (unitOf s u).fresh + 1 ∧ tget (coreOf t x.core).warps x.w = some y ∧
      sget y w.d.toNat = BitVec.ofNat 32 h ∧
      ((∀ p ∈ x.wp.crews, p.1 ≠ h) → crewNext y h = some (0, false)))

/-- R249, R263, R423: a crew word on a crew whose barrier is remote sends a message to its home unit and waits; the unit
handles the oldest message by the word it belongs to and sends the answer to the core, and the answer's arrival
completes the word, or traps CREW with the reason it carries.  The message of an arrival with .pub names the scope of its
release while that has not finished, and goes back to the unit's input until it has.
R265: losing a crew's record breaks the crew; a path that waits for it traps CREW with reason 2.
Model choices: log 3, 48. -/
def Obligations.RemoteCrewWordsGoByMessage : Prop :=
  (∀ (w : Crw) (s : State) (x : Here) (h : Nat) (c : Crew),
  (∀ i ∈ [Instr.crjoin w, .crleave w, .crsync w, .crarrive w, .crwait w, .crmap w],
    Runs i s x → (i ≠ .crarrive w → x.last = true) → isShadow x.block = false →
    crewAt s x.ctx (sget x.wp w.h.toNat) = some (h, c) → c.remote = true →
    let sc := effScope s x .crew
    let late : Prop := (i = .crsync w ∨ i = .crarrive w) ∧ pubOf w = true ∧ pubReady s x sc = false
    ∃ t y p, exec i s = .next t ∧ (unitOf t (h / 8192)).inbox = (unitOf s (h / 8192)).inbox ++ [p] ∧
      p.handle = h ∧ p.core = x.core ∧ p.warp = x.w ∧ p.slot = x.sl ∧
      (late → p.rel = some sc) ∧ (¬ late → p.rel = none) ∧
      tget (coreOf t x.core).warps x.w = some y ∧ (pathOf y x.sl).wait = .answer ∧ (pathOf y x.sl).pc = x.p.pc) ∧
  (∀ (u : Nat) (p : BPost) (rest : List BPost) (i : Instr) (k : Nat) (f : CrewForm) (s₂ : State) (wr : Option W32),
    let s₀ := modUnit s u fun b => { b with inbox := rest }
    let s₁ := match p.rel with | some sc => advanceEpoch s₀ x.ctx sc | none => s₀
    u < 8 → (unitOf s u).inbox = p :: rest → p.core < 1024 → hereAt s₀ p.core p.warp p.slot = some x → x.p.wait = .answer →
    (∀ sc, p.rel = some sc → pubReady s₀ x sc = false →
      exec (.barrierMessage u) s = .next (modUnit s₀ u fun b => { b with inbox := b.inbox ++ [p] })) ∧
    ((∀ sc, p.rel = some sc → pubReady s₀ x sc = true) → crewAt s₁ x.ctx (BitVec.ofNat 32 p.handle) = some (h, c) →
    decode x.ws = .ok (i, k) → crewForm x.wp i = some f →
    (f.act s₁ x h c = .done s₂ wr → exec (.barrierMessage u) s = .next (answer s₂ p.core
      { warp := p.warp, slot := p.slot, handle := h, acq := if f.acq then some p.wide else none,
        wr := f.d.bind fun d => wr.map fun v => (d.toNat, v) })) ∧
    (∀ r, f.act s₁ x h c = .trap r → exec (.barrierMessage u) s = .next (answer s₁ p.core
      { warp := p.warp, slot := p.slot, handle := h, reason := some r })))) ∧
  (∀ core r rest, core < 1024 → tgetD s.releases core [] = r :: rest → hereAt s core r.warp r.slot = some x →
    let pop (t : State) : State := { t with releases := tput [] t.releases core rest }
    (∀ k ph a b, x.p.wait = .crew k ph a b →
      exec (.barrierRelease core) s = .next (resumeCrew (pop s) core r.warp r.slot)) ∧
    (∀ i k, x.p.wait = .answer → r.reason = none → decode x.ws = .ok (i, k) → (crewForm x.wp i).isSome = true →
      (∀ y, hereAt (crewDone s x r.wr r.acq) core r.warp r.slot = some y → y.p.wait ≠ .answer) →
      exec (.barrierRelease core) s = .next (pop (crewDone s x r.wr r.acq)))) ∧
  (∀ i, c.share = true → c.broken = false → c.cluster = clusterOf x.core → x.block.share = none → x.prov = false →
    (∀ p ∈ launched x.co x.wp.block, isMember p.2 h = true) → crewOf s h = some c →
    lowest (fun i => !c.maps.any fun m => m.1 == i) 16 = some i →
    ∃ t, mapAct s x h c = .done t (some (BitVec.ofNat 32 i)) ∧
      crewOf t h = some { c with maps := c.maps ++ [(i, x.core, x.wp.block)] })) ∧
  (∀ (s : State) (h : Nat) (c : Crew),
  let waiting := (warpsOf s).flatMap fun p => [Slot.a, .b].filterMap fun sl =>
    match (pathOf p.2.2 sl).wait with
    | .crew k _ _ _ => if k = h then some (p.1, p.2.1, sl) else none
    | _ => none
  h < 65536 → crewOf s h = some c →
  (waiting = [] → ∃ t, exec (.crewRecordError h) s = .next t ∧ crewOf t h = some { c with broken := true } ∧
    t.cores = s.cores) ∧
  (∀ k w sl x, waiting = [(k, w, sl)] → hereAt s k w sl = some x →
    exec (.crewRecordError h) s =
      .next (crewTrap (modCrew s h fun c => { c with broken := true }) x (BitVec.ofNat 32 h) 2)))

/-! Copy words and engines. -/

/-- R273-R275, R279: BCOPY and BCOPYC with well-formed descriptors and room make a copy of the named rows, or with a crew
join one that still gathers; it is ready once every member has supplied its slice, at the engine of the lowest member's
cluster.  The token register is pending until it is complete, and nothing is moved yet.  A malformed descriptor traps
TDESC.
R32, R284: without room on its core or its engine the word waits at issue and counts as an engine push.
Model choices: log 24. -/
def Obligations.CopyWordsSupplyCopies : Prop := ∀ (w : Cpy) (s : State) (x : Here),
  let reg (n : BitVec 8) : List Byte := (List.range 8).flatMap fun i => leBytes 4 (sget x.wp (n.toNat + i)).toNat
  let src := descOf (reg w.sd)
  let dst := descOf (reg w.dd)
  let first := if w.sl = 0xFF then 0 else (sget x.wp w.sl.toNat).toNat
  let count := if w.sl = 0xFF then src.rows else (sget x.wp (w.sl.toNat + 1)).toNat
  let st := (sget64 x.wp w.sta.toNat).toNat
  let starts (i : Instr) : Prop := Runs i s x ∧ memHeld x true = false ∧ releaseReady s x .pkg = true
  let goes (i : Instr) : Prop := starts i ∧ w.mem = false
  let plain : Prop := w.sta ≠ 0xFF → st % 8 = 0 ∧ st < 2 ^ 48
  let warps := (warpsOf s).filterMap fun p => if isMember p.2.2 (sget x.wp w.h.toNat).toNat then some (p.1, p.2.1) else none
  let low := clusterOf (warps.foldl (fun a m => min a m.1) x.core)
  let a₁ := (sget64 x.wp w.sd.toNat).toNat
  let a₂ := (sget64 x.wp w.dd.toNat).toNat
  let formed : Prop :=
    descBad (reg w.sd) false = false ∧ descBad (reg w.dd) true = false ∧ descDiffer src dst = false ∧
    first + count ≤ src.rows ∧ allocFail s x src false = none ∧ allocFail s x dst true = none ∧ x.prov = false
  let fits : Prop := formed ∧ coreCopies s x.core x.ctx < 64
  let made (i : Instr) (cond : Bool) : Prop := ∃ t c y, exec i s = .next t ∧ tget t.copies s.nextCopy = some c ∧
    c.st = .ready ∧ c.cond = cond ∧ c.engine = clusterOf x.core ∧ c.members = [] ∧ c.ctx = x.ctx ∧
    (∃ l, c.slices = [l] ∧ l.core = x.core ∧ l.warp = x.w ∧ l.src = src ∧ l.dst = dst ∧ l.firstRow = first ∧
      l.count = count ∧ l.tok = (if w.tok = 0xFF then none else some w.tok.toNat)) ∧
    tget (coreOf t x.core).warps x.w = some y ∧ (w.tok ≠ 0xFF → y.pend.contains (256 + w.tok.toNat) = true) ∧
    y.unsealed = x.wp.unsealed ++ [s.nextCopy] ∧ t.mem = s.mem ∧ t.slices = s.slices ∧ t.banks = s.banks
  let bytes (t : State) (l : GLane) : List Byte := leBytes 32 (lineField (peekLine t (l.pa / 128)).1 (l.pa % 128) 32)
  let seen (t : State) (l : GLane) (k : Nat) : Prop :=
    refused t (l.pa / 128) (wordWho x k) = false ∧ answerTo t (l.pa / 128) (wordWho x k) = none ∧
    usable t (l.pa / 128) false (some l.home) = true ∧ poisoned (peekLine t (l.pa / 128)).2 (l.pa % 128) 32 = false
  let stalls (i : Instr) : Prop :=
    exec i s = .next (modWarp s x.core x.w fun y => modPath y x.sl fun p => { p with push := true })
  let room := engineCopies s (clusterOf x.core) < 1024
  (goes (.bcopy w) → fits → w.h = 0xFF → plain → room → made (.bcopy w) false) ∧
  (goes (.bcopyc w) → fits → w.h = 0xFF → plain → room →
    (dst.space = 1 → overlaps st 8 dst.base dst.extent = false) → made (.bcopyc w) true) ∧
  (goes (.bcopy w) → formed → w.h = 0xFF → plain → 64 ≤ coreCopies s x.core x.ctx ∨ ¬ room → stalls (.bcopy w)) ∧
  (∀ h c, goes (.bcopy w) → fits → w.h ≠ 0xFF → plain → crewAt s x.ctx (sget x.wp w.h.toNat) = some (h, c) →
    c.remote = false → copyReason s x h c w.rid.toNat = none → gatheringOf s x.ctx h w.rid.toNat = none →
    engineCopies s low < 1024 →
    ∃ t k, exec (.bcopy w) s = .next t ∧ tget t.copies s.nextCopy = some k ∧ k.engine = low ∧ k.handle = h ∧
      k.members = warps.filter (· ≠ (x.core, x.w)) ∧ k.st = (if k.members = [] then .ready else .gathering)) ∧
  (∀ h c id k, goes (.bcopy w) → fits → w.h ≠ 0xFF → plain → crewAt s x.ctx (sget x.wp w.h.toNat) = some (h, c) →
    c.remote = false → copyReason s x h c w.rid.toNat = none → gatheringOf s x.ctx h w.rid.toNat = some (id, k) →
    k.cond = false → withdrawn k = false → (x.core, x.w) ∈ k.members →
    ∃ t k', exec (.bcopy w) s = .next t ∧ tget t.copies id = some k' ∧ k'.slices.length = k.slices.length + 1 ∧
      k'.members = k.members.filter (· ≠ (x.core, x.w)) ∧ k'.st = (if k'.members = [] then .ready else .gathering)) ∧
  (∀ s₁ s₂ l₁ l₂, w.mem = true → a₁ % 32 = 0 → a₂ % 32 = 0 →
    checkGlobal s x.core x.ctx x.exec true { r := true } [(0, a₁)] = (s₁, .ok [l₁]) → seen s₁ l₁ 0 →
    checkGlobal (dropAnswers s₁ (wordWho x 0)) x.core x.ctx x.exec true { r := true } [(0, a₂)] = (s₂, .ok [l₂]) → seen s₂ l₂ 1 →
    let go (cond : Bool) : State :=
      copyChecks (dropAnswers s₂ (wordWho x 1)) x w cond false (bytes s₁ l₁) (bytes s₂ l₂) a₁ a₂
    (starts (.bcopy w) → exec (.bcopy w) s = .next (go false)) ∧
    (starts (.bcopyc w) → exec (.bcopyc w) s = .next (go true))) ∧
  (goes (.bcopy w) → descBad (reg w.sd) false = true → exec (.bcopy w) s = .next (faultAll s x .tdesc)) ∧
  (goes (.bcopyc w) → descBad (reg w.sd) false = true → exec (.bcopyc w) s = .next (faultAll s x .tdesc))

/-- R280-R282, R284: BSEAL moves the unsealed copies into a batch, BWAIT goes on once its batch holds none that is not
complete and stalls until then, BQUERY counts, and BCANCEL ends the warp's oldest copy with a given identity before its
payload, with status 6 in its token.  A copy of an ended warp in the same context number is not the warp's. -/
def Obligations.BatchWordsFollowTheirCopies : Prop := ∀ (w : Bat) (s : State) (x : Here), Away x →
  let k := w.k.toNat
  let d := w.d.toNat
  let batch := tgetD x.wp.batches k []
  let mine (c : Copy) : Bool := c.slices.any fun y => y.core == x.core && y.warp == x.w && !y.orphan
  let live (ids : List Nat) : Prop := ∃ id ∈ ids, tget s.copies id ≠ none
  (Runs (.bseal w) s x → Ends (.bseal w) s x fun y => y.unsealed = [] ∧ tgetD y.batches k [] = batch ++ x.wp.unsealed ∧
    (∀ j, j ≠ k → tgetD y.batches j [] = tgetD x.wp.batches j []) ∧
    Past x { x.wp with unsealed := [], batches := y.batches } y) ∧
  (Runs (.bwait w) s x → x.last = true → ¬ live batch → Ends (.bwait w) s x fun y => tgetD y.batches k [] = [] ∧
    (∀ j, j ≠ k → tgetD y.batches j [] = tgetD x.wp.batches j []) ∧ Past x { x.wp with batches := y.batches } y) ∧
  (Runs (.bwait w) s x → x.last = true → live batch → exec (.bwait w) s = .next s) ∧
  (Runs (.bquery w) s x → Ends (.bquery w) s x fun y => Past x { x.wp with sc := y.sc } y ∧
    (∀ j, j ≠ d → sget y j = sget x.wp j) ∧
    (w.k = 0 → sget y d = BitVec.ofNat 32 (s.copies.countP fun p => mine p.2)) ∧
    (w.k = 1 → sget y d = BitVec.ofNat 32 (coreCopies s x.core x.ctx)) ∧
    (w.k = 2 → sget y d = BitVec.ofNat 32 (64 - coreCopies s x.core x.ctx)) ∧
    (w.k = 3 → ∀ j, j < 9 → ((sget y d).getLsbD j = true ↔
      live (if j = 8 then x.wp.unsealed else tgetD x.wp.batches j [])))) ∧
  (Runs (.bcancel w) s x →
    let hit := s.copies.find? fun p => p.2.st != .moved && p.2.cmd.isNone && p.2.rid == (sget x.wp w.a.toNat).toNat && mine p.2
    (hit = none → Ends (.bcancel w) s x fun y => sget y d = 0 ∧ (∀ j, j ≠ d → sget y j = sget x.wp j) ∧
      Past x { x.wp with sc := y.sc } y) ∧
    (∀ id c, hit = some (id, c) → tget s.copies id = some c → (∀ y ∈ c.slices, y.rec' = none) →
      ∃ t y, exec (.bcancel w) s = .next t ∧ tget t.copies id = none ∧ tget (coreOf t x.core).warps x.w = some y ∧
        sget y d = 1))

/-- R276-R279, R287, R289, R370: an engine starts the oldest of its ready copies when the checks pass, else the copy ends
with the code of the first failure; a started copy moves part by part, byte for byte; a moved copy completes with its
status in every token; a failing engine with no spare ends its copies with 7, and with a spare its started copies run
their payload again.
Model choices: log 6, 16. -/
def Obligations.CopiesStartMoveComplete : Prop := ∀ (s : State) (e id n : Nat) (c : Copy) (rest : List Turn),
  let oldest := (sortBy (fun p => p.2.order)
    (s.copies.filter fun p => p.2.st == .ready && p.2.engine == e && !withdrawn p.2 && !intoMoving s p.2)).head?
  let done (st : W32) (lk : Bool) : State :=
    { s with copies := tmod s.copies id fun c => { c with st := .moved, status := st, locked := lk } }
  let pages := copyPages c
  (e < 64 → oldest = some (id, c) → pageStep s c.ctx pages = .fail n →
    exec (.copyStart e) s = .next (done (BitVec.ofNat 32 n) false)) ∧
  (e < 64 → oldest = some (id, c) → pageStep s c.ctx pages = .ok → windowStep s c.ctx pages = .fail n →
    exec (.copyStart e) s = .next (done (BitVec.ofNat 32 n) false)) ∧
  (e < 64 → oldest = some (id, c) → pageStep s c.ctx pages = .ok → windowStep s c.ctx pages = .ok →
    copyOverlap s c = true → exec (.copyStart e) s = .next (done 8 false)) ∧
  (e < 64 → oldest = some (id, c) → tget s.copies id = some c → pageStep s c.ctx pages = .ok →
    windowStep s c.ctx pages = .ok → copyOverlap s c = false → c.cond = false →
    ∃ t, exec (.copyStart e) s = .next t ∧ { t with copies := s.copies } = s ∧ tget t.copies id =
      some { c with st := .moved, status := 0, locked := false, pages := foundPages s c, parts := 0, ahead := [], bad := [] }) ∧
  (s.agenda = .part id :: rest → step s = .next (afterTurn (copyPart { s with agenda := rest } id))) ∧
  (∀ p x, tget s.copies id = some c → c.st = .moved → copyMoved c = false → c.ahead = [] →
    (copyParts c)[c.parts]? = some p → p.y.src.space = 2 → p.y.dst.space = 2 → p.y.core < 1024 → p.y.prov = none →
    tget (coreOf s p.y.core).blocks p.y.block = some x →
    (∀ i, i < p.len → locByte (copyPart s id) (.scr p.y.core p.y.block (p.dst + i)) =
      locByte s (.scr p.y.core p.y.block (p.src + i))) ∧
    ∃ c', tget (copyPart s id).copies id = some c' ∧ c'.parts = c.parts + 1) ∧
  (tget s.copies id = some c → c.st = .moved → copyMoved c = true → c.cmd = none → c.cond = false →
    (∀ y ∈ c.slices, y.sta = none) → c.status.toNat % 256 ≠ 0 ∨ copyClean s c = (s, true) →
    exec (.copyComplete id) s = .next (drainDone (finishCopy (copyDropL1 s c) id c.status))) ∧
  (∀ y t w, tget s.copies id = some c → c.slices = [y] → y.tok = some t → y.orphan = false → y.rec' = none →
    tget (coreOf s y.core).warps y.warp = some w →
    tget (finishCopy s id c.status).copies id = none ∧
    ∃ w', tget (coreOf (finishCopy s id c.status) y.core).warps y.warp = some w' ∧ sget w' t = c.status ∧
      w'.pend.contains (256 + t) = false) ∧
  (e < 64 → s.dev.spareEngines = 0 → (∀ p ∈ s.copies, p.2.engine = e → p.1 = id) → tget s.copies id = some c →
    c.engine = e → withdrawn c = false → ∃ t, exec (.copyEngineFail e) s = .next t ∧
      tget t.copies id = some { c with st := .moved, status := 7, locked := false }) ∧
  (e < 64 → s.dev.spareEngines > 0 → (∀ p ∈ s.copies, p.2.engine = e → p = (id, c)) → tget s.copies id = some c →
    c.engine = e → withdrawn c = false → ∃ t, exec (.copyEngineFail e) s = .next t ∧
      t.dev.spareEngines = s.dev.spareEngines - 1 ∧
      (c.st ≠ .moved → tget t.copies id = some c) ∧
      (c.st = .moved → c.status.toNat % 256 = 0 →
        tget t.copies id = some { c with status := 0, parts := 0, ahead := [], bad := [] })) ∧
  (e < 64 → s.dev.spareEngines > 0 → (∀ p ∈ s.copies, p.2.engine ≠ e) → ∃ t, exec (.copyEngineFail e) s = .next t ∧
    t.dev.spareEngines = s.dev.spareEngines - 1 ∧ t.copies = s.copies)

/-! Matrix and queue words. -/

/-- R298, R299: a matrix command whose checks pass enters the tail of q0 with the word and the scalars it captures, and
its path goes on; the units of a TREL stop being nameable.  A command that names a unit its block has not claimed traps
PROT, and one that finds q0 full waits at issue, when it counts as an engine push (R32).  One that accesses memory waits
too for what holds the warp's later accesses (R50, R97, R174).
Model choices: log 31, 50. -/
def Obligations.MatrixCommandsEnterTheQueue : Prop := ∀ (w : Mtx) (s s' : State) (x : Here) (scales : List Nat),
  (∀ i ∈ [Instr.trel w, .tload w, .tloads w, .mma w, .mmasp w, .mloop w, .mdist w, .mtopk w, .czero w, .cload w, .cstore w],
    Runs i s x →
    (match mtxLayer i (mtxVals x.wp i) with
      | some base => memHeld x base
      | none => !x.wp.shapeWaits.isEmpty) = false →
    let units := mtxUnits (mtxVals x.wp i) i
    (units.all (nameable x.co x.wp.block) = false → exec i s = .next (faultAll s x .prot)) ∧
    (mtxCheck s x i (mtxVals x.wp i) = (s', .ok scales) → 16 ≤ (coreOf s' x.core).q0.length →
      exec i s = .next (modWarp s' x.core x.w fun y => modPath y x.sl fun p => { p with push := true })) ∧
    (mtxCheck s x i (mtxVals x.wp i) = (s', .ok scales) → (coreOf s' x.core).q0.length < 16 →
      ∃ t q, exec i s = .next t ∧ (coreOf t x.core).q0 = (coreOf s' x.core).q0 ++ [q] ∧ q.word = unitWord x.ws ∧
        q.vals = mtxVals x.wp i ∧ q.warp = x.w ∧ q.block = x.wp.block ∧ q.scales = scales ∧
        (coreOf t x.core).acc = (coreOf s' x.core).acc ∧ (coreOf t x.core).slots = (coreOf s' x.core).slots ∧
        t.mem = s'.mem)) ∧
  (∀ i ∈ [Instr.trel w, .mma w, .mmasp w, .mdist w, .mtopk w, .czero w],
    (mtxUnits (mtxVals x.wp i) i).all (nameable x.co x.wp.block) = true → mtxCheck s x i (mtxVals x.wp i) = (s, .ok [])) ∧
  (Runs (.trel w) s x → x.wp.shapeWaits = [] → (coreOf s x.core).q0.length < 16 →
    (mtxUnits [] (.trel w)).all (nameable x.co x.wp.block) = true → ∀ u ∈ mtxUnits [] (.trel w),
    ∃ t, exec (.trel w) s = .next t ∧ nameable (coreOf t x.core) x.wp.block u = false)

/-- R296, R313, R314: TCLAIM takes all the units it names or none and writes which; CPOP moves the head of q1 or q2 into a
vector register; MSYNC has the warp's commands so far report to its register, at once when they are complete. -/
def Obligations.ClaimPopSync : Prop := ∀ (w : Mtx) (s : State) (x : Here),
  let us := unitsFrom (w.opt == 1) w.b.toNat w.n.toNat
  (Runs (.tclaim w) s x → (∃ u ∈ us, unitOwner x.co u.1 u.2 ≠ none) →
    exec (.tclaim w) s = .next (retire s x (sset x.wp w.d.toNat 0))) ∧
  (Runs (.tclaim w) s x → (∀ u ∈ us, unitOwner x.co u.1 u.2 = none) → ∃ t y, exec (.tclaim w) s = .next t ∧
    (∀ u ∈ us, unitOwner (coreOf t x.core) u.1 u.2 = some x.wp.block) ∧
    tget (coreOf t x.core).warps x.w = some y ∧ sget y w.d.toNat = 1) ∧
  (∀ e, Runs (.cpop w) s x → x.exec ≠ 0 → (w.n = 1 ∧ x.co.q1.head? = some e) ∨ (w.n = 2 ∧ x.co.q2.head? = some e) →
    ∃ t y, exec (.cpop w) s = .next t ∧ tget (coreOf t x.core).warps x.w = some y ∧
      (∀ l, l < 32 → vget y w.d.toNat l =
        if x.exec.getLsbD l then e.data.extractLsb' (32 * l) 32 else vget x.wp w.d.toNat l) ∧
      (coreOf t x.core).q1 = (if w.n = 1 then x.co.q1.drop 1 else x.co.q1) ∧
      (coreOf t x.core).q2 = (if w.n = 1 then x.co.q2 else x.co.q2.drop 1)) ∧
  (Runs (.cpop w) s x → w.n ≠ 1 → w.n ≠ 2 → exec (.cpop w) s = .next (faultAll s x .queue)) ∧
  (Runs (.msync w) s x → x.wp.msyncs = [] → x.wp.mpushed ≤ x.wp.mdone → ∃ t y, exec (.msync w) s = .next t ∧
    tget (coreOf t x.core).warps x.w = some y ∧ sget y w.d.toNat = x.wp.mstatus ∧ y.mstatus = 0 ∧ y.msyncs = []) ∧
  (Runs (.msync w) s x → x.wp.msyncs = [] → x.wp.mdone < x.wp.mpushed → ∃ t y, exec (.msync w) s = .next t ∧
    tget (coreOf t x.core).warps x.w = some y ∧ y.msyncs = [(w.d.toNat, x.wp.mpushed)] ∧
    y.pend.contains (256 + w.d.toNat) = true)

/-- R324, R326, R328-R331: QPUSH puts one entry of exec's lanes on its way to the partner, QPOP takes and QPEEK reads the
head of a queue, both wait on an empty one, as QPUSH does for a free place (R32), QCOUNT counts; a wrong queue traps QUEUE.
Model choices: log 31. -/
def Obligations.QueueWordsMoveEntries : Prop := ∀ (w : Que) (s : State) (x : Here) (e : QEnt),
  let headOf (co : Core) : Option QEnt :=
    if w.q = 1 then co.q1.head? else if w.q = 2 then co.q2.head? else if w.q = 9 then co.q9.head? else none
  let shows (t : State) : Prop := ∃ y, tget (coreOf t x.core).warps x.w = some y ∧ ∀ l, l < 32 →
    vget y w.d.toNat l = if x.exec.getLsbD l then e.data.extractLsb' (32 * l) 32 else vget x.wp w.d.toNat l
  (Runs (.qpush w) s x → w.q ≠ 8 → exec (.qpush w) s = .next (faultAll s x .queue)) ∧
  (Runs (.qpush w) s x → w.q = 8 → lanesWhere x.exec (fun l => vpois x.wp w.a.toNat l) = 0 → x.exec ≠ 0 →
    x.co.qfree8 ≠ 0 → opHeld x false = false → ∃ t q, exec (.qpush w) s = .next t ∧
      (coreOf t x.core).transit = x.co.transit ++ [q] ∧ (coreOf t x.core).qfree8 = x.co.qfree8 - 1 ∧ q.poison = 0 ∧
      ∀ l, l < 32 → q.data.extractLsb' (32 * l) 32 = if x.exec.getLsbD l then vget x.wp w.a.toNat l else 0) ∧
  (Runs (.qpush w) s x → w.q = 8 → lanesWhere x.exec (fun l => vpois x.wp w.a.toNat l) = 0 → x.exec ≠ 0 →
    x.co.qfree8 = 0 → opHeld x false = false →
    exec (.qpush w) s = .next (modWarp s x.core x.w fun y => modPath y x.sl fun p => { p with push := true })) ∧
  (Runs (.qpop w) s x → w.q ≠ 1 → w.q ≠ 2 → w.q ≠ 9 → exec (.qpop w) s = .next (faultAll s x .queue)) ∧
  (Runs (.qpop w) s x → (w.q = 9 → opHeld x false = false) → x.exec ≠ 0 → headOf x.co = some e →
    ∃ t, exec (.qpop w) s = .next t ∧ shows t ∧ (w.q = 1 → (coreOf t x.core).q1 = x.co.q1.drop 1) ∧
      (w.q = 2 → (coreOf t x.core).q2 = x.co.q2.drop 1) ∧ (w.q = 9 → (coreOf t x.core).q9 = x.co.q9.drop 1 ∧
        (coreOf t (partnerOf x.core)).qfree8 = (let o := coreOf s (partnerOf x.core)
          if o.ctx = some x.ctx then min 16 (o.qfree8 + 1) else o.qfree8))) ∧
  (Runs (.qpeek w) s x → (w.q = 9 → opHeld x false = false) → x.exec ≠ 0 → headOf x.co = some e →
    ∃ t, exec (.qpeek w) s = .next t ∧ shows t ∧ (coreOf t x.core).q1 = x.co.q1 ∧ (coreOf t x.core).q2 = x.co.q2 ∧
      (coreOf t x.core).q9 = x.co.q9) ∧
  (Runs (.qpop w) s x → w.q = 1 ∨ w.q = 2 ∨ w.q = 9 → x.exec ≠ 0 → headOf x.co = none → exec (.qpop w) s = .next s) ∧
  (Runs (.qcount w) s x → ∃ n, exec (.qcount w) s = .next (retire s x (sset x.wp w.d.toNat (BitVec.ofNat 32 n))) ∧
    (w.q = 0 → n = 16 - x.co.q0.length) ∧ (w.q = 1 → n = x.co.q1.length) ∧ (w.q = 2 → n = x.co.q2.length) ∧
    (w.q = 8 → n = x.co.qfree8) ∧ (w.q = 9 → n = x.co.q9.length))

/-- R183: QPOST copies 256 bytes of the block's scratch to a slot, its last byte after the others, as a release at package
scope, once the slot's lines stand at their homes and no race is found; a slot or an image off its alignment, or an image
beyond scratch, traps.
Model choices: log 16, 17, 120.  -/
def Obligations.SlotPostWritesTheImage : Prop := ∀ (g : Gen) (s s' : State) (x : Here) (y : GLane),
  let va := (pairOfSrc x.wp g.a).toNat
  let off := (scaVal x.wp g.b).toNat
  let img := (List.range 256).map fun i => tgetD x.block.scratch (off + i) 0
  let part := (ctxOf s x.ctx).part
  let line (o : Nat) := (y.pa + o) / 128
  let home (o : Nat) := leafHome s' part y.leaf (line o)
  let lane (o : Nat) : GLane := { y with va := y.va + o, pa := y.pa + o, home := home o }
  let put (t : State) (o n : Nat) : State := homeWrite t part (line o) (fieldLine ((y.pa + o) % 128) n
    (leNat ((img.drop o).take n))) (fieldMask ((y.pa + o) % 128) n) 0 (some (home o))
  Runs (.qpost g) s x → x.prov = false → memHeld x true = false →
  (va % 256 ≠ 0 → exec (.qpost g) s = .next (faultAll s x .misalign va)) ∧
  (va % 256 = 0 → off % 32 ≠ 0 → exec (.qpost g) s = .next (faultAll s x .misalign off)) ∧
  (va % 256 = 0 → off % 32 = 0 → off + 256 > 4096 * x.block.scratchGran →
    exec (.qpost g) s = .next (faultAll s x .prot off)) ∧
  (va % 256 = 0 → off % 32 = 0 → off + 256 ≤ 4096 * x.block.scratchGran → x.block.shadow = .none →
    checkGlobal s x.core x.ctx x.exec true { w := true } [(0, va)] = (s', .ok [y]) → releaseReady s' x .pkg = true →
    (∀ o, o = 0 ∨ o = 128 → Writable s' (wordWho x 0) (line o) (home o)) → (ctxOf s' x.ctx).part = part →
    y.pa % 256 = 0 → (∀ o m, raceLine s' x m (lane o) = none) →
    checkRace s' x postMods false true true ((List.range 8).map fun k => lane (32 * k)) =
      .ok ((List.range 8).map fun k => lane (32 * k)) →
    exec (.qpost g) s = .next (retireNow (advanceEpoch (modCore (dropWord (put (put (put s' 0 128) 128 127) 255 1) x) x.core
      fun co => l1DropLine (l1DropLine co (line 0)) (line 0 + 1)) x.ctx .pkg) x))

/-! Fetching. -/

/-- R30, R34-R36: the fetch of a path at a header reads the clause behind it and puts the path at its first word under the
header's limits; what is no header traps UNDEF with the word whose transfer led here, and a reserved header traps UNDEF.
A path within a clause that was resumed reads the rest of its words, the first word of a clause when a header stands
before it.  A fetch writes no memory and no register.
Model choices: log 30, 32, 104. -/
def Obligations.FetchReadsTheClause : Prop := ∀ (s : State) (x : Here) (h : W64) (ws : List W64),
  here s [] = some x → x.p.words = [] →
  let fetched (p : Path → Prop) : Prop := ∃ t y, exec .clauseFetch s = .next t ∧
    tget (coreOf t x.core).warps x.w = some y ∧ (pathOf y x.sl).words = ws ∧ (pathOf y x.sl).mask = x.p.mask ∧
    (pathOf y x.sl).rpc = x.p.rpc ∧ pathOf y (otherSlot x.sl) = pathOf x.wp (otherSlot x.sl) ∧
    { y with a := x.wp.a, b := x.wp.b } = x.wp ∧ t.mem = s.mem ∧ p (pathOf y x.sl)
  (x.p.remain = 0 → codeAt s x x.p.pc = .word h → isHeader h = false →
    exec .clauseFetch s = .next (fetchTrap s x .undef h x.p.via)) ∧
  (x.p.remain = 0 → codeAt s x x.p.pc = .word h → isHeader h = true → hdrReserved h = true →
    exec .clauseFetch s = .next (fetchTrap s x .undef h 0)) ∧
  (∀ cls, x.p.remain = 0 → codeAt s x x.p.pc = .bad cls →
    exec .clauseFetch s = .next (fetchTrap s x cls 0 x.p.pc)) ∧
  (x.p.remain = 0 → codeAt s x x.p.pc = .word h → isHeader h = true → hdrReserved h = false →
    codeWords s x (x.p.pc + 8) (hdrCount h) = .ok ws →
    check5 s x (hdrClass h) ws (x.p.pc + 8) 0 = .ok →
    fetched fun p => p.pc = x.p.pc + 8 ∧ p.limits = some (hdrMem h, hdrEng h) ∧ p.first = true ∧ p.cls = hdrClass h) ∧
  (∀ w, x.p.remain ≠ 0 → codeWords s x x.p.pc x.p.remain = .ok ws → codeAt s x (x.p.pc - 8) = .word w →
    fetched fun p => p.pc = x.p.pc ∧ p.remain = 0 ∧ p.first = isHeader w) ∧
  (∀ cls va, x.p.remain ≠ 0 → codeWords s x x.p.pc x.p.remain = .bad cls va →
    exec .clauseFetch s = .next (takeTrap (dropAnswers s (fetchWho x)) x { cls := cls, sector := va, lanes := x.p.mask }))

/-! Events of a core. -/

/-- R169: a path asleep goes on once CLOCK has reached its deadline, and not before.
R230: a test of a waiting MWAIT, by itself or at its deadline, whose word meets the condition, or that comes at the
deadline or later, gives the path the value and the met lanes and lets it go on; before the deadline an unmet test leaves
it waiting.
R165: of the requests for granules that the pool can meet, the oldest is granted: its window grows and mD takes exec;
while the pool can meet none, all wait.
R146: a warp that has stalled on the scoreboard between clauses for more than 32 arithmetic cycles, with no path that
holds its pipe or can go on, leaves the active set; else it stays.
R145: of the ready active warps of a pipe passed over 64 times, the oldest issues next.
R209: a path that waits at a cross-lane word issues it alone when its partner's state says so, and both at once when they
stand at the same word.
Model choices: log 3, 39. -/
def Obligations.WaitsEndByTheirEvents : Prop := ∀ (s : State) (core w : Nat) (sl : Slot) (x : Here), core < 1024 → w < 48 →
  hereAt s core w sl = some x → x.p.st = .live → x.co.ctx.isSome = true → x.co.stopped = false →
  let free := freeGranules x.co
  let pass (i : Instr) (p : Warp → Prop) : Prop := ∃ t y, exec i s = .next t ∧
    tget (coreOf t core).warps w = some y ∧ (pathOf y sl).wait = .none ∧
    (pathOf y sl).pc = x.p.pc + BitVec.ofNat 64 (8 * x.ws.length) ∧
    (pathOf y sl).words = x.p.words.drop x.ws.length ∧ (pathOf y sl).mask = x.p.mask ∧ t.mem = s.mem ∧ p y
  (∀ d, x.p.wait = .sleep d → Away x →
    (d ≤ s.clock → Ends (.sleepDeadline core w sl) s x fun y => Past x x.wp y) ∧
    (s.clock < d → exec (.sleepDeadline core w sl) s = .next s)) ∧
  (∀ d m e k s' g (o : MemOp), x.p.wait = .mwait d → Away x → decode x.ws = .ok (.mwait m e, k) →
    (x.co.ops.find? fun o => o.warp == w && o.slot == sl && isMwait o) = some o →
    checkGlobal s core x.ctx o.lanes true { r := true } [(0, laneVa o 0)] = (s', .ok [g]) →
    s'.mem = s.mem → s'.clock = s.clock → (coreOf s' core).warps = x.co.warps → (coreOf s' core).ops = x.co.ops →
    ((allReqs s' core w).any fun r => r.line == g.line && (isStore r || r.op < o.id)) = false →
    unbacked s' g.line = false → answerTo s' g.line (mwaitWho core o.id) = none →
    usable s' g.line false (some g.home) = true →
    let ty := memTy m
    poisoned (peekLine s' g.line).2 (laneVa o 0 % 128) ty.bytes = false →
    let v := lineField (peekLine s' g.line).1 (laneVa o 0 % 128) ty.bytes
    let met := condTy ty e.cond.toNat v o.cmp.toNat
    (∀ i ∈ [Instr.mwaitRetest core w sl, .mwaitTimeout core w sl], met = true ∨ d ≤ s.clock →
      (i = .mwaitTimeout core w sl → d ≤ s.clock) → 1 ≤ e.m.toNat → pass i fun y =>
        (ty.is64 = false → sget y m.data.toNat = BitVec.ofNat 32 v) ∧
        (ty.is64 = true → sget64 y m.data.toNat = BitVec.ofNat 64 v) ∧
        tgetD y.m e.m.toNat 0 = if met then tgetD x.wp.m e.m.toNat 0 ||| o.lanes
                                else tgetD x.wp.m e.m.toNat 0 &&& ~~~ o.lanes) ∧
    (met = false → s.clock < d → ∃ t, exec (.mwaitRetest core w sl) s = .next t ∧
      tget (coreOf t core).warps w = some x.wp ∧ t.mem = s.mem)) ∧
  (∀ d, x.p.wait = .mwait d → s.clock < d → exec (.mwaitTimeout core w sl) s = .next s) ∧
  (∀ n m ex k, x.wp.grow = some (n, m, ex, sl, k) → Away x → 1 ≤ m → n ≤ free.length →
    (∀ p ∈ x.co.warps, ∀ g, p.2.grow = some g → g.1 ≤ free.length → p = (w, x.wp) ∨ k < g.2.2.2.2) →
    Ends (.reggrowGrant core) s x fun y => y.grow = none ∧ y.granules = x.wp.granules ++ free.take n ∧
      tgetD y.m m 0 = ex ∧ (∀ j, j ≠ m → tgetD y.m j 0 = tgetD x.wp.m j 0) ∧
      Past x { x.wp with grow := y.grow, granules := y.granules, m := y.m, pend := y.pend } y) ∧
  ((∀ p ∈ x.co.warps, ∀ g, p.2.grow = some g → free.length < g.1) → exec (.reggrowGrant core) s = .next s) ∧
  (∀ t, x.p.since = some t → x.wp.active = true → s.arith > t + 1600 * 32 → holdsPipe x.wp.a = false →
    holdsPipe x.wp.b = false → warpReady s core w x.wp = false →
    Ends (.activeSetEvict core w) s x fun y => y = { x.wp with active := false }) ∧
  ((∀ p ∈ [x.wp.a, x.wp.b], ∀ t, p.since = some t → s.arith ≤ t + 1600 * 32) →
    Ends (.activeSetEvict core w) s x fun y => y = x.wp) ∧
  (overdue s core x.wp.pipe = some w → ∀ sl', (sl' = .a ∨ mayIssue s core w .a = false) → mayIssue s core w sl' = true →
    exec (.passedOverLimit core w) s = .next { s with agenda := .issue core w sl' :: s.agenda }) ∧
  (overdue s core x.wp.pipe ≠ some w → exec (.passedOverLimit core w) s = .next s) ∧
  (∀ i k g f lanes, x.p.wait = .cross lanes → decode x.ws = .ok (i, k) → crossOf i = some (g, f) → x.p.susp = false →
    ((regsOf x.co.memdef i).any fun r => r < 256 && r ≥ 8 * x.wp.granules.length) = false →
    ((regsOf x.co.memdef i).any fun r => x.wp.pend.contains r) = false →
    let mark (y : Warp) (ps : W32) (miss : Bool) : Warp := if missReg g = 0 then y
      else mset y (missReg g) (maskWrite (tgetD y.m (missReg g) 0) ps fun _ => miss)
    let all := x.exec ||| execOf x.wp (otherSlot sl) (predOf x.ws)
    (∀ miss, (∀ u ∈ f.uses x.wp x.exec, lanePoison x.wp false u.1 u.2 = false) → crossMode s x g = .alone miss →
      exec (.crossLaneRelease core w sl) s = .next (retire s x (mark (f.effect x.wp x.exec) x.exec miss))) ∧
    ((∀ u ∈ f.uses x.wp all, lanePoison x.wp false u.1 u.2 = false) → crossMode s x g = .joint →
      exec (.crossLaneRelease core w sl) s =
        .next (setWarp s core w (retireBoth (mark (f.effect x.wp all) all false) x.ws))))

/-- R148-R151, R390, R391: a save of a stopped core whose stores and loads are done gives its context a save area and
empties the core; the state is held unchanged in its registers, masks and PCs.  A restore puts it on a free core.  A
pre-emption for a starved queue of higher priority begins such a save.
Model choices: log 51, 53, 54, 109. -/
def Obligations.ContextsAreSavedAndRestored : Prop := ∀ (s : State) (core reason ctx area : Nat),
  let co := coreOf s core
  let same (a b : Warp) : Prop :=
    a.v = b.v ∧ a.sc = b.sc ∧ a.m = b.m ∧ a.a.pc = b.a.pc ∧ a.b.pc = b.b.pc ∧ a.a.mask = b.a.mask ∧ a.b.mask = b.b.mask ∧
    a.stack = b.stack ∧ a.granules = b.granules ∧ a.sigs = b.sigs ∧ a.sigd = b.sigd
  let saved (t : State) (reason : Nat) : Prop := ∃ v ∈ t.saves,
    v.ctx = ctx ∧ v.area = area ∧ v.core = core ∧ v.reason = reason ∧ 4096 ≤ v.held ∧ (coreOf t core).ctx = none ∧
    (coreOf t core).warps = [] ∧ (coreOf t core).blocks = [] ∧ (coreOf t v.held).ctx = some ctx ∧
    ∀ w y, tget co.warps w = some y → ∃ y', tget (coreOf t v.held).warps w = some y' ∧ same y' y
  let still (r : Nat) : Prop :=
    co.stopped = true ∧ co.ctx = some ctx ∧ freeArea s ctx = some area ∧ saveReady s core r = true ∧
    saveLate s core r = false ∧ (r = 1 → s.copies = [])
  (core < 1024 → reason < 4 → mayStart s core reason = true →
    (reason = 3 → (colOf s (pairOf core) (posOf core)).migrating = false) → still reason → ∃ t, exec (.contextSave core reason) s = .next t ∧ saved t reason) ∧
  (core < 1024 → reason < 4 → mayStart s core reason = true →
    (reason = 3 → (colOf s (pairOf core) (posOf core)).migrating = false) → co.stopped = false → co.ctx = some ctx → freeArea (stopCore s core reason) ctx = some area →
    saveReady (stopCore s core reason) core reason = false →
    ∃ t, exec (.contextSave core reason) s = .next t ∧ (coreOf t core).stopped = true ∧
      (coreOf t core).saving = some (reason, s.clock)) ∧
  (∀ part queue, core < 1024 → part < 8 → queue < 4096 → partOfCore s core = some part → co.blocks ≠ [] →
    starved s core part queue = true → still 0 →
    ∃ t, exec (.priorityPreempt core part queue) s = .next t ∧ saved t 0) ∧
  (∀ index v im, core < 1024 → s.saves[index]? = some v → restoreFirst s core = some v → restoreBoth s v = none →
    v.responses = [] → v.keepBank = true → v.held ≠ core → areaLines s v = [] →
    coreOf (renameCore { s with cores := tins s.cores v.held (areaBack s v (coreOf s v.held)) } v.held core) v.held = im →
    repack { im with l1ways := co.l1ways } = some { im with l1ways := co.l1ways } →
    (∀ w y sl, tget im.warps w = some y → ∀ h p a b, (pathOf y sl).wait ≠ .crew h p a b) →
    ∃ t, exec (.contextRestore core index) s = .next t ∧ (coreOf t core).ctx = some v.ctx ∧
      (∀ u ∈ t.saves, u.held ≠ v.held) ∧ tget t.cores v.held = none ∧
      ∀ w y, tget im.warps w = some y → ∃ y', tget (coreOf t core).warps w = some y' ∧ same y' y)

/-- R11, R16, R131, R324, R337-R343: the column link: entries cross to the partner in order, a failing transfer only
stalls, a bus is repaired lane by lane, gates power the upper cores off and on, columns migrate and pass to the spare; and
the registers of the scheduler, the link, the carve-outs and the management page take writes.
R11, R421: a column that has lost its bus or a core leaves the map once both its cores are empty.
R3, R6, R372, R420: a register reads what was written and what the device keeps in it; fields that are reserved or write
only, and offsets that hold none, read as zero.
Model choices: log 57, 83, 89, 111. -/
def Obligations.ColumnLinkAndRegisters : Prop := ∀ (s : State) (core column pair pos : Nat),
  let p := tgetD s.pairs pair {}
  let c := colOf s pair pos
  let here' := colOf s (column / 16) (column % 16)
  let set (f : Column → Column) : State := modCol s (column / 16) (column % 16) f
  let uppers := upperCores pair
  let idle (k : Nat) : Prop := (coreOf s k).ctx = none
  (∀ e rest, core < 1024 → (coreOf s core).transit = e :: rest → (coreOf s core).ctx.isSome = true →
    (coreOf s (partnerOf core)).ctx = (coreOf s core).ctx → (coreOf s (partnerOf core)).stopped = false →
    (colOf s (pairOf core) (posOf core)).frozen = false → (coreOf s (partnerOf core)).q9.length < 16 →
    ∃ t, exec (.transitPlace core) s = .next t ∧ (coreOf t core).transit = rest ∧
      (coreOf t (partnerOf core)).q9 = (coreOf s (partnerOf core)).q9 ++ [e]) ∧
  (column < 512 → exec (.vbusCheckFail column) s = .next s) ∧
  (column < 512 → here'.spares ≠ 0 → here'.failed = false → here'.frozen = false → exec (.laneRepair column) s =
    .next (set fun c => { c with frozen := true, spares := here'.spares - 1 })) ∧
  (column < 512 → here'.frozen = true → exec (.busThaw column) s =
    .next (set fun c => { c with frozen := false, repairs := min 255 (here'.repairs + 1) })) ∧
  (column < 512 → here'.spares = 0 → exec (.busFail column) s = .next (set fun c => { c with failed := true })) ∧
  (pair < 32 → p.gate = 0 → (∀ k ∈ p.cols, k.2.migrating = false) → ∃ t, exec (.gateRequest pair) s = .next t ∧
    (tgetD t.pairs pair {}).req = true ∧ (tgetD t.pairs pair {}).cols = p.cols ∧
    ((∀ k ∈ uppers, idle k) → (tgetD t.pairs pair {}).gate = 2 ∧ (tgetD t.pairs pair {}).gates = (p.gates + 1) % 256) ∧
    ((∃ k ∈ uppers, ¬ idle k) → (tgetD t.pairs pair {}).gate = 1)) ∧
  (pair < 32 → p.gate = 2 → ∃ t, exec (.gatePowerOn pair) s = .next t ∧ (tgetD t.pairs pair {}).req = false ∧
    ((∃ v ∈ s.saves, v.reason = 2 ∧ v.core ∈ uppers) → (tgetD t.pairs pair {}).gate = 3) ∧
    ((∀ v ∈ s.saves, ¬ (v.reason = 2 ∧ v.core ∈ uppers)) → (tgetD t.pairs pair {}).gate = 0)) ∧
  (pair < 32 → pos < 16 → migrateIgnored s pair pos = false → idle (lowerOf pair pos) → idle (upperOf pair pos) →
    exec (.migrate pair pos) s = .next (modCol s pair pos fun c => { c with migrate := true, migrating := true, began := s.arith })) ∧
  (pair < 32 → pos < 16 → c.migrating = true → s.arith > c.began + 1600 * 65536 →
    ∃ t, exec (.migrationDrainTimeout pair pos) s = .next t ∧
      colOf t pair pos = { c with abandoned := true, migrate := false, migrating := false }) ∧
  (pair < 32 → pos < 16 → c.absent = false → idle (lowerOf pair pos) → idle (upperOf pair pos) →
    p.spareUsed = false → p.spareFailed = false → ∃ t, exec (.columnRemap pair pos) s = .next t ∧
      (colOf t pair pos).spare = true ∧ (colOf t pair pos).failed = false ∧ (tgetD t.pairs pair {}).spareUsed = true) ∧
  (pair < 32 → pos < 16 → c.absent = false → idle (lowerOf pair pos) → idle (upperOf pair pos) →
    p.spareUsed = true → ∃ t, exec (.columnRemap pair pos) s = .next t ∧ (colOf t pair pos).absent = true) ∧
  (pair < 32 → pos < 16 → c.failed = false → c.absent = false → ¬ idle (lowerOf pair pos) ∨ ¬ idle (upperOf pair pos) →
    exec (.columnRemap pair pos) s = .next (modCol s pair pos fun c => { c with dead := true })) ∧
  (∀ ways, core < 1024 → idle core → exec (.storecfgWrite core ways) s =
    .next (modCore s core fun co => { co with l1ways := ways, l1 := [] })) ∧
  (∀ ways, core < 1024 → ¬ idle core → exec (.storecfgWrite core ways) s =
    .next (modCore s core fun co => { co with cfgReport := true })) ∧
  (∀ part off v, off % 8 = 0 → insecure s part = true → exec (.registerWrite (.sched part) off v) s = .next s) ∧
  (∀ part (pt : Part) v, tget s.parts part = some pt → insecure s part = false →
    ∃ t pt', exec (.registerWrite (.sched part) 0 v) s = .next t ∧
    tget t.parts part = some pt' ∧ pt'.page.qtbase = v.toNat % 2 ^ 48 / 64 * 64 ∧ pt'.page.tail = pt.page.tail ∧
    pt'.window = pt.window) ∧
  (∀ v, pair < 32 → pos ≤ 16 →
    let u := modCol s pair pos fun c => { c with target := v.toNat / 256 % 32 }
    exec (.registerWrite (.link pair) (0x100 + 8 * pos) v) s = .next u ∧
    registerRead u (.link pair) (0x100 + 8 * pos) =
      BitVec.ofNat 64 (v.toNat / 256 % 32 * 256 + (if c.migrate then 1 else 0))) ∧
  (∀ v, pair < 8 → v.getLsbD 0 = true → (v &&& 0x0000FFFC00000001).toNat / 2 ^ 37 = pair →
    ∃ t, exec (.registerWrite (.carve pair) 0 v) s = .next t ∧ tgetD t.carve pair 0 = v &&& 0x0000FFFC00000001) ∧
  (∀ v, ∃ t, exec (.registerWrite .mgmt 0 v) s = .next t ∧ t.dev.fails = v.extractLsb' 24 8 ∧
    t.dev.reason = v.extractLsb' 0 8) ∧
  (pos ≤ 16 → let r := registerRead s (.link pair) (0x200 + 8 * pos)
    r.getLsbD 6 = c.migrating ∧ r.getLsbD 7 = c.abandoned ∧ r.getLsbD 8 = c.frozen ∧ r.getLsbD 9 = c.failed) ∧
  (∀ part off, (off = 0x018 ∨ off = 0x020 ∨ 0x048 ≤ off) → registerRead s (.sched part) off = 0) ∧
  (∀ part (pt : Part), tget s.parts part = some pt →
    registerRead s (.sched part) 0x008 = BitVec.ofNat 64 pt.page.qtlim ∧ registerRead s (.sched part) 0x040 = pt.page.tail ∧
    (registerRead s (.sched part) 0x028).getLsbD 0 = false ∧ (registerRead s (.sched part) 0x028).getLsbD 1 = pt.page.tlbBusy)

/-- R298, R300, R304, R314: the engine takes the oldest command of q0 and performs it, and goes on with one that it has begun.
CZERO leaves zeros in the tiles it names and nothing else changed; an INT8 MMA adds 64 products to each element, clamped
once; the end of a command counts for its warp.  A command of a warp whose status holds a failure counts as complete and
has no effect.
Model choices: log 8, 50. -/
def Obligations.EnginePerformsItsCommands : Prop :=
  ∀ (s : State) (core k : Nat) (q : QCmd) (rest : List QCmd) (w : Mtx) (t₁ : State) (y : Warp),
  let co := coreOf s core
  let taken := modCore s core fun co => { co with q0 := rest }
  let runs : Prop := core < 1024 ∧ co.ctx.isSome = true ∧ co.stopped = false
  let start : Prop := runs ∧ co.cmd = none ∧ co.q0 = q :: rest
  let first : Prop := start ∧ discarded s core q = false ∧ engReady s core q = true ∧ afterMwait s core q = false
  let mine : Prop := tget co.warps q.warp = some y ∧ y.age = q.age
  let dot (m n : Nat) : Int := ((List.range 64).map fun k =>
    (BitVec.ofNat 8 (slotByte co w.a.toNat (64 * m + k))).toInt * (BitVec.ofNat 8 (slotByte co w.b.toNat (64 * n + k))).toInt).sum
  let done (acc : Nat → Nat → Nat → W32) : Prop := ∃ t y', exec (.enginePerform core) s = .next t ∧
    (coreOf t core).q0 = rest ∧ (coreOf t core).cmd = none ∧ (coreOf t core).slots = co.slots ∧ t.mem = s.mem ∧
    tget (coreOf t core).warps q.warp = some y' ∧ y'.mdone = y.mdone + 1 ∧ y'.v = y.v ∧ y'.m = y.m ∧
    ∀ c m n, m < 64 → n < 64 → accGet (coreOf t core) c m n = acc c m n
  (first → engDo taken core q 0 = .done t₁ → exec (.enginePerform core) s = .next (engFinish t₁ core q)) ∧
  (∀ p, runs → co.cmd = some (q, p) → q.begun = true ∨ engReady s core q = true → engDo s core q p = .done t₁ →
    exec (.enginePerform core) s = .next (engFinish t₁ core q)) ∧
  (start → mine → discarded s core q = true → afterMwait s core q = false → done (accGet co)) ∧
  (start → mine → discarded s core q = false → decode [q.word] = .ok (.czero w, k) → done fun c m n =>
    if w.d.toNat ≤ c ∧ c < w.d.toNat + w.n.toNat then 0 else accGet co c m n) ∧
  (start → mine → discarded s core q = false → decode [q.word] = .ok (.mma w, k) → w.ty = 0 → done fun c m n =>
    if c = w.d.toNat then low32 (clamp32 .i32 ((accGet co c m n).toInt + dot m n)) else accGet co c m n)

/-! Homes. -/

/-- R355-R358, R364: requests of another agent for a line of plain DRAM that its slice holds in a stable state: a clean line
in H is given exclusively to a reader, a shared one shared, a writer gets it alone once every other holder has been
snooped, and write-backs return an owner's data.  Lines that may not be cached are refused or served uncached.
R407, R409: the host's requests outside every host window get Err, and in PCIe mode its messages have no effect.
Model choices: log 16, 37, 59, 60, 62, 122, 123.  -/
def Obligations.HomeServesOtherAgents : Prop :=
  ∀ (s : State) (a line k : Nat) (w : Way) (data : Line) (mask : LineMask) (r : WinRegs),
  let h := holderOf s line
  let sl := sliceOf s h
  let st := glazeState w.glaze
  let others := (sharersOf s w.glaze).filter (· ≠ a)
  let stable : Prop :=
    a < 63 ∧ heard s a = true ∧ mayAsk s a line = true ∧ isDram line = true ∧ uncachable s line = false ∧ sl.gated = false ∧ sl.inputLines.contains line = false ∧
    inBuffer sl < 64 ∧ entryOf sl line = none ∧ findWay sl line = some (k, w) ∧ w.valid = 0xF ∧ w.line = line ∧
    glazeBad w.glaze = false
  let answers (i : Instr) (m : Msg) (w' : Way) : Prop := ∃ t, exec i s = .next t ∧ t.outbox = s.outbox ++ [m] ∧
    tget (sliceOf t h).ways k = some (stamped s w') ∧ t.mem = s.mem ∧ t.cores = s.cores
  let asks (i : Instr) (kind : MKind) (p : Phase) (cur : HReq) (ts : List Nat) : Prop := ∃ t e, exec i s = .next t ∧
    t.outbox = s.outbox ++ ts.map (fun b => { agent := b, kind := kind, line := line }) ∧
    entryOf (sliceOf t h) line = some e ∧ e.phase = p ∧ e.cur = cur ∧ e.queue = []
  let reply (kind : MKind) (d : Line) : Msg := { agent := a, kind := kind, line := line, data := d }
  (stable → st = 0 → w.dirty = 0 → answers (.rds a line) (reply .datae w.data) (withGlaze (dropCopy w) 2 a 0)) ∧
  (stable → st = 0 → w.dirty ≠ 0 → answers (.rds a line) (reply .datas w.data) (withGlaze w 1 0 (addSharer 0 a))) ∧
  (stable → st = 1 → answers (.rds a line) (reply .datas w.data) (withGlaze w 1 0 (addSharer (glazeSharers w.glaze) a))) ∧
  (stable → st = 2 ∨ st = 4 →
    asks (.rds a line) .snps (.fs (glazeOwner w.glaze) false) (.rds a) [glazeOwner w.glaze]) ∧
  (stable → st = 0 → answers (.rdx a line) (reply .datam w.data) (withGlaze (dropCopy w) 4 a 0)) ∧
  (stable → st = 1 → others = [] → answers (.rdx a line) (reply .datam w.data) (withGlaze (dropCopy w) 4 a 0)) ∧
  (stable → st = 1 → others ≠ [] → asks (.rdx a line) .snpi (.fx noOwner others false) (.rdx a) others) ∧
  (stable → st = 1 → others = [] → glazeSharers w.glaze / 2 ^ (a / 4) % 2 = 1 →
    answers (.upg a line) (reply .gntm 0) (withGlaze (dropCopy w) 4 a 0)) ∧
  (stable → st = 2 ∨ st = 4 →
    asks (.upg a line) .snpi (.fx (glazeOwner w.glaze) [glazeOwner w.glaze] false) (.rdx a) [glazeOwner w.glaze]) ∧
  (stable → st = 2 ∨ st = 4 → glazeOwner w.glaze = a → answers (.wbd a line data) (reply .wback 0)
    { withData w data 0xF with glaze := glazeMk 0 0 0 false, glazeDirty := true }) ∧
  (stable → st = 2 ∨ st = 4 → glazeOwner w.glaze = a → answers (.wbc a line) (reply .wback 0)
    (fillMissing s { w with glaze := glazeMk 0 0 0 false, glazeDirty := true })) ∧
  (∀ i ∈ [Instr.rds a line, .rdx a line, .upg a line, .wbd a line data, .wbc a line], a < 63 → heard s a = true →
    isDram line = false → isPacked line = false → exec i s = .next (send s { agent := a, kind := .err, line := line })) ∧
  (∀ i ∈ [Instr.rds a line, .rdx a line, .upg a line], a < 63 → a ≠ 0 → homedHere line = true → uncachable s line = true →
    exec i s = .next (send s { agent := a, kind := .nocache, line := line })) ∧
  (∀ i ∈ [Instr.rds 0 line, .rdx 0 line, .upg 0 line, .rdu 0 line, .wru 0 line data mask], heard s 0 = true →
    (∀ p ∈ s.parts, ∀ b n, p.2.window = some (b, n) → 128 * line < b ∨ b + n < 128 * line + 128) →
    exec i s = .next (send s { agent := 0, kind := .err, line := line })) ∧
  (∀ i ∈ [Instr.rds 0 line, .rdx 0 line, .upg 0 line, .rdu 0 line, .wru 0 line data mask, .wbd 0 line data, .wbc 0 line],
    s.dev.cxl = false → exec i s = .next s) ∧
  (a < 63 → heard s a = true → mayAsk s a line = true → isDram line = true → sealedLine s line = true → exec (.rdu a line) s =
    .next (send s (reply .datau (ofLineBytes (memBytes s.mem (128 * line) 128))))) ∧
  (a < 63 → heard s a = true → isDram line = false ∨ sealedLine s line = false → exec (.rdu a line) s =
    .next (send s { agent := a, kind := .err, line := line })) ∧
  (a < 63 → heard s a = true → mayAsk s a line = true → isDram line = true → sealedWin s line = some r → winSealOf r = 1 →
    ∃ t, exec (.wru a line data mask) s = .next t ∧ ({ agent := a, kind := .wback, line := line } : Msg) ∈ t.outbox ∧
      ∀ i, i < 128 → memRead t.mem (128 * line + i) =
        if mask.getLsbD i then byteOf data i else memRead s.mem (128 * line + i)) ∧
  (a < 63 → heard s a = true → sealedWin s line = none → exec (.wru a line data mask) s =
    .next (send s { agent := a, kind := .err, line := line }))

/-- R19-R21, R348, R350, R356, R359: a request of this package goes from its port to its home in order, is performed there
on a line that the home has, waits on the line's entry or at the slice's input, or for the line's data; and a slice
without work begins a gate, gives up one line after the other, powers off, and wakes for the next request.
Model choices: log 6, 14. -/
def Obligations.HomeServesItsPorts : Prop :=
  ∀ (s : State) (port line h k : Nat) (r : Req) (e : TEntry) (w : Way) (rest : List Req) (ws : Tab Way),
  let sl := sliceOf s h
  let awake : Prop := isDram line = true ∧ sl.gated = false ∧ sl.gating = false ∧ sl.inputLines.contains line = false
  let first : Prop := port < 32 ∧ tgetD s.ports port [] = r :: rest ∧ r.line = line ∧ portReady s port r = true ∧
    unbacked s line = false ∧ r.home = h
  let taken : State := { s with ports := tput [] s.ports port ((r :: rest).filter fun q => q.seq ≠ r.seq) }
  let idle : Prop := h < 256 ∧ sl.gated = false ∧ sl.provs = []
  (first → writes r = false → exec (.lr port line) s = .next (submit taken h line (.own r))) ∧
  (first → writes r = true → exec (.lw port line) s = .next (submit taken h line (.own r))) ∧
  (awake → r.prov = none → entryOf sl line = none → findWay sl line = some (k, w) → w.valid = 0xF →
    glazeState w.glaze = 0 → glazeBad w.glaze = false → w.line = line → inBuffer (sliceOf (performOn s h k w r) h) ≤ 64 →
    submit s h line (.own r) = performOn s h k w r) ∧
  (awake → r.prov = none → entryOf sl line = none → findWay sl line = none → inBuffer sl < 64 →
    submit s h line (.own r) = addEntry s h { line := line, phase := .fd, cur := .own r }) ∧
  (awake → r.prov = none → entryOf sl line = none → findWay sl line = none → inBuffer sl ≥ 64 →
    submit s h line (.own r) = waitIn s h line (.own r)) ∧
  (awake → entryOf sl line = some e → submit s h line (.own r) =
    modEntry s h line fun e => { e with queue := e.queue ++ [.own r] }) ∧
  (sl.gating = false → sl.gated = true ∨ lineWaits sl line (provWrite (.own r)) = true →
    submit s h line (.own r) = waitIn s h line (.own r)) ∧
  (∀ d m, r.act = .write d m 0 → r.prov = none → r.race = none → windowAt s (128 * w.line) = none →
    ∃ w', tget (sliceOf (performOn s h k w r) h).ways k = some w' ∧ w'.data = mergeLine w.data d m ∧
      w'.glaze &&& ~~~ 0x2000000 = w.glaze &&& ~~~ 0x2000000) ∧
  (∀ b, h < 256 → b < 63 → isDram line = true → entryOf sl line = some e → e.phase = .fd → e.cur = .rds b →
    findWay sl line = none → tgetD s.glaze line 0 = 0 →
    ∃ t, exec (.dramFetchDone h line) s = .next t ∧
      ({ agent := b, kind := .datae, line := line, data := (dramLine s line).1 } : Msg) ∈ t.outbox ∧
      ∃ k' w', findWay (sliceOf t h) line = some (k', w') ∧ glazeState w'.glaze = 2 ∧ glazeOwner w'.glaze = b) ∧
  (idle → sl.gating = false → exec (.sliceGate h) s = .next (modSlice s h fun sl => { sl with gating := true })) ∧
  (idle → sl.gating = true → sl.entries = [] → sl.input = [] → sl.ways = (k, w) :: ws → w.held = none →
    ∃ t, exec (.sliceGate h) s = .next t ∧ (sliceOf t h).ways = tdel sl.ways k ∧ (sliceOf t h).gating = true ∧
      (w.glazeDirty = true → tgetD t.glaze w.line 0 = w.glaze)) ∧
  (idle → sl.gating = true → sl.entries = [] → sl.input = [] → sl.ways = [] →
    ∃ t, exec (.sliceGate h) s = .next t ∧ (sliceOf t h).gated = true ∧ (sliceOf t h).gating = false ∧ t.mem = s.mem) ∧
  (h < 256 → sl.gated = true → sl.input ≠ [] → exec (.sliceWake h) s =
    .next (modSlice s h fun sl => { sl with gated := false }))

/-- R356, R366, R369: answers to a home's snoops: a target that holds nothing or returns dirty data leaves the set, with
the data merged, and an owner that keeps a copy lets a reader have the line, shared or owned.  The requests that waited on
the entry are then the first at the slice's input.
Model choices: log 6. -/
def Obligations.HomeTakesSnoopAnswers : Prop :=
  ∀ (s : State) (a b line k o : Nat) (e : TEntry) (w : Way) (data : Line) (ts : List Nat) (merged : Bool),
  let h := holderOf s line
  let sl := sliceOf s h
  let open' : Prop := a < 63 ∧ heard s a = true ∧ entryOf sl line = some e
  let onward (t : State) : Prop := (sliceOf t h).input = e.queue ++ sl.input ∧
    (sliceOf t h).inputLines = e.queue.map (fun _ => line) ++ sl.inputLines
  (open' → e.phase = .fx o ts merged → a ∈ ts → ts.filter (· ≠ a) ≠ [] →
    ∃ t e', exec (.rspi a line) s = .next t ∧ entryOf (sliceOf t h) line = some e' ∧
      e'.phase = .fx o (ts.filter (· ≠ a)) merged ∧ e'.data = e.data ∧ t.outbox = s.outbox) ∧
  (open' → e.phase = .fx o ts merged → a ∈ ts → ts.filter (· ≠ a) ≠ [] →
    ∃ t e', exec (.rspid a line data) s = .next t ∧ entryOf (sliceOf t h) line = some e' ∧
      e'.phase = .fx o (ts.filter (· ≠ a)) true ∧ e'.data = some data ∧ t.outbox = s.outbox) ∧
  (open' → e.phase = .fx o [a] merged → e.cur = .rdx b → o ≠ 64 → findWay sl line = some (k, w) → w.line = line →
    ∃ t, exec (.rspid a line data) s = .next t ∧ onward t ∧
      t.outbox = s.outbox ++ [{ agent := b, kind := .datam, line := line, data := data }] ∧
      ∃ w', tget (sliceOf t h).ways k = some w' ∧ glazeState w'.glaze = 4 ∧ glazeOwner w'.glaze = b % 64) ∧
  (open' → e.phase = .fs a false → e.cur = .rds b → findWay sl line = some (k, w) → w.line = line →
    (∃ t, exec (.rsps a line data) s = .next t ∧ onward t ∧
      t.outbox = s.outbox ++ [{ agent := b, kind := .datas, line := line, data := data }] ∧
      ∃ w', tget (sliceOf t h).ways k = some w' ∧ w'.data = data ∧ w'.dirty = 0 ∧ glazeState w'.glaze = 1) ∧
    (∃ t, exec (.rspod a line data) s = .next t ∧ onward t ∧
      t.outbox = s.outbox ++ [{ agent := b, kind := .datas, line := line, data := data }] ∧
      ∃ w', tget (sliceOf t h).ways k = some w' ∧ w'.data = data ∧ w'.dirty = 0xF ∧ glazeState w'.glaze = 3 ∧
        glazeOwner w'.glaze = a % 64)) ∧
  (a < 63 → entryOf sl line = none → ∀ i ∈ [Instr.rspi a line, .rsps a line data, .rspod a line data, .rspid a line data],
    exec i s = .next s)

/-- R357, R358, R368: a slice that caches a remote line: it answers snoops by the state it holds the line in, takes the
data of the grant it asked for, and finishes its write-backs and uncached accesses when they are answered.  Messages of a
host that is not heard (R407, R411) have no effect.
Model choices: log 6, 37, 58, 123.  -/
def Obligations.CachedRemoteLines : Prop :=
  ∀ (s : State) (line k : Nat) (w : Way) (e : TEntry) (q : Req) (data : Line),
  let h := holderOf s line
  let sl := sliceOf s h
  let home := agentOfLine line
  let unseen : Prop := windowAt s (128 * line) = none
  let waits (p : Phase) : Prop := isRemote line = true ∧ entryOf sl line = some e ∧ e.phase = p ∧ e.cur = .own q
  let lacks : Prop := ∀ p ∈ sl.ways, p.2.line ≠ line
  let alone : Prop :=
    findWay sl line = some (k, w) ∧ tget sl.ways k = some w ∧ ∀ p ∈ tdel sl.ways k, p.2.line ≠ line
  let holds (x : Held) : Prop :=
    isRemote line = true ∧ entryOf sl line = none ∧ w.held = some x ∧ alone
  let replies (i : Instr) (kind : MKind) (d : Line) (x : Option Held) : Prop := ∃ t, exec i s = .next t ∧
    t.outbox = s.outbox ++ [{ agent := home, kind := kind, line := line, data := d }] ∧
    ((findWay (sliceOf t h) line).bind fun p => p.2.held) = x
  let has (i : Instr) (d : Line) (x : Held) : Prop := ∃ t k' w', exec i s = .next t ∧
    findWay (sliceOf t h) line = some (k', w') ∧ w'.data = d ∧ w'.held = some x
  let done (i : Instr) (f : State → State) : Prop := exec i s = .next (f (modSlice (dropEntry s h line) h fun sl =>
    { sl with input := e.queue ++ sl.input, inputLines := e.queue.map (fun _ => line) ++ sl.inputLines }))
  (∀ i ∈ [Instr.snps line, .snpi line, .datas line data, .datae line data, .datam line data, .gntm line, .wback line,
      .datau line data, .nocache line, .err line], heard s home = false → exec i s = .next s) ∧
  (heard s home = true →
  (holds .s ∨ holds .e → replies (.snps line) .rsps w.data (some .s)) ∧
  (holds .m → home ≠ 0 → replies (.snps line) .rspod w.data (some .o)) ∧
  (holds .m → home = 0 → replies (.snps line) .rspsd w.data (some .s)) ∧
  (holds .o → replies (.snps line) .rspod w.data (some .o)) ∧
  (holds .s ∨ holds .e → replies (.snpi line) .rspi 0 none) ∧
  (holds .m ∨ holds .o → replies (.snpi line) .rspid w.data none) ∧
  (isRemote line = true → entryOf sl line = none → findWay sl line = none →
    replies (.snps line) .rspi 0 none ∧ replies (.snpi line) .rspi 0 none) ∧
  (waits .sentS → lacks → q.act = .probe → has (.datas line data) data .s ∧ has (.datae line data) data .e) ∧
  (∀ d m p, (waits .sentX ∧ lacks) ∨ (waits .sentU ∧ alone) → q.act = .write d m p → q.prov = none → q.race = none →
    unseen → has (.datam line data) (mergeLine data d m) .m) ∧
  (∀ d m p, waits .sentU → q.act = .write d m p → q.prov = none → q.race = none → unseen → alone →
    has (.gntm line) (mergeLine w.data d m) .m) ∧
  (waits .sentWb ∨ waits .sentWrU → done (.wback line) fun t => answerUnit (performed t q) q (some 0)) ∧
  (waits .sentRdU → q.act = .read → done (.datau line data) fun t => deliver t q data 0) ∧
  (waits .sentRdU → q.act = .probe → done (.datau line data) fun t => answerUnit (performed t q) q (some data)) ∧
  (waits .sentS ∨ waits .sentX ∨ waits .sentU → isPacked (line % 2 ^ 34) = true → done (.nocache line) fun t => reqFault t q) ∧
  (∀ op ty rnd, waits .sentX ∨ waits .sentU → q.act = .atom op ty rnd → done (.nocache line) fun t => reqFault t q) ∧
  (waits .sentS → q.act = .read → isPacked (line % 2 ^ 34) = false →
    ∃ t e', exec (.nocache line) s = .next t ∧ entryOf (sliceOf t h) line = some e' ∧ e'.phase = .sentRdU ∧
      t.outbox = s.outbox ++ [{ agent := home, kind := .rdu, line := line }]) ∧
  (∀ d m p, waits .sentX → q.act = .write d m p → m ≠ 0 → isPacked (line % 2 ^ 34) = false →
    ∃ t e', exec (.nocache line) s = .next t ∧ entryOf (sliceOf t h) line = some e' ∧ e'.phase = .sentWrU ∧
      t.outbox = s.outbox ++ [{ agent := home, kind := .wru, line := line, data := d, mask := m }]) ∧
  (waits .sentS ∨ waits .sentX ∨ waits .sentU ∨ waits .sentRdU ∨ waits .sentWrU → done (.err line) fun t => reqFault t q))

/-- R16, R352, R367: errors at the homes: a corrected one is counted and a position spared at its 64th, an uncorrected one
poisons sectors, a lost glaze starts a recovery by snooping every agent of the domain and without any ends at once with
the line poisoned, a slice's data are dropped or poisoned, its tag
error takes a spare, or with none left is one of the base die, and an agent that does not answer in time is reported and
its line poisoned.
Model choices: log 16, 37, 103.  -/
def Obligations.ErrorsAtTheHomes : Prop := ∀ (s : State) (a line n k : Nat) (bad : BitVec 4) (w : Way) (e : TEntry),
  let h := holderOf s line
  let key := 65536 * n + k
  let seen := tgetD s.dev.corrected key 0 + 1
  let poisons (i : Instr) : Prop := ∃ t, exec i s = .next t ∧ (t.mem = s.mem) ∧
    (∀ j, j < 4 → t.memPoison.contains (4 * line + j) = (s.memPoison.contains (4 * line + j) || bad.getLsbD j)) ∧
    ((0x367, line) ∈ t.dev.log)
  (∃ t, exec (.dramCorrectable n k) s = .next t ∧ tgetD t.dev.corrected key 0 = seen ∧
    (64 ≤ seen → t.dev.spared.contains key = true) ∧ (seen < 64 → t.dev.spared = s.dev.spared) ∧ t.mem = s.mem) ∧
  (isDram line = true → bad ≠ 0 → poisons (.dramUncorrectable line bad) ∧ poisons (.patrolScrub line bad)) ∧
  (isDram line = true → entryOf (sliceOf s h) line = none → inBuffer (sliceOf s h) < 64 → domain s ≠ [] →
    ∃ t e', exec (.glazeLost line) s = .next t ∧
    entryOf (sliceOf t h) line = some e' ∧ e'.phase = .fx 64 (domain s) false ∧
    t.outbox = s.outbox ++ (domain s).map fun b => { agent := b, kind := .snpi, line := line }) ∧
  (isDram line = true → entryOf (sliceOf s h) line = none → inBuffer (sliceOf s h) < 64 → domain s = [] →
    ∃ t i w', exec (.glazeLost line) s = .next t ∧ tget (sliceOf t h).ways i = some w' ∧ w'.line = line ∧
    w'.poison = 0xF ∧ w'.glaze = glazeMk 0 0 0 true) ∧
  (n < 256 → exec (.sliceCorrectable n line) s = .next s) ∧
  (n < 256 → findWay (sliceOf s n) line = some (k, w) → w.held = none → ∃ t w',
    exec (.sliceDataUncorrectable n line bad) s = .next t ∧ tget (sliceOf t n).ways k = some w' ∧
    w'.poison = w.poison ||| (bad &&& w.dirty) ∧ w'.valid = w.valid &&& ~~~ (bad &&& ~~~ w.dirty) ∧ w'.data = w.data) ∧
  (n < 256 → findWay (sliceOf s n) line = some (k, w) → w.held = some .m ∨ w.held = some .o → ∃ t w',
    exec (.sliceDataUncorrectable n line bad) s = .next t ∧ tget (sliceOf t n).ways k = some w' ∧
    w'.poison = w.poison ||| bad ∧ w'.data = w.data) ∧
  (n < 256 → findWay (sliceOf s n) line = some (k, w) → w.held = some .s ∨ w.held = some .e →
    ∃ t, exec (.sliceDataUncorrectable n line bad) s = .next t ∧ (sliceOf t n).ways = tdel (sliceOf s n).ways k) ∧
  (n < 256 → s.dev.spareSlices = 0 → ∃ t, exec (.sliceTagUncorrectable n) s = .next t ∧ 0x31 ∈ t.dev.reasons) ∧
  (n < 256 → s.dev.spareSlices ≠ 0 → (sliceOf s n).ways = [] → partOfChiplet s (n / 32) = none → ∃ t, exec (.sliceTagUncorrectable n) s = .next t ∧
    t.dev.spareSlices = s.dev.spareSlices - 1 ∧ (0x16, n) ∈ t.dev.log) ∧
  (∀ p, n < 256 → s.dev.spareSlices ≠ 0 → (sliceOf s n).ways = [] → partOfChiplet s (n / 32) = some p → s.launches = [] →
    ∃ t, exec (.sliceTagUncorrectable n) s = .next t ∧ t.dev.irqs = s.dev.irqs ++ [(p, 0)]) ∧
  (∀ o ts m, a < 63 → entryOf (sliceOf s h) line = some e → e.phase = .fx o ts m → a ∈ ts → ts.filter (· ≠ a) ≠ [] →
    e.since + 2 ^ 24 ≤ s.clock → findWay (sliceOf s h) line = some (k, w) →
    ∃ t e' w', exec (.snoopTimeout a line) s = .next t ∧ (0x368, a) ∈ t.dev.log ∧
      entryOf (sliceOf t h) line = some e' ∧ e'.phase = .fx o (ts.filter (· ≠ a)) m ∧
      tget (sliceOf t h).ways k = some w' ∧ (o = a → m = false → w'.poison = 0xF) ∧
      (o ≠ a → tget (sliceOf s h).ways k = some w → w' = w)) ∧
  (∀ o ts m, a < 63 → entryOf (sliceOf s h) line = some e → e.phase = .fx o ts m → s.clock < e.since + 2 ^ 24 →
    exec (.snoopTimeout a line) s = .next s)

/-! Events of the scheduling engine. -/

/-- R372, R375, R376, R377: a queue enabled with a sound descriptor and context is active, watched and holds what the
descriptor says; any other is faulted with code 0x11; an enable waits while a line of the tables is on its way; disabling
and clearing a fault change its state; the watched slot is accepted once its valid byte carries the generation of the
ring's pass, and a slot that cannot be read faults the queue.
R411: writes of QCTL have no effect while the partition's stream is insecure.
Model choices: log 16, 75, 121, 123.  -/
def Obligations.QueuesAreWatched : Prop :=
  ∀ (s : State) (part queue pa : Nat) (leaf : W64) (level : Nat),
  let q := queueOf s part queue
  let known : Prop := part < 8 ∧ queue < 4096 ∧ queueHere s part queue = true ∧ insecure s part = false
  let page := pageOf s part
  let place := page.qtbase + 64 * queue
  let who := deviceWho 3 (queueKey part queue)
  let bs := peekBytes s pa 64
  let f (off n : Nat) : Nat := descNat bs off n
  let desc := f 0x10 8
  let ds := peekBytes s desc 128
  let found : Prop := known ∧ walkDesc s page.ctx0.toNat part place = .ok leaf level ∧ leaf.getLsbD 2 = true ∧
    leafPa leaf level place = pa ∧ Readable s who pa 64
  let alsoRead : Prop := Readable s (deviceWho 3 (32768 + queueKey part queue)) desc 128
  let sound : Prop := f 0 8 % 256 = 0 ∧ (∃ k, 1 ≤ k ∧ k ≤ 16 ∧ f 8 4 = 2 ^ k) ∧ f 0x0C 1 ≤ 7 ∧ f 0x0D 3 = 0 ∧
    f 0x24 28 = 0 ∧ desc % 128 = 0
  let leaves (i : Instr) (x : Queue) : Prop := ∃ t, exec i s = .next t ∧ queueOf t part queue = x
  let va := q.ring + 256 * (q.consumed % q.len)
  let slot := leafPa leaf level va
  let sb := peekBytes s slot 256
  (found → sound → descPlaced s part desc = true → alsoRead → descOk s part ds = true →
    leaves (.queueEnable part queue)
      { q with st := 1, code := 0, ring := f 0 8, len := f 8 4, prio := f 0x0C 1, ctx := part * 2 ^ 32 + descNat ds 0 4,
               consumed := f 0x18 8, wasActive := true, watch := true, links := 0, aged := 0, enabling := false }) ∧
  (found → ¬ sound ∨ descPlaced s part desc = false ∨ (alsoRead ∧ descOk s part ds = false) →
    leaves (.queueEnable part queue) { q with st := 2, code := 0x11, wasActive := false, watch := false, enabling := false }) ∧
  (∀ l, known → walkDesc s page.ctx0.toNat part place = .busy l →
    exec (.queueEnable part queue) s = .next (enableLater (wantLine s part l false) part queue)) ∧
  (known → leaves (.queueDisable part queue) { q with st := 0, code := 0, wasActive := false, watch := false, enabling := false }) ∧
  (∀ i ∈ [Instr.queueEnable part queue, .queueDisable part queue, .queueClearFault part queue],
    insecure s part = true → exec i s = .next s) ∧
  (known → q.st = 2 → q.wasActive = true →
    leaves (.queueClearFault part queue) { q with st := 1, code := 0, watch := true }) ∧
  (known → q.st ≠ 2 ∨ q.wasActive = false → exec (.queueClearFault part queue) s = .next s) ∧
  (part < 8 → queue < 4096 → q.watch = false → exec (.slotAccept part queue) s = .next s) ∧
  (part < 8 → queue < 4096 → q.watch = true → walk s q.ctx va = .ok leaf level → leaf.getLsbD 2 = true →
    Readable s who slot 256 → descNat sb 0xFF 1 = q.consumed / q.len % 255 + 1 →
    ∃ t c, exec (.slotAccept part queue) s = .next t ∧ t.cmds = s.cmds ++ [c] ∧ c.part = part ∧ c.queue = queue ∧
      c.index = q.consumed ∧ c.ctx = q.ctx ∧ c.bytes = sb ∧ c.st = .parsed ∧ (q.st = 2 → c.code = some 0x13) ∧
      (queueOf t part queue).consumed = (q.consumed + 1) % 2 ^ 64) ∧
  (part < 8 → queue < 4096 → q.watch = true → walk s q.ctx va = .ok leaf level → leaf.getLsbD 2 = true →
    Readable s who slot 256 → descNat sb 0xFF 1 ≠ q.consumed / q.len % 255 + 1 →
    exec (.slotAccept part queue) s = .next s) ∧
  (part < 8 → queue < 4096 → q.watch = true → walk s q.ctx va = .bad →
    leaves (.slotAccept part queue) { q with st := 2, code := 2, watch := false }) ∧
  (part < 8 → queue < 4096 → q.watch = true → walk s q.ctx va = .ok leaf level → leaf.getLsbD 2 = false →
    leaves (.slotAccept part queue) { q with st := 2, code := 3, watch := false })

/-- R177, R221, R373, R374: the driver's response to a waiting warp replays its word, goes on behind the word of a BRK's
frame, or fails the block, once the frame can be read; an invalidation drops a context's translations from every TLB, and
is done once no access of the context is on its way and no copy of it goes on with pages found before.
R411: neither has an effect while the partition's stream is insecure.
Model choices: log 42, 55, 120, 123.  -/
def Obligations.DriverAnswersAndInvalidations : Prop :=
  ∀ (s : State) (part ctxid core w : Nat) (x : Warp) (sl : Slot) (f leaf : W64) (level : Nat),
  let key := part * 2 ^ 32 + ctxid
  let asked : Prop := part < 8 ∧ core < 1024 ∧ w < 48 ∧ (coreOf s core).ctx = some key ∧
    tget (coreOf s core).warps w = some x ∧ driverSlot x = some (sl, f) ∧ x.resp = none ∧ insecure s part = false
  let frame := peekBytes s (leafPa leaf level f.toNat) 64
  let found : Prop := walk s key f.toNat = .ok leaf level ∧
    Readable s (deviceWho 1 (64 * core + w)) (leafPa leaf level f.toNat) 64
  let kept (l m : List TlbE) (k : Nat) : Prop := ∀ e, e ∈ m ↔ e ∈ l ∧ e.ctx ≠ k
  let mine (r : Req) : Prop := r.core < 1024 ∧ (coreOf s r.core).ctx = some (part * 2 ^ 32 + (pageOf s part).tlbCtx)
  let going (c : Copy) : Prop := c.ctx = part * 2 ^ 32 + (pageOf s part).tlbCtx ∧ c.pages ≠ []
  (asked → ∃ t y, exec (.drvrespReplay part ctxid core w) s = .next t ∧ tget (coreOf t core).warps w = some y ∧
    (pathOf y sl).wait = .none ∧ (pathOf y sl).pc = (pathOf x sl).pc ∧ (pathOf y sl).mask = (pathOf x sl).mask ∧
    (pathOf y sl).remain = (pathOf x sl).remain ∧ y.v = x.v ∧ y.sc = x.sc ∧ y.m = x.m ∧ t.mem = s.mem) ∧
  (asked → found → frame.getD 0x39 0 = 2 → exec (.drvrespResume part ctxid core w) s =
    .next (modWarp s core w fun x => restoreFrame (leaveDriver x sl) sl frame 1 0)) ∧
  (asked → found → frame.getD 0x39 0 ≠ 2 → exec (.drvrespResume part ctxid core w) s =
    .next (failBlock s core x.block frame)) ∧
  (asked → found →
    exec (.drvrespFail part ctxid core w) s = .next (failBlock s core x.block frame)) ∧
  (∀ l, asked → walk s key f.toNat = .busy l → exec (.drvrespFail part ctxid core w) s =
    .next (modWarp (wantLine s (ctxOf s key).part l false) core w fun x => { x with resp := some 2 })) ∧
  (∀ i ∈ [Instr.drvrespReplay part ctxid core w, .drvrespResume part ctxid core w, .drvrespFail part ctxid core w,
    .tlbinv part ctxid], insecure s part = true → exec i s = .next s) ∧
  (part < 8 → (tget s.parts part).isSome = true → insecure s part = false → (pageOf s part).tlbBusy = false →
    ∃ t, exec (.tlbinv part ctxid) s = .next t ∧ (pageOf t part).tlbBusy = true ∧ (pageOf t part).tlbCtx = ctxid ∧
      (∀ c, kept (coreOf s c).tlb (coreOf t c).tlb key) ∧
      ∀ c, kept (tgetD s.clusterTlb c []) (tgetD t.clusterTlb c []) key) ∧
  (part < 8 → (pageOf s part).tlbBusy = true → exec (.tlbinv part ctxid) s = .next s) ∧
  (part < 8 → (∃ r ∈ reqsAbroad s, mine r) ∨ (∃ c ∈ s.copies, going c.2) → exec (.tlbinvDone part) s = .next s) ∧
  (part < 8 → (∀ r ∈ reqsAbroad s, ¬ mine r) → (∀ c ∈ s.copies, ¬ going c.2) → ∃ t, exec (.tlbinvDone part) s = .next t ∧
    pageOf t part = { pageOf s part with tlbBusy := false } ∧ t.cores = s.cores ∧ t.mem = s.mem)

/-- R378, R380, R384, R385: a command that may start and has no code starts: COPY supplies one copy, SIGNAL writes its
word, WAIT compares, MARKER and NOP complete; one with a code completes with it.  A WAIT ends when its condition holds or
at its deadline, where it faults its queue; a queue ages while its oldest ready command waits; and when the standby takes
over, commands in flight but launches complete LOST.
Model choices: log 16, 72, 120.  -/
def Obligations.CommandsRun : Prop :=
  ∀ (s : State) (part queue index : Nat) (c : Cmd) (pa old : Nat),
  let mayGo (ty : Nat) : Prop := part < 8 ∧ queue < 4096 ∧ findCmd s part queue index = some c ∧ cmdType c = ty ∧
    mayStartCmd s c = true ∧ c.code = none
  let s' := modQueue s part queue fun q => { q with aged := 0 }
  let op := cmdField c 0x10 1
  let v := cmdField c 8 8
  let spec (i : Instr) (ty : Nat) : Prop := ∀ k, part < 8 → queue < 4096 → findCmd s part queue index = some c →
    cmdType c = ty → mayStartCmd s c = true → c.code = some k → exec i s = .next (completeCmd s' c k 0)
  let drop (t : State) : State := dropAnswers t (cmdWho c)
  let out (t : State) (n : Nat) : State := faultQueue (completeCmd (drop t) c n 0) c.part c.queue n
  let held : Prop := part < 8 ∧ queue < 4096 ∧ findCmd s part queue index = some c ∧ c.st = .waiting
  (∀ n k, c.part = part → c.queue = queue → c.index = index → findCmd (completeCmd s c n k) part queue index = none) ∧
  spec (.launch part queue index) 1 ∧ spec (.proofed part queue index) 3 ∧ spec (.copy part queue index) 4 ∧
  spec (.signal part queue index) 5 ∧ spec (.wait part queue index) 6 ∧ spec (.marker part queue index) 7 ∧
  spec (.nopCmd part queue index) 8 ∧ spec (.nopCmd part queue index) 0 ∧
  (mayGo 7 → exec (.marker part queue index) s = .next (completeCmd s' c 0 0)) ∧
  (mayGo 8 → exec (.nopCmd part queue index) s = .next (completeCmd s' c 0 0)) ∧
  (mayGo 4 → 1024 ≤ engineCopies s' (freestEngine s' c.part) → exec (.copy part queue index) s = .next s') ∧
  (mayGo 4 → engineCopies s' (freestEngine s' c.part) < 1024 → ∃ t k y c', exec (.copy part queue index) s = .next t ∧ tget t.copies s.nextCopy = some k ∧ k.st = .ready ∧
    k.ctx = c.ctx ∧ k.cmd = some (part, queue, index) ∧ k.cond = false ∧ k.slices = [y] ∧ y.firstRow = 0 ∧
    y.src = descOf (c.bytes.take 32) ∧ y.dst = descOf ((c.bytes.drop 32).take 32) ∧ y.count = y.src.rows ∧
    findCmd t part queue index = some c' ∧ c'.st = .started) ∧
  (mayGo 5 → wordAt s' c true = .ok pa old → exec (.signal part queue index) s =
    .next (completeCmd (homeWriteBytes s' part pa
      (leBytes 8 (if op = 0 then v else if op = 1 then (old + v) % 2 ^ 64 else max old v))) c 0 0)) ∧
  (∀ n, mayGo 5 → wordAt s' c true = .fail n → exec (.signal part queue index) s = .next (completeCmd (drop s') c n 0)) ∧
  (mayGo 6 → wordAt s' c false = .ok pa old → condTy .n64 op old v = true → waitsHeld s' < 1024 →
    exec (.wait part queue index) s = .next (completeCmd (drop s') c 0 0)) ∧
  (mayGo 6 → wordAt s' c false = .ok pa old → condTy .n64 op old v = false → cmdField c 0x18 8 = 0 →
    exec (.wait part queue index) s = .next (out s' 0x12)) ∧
  (mayGo 6 → wordAt s' c false = .ok pa old → waitHolds s' c = some false → cmdField c 0x18 8 ≠ 0 →
    ∃ t c', exec (.wait part queue index) s = .next t ∧ findCmd t part queue index = some c' ∧ c'.st = .waiting ∧
      c'.deadline = s.clock + cmdField c 0x18 8 ∧ (c'.spilled = true ↔ 1024 ≤ waitsHeld s')) ∧
  (∀ n, mayGo 6 → wordAt s' c false = .fail n → exec (.wait part queue index) s = .next (out s' n)) ∧
  (held → s.clock ≤ c.deadline → c.spilled = false → waitHolds s c = some true →
    exec (.waitMet part queue index) s = .next (completeCmd (drop s) c 0 0)) ∧
  (held → s.clock ≤ c.deadline → c.spilled = false → waitHolds s c = some false →
    exec (.waitMet part queue index) s = .next (drop s)) ∧
  (held → s.clock < c.deadline → exec (.waitTimeout part queue index) s = .next s) ∧
  (held → s.clock = c.deadline → waitHolds s c = some true →
    exec (.waitTimeout part queue index) s = .next (completeCmd (drop s) c 0 0)) ∧
  (held → s.clock > c.deadline ∨ (s.clock = c.deadline ∧ waitHolds s c ≠ some true) →
    exec (.waitTimeout part queue index) s = .next (out s 0x12)) ∧
  (∀ r, part < 8 → queue < 4096 → (s.cmds.filter fun d => d.part == part && d.queue == queue && canStart s d).head? = some c →
    c.ready = some r → (queueOf s part queue).aged < (s.clock - r) / 2 ^ 16 →
    ∃ t, exec (.priorityAge part queue) s = .next t ∧ (queueOf t part queue).aged = (s.clock - r) / 2 ^ 16 ∧
      effPrio t part queue = min 7 ((queueOf s part queue).prio + (s.clock - r) / 2 ^ 16)) ∧
  (s.dev.schedulers ≥ 2 → s.launches = [] → ∃ t, exec .schedulerTakeover s = .next t ∧
    t.dev.schedulers = s.dev.schedulers - 1 ∧
    ∀ d ∈ t.cmds, d ∈ s.cmds ∧ (d.st = .parsed ∨ cmdType d = 1 ∨ cmdType d = 3)) ∧
  (s.dev.schedulers < 2 → exec .schedulerTakeover s = .next s)

/-- R379-R382, R386, R392, R394: a LAUNCH that some core can hold enters the tables with what its slot says, and its blocks
go to its distributors by granules; a PROOFED launches its predicted blocks and waits for its shape; one that no core can
hold completes NOCAP; a LINK joins the slots of its bundle, and completes MALFORMED where none expects it.
Model choices: log 65, 66. -/
def Obligations.LaunchesBegin : Prop :=
  ∀ (s : State) (part queue index : Nat) (c : Cmd) (leaf : W64) (level : Nat),
  let mayGo (ty : Nat) : Prop := part < 8 ∧ queue < 4096 ∧ findCmd s part queue index = some c ∧ cmdType c = ty ∧
    mayStartCmd s c = true ∧ c.code = none
  let s' := modQueue s part queue fun q => { q with aged := 0 }
  let f (off n : Nat) : Nat := cmdField c off n
  let l0 := launchFrom c
  let sites := distSites s' l0
  let begun (t : State) (l : Launch) : Prop := tget t.launches s.nextLaunch = some l ∧ t.nextLaunch = s.nextLaunch + 1 ∧
    l.ctx = c.ctx ∧ l.part = c.part ∧ l.queue = c.queue ∧ l.index = c.index ∧ l.gx = f 0x18 4 ∧ l.gy = f 0x1C 4 ∧
    l.gz = f 0x20 4 ∧ l.subs = l0.subs ∧ l.born = s.clock ∧ l.ended = 0 ∧ l.failed = 0 ∧
    ∃ c', findCmd t part queue index = some c' ∧ c'.st = .started ∧ c'.launch = s.nextLaunch
  let hasBlocks (l : Launch) (n : Nat) : Prop := l.pairs = false → ∀ d site, sites[d]? = some site →
    tgetD l.dists site [] = (List.range n).filter fun b => b / l.g % sites.length = d
  let raw := rawPred (predictorOf s' part (f 0x60 4)) (BitVec.ofNat 32 (f 0x60 4)) (f 0x64 1) (f 0x74 4)
  (mayGo 1 → linksOf c.bytes = 0 → capable s' l0 = true → 0 < f 0x18 4 * f 0x1C 4 * f 0x20 4 →
    ∃ t l, exec (.launch part queue index) s = .next t ∧ begun t l ∧ l.total = f 0x18 4 * f 0x1C 4 * f 0x20 4 ∧
      l.resolved = true ∧ l.proofed = false ∧ hasBlocks l (f 0x18 4 * f 0x1C 4 * f 0x20 4)) ∧
  (mayGo 1 → linksOf c.bytes = 0 → capable s' l0 = false → exec (.launch part queue index) s =
    .next (completeCmd s' c 0x14 0)) ∧
  (∀ k, mayGo 1 → k < linksOf c.bytes → linkBad c.bytes ((c.bytes.drop (256 * (k + 1))).take 256) = true →
    exec (.launch part queue index) s = .next (completeCmd s' c 0x11 0)) ∧
  (mayGo 3 → walk s' c.ctx (f 0x68 8) = .ok leaf level → leaf.getLsbD 2 = true → capable s' l0 = true →
    ∃ t l, exec (.proofed part queue index) s = .next t ∧ begun t l ∧ l.proofed = true ∧ l.resolved = false ∧
      l.floor = f 0x70 4 ∧ l.limit = f 0x18 4 ∧ l.shapeSrc = f 0x68 8 ∧ l.deadline = s.clock + f 0x78 8 ∧
      (l.predicted : Int) = max 0 (min (max raw (f 0x70 4)) (f 0x18 4)) ∧ l.total = l.predicted ∧ hasBlocks l l.predicted) ∧
  (mayGo 3 → walk s' c.ctx (f 0x68 8) = .bad → exec (.proofed part queue index) s = .next (completeCmd s' c 2 0)) ∧
  (mayGo 3 → walk s' c.ctx (f 0x68 8) = .ok leaf level → leaf.getLsbD 2 = false →
    exec (.proofed part queue index) s = .next (completeCmd s' c 3 0)) ∧
  (mayGo 3 → walk s' c.ctx (f 0x68 8) = .ok leaf level → leaf.getLsbD 2 = true → capable s' l0 = false →
    exec (.proofed part queue index) s = .next (completeCmd s' c 0x14 0)) ∧
  (mayGo 2 → c.bundle = none → exec (.link part queue index) s = .next (completeCmd s' c 0x11 0)) ∧
  (∀ h a, part < 8 → queue < 4096 → findCmd s part queue index = some c → c.bundle = some h → h ≠ index →
    findCmd s part queue h = some a → a.bytes.length = 256 * (index - h) →
    ∃ t a', exec (.link part queue index) s = .next t ∧ findCmd t part queue h = some a' ∧ a'.bytes = a.bytes ++ c.bytes ∧
      findCmd t part queue index = none)

/-- R144, R332, R386-R390: distributors send blocks to leaf controllers, two of a launch to each at a time; an idle one
takes the higher half of what the fullest has; a leaf places its next block on a core that can take it, where each warp
stands at the entry with all its lanes; its bind record has its fields and a valid last byte; a leaf that is lost is
served by its neighbour.
Model choices: log 1, 71, 119.  -/
def Obligations.BlocksArePlaced : Prop :=
  ∀ (s : State) (id site leaf core b k : Nat) (l : Launch) (sub : Sub) (rest bs : List Nat) (u : State),
  let lf := leafState s leaf
  let r := bs.length
  let mate := Nat.xor leaf 1
  let c := chipletOf core
  (site < 8 → leaf < 64 → tget s.launches id = some l → tgetD l.dists site [] = b :: rest → leafServes s l leaf = true →
    (lf.waiting.filter fun w => w.1 == id).length < 2 → ∃ t l', exec (.blockSend id site leaf) s = .next t ∧
      tget t.launches id = some l' ∧ tgetD l'.dists site [] = rest ∧
      (leafState t leaf).waiting = lf.waiting ++ [(id, b)] ∧ t.cores = s.cores) ∧
  (2 ≤ (lf.waiting.filter fun w => w.1 == id).length → exec (.blockSend id site leaf) s = .next s) ∧
  (tget s.launches id = some l → leafServes s l leaf = false → exec (.blockSend id site leaf) s = .next s) ∧
  (∀ d, site < 8 → tget s.launches id = some l → tgetD l.dists site [] = [] → site ∈ distSites s l →
    siteWorks s site = true → d ≠ site → (d, bs) ∈ l.dists → (∀ e ∈ l.dists, e ≠ (d, bs) → e.2.length < r) → 2 ≤ r → r < 2 ^ 33 →
    ∃ t l', exec (.steal id site) s = .next t ∧ tget t.launches id = some l' ∧
      tgetD l'.dists d [] = bs.take (r - r / 2) ∧ tgetD l'.dists site [] = bs.drop (r - r / 2)) ∧
  (tget s.launches id = some l → tgetD l.dists site [] ≠ [] → exec (.steal id site) s = .next s) ∧
  (leaf < 64 → leafNext s leaf = [(id, b)] → placeUnit s leaf id b = some u → exec (.blockPlace leaf) s = .next u) ∧
  (leaf < 64 → leafNext s leaf = [(id, b)] → placeUnit s leaf id b = none → exec (.blockPlace leaf) s = .next s) ∧
  (tget s.launches id = some l → bindPart s core id b k sub .none = some u → (unitOf s c).fresh ≤ 8191 →
    ∃ slot blk crew, slot < 16 ∧ tget (coreOf u core).blocks slot = some blk ∧ (coreOf u core).ctx = some l.ctx ∧
      blk.launch = id ∧ blk.linear = b ∧ blk.sub = k ∧ (blk.bx, blk.byy, blk.bz) = blockId l b ∧
      blk.scratchGran = scratchOfSub sub ∧ (blk.prov = true ↔ l.resolved = false ∧ l.floor ≤ b) ∧
      bindRead u core slot 127 = 0xA5 ∧ tgetD u.binds (16 * core + slot) [] = bindImg u core slot ∧
      descNat (bindImg u core slot) 0 4 = l.ctx % 2 ^ 32 ∧ descNat (bindImg u core slot) 0x14 1 = slot ∧
      descNat (bindImg u core slot) 0x24 2 = blk.scratchBase % 2 ^ 16 ∧
      crewOf u blk.bcrew = some crew ∧ crew.members = sub.lanes / 32 ∧ crew.arrived = 0 ∧
      ∀ i, i < sub.lanes / 32 → ∃ w y, w < 48 ∧ tget (coreOf s core).warps w = none ∧
        tget (coreOf u core).warps w = some y ∧ y.block = slot ∧ y.index = i ∧ y.a.st = .live ∧ y.a.pc = sub.entry ∧
        y.a.mask = 0xFFFFFFFF ∧ y.b.st = .empty ∧ y.granules.length = (sub.regs + 7) / 8 ∧ y.exited = 0 ∧
        y.crews = [(blk.bcrew, 0, false)]) ∧
  (leaf < 64 → lf.lost = false → (leafState s mate).lost = false → ∃ t, exec (.leafTakeover leaf) s = .next t ∧
    leafState t leaf = { lf with lost := true } ∧ t.dev.log = s.dev.log ++ [(0x390, leaf)] ∧
    ∀ p, partOfChiplet s (leaf / 8) = some p → t.dev.irqs = s.dev.irqs ++ [(p, 0)]) ∧
  (leaf < 64 → lf.lost = true ∨ (leafState s mate).lost = true → exec (.leafTakeover leaf) s = .next s)

/-- R393, R396, R397, R400, R403-R405: a shape word without its valid bit resolves nothing; with it the launch is resolved
to the shape: as many blocks as the shape and the limit allow, none taken back that the floor or the shape keeps, the tail
handed out, blocks beyond the limit counted failed, and the predictor's entry updated.  At the deadline it resolves to the
floor.  While a line on the way to the word is elsewhere it waits.  Blocks already placed are not spoken of here.
Model choices: log 16, 70, 120.  -/
def Obligations.ShapesResolveLaunches : Prop :=
  ∀ (s : State) (id line v pa : Nat) (l : Launch),
  let open' : Prop := tget s.launches id = some l ∧ l.resolved = false
  let x := v % 2 ^ 32
  let total := if l.predicted ≤ x then min x l.limit else max x l.floor
  let bare : Prop := (∀ c ∈ s.cores, ∀ b ∈ c.2.blocks, b.2.launch ≠ id) ∧
    (∀ p ∈ s.slices, ∀ q ∈ p.2.provs, q.launch ≠ id) ∧ l.lost = [] ∧ l.ended < total
  (open' → shapeWord s id l = .ok pa v → v < 2 ^ 63 →
    exec (.shapeResolve id) s = .next (dropAnswers s (shapeWho id))) ∧
  (open' → shapeWord s id l = .busy line → l.deadline ≤ s.clock →
    exec (.shapeTimeout id) s = .next (wantLine s l.part line false none (shapeWho id))) ∧
  (open' → shapeWord s id l = .busy line →
    exec (.shapeResolve id) s = .next (wantLine s l.part line false none (shapeWho id))) ∧
  (open' → shapeWord s id l = .ok pa v → 2 ^ 63 ≤ v → bare → ∃ t l', exec (.shapeResolve id) s = .next t ∧
    tget t.launches id = some l' ∧ l'.resolved = true ∧ l'.timedOut = false ∧ l'.total = total ∧
    l'.shape = min x l.limit ∧ l'.failed = l.failed + (x - l.limit) ∧ l'.ended = l.ended ∧
    (l.pairs = false → distSites s l ≠ [] → ∀ b, l.predicted ≤ b → b < min x l.limit →
      ∃ site ∈ distSites s l, b ∈ tgetD l'.dists site []) ∧
    ((tget s.parts l.part).isSome = true → predictorOf t l.part l.ktag.toNat =
      learn (predictorOf s l.part l.ktag.toNat) l.ktag l.mode (BitVec.ofNat 32 x))) ∧
  (∀ (e : Pred) (tag : W32) (mode : Nat) (y : W32),
    (mode = 3 → learn e tag mode y = e) ∧ (mode ≠ 3 → e.tag ≠ tag → learn e tag mode y = { tag := tag, count := 1, h := [y] }) ∧
    (mode ≠ 3 → e.tag = tag →
      learn e tag mode y = { tag := tag, count := min (e.count + 1) 4, h := (y :: e.h).take 4 })) ∧
  (open' → (∀ n w, shapeWord s id l = .ok n w → w < 2 ^ 63) → (∀ n, shapeWord s id l ≠ .busy n) → l.deadline ≤ s.clock →
    exec (.shapeTimeout id) s = .next (resolve s id l.floor true)) ∧
  (open' → s.clock < l.deadline → exec (.shapeTimeout id) s = .next s) ∧
  (open' → shapeWord s id l = .ok pa v → 2 ^ 63 ≤ v → exec (.shapeTimeout id) s = .next s) ∧
  (tget s.launches id = some l → l.resolved = true →
    exec (.shapeResolve id) s = .next s ∧ exec (.shapeTimeout id) s = .next s)

/-! Chiplets and the clock. -/

/-- R4, R27, R421: a fenced chiplet takes no block and its leaves hold none; one in reset or dropped loses a context not
saved in time; a dropped one stays out; one that passes its self-test comes back empty, and one that fails is dropped.
Each action is logged.  The arithmetic clock takes the frequencies of its table.
Model choices: log 76, 77, 78, 79. -/
def Obligations.ChipletsFenceResetDrop : Prop :=
  ∀ (s : State) (c core mhz : Nat),
  let x := chipOf s c
  let quietLeaves (t : State) : Prop := ∀ f ∈ t.leaves, f.1 / 8 = c → f.2.waiting = []
  let shut (t : State) : Prop := ∀ k, chipletOf k = c → coreInService t k = false
  let y := chipOf s (chipletOf core)
  let late : Prop := (y.resetting = true ∨ y.dropped = true) ∧ y.began + 1600 * 65536 < s.arith
  (c < 8 → x.dropped = false → x.fenced = false → ∃ t, exec (.chipletFence c) s = .next t ∧
    chipOf t c = { x with fenced := true } ∧ quietLeaves t ∧ shut t ∧ (0x271, c) ∈ t.dev.log) ∧
  (c < 8 → x.dropped = true ∨ x.fenced = true → exec (.chipletFence c) s = .next s) ∧
  (c < 8 → x.dropped = false → x.resetting = false → ∃ t, exec (.chipletReset c) s = .next t ∧
    chipOf t c = { x with fenced := true, resetting := true, began := s.arith } ∧ shut t ∧ (0x272, c) ∈ t.dev.log) ∧
  (c < 8 → x.dropped = true ∨ x.resetting = true → exec (.chipletReset c) s = .next s) ∧
  (core < 1024 → late → (coreOf s core).ctx.isSome = true → exec (.saveDeadline core) s = .next (loseHeld s core)) ∧
  (core < 1024 → (coreOf s core).blocks = [] → (coreOf s core).warps = [] → (coreOf s core).ctx.isSome = true →
    (coreOf (loseHeld s core) core).ctx = none ∧ (loseHeld s core).mem = s.mem) ∧
  (core < 1024 → ¬ late ∨ (coreOf s core).ctx = none → exec (.saveDeadline core) s = .next s) ∧
  (c < 8 → x.dropped = false → ∃ t, exec (.chipletDrop c) s = .next t ∧
    chipOf t c = { x with fenced := true, dropped := true, resetting := false,
                          began := if x.resetting then x.began else s.arith } ∧ quietLeaves t ∧ shut t ∧
    (0x273, c) ∈ t.dev.log) ∧
  (c < 8 → x.dropped = true → exec (.chipletDrop c) s = .next s) ∧
  (c < 8 → x.resetting = true → (∀ k, k < 128 → (coreOf s (128 * c + k)).ctx = none) → ∃ t,
    exec (.chipletReinitialised c true) s = .next t ∧ chipOf t c = {} ∧ (∀ k, k < 128 → coreOf t (128 * c + k) = {}) ∧
    (∀ f ∈ t.leaves, f.1 / 8 ≠ c) ∧ t.mem = s.mem) ∧
  (c < 8 → x.resetting = true → (∀ k, k < 128 → (coreOf s (128 * c + k)).ctx = none) → ∃ t,
    exec (.chipletReinitialised c false) s = .next t ∧ (chipOf t c).dropped = true) ∧
  (∀ passes, c < 8 → x.resetting = false → exec (.chipletReinitialised c passes) s = .next s) ∧
  (mhz = 425 ∨ (mhz % 50 = 0 ∧ 450 ≤ mhz ∧ mhz ≤ 850) → exec (.clockChange mhz) s = .next { s with mhz := mhz }) ∧
  (mhz ≠ 425 → mhz % 50 ≠ 0 ∨ mhz < 450 ∨ 850 < mhz → exec (.clockChange mhz) s = .next s)

/-! Management, attestation and the outside. -/

/-- R363, R364, R414, R415, R417: key and partition operations.  Each is done when its conditions hold, and otherwise answers
the number of the first that is broken and changes nothing else: partitions are made with their storage zeroed and go with
their windows and keys, agents are assigned, windows configured, sealed by their owner only, and keys bound and cleared.
Model choices: log 13, 18, 80, 122.  -/
def Obligations.PartitionOperations : Prop :=
  ∀ (s : State) (who : Issuer) (n k part agent win st slot : Nat) (regs : WinRegs) (key : BitVec 576) (digest : BitVec 256),
  let replies (i : Instr) (op why : Nat) : Prop := exec i s = .next (answerOp s who op why)
  let does (i : Instr) (op : Nat) (t : State) : Prop := exec i s = .next (answerOp t who op 0)
  let sized : Prop := (n = 1 ∨ n = 2 ∨ n = 4 ∨ n = 8) ∧ (k + 1) * n ≤ 8
  let old := winOf s win
  let w := winMask regs
  let made := makePart s (k * n) (k * n) n
  let mgr : Prop := who = .management
  let owns (p : Nat) : Prop := ownsPart s p who = true
  let raw := (Config.unwrapKey (sessionNo who) key)
  (∀ t op why, (∀ m, who = .session m → (answerOp t who op why).dev.responses = t.dev.responses ++
      [{ code := if why = 0 then 0x7E else 0x7F, request := op, body := [BitVec.ofNat 64 why] }]) ∧
    (mgr → (answerOp t who op why).dev.log = t.dev.log ++ [(0x4150 + op, why)]) ∧
    (answerOp t who op why).mem = t.mem ∧ (answerOp t who op why).keys = t.keys) ∧
  (sized → ¬ mgr → replies (.partCreate who n k) 1 1) ∧
  (sized → mgr → s.dev.mode ≠ 0 → replies (.partCreate who n k) 1 2) ∧
  (sized → mgr → s.dev.mode = 0 → partFree s (k * n) n = false → replies (.partCreate who n k) 1 3) ∧
  (sized → mgr → s.dev.mode = 0 → partFree s (k * n) n = true → does (.partCreate who n k) 1 made) ∧
  (sized → (tget made.parts (k * n)).map (·.n) = some n ∧
    ∀ c ∈ made.mem, ¬ (2 ^ 37 * (k * n) ≤ c.1 ∧ c.1 < 2 ^ 37 * (k * n + n))) ∧
  (part < 8 → ¬ mgr → replies (.partDestroy who part) 2 1) ∧
  (part < 8 → mgr → tget s.parts part = none → replies (.partDestroy who part) 2 2) ∧
  (part < 8 → mgr → (tget s.parts part).isSome = true → partHeld s part = true → replies (.partDestroy who part) 2 3) ∧
  (part < 8 → mgr → (tget s.parts part).isSome = true → partHeld s part = false →
    does (.partDestroy who part) 2 (unmakePart s part)) ∧
  (tget (unmakePart s part).parts part = none ∧ ∀ o ∈ (unmakePart s part).windows, winPart o.2 ≠ part) ∧
  (agent < 63 → part < 8 → ¬ mgr → replies (.agentAssign who agent part) 3 1) ∧
  (agent < 63 → part < 8 → mgr → s.dev.mode ≠ 0 ∨ tget s.parts part = none ∨ agent = s.dev.self →
    replies (.agentAssign who agent part) 3 2) ∧
  (agent < 63 → part < 8 → mgr → s.dev.mode = 0 → (tget s.parts part).isSome = true → agent ≠ s.dev.self →
    agentCached s agent = true → replies (.agentAssign who agent part) 3 3) ∧
  (agent < 63 → part < 8 → mgr → s.dev.mode = 0 → (tget s.parts part).isSome = true → agent ≠ s.dev.self →
    agentCached s agent = false → does (.agentAssign who agent part) 3
      { s with dev := { s.dev with agents := tins s.dev.agents agent part } }) ∧
  (win < 64 → mayWindow s win w who = false → replies (.winSet who win regs) 4 1) ∧
  (win < 64 → mayWindow s win w who = true → winSealOf w ≠ winSealOf old → winFormat w < 2 → winSealOf w < 3 →
    replies (.winSet who win regs) 4 8) ∧
  (win < 64 → mayWindow s win w who = true → (∀ c ∈ winConds s win w, c.1 = true) → ∃ t,
    does (.winSet who win regs) 4 t ∧ tget t.windows win = some w ∧ t.keys = s.keys) ∧
  (win < 64 → st < 4 → ¬ owns (winPart old) → replies (.winSeal who win st) 5 1) ∧
  (win < 64 → st < 4 → owns (winPart old) → s.dev.mode = 0 → (tget s.windows win).isSome = true →
    sealAllowed s win st = false → replies (.winSeal who win st) 5 3) ∧
  (win < 64 → st < 4 → owns (winPart old) → s.dev.mode = 0 → (tget s.windows win).isSome = true →
    sealAllowed s win st = true → ∃ t o, does (.winSeal who win st) 5 t ∧ tget t.windows win = some o ∧ winSealOf o = st ∧
      (winSealOf old = 2 → tget t.keys (winKeySlot old) = none)) ∧
  (part < 8 → slot < 64 → mayBind s part who = false ∨ s.dev.mode ≠ 0 → replies (.keyBind who part slot key digest) 6 1) ∧
  (part < 8 → slot < 64 → mayBind s part who = true → s.dev.mode = 0 → measure s (0x10 + part) ≠ some digest →
    replies (.keyBind who part slot key digest) 6 2) ∧
  (part < 8 → slot < 64 → mayBind s part who = true → s.dev.mode = 0 → measure s (0x10 + part) = some digest →
    slot / 8 ∈ chipletsOf s part → tget s.keys slot = none →
    match raw with
    | none => replies (.keyBind who part slot key digest) 6 5
    | some v => ∃ t, does (.keyBind who part slot key digest) 6 t ∧ tget t.keys slot = some v ∧
        (tget t.parts part).bind (·.owner) = ((tget s.parts part).bind (·.owner) <|> chainOf s who)) ∧
  (slot < 64 → ¬ mgr → (∀ p, partOfChiplet s (slot / 8) = some p → ¬ owns p) → (∀ p, 8 ≤ p → tget s.parts p = none) →
    replies (.keyClear who slot) 7 1) ∧
  (slot < 64 → mgr → (∀ o ∈ s.windows, winSealOf o.2 ≠ 2 ∨ winKeySlot o.2 ≠ slot) →
    does (.keyClear who slot) 7 { s with keys := tdel s.keys slot })

/-- R416, R419: the responder's answer to each request; a signature takes a leaf of the identity key and with none left the
responder is not ready; a session opens with FINISH and is gone with END_SESSION; a request in no open session, or one that
needs the firmware in ROM-only mode, is answered with an error.  The codes are those of SPDM 1.3 (log 13).
R411: a keyed IDE stream carries traffic; one that fails its integrity check is insecure, and its partition is told.
Model choices: log 13, 85. -/
def Obligations.ResponderAndStreams : Prop :=
  ∀ (s : State) (r : SpdmReq) (stream session : Nat) (x : Session),
  let d := s.dev
  let adds (i : Instr) (t : State) (code request : Nat) (body : List W64) : Prop := exec i s = .next
    { t with dev := { t.dev with responses := t.dev.responses ++ [{ code := code, request := request, body := body }] } }
  let signs (i : Instr) (t : State) (code request : Nat) (body : List W64) : Prop :=
    (t.dev.leaf < t.dev.leafEnd → adds i { t with dev := { t.dev with leaf := t.dev.leaf + 1 } } code request
      (body ++ [Config.secret t.dev.leaf])) ∧
    (t.dev.leafEnd ≤ t.dev.leaf → adds i t 0x7F request [0x42])
  let inRom : Prop := d.mode = 2
  let opened : Prop := d.mode ≠ 2 ∧ sessionOf s r.session = some x
  let idx := r.arg % 256
  let insecureFor (t : State) (p : Nat) : Prop := insecure t p = true
  adds (.getVersion r) s 0x04 0x84 [0x1300] ∧ adds (.getCapabilities r) s 0x61 0xE1 [] ∧
  adds (.negotiateAlgorithms r) s 0x63 0xE3 [] ∧ adds (.getDigests r) s 0x01 0x81 (words256 (Config.digest [0])) ∧
  adds (.getCertificate r) s 0x02 0x82 (words256 (Config.digest [0])) ∧
  signs (.challenge r) s 0x03 0x83 [BitVec.ofNat 64 r.arg] ∧
  (measure s idx = none → adds (.getMeasurements r) s 0x7F 0xE0 [1]) ∧
  (∀ m, measure s idx = some m → r.arg / 256 % 2 = 0 → adds (.getMeasurements r) s 0x60 0xE0 (words256 m)) ∧
  (∀ m, measure s idx = some m → r.arg / 256 % 2 = 1 → signs (.getMeasurements r) s 0x60 0xE0 (words256 m)) ∧
  (inRom → adds (.keyExchange r) s 0x7F 0xE4 [7] ∧ adds (.finish r) s 0x7F 0xE5 [7] ∧ adds (.heartbeat r) s 0x7F 0xE8 [7] ∧
    adds (.keyUpdate r) s 0x7F 0xE9 [7] ∧ adds (.endSession r) s 0x7F 0xEC [7] ∧
    adds (.vendorDefinedRequest r) s 0x7F 0xFE [7]) ∧
  (¬ inRom → sessionOf s r.session = none → adds (.heartbeat r) s 0x7F 0xE8 [2] ∧ adds (.keyUpdate r) s 0x7F 0xE9 [2] ∧
    adds (.endSession r) s 0x7F 0xEC [2] ∧ adds (.vendorDefinedRequest r) s 0x7F 0xFE [2]) ∧
  (¬ inRom → (∃ y ∈ d.sessions, y.id = r.session) → adds (.keyExchange r) s 0x7F 0xE4 [2]) ∧
  (¬ inRom → (∀ y ∈ d.sessions, y.id ≠ r.session) → d.leaf < d.leafEnd → adds (.keyExchange r)
    { s with dev := { d with leaf := d.leaf + 1,
                             sessions := { id := r.session, open_ := false, chain := r.arg } :: d.sessions } }
    0x64 0xE4 [Config.secret d.leaf]) ∧
  (¬ inRom → (∀ y ∈ d.sessions, y.id ≠ r.session) → d.leafEnd ≤ d.leaf → adds (.keyExchange r) s 0x7F 0xE4 [0x42]) ∧
  (¬ inRom → d.sessions = [x] → x.id = r.session → x.open_ = false →
    adds (.finish r) { s with dev := { d with sessions := [{ x with open_ := true }] } } 0x65 0xE5 []) ∧
  (¬ inRom → (∀ y ∈ d.sessions, y.id = r.session → y.open_ = true) → adds (.finish r) s 0x7F 0xE5 [4]) ∧
  (opened → adds (.heartbeat r) s 0x68 0xE8 [] ∧ adds (.vendorDefinedRequest r) s 0x7E 0xFE []) ∧
  (opened → d.sessions = [x] → adds (.keyUpdate r)
    { s with dev := { d with sessions := [{ x with keys := x.keys + 1 }] } } 0x69 0xE9 []) ∧
  (opened → ∃ t, exec (.endSession r) s = .next t ∧ sessionOf t r.session = none ∧
    t.dev.responses = d.responses ++ [{ code := 0x6C, request := 0xEC, body := [] }]) ∧
  (stream < 9 → (sessionOf s session).isSome = true → (stream ≠ 0 → (tget s.parts (stream - 1)).isSome = true) →
    exec (.ideKm session stream) s = .next { s with dev := { d with streams := tins d.streams stream true } }) ∧
  (stream < 9 → sessionOf s session = none → exec (.ideKm session stream) s = .next s) ∧
  (stream < 9 → tget d.streams stream = some true → (stream ≠ 0 → (tget s.parts (stream - 1)).isSome = true) →
    ∃ t, exec (.ideIntegrityFail stream) s = .next t ∧ (stream = 0 → ∀ p, insecureFor t p) ∧
      (stream ≠ 0 → insecureFor t (stream - 1) ∧ (stream - 1, 0) ∈ t.dev.irqs)) ∧
  (stream < 9 → tget d.streams stream ≠ some true → exec (.ideIntegrityFail stream) s = .next s)

/-- R409, R412, R413: the host reads and writes within its window only, in the order of its accesses and once their lines
have come home, not while the stream is insecure, and never writes sealed lines; a Glauk port resends a flit, fails and is
trained.
R418-R421: the starts: a cold one keeps no partition, key or memory; an image that is missing, unsigned or too old leaves
ROM-only mode; three failed starts in a row leave the minimal one; the causes of a warm start give its reason.
Model choices: log 37, 81, 82, 87, 88, 90, 124.  -/
def Obligations.HostLinksAndStarts : Prop :=
  ∀ (s : State) (part addr port agent base size : Nat) (bytes : List Byte) (x : StartIn) (write ok : Bool),
  let host (i : Instr) (r : Option (List Byte)) : Prop := exec i s =
    .next { s with dev := { s.dev with hostReads := (addr, r) :: s.dev.hostReads } }
  let n := bytes.length
  let inWindow : Prop := ((tget s.parts part).bind (·.window)) = some (base, size) ∧ base ≤ addr ∧ addr + n ≤ base + size
  let clear : Prop := ∀ p ∈ pieces 128 addr n, sealAt s p.1 = 0 ∧ usable s (p.1 / 128) write = true
  let first : Prop := ∀ y ∈ s.dev.hostWaits, y.1 ≠ part
  let up : Prop := (tget s.dev.ports port).isSome = true ∧ smem s.dev.portsFailed port = false
  let d := s.dev
  let warm (i : Instr) (t : State) (r : BitVec 8) : Prop := exec i s = .next (startWarm t x r)
  let more : Dev := { d with fails := if d.fails = 0xFF then 0xFF else d.fails + 1 }
  let bad (t : State) : Prop := t.dev.mode = 2 ∧ t.dev.ready = false ∧ t.parts = [] ∧ t.mem = [] ∧ t.keys = []
  let proper : Prop := x.imagePresent = true ∧ x.sigValid = true ∧ x.versionOk = true
  let sound : Prop := proper ∧ x.baseDieOk = true ∧ x.hbmOk = true
  let whole : Prop := x.chipletsOk = 0xFF ∧ ∀ p ∈ s.chiplets, p.2.dropped = false
  (part < 8 → first → (tget s.parts part).bind (·.window) = none → host (.hostAccess part write addr bytes) none) ∧
  (part < 8 → first → (tget s.parts part).bind (·.window) = some (base, size) → addr < base ∨ base + size < addr + n →
    host (.hostAccess part write addr bytes) none) ∧
  (part < 8 → first → insecure s part = true → host (.hostAccess part write addr bytes) none) ∧
  (part < 8 → ¬ first → exec (.hostAccess part write addr bytes) s = .next
    { s with dev := { d with hostWaits := d.hostWaits ++ [(part, write, addr, bytes)] } }) ∧
  (∀ p, part < 8 → first → inWindow → insecure s part = false →
    (pieces 128 addr n).find? (fun p => sealAt s p.1 == 0 && !usable s (p.1 / 128) write) = some p →
    exec (.hostAccess part write addr bytes) s = .next (wantLine
      { s with dev := { d with hostWaits := d.hostWaits ++ [(part, write, addr, bytes)] } } part (p.1 / 128) write)) ∧
  (part < 8 → first → inWindow → insecure s part = false → clear → write = false →
    host (.hostAccess part false addr bytes) (some ((pieces 128 addr n).flatMap fun p => peekBytes s p.1 p.2))) ∧
  (part < 8 → first → inWindow → insecure s part = false → clear → write = true → ∃ t,
    exec (.hostAccess part true addr bytes) s = .next t ∧
    t.mem = ((pieces 128 addr n).foldl (fun u p => homeWriteBytes u part p.1 ((bytes.drop (p.1 - addr)).take p.2)) s).mem ∧
    t.dev.hostReads.head? = some (addr, some [])) ∧
  (part < 8 → first → inWindow → insecure s part = false → (∃ p ∈ pieces 128 addr n, sealAt s p.1 = 2) →
    (∀ p ∈ pieces 128 addr n, sealAt s p.1 = 0 → usable s (p.1 / 128) true = true) →
    host (.hostAccess part true addr bytes) none) ∧
  (port < 16 → up → exec (.flitCrcFail port) s =
    .next { s with dev := { d with replays := tins d.replays port (tgetD d.replays port 0 + 1) } }) ∧
  (port < 16 → up → ∃ t, exec (.portFail port) s = .next t ∧ portUp t port = false ∧ t.dev.ports = d.ports) ∧
  (port < 16 → ¬ up → exec (.flitCrcFail port) s = .next s ∧ exec (.portFail port) s = .next s) ∧
  (port < 16 → d.mode = 0 → 1 ≤ agent → agent < 63 → agent ≠ d.self → ∃ t, exec (.linkTrain port agent) s = .next t ∧
    tget t.dev.ports port = some agent ∧ portUp t port = true) ∧
  (port < 16 → d.mode = 0 → agent = 0 ∨ 63 ≤ agent ∨ agent = d.self → ∃ t, exec (.linkTrain port agent) s = .next t ∧
    tget t.dev.ports port = none ∧ (0x413, port) ∈ t.dev.log) ∧
  (port < 16 → d.mode ≠ 0 → exec (.linkTrain port agent) s = .next s) ∧
  (∃ t, exec (.coldPowerOn x) s = .next t ∧ (sound → x.ready = true → x.chipletsOk = 0xFF → x.parts = [] →
    t.dev.mode = 0 ∧ t.dev.ready = true ∧ t.parts = [] ∧ t.cores = [] ∧ t.mem = [] ∧ t.keys = [] ∧ t.windows = [] ∧
    t.clock = 0 ∧ t.dev.reason = 0 ∧ t.dev.self = x.agent ∧ t.dev.cxl = x.cxl ∧ ∀ c, (chipOf t c).dropped = false)) ∧
  (∃ t, exec (.coldPowerOn x) s = .next t ∧ (¬ proper → bad t) ∧ (x.imagePresent = false → t.dev.reason = 0x12) ∧
    (x.imagePresent = true → x.sigValid = false → t.dev.reason = 0x10) ∧
    (x.imagePresent = true → x.sigValid = true → x.versionOk = false → t.dev.reason = 0x11)) ∧
  (sound → 3 ≤ d.fails.toNat → whole → (startWarm s x 0x01).dev.mode = 1 ∧ (startWarm s x 0x01).dev.keptChiplet = 0) ∧
  (∀ r t, sound → d.fails.toNat < 3 → whole → x.parts = [] → t = startWarm s x r → t.dev.reason = r ∧ t.dev.mode = 0 ∧
    t.dev.ready = x.ready ∧ t.dev.fails = d.fails ∧ t.dev.log = d.log ∧ t.cores = [] ∧ t.mem = [] ∧ t.keys = [] ∧
    t.parts = [] ∧ t.clock = s.clock) ∧
  warm (.warmReset x) s 0x01 ∧ warm (.watchdog x) s 0x02 ∧ warm (.unsparedBaseDieError x) s 0x31 ∧
  (d.ready = false → d.mode ≠ 2 → warm (.startTimeout x) { s with dev := more } 0x40) ∧
  (d.ready = true ∨ d.mode = 2 → exec (.startTimeout x) s = .next s) ∧
  (d.schedulers ≤ 1 → warm (.schedulerDoubleFail x) s 0x30) ∧
  (2 ≤ d.schedulers → exec (.schedulerDoubleFail x) s = .next s) ∧
  exec .failsWindowExpire s = .next { s with dev := { d with fails := 0 } } ∧
  (d.mode ≠ 2 → exec (.imageUpdate ok x) s = .next { s with dev := { d with images := d.images + 1 } }) ∧
  (d.mode = 2 → warm (.imageUpdate true x) { s with dev := { d with images := d.images + 1, fails := 0 } } 0x03) ∧
  (d.mode = 2 → ∃ t, exec (.imageUpdate false x) s = .next t ∧ t.dev.images = d.images ∧ t.dev.mode = 2)

/-! The whole machine. -/

/-- R36, R39-R42, R147, R184: a word with a field its form does not admit traps UNDEF, one that names a vector register
beyond the window traps PROT, and one that names a pending register waits.  Register words change nothing but their own
warp: its destination register (of the executing lanes only, for a vector register), its paths with the stack where the
path arrives at its reconvergence, its signatures and its count of words. -/
def Obligations.RegisterWordsChangeOnlyTheirWarp : Prop :=
  ∀ (i : Instr) (g : Gen) (m : Imm) (e : ExprExt) (s t : State) (x : Here),
  let frame (f : Warp → Prop) : Prop :=
    { t with cores := s.cores } = s ∧ (∀ c, c ≠ x.core → coreOf t c = coreOf s c) ∧
    { coreOf t x.core with warps := x.co.warps } = x.co ∧
    (∀ v, v ≠ x.w → tget (coreOf t x.core).warps v = tget x.co.warps v) ∧
    ∃ y, tget (coreOf t x.core).warps x.w = some y ∧ f y ∧
      { y with v := x.wp.v, vPoison := x.wp.vPoison, sc := x.wp.sc, m := x.wp.m, a := x.wp.a, b := x.wp.b,
               stack := x.wp.stack, sigs := x.wp.sigs, sigd := x.wp.sigd, issued := x.wp.issued,
               active := x.wp.active } = x.wp
  let sca (y : Warp) (p : Nat → Prop) : Prop := ∀ n, ¬ p n → sget y n = sget x.wp n
  let vec (y : Warp) (p : Nat → Prop) : Prop :=
    ∀ n l, l < 32 → ¬ p n ∨ x.exec.getLsbD l = false → vget y n l = vget x.wp n l
  let one (n : Nat) : Prop := n = g.d.toNat
  let two (n : Nat) : Prop := n = g.d.toNat ∨ n = g.d.toNat + 1
  let scalars := [Instr.sadd g, .ssub g, .smul g, .smulhi g, .smin g, .smax g, .sand g, .sor g, .sxor g, .snot g, .sshl g,
    .sshr g, .ssar g, .sbfe g, .spopc g, .sclz g, .scmp g, .ssel g, .smov g, .mget g, .mpop g, .mfind g]
  let masks := [Instr.mset g, .mand g, .mor g, .mxor g, .mandn g]
  let vectors := [Instr.vadd g, .vsub g, .vmul g, .vmulhi g, .vmad g, .vmin g, .vmax g, .vabs g, .vand g, .vor g, .vxor g,
    .vnot g, .vshl g, .vshr g, .vsar g, .vbfe g, .vbfi g, .vpopc g, .vclz g, .vbrev g, .vperm g, .vsel g, .vmov g, .vsadd g,
    .vfclass g, .vfdiv g, .vsfu g, .vexpr g e, .vh2add g, .vh2mul g, .vh2fma g, .vdot2 g]
  let wides := [Instr.vadd64 g, .vfadd g, .vfsub g, .vfmul g, .vfma g, .vfmin g, .vfmax g, .vfrnd g, .vcvt g, .vdadd g,
    .vdmul g, .vdfma g]
  let runs : Prop := Runs i s x ∧ exec i s = .next t
  let pure : Prop := x.wp.vPoison = []
  (plainWord i = true → here s (encode i) = some x → i.wf = false → exec i s = .next (faultAll s x .undef)) ∧
  (∀ r ∈ regsOf x.co.memdef i, plainWord i = true → here s (encode i) = some x → i.wf = true → r < 256 →
    8 * x.wp.granules.length ≤ r → exec i s = .next (faultAll s x .prot)) ∧
  (∀ r ∈ regsOf x.co.memdef i, plainWord i = true → here s (encode i) = some x → i.wf = true →
    (∀ q ∈ regsOf x.co.memdef i, q < 256 → q < 8 * x.wp.granules.length) → r ∈ x.wp.pend → exec i s = .next s) ∧
  (i ∈ scalars → runs → frame fun y => sca y one ∧ y.v = x.wp.v ∧ y.vPoison = x.wp.vPoison ∧ y.m = x.wp.m) ∧
  (i = .sadd64 g → runs → frame fun y => sca y two ∧ y.v = x.wp.v ∧ y.vPoison = x.wp.vPoison ∧ y.m = x.wp.m) ∧
  (i = .smovi m → runs → frame fun y => sca y (· = m.d.toNat) ∧ y.v = x.wp.v ∧ y.vPoison = x.wp.vPoison ∧ y.m = x.wp.m) ∧
  (i ∈ masks → runs → frame fun y => y.sc = x.wp.sc ∧ y.v = x.wp.v ∧ y.vPoison = x.wp.vPoison ∧
    ∀ n, n ≠ g.d.toNat → tgetD y.m n 0 = tgetD x.wp.m n 0) ∧
  (i ∈ vectors → pure → runs → frame fun y => vec y one ∧ y.sc = x.wp.sc ∧ y.m = x.wp.m) ∧
  (i ∈ wides → pure → runs → frame fun y => vec y two ∧ y.sc = x.wp.sc ∧ y.m = x.wp.m) ∧
  (i = .vmovi m → runs → frame fun y => vec y (· = m.d.toNat) ∧ y.sc = x.wp.sc ∧ y.m = x.wp.m) ∧
  (i ∈ [Instr.vcmp g, .vfcmp g] → pure → runs → frame fun y => y.v = x.wp.v ∧ y.sc = x.wp.sc ∧
    ∀ n, n ≠ g.d.toNat → tgetD y.m n 0 = tgetD x.wp.m n 0)

/-- R35-R38: a step runs what its turn names.  A path that may issue fetches its clause, or runs the word that the words it
has fetched decode to, in the state in which it has taken its pipe's turn; words that decode to nothing trap UNDEF.  An
event at the head of the agenda runs at its turn, and time passes.  What follows of itself comes after each.  With an
empty agenda a round of everything that can happen begins, ended by a base clock (the agenda and the order of turns are the
model's: log 3).
Model choices: log 3, 4. -/
def Obligations.StepRunsDecodedInstruction : Prop :=
  ∀ (s : State) (core w : Nat) (sl : Slot) (i : Instr) (k n : Nat) (rest : List Turn) (why : DecodeError) (o : Own),
  let r : State := { s with agenda := rest }
  let issues : Prop := s.agenda = .issue core w sl :: rest ∧ mayIssue r core w sl = true
  let u := takeTurn r core w sl
  let ends (t : State) : Prop := step s = .next (afterTurn (noteTurn r t core w sl))
  (∀ t, issues → decode (curWords u) = .ok (i, k) → exec i u = .next t → ends t) ∧
  (∀ f, issues → decode (curWords u) = .ok (i, k) → exec i u = .fault f → step s = .fault f) ∧
  (∀ f, issues → decode (curWords u) = .ok (i, k) → exec i u = .refused f → step s = .refused f) ∧
  (∀ t, issues → curWords u = [] → exec .clauseFetch u = .next t → ends t) ∧
  (issues → curWords u ≠ [] → decode (curWords u) = .error why → ends (undefinedWord u)) ∧
  (s.agenda = .issue core w sl :: rest → mayIssue r core w sl = false → step s = .next (afterTurn r)) ∧
  (s.agenda = .event i :: rest → i.isWord = false → step s = settleTurn (exec i r)) ∧
  (s.agenda = .event i :: rest → i.isWord = true → step s = .next (afterTurn r)) ∧
  (s.agenda = .own o :: rest → step s = settleTurn (ownStep o r)) ∧
  (s.agenda = .tick n :: rest → step s = .next (afterTurn (elapse r n)) ∧ (elapse r n).clock = s.clock + n ∧
    (elapse r n).arith = s.arith + n * s.mhz ∧ (elapse r n).mem = (slicesTake r n).mem) ∧
  (s.agenda = [] → step s = step { s with agenda := round s }) ∧ .tick 1 ∈ round s ∧
  (∀ co x, (core, co) ∈ s.cores → core < 1024 → (w, x) ∈ co.warps → (pathOf x sl).st = .live → (pathOf x sl).wait = .none →
    .issue core w sl ∈ round s) ∧
  (∀ t, settleTurn (.next t) = .next (afterTurn t)) ∧ u.mem = s.mem ∧ u.agenda = rest

/-- The example words that the spec writes out decode to the instructions it names. -/
def Obligations.ExampleWordsDecode : Prop :=
  let g (d : BitVec 8) (a b c : Src) (ty : Ty) (sub : BitVec 7) : Gen :=
    { sw := false, pred := 0, d := d, a := a, b := b, c := c, ty := ty, rnd := .rn, sat := false, sub := sub }
  let z : Src := .reg 0
  let mem (data base index : BitVec 8) (ty : BitVec 4) (off : BitVec 24) : Mem :=
    { pfx := none, sw := false, pred := 0, data := data, base := base, index := index, ty := ty, off := off }
  decode [0x0000304050020880] = .ok (.sadd { g 3 (.reg 4) (.con 5) z .i32 0 with sat := true }, 1) ∧
  decode [0x1A00301020000000] = .ok (.mand (g 3 (.reg 1) (.reg 2) z .i8 0), 1) ∧
  decode [0x220000C300000006] =
    .ok (.brd { sw := false, pred := 0, fld := 12, cond := 3, target := 6 }, 1) ∧
  decode [0x5B00200010000000] = .ok (.vsadd (g 2 (.reg 0) (.reg 1) z .i8 0), 1) ∧
  decode [0x60A0A03050012D00] =
    .ok (.vfadd { g 10 (.reg 3) (.sca 5) z .f32 0 with sw := true, pred := 2, rnd := .rz }, 1) ∧
  decode [0xA00140802B000040] = .ok (.vld (mem 20 8 2 11 64), 1) ∧
  decode [0xFE00000054000000, 0xA00140802B000040] = .ok (.vld { mem 20 8 2 11 64 with
    pfx := some { ord := some .acq, scope := some .pkg, space := none, cache := none, layer := .none } }, 2) ∧
  decode [0xC50000C141000000] = .ok (.crwait { sw := false, d := 0, h := 12, b := 20, opt := 1 }, 1) ∧
  decode [0xC802808101804000, 0xFD0005FF00000000] =
    .ok (.bcopy { sw := false, tok := 0x28, sd := 8, dd := 0x10, sl := 0x18, h := 4, mem := false, rid := 5, sta := 0xFF,
                  stv := 0 }, 2) ∧
  decode [0xCC00500002000000] = .ok (.bquery { sw := false, d := 5, a := 0, k := 2 }, 1) ∧
  decode [0xFF15FF0000000000] = .error .headerInSlot

/-- R39-R57: the decoder and the encoder agree: every legal instruction's words decode to it, whatever follows them, with
all its operands; and what decodes is legal and has those words. -/
def Obligations.DecodeInvertsEncode : Prop := ∀ (i : Instr) (n : Nat) (ws rest : List W64),
  (i.isWord = true → i.wf = true → decode (encode i ++ rest) = .ok (i, (encode i).length)) ∧
  (decode ws = .ok (i, n) → i.wf = true ∧ encode i = ws.take n ∧ n = unitLen ws)

/-- R344 (and log 2): every step of the machine answers a next state, and DRAM stays in its canonical form: addresses
rising, no zero listed.
Model choices: log 2. -/
def Obligations.EveryStepKeepsMemoryCanonical : Prop :=
  ∀ s : State, ∃ t, step s = .next t ∧ (Inv s → Inv t)

/-- R4, R51, R125, R337, R344, R418: the machine at power-on: memory in its canonical form with nothing listed, no
partition, context, window or key, and what it runs next is nothing; a core, a column and a queue as their maps' reset
columns give them.
Model choices: log 2, 4, 91. -/
def Obligations.ResetIsCanonicalAndEmpty : Prop :=
  let s := State.reset
  Inv s ∧ s.mem = [] ∧ s.parts = [] ∧ s.contexts = [] ∧ s.windows = [] ∧ s.keys = [] ∧ s.cur = none ∧ s.clock = 0 ∧
  s.mhz = 850 ∧ (∀ c, (coreOf s c).ctx = none ∧ (coreOf s c).memdef = 0x269 ∧ (coreOf s c).qfree8 = 16 ∧
    (coreOf s c).l1ways = 2 ∧ (coreOf s c).warps = []) ∧
  (∀ p c, (colOf s p c).spares = 32 ∧ (colOf s p c).target = 0x10) ∧ (∀ a, memRead s.mem a = 0)
end

