-- ==== Sys2Proof/Laws/Codec.lean ====
section
/-! SUPPORT. Laws/Codec.lean: where the fields of an encoded word lie, for proofs about the encoder and the decoder. -/

namespace Sys2Proof

/-- The bits of a concatenation above its low part are those of its high part. -/
theorem hi_append {a b : Nat} (x : BitVec a) (y : BitVec b) (k : Nat) (h : b ≤ k) :
    (x ++ y).toNat / 2 ^ k = x.toNat / 2 ^ (k - b) := by
  rw [BitVec.toNat_append, ← Nat.shiftLeft_add_eq_or_of_lt y.isLt, Nat.shiftLeft_eq]
  obtain ⟨c, rfl⟩ := Nat.exists_eq_add_of_le h
  rw [Nat.pow_add, ← Nat.div_div_eq_div_mul, Nat.mul_comm, Nat.mul_add_div (Nat.two_pow_pos b),
    Nat.div_eq_of_lt y.isLt]
  simp

/-- The low bits of a concatenation are its low part. -/
theorem lo_append {a b : Nat} (x : BitVec a) (y : BitVec b) : (x ++ y).toNat % 2 ^ b = y.toNat := by
  rw [BitVec.toNat_append, ← Nat.shiftLeft_add_eq_or_of_lt y.isLt, Nat.shiftLeft_eq, Nat.mul_comm,
    Nat.mul_add_mod, Nat.mod_eq_of_lt y.isLt]

theorem major_eq (w : W64) : major w = w.toNat / 2 ^ 56 := by
  have := w.isLt
  simp only [major, bits, BitVec.extractLsb'_toNat, Nat.shiftRight_eq_div_pow]
  omega

theorem major_gen (m : BitVec 8) (g : Gen) : major (encodeGen m g) = m.toNat := by
  rw [major_eq]; unfold encodeGen
  iterate 13 (refine (hi_append _ _ _ (by decide)).trans ?_)
  simp

theorem major_imm (m : BitVec 8) (g : Imm) : major (encodeImm m g) = m.toNat := by
  rw [major_eq]; unfold encodeImm
  iterate 6 (refine (hi_append _ _ _ (by decide)).trans ?_)
  simp

theorem major_bra (m : BitVec 8) (g : Bra) : major (encodeBra m g) = m.toNat := by
  rw [major_eq]; unfold encodeBra
  iterate 5 (refine (hi_append _ _ _ (by decide)).trans ?_)
  simp

theorem major_mem (m : BitVec 8) (g : Mem) : major (encodeMem m g) = m.toNat := by
  rw [major_eq]; unfold encodeMem
  iterate 7 (refine (hi_append _ _ _ (by decide)).trans ?_)
  simp

theorem major_crw (m : BitVec 8) (g : Crw) : major (encodeCrw m g) = m.toNat := by
  rw [major_eq]; unfold encodeCrw
  iterate 7 (refine (hi_append _ _ _ (by decide)).trans ?_)
  simp

theorem major_bat (m : BitVec 8) (g : Bat) : major (encodeBat m g) = m.toNat := by
  rw [major_eq]; unfold encodeBat
  iterate 7 (refine (hi_append _ _ _ (by decide)).trans ?_)
  simp

theorem major_mtx (m : BitVec 8) (g : Mtx) : major (encodeMtx m g) = m.toNat := by
  rw [major_eq]; unfold encodeMtx
  iterate 10 (refine (hi_append _ _ _ (by decide)).trans ?_)
  simp

theorem major_que (m : BitVec 8) (g : Que) : major (encodeQue m g) = m.toNat := by
  rw [major_eq]; unfold encodeQue
  iterate 6 (refine (hi_append _ _ _ (by decide)).trans ?_)
  simp

theorem major_pfx (p : Pfx) : major (encodePfx p) = 0xFE := by
  rw [major_eq]; unfold encodePfx
  iterate 7 (refine (hi_append _ _ _ (by decide)).trans ?_)
  rfl

theorem major_cpy (m : BitVec 8) (g : Cpy) : major ((encodeCpy m g).headD 0) = m.toNat := by
  rw [major_eq]; unfold encodeCpy
  iterate 10 (refine (hi_append _ _ _ (by decide)).trans ?_)
  simp

/-- The lowest bit of SUB is the word's lowest bit. -/
theorem sub_bit (m : BitVec 8) (g : Gen) : (encodeGen m g).getLsbD 0 = g.sub.getLsbD 0 := by
  have h : (encodeGen m g).toNat % 2 ^ 7 = g.sub.toNat := lo_append _ _
  have e : (encodeGen m g).toNat % 2 = g.sub.toNat % 2 := by omega
  simp only [BitVec.getLsbD, Nat.testBit_zero, e]

/-- One word whose major neither takes a word before nor words behind. -/
def singleMajor (m : Nat) : Bool := m != 0xFE && m != 0xA6 && m != 0xA7 && m != 0xA8 && m != 0xC8 && m != 0xC9 && m != 0x6C

theorem unitLen_single {w : W64} {m : Nat} (h : major w = m) (hm : singleMajor m = true) : unitLen [w] = 1 := by
  simp only [singleMajor, Bool.and_eq_true, bne_iff_ne] at hm
  simp [unitLen, ownerLen, h, hm]

/-- A memory word with its prefix, if it has one, and its extension word, if its major takes one. -/
theorem unitLen_mem {m : Mem} {w : W64} {ws : List W64} {n k : Nat} (h : major w = n) (hn : n ≠ 0xFE)
    (hk : ownerLen w = k) (hl : (w :: ws).length = k) :
    unitLen (withPfx m (w :: ws)) = (withPfx m (w :: ws)).length := by
  unfold withPfx
  split
  · simp only [unitLen, major_pfx, if_true, hk, List.length_cons] at hl ⊢
    omega
  · simp only [unitLen, h, if_neg hn, hk, hl]

theorem ownerLen_one {w : W64} {n : Nat} (h : major w = n) (hn : singleMajor n = true) : ownerLen w = 1 := by
  simp only [singleMajor, Bool.and_eq_true, bne_iff_ne] at hn
  simp [ownerLen, h, hn]

theorem ownerLen_two {w : W64} {n : Nat} (h : major w = n)
    (hn : n = 0xA6 ∨ n = 0xA7 ∨ n = 0xA8 ∨ n = 0xC8 ∨ n = 0xC9) : ownerLen w = 2 := by
  simp only [ownerLen, h, if_pos hn]

/-- A word that is no prefix, and its extension words. -/
theorem unitLen_own {w : W64} {rest : List W64} {n : Nat} (h : major w = n) (hn : n ≠ 0xFE)
    (hl : ownerLen w = (w :: rest).length) : unitLen (w :: rest) = (w :: rest).length := by
  simp only [unitLen, h, if_neg hn, hl]

theorem unitLen_cpy {m : BitVec 8} {g : Cpy} (hm : m = 0xC8 ∨ m = 0xC9) :
    unitLen (encodeCpy m g) = (encodeCpy m g).length :=
  unitLen_own (major_cpy m g) (by rcases hm with rfl | rfl <;> decide)
    (ownerLen_two (major_cpy m g) (by rcases hm with rfl | rfl <;> decide))

/-- VEXPR is followed by the number of token words that its SUB counts (R203). -/
theorem unitLen_vexpr {g : Gen} {x : ExprExt} (h : (Instr.vexpr g x).wf = true) :
    unitLen (encode (.vexpr g x)) = (encode (.vexpr g x)).length := by
  simp only [Instr.wf, Sig.ok, Bool.and_eq_true, beq_iff_eq, decide_eq_true_eq] at h
  obtain ⟨⟨⟨⟨⟨⟨-, hs⟩, hw⟩, -⟩, -⟩, -⟩, -⟩ := h
  have hm : major (encodeGen 0x6C g) = 0x6C := major_gen _ _
  have hb := sub_bit 0x6C g
  have hv : g.sub = if x.w1.isSome then 1 else 0 := by
    rw [← hw]
    rcases (by omega : g.sub.toNat = 0 ∨ g.sub.toNat = 1) with e | e
    · rw [show g.sub = 0 from BitVec.eq_of_toNat_eq e]; rfl
    · rw [show g.sub = 1 from BitVec.eq_of_toNat_eq e]; rfl
  rw [hv] at hb
  refine unitLen_own hm (by decide) ?_
  show ownerLen (encodeGen 0x6C g) = (encodeExpr x).length + 1
  generalize encodeGen 0x6C g = w at hm hb
  simp only [ownerLen, hm, hb, encodeExpr]
  cases x.w1 <;> simp only [Option.isSome, List.length] <;> decide

end Sys2Proof
end

