-- ==== Sys2Proof/Laws/Tab.lean ====
section
/-! SUPPORT. Laws/Tab.lean: reading a sparse table after an insertion, a removal or a change, and the canonical form that
they keep.  The reading laws hold of every list, sorted or not. -/

namespace Sys2Proof.Machine

variable {α : Type}

@[simp] theorem tget_nil (n : Nat) : tget ([] : List (Nat × α)) n = none := rfl

theorem tget_cons (k : Nat) (v : α) (t : List (Nat × α)) (n : Nat) :
    tget ((k, v) :: t) n = if k = n then some v else if n < k then none else tget t n := rfl

/-- What is inserted is read. -/
@[simp] theorem tget_tins (t : List (Nat × α)) (n : Nat) (x : α) : tget (tins t n x) n = some x := by
  induction t with
  | nil => simp [tins, tget]
  | cons p t ih =>
    obtain ⟨k, v⟩ := p
    simp only [tins]
    split
    · simp [tget]
    · split
      · simp [tget]
      · rw [tget_cons, if_neg ‹_›, if_neg (by omega), ih]

/-- An insertion leaves every other key. -/
theorem tget_tins_ne (t : List (Nat × α)) {m n : Nat} (x : α) (h : m ≠ n) : tget (tins t n x) m = tget t m := by
  induction t with
  | nil =>
    have : n ≠ m := fun e => h e.symm
    simp [tins, tget, this]
  | cons p t ih =>
    obtain ⟨k, v⟩ := p
    simp only [tins]
    split
    · simp only [tget]
      split
      · omega
      · split
        · split
          · omega
          · split
            · rfl
            · omega
        · rfl
    · split
      · subst_vars
        simp only [tget]
        split
        · omega
        · rfl
      · simp only [tget, ih]

/-- Entries with keys up to n in front do not matter above n. -/
theorem tget_dropWhile (t : List (Nat × α)) {m n : Nat} (h : n < m) :
    tget (t.dropWhile fun e => e.1 ≤ n) m = tget t m := by
  induction t with
  | nil => rfl
  | cons p t ih =>
    obtain ⟨k, v⟩ := p
    simp only [List.dropWhile_cons]
    by_cases hk : k ≤ n
    · simp only [hk, decide_true, if_true, ih]
      rw [tget_cons, if_neg (by omega), if_neg (by omega)]
    · simp [hk]

/-- At or below n nothing is read behind them. -/
theorem tget_dropWhile_le (t : List (Nat × α)) {m n : Nat} (h : m ≤ n) :
    tget (t.dropWhile fun e => e.1 ≤ n) m = none := by
  induction t with
  | nil => rfl
  | cons p t ih =>
    obtain ⟨k, v⟩ := p
    simp only [List.dropWhile_cons]
    by_cases hk : k ≤ n
    · simp only [hk, decide_true, if_true, ih]
    · simp only [hk, decide_false, Bool.false_eq_true, if_false]
      rw [tget_cons, if_neg (by omega), if_pos (by omega)]

/-- What is removed is not there. -/
@[simp] theorem tget_tdel (t : List (Nat × α)) (n : Nat) : tget (tdel t n) n = none := by
  induction t with
  | nil => rfl
  | cons p t ih =>
    obtain ⟨k, v⟩ := p
    simp only [tdel]
    split
    · exact tget_dropWhile_le t (Nat.le_refl _)
    · split
      · rw [tget_cons, if_neg ‹_›, if_pos ‹_›]
      · rw [tget_cons, if_neg ‹_›, if_neg ‹_›, ih]

/-- A removal leaves every other key. -/
theorem tget_tdel_ne (t : List (Nat × α)) {m n : Nat} (h : m ≠ n) : tget (tdel t n) m = tget t m := by
  induction t with
  | nil => rfl
  | cons p t ih =>
    obtain ⟨k, v⟩ := p
    simp only [tdel]
    split
    · subst_vars
      rw [tget_cons, if_neg (Ne.symm h)]
      split
      · exact tget_dropWhile_le t (by omega)
      · exact tget_dropWhile t (by omega)
    · split
      · rfl
      · rw [tget_cons, tget_cons, ih]

/-- A write reads back, the default too. -/
@[simp] theorem tgetD_tput [DecidableEq α] (d : α) (t : List (Nat × α)) (n : Nat) (x : α) :
    tgetD (tput d t n x) n d = x := by
  unfold tput tgetD
  split
  · simp [*]
  · simp

theorem tgetD_tput_ne [DecidableEq α] (d e : α) (t : List (Nat × α)) {m n : Nat} (x : α) (h : m ≠ n) :
    tgetD (tput d t n x) m e = tgetD t m e := by
  unfold tput tgetD
  split
  · rw [tget_tdel_ne t h]
  · rw [tget_tins_ne t x h]

@[simp] theorem tget_tmod (t : List (Nat × α)) (n : Nat) (f : α → α) : tget (tmod t n f) n = (tget t n).map f := by
  unfold tmod
  split
  · simp [*]
  · simp [*]

theorem tget_tmod_ne (t : List (Nat × α)) {m n : Nat} (f : α → α) (h : m ≠ n) : tget (tmod t n f) m = tget t m := by
  unfold tmod
  split
  · exact tget_tins_ne t _ h
  · rfl

/-- A change of every value. -/
theorem tget_map {β : Type} (t : List (Nat × α)) (f : Nat → α → β) (n : Nat) :
    tget (t.map fun p => (p.1, f p.1 p.2)) n = (tget t n).map (f n) := by
  induction t with
  | nil => rfl
  | cons p t ih =>
    obtain ⟨k, v⟩ := p
    simp only [List.map_cons, tget_cons, ih]
    split
    · subst_vars; rfl
    · split <;> rfl

/-- What is read is listed. -/
theorem mem_of_tget {t : List (Nat × α)} {n : Nat} {x : α} (h : tget t n = some x) : (n, x) ∈ t := by
  induction t with
  | nil => simp at h
  | cons p t ih =>
    obtain ⟨k, v⟩ := p
    rw [tget_cons] at h
    split at h
    · cases h; subst_vars; simp
    · split at h
      · cases h
      · exact List.mem_cons_of_mem _ (ih h)

/-! The canonical form. -/

theorem tsorted_cons {k : Nat} {v : α} {t : List (Nat × α)} (h : tsorted ((k, v) :: t) = true) : tsorted t = true := by
  cases t with
  | nil => rfl
  | cons q t => simp only [tsorted, Bool.and_eq_true] at h; exact h.2

/-- In a sorted list every later key is greater. -/
theorem tsorted_lt {k : Nat} {v : α} {t : List (Nat × α)} (h : tsorted ((k, v) :: t) = true) :
    ∀ e ∈ t, k < e.1 := by
  induction t generalizing k v with
  | nil => simp
  | cons q t ih =>
    obtain ⟨k', v'⟩ := q
    simp only [tsorted, Bool.and_eq_true, decide_eq_true_eq] at h
    intro e he
    rcases List.mem_cons.1 he with rfl | he
    · exact h.1
    · exact Nat.lt_trans h.1 (ih h.2 e he)

/-- A list is sorted when its tail is and its head lies below the tail. -/
theorem tsorted_of {k : Nat} {v : α} {t : List (Nat × α)} (h : tsorted t = true) (hk : ∀ e ∈ t, k < e.1) :
    tsorted ((k, v) :: t) = true := by
  cases t with
  | nil => rfl
  | cons q t =>
    obtain ⟨k', v'⟩ := q
    simp only [tsorted, Bool.and_eq_true, decide_eq_true_eq]
    exact ⟨hk (k', v') (by simp), h⟩

theorem mem_tins {t : List (Nat × α)} {n : Nat} {x : α} {e : Nat × α} (h : e ∈ tins t n x) : e = (n, x) ∨ e ∈ t := by
  induction t with
  | nil => simpa [tins] using h
  | cons q t ih =>
    obtain ⟨k, v⟩ := q
    simp only [tins] at h
    split at h
    · simpa using h
    · split at h
      · simp only [List.mem_cons] at h ⊢
        exact h.elim .inl fun h => .inr (.inr h)
      · simp only [List.mem_cons] at h ⊢
        exact h.elim (fun h => .inr (.inl h)) fun h => (ih h).elim .inl fun h => .inr (.inr h)

theorem mem_tdel {t : List (Nat × α)} {n : Nat} {e : Nat × α} (h : e ∈ tdel t n) : e ∈ t := by
  induction t with
  | nil => exact h
  | cons q t ih =>
    obtain ⟨k, v⟩ := q
    simp only [tdel] at h
    split at h
    · exact List.mem_cons_of_mem _ ((List.dropWhile_sublist _).subset h)
    · split at h
      · exact h
      · simp only [List.mem_cons] at h ⊢
        rcases h with h | h
        · exact .inl h
        · exact .inr (ih h)

theorem tsorted_tins {t : List (Nat × α)} (h : tsorted t = true) (n : Nat) (x : α) : tsorted (tins t n x) = true := by
  induction t with
  | nil => rfl
  | cons q t ih =>
    obtain ⟨k, v⟩ := q
    have hl := tsorted_lt h
    simp only [tins]
    split
    · exact tsorted_of h fun e he => by
        rcases List.mem_cons.1 he with rfl | he
        · assumption
        · exact Nat.lt_trans ‹_› (hl e he)
    · split
      · subst_vars
        exact tsorted_of (tsorted_cons h) hl
      · refine tsorted_of (ih (tsorted_cons h)) fun e he => ?_
        rcases mem_tins he with rfl | he
        · show k < n
          omega
        · exact hl e he

/-- Sorted lists stay sorted when entries go. -/
theorem tsorted_sublist {t u : List (Nat × α)} (hs : u.Sublist t) (h : tsorted t = true) : tsorted u = true := by
  induction hs with
  | slnil => rfl
  | cons a _ ih => exact ih (tsorted_cons (k := a.1) (v := a.2) h)
  | cons_cons a hs ih =>
    exact tsorted_of (ih (tsorted_cons (k := a.1) (v := a.2) h)) fun e he =>
      tsorted_lt (k := a.1) (v := a.2) h e (hs.subset he)

theorem tsorted_tdel {t : List (Nat × α)} (h : tsorted t = true) (n : Nat) : tsorted (tdel t n) = true := by
  induction t with
  | nil => rfl
  | cons q t ih =>
    obtain ⟨k, v⟩ := q
    simp only [tdel]
    split
    · exact tsorted_sublist (List.dropWhile_sublist _) (tsorted_cons h)
    · split
      · exact h
      · exact tsorted_of (ih (tsorted_cons h)) fun e he => tsorted_lt h e (mem_tdel he)

theorem tsorted_tput [DecidableEq α] (d : α) {t : List (Nat × α)} (h : tsorted t = true) (n : Nat) (x : α) :
    tsorted (tput d t n x) = true := by
  unfold tput
  split
  · exact tsorted_tdel h n
  · exact tsorted_tins h n x

end Sys2Proof.Machine
end

