-- ==== Sys2Proof/Laws/Mem.lean ====
section
/-! SUPPORT. Laws/Mem.lean: memory keeps its canonical form under every operation on it, and reads what was written. -/

namespace Sys2Proof.Machine

theorem memWf_iff (m : List Host.Cell) : memWf m = true ↔ tsorted m = true ∧ ∀ c ∈ m, c.2 ≠ 0 := by
  simp [memWf]

theorem memWf_nil : memWf [] = true := rfl

/-- At reset memory has its canonical form. -/
theorem memWf_reset : memWf State.reset.mem = true := rfl

theorem memWf_memWrite {m : List Host.Cell} (h : memWf m = true) (a : Nat) (b : Byte) :
    memWf (memWrite m a b) = true := by
  rw [memWf_iff] at h ⊢
  refine ⟨tsorted_tput _ h.1 a b, fun c hc => ?_⟩
  unfold memWrite tput at hc
  split at hc
  · exact h.2 c (mem_tdel hc)
  · rcases mem_tins hc with rfl | hc
    · assumption
    · exact h.2 c hc

theorem memWf_foldl {σ : Type} (l : List σ) (f : List Host.Cell → σ → List Host.Cell)
    (hf : ∀ m x, memWf m = true → memWf (f m x) = true) {m : List Host.Cell} (h : memWf m = true) :
    memWf (l.foldl f m) = true := by
  induction l generalizing m with
  | nil => exact h
  | cons x l ih => exact ih (hf m x h)

theorem memWf_memPut {m : List Host.Cell} (h : memWf m = true) (a : Nat) (bs : List Byte) :
    memWf (memPut m a bs) = true :=
  memWf_foldl _ _ (fun _ _ h => memWf_memWrite h _ _) h

theorem memWf_filter {m : List Host.Cell} (h : memWf m = true) (p : Host.Cell → Bool) : memWf (m.filter p) = true := by
  rw [memWf_iff] at h ⊢
  exact ⟨tsorted_sublist List.filter_sublist h.1, fun c hc => h.2 c (List.mem_filter.1 hc).1⟩

theorem memWf_outside {m : List Host.Cell} (h : memWf m = true) (lo hi : Nat) : memWf (outside m lo hi) = true :=
  memWf_filter h _

@[simp] theorem memRead_memWrite (m : List Host.Cell) (a : Nat) (b : Byte) : memRead (memWrite m a b) a = b :=
  tgetD_tput 0 m a b

theorem memRead_memWrite_ne (m : List Host.Cell) {a c : Nat} (b : Byte) (h : c ≠ a) :
    memRead (memWrite m a b) c = memRead m c :=
  tgetD_tput_ne 0 0 m b h

/-- Nothing listed reads as zero. -/
theorem memRead_nil (a : Nat) : memRead [] a = 0 := rfl

end Sys2Proof.Machine
end

