-- ==== Sys2Proof/Laws/PerInstr.lean ====
section
/-! SUPPORT. Laws/PerInstr.lean: the family Codec, one lemma per constructor of Instr. -/

namespace Sys2Proof.Laws

/-- From its first word or two the fetch knows how many words an issue unit spans, and that is how many a
well-formed instruction is written in (R39, R176); a step that is no word is written in none. -/
def Codec.Statement (i : Instr) : Prop := i.wf = true → unitLen (encode i) = (encode i).length

theorem Codec.sadd (g : Gen) : Codec.Statement (.sadd g) :=
  fun _ => unitLen_single (major_gen _ _) rfl
theorem Codec.ssub (g : Gen) : Codec.Statement (.ssub g) :=
  fun _ => unitLen_single (major_gen _ _) rfl
theorem Codec.smul (g : Gen) : Codec.Statement (.smul g) :=
  fun _ => unitLen_single (major_gen _ _) rfl
theorem Codec.smulhi (g : Gen) : Codec.Statement (.smulhi g) :=
  fun _ => unitLen_single (major_gen _ _) rfl
theorem Codec.smin (g : Gen) : Codec.Statement (.smin g) :=
  fun _ => unitLen_single (major_gen _ _) rfl
theorem Codec.smax (g : Gen) : Codec.Statement (.smax g) :=
  fun _ => unitLen_single (major_gen _ _) rfl
theorem Codec.sand (g : Gen) : Codec.Statement (.sand g) :=
  fun _ => unitLen_single (major_gen _ _) rfl
theorem Codec.sor (g : Gen) : Codec.Statement (.sor g) :=
  fun _ => unitLen_single (major_gen _ _) rfl
theorem Codec.sxor (g : Gen) : Codec.Statement (.sxor g) :=
  fun _ => unitLen_single (major_gen _ _) rfl
theorem Codec.snot (g : Gen) : Codec.Statement (.snot g) :=
  fun _ => unitLen_single (major_gen _ _) rfl
theorem Codec.sshl (g : Gen) : Codec.Statement (.sshl g) :=
  fun _ => unitLen_single (major_gen _ _) rfl
theorem Codec.sshr (g : Gen) : Codec.Statement (.sshr g) :=
  fun _ => unitLen_single (major_gen _ _) rfl
theorem Codec.ssar (g : Gen) : Codec.Statement (.ssar g) :=
  fun _ => unitLen_single (major_gen _ _) rfl
theorem Codec.sbfe (g : Gen) : Codec.Statement (.sbfe g) :=
  fun _ => unitLen_single (major_gen _ _) rfl
theorem Codec.spopc (g : Gen) : Codec.Statement (.spopc g) :=
  fun _ => unitLen_single (major_gen _ _) rfl
theorem Codec.sclz (g : Gen) : Codec.Statement (.sclz g) :=
  fun _ => unitLen_single (major_gen _ _) rfl
theorem Codec.scmp (g : Gen) : Codec.Statement (.scmp g) :=
  fun _ => unitLen_single (major_gen _ _) rfl
theorem Codec.ssel (g : Gen) : Codec.Statement (.ssel g) :=
  fun _ => unitLen_single (major_gen _ _) rfl
theorem Codec.smov (g : Gen) : Codec.Statement (.smov g) :=
  fun _ => unitLen_single (major_gen _ _) rfl
theorem Codec.smovi (m : Imm) : Codec.Statement (.smovi m) :=
  fun _ => unitLen_single (major_imm _ _) rfl
theorem Codec.sadd64 (g : Gen) : Codec.Statement (.sadd64 g) :=
  fun _ => unitLen_single (major_gen _ _) rfl
theorem Codec.sldk (m : Imm) : Codec.Statement (.sldk m) :=
  fun _ => unitLen_single (major_imm _ _) rfl
theorem Codec.mset (g : Gen) : Codec.Statement (.mset g) :=
  fun _ => unitLen_single (major_gen _ _) rfl
theorem Codec.mget (g : Gen) : Codec.Statement (.mget g) :=
  fun _ => unitLen_single (major_gen _ _) rfl
theorem Codec.mand (g : Gen) : Codec.Statement (.mand g) :=
  fun _ => unitLen_single (major_gen _ _) rfl
theorem Codec.mor (g : Gen) : Codec.Statement (.mor g) :=
  fun _ => unitLen_single (major_gen _ _) rfl
theorem Codec.mxor (g : Gen) : Codec.Statement (.mxor g) :=
  fun _ => unitLen_single (major_gen _ _) rfl
theorem Codec.mandn (g : Gen) : Codec.Statement (.mandn g) :=
  fun _ => unitLen_single (major_gen _ _) rfl
theorem Codec.mpop (g : Gen) : Codec.Statement (.mpop g) :=
  fun _ => unitLen_single (major_gen _ _) rfl
theorem Codec.mfind (g : Gen) : Codec.Statement (.mfind g) :=
  fun _ => unitLen_single (major_gen _ _) rfl
theorem Codec.bra (b : Bra) : Codec.Statement (.bra b) :=
  fun _ => unitLen_single (major_bra _ _) rfl
theorem Codec.brc (b : Bra) : Codec.Statement (.brc b) :=
  fun _ => unitLen_single (major_bra _ _) rfl
theorem Codec.brd (b : Bra) : Codec.Statement (.brd b) :=
  fun _ => unitLen_single (major_bra _ _) rfl
theorem Codec.reconv (g : Gen) : Codec.Statement (.reconv g) :=
  fun _ => unitLen_single (major_gen _ _) rfl
theorem Codec.jmpi (g : Gen) : Codec.Statement (.jmpi g) :=
  fun _ => unitLen_single (major_gen _ _) rfl
theorem Codec.call (b : Bra) : Codec.Statement (.call b) :=
  fun _ => unitLen_single (major_bra _ _) rfl
theorem Codec.ret (g : Gen) : Codec.Statement (.ret g) :=
  fun _ => unitLen_single (major_gen _ _) rfl
theorem Codec.exit (g : Gen) : Codec.Statement (.exit g) :=
  fun _ => unitLen_single (major_gen _ _) rfl
theorem Codec.spawn (g : Gen) : Codec.Statement (.spawn g) :=
  fun _ => unitLen_single (major_gen _ _) rfl
theorem Codec.yield (g : Gen) : Codec.Statement (.yield g) :=
  fun _ => unitLen_single (major_gen _ _) rfl
theorem Codec.nop (g : Gen) : Codec.Statement (.nop g) :=
  fun _ => unitLen_single (major_gen _ _) rfl
theorem Codec.waitcnt (g : Gen) : Codec.Statement (.waitcnt g) :=
  fun _ => unitLen_single (major_gen _ _) rfl
theorem Codec.sleep (g : Gen) : Codec.Statement (.sleep g) :=
  fun _ => unitLen_single (major_gen _ _) rfl
theorem Codec.trap (g : Gen) : Codec.Statement (.trap g) :=
  fun _ => unitLen_single (major_gen _ _) rfl
theorem Codec.tret (g : Gen) : Codec.Statement (.tret g) :=
  fun _ => unitLen_single (major_gen _ _) rfl
theorem Codec.sigchk (m : Imm) : Codec.Statement (.sigchk m) :=
  fun _ => unitLen_single (major_imm _ _) rfl
theorem Codec.sigrst (g : Gen) : Codec.Statement (.sigrst g) :=
  fun _ => unitLen_single (major_gen _ _) rfl
theorem Codec.sread (g : Gen) : Codec.Statement (.sread g) :=
  fun _ => unitLen_single (major_gen _ _) rfl
theorem Codec.swrite (g : Gen) : Codec.Statement (.swrite g) :=
  fun _ => unitLen_single (major_gen _ _) rfl
theorem Codec.reggrow (g : Gen) : Codec.Statement (.reggrow g) :=
  fun _ => unitLen_single (major_gen _ _) rfl
theorem Codec.regshrink (g : Gen) : Codec.Statement (.regshrink g) :=
  fun _ => unitLen_single (major_gen _ _) rfl
theorem Codec.vadd (g : Gen) : Codec.Statement (.vadd g) :=
  fun _ => unitLen_single (major_gen _ _) rfl
theorem Codec.vsub (g : Gen) : Codec.Statement (.vsub g) :=
  fun _ => unitLen_single (major_gen _ _) rfl
theorem Codec.vmul (g : Gen) : Codec.Statement (.vmul g) :=
  fun _ => unitLen_single (major_gen _ _) rfl
theorem Codec.vmulhi (g : Gen) : Codec.Statement (.vmulhi g) :=
  fun _ => unitLen_single (major_gen _ _) rfl
theorem Codec.vmad (g : Gen) : Codec.Statement (.vmad g) :=
  fun _ => unitLen_single (major_gen _ _) rfl
theorem Codec.vaddc (g : Gen) : Codec.Statement (.vaddc g) :=
  fun _ => unitLen_single (major_gen _ _) rfl
theorem Codec.vadd64 (g : Gen) : Codec.Statement (.vadd64 g) :=
  fun _ => unitLen_single (major_gen _ _) rfl
theorem Codec.vmin (g : Gen) : Codec.Statement (.vmin g) :=
  fun _ => unitLen_single (major_gen _ _) rfl
theorem Codec.vmax (g : Gen) : Codec.Statement (.vmax g) :=
  fun _ => unitLen_single (major_gen _ _) rfl
theorem Codec.vabs (g : Gen) : Codec.Statement (.vabs g) :=
  fun _ => unitLen_single (major_gen _ _) rfl
theorem Codec.vand (g : Gen) : Codec.Statement (.vand g) :=
  fun _ => unitLen_single (major_gen _ _) rfl
theorem Codec.vor (g : Gen) : Codec.Statement (.vor g) :=
  fun _ => unitLen_single (major_gen _ _) rfl
theorem Codec.vxor (g : Gen) : Codec.Statement (.vxor g) :=
  fun _ => unitLen_single (major_gen _ _) rfl
theorem Codec.vnot (g : Gen) : Codec.Statement (.vnot g) :=
  fun _ => unitLen_single (major_gen _ _) rfl
theorem Codec.vshl (g : Gen) : Codec.Statement (.vshl g) :=
  fun _ => unitLen_single (major_gen _ _) rfl
theorem Codec.vshr (g : Gen) : Codec.Statement (.vshr g) :=
  fun _ => unitLen_single (major_gen _ _) rfl
theorem Codec.vsar (g : Gen) : Codec.Statement (.vsar g) :=
  fun _ => unitLen_single (major_gen _ _) rfl
theorem Codec.vbfe (g : Gen) : Codec.Statement (.vbfe g) :=
  fun _ => unitLen_single (major_gen _ _) rfl
theorem Codec.vbfi (g : Gen) : Codec.Statement (.vbfi g) :=
  fun _ => unitLen_single (major_gen _ _) rfl
theorem Codec.vpopc (g : Gen) : Codec.Statement (.vpopc g) :=
  fun _ => unitLen_single (major_gen _ _) rfl
theorem Codec.vclz (g : Gen) : Codec.Statement (.vclz g) :=
  fun _ => unitLen_single (major_gen _ _) rfl
theorem Codec.vbrev (g : Gen) : Codec.Statement (.vbrev g) :=
  fun _ => unitLen_single (major_gen _ _) rfl
theorem Codec.vperm (g : Gen) : Codec.Statement (.vperm g) :=
  fun _ => unitLen_single (major_gen _ _) rfl
theorem Codec.vcmp (g : Gen) : Codec.Statement (.vcmp g) :=
  fun _ => unitLen_single (major_gen _ _) rfl
theorem Codec.vsel (g : Gen) : Codec.Statement (.vsel g) :=
  fun _ => unitLen_single (major_gen _ _) rfl
theorem Codec.vmov (g : Gen) : Codec.Statement (.vmov g) :=
  fun _ => unitLen_single (major_gen _ _) rfl
theorem Codec.vmovi (m : Imm) : Codec.Statement (.vmovi m) :=
  fun _ => unitLen_single (major_imm _ _) rfl
theorem Codec.vsadd (g : Gen) : Codec.Statement (.vsadd g) :=
  fun _ => unitLen_single (major_gen _ _) rfl
theorem Codec.vfadd (g : Gen) : Codec.Statement (.vfadd g) :=
  fun _ => unitLen_single (major_gen _ _) rfl
theorem Codec.vfsub (g : Gen) : Codec.Statement (.vfsub g) :=
  fun _ => unitLen_single (major_gen _ _) rfl
theorem Codec.vfmul (g : Gen) : Codec.Statement (.vfmul g) :=
  fun _ => unitLen_single (major_gen _ _) rfl
theorem Codec.vfma (g : Gen) : Codec.Statement (.vfma g) :=
  fun _ => unitLen_single (major_gen _ _) rfl
theorem Codec.vfmin (g : Gen) : Codec.Statement (.vfmin g) :=
  fun _ => unitLen_single (major_gen _ _) rfl
theorem Codec.vfmax (g : Gen) : Codec.Statement (.vfmax g) :=
  fun _ => unitLen_single (major_gen _ _) rfl
theorem Codec.vfcmp (g : Gen) : Codec.Statement (.vfcmp g) :=
  fun _ => unitLen_single (major_gen _ _) rfl
theorem Codec.vfclass (g : Gen) : Codec.Statement (.vfclass g) :=
  fun _ => unitLen_single (major_gen _ _) rfl
theorem Codec.vfrnd (g : Gen) : Codec.Statement (.vfrnd g) :=
  fun _ => unitLen_single (major_gen _ _) rfl
theorem Codec.vfdiv (g : Gen) : Codec.Statement (.vfdiv g) :=
  fun _ => unitLen_single (major_gen _ _) rfl
theorem Codec.vsfu (g : Gen) : Codec.Statement (.vsfu g) :=
  fun _ => unitLen_single (major_gen _ _) rfl
theorem Codec.vcvt (g : Gen) : Codec.Statement (.vcvt g) :=
  fun _ => unitLen_single (major_gen _ _) rfl
theorem Codec.vexpr (g : Gen) (x : ExprExt) : Codec.Statement (.vexpr g x) :=
  fun h => unitLen_vexpr h
theorem Codec.vh2add (g : Gen) : Codec.Statement (.vh2add g) :=
  fun _ => unitLen_single (major_gen _ _) rfl
theorem Codec.vh2mul (g : Gen) : Codec.Statement (.vh2mul g) :=
  fun _ => unitLen_single (major_gen _ _) rfl
theorem Codec.vh2fma (g : Gen) : Codec.Statement (.vh2fma g) :=
  fun _ => unitLen_single (major_gen _ _) rfl
theorem Codec.vdot2 (g : Gen) : Codec.Statement (.vdot2 g) :=
  fun _ => unitLen_single (major_gen _ _) rfl
theorem Codec.vdadd (g : Gen) : Codec.Statement (.vdadd g) :=
  fun _ => unitLen_single (major_gen _ _) rfl
theorem Codec.vdmul (g : Gen) : Codec.Statement (.vdmul g) :=
  fun _ => unitLen_single (major_gen _ _) rfl
theorem Codec.vdfma (g : Gen) : Codec.Statement (.vdfma g) :=
  fun _ => unitLen_single (major_gen _ _) rfl
theorem Codec.vote (g : Gen) : Codec.Statement (.vote g) :=
  fun _ => unitLen_single (major_gen _ _) rfl
theorem Codec.shfl (g : Gen) : Codec.Statement (.shfl g) :=
  fun _ => unitLen_single (major_gen _ _) rfl
theorem Codec.vred (g : Gen) : Codec.Statement (.vred g) :=
  fun _ => unitLen_single (major_gen _ _) rfl
theorem Codec.vscan (g : Gen) : Codec.Statement (.vscan g) :=
  fun _ => unitLen_single (major_gen _ _) rfl
theorem Codec.matchl (g : Gen) : Codec.Statement (.matchl g) :=
  fun _ => unitLen_single (major_gen _ _) rfl
theorem Codec.v2s (g : Gen) : Codec.Statement (.v2s g) :=
  fun _ => unitLen_single (major_gen _ _) rfl
theorem Codec.s2v (g : Gen) : Codec.Statement (.s2v g) :=
  fun _ => unitLen_single (major_gen _ _) rfl
theorem Codec.vcompact (g : Gen) : Codec.Statement (.vcompact g) :=
  fun _ => unitLen_single (major_gen _ _) rfl
theorem Codec.vld (m : Mem) : Codec.Statement (.vld m) :=
  fun _ => unitLen_mem (major_mem _ _) (by decide) (ownerLen_one (major_mem _ _) rfl) rfl
theorem Codec.vst (m : Mem) : Codec.Statement (.vst m) :=
  fun _ => unitLen_mem (major_mem _ _) (by decide) (ownerLen_one (major_mem _ _) rfl) rfl
theorem Codec.vldx (m : Mem) : Codec.Statement (.vldx m) :=
  fun _ => unitLen_mem (major_mem _ _) (by decide) (ownerLen_one (major_mem _ _) rfl) rfl
theorem Codec.vstx (m : Mem) : Codec.Statement (.vstx m) :=
  fun _ => unitLen_mem (major_mem _ _) (by decide) (ownerLen_one (major_mem _ _) rfl) rfl
theorem Codec.sld (m : Mem) : Codec.Statement (.sld m) :=
  fun _ => unitLen_mem (major_mem _ _) (by decide) (ownerLen_one (major_mem _ _) rfl) rfl
theorem Codec.sst (m : Mem) : Codec.Statement (.sst m) :=
  fun _ => unitLen_mem (major_mem _ _) (by decide) (ownerLen_one (major_mem _ _) rfl) rfl
theorem Codec.atom (m : Mem) (x : AtomExt) : Codec.Statement (.atom m x) :=
  fun _ => unitLen_mem (major_mem _ _) (by decide) (ownerLen_two (major_mem _ _) (by decide)) rfl
theorem Codec.atomcas (m : Mem) (x : CasExt) : Codec.Statement (.atomcas m x) :=
  fun _ => unitLen_mem (major_mem _ _) (by decide) (ownerLen_two (major_mem _ _) (by decide)) rfl
theorem Codec.mwait (m : Mem) (x : MwExt) : Codec.Statement (.mwait m x) :=
  fun _ => unitLen_mem (major_mem _ _) (by decide) (ownerLen_two (major_mem _ _) (by decide)) rfl
theorem Codec.fence (m : Mem) : Codec.Statement (.fence m) :=
  fun _ => unitLen_mem (major_mem _ _) (by decide) (ownerLen_one (major_mem _ _) rfl) rfl
theorem Codec.acq (m : Mem) : Codec.Statement (.acq m) :=
  fun _ => unitLen_mem (major_mem _ _) (by decide) (ownerLen_one (major_mem _ _) rfl) rfl
theorem Codec.rel (m : Mem) : Codec.Statement (.rel m) :=
  fun _ => unitLen_mem (major_mem _ _) (by decide) (ownerLen_one (major_mem _ _) rfl) rfl
theorem Codec.bind (m : Mem) : Codec.Statement (.bind m) :=
  fun _ => unitLen_mem (major_mem _ _) (by decide) (ownerLen_one (major_mem _ _) rfl) rfl
theorem Codec.bindt (m : Mem) : Codec.Statement (.bindt m) :=
  fun _ => unitLen_mem (major_mem _ _) (by decide) (ownerLen_one (major_mem _ _) rfl) rfl
theorem Codec.unbind (m : Mem) : Codec.Statement (.unbind m) :=
  fun _ => unitLen_mem (major_mem _ _) (by decide) (ownerLen_one (major_mem _ _) rfl) rfl
theorem Codec.cinv (m : Mem) : Codec.Statement (.cinv m) :=
  fun _ => unitLen_mem (major_mem _ _) (by decide) (ownerLen_one (major_mem _ _) rfl) rfl
theorem Codec.cwb (m : Mem) : Codec.Statement (.cwb m) :=
  fun _ => unitLen_mem (major_mem _ _) (by decide) (ownerLen_one (major_mem _ _) rfl) rfl
theorem Codec.cpref (m : Mem) : Codec.Statement (.cpref m) :=
  fun _ => unitLen_mem (major_mem _ _) (by decide) (ownerLen_one (major_mem _ _) rfl) rfl
theorem Codec.alloc (m : Mem) : Codec.Statement (.alloc m) :=
  fun _ => unitLen_mem (major_mem _ _) (by decide) (ownerLen_one (major_mem _ _) rfl) rfl
theorem Codec.free (m : Mem) : Codec.Statement (.free m) :=
  fun _ => unitLen_mem (major_mem _ _) (by decide) (ownerLen_one (major_mem _ _) rfl) rfl
theorem Codec.crnew (w : Crw) : Codec.Statement (.crnew w) :=
  fun _ => unitLen_single (major_crw _ _) rfl
theorem Codec.crjoin (w : Crw) : Codec.Statement (.crjoin w) :=
  fun _ => unitLen_single (major_crw _ _) rfl
theorem Codec.crleave (w : Crw) : Codec.Statement (.crleave w) :=
  fun _ => unitLen_single (major_crw _ _) rfl
theorem Codec.crsync (w : Crw) : Codec.Statement (.crsync w) :=
  fun _ => unitLen_single (major_crw _ _) rfl
theorem Codec.crarrive (w : Crw) : Codec.Statement (.crarrive w) :=
  fun _ => unitLen_single (major_crw _ _) rfl
theorem Codec.crwait (w : Crw) : Codec.Statement (.crwait w) :=
  fun _ => unitLen_single (major_crw _ _) rfl
theorem Codec.crquery (w : Crw) : Codec.Statement (.crquery w) :=
  fun _ => unitLen_single (major_crw _ _) rfl
theorem Codec.crmap (w : Crw) : Codec.Statement (.crmap w) :=
  fun _ => unitLen_single (major_crw _ _) rfl
theorem Codec.bcopy (w : Cpy) : Codec.Statement (.bcopy w) :=
  fun _ => unitLen_cpy (by decide)
theorem Codec.bcopyc (w : Cpy) : Codec.Statement (.bcopyc w) :=
  fun _ => unitLen_cpy (by decide)
theorem Codec.bseal (w : Bat) : Codec.Statement (.bseal w) :=
  fun _ => unitLen_single (major_bat _ _) rfl
theorem Codec.bwait (w : Bat) : Codec.Statement (.bwait w) :=
  fun _ => unitLen_single (major_bat _ _) rfl
theorem Codec.bquery (w : Bat) : Codec.Statement (.bquery w) :=
  fun _ => unitLen_single (major_bat _ _) rfl
theorem Codec.bcancel (w : Bat) : Codec.Statement (.bcancel w) :=
  fun _ => unitLen_single (major_bat _ _) rfl
theorem Codec.tclaim (w : Mtx) : Codec.Statement (.tclaim w) :=
  fun _ => unitLen_single (major_mtx _ _) rfl
theorem Codec.trel (w : Mtx) : Codec.Statement (.trel w) :=
  fun _ => unitLen_single (major_mtx _ _) rfl
theorem Codec.tload (w : Mtx) : Codec.Statement (.tload w) :=
  fun _ => unitLen_single (major_mtx _ _) rfl
theorem Codec.tloads (w : Mtx) : Codec.Statement (.tloads w) :=
  fun _ => unitLen_single (major_mtx _ _) rfl
theorem Codec.mma (w : Mtx) : Codec.Statement (.mma w) :=
  fun _ => unitLen_single (major_mtx _ _) rfl
theorem Codec.mmasp (w : Mtx) : Codec.Statement (.mmasp w) :=
  fun _ => unitLen_single (major_mtx _ _) rfl
theorem Codec.mloop (w : Mtx) : Codec.Statement (.mloop w) :=
  fun _ => unitLen_single (major_mtx _ _) rfl
theorem Codec.mdist (w : Mtx) : Codec.Statement (.mdist w) :=
  fun _ => unitLen_single (major_mtx _ _) rfl
theorem Codec.mtopk (w : Mtx) : Codec.Statement (.mtopk w) :=
  fun _ => unitLen_single (major_mtx _ _) rfl
theorem Codec.czero (w : Mtx) : Codec.Statement (.czero w) :=
  fun _ => unitLen_single (major_mtx _ _) rfl
theorem Codec.cload (w : Mtx) : Codec.Statement (.cload w) :=
  fun _ => unitLen_single (major_mtx _ _) rfl
theorem Codec.cstore (w : Mtx) : Codec.Statement (.cstore w) :=
  fun _ => unitLen_single (major_mtx _ _) rfl
theorem Codec.cpop (w : Mtx) : Codec.Statement (.cpop w) :=
  fun _ => unitLen_single (major_mtx _ _) rfl
theorem Codec.msync (w : Mtx) : Codec.Statement (.msync w) :=
  fun _ => unitLen_single (major_mtx _ _) rfl
theorem Codec.qpush (w : Que) : Codec.Statement (.qpush w) :=
  fun _ => unitLen_single (major_que _ _) rfl
theorem Codec.qpop (w : Que) : Codec.Statement (.qpop w) :=
  fun _ => unitLen_single (major_que _ _) rfl
theorem Codec.qpeek (w : Que) : Codec.Statement (.qpeek w) :=
  fun _ => unitLen_single (major_que _ _) rfl
theorem Codec.qcount (w : Que) : Codec.Statement (.qcount w) :=
  fun _ => unitLen_single (major_que _ _) rfl
theorem Codec.brk (g : Gen) : Codec.Statement (.brk g) :=
  fun _ => unitLen_single (major_gen _ _) rfl
theorem Codec.pmread (g : Gen) : Codec.Statement (.pmread g) :=
  fun _ => unitLen_single (major_gen _ _) rfl
theorem Codec.qpost (g : Gen) : Codec.Statement (.qpost g) :=
  fun _ => unitLen_single (major_gen _ _) rfl
theorem Codec.clauseFetch : Codec.Statement .clauseFetch := fun _ => rfl
theorem Codec.crossLaneRelease (core warp : Nat) (slot : Slot) : Codec.Statement (.crossLaneRelease core warp slot) := fun _ => rfl
theorem Codec.sleepDeadline (core warp : Nat) (slot : Slot) : Codec.Statement (.sleepDeadline core warp slot) := fun _ => rfl
theorem Codec.mwaitRetest (core warp : Nat) (slot : Slot) : Codec.Statement (.mwaitRetest core warp slot) := fun _ => rfl
theorem Codec.mwaitTimeout (core warp : Nat) (slot : Slot) : Codec.Statement (.mwaitTimeout core warp slot) := fun _ => rfl
theorem Codec.reggrowGrant (core : Nat) : Codec.Statement (.reggrowGrant core) := fun _ => rfl
theorem Codec.activeSetEvict (core warp : Nat) : Codec.Statement (.activeSetEvict core warp) := fun _ => rfl
theorem Codec.passedOverLimit (core warp : Nat) : Codec.Statement (.passedOverLimit core warp) := fun _ => rfl
theorem Codec.contextSave (core reason : Nat) : Codec.Statement (.contextSave core reason) := fun _ => rfl
theorem Codec.contextRestore (core index : Nat) : Codec.Statement (.contextRestore core index) := fun _ => rfl
theorem Codec.priorityPreempt (core part queue : Nat) : Codec.Statement (.priorityPreempt core part queue) := fun _ => rfl
theorem Codec.barrierMessage (chiplet : Nat) : Codec.Statement (.barrierMessage chiplet) := fun _ => rfl
theorem Codec.barrierRelease (core : Nat) : Codec.Statement (.barrierRelease core) := fun _ => rfl
theorem Codec.crewRecordError (handle : Nat) : Codec.Statement (.crewRecordError handle) := fun _ => rfl
theorem Codec.copyStart (engine : Nat) : Codec.Statement (.copyStart engine) := fun _ => rfl
theorem Codec.copyComplete (copy : Nat) : Codec.Statement (.copyComplete copy) := fun _ => rfl
theorem Codec.copyEngineFail (engine : Nat) : Codec.Statement (.copyEngineFail engine) := fun _ => rfl
theorem Codec.enginePerform (core : Nat) : Codec.Statement (.enginePerform core) := fun _ => rfl
theorem Codec.transitPlace (core : Nat) : Codec.Statement (.transitPlace core) := fun _ => rfl
theorem Codec.vbusCheckFail (column : Nat) : Codec.Statement (.vbusCheckFail column) := fun _ => rfl
theorem Codec.laneRepair (column : Nat) : Codec.Statement (.laneRepair column) := fun _ => rfl
theorem Codec.busThaw (column : Nat) : Codec.Statement (.busThaw column) := fun _ => rfl
theorem Codec.busFail (column : Nat) : Codec.Statement (.busFail column) := fun _ => rfl
theorem Codec.gateRequest (pair : Nat) : Codec.Statement (.gateRequest pair) := fun _ => rfl
theorem Codec.gatePowerOn (pair : Nat) : Codec.Statement (.gatePowerOn pair) := fun _ => rfl
theorem Codec.migrate (pair position : Nat) : Codec.Statement (.migrate pair position) := fun _ => rfl
theorem Codec.migrationDrainTimeout (pair position : Nat) : Codec.Statement (.migrationDrainTimeout pair position) := fun _ => rfl
theorem Codec.columnRemap (pair position : Nat) : Codec.Statement (.columnRemap pair position) := fun _ => rfl
theorem Codec.storecfgWrite (core : Nat) (l1ways : BitVec 2) : Codec.Statement (.storecfgWrite core l1ways) := fun _ => rfl
theorem Codec.registerWrite (page : RegPage) (offset : Nat) (value : W64) : Codec.Statement (.registerWrite page offset value) := fun _ => rfl
theorem Codec.rds (agent line : Nat) : Codec.Statement (.rds agent line) := fun _ => rfl
theorem Codec.rdx (agent line : Nat) : Codec.Statement (.rdx agent line) := fun _ => rfl
theorem Codec.upg (agent line : Nat) : Codec.Statement (.upg agent line) := fun _ => rfl
theorem Codec.wbd (agent line : Nat) (data : Line) : Codec.Statement (.wbd agent line data) := fun _ => rfl
theorem Codec.wbc (agent line : Nat) : Codec.Statement (.wbc agent line) := fun _ => rfl
theorem Codec.rdu (agent line : Nat) : Codec.Statement (.rdu agent line) := fun _ => rfl
theorem Codec.wru (agent line : Nat) (data : Line) (mask : LineMask) : Codec.Statement (.wru agent line data mask) := fun _ => rfl
theorem Codec.lr (port line : Nat) : Codec.Statement (.lr port line) := fun _ => rfl
theorem Codec.lw (port line : Nat) : Codec.Statement (.lw port line) := fun _ => rfl
theorem Codec.dramFetchDone (slice line : Nat) : Codec.Statement (.dramFetchDone slice line) := fun _ => rfl
theorem Codec.rspi (agent line : Nat) : Codec.Statement (.rspi agent line) := fun _ => rfl
theorem Codec.rsps (agent line : Nat) (data : Line) : Codec.Statement (.rsps agent line data) := fun _ => rfl
theorem Codec.rspod (agent line : Nat) (data : Line) : Codec.Statement (.rspod agent line data) := fun _ => rfl
theorem Codec.rspid (agent line : Nat) (data : Line) : Codec.Statement (.rspid agent line data) := fun _ => rfl
theorem Codec.snps (line : Nat) : Codec.Statement (.snps line) := fun _ => rfl
theorem Codec.snpi (line : Nat) : Codec.Statement (.snpi line) := fun _ => rfl
theorem Codec.datas (line : Nat) (data : Line) : Codec.Statement (.datas line data) := fun _ => rfl
theorem Codec.datae (line : Nat) (data : Line) : Codec.Statement (.datae line data) := fun _ => rfl
theorem Codec.datam (line : Nat) (data : Line) : Codec.Statement (.datam line data) := fun _ => rfl
theorem Codec.gntm (line : Nat) : Codec.Statement (.gntm line) := fun _ => rfl
theorem Codec.wback (line : Nat) : Codec.Statement (.wback line) := fun _ => rfl
theorem Codec.datau (line : Nat) (data : Line) : Codec.Statement (.datau line data) := fun _ => rfl
theorem Codec.nocache (line : Nat) : Codec.Statement (.nocache line) := fun _ => rfl
theorem Codec.err (line : Nat) : Codec.Statement (.err line) := fun _ => rfl
theorem Codec.sliceGate (slice : Nat) : Codec.Statement (.sliceGate slice) := fun _ => rfl
theorem Codec.sliceWake (slice : Nat) : Codec.Statement (.sliceWake slice) := fun _ => rfl
theorem Codec.dramCorrectable (channel position : Nat) : Codec.Statement (.dramCorrectable channel position) := fun _ => rfl
theorem Codec.dramUncorrectable (line : Nat) (sectors : BitVec 4) : Codec.Statement (.dramUncorrectable line sectors) := fun _ => rfl
theorem Codec.patrolScrub (line : Nat) (bad : BitVec 4) : Codec.Statement (.patrolScrub line bad) := fun _ => rfl
theorem Codec.glazeLost (line : Nat) : Codec.Statement (.glazeLost line) := fun _ => rfl
theorem Codec.sliceCorrectable (slice line : Nat) : Codec.Statement (.sliceCorrectable slice line) := fun _ => rfl
theorem Codec.sliceDataUncorrectable (slice line : Nat) (sectors : BitVec 4) : Codec.Statement (.sliceDataUncorrectable slice line sectors) := fun _ => rfl
theorem Codec.sliceTagUncorrectable (slice : Nat) : Codec.Statement (.sliceTagUncorrectable slice) := fun _ => rfl
theorem Codec.snoopTimeout (agent line : Nat) : Codec.Statement (.snoopTimeout agent line) := fun _ => rfl
theorem Codec.queueEnable (part queue : Nat) : Codec.Statement (.queueEnable part queue) := fun _ => rfl
theorem Codec.queueDisable (part queue : Nat) : Codec.Statement (.queueDisable part queue) := fun _ => rfl
theorem Codec.queueClearFault (part queue : Nat) : Codec.Statement (.queueClearFault part queue) := fun _ => rfl
theorem Codec.drvrespReplay (part ctxid core warp : Nat) : Codec.Statement (.drvrespReplay part ctxid core warp) := fun _ => rfl
theorem Codec.drvrespResume (part ctxid core warp : Nat) : Codec.Statement (.drvrespResume part ctxid core warp) := fun _ => rfl
theorem Codec.drvrespFail (part ctxid core warp : Nat) : Codec.Statement (.drvrespFail part ctxid core warp) := fun _ => rfl
theorem Codec.tlbinv (part ctxid : Nat) : Codec.Statement (.tlbinv part ctxid) := fun _ => rfl
theorem Codec.tlbinvDone (part : Nat) : Codec.Statement (.tlbinvDone part) := fun _ => rfl
theorem Codec.slotAccept (part queue : Nat) : Codec.Statement (.slotAccept part queue) := fun _ => rfl
theorem Codec.launch (part queue index : Nat) : Codec.Statement (.launch part queue index) := fun _ => rfl
theorem Codec.link (part queue index : Nat) : Codec.Statement (.link part queue index) := fun _ => rfl
theorem Codec.proofed (part queue index : Nat) : Codec.Statement (.proofed part queue index) := fun _ => rfl
theorem Codec.copy (part queue index : Nat) : Codec.Statement (.copy part queue index) := fun _ => rfl
theorem Codec.signal (part queue index : Nat) : Codec.Statement (.signal part queue index) := fun _ => rfl
theorem Codec.wait (part queue index : Nat) : Codec.Statement (.wait part queue index) := fun _ => rfl
theorem Codec.marker (part queue index : Nat) : Codec.Statement (.marker part queue index) := fun _ => rfl
theorem Codec.nopCmd (part queue index : Nat) : Codec.Statement (.nopCmd part queue index) := fun _ => rfl
theorem Codec.waitMet (part queue index : Nat) : Codec.Statement (.waitMet part queue index) := fun _ => rfl
theorem Codec.waitTimeout (part queue index : Nat) : Codec.Statement (.waitTimeout part queue index) := fun _ => rfl
theorem Codec.priorityAge (part queue : Nat) : Codec.Statement (.priorityAge part queue) := fun _ => rfl
theorem Codec.schedulerTakeover : Codec.Statement .schedulerTakeover := fun _ => rfl
theorem Codec.blockSend (launch site leaf : Nat) : Codec.Statement (.blockSend launch site leaf) := fun _ => rfl
theorem Codec.steal (launch site : Nat) : Codec.Statement (.steal launch site) := fun _ => rfl
theorem Codec.blockPlace (leaf : Nat) : Codec.Statement (.blockPlace leaf) := fun _ => rfl
theorem Codec.leafTakeover (leaf : Nat) : Codec.Statement (.leafTakeover leaf) := fun _ => rfl
theorem Codec.shapeResolve (launch : Nat) : Codec.Statement (.shapeResolve launch) := fun _ => rfl
theorem Codec.shapeTimeout (launch : Nat) : Codec.Statement (.shapeTimeout launch) := fun _ => rfl
theorem Codec.chipletFence (chiplet : Nat) : Codec.Statement (.chipletFence chiplet) := fun _ => rfl
theorem Codec.chipletReset (chiplet : Nat) : Codec.Statement (.chipletReset chiplet) := fun _ => rfl
theorem Codec.saveDeadline (core : Nat) : Codec.Statement (.saveDeadline core) := fun _ => rfl
theorem Codec.chipletDrop (chiplet : Nat) : Codec.Statement (.chipletDrop chiplet) := fun _ => rfl
theorem Codec.clockChange (mhz : Nat) : Codec.Statement (.clockChange mhz) := fun _ => rfl
theorem Codec.partCreate (by_ : Issuer) (n k : Nat) : Codec.Statement (.partCreate by_ n k) := fun _ => rfl
theorem Codec.partDestroy (by_ : Issuer) (part : Nat) : Codec.Statement (.partDestroy by_ part) := fun _ => rfl
theorem Codec.agentAssign (by_ : Issuer) (agent part : Nat) : Codec.Statement (.agentAssign by_ agent part) := fun _ => rfl
theorem Codec.winSet (by_ : Issuer) (window : Nat) (regs : WinRegs) : Codec.Statement (.winSet by_ window regs) := fun _ => rfl
theorem Codec.winSeal (by_ : Issuer) (window state : Nat) : Codec.Statement (.winSeal by_ window state) := fun _ => rfl
theorem Codec.keyBind (by_ : Issuer) (part slot : Nat) (wrapped : BitVec 576) (digest : BitVec 256) : Codec.Statement (.keyBind by_ part slot wrapped digest) := fun _ => rfl
theorem Codec.keyClear (by_ : Issuer) (slot : Nat) : Codec.Statement (.keyClear by_ slot) := fun _ => rfl
theorem Codec.getVersion (r : SpdmReq) : Codec.Statement (.getVersion r) := fun _ => rfl
theorem Codec.getCapabilities (r : SpdmReq) : Codec.Statement (.getCapabilities r) := fun _ => rfl
theorem Codec.negotiateAlgorithms (r : SpdmReq) : Codec.Statement (.negotiateAlgorithms r) := fun _ => rfl
theorem Codec.getDigests (r : SpdmReq) : Codec.Statement (.getDigests r) := fun _ => rfl
theorem Codec.getCertificate (r : SpdmReq) : Codec.Statement (.getCertificate r) := fun _ => rfl
theorem Codec.challenge (r : SpdmReq) : Codec.Statement (.challenge r) := fun _ => rfl
theorem Codec.getMeasurements (r : SpdmReq) : Codec.Statement (.getMeasurements r) := fun _ => rfl
theorem Codec.keyExchange (r : SpdmReq) : Codec.Statement (.keyExchange r) := fun _ => rfl
theorem Codec.finish (r : SpdmReq) : Codec.Statement (.finish r) := fun _ => rfl
theorem Codec.heartbeat (r : SpdmReq) : Codec.Statement (.heartbeat r) := fun _ => rfl
theorem Codec.keyUpdate (r : SpdmReq) : Codec.Statement (.keyUpdate r) := fun _ => rfl
theorem Codec.endSession (r : SpdmReq) : Codec.Statement (.endSession r) := fun _ => rfl
theorem Codec.vendorDefinedRequest (r : SpdmReq) : Codec.Statement (.vendorDefinedRequest r) := fun _ => rfl
theorem Codec.ideKm (session stream : Nat) : Codec.Statement (.ideKm session stream) := fun _ => rfl
theorem Codec.ideIntegrityFail (stream : Nat) : Codec.Statement (.ideIntegrityFail stream) := fun _ => rfl
theorem Codec.hostAccess (part : Nat) (write : Bool) (addr : Nat) (bytes : List Byte) : Codec.Statement (.hostAccess part write addr bytes) := fun _ => rfl
theorem Codec.flitCrcFail (port : Nat) : Codec.Statement (.flitCrcFail port) := fun _ => rfl
theorem Codec.portFail (port : Nat) : Codec.Statement (.portFail port) := fun _ => rfl
theorem Codec.linkTrain (port agent : Nat) : Codec.Statement (.linkTrain port agent) := fun _ => rfl
theorem Codec.coldPowerOn (x : StartIn) : Codec.Statement (.coldPowerOn x) := fun _ => rfl
theorem Codec.warmReset (x : StartIn) : Codec.Statement (.warmReset x) := fun _ => rfl
theorem Codec.watchdog (x : StartIn) : Codec.Statement (.watchdog x) := fun _ => rfl
theorem Codec.startTimeout (x : StartIn) : Codec.Statement (.startTimeout x) := fun _ => rfl
theorem Codec.failsWindowExpire : Codec.Statement .failsWindowExpire := fun _ => rfl
theorem Codec.imageUpdate (ok : Bool) (x : StartIn) : Codec.Statement (.imageUpdate ok x) := fun _ => rfl
theorem Codec.schedulerDoubleFail (x : StartIn) : Codec.Statement (.schedulerDoubleFail x) := fun _ => rfl
theorem Codec.unsparedBaseDieError (x : StartIn) : Codec.Statement (.unsparedBaseDieError x) := fun _ => rfl
theorem Codec.chipletReinitialised (chiplet : Nat) (passes : Bool) : Codec.Statement (.chipletReinitialised chiplet passes) := fun _ => rfl

end Sys2Proof.Laws
end

