-- ==== Sys2Proof/Laws/State.lean ====
section
/-! SUPPORT. Laws/State.lean: what each update of the state leaves as it was, one lemma per field, and what it leaves in
the field it changes. -/

namespace Sys2Proof.Machine

@[simp] theorem setCore_agenda (s c x) : (setCore s c x).agenda = s.agenda := rfl
@[simp] theorem setCore_cur (s c x) : (setCore s c x).cur = s.cur := rfl
@[simp] theorem setCore_freeCount (s c x) : (setCore s c x).freeCount = s.freeCount := rfl
@[simp] theorem setCore_clock (s c x) : (setCore s c x).clock = s.clock := rfl
@[simp] theorem setCore_mhz (s c x) : (setCore s c x).mhz = s.mhz := rfl
@[simp] theorem setCore_arith (s c x) : (setCore s c x).arith = s.arith := rfl
@[simp] theorem setCore_clusterTlb (s c x) : (setCore s c x).clusterTlb = s.clusterTlb := rfl
@[simp] theorem setCore_icache (s c x) : (setCore s c x).icache = s.icache := rfl
@[simp] theorem setCore_ports (s c x) : (setCore s c x).ports = s.ports := rfl
@[simp] theorem setCore_slices (s c x) : (setCore s c x).slices = s.slices := rfl
@[simp] theorem setCore_mem (s c x) : (setCore s c x).mem = s.mem := rfl
@[simp] theorem setCore_memPoison (s c x) : (setCore s c x).memPoison = s.memPoison := rfl
@[simp] theorem setCore_glaze (s c x) : (setCore s c x).glaze = s.glaze := rfl
@[simp] theorem setCore_binds (s c x) : (setCore s c x).binds = s.binds := rfl
@[simp] theorem setCore_late (s c x) : (setCore s c x).late = s.late := rfl
@[simp] theorem setCore_banks (s c x) : (setCore s c x).banks = s.banks := rfl
@[simp] theorem setCore_bankPoison (s c x) : (setCore s c x).bankPoison = s.bankPoison := rfl
@[simp] theorem setCore_bankUsed (s c x) : (setCore s c x).bankUsed = s.bankUsed := rfl
@[simp] theorem setCore_pairs (s c x) : (setCore s c x).pairs = s.pairs := rfl
@[simp] theorem setCore_copies (s c x) : (setCore s c x).copies = s.copies := rfl
@[simp] theorem setCore_nextCopy (s c x) : (setCore s c x).nextCopy = s.nextCopy := rfl
@[simp] theorem setCore_nextReq (s c x) : (setCore s c x).nextReq = s.nextReq := rfl
@[simp] theorem setCore_bunits (s c x) : (setCore s c x).bunits = s.bunits := rfl
@[simp] theorem setCore_releases (s c x) : (setCore s c x).releases = s.releases := rfl
@[simp] theorem setCore_leaves (s c x) : (setCore s c x).leaves = s.leaves := rfl
@[simp] theorem setCore_queues (s c x) : (setCore s c x).queues = s.queues := rfl
@[simp] theorem setCore_cmds (s c x) : (setCore s c x).cmds = s.cmds := rfl
@[simp] theorem setCore_launches (s c x) : (setCore s c x).launches = s.launches := rfl
@[simp] theorem setCore_nextLaunch (s c x) : (setCore s c x).nextLaunch = s.nextLaunch := rfl
@[simp] theorem setCore_contexts (s c x) : (setCore s c x).contexts = s.contexts := rfl
@[simp] theorem setCore_saves (s c x) : (setCore s c x).saves = s.saves := rfl
@[simp] theorem setCore_parts (s c x) : (setCore s c x).parts = s.parts := rfl
@[simp] theorem setCore_chiplets (s c x) : (setCore s c x).chiplets = s.chiplets := rfl
@[simp] theorem setCore_windows (s c x) : (setCore s c x).windows = s.windows := rfl
@[simp] theorem setCore_keys (s c x) : (setCore s c x).keys = s.keys := rfl
@[simp] theorem setCore_carve (s c x) : (setCore s c x).carve = s.carve := rfl
@[simp] theorem setCore_outbox (s c x) : (setCore s c x).outbox = s.outbox := rfl
@[simp] theorem setCore_dev (s c x) : (setCore s c x).dev = s.dev := rfl

@[simp] theorem modCore_agenda (s c f) : (modCore s c f).agenda = s.agenda := rfl
@[simp] theorem modCore_cur (s c f) : (modCore s c f).cur = s.cur := rfl
@[simp] theorem modCore_freeCount (s c f) : (modCore s c f).freeCount = s.freeCount := rfl
@[simp] theorem modCore_clock (s c f) : (modCore s c f).clock = s.clock := rfl
@[simp] theorem modCore_mhz (s c f) : (modCore s c f).mhz = s.mhz := rfl
@[simp] theorem modCore_arith (s c f) : (modCore s c f).arith = s.arith := rfl
@[simp] theorem modCore_clusterTlb (s c f) : (modCore s c f).clusterTlb = s.clusterTlb := rfl
@[simp] theorem modCore_icache (s c f) : (modCore s c f).icache = s.icache := rfl
@[simp] theorem modCore_ports (s c f) : (modCore s c f).ports = s.ports := rfl
@[simp] theorem modCore_slices (s c f) : (modCore s c f).slices = s.slices := rfl
@[simp] theorem modCore_mem (s c f) : (modCore s c f).mem = s.mem := rfl
@[simp] theorem modCore_memPoison (s c f) : (modCore s c f).memPoison = s.memPoison := rfl
@[simp] theorem modCore_glaze (s c f) : (modCore s c f).glaze = s.glaze := rfl
@[simp] theorem modCore_binds (s c f) : (modCore s c f).binds = s.binds := rfl
@[simp] theorem modCore_late (s c f) : (modCore s c f).late = s.late := rfl
@[simp] theorem modCore_banks (s c f) : (modCore s c f).banks = s.banks := rfl
@[simp] theorem modCore_bankPoison (s c f) : (modCore s c f).bankPoison = s.bankPoison := rfl
@[simp] theorem modCore_bankUsed (s c f) : (modCore s c f).bankUsed = s.bankUsed := rfl
@[simp] theorem modCore_pairs (s c f) : (modCore s c f).pairs = s.pairs := rfl
@[simp] theorem modCore_copies (s c f) : (modCore s c f).copies = s.copies := rfl
@[simp] theorem modCore_nextCopy (s c f) : (modCore s c f).nextCopy = s.nextCopy := rfl
@[simp] theorem modCore_nextReq (s c f) : (modCore s c f).nextReq = s.nextReq := rfl
@[simp] theorem modCore_bunits (s c f) : (modCore s c f).bunits = s.bunits := rfl
@[simp] theorem modCore_releases (s c f) : (modCore s c f).releases = s.releases := rfl
@[simp] theorem modCore_leaves (s c f) : (modCore s c f).leaves = s.leaves := rfl
@[simp] theorem modCore_queues (s c f) : (modCore s c f).queues = s.queues := rfl
@[simp] theorem modCore_cmds (s c f) : (modCore s c f).cmds = s.cmds := rfl
@[simp] theorem modCore_launches (s c f) : (modCore s c f).launches = s.launches := rfl
@[simp] theorem modCore_nextLaunch (s c f) : (modCore s c f).nextLaunch = s.nextLaunch := rfl
@[simp] theorem modCore_contexts (s c f) : (modCore s c f).contexts = s.contexts := rfl
@[simp] theorem modCore_saves (s c f) : (modCore s c f).saves = s.saves := rfl
@[simp] theorem modCore_parts (s c f) : (modCore s c f).parts = s.parts := rfl
@[simp] theorem modCore_chiplets (s c f) : (modCore s c f).chiplets = s.chiplets := rfl
@[simp] theorem modCore_windows (s c f) : (modCore s c f).windows = s.windows := rfl
@[simp] theorem modCore_keys (s c f) : (modCore s c f).keys = s.keys := rfl
@[simp] theorem modCore_carve (s c f) : (modCore s c f).carve = s.carve := rfl
@[simp] theorem modCore_outbox (s c f) : (modCore s c f).outbox = s.outbox := rfl
@[simp] theorem modCore_dev (s c f) : (modCore s c f).dev = s.dev := rfl

@[simp] theorem modWarp_agenda (s c w f) : (modWarp s c w f).agenda = s.agenda := rfl
@[simp] theorem modWarp_cur (s c w f) : (modWarp s c w f).cur = s.cur := rfl
@[simp] theorem modWarp_freeCount (s c w f) : (modWarp s c w f).freeCount = s.freeCount := rfl
@[simp] theorem modWarp_clock (s c w f) : (modWarp s c w f).clock = s.clock := rfl
@[simp] theorem modWarp_mhz (s c w f) : (modWarp s c w f).mhz = s.mhz := rfl
@[simp] theorem modWarp_arith (s c w f) : (modWarp s c w f).arith = s.arith := rfl
@[simp] theorem modWarp_clusterTlb (s c w f) : (modWarp s c w f).clusterTlb = s.clusterTlb := rfl
@[simp] theorem modWarp_icache (s c w f) : (modWarp s c w f).icache = s.icache := rfl
@[simp] theorem modWarp_ports (s c w f) : (modWarp s c w f).ports = s.ports := rfl
@[simp] theorem modWarp_slices (s c w f) : (modWarp s c w f).slices = s.slices := rfl
@[simp] theorem modWarp_mem (s c w f) : (modWarp s c w f).mem = s.mem := rfl
@[simp] theorem modWarp_memPoison (s c w f) : (modWarp s c w f).memPoison = s.memPoison := rfl
@[simp] theorem modWarp_glaze (s c w f) : (modWarp s c w f).glaze = s.glaze := rfl
@[simp] theorem modWarp_binds (s c w f) : (modWarp s c w f).binds = s.binds := rfl
@[simp] theorem modWarp_late (s c w f) : (modWarp s c w f).late = s.late := rfl
@[simp] theorem modWarp_banks (s c w f) : (modWarp s c w f).banks = s.banks := rfl
@[simp] theorem modWarp_bankPoison (s c w f) : (modWarp s c w f).bankPoison = s.bankPoison := rfl
@[simp] theorem modWarp_bankUsed (s c w f) : (modWarp s c w f).bankUsed = s.bankUsed := rfl
@[simp] theorem modWarp_pairs (s c w f) : (modWarp s c w f).pairs = s.pairs := rfl
@[simp] theorem modWarp_copies (s c w f) : (modWarp s c w f).copies = s.copies := rfl
@[simp] theorem modWarp_nextCopy (s c w f) : (modWarp s c w f).nextCopy = s.nextCopy := rfl
@[simp] theorem modWarp_nextReq (s c w f) : (modWarp s c w f).nextReq = s.nextReq := rfl
@[simp] theorem modWarp_bunits (s c w f) : (modWarp s c w f).bunits = s.bunits := rfl
@[simp] theorem modWarp_releases (s c w f) : (modWarp s c w f).releases = s.releases := rfl
@[simp] theorem modWarp_leaves (s c w f) : (modWarp s c w f).leaves = s.leaves := rfl
@[simp] theorem modWarp_queues (s c w f) : (modWarp s c w f).queues = s.queues := rfl
@[simp] theorem modWarp_cmds (s c w f) : (modWarp s c w f).cmds = s.cmds := rfl
@[simp] theorem modWarp_launches (s c w f) : (modWarp s c w f).launches = s.launches := rfl
@[simp] theorem modWarp_nextLaunch (s c w f) : (modWarp s c w f).nextLaunch = s.nextLaunch := rfl
@[simp] theorem modWarp_contexts (s c w f) : (modWarp s c w f).contexts = s.contexts := rfl
@[simp] theorem modWarp_saves (s c w f) : (modWarp s c w f).saves = s.saves := rfl
@[simp] theorem modWarp_parts (s c w f) : (modWarp s c w f).parts = s.parts := rfl
@[simp] theorem modWarp_chiplets (s c w f) : (modWarp s c w f).chiplets = s.chiplets := rfl
@[simp] theorem modWarp_windows (s c w f) : (modWarp s c w f).windows = s.windows := rfl
@[simp] theorem modWarp_keys (s c w f) : (modWarp s c w f).keys = s.keys := rfl
@[simp] theorem modWarp_carve (s c w f) : (modWarp s c w f).carve = s.carve := rfl
@[simp] theorem modWarp_outbox (s c w f) : (modWarp s c w f).outbox = s.outbox := rfl
@[simp] theorem modWarp_dev (s c w f) : (modWarp s c w f).dev = s.dev := rfl

@[simp] theorem setWarp_agenda (s c w x) : (setWarp s c w x).agenda = s.agenda := rfl
@[simp] theorem setWarp_cur (s c w x) : (setWarp s c w x).cur = s.cur := rfl
@[simp] theorem setWarp_freeCount (s c w x) : (setWarp s c w x).freeCount = s.freeCount := rfl
@[simp] theorem setWarp_clock (s c w x) : (setWarp s c w x).clock = s.clock := rfl
@[simp] theorem setWarp_mhz (s c w x) : (setWarp s c w x).mhz = s.mhz := rfl
@[simp] theorem setWarp_arith (s c w x) : (setWarp s c w x).arith = s.arith := rfl
@[simp] theorem setWarp_clusterTlb (s c w x) : (setWarp s c w x).clusterTlb = s.clusterTlb := rfl
@[simp] theorem setWarp_icache (s c w x) : (setWarp s c w x).icache = s.icache := rfl
@[simp] theorem setWarp_ports (s c w x) : (setWarp s c w x).ports = s.ports := rfl
@[simp] theorem setWarp_slices (s c w x) : (setWarp s c w x).slices = s.slices := rfl
@[simp] theorem setWarp_mem (s c w x) : (setWarp s c w x).mem = s.mem := rfl
@[simp] theorem setWarp_memPoison (s c w x) : (setWarp s c w x).memPoison = s.memPoison := rfl
@[simp] theorem setWarp_glaze (s c w x) : (setWarp s c w x).glaze = s.glaze := rfl
@[simp] theorem setWarp_binds (s c w x) : (setWarp s c w x).binds = s.binds := rfl
@[simp] theorem setWarp_late (s c w x) : (setWarp s c w x).late = s.late := rfl
@[simp] theorem setWarp_banks (s c w x) : (setWarp s c w x).banks = s.banks := rfl
@[simp] theorem setWarp_bankPoison (s c w x) : (setWarp s c w x).bankPoison = s.bankPoison := rfl
@[simp] theorem setWarp_bankUsed (s c w x) : (setWarp s c w x).bankUsed = s.bankUsed := rfl
@[simp] theorem setWarp_pairs (s c w x) : (setWarp s c w x).pairs = s.pairs := rfl
@[simp] theorem setWarp_copies (s c w x) : (setWarp s c w x).copies = s.copies := rfl
@[simp] theorem setWarp_nextCopy (s c w x) : (setWarp s c w x).nextCopy = s.nextCopy := rfl
@[simp] theorem setWarp_nextReq (s c w x) : (setWarp s c w x).nextReq = s.nextReq := rfl
@[simp] theorem setWarp_bunits (s c w x) : (setWarp s c w x).bunits = s.bunits := rfl
@[simp] theorem setWarp_releases (s c w x) : (setWarp s c w x).releases = s.releases := rfl
@[simp] theorem setWarp_leaves (s c w x) : (setWarp s c w x).leaves = s.leaves := rfl
@[simp] theorem setWarp_queues (s c w x) : (setWarp s c w x).queues = s.queues := rfl
@[simp] theorem setWarp_cmds (s c w x) : (setWarp s c w x).cmds = s.cmds := rfl
@[simp] theorem setWarp_launches (s c w x) : (setWarp s c w x).launches = s.launches := rfl
@[simp] theorem setWarp_nextLaunch (s c w x) : (setWarp s c w x).nextLaunch = s.nextLaunch := rfl
@[simp] theorem setWarp_contexts (s c w x) : (setWarp s c w x).contexts = s.contexts := rfl
@[simp] theorem setWarp_saves (s c w x) : (setWarp s c w x).saves = s.saves := rfl
@[simp] theorem setWarp_parts (s c w x) : (setWarp s c w x).parts = s.parts := rfl
@[simp] theorem setWarp_chiplets (s c w x) : (setWarp s c w x).chiplets = s.chiplets := rfl
@[simp] theorem setWarp_windows (s c w x) : (setWarp s c w x).windows = s.windows := rfl
@[simp] theorem setWarp_keys (s c w x) : (setWarp s c w x).keys = s.keys := rfl
@[simp] theorem setWarp_carve (s c w x) : (setWarp s c w x).carve = s.carve := rfl
@[simp] theorem setWarp_outbox (s c w x) : (setWarp s c w x).outbox = s.outbox := rfl
@[simp] theorem setWarp_dev (s c w x) : (setWarp s c w x).dev = s.dev := rfl

@[simp] theorem modBlock_agenda (s c b f) : (modBlock s c b f).agenda = s.agenda := rfl
@[simp] theorem modBlock_cur (s c b f) : (modBlock s c b f).cur = s.cur := rfl
@[simp] theorem modBlock_freeCount (s c b f) : (modBlock s c b f).freeCount = s.freeCount := rfl
@[simp] theorem modBlock_clock (s c b f) : (modBlock s c b f).clock = s.clock := rfl
@[simp] theorem modBlock_mhz (s c b f) : (modBlock s c b f).mhz = s.mhz := rfl
@[simp] theorem modBlock_arith (s c b f) : (modBlock s c b f).arith = s.arith := rfl
@[simp] theorem modBlock_clusterTlb (s c b f) : (modBlock s c b f).clusterTlb = s.clusterTlb := rfl
@[simp] theorem modBlock_icache (s c b f) : (modBlock s c b f).icache = s.icache := rfl
@[simp] theorem modBlock_ports (s c b f) : (modBlock s c b f).ports = s.ports := rfl
@[simp] theorem modBlock_slices (s c b f) : (modBlock s c b f).slices = s.slices := rfl
@[simp] theorem modBlock_mem (s c b f) : (modBlock s c b f).mem = s.mem := rfl
@[simp] theorem modBlock_memPoison (s c b f) : (modBlock s c b f).memPoison = s.memPoison := rfl
@[simp] theorem modBlock_glaze (s c b f) : (modBlock s c b f).glaze = s.glaze := rfl
@[simp] theorem modBlock_binds (s c b f) : (modBlock s c b f).binds = s.binds := rfl
@[simp] theorem modBlock_late (s c b f) : (modBlock s c b f).late = s.late := rfl
@[simp] theorem modBlock_banks (s c b f) : (modBlock s c b f).banks = s.banks := rfl
@[simp] theorem modBlock_bankPoison (s c b f) : (modBlock s c b f).bankPoison = s.bankPoison := rfl
@[simp] theorem modBlock_bankUsed (s c b f) : (modBlock s c b f).bankUsed = s.bankUsed := rfl
@[simp] theorem modBlock_pairs (s c b f) : (modBlock s c b f).pairs = s.pairs := rfl
@[simp] theorem modBlock_copies (s c b f) : (modBlock s c b f).copies = s.copies := rfl
@[simp] theorem modBlock_nextCopy (s c b f) : (modBlock s c b f).nextCopy = s.nextCopy := rfl
@[simp] theorem modBlock_nextReq (s c b f) : (modBlock s c b f).nextReq = s.nextReq := rfl
@[simp] theorem modBlock_bunits (s c b f) : (modBlock s c b f).bunits = s.bunits := rfl
@[simp] theorem modBlock_releases (s c b f) : (modBlock s c b f).releases = s.releases := rfl
@[simp] theorem modBlock_leaves (s c b f) : (modBlock s c b f).leaves = s.leaves := rfl
@[simp] theorem modBlock_queues (s c b f) : (modBlock s c b f).queues = s.queues := rfl
@[simp] theorem modBlock_cmds (s c b f) : (modBlock s c b f).cmds = s.cmds := rfl
@[simp] theorem modBlock_launches (s c b f) : (modBlock s c b f).launches = s.launches := rfl
@[simp] theorem modBlock_nextLaunch (s c b f) : (modBlock s c b f).nextLaunch = s.nextLaunch := rfl
@[simp] theorem modBlock_contexts (s c b f) : (modBlock s c b f).contexts = s.contexts := rfl
@[simp] theorem modBlock_saves (s c b f) : (modBlock s c b f).saves = s.saves := rfl
@[simp] theorem modBlock_parts (s c b f) : (modBlock s c b f).parts = s.parts := rfl
@[simp] theorem modBlock_chiplets (s c b f) : (modBlock s c b f).chiplets = s.chiplets := rfl
@[simp] theorem modBlock_windows (s c b f) : (modBlock s c b f).windows = s.windows := rfl
@[simp] theorem modBlock_keys (s c b f) : (modBlock s c b f).keys = s.keys := rfl
@[simp] theorem modBlock_carve (s c b f) : (modBlock s c b f).carve = s.carve := rfl
@[simp] theorem modBlock_outbox (s c b f) : (modBlock s c b f).outbox = s.outbox := rfl
@[simp] theorem modBlock_dev (s c b f) : (modBlock s c b f).dev = s.dev := rfl

@[simp] theorem retire_agenda (s x y) : (retire s x y).agenda = s.agenda := rfl
@[simp] theorem retire_cur (s x y) : (retire s x y).cur = s.cur := rfl
@[simp] theorem retire_freeCount (s x y) : (retire s x y).freeCount = s.freeCount := rfl
@[simp] theorem retire_clock (s x y) : (retire s x y).clock = s.clock := rfl
@[simp] theorem retire_mhz (s x y) : (retire s x y).mhz = s.mhz := rfl
@[simp] theorem retire_arith (s x y) : (retire s x y).arith = s.arith := rfl
@[simp] theorem retire_clusterTlb (s x y) : (retire s x y).clusterTlb = s.clusterTlb := rfl
@[simp] theorem retire_icache (s x y) : (retire s x y).icache = s.icache := rfl
@[simp] theorem retire_ports (s x y) : (retire s x y).ports = s.ports := rfl
@[simp] theorem retire_slices (s x y) : (retire s x y).slices = s.slices := rfl
@[simp] theorem retire_mem (s x y) : (retire s x y).mem = s.mem := rfl
@[simp] theorem retire_memPoison (s x y) : (retire s x y).memPoison = s.memPoison := rfl
@[simp] theorem retire_glaze (s x y) : (retire s x y).glaze = s.glaze := rfl
@[simp] theorem retire_binds (s x y) : (retire s x y).binds = s.binds := rfl
@[simp] theorem retire_late (s x y) : (retire s x y).late = s.late := rfl
@[simp] theorem retire_banks (s x y) : (retire s x y).banks = s.banks := rfl
@[simp] theorem retire_bankPoison (s x y) : (retire s x y).bankPoison = s.bankPoison := rfl
@[simp] theorem retire_bankUsed (s x y) : (retire s x y).bankUsed = s.bankUsed := rfl
@[simp] theorem retire_pairs (s x y) : (retire s x y).pairs = s.pairs := rfl
@[simp] theorem retire_copies (s x y) : (retire s x y).copies = s.copies := rfl
@[simp] theorem retire_nextCopy (s x y) : (retire s x y).nextCopy = s.nextCopy := rfl
@[simp] theorem retire_nextReq (s x y) : (retire s x y).nextReq = s.nextReq := rfl
@[simp] theorem retire_bunits (s x y) : (retire s x y).bunits = s.bunits := rfl
@[simp] theorem retire_releases (s x y) : (retire s x y).releases = s.releases := rfl
@[simp] theorem retire_leaves (s x y) : (retire s x y).leaves = s.leaves := rfl
@[simp] theorem retire_queues (s x y) : (retire s x y).queues = s.queues := rfl
@[simp] theorem retire_cmds (s x y) : (retire s x y).cmds = s.cmds := rfl
@[simp] theorem retire_launches (s x y) : (retire s x y).launches = s.launches := rfl
@[simp] theorem retire_nextLaunch (s x y) : (retire s x y).nextLaunch = s.nextLaunch := rfl
@[simp] theorem retire_contexts (s x y) : (retire s x y).contexts = s.contexts := rfl
@[simp] theorem retire_saves (s x y) : (retire s x y).saves = s.saves := rfl
@[simp] theorem retire_parts (s x y) : (retire s x y).parts = s.parts := rfl
@[simp] theorem retire_chiplets (s x y) : (retire s x y).chiplets = s.chiplets := rfl
@[simp] theorem retire_windows (s x y) : (retire s x y).windows = s.windows := rfl
@[simp] theorem retire_keys (s x y) : (retire s x y).keys = s.keys := rfl
@[simp] theorem retire_carve (s x y) : (retire s x y).carve = s.carve := rfl
@[simp] theorem retire_outbox (s x y) : (retire s x y).outbox = s.outbox := rfl
@[simp] theorem retire_dev (s x y) : (retire s x y).dev = s.dev := rfl

@[simp] theorem modSlice_agenda (s h f) : (modSlice s h f).agenda = s.agenda := rfl
@[simp] theorem modSlice_cur (s h f) : (modSlice s h f).cur = s.cur := rfl
@[simp] theorem modSlice_freeCount (s h f) : (modSlice s h f).freeCount = s.freeCount := rfl
@[simp] theorem modSlice_clock (s h f) : (modSlice s h f).clock = s.clock := rfl
@[simp] theorem modSlice_mhz (s h f) : (modSlice s h f).mhz = s.mhz := rfl
@[simp] theorem modSlice_arith (s h f) : (modSlice s h f).arith = s.arith := rfl
@[simp] theorem modSlice_cores (s h f) : (modSlice s h f).cores = s.cores := rfl
@[simp] theorem modSlice_clusterTlb (s h f) : (modSlice s h f).clusterTlb = s.clusterTlb := rfl
@[simp] theorem modSlice_icache (s h f) : (modSlice s h f).icache = s.icache := rfl
@[simp] theorem modSlice_ports (s h f) : (modSlice s h f).ports = s.ports := rfl
@[simp] theorem modSlice_mem (s h f) : (modSlice s h f).mem = s.mem := rfl
@[simp] theorem modSlice_memPoison (s h f) : (modSlice s h f).memPoison = s.memPoison := rfl
@[simp] theorem modSlice_glaze (s h f) : (modSlice s h f).glaze = s.glaze := rfl
@[simp] theorem modSlice_binds (s h f) : (modSlice s h f).binds = s.binds := rfl
@[simp] theorem modSlice_late (s h f) : (modSlice s h f).late = s.late := rfl
@[simp] theorem modSlice_banks (s h f) : (modSlice s h f).banks = s.banks := rfl
@[simp] theorem modSlice_bankPoison (s h f) : (modSlice s h f).bankPoison = s.bankPoison := rfl
@[simp] theorem modSlice_bankUsed (s h f) : (modSlice s h f).bankUsed = s.bankUsed := rfl
@[simp] theorem modSlice_pairs (s h f) : (modSlice s h f).pairs = s.pairs := rfl
@[simp] theorem modSlice_copies (s h f) : (modSlice s h f).copies = s.copies := rfl
@[simp] theorem modSlice_nextCopy (s h f) : (modSlice s h f).nextCopy = s.nextCopy := rfl
@[simp] theorem modSlice_nextReq (s h f) : (modSlice s h f).nextReq = s.nextReq := rfl
@[simp] theorem modSlice_bunits (s h f) : (modSlice s h f).bunits = s.bunits := rfl
@[simp] theorem modSlice_releases (s h f) : (modSlice s h f).releases = s.releases := rfl
@[simp] theorem modSlice_leaves (s h f) : (modSlice s h f).leaves = s.leaves := rfl
@[simp] theorem modSlice_queues (s h f) : (modSlice s h f).queues = s.queues := rfl
@[simp] theorem modSlice_cmds (s h f) : (modSlice s h f).cmds = s.cmds := rfl
@[simp] theorem modSlice_launches (s h f) : (modSlice s h f).launches = s.launches := rfl
@[simp] theorem modSlice_nextLaunch (s h f) : (modSlice s h f).nextLaunch = s.nextLaunch := rfl
@[simp] theorem modSlice_contexts (s h f) : (modSlice s h f).contexts = s.contexts := rfl
@[simp] theorem modSlice_saves (s h f) : (modSlice s h f).saves = s.saves := rfl
@[simp] theorem modSlice_parts (s h f) : (modSlice s h f).parts = s.parts := rfl
@[simp] theorem modSlice_chiplets (s h f) : (modSlice s h f).chiplets = s.chiplets := rfl
@[simp] theorem modSlice_windows (s h f) : (modSlice s h f).windows = s.windows := rfl
@[simp] theorem modSlice_keys (s h f) : (modSlice s h f).keys = s.keys := rfl
@[simp] theorem modSlice_carve (s h f) : (modSlice s h f).carve = s.carve := rfl
@[simp] theorem modSlice_outbox (s h f) : (modSlice s h f).outbox = s.outbox := rfl
@[simp] theorem modSlice_dev (s h f) : (modSlice s h f).dev = s.dev := rfl

@[simp] theorem setWay_agenda (s h k w) : (setWay s h k w).agenda = s.agenda := rfl
@[simp] theorem setWay_cur (s h k w) : (setWay s h k w).cur = s.cur := rfl
@[simp] theorem setWay_freeCount (s h k w) : (setWay s h k w).freeCount = s.freeCount := rfl
@[simp] theorem setWay_clock (s h k w) : (setWay s h k w).clock = s.clock := rfl
@[simp] theorem setWay_mhz (s h k w) : (setWay s h k w).mhz = s.mhz := rfl
@[simp] theorem setWay_arith (s h k w) : (setWay s h k w).arith = s.arith := rfl
@[simp] theorem setWay_cores (s h k w) : (setWay s h k w).cores = s.cores := rfl
@[simp] theorem setWay_clusterTlb (s h k w) : (setWay s h k w).clusterTlb = s.clusterTlb := rfl
@[simp] theorem setWay_icache (s h k w) : (setWay s h k w).icache = s.icache := rfl
@[simp] theorem setWay_ports (s h k w) : (setWay s h k w).ports = s.ports := rfl
@[simp] theorem setWay_mem (s h k w) : (setWay s h k w).mem = s.mem := rfl
@[simp] theorem setWay_memPoison (s h k w) : (setWay s h k w).memPoison = s.memPoison := rfl
@[simp] theorem setWay_glaze (s h k w) : (setWay s h k w).glaze = s.glaze := rfl
@[simp] theorem setWay_binds (s h k w) : (setWay s h k w).binds = s.binds := rfl
@[simp] theorem setWay_late (s h k w) : (setWay s h k w).late = s.late := rfl
@[simp] theorem setWay_banks (s h k w) : (setWay s h k w).banks = s.banks := rfl
@[simp] theorem setWay_bankPoison (s h k w) : (setWay s h k w).bankPoison = s.bankPoison := rfl
@[simp] theorem setWay_bankUsed (s h k w) : (setWay s h k w).bankUsed = s.bankUsed := rfl
@[simp] theorem setWay_pairs (s h k w) : (setWay s h k w).pairs = s.pairs := rfl
@[simp] theorem setWay_copies (s h k w) : (setWay s h k w).copies = s.copies := rfl
@[simp] theorem setWay_nextCopy (s h k w) : (setWay s h k w).nextCopy = s.nextCopy := rfl
@[simp] theorem setWay_nextReq (s h k w) : (setWay s h k w).nextReq = s.nextReq := rfl
@[simp] theorem setWay_bunits (s h k w) : (setWay s h k w).bunits = s.bunits := rfl
@[simp] theorem setWay_releases (s h k w) : (setWay s h k w).releases = s.releases := rfl
@[simp] theorem setWay_leaves (s h k w) : (setWay s h k w).leaves = s.leaves := rfl
@[simp] theorem setWay_queues (s h k w) : (setWay s h k w).queues = s.queues := rfl
@[simp] theorem setWay_cmds (s h k w) : (setWay s h k w).cmds = s.cmds := rfl
@[simp] theorem setWay_launches (s h k w) : (setWay s h k w).launches = s.launches := rfl
@[simp] theorem setWay_nextLaunch (s h k w) : (setWay s h k w).nextLaunch = s.nextLaunch := rfl
@[simp] theorem setWay_contexts (s h k w) : (setWay s h k w).contexts = s.contexts := rfl
@[simp] theorem setWay_saves (s h k w) : (setWay s h k w).saves = s.saves := rfl
@[simp] theorem setWay_parts (s h k w) : (setWay s h k w).parts = s.parts := rfl
@[simp] theorem setWay_chiplets (s h k w) : (setWay s h k w).chiplets = s.chiplets := rfl
@[simp] theorem setWay_windows (s h k w) : (setWay s h k w).windows = s.windows := rfl
@[simp] theorem setWay_keys (s h k w) : (setWay s h k w).keys = s.keys := rfl
@[simp] theorem setWay_carve (s h k w) : (setWay s h k w).carve = s.carve := rfl
@[simp] theorem setWay_outbox (s h k w) : (setWay s h k w).outbox = s.outbox := rfl
@[simp] theorem setWay_dev (s h k w) : (setWay s h k w).dev = s.dev := rfl

@[simp] theorem modDev_agenda (s f) : (modDev s f).agenda = s.agenda := rfl
@[simp] theorem modDev_cur (s f) : (modDev s f).cur = s.cur := rfl
@[simp] theorem modDev_freeCount (s f) : (modDev s f).freeCount = s.freeCount := rfl
@[simp] theorem modDev_clock (s f) : (modDev s f).clock = s.clock := rfl
@[simp] theorem modDev_mhz (s f) : (modDev s f).mhz = s.mhz := rfl
@[simp] theorem modDev_arith (s f) : (modDev s f).arith = s.arith := rfl
@[simp] theorem modDev_cores (s f) : (modDev s f).cores = s.cores := rfl
@[simp] theorem modDev_clusterTlb (s f) : (modDev s f).clusterTlb = s.clusterTlb := rfl
@[simp] theorem modDev_icache (s f) : (modDev s f).icache = s.icache := rfl
@[simp] theorem modDev_ports (s f) : (modDev s f).ports = s.ports := rfl
@[simp] theorem modDev_slices (s f) : (modDev s f).slices = s.slices := rfl
@[simp] theorem modDev_mem (s f) : (modDev s f).mem = s.mem := rfl
@[simp] theorem modDev_memPoison (s f) : (modDev s f).memPoison = s.memPoison := rfl
@[simp] theorem modDev_glaze (s f) : (modDev s f).glaze = s.glaze := rfl
@[simp] theorem modDev_binds (s f) : (modDev s f).binds = s.binds := rfl
@[simp] theorem modDev_late (s f) : (modDev s f).late = s.late := rfl
@[simp] theorem modDev_banks (s f) : (modDev s f).banks = s.banks := rfl
@[simp] theorem modDev_bankPoison (s f) : (modDev s f).bankPoison = s.bankPoison := rfl
@[simp] theorem modDev_bankUsed (s f) : (modDev s f).bankUsed = s.bankUsed := rfl
@[simp] theorem modDev_pairs (s f) : (modDev s f).pairs = s.pairs := rfl
@[simp] theorem modDev_copies (s f) : (modDev s f).copies = s.copies := rfl
@[simp] theorem modDev_nextCopy (s f) : (modDev s f).nextCopy = s.nextCopy := rfl
@[simp] theorem modDev_nextReq (s f) : (modDev s f).nextReq = s.nextReq := rfl
@[simp] theorem modDev_bunits (s f) : (modDev s f).bunits = s.bunits := rfl
@[simp] theorem modDev_releases (s f) : (modDev s f).releases = s.releases := rfl
@[simp] theorem modDev_leaves (s f) : (modDev s f).leaves = s.leaves := rfl
@[simp] theorem modDev_queues (s f) : (modDev s f).queues = s.queues := rfl
@[simp] theorem modDev_cmds (s f) : (modDev s f).cmds = s.cmds := rfl
@[simp] theorem modDev_launches (s f) : (modDev s f).launches = s.launches := rfl
@[simp] theorem modDev_nextLaunch (s f) : (modDev s f).nextLaunch = s.nextLaunch := rfl
@[simp] theorem modDev_contexts (s f) : (modDev s f).contexts = s.contexts := rfl
@[simp] theorem modDev_saves (s f) : (modDev s f).saves = s.saves := rfl
@[simp] theorem modDev_parts (s f) : (modDev s f).parts = s.parts := rfl
@[simp] theorem modDev_chiplets (s f) : (modDev s f).chiplets = s.chiplets := rfl
@[simp] theorem modDev_windows (s f) : (modDev s f).windows = s.windows := rfl
@[simp] theorem modDev_keys (s f) : (modDev s f).keys = s.keys := rfl
@[simp] theorem modDev_carve (s f) : (modDev s f).carve = s.carve := rfl
@[simp] theorem modDev_outbox (s f) : (modDev s f).outbox = s.outbox := rfl

@[simp] theorem irq_agenda (s p v) : (irq s p v).agenda = s.agenda := rfl
@[simp] theorem irq_cur (s p v) : (irq s p v).cur = s.cur := rfl
@[simp] theorem irq_freeCount (s p v) : (irq s p v).freeCount = s.freeCount := rfl
@[simp] theorem irq_clock (s p v) : (irq s p v).clock = s.clock := rfl
@[simp] theorem irq_mhz (s p v) : (irq s p v).mhz = s.mhz := rfl
@[simp] theorem irq_arith (s p v) : (irq s p v).arith = s.arith := rfl
@[simp] theorem irq_cores (s p v) : (irq s p v).cores = s.cores := rfl
@[simp] theorem irq_clusterTlb (s p v) : (irq s p v).clusterTlb = s.clusterTlb := rfl
@[simp] theorem irq_icache (s p v) : (irq s p v).icache = s.icache := rfl
@[simp] theorem irq_ports (s p v) : (irq s p v).ports = s.ports := rfl
@[simp] theorem irq_slices (s p v) : (irq s p v).slices = s.slices := rfl
@[simp] theorem irq_mem (s p v) : (irq s p v).mem = s.mem := rfl
@[simp] theorem irq_memPoison (s p v) : (irq s p v).memPoison = s.memPoison := rfl
@[simp] theorem irq_glaze (s p v) : (irq s p v).glaze = s.glaze := rfl
@[simp] theorem irq_binds (s p v) : (irq s p v).binds = s.binds := rfl
@[simp] theorem irq_late (s p v) : (irq s p v).late = s.late := rfl
@[simp] theorem irq_banks (s p v) : (irq s p v).banks = s.banks := rfl
@[simp] theorem irq_bankPoison (s p v) : (irq s p v).bankPoison = s.bankPoison := rfl
@[simp] theorem irq_bankUsed (s p v) : (irq s p v).bankUsed = s.bankUsed := rfl
@[simp] theorem irq_pairs (s p v) : (irq s p v).pairs = s.pairs := rfl
@[simp] theorem irq_copies (s p v) : (irq s p v).copies = s.copies := rfl
@[simp] theorem irq_nextCopy (s p v) : (irq s p v).nextCopy = s.nextCopy := rfl
@[simp] theorem irq_nextReq (s p v) : (irq s p v).nextReq = s.nextReq := rfl
@[simp] theorem irq_bunits (s p v) : (irq s p v).bunits = s.bunits := rfl
@[simp] theorem irq_releases (s p v) : (irq s p v).releases = s.releases := rfl
@[simp] theorem irq_leaves (s p v) : (irq s p v).leaves = s.leaves := rfl
@[simp] theorem irq_queues (s p v) : (irq s p v).queues = s.queues := rfl
@[simp] theorem irq_cmds (s p v) : (irq s p v).cmds = s.cmds := rfl
@[simp] theorem irq_launches (s p v) : (irq s p v).launches = s.launches := rfl
@[simp] theorem irq_nextLaunch (s p v) : (irq s p v).nextLaunch = s.nextLaunch := rfl
@[simp] theorem irq_contexts (s p v) : (irq s p v).contexts = s.contexts := rfl
@[simp] theorem irq_saves (s p v) : (irq s p v).saves = s.saves := rfl
@[simp] theorem irq_parts (s p v) : (irq s p v).parts = s.parts := rfl
@[simp] theorem irq_chiplets (s p v) : (irq s p v).chiplets = s.chiplets := rfl
@[simp] theorem irq_windows (s p v) : (irq s p v).windows = s.windows := rfl
@[simp] theorem irq_keys (s p v) : (irq s p v).keys = s.keys := rfl
@[simp] theorem irq_carve (s p v) : (irq s p v).carve = s.carve := rfl
@[simp] theorem irq_outbox (s p v) : (irq s p v).outbox = s.outbox := rfl

@[simp] theorem logEvent_agenda (s c a) : (logEvent s c a).agenda = s.agenda := rfl
@[simp] theorem logEvent_cur (s c a) : (logEvent s c a).cur = s.cur := rfl
@[simp] theorem logEvent_freeCount (s c a) : (logEvent s c a).freeCount = s.freeCount := rfl
@[simp] theorem logEvent_clock (s c a) : (logEvent s c a).clock = s.clock := rfl
@[simp] theorem logEvent_mhz (s c a) : (logEvent s c a).mhz = s.mhz := rfl
@[simp] theorem logEvent_arith (s c a) : (logEvent s c a).arith = s.arith := rfl
@[simp] theorem logEvent_cores (s c a) : (logEvent s c a).cores = s.cores := rfl
@[simp] theorem logEvent_clusterTlb (s c a) : (logEvent s c a).clusterTlb = s.clusterTlb := rfl
@[simp] theorem logEvent_icache (s c a) : (logEvent s c a).icache = s.icache := rfl
@[simp] theorem logEvent_ports (s c a) : (logEvent s c a).ports = s.ports := rfl
@[simp] theorem logEvent_slices (s c a) : (logEvent s c a).slices = s.slices := rfl
@[simp] theorem logEvent_mem (s c a) : (logEvent s c a).mem = s.mem := rfl
@[simp] theorem logEvent_memPoison (s c a) : (logEvent s c a).memPoison = s.memPoison := rfl
@[simp] theorem logEvent_glaze (s c a) : (logEvent s c a).glaze = s.glaze := rfl
@[simp] theorem logEvent_binds (s c a) : (logEvent s c a).binds = s.binds := rfl
@[simp] theorem logEvent_late (s c a) : (logEvent s c a).late = s.late := rfl
@[simp] theorem logEvent_banks (s c a) : (logEvent s c a).banks = s.banks := rfl
@[simp] theorem logEvent_bankPoison (s c a) : (logEvent s c a).bankPoison = s.bankPoison := rfl
@[simp] theorem logEvent_bankUsed (s c a) : (logEvent s c a).bankUsed = s.bankUsed := rfl
@[simp] theorem logEvent_pairs (s c a) : (logEvent s c a).pairs = s.pairs := rfl
@[simp] theorem logEvent_copies (s c a) : (logEvent s c a).copies = s.copies := rfl
@[simp] theorem logEvent_nextCopy (s c a) : (logEvent s c a).nextCopy = s.nextCopy := rfl
@[simp] theorem logEvent_nextReq (s c a) : (logEvent s c a).nextReq = s.nextReq := rfl
@[simp] theorem logEvent_bunits (s c a) : (logEvent s c a).bunits = s.bunits := rfl
@[simp] theorem logEvent_releases (s c a) : (logEvent s c a).releases = s.releases := rfl
@[simp] theorem logEvent_leaves (s c a) : (logEvent s c a).leaves = s.leaves := rfl
@[simp] theorem logEvent_queues (s c a) : (logEvent s c a).queues = s.queues := rfl
@[simp] theorem logEvent_cmds (s c a) : (logEvent s c a).cmds = s.cmds := rfl
@[simp] theorem logEvent_launches (s c a) : (logEvent s c a).launches = s.launches := rfl
@[simp] theorem logEvent_nextLaunch (s c a) : (logEvent s c a).nextLaunch = s.nextLaunch := rfl
@[simp] theorem logEvent_contexts (s c a) : (logEvent s c a).contexts = s.contexts := rfl
@[simp] theorem logEvent_saves (s c a) : (logEvent s c a).saves = s.saves := rfl
@[simp] theorem logEvent_parts (s c a) : (logEvent s c a).parts = s.parts := rfl
@[simp] theorem logEvent_chiplets (s c a) : (logEvent s c a).chiplets = s.chiplets := rfl
@[simp] theorem logEvent_windows (s c a) : (logEvent s c a).windows = s.windows := rfl
@[simp] theorem logEvent_keys (s c a) : (logEvent s c a).keys = s.keys := rfl
@[simp] theorem logEvent_carve (s c a) : (logEvent s c a).carve = s.carve := rfl
@[simp] theorem logEvent_outbox (s c a) : (logEvent s c a).outbox = s.outbox := rfl

@[simp] theorem modPage_agenda (s p f) : (modPage s p f).agenda = s.agenda := rfl
@[simp] theorem modPage_cur (s p f) : (modPage s p f).cur = s.cur := rfl
@[simp] theorem modPage_freeCount (s p f) : (modPage s p f).freeCount = s.freeCount := rfl
@[simp] theorem modPage_clock (s p f) : (modPage s p f).clock = s.clock := rfl
@[simp] theorem modPage_mhz (s p f) : (modPage s p f).mhz = s.mhz := rfl
@[simp] theorem modPage_arith (s p f) : (modPage s p f).arith = s.arith := rfl
@[simp] theorem modPage_cores (s p f) : (modPage s p f).cores = s.cores := rfl
@[simp] theorem modPage_clusterTlb (s p f) : (modPage s p f).clusterTlb = s.clusterTlb := rfl
@[simp] theorem modPage_icache (s p f) : (modPage s p f).icache = s.icache := rfl
@[simp] theorem modPage_ports (s p f) : (modPage s p f).ports = s.ports := rfl
@[simp] theorem modPage_slices (s p f) : (modPage s p f).slices = s.slices := rfl
@[simp] theorem modPage_mem (s p f) : (modPage s p f).mem = s.mem := rfl
@[simp] theorem modPage_memPoison (s p f) : (modPage s p f).memPoison = s.memPoison := rfl
@[simp] theorem modPage_glaze (s p f) : (modPage s p f).glaze = s.glaze := rfl
@[simp] theorem modPage_binds (s p f) : (modPage s p f).binds = s.binds := rfl
@[simp] theorem modPage_late (s p f) : (modPage s p f).late = s.late := rfl
@[simp] theorem modPage_banks (s p f) : (modPage s p f).banks = s.banks := rfl
@[simp] theorem modPage_bankPoison (s p f) : (modPage s p f).bankPoison = s.bankPoison := rfl
@[simp] theorem modPage_bankUsed (s p f) : (modPage s p f).bankUsed = s.bankUsed := rfl
@[simp] theorem modPage_pairs (s p f) : (modPage s p f).pairs = s.pairs := rfl
@[simp] theorem modPage_copies (s p f) : (modPage s p f).copies = s.copies := rfl
@[simp] theorem modPage_nextCopy (s p f) : (modPage s p f).nextCopy = s.nextCopy := rfl
@[simp] theorem modPage_nextReq (s p f) : (modPage s p f).nextReq = s.nextReq := rfl
@[simp] theorem modPage_bunits (s p f) : (modPage s p f).bunits = s.bunits := rfl
@[simp] theorem modPage_releases (s p f) : (modPage s p f).releases = s.releases := rfl
@[simp] theorem modPage_leaves (s p f) : (modPage s p f).leaves = s.leaves := rfl
@[simp] theorem modPage_queues (s p f) : (modPage s p f).queues = s.queues := rfl
@[simp] theorem modPage_cmds (s p f) : (modPage s p f).cmds = s.cmds := rfl
@[simp] theorem modPage_launches (s p f) : (modPage s p f).launches = s.launches := rfl
@[simp] theorem modPage_nextLaunch (s p f) : (modPage s p f).nextLaunch = s.nextLaunch := rfl
@[simp] theorem modPage_contexts (s p f) : (modPage s p f).contexts = s.contexts := rfl
@[simp] theorem modPage_saves (s p f) : (modPage s p f).saves = s.saves := rfl
@[simp] theorem modPage_chiplets (s p f) : (modPage s p f).chiplets = s.chiplets := rfl
@[simp] theorem modPage_windows (s p f) : (modPage s p f).windows = s.windows := rfl
@[simp] theorem modPage_keys (s p f) : (modPage s p f).keys = s.keys := rfl
@[simp] theorem modPage_carve (s p f) : (modPage s p f).carve = s.carve := rfl
@[simp] theorem modPage_outbox (s p f) : (modPage s p f).outbox = s.outbox := rfl
@[simp] theorem modPage_dev (s p f) : (modPage s p f).dev = s.dev := rfl

@[simp] theorem modCmd_agenda (s p q i f) : (modCmd s p q i f).agenda = s.agenda := rfl
@[simp] theorem modCmd_cur (s p q i f) : (modCmd s p q i f).cur = s.cur := rfl
@[simp] theorem modCmd_freeCount (s p q i f) : (modCmd s p q i f).freeCount = s.freeCount := rfl
@[simp] theorem modCmd_clock (s p q i f) : (modCmd s p q i f).clock = s.clock := rfl
@[simp] theorem modCmd_mhz (s p q i f) : (modCmd s p q i f).mhz = s.mhz := rfl
@[simp] theorem modCmd_arith (s p q i f) : (modCmd s p q i f).arith = s.arith := rfl
@[simp] theorem modCmd_cores (s p q i f) : (modCmd s p q i f).cores = s.cores := rfl
@[simp] theorem modCmd_clusterTlb (s p q i f) : (modCmd s p q i f).clusterTlb = s.clusterTlb := rfl
@[simp] theorem modCmd_icache (s p q i f) : (modCmd s p q i f).icache = s.icache := rfl
@[simp] theorem modCmd_ports (s p q i f) : (modCmd s p q i f).ports = s.ports := rfl
@[simp] theorem modCmd_slices (s p q i f) : (modCmd s p q i f).slices = s.slices := rfl
@[simp] theorem modCmd_mem (s p q i f) : (modCmd s p q i f).mem = s.mem := rfl
@[simp] theorem modCmd_memPoison (s p q i f) : (modCmd s p q i f).memPoison = s.memPoison := rfl
@[simp] theorem modCmd_glaze (s p q i f) : (modCmd s p q i f).glaze = s.glaze := rfl
@[simp] theorem modCmd_binds (s p q i f) : (modCmd s p q i f).binds = s.binds := rfl
@[simp] theorem modCmd_late (s p q i f) : (modCmd s p q i f).late = s.late := rfl
@[simp] theorem modCmd_banks (s p q i f) : (modCmd s p q i f).banks = s.banks := rfl
@[simp] theorem modCmd_bankPoison (s p q i f) : (modCmd s p q i f).bankPoison = s.bankPoison := rfl
@[simp] theorem modCmd_bankUsed (s p q i f) : (modCmd s p q i f).bankUsed = s.bankUsed := rfl
@[simp] theorem modCmd_pairs (s p q i f) : (modCmd s p q i f).pairs = s.pairs := rfl
@[simp] theorem modCmd_copies (s p q i f) : (modCmd s p q i f).copies = s.copies := rfl
@[simp] theorem modCmd_nextCopy (s p q i f) : (modCmd s p q i f).nextCopy = s.nextCopy := rfl
@[simp] theorem modCmd_nextReq (s p q i f) : (modCmd s p q i f).nextReq = s.nextReq := rfl
@[simp] theorem modCmd_bunits (s p q i f) : (modCmd s p q i f).bunits = s.bunits := rfl
@[simp] theorem modCmd_releases (s p q i f) : (modCmd s p q i f).releases = s.releases := rfl
@[simp] theorem modCmd_leaves (s p q i f) : (modCmd s p q i f).leaves = s.leaves := rfl
@[simp] theorem modCmd_queues (s p q i f) : (modCmd s p q i f).queues = s.queues := rfl
@[simp] theorem modCmd_launches (s p q i f) : (modCmd s p q i f).launches = s.launches := rfl
@[simp] theorem modCmd_nextLaunch (s p q i f) : (modCmd s p q i f).nextLaunch = s.nextLaunch := rfl
@[simp] theorem modCmd_contexts (s p q i f) : (modCmd s p q i f).contexts = s.contexts := rfl
@[simp] theorem modCmd_saves (s p q i f) : (modCmd s p q i f).saves = s.saves := rfl
@[simp] theorem modCmd_parts (s p q i f) : (modCmd s p q i f).parts = s.parts := rfl
@[simp] theorem modCmd_chiplets (s p q i f) : (modCmd s p q i f).chiplets = s.chiplets := rfl
@[simp] theorem modCmd_windows (s p q i f) : (modCmd s p q i f).windows = s.windows := rfl
@[simp] theorem modCmd_keys (s p q i f) : (modCmd s p q i f).keys = s.keys := rfl
@[simp] theorem modCmd_carve (s p q i f) : (modCmd s p q i f).carve = s.carve := rfl
@[simp] theorem modCmd_outbox (s p q i f) : (modCmd s p q i f).outbox = s.outbox := rfl
@[simp] theorem modCmd_dev (s p q i f) : (modCmd s p q i f).dev = s.dev := rfl

@[simp] theorem modQueue_agenda (s p q f) : (modQueue s p q f).agenda = s.agenda := rfl
@[simp] theorem modQueue_cur (s p q f) : (modQueue s p q f).cur = s.cur := rfl
@[simp] theorem modQueue_freeCount (s p q f) : (modQueue s p q f).freeCount = s.freeCount := rfl
@[simp] theorem modQueue_clock (s p q f) : (modQueue s p q f).clock = s.clock := rfl
@[simp] theorem modQueue_mhz (s p q f) : (modQueue s p q f).mhz = s.mhz := rfl
@[simp] theorem modQueue_arith (s p q f) : (modQueue s p q f).arith = s.arith := rfl
@[simp] theorem modQueue_cores (s p q f) : (modQueue s p q f).cores = s.cores := rfl
@[simp] theorem modQueue_clusterTlb (s p q f) : (modQueue s p q f).clusterTlb = s.clusterTlb := rfl
@[simp] theorem modQueue_icache (s p q f) : (modQueue s p q f).icache = s.icache := rfl
@[simp] theorem modQueue_ports (s p q f) : (modQueue s p q f).ports = s.ports := rfl
@[simp] theorem modQueue_slices (s p q f) : (modQueue s p q f).slices = s.slices := rfl
@[simp] theorem modQueue_mem (s p q f) : (modQueue s p q f).mem = s.mem := rfl
@[simp] theorem modQueue_memPoison (s p q f) : (modQueue s p q f).memPoison = s.memPoison := rfl
@[simp] theorem modQueue_glaze (s p q f) : (modQueue s p q f).glaze = s.glaze := rfl
@[simp] theorem modQueue_binds (s p q f) : (modQueue s p q f).binds = s.binds := rfl
@[simp] theorem modQueue_late (s p q f) : (modQueue s p q f).late = s.late := rfl
@[simp] theorem modQueue_banks (s p q f) : (modQueue s p q f).banks = s.banks := rfl
@[simp] theorem modQueue_bankPoison (s p q f) : (modQueue s p q f).bankPoison = s.bankPoison := rfl
@[simp] theorem modQueue_bankUsed (s p q f) : (modQueue s p q f).bankUsed = s.bankUsed := rfl
@[simp] theorem modQueue_pairs (s p q f) : (modQueue s p q f).pairs = s.pairs := rfl
@[simp] theorem modQueue_copies (s p q f) : (modQueue s p q f).copies = s.copies := rfl
@[simp] theorem modQueue_nextCopy (s p q f) : (modQueue s p q f).nextCopy = s.nextCopy := rfl
@[simp] theorem modQueue_nextReq (s p q f) : (modQueue s p q f).nextReq = s.nextReq := rfl
@[simp] theorem modQueue_bunits (s p q f) : (modQueue s p q f).bunits = s.bunits := rfl
@[simp] theorem modQueue_releases (s p q f) : (modQueue s p q f).releases = s.releases := rfl
@[simp] theorem modQueue_leaves (s p q f) : (modQueue s p q f).leaves = s.leaves := rfl
@[simp] theorem modQueue_cmds (s p q f) : (modQueue s p q f).cmds = s.cmds := rfl
@[simp] theorem modQueue_launches (s p q f) : (modQueue s p q f).launches = s.launches := rfl
@[simp] theorem modQueue_nextLaunch (s p q f) : (modQueue s p q f).nextLaunch = s.nextLaunch := rfl
@[simp] theorem modQueue_contexts (s p q f) : (modQueue s p q f).contexts = s.contexts := rfl
@[simp] theorem modQueue_saves (s p q f) : (modQueue s p q f).saves = s.saves := rfl
@[simp] theorem modQueue_parts (s p q f) : (modQueue s p q f).parts = s.parts := rfl
@[simp] theorem modQueue_chiplets (s p q f) : (modQueue s p q f).chiplets = s.chiplets := rfl
@[simp] theorem modQueue_windows (s p q f) : (modQueue s p q f).windows = s.windows := rfl
@[simp] theorem modQueue_keys (s p q f) : (modQueue s p q f).keys = s.keys := rfl
@[simp] theorem modQueue_carve (s p q f) : (modQueue s p q f).carve = s.carve := rfl
@[simp] theorem modQueue_outbox (s p q f) : (modQueue s p q f).outbox = s.outbox := rfl
@[simp] theorem modQueue_dev (s p q f) : (modQueue s p q f).dev = s.dev := rfl

@[simp] theorem modUnit_agenda (s u f) : (modUnit s u f).agenda = s.agenda := rfl
@[simp] theorem modUnit_cur (s u f) : (modUnit s u f).cur = s.cur := rfl
@[simp] theorem modUnit_freeCount (s u f) : (modUnit s u f).freeCount = s.freeCount := rfl
@[simp] theorem modUnit_clock (s u f) : (modUnit s u f).clock = s.clock := rfl
@[simp] theorem modUnit_mhz (s u f) : (modUnit s u f).mhz = s.mhz := rfl
@[simp] theorem modUnit_arith (s u f) : (modUnit s u f).arith = s.arith := rfl
@[simp] theorem modUnit_cores (s u f) : (modUnit s u f).cores = s.cores := rfl
@[simp] theorem modUnit_clusterTlb (s u f) : (modUnit s u f).clusterTlb = s.clusterTlb := rfl
@[simp] theorem modUnit_icache (s u f) : (modUnit s u f).icache = s.icache := rfl
@[simp] theorem modUnit_ports (s u f) : (modUnit s u f).ports = s.ports := rfl
@[simp] theorem modUnit_slices (s u f) : (modUnit s u f).slices = s.slices := rfl
@[simp] theorem modUnit_mem (s u f) : (modUnit s u f).mem = s.mem := rfl
@[simp] theorem modUnit_memPoison (s u f) : (modUnit s u f).memPoison = s.memPoison := rfl
@[simp] theorem modUnit_glaze (s u f) : (modUnit s u f).glaze = s.glaze := rfl
@[simp] theorem modUnit_binds (s u f) : (modUnit s u f).binds = s.binds := rfl
@[simp] theorem modUnit_late (s u f) : (modUnit s u f).late = s.late := rfl
@[simp] theorem modUnit_banks (s u f) : (modUnit s u f).banks = s.banks := rfl
@[simp] theorem modUnit_bankPoison (s u f) : (modUnit s u f).bankPoison = s.bankPoison := rfl
@[simp] theorem modUnit_bankUsed (s u f) : (modUnit s u f).bankUsed = s.bankUsed := rfl
@[simp] theorem modUnit_pairs (s u f) : (modUnit s u f).pairs = s.pairs := rfl
@[simp] theorem modUnit_copies (s u f) : (modUnit s u f).copies = s.copies := rfl
@[simp] theorem modUnit_nextCopy (s u f) : (modUnit s u f).nextCopy = s.nextCopy := rfl
@[simp] theorem modUnit_nextReq (s u f) : (modUnit s u f).nextReq = s.nextReq := rfl
@[simp] theorem modUnit_releases (s u f) : (modUnit s u f).releases = s.releases := rfl
@[simp] theorem modUnit_leaves (s u f) : (modUnit s u f).leaves = s.leaves := rfl
@[simp] theorem modUnit_queues (s u f) : (modUnit s u f).queues = s.queues := rfl
@[simp] theorem modUnit_cmds (s u f) : (modUnit s u f).cmds = s.cmds := rfl
@[simp] theorem modUnit_launches (s u f) : (modUnit s u f).launches = s.launches := rfl
@[simp] theorem modUnit_nextLaunch (s u f) : (modUnit s u f).nextLaunch = s.nextLaunch := rfl
@[simp] theorem modUnit_contexts (s u f) : (modUnit s u f).contexts = s.contexts := rfl
@[simp] theorem modUnit_saves (s u f) : (modUnit s u f).saves = s.saves := rfl
@[simp] theorem modUnit_parts (s u f) : (modUnit s u f).parts = s.parts := rfl
@[simp] theorem modUnit_chiplets (s u f) : (modUnit s u f).chiplets = s.chiplets := rfl
@[simp] theorem modUnit_windows (s u f) : (modUnit s u f).windows = s.windows := rfl
@[simp] theorem modUnit_keys (s u f) : (modUnit s u f).keys = s.keys := rfl
@[simp] theorem modUnit_carve (s u f) : (modUnit s u f).carve = s.carve := rfl
@[simp] theorem modUnit_outbox (s u f) : (modUnit s u f).outbox = s.outbox := rfl
@[simp] theorem modUnit_dev (s u f) : (modUnit s u f).dev = s.dev := rfl

@[simp] theorem modPair_agenda (s p f) : (modPair s p f).agenda = s.agenda := rfl
@[simp] theorem modPair_cur (s p f) : (modPair s p f).cur = s.cur := rfl
@[simp] theorem modPair_freeCount (s p f) : (modPair s p f).freeCount = s.freeCount := rfl
@[simp] theorem modPair_clock (s p f) : (modPair s p f).clock = s.clock := rfl
@[simp] theorem modPair_mhz (s p f) : (modPair s p f).mhz = s.mhz := rfl
@[simp] theorem modPair_arith (s p f) : (modPair s p f).arith = s.arith := rfl
@[simp] theorem modPair_cores (s p f) : (modPair s p f).cores = s.cores := rfl
@[simp] theorem modPair_clusterTlb (s p f) : (modPair s p f).clusterTlb = s.clusterTlb := rfl
@[simp] theorem modPair_icache (s p f) : (modPair s p f).icache = s.icache := rfl
@[simp] theorem modPair_ports (s p f) : (modPair s p f).ports = s.ports := rfl
@[simp] theorem modPair_slices (s p f) : (modPair s p f).slices = s.slices := rfl
@[simp] theorem modPair_mem (s p f) : (modPair s p f).mem = s.mem := rfl
@[simp] theorem modPair_memPoison (s p f) : (modPair s p f).memPoison = s.memPoison := rfl
@[simp] theorem modPair_glaze (s p f) : (modPair s p f).glaze = s.glaze := rfl
@[simp] theorem modPair_binds (s p f) : (modPair s p f).binds = s.binds := rfl
@[simp] theorem modPair_late (s p f) : (modPair s p f).late = s.late := rfl
@[simp] theorem modPair_banks (s p f) : (modPair s p f).banks = s.banks := rfl
@[simp] theorem modPair_bankPoison (s p f) : (modPair s p f).bankPoison = s.bankPoison := rfl
@[simp] theorem modPair_bankUsed (s p f) : (modPair s p f).bankUsed = s.bankUsed := rfl
@[simp] theorem modPair_copies (s p f) : (modPair s p f).copies = s.copies := rfl
@[simp] theorem modPair_nextCopy (s p f) : (modPair s p f).nextCopy = s.nextCopy := rfl
@[simp] theorem modPair_nextReq (s p f) : (modPair s p f).nextReq = s.nextReq := rfl
@[simp] theorem modPair_bunits (s p f) : (modPair s p f).bunits = s.bunits := rfl
@[simp] theorem modPair_releases (s p f) : (modPair s p f).releases = s.releases := rfl
@[simp] theorem modPair_leaves (s p f) : (modPair s p f).leaves = s.leaves := rfl
@[simp] theorem modPair_queues (s p f) : (modPair s p f).queues = s.queues := rfl
@[simp] theorem modPair_cmds (s p f) : (modPair s p f).cmds = s.cmds := rfl
@[simp] theorem modPair_launches (s p f) : (modPair s p f).launches = s.launches := rfl
@[simp] theorem modPair_nextLaunch (s p f) : (modPair s p f).nextLaunch = s.nextLaunch := rfl
@[simp] theorem modPair_contexts (s p f) : (modPair s p f).contexts = s.contexts := rfl
@[simp] theorem modPair_saves (s p f) : (modPair s p f).saves = s.saves := rfl
@[simp] theorem modPair_parts (s p f) : (modPair s p f).parts = s.parts := rfl
@[simp] theorem modPair_chiplets (s p f) : (modPair s p f).chiplets = s.chiplets := rfl
@[simp] theorem modPair_windows (s p f) : (modPair s p f).windows = s.windows := rfl
@[simp] theorem modPair_keys (s p f) : (modPair s p f).keys = s.keys := rfl
@[simp] theorem modPair_carve (s p f) : (modPair s p f).carve = s.carve := rfl
@[simp] theorem modPair_outbox (s p f) : (modPair s p f).outbox = s.outbox := rfl
@[simp] theorem modPair_dev (s p f) : (modPair s p f).dev = s.dev := rfl

@[simp] theorem modCol_agenda (s p c f) : (modCol s p c f).agenda = s.agenda := rfl
@[simp] theorem modCol_cur (s p c f) : (modCol s p c f).cur = s.cur := rfl
@[simp] theorem modCol_freeCount (s p c f) : (modCol s p c f).freeCount = s.freeCount := rfl
@[simp] theorem modCol_clock (s p c f) : (modCol s p c f).clock = s.clock := rfl
@[simp] theorem modCol_mhz (s p c f) : (modCol s p c f).mhz = s.mhz := rfl
@[simp] theorem modCol_arith (s p c f) : (modCol s p c f).arith = s.arith := rfl
@[simp] theorem modCol_cores (s p c f) : (modCol s p c f).cores = s.cores := rfl
@[simp] theorem modCol_clusterTlb (s p c f) : (modCol s p c f).clusterTlb = s.clusterTlb := rfl
@[simp] theorem modCol_icache (s p c f) : (modCol s p c f).icache = s.icache := rfl
@[simp] theorem modCol_ports (s p c f) : (modCol s p c f).ports = s.ports := rfl
@[simp] theorem modCol_slices (s p c f) : (modCol s p c f).slices = s.slices := rfl
@[simp] theorem modCol_mem (s p c f) : (modCol s p c f).mem = s.mem := rfl
@[simp] theorem modCol_memPoison (s p c f) : (modCol s p c f).memPoison = s.memPoison := rfl
@[simp] theorem modCol_glaze (s p c f) : (modCol s p c f).glaze = s.glaze := rfl
@[simp] theorem modCol_binds (s p c f) : (modCol s p c f).binds = s.binds := rfl
@[simp] theorem modCol_late (s p c f) : (modCol s p c f).late = s.late := rfl
@[simp] theorem modCol_banks (s p c f) : (modCol s p c f).banks = s.banks := rfl
@[simp] theorem modCol_bankPoison (s p c f) : (modCol s p c f).bankPoison = s.bankPoison := rfl
@[simp] theorem modCol_bankUsed (s p c f) : (modCol s p c f).bankUsed = s.bankUsed := rfl
@[simp] theorem modCol_copies (s p c f) : (modCol s p c f).copies = s.copies := rfl
@[simp] theorem modCol_nextCopy (s p c f) : (modCol s p c f).nextCopy = s.nextCopy := rfl
@[simp] theorem modCol_nextReq (s p c f) : (modCol s p c f).nextReq = s.nextReq := rfl
@[simp] theorem modCol_bunits (s p c f) : (modCol s p c f).bunits = s.bunits := rfl
@[simp] theorem modCol_releases (s p c f) : (modCol s p c f).releases = s.releases := rfl
@[simp] theorem modCol_leaves (s p c f) : (modCol s p c f).leaves = s.leaves := rfl
@[simp] theorem modCol_queues (s p c f) : (modCol s p c f).queues = s.queues := rfl
@[simp] theorem modCol_cmds (s p c f) : (modCol s p c f).cmds = s.cmds := rfl
@[simp] theorem modCol_launches (s p c f) : (modCol s p c f).launches = s.launches := rfl
@[simp] theorem modCol_nextLaunch (s p c f) : (modCol s p c f).nextLaunch = s.nextLaunch := rfl
@[simp] theorem modCol_contexts (s p c f) : (modCol s p c f).contexts = s.contexts := rfl
@[simp] theorem modCol_saves (s p c f) : (modCol s p c f).saves = s.saves := rfl
@[simp] theorem modCol_parts (s p c f) : (modCol s p c f).parts = s.parts := rfl
@[simp] theorem modCol_chiplets (s p c f) : (modCol s p c f).chiplets = s.chiplets := rfl
@[simp] theorem modCol_windows (s p c f) : (modCol s p c f).windows = s.windows := rfl
@[simp] theorem modCol_keys (s p c f) : (modCol s p c f).keys = s.keys := rfl
@[simp] theorem modCol_carve (s p c f) : (modCol s p c f).carve = s.carve := rfl
@[simp] theorem modCol_outbox (s p c f) : (modCol s p c f).outbox = s.outbox := rfl
@[simp] theorem modCol_dev (s p c f) : (modCol s p c f).dev = s.dev := rfl

@[simp] theorem modLeaf_agenda (s l f) : (modLeaf s l f).agenda = s.agenda := rfl
@[simp] theorem modLeaf_cur (s l f) : (modLeaf s l f).cur = s.cur := rfl
@[simp] theorem modLeaf_freeCount (s l f) : (modLeaf s l f).freeCount = s.freeCount := rfl
@[simp] theorem modLeaf_clock (s l f) : (modLeaf s l f).clock = s.clock := rfl
@[simp] theorem modLeaf_mhz (s l f) : (modLeaf s l f).mhz = s.mhz := rfl
@[simp] theorem modLeaf_arith (s l f) : (modLeaf s l f).arith = s.arith := rfl
@[simp] theorem modLeaf_cores (s l f) : (modLeaf s l f).cores = s.cores := rfl
@[simp] theorem modLeaf_clusterTlb (s l f) : (modLeaf s l f).clusterTlb = s.clusterTlb := rfl
@[simp] theorem modLeaf_icache (s l f) : (modLeaf s l f).icache = s.icache := rfl
@[simp] theorem modLeaf_ports (s l f) : (modLeaf s l f).ports = s.ports := rfl
@[simp] theorem modLeaf_slices (s l f) : (modLeaf s l f).slices = s.slices := rfl
@[simp] theorem modLeaf_mem (s l f) : (modLeaf s l f).mem = s.mem := rfl
@[simp] theorem modLeaf_memPoison (s l f) : (modLeaf s l f).memPoison = s.memPoison := rfl
@[simp] theorem modLeaf_glaze (s l f) : (modLeaf s l f).glaze = s.glaze := rfl
@[simp] theorem modLeaf_binds (s l f) : (modLeaf s l f).binds = s.binds := rfl
@[simp] theorem modLeaf_late (s l f) : (modLeaf s l f).late = s.late := rfl
@[simp] theorem modLeaf_banks (s l f) : (modLeaf s l f).banks = s.banks := rfl
@[simp] theorem modLeaf_bankPoison (s l f) : (modLeaf s l f).bankPoison = s.bankPoison := rfl
@[simp] theorem modLeaf_bankUsed (s l f) : (modLeaf s l f).bankUsed = s.bankUsed := rfl
@[simp] theorem modLeaf_pairs (s l f) : (modLeaf s l f).pairs = s.pairs := rfl
@[simp] theorem modLeaf_copies (s l f) : (modLeaf s l f).copies = s.copies := rfl
@[simp] theorem modLeaf_nextCopy (s l f) : (modLeaf s l f).nextCopy = s.nextCopy := rfl
@[simp] theorem modLeaf_nextReq (s l f) : (modLeaf s l f).nextReq = s.nextReq := rfl
@[simp] theorem modLeaf_bunits (s l f) : (modLeaf s l f).bunits = s.bunits := rfl
@[simp] theorem modLeaf_releases (s l f) : (modLeaf s l f).releases = s.releases := rfl
@[simp] theorem modLeaf_queues (s l f) : (modLeaf s l f).queues = s.queues := rfl
@[simp] theorem modLeaf_cmds (s l f) : (modLeaf s l f).cmds = s.cmds := rfl
@[simp] theorem modLeaf_launches (s l f) : (modLeaf s l f).launches = s.launches := rfl
@[simp] theorem modLeaf_nextLaunch (s l f) : (modLeaf s l f).nextLaunch = s.nextLaunch := rfl
@[simp] theorem modLeaf_contexts (s l f) : (modLeaf s l f).contexts = s.contexts := rfl
@[simp] theorem modLeaf_saves (s l f) : (modLeaf s l f).saves = s.saves := rfl
@[simp] theorem modLeaf_parts (s l f) : (modLeaf s l f).parts = s.parts := rfl
@[simp] theorem modLeaf_chiplets (s l f) : (modLeaf s l f).chiplets = s.chiplets := rfl
@[simp] theorem modLeaf_windows (s l f) : (modLeaf s l f).windows = s.windows := rfl
@[simp] theorem modLeaf_keys (s l f) : (modLeaf s l f).keys = s.keys := rfl
@[simp] theorem modLeaf_carve (s l f) : (modLeaf s l f).carve = s.carve := rfl
@[simp] theorem modLeaf_outbox (s l f) : (modLeaf s l f).outbox = s.outbox := rfl
@[simp] theorem modLeaf_dev (s l f) : (modLeaf s l f).dev = s.dev := rfl

@[simp] theorem modChip_agenda (s c f) : (modChip s c f).agenda = s.agenda := rfl
@[simp] theorem modChip_cur (s c f) : (modChip s c f).cur = s.cur := rfl
@[simp] theorem modChip_freeCount (s c f) : (modChip s c f).freeCount = s.freeCount := rfl
@[simp] theorem modChip_clock (s c f) : (modChip s c f).clock = s.clock := rfl
@[simp] theorem modChip_mhz (s c f) : (modChip s c f).mhz = s.mhz := rfl
@[simp] theorem modChip_arith (s c f) : (modChip s c f).arith = s.arith := rfl
@[simp] theorem modChip_cores (s c f) : (modChip s c f).cores = s.cores := rfl
@[simp] theorem modChip_clusterTlb (s c f) : (modChip s c f).clusterTlb = s.clusterTlb := rfl
@[simp] theorem modChip_icache (s c f) : (modChip s c f).icache = s.icache := rfl
@[simp] theorem modChip_ports (s c f) : (modChip s c f).ports = s.ports := rfl
@[simp] theorem modChip_slices (s c f) : (modChip s c f).slices = s.slices := rfl
@[simp] theorem modChip_mem (s c f) : (modChip s c f).mem = s.mem := rfl
@[simp] theorem modChip_memPoison (s c f) : (modChip s c f).memPoison = s.memPoison := rfl
@[simp] theorem modChip_glaze (s c f) : (modChip s c f).glaze = s.glaze := rfl
@[simp] theorem modChip_binds (s c f) : (modChip s c f).binds = s.binds := rfl
@[simp] theorem modChip_late (s c f) : (modChip s c f).late = s.late := rfl
@[simp] theorem modChip_banks (s c f) : (modChip s c f).banks = s.banks := rfl
@[simp] theorem modChip_bankPoison (s c f) : (modChip s c f).bankPoison = s.bankPoison := rfl
@[simp] theorem modChip_bankUsed (s c f) : (modChip s c f).bankUsed = s.bankUsed := rfl
@[simp] theorem modChip_pairs (s c f) : (modChip s c f).pairs = s.pairs := rfl
@[simp] theorem modChip_copies (s c f) : (modChip s c f).copies = s.copies := rfl
@[simp] theorem modChip_nextCopy (s c f) : (modChip s c f).nextCopy = s.nextCopy := rfl
@[simp] theorem modChip_nextReq (s c f) : (modChip s c f).nextReq = s.nextReq := rfl
@[simp] theorem modChip_bunits (s c f) : (modChip s c f).bunits = s.bunits := rfl
@[simp] theorem modChip_releases (s c f) : (modChip s c f).releases = s.releases := rfl
@[simp] theorem modChip_leaves (s c f) : (modChip s c f).leaves = s.leaves := rfl
@[simp] theorem modChip_queues (s c f) : (modChip s c f).queues = s.queues := rfl
@[simp] theorem modChip_cmds (s c f) : (modChip s c f).cmds = s.cmds := rfl
@[simp] theorem modChip_launches (s c f) : (modChip s c f).launches = s.launches := rfl
@[simp] theorem modChip_nextLaunch (s c f) : (modChip s c f).nextLaunch = s.nextLaunch := rfl
@[simp] theorem modChip_contexts (s c f) : (modChip s c f).contexts = s.contexts := rfl
@[simp] theorem modChip_saves (s c f) : (modChip s c f).saves = s.saves := rfl
@[simp] theorem modChip_parts (s c f) : (modChip s c f).parts = s.parts := rfl
@[simp] theorem modChip_windows (s c f) : (modChip s c f).windows = s.windows := rfl
@[simp] theorem modChip_keys (s c f) : (modChip s c f).keys = s.keys := rfl
@[simp] theorem modChip_carve (s c f) : (modChip s c f).carve = s.carve := rfl
@[simp] theorem modChip_outbox (s c f) : (modChip s c f).outbox = s.outbox := rfl
@[simp] theorem modChip_dev (s c f) : (modChip s c f).dev = s.dev := rfl

@[simp] theorem send_agenda (s m) : (send s m).agenda = s.agenda := rfl
@[simp] theorem send_cur (s m) : (send s m).cur = s.cur := rfl
@[simp] theorem send_freeCount (s m) : (send s m).freeCount = s.freeCount := rfl
@[simp] theorem send_clock (s m) : (send s m).clock = s.clock := rfl
@[simp] theorem send_mhz (s m) : (send s m).mhz = s.mhz := rfl
@[simp] theorem send_arith (s m) : (send s m).arith = s.arith := rfl
@[simp] theorem send_cores (s m) : (send s m).cores = s.cores := rfl
@[simp] theorem send_clusterTlb (s m) : (send s m).clusterTlb = s.clusterTlb := rfl
@[simp] theorem send_icache (s m) : (send s m).icache = s.icache := rfl
@[simp] theorem send_ports (s m) : (send s m).ports = s.ports := rfl
@[simp] theorem send_slices (s m) : (send s m).slices = s.slices := rfl
@[simp] theorem send_mem (s m) : (send s m).mem = s.mem := rfl
@[simp] theorem send_memPoison (s m) : (send s m).memPoison = s.memPoison := rfl
@[simp] theorem send_glaze (s m) : (send s m).glaze = s.glaze := rfl
@[simp] theorem send_binds (s m) : (send s m).binds = s.binds := rfl
@[simp] theorem send_late (s m) : (send s m).late = s.late := rfl
@[simp] theorem send_banks (s m) : (send s m).banks = s.banks := rfl
@[simp] theorem send_bankPoison (s m) : (send s m).bankPoison = s.bankPoison := rfl
@[simp] theorem send_bankUsed (s m) : (send s m).bankUsed = s.bankUsed := rfl
@[simp] theorem send_pairs (s m) : (send s m).pairs = s.pairs := rfl
@[simp] theorem send_copies (s m) : (send s m).copies = s.copies := rfl
@[simp] theorem send_nextCopy (s m) : (send s m).nextCopy = s.nextCopy := rfl
@[simp] theorem send_nextReq (s m) : (send s m).nextReq = s.nextReq := rfl
@[simp] theorem send_bunits (s m) : (send s m).bunits = s.bunits := rfl
@[simp] theorem send_releases (s m) : (send s m).releases = s.releases := rfl
@[simp] theorem send_leaves (s m) : (send s m).leaves = s.leaves := rfl
@[simp] theorem send_queues (s m) : (send s m).queues = s.queues := rfl
@[simp] theorem send_cmds (s m) : (send s m).cmds = s.cmds := rfl
@[simp] theorem send_launches (s m) : (send s m).launches = s.launches := rfl
@[simp] theorem send_nextLaunch (s m) : (send s m).nextLaunch = s.nextLaunch := rfl
@[simp] theorem send_contexts (s m) : (send s m).contexts = s.contexts := rfl
@[simp] theorem send_saves (s m) : (send s m).saves = s.saves := rfl
@[simp] theorem send_parts (s m) : (send s m).parts = s.parts := rfl
@[simp] theorem send_chiplets (s m) : (send s m).chiplets = s.chiplets := rfl
@[simp] theorem send_windows (s m) : (send s m).windows = s.windows := rfl
@[simp] theorem send_keys (s m) : (send s m).keys = s.keys := rfl
@[simp] theorem send_carve (s m) : (send s m).carve = s.carve := rfl
@[simp] theorem send_dev (s m) : (send s m).dev = s.dev := rfl

@[simp] theorem pass_agenda (s n) : (pass s n).agenda = s.agenda := rfl
@[simp] theorem pass_cur (s n) : (pass s n).cur = s.cur := rfl
@[simp] theorem pass_freeCount (s n) : (pass s n).freeCount = s.freeCount := rfl
@[simp] theorem pass_mhz (s n) : (pass s n).mhz = s.mhz := rfl
@[simp] theorem pass_cores (s n) : (pass s n).cores = s.cores := rfl
@[simp] theorem pass_clusterTlb (s n) : (pass s n).clusterTlb = s.clusterTlb := rfl
@[simp] theorem pass_icache (s n) : (pass s n).icache = s.icache := rfl
@[simp] theorem pass_ports (s n) : (pass s n).ports = s.ports := rfl
@[simp] theorem pass_slices (s n) : (pass s n).slices = s.slices := rfl
@[simp] theorem pass_mem (s n) : (pass s n).mem = s.mem := rfl
@[simp] theorem pass_memPoison (s n) : (pass s n).memPoison = s.memPoison := rfl
@[simp] theorem pass_glaze (s n) : (pass s n).glaze = s.glaze := rfl
@[simp] theorem pass_binds (s n) : (pass s n).binds = s.binds := rfl
@[simp] theorem pass_late (s n) : (pass s n).late = s.late := rfl
@[simp] theorem pass_banks (s n) : (pass s n).banks = s.banks := rfl
@[simp] theorem pass_bankPoison (s n) : (pass s n).bankPoison = s.bankPoison := rfl
@[simp] theorem pass_bankUsed (s n) : (pass s n).bankUsed = s.bankUsed := rfl
@[simp] theorem pass_pairs (s n) : (pass s n).pairs = s.pairs := rfl
@[simp] theorem pass_copies (s n) : (pass s n).copies = s.copies := rfl
@[simp] theorem pass_nextCopy (s n) : (pass s n).nextCopy = s.nextCopy := rfl
@[simp] theorem pass_nextReq (s n) : (pass s n).nextReq = s.nextReq := rfl
@[simp] theorem pass_bunits (s n) : (pass s n).bunits = s.bunits := rfl
@[simp] theorem pass_releases (s n) : (pass s n).releases = s.releases := rfl
@[simp] theorem pass_leaves (s n) : (pass s n).leaves = s.leaves := rfl
@[simp] theorem pass_queues (s n) : (pass s n).queues = s.queues := rfl
@[simp] theorem pass_cmds (s n) : (pass s n).cmds = s.cmds := rfl
@[simp] theorem pass_launches (s n) : (pass s n).launches = s.launches := rfl
@[simp] theorem pass_nextLaunch (s n) : (pass s n).nextLaunch = s.nextLaunch := rfl
@[simp] theorem pass_contexts (s n) : (pass s n).contexts = s.contexts := rfl
@[simp] theorem pass_saves (s n) : (pass s n).saves = s.saves := rfl
@[simp] theorem pass_parts (s n) : (pass s n).parts = s.parts := rfl
@[simp] theorem pass_chiplets (s n) : (pass s n).chiplets = s.chiplets := rfl
@[simp] theorem pass_windows (s n) : (pass s n).windows = s.windows := rfl
@[simp] theorem pass_keys (s n) : (pass s n).keys = s.keys := rfl
@[simp] theorem pass_carve (s n) : (pass s n).carve = s.carve := rfl
@[simp] theorem pass_outbox (s n) : (pass s n).outbox = s.outbox := rfl
@[simp] theorem pass_dev (s n) : (pass s n).dev = s.dev := rfl

@[simp] theorem setCore_cores (s c x) : (setCore s c x).cores = tins s.cores c x := rfl
@[simp] theorem modSlice_slices (s h f) : (modSlice s h f).slices = tins s.slices h (f (sliceOf s h)) := rfl
@[simp] theorem modDev_dev (s f) : (modDev s f).dev = f s.dev := rfl
@[simp] theorem irq_irqs (s p v) : (irq s p v).dev.irqs = s.dev.irqs ++ [(p, v)] := rfl
@[simp] theorem logEvent_log (s c a) : (logEvent s c a).dev.log = s.dev.log ++ [(c, a)] := rfl
@[simp] theorem send_outbox (s m) : (send s m).outbox = s.outbox ++ [m] := rfl
@[simp] theorem pass_clock (s n) : (pass s n).clock = s.clock + n := rfl
@[simp] theorem pass_arith (s n) : (pass s n).arith = s.arith + n * s.mhz := rfl

end Sys2Proof.Machine
end

