-- ==== Sys2Proof/Laws/Units.lean ====
section
/-! SUPPORT. Laws/Units.lean: what the device's own units find where nothing has come back to them and their lines stand
at their homes (log 16). -/

namespace Sys2Proof.Machine

theorem answerTo_quiet {s : State} {who : Nat} (h : Unanswered s who) (line : Nat) : answerTo s line who = none := by
  simp only [answerTo, List.findSome?_eq_none_iff, List.find?_eq_none]
  intro p hp a ha
  simp [h p hp a ha]

theorem dropAnswers_quiet {s : State} {who : Nat} (h : Unanswered s who) : dropAnswers s who = s := by
  have : (s.slices.any fun p => p.2.answers.any fun a => a.who == who) = false := by
    simp only [List.any_eq_false, List.any_eq_true, beq_iff_eq, not_exists, not_and]
    exact fun p hp a ha => h p hp a ha
  simp [dropAnswers, this]

theorem refused_quiet {s : State} {who : Nat} (h : Unanswered s who) (line : Nat) : refused s line who = unbacked s line := by
  simp [refused, answerTo_quiet h]

theorem unitBytes_ready {s : State} {who pa n : Nat} (h : Readable s who pa n) (part : Nat) :
    unitBytes s part who pa n = (.go s, peekBytes s pa n) := by
  obtain ⟨hq, hl⟩ := h
  simp +contextual [unitBytes, answerTo_quiet hq, refused_quiet hq, dropAnswers_quiet hq, hl]

theorem unitWrites_ready {s : State} {who : Nat} {w : UnitWrite} (h : Writable s who w.line w.home) (part : Nat) :
    unitWrites s part who [w] = .go (dropAnswers (writeUnit s part w) who) := by
  obtain ⟨hq, hu, hb⟩ := h
  simp [unitWrites, unitPut, answerTo_quiet hq, refused_quiet hq, hu, hb]

end Sys2Proof.Machine
end

