-- ==== Sys2Proof/Laws/Word.lean ====
section
/-! SUPPORT. Laws/Word.lean: what the frames of the meanings can do: a word's, an event's, and the families' built on
them. -/

namespace Sys2Proof.Machine

/-- Everything a word's frame can do: nothing without a live current path, a trap for its fields or for a register
beyond the window, a stall for a pending register, or its effect. -/
theorem word_cases {i : Instr} {s t : State} {f : State → Here → State} {u : Here → Bool} (h : word i s f u = .next t) :
    (here s (encode i) = none ∧ t = s) ∨
    ∃ x, here s (encode i) = some x ∧
      (((i.wf = false ∨ u x = true) ∧ t = faultAll s x .undef) ∨ t = faultAll s x .prot ∨ t = s ∨
        (Runs i s x ∧ u x = false ∧ t = f s x)) := by
  unfold word at h
  split at h
  · exact .inl ⟨‹_›, by injection h with h; exact h.symm⟩
  · rename_i x hx
    refine .inr ⟨x, hx, ?_⟩
    split at h
    · injection h with h
      refine .inl ⟨?_, h.symm⟩
      simp_all
    · simp only at h
      split at h
      · injection h with h; exact .inr (.inl h.symm)
      · split at h
        · injection h with h; exact .inr (.inr (.inl h.symm))
        · injection h with h
          refine .inr (.inr (.inr ⟨⟨hx, ?_, ?_, ?_⟩, ?_, h.symm⟩)) <;> simp_all

/-- A word always goes on. -/
theorem word_next (i : Instr) (s : State) (f : State → Here → State) (u : Here → Bool) :
    ∃ t, word i s f u = .next t := by
  unfold word
  split
  · exact ⟨_, rfl⟩
  · split
    · exact ⟨_, rfl⟩
    · simp only
      split
      · exact ⟨_, rfl⟩
      · split <;> exact ⟨_, rfl⟩

/-- A word that runs has its effect. -/
theorem word_runs {i : Instr} {s : State} {x : Here} {f : State → Here → State} {u : Here → Bool} (h : Runs i s x)
    (hu : u x = false) : word i s f u = .next (f s x) := by
  obtain ⟨a, b, c, d⟩ := h
  unfold word
  simp only [a, b, hu, c, d, Bool.not_true, Bool.or_self, if_false, Bool.false_eq_true]

theorem word_undef {i : Instr} {s : State} {x : Here} {f : State → Here → State} {u : Here → Bool}
    (h : here s (encode i) = some x) (hw : i.wf = false ∨ u x = true) :
    word i s f u = .next (faultAll s x .undef) := by
  unfold word
  rcases hw with hw | hw <;> simp [h, hw]

theorem eventIf_true {b : Bool} (h : b = true) (s : State) (f : State → State) : eventIf b s f = .next (f s) := by
  simp [eventIf, h]

theorem eventIf_false {b : Bool} (h : b = false) (s : State) (f : State → State) : eventIf b s f = .next s := by
  simp [eventIf, h]

theorem eventIf_next (b : Bool) (s : State) (f : State → State) : ∃ t, eventIf b s f = .next t := by
  unfold eventIf; split <;> exact ⟨_, rfl⟩

/-- Everything an event's frame can do. -/
theorem eventIf_cases {b : Bool} {s t : State} {f : State → State} (h : eventIf b s f = .next t) :
    (b = true ∧ t = f s) ∨ (b = false ∧ t = s) := by
  unfold eventIf at h
  split at h
  · injection h with h; exact .inl ⟨‹_›, h.symm⟩
  · injection h with h; exact .inr ⟨by simp_all, h.symm⟩

theorem scaWord_runs {i : Instr} {d : BitVec 8} {s : State} {x : Here} {f : Here → W32} (h : Runs i s x) :
    scaWord i d s f = .next (retire s x (sset x.wp d.toNat (f x))) := word_runs h rfl

theorem mskWord_runs {i : Instr} {d : BitVec 8} {s : State} {x : Here} {f : Here → W32} (h : Runs i s x) :
    mskWord i d s f = .next (retire s x (mset x.wp d.toNat (f x))) := word_runs h rfl

/-- A lane word that consumes no poison has its effect. -/
theorem laneWord_runs {i : Instr} {s : State} {x : Here} {srcs : List (Src × Bool)} {f : Here → Warp} (h : Runs i s x)
    (hp : NoPoison x srcs) : laneWord i s srcs f = .next (retire s x (f x)) := by
  unfold laneWord
  rw [word_runs h rfl]
  simp only [NoPoison] at hp
  simp [hp]

/-- A memory word whose modifiers and base are legal has its effect. -/
theorem memWord_runs {i : Instr} {k : MKd} {m : Mem} {s : State} {x : Here} {f : State → Here → Mods → State}
    (h : MemRuns i k m s x) : memWord i k m s f = .next (f s x (modsOf x.co.memdef m.pfx)) := by
  unfold memWord
  exact word_runs h.toRuns (by simp [h.mods, h.base])

theorem runsNow_runs {i : Instr} {s : State} {x : Here} (h : runsNow i s = true) (hx : here s (encode i) = some x) :
    Runs i s x := by
  unfold runsNow at h
  rw [hx] at h
  simp only [Bool.and_eq_true, Bool.not_eq_true'] at h
  exact ⟨hx, h.1.1, h.1.2, h.2⟩

/-! Where the update of a state is read. -/

@[simp] theorem coreOf_setCore (s : State) (c : Nat) (x : Core) : coreOf (setCore s c x) c = x := by
  simp [coreOf, tgetD]

theorem coreOf_setCore_ne (s : State) {c d : Nat} (x : Core) (h : d ≠ c) : coreOf (setCore s c x) d = coreOf s d := by
  simp [coreOf, tgetD, tget_tins_ne _ _ h]

@[simp] theorem coreOf_modCore (s : State) (c : Nat) (f : Core → Core) : coreOf (modCore s c f) c = f (coreOf s c) :=
  coreOf_setCore _ _ _

theorem coreOf_modCore_ne (s : State) {c d : Nat} (f : Core → Core) (h : d ≠ c) :
    coreOf (modCore s c f) d = coreOf s d := coreOf_setCore_ne _ _ h

@[simp] theorem sliceOf_modSlice (s : State) (h : Nat) (f : Slice → Slice) :
    sliceOf (modSlice s h f) h = f (sliceOf s h) := by
  simp [sliceOf, tgetD]

@[simp] theorem queueOf_modQueue (s : State) (p q : Nat) (f : Queue → Queue) :
    queueOf (modQueue s p q f) p q = f (queueOf s p q) := by
  simp [queueOf, modQueue, tgetD]

/-- What a retiring word leaves in its warp's place. -/
theorem warp_retire (s : State) (x : Here) (y w : Warp) (h : tget (coreOf s x.core).warps x.w = some w) :
    tget (coreOf (retire s x y) x.core).warps x.w = some (retireW y x.sl x.ws) := by
  simp [retire, setWarp, modWarp, h]

theorem warp_retire_ne (s : State) (x : Here) (y : Warp) {v : Nat} (h : v ≠ x.w) :
    tget (coreOf (retire s x y) x.core).warps v = tget (coreOf s x.core).warps v := by
  simp [retire, setWarp, modWarp, tget_tmod_ne _ _ h]

theorem core_retire_ne (s : State) (x : Here) (y : Warp) {c : Nat} (h : c ≠ x.core) :
    coreOf (retire s x y) c = coreOf s c := coreOf_modCore_ne _ _ h

/-- The current path's warp stands in its core. -/
theorem here_warp {s : State} {ws : List W64} {x : Here} (h : here s ws = some x) :
    x.co = coreOf s x.core ∧ tget (coreOf s x.core).warps x.w = some x.wp ∧ x.ws = ws := by
  unfold here at h
  split at h
  · cases h
  · split at h
    · cases h
    · split at h
      · cases h; exact ⟨rfl, ‹_›, rfl⟩
      · cases h

/-! Register files. -/

@[simp] theorem sget_sset (w : Warp) (n : Nat) (v : W32) : sget (sset w n v) n = v := tgetD_tput 0 _ _ _
theorem sget_sset_ne (w : Warp) {m n : Nat} (v : W32) (h : m ≠ n) : sget (sset w n v) m = sget w m :=
  tgetD_tput_ne 0 0 _ _ h
@[simp] theorem vget_vset (w : Warp) (n l : Nat) (v : W32) (p : Bool) : vget (vset w n l v p) n l = v :=
  tgetD_tput 0 _ _ _
theorem vget_vset_ne (w : Warp) {m n k l : Nat} (v : W32) (p : Bool) (h : 32 * m + k ≠ 32 * n + l) :
    vget (vset w n l v p) m k = vget w m k := tgetD_tput_ne 0 0 _ _ h

/-- Arrivals, refills and merges touch paths, the stack and SIGD only (R139, R140). -/
theorem settle_keeps (n : Nat) (td : List Todo) (w : Warp) :
    ∃ a b st d, settle n td w = { w with a := a, b := b, stack := st, sigd := d } := by
  have h1 (w : Warp) (sl : Slot) : ∃ a b st d, (arriveOnce w sl).1 = { w with a := a, b := b, stack := st, sigd := d } := by
    unfold arriveOnce
    simp only
    repeat' split
    all_goals first
      | exact ⟨_, _, _, _, rfl⟩
      | (cases sl <;> exact ⟨_, _, _, _, rfl⟩)
  have h2 (w : Warp) (sl : Slot) : ∃ a b st d, (refillOnce w sl).1 = { w with a := a, b := b, stack := st, sigd := d } := by
    unfold refillOnce
    simp only
    repeat' split
    all_goals first
      | exact ⟨_, _, _, _, rfl⟩
      | (cases sl <;> exact ⟨_, _, _, _, rfl⟩)
  induction n generalizing td w with
  | zero => exact ⟨_, _, _, _, rfl⟩
  | succ n ih =>
    match td with
    | [] => exact ⟨_, _, _, _, rfl⟩
    | .arrive sl :: t =>
      obtain ⟨a, b, st, d, h⟩ := h1 w sl
      obtain ⟨a', b', st', d', h'⟩ := ih ((arriveOnce w sl).2 ++ t) (arriveOnce w sl).1
      exact ⟨a', b', st', d', by simp only [settle]; rw [h', h]⟩
    | .refill sl :: t =>
      obtain ⟨a, b, st, d, h⟩ := h2 w sl
      obtain ⟨a', b', st', d', h'⟩ := ih ((refillOnce w sl).2 ++ t) (refillOnce w sl).1
      exact ⟨a', b', st', d', by simp only [settle]; rw [h', h]⟩

/-- A retiring word changes its warp's paths, stack, signatures, count and place in the active set only. -/
theorem retireW_keeps (w : Warp) (sl : Slot) (ws : List W64) :
    ∃ a b st d g n k, retireW w sl ws =
      { w with a := a, b := b, stack := st, sigd := d, sigs := g, issued := n, active := k } := by
  unfold retireW arrive
  simp only
  obtain ⟨a, b, st, d, h⟩ := settle_keeps settleFuel [.arrive sl]
    (setPath { countW w sl ws with active := (countW w sl ws).active && !(nextPath (pathOf w sl) ws).parked } sl
      (nextPath (pathOf w sl) ws))
  rw [h]
  cases sl <;> exact ⟨_, _, _, _, _, _, _, rfl⟩

/-- A path that does not stand at its reconvergence point after its word just goes past it. -/
theorem retireW_past {x : Here} {wp : Warp} (h : Away x) (hp : pathOf wp x.sl = x.p) :
    Past x wp (retireW wp x.sl x.ws) := by
  have key (v : Warp) (hv : atRpc (pathOf v x.sl) = false) : arrive v x.sl = v := by
    unfold arrive settleFuel
    simp only [settle, arriveOnce, hv, Bool.not_false, if_true, List.nil_append]
  have hn : atRpc (nextPath x.p x.ws) = false := by
    rcases h with h | h
    · simp [atRpc, nextPath, h]
    · simp only [atRpc, nextPath, Bool.and_eq_false_iff]
      exact .inr (by simpa using h)
  unfold retireW
  simp only [hp]
  rw [key]
  · cases hs : x.sl <;> simp only [hs, pathOf] at hp <;> constructor <;>
      first
        | simp [hs, hp, setPath, countW, nextPath, pathOf, otherSlot]; done
        | (simp only [setPath, countW, ← hp])
  · cases hs : x.sl <;> simpa [hs, setPath, pathOf] using hn

/-- A retiring word changes its own warp only. -/
theorem retire_only {s : State} {ws : List W64} {x : Here} (h : here s ws = some x) (y : Warp) {p : Warp → Prop}
    (hp : p (retireW y x.sl x.ws)) : OnlyWarp s (retire s x y) x p := by
  obtain ⟨hc, hw, -⟩ := here_warp h
  refine ⟨?_, fun c hne => core_retire_ne s x y hne, ?_, fun v hv => ?_, _, warp_retire s x y _ hw, hp⟩
  · rfl
  · simp [retire, setWarp, modWarp, hc]
  · rw [warp_retire_ne s x y hv, hc]

/-- A word that retires its warp as it stands does what one that retires a given warp does. -/
theorem retireNow_only {s : State} {ws : List W64} {x : Here} (h : here s ws = some x) {p : Warp → Prop}
    (hp : p (retireW x.wp x.sl x.ws)) : OnlyWarp s (retireNow s x) x p := by
  obtain ⟨hc, hw, -⟩ := here_warp h
  refine ⟨rfl, fun c hne => coreOf_modCore_ne _ _ hne, ?_, fun v hv => ?_, _, ?_, hp⟩
  · simp [retireNow, modWarp, hc]
  · simp [retireNow, modWarp, tget_tmod_ne _ _ hv, hc]
  · simp [retireNow, modWarp, hw]

end Sys2Proof.Machine
end

