-- ==== Sys2Proof/Tests/Slice0.lean ====
section
/-! SUPPORT. Tests/Slice0.lean: tests of the model on fixed values.  Words are written out from the encodings of the spec;
a check refuses an ill-formed term; and for each statement of Certificates/Slice0/Obligations.lean, a small state and
operands that meet the hypotheses of its clauses, with a value that the rules give there. -/

namespace Sys2Proof.Tests

set_option Elab.async false

open Machine

/-! Helpers. -/

/-- One identity-mapped gibibyte with every permission: tables at 0x1000 and 0x2000 (R360). -/
def tables : List Host.Cell := [(9, 0x10), (0x1000, 1), (0x1001, 0x20), (0x2000, 0x1F)]

/-- A warp alone on core 0. -/
def base : State := { boot State.reset with mem := tables }

def wp0 (f : Warp → Warp) (s : State := base) : State := modWarp s 0 0 f
def co0 (f : Core → Core) (s : State := base) : State := modCore s 0 f
def blk0 (f : Block → Block) (s : State := base) : State := modBlock s 0 0 f
def path0 (f : Path → Path) (s : State := base) : State := wp0 (fun w => { w with a := f w.a }) s

/-- The word stands next on the current path. -/
def put (i : Instr) (s : State := base) : State := path0 (fun p => { p with words := encode i, first := true }) s

/-- The word runs, in a situation, with an effect. -/
def wit (i : Instr) (s : State := base) (p : Here → Bool := fun _ => true) (q : Here → State → Bool := fun _ _ => true) :
    Bool :=
  let s := put i s
  runsNow i s && match here s (encode i) with
    | some x => p x && (match exec i s with | .next t => q x t | _ => false)
    | none => false

/-- The same, with conditions on the whole state. -/
def witS (i : Instr) (s : State) (p : State → Here → Bool) (q : Here → State → Bool := fun _ _ => true) : Bool :=
  wit i s (fun x => p (put i s) x) q

/-- A step that is no word has an effect. -/
def ev (o : Host.Outcome State Fault Refusal) (q : State → Bool) : Bool := match o with | .next t => q t | _ => false

/-- The warp of a witness. -/
def w0 (t : State) : Warp := (tget (coreOf t 0).warps 0).getD {}
def c0 (t : State) : Core := coreOf t 0

def zero : Src := .reg 0
def gen (d : BitVec 8) (a : Src := zero) (b : Src := zero) (c : Src := zero) (ty : Ty := .i8) (sub : BitVec 7 := 0) : Gen :=
  { sw := false, pred := 0, d := d, a := a, b := b, c := c, ty := ty, rnd := .rn, sat := false, sub := sub }
def imm (d : BitVec 8) (v : W32) (sub : BitVec 4 := 0) (a : BitVec 8 := 0) : Imm :=
  { sw := false, pred := 0, d := d, a := a, sub := sub, imm := v }
def bra (fld : BitVec 16) (cond : BitVec 4) (target : W32) : Bra :=
  { sw := false, pred := 0, fld := fld, cond := cond, target := target }
def mem (data base : BitVec 8) (index : BitVec 8 := 0xFF) (ty : BitVec 4 := 2) (off : BitVec 24 := 0) (p : Option Pfx := none) :
    Mem := { pfx := p, sw := false, pred := 0, data := data, base := base, index := index, ty := ty, off := off }
def pfx (ord : Option Ord := none) (scope : Option Scope := none) (space : Option Space := none) : Pfx :=
  { ord := ord, scope := scope, space := space, cache := none, layer := .none }
def dec (ws : List W64) : Option (Instr × Nat) := (decode ws).toOption


/-! Decoding: the example words of the spec. -/

def mtx (d a b c : BitVec 8) (ty : BitVec 4 := 0) (opt : BitVec 6 := 0) (n : BitVec 8 := 0) : Mtx :=
  { sw := false, pred := 0, d := d, a := a, b := b, c := c, ty := ty, rnd := .rn, opt := opt, n := n }
def crw (d h b : BitVec 8) (opt : BitVec 4 := 0) : Crw := { sw := false, d := d, h := h, b := b, opt := opt }
def bat (d a : BitVec 8) (k : BitVec 4) : Bat := { sw := false, d := d, a := a, k := k }
def que (d a : BitVec 8) (q : BitVec 4) : Que := { sw := false, pred := 0, d := d, a := a, q := q }

/-- R39, R152-R158. -/
theorem test_DecodeScalarMask : ([
  dec [0x0000304050020880] == some (.sadd { gen 3 (.reg 4) (.con 5) (zero) .i32 0 with sat := true }, 1),
  dec [0x1300700012345678] == some (.smovi (imm 7 0x12345678), 1),
  dec [0x1A00301020000000] == some (.mand (gen 3 (.reg 1) (.reg 2) (zero) .i8 0), 1),
  dec [0x1900500000000000] == some (.mget (gen 5), 1)] : List Bool).all id = true := by decide +kernel

/-- R44, R160-R183. -/
theorem test_DecodeControl : ([
  dec [0x220000C300000006] == some (.brd (bra 12 3 6), 1),
  dec [0x2100900100000004] == some (.brc (bra 0x900 1 4), 1),
  dec [0x2501E00000000014] == some (.call (bra 0x1E00 0 20), 1),
  dec [0x20000000FFFFFFF8] == some (.bra (bra 0 0 0xFFFFFFF8), 1),
  dec [0x2800108140000002] == some (.spawn (gen 1 (.reg 8) (.reg 20) (zero) .i8 2), 1),
  dec [0x3300200000000003] == some (.reggrow (gen 2 (zero) (zero) (zero) .i8 3), 1),
  dec [0x2B000000F3F00000] == some (.waitcnt (gen 0 (.reg 0) (.reg 15) (.reg 63) .i8 0), 1),
  dec [0x2F0000009A3F10C2] == some (.sigchk (imm 0 0x9A3F10C2), 1),
  dec [0x3100A0B000000000] == some (.sread (gen 10 (.reg 11) (zero) (zero) .i8 0), 1),
  dec [0xEA00014060000000] == some (.qpost (gen 0 (.reg 20) (.reg 6) (zero) .i8 0), 1),
  dec [0x2700000000000000] == some (.exit (gen 0), 1)] : List Bool).all id = true := by decide +kernel

/-- R40, R184-R206. -/
theorem test_DecodeVector : ([
  dec [0x5B00200010000000] == some (.vsadd (gen 2 (.reg 0) (.reg 1) (zero) .i8 0), 1),
  dec [0x5700301000020802] == some (.vcmp (gen 3 (.reg 1) (.con 0) (zero) .i32 2), 1),
  dec [0x5A0070003F800000] == some (.vmovi (imm 7 0x3F800000), 1),
  dec [0x60A0A03050012D00] == some (.vfadd { gen 10 (.reg 3) (.sca 5) (zero) .f32 0 with sw := true, pred := 2, rnd := .rz }, 1),
  dec [0x6B0050400000380D] == some (.vcvt (gen 5 (.reg 4) (zero) (zero) .t6 13), 1),
  dec [0x63004040A321AC00] == some (.vfma (gen 4 (.reg 4) (.sca 10) (.con 0x32) .f32 0), 1),
  dec [0x5910D00000080000] == some (.vmov { gen 13 (.con 0) (zero) (zero) .i8 0 with pred := 1 }, 1),
  dec [0x8200903000000831] == some (.vred (gen 9 (.reg 3) (zero) (zero) .i32 0x31), 1),
  dec [0x8100D0B010120000] == some (.shfl (gen 13 (.reg 11) (.con 1) (.reg 1) .i8 0), 1)] : List Bool).all id = true := by decide +kernel

/-- R45-R57, R215. -/
theorem test_DecodeMemory : ([
  dec [0xA00140802B000040] == some (.vld (mem 20 8 2 11 64), 1),
  dec [0xA10040802B000000] == some (.vst (mem 4 8 2 11), 1),
  dec [0xFE00000001000000, 0xA060D25038000000] == some (.vld { mem 13 37 3 8 0 (some (pfx none none (some .scratch))) with pred := 6 }, 2),
  dec [0xFE00000054000000, 0xA00140802B000040] == some (.vld (mem 20 8 2 11 64 (some (pfx (some .acq) (some .pkg)))), 2),
  dec [0xA60060802B000000, 0xFD0C000000000000] == some (.atom (mem 6 8 2 11) { ret := 12, op := 0, rnd := .rn }, 2),
  dec [0xFE00000054000000, 0xA802808FF6000000, 0xFD292A6000000000] == some (.mwait (mem 40 8 0xFF 6 0 (some (pfx (some .acq) (some .pkg)))) { cmp := 41, tmo := 42, m := 3, cond := 0 }, 3),
  dec [0xFE000000740C0000, 0xA900000000000000] == some (.fence (mem 0 0 0 0 0 (some { pfx (some .rel) (some .pkg) with layer := .lboth })), 2),
  dec [0xFE00000014000000, 0xAA01408FF0000000] == some (.acq (mem 20 8 0xFF 0 0 (some (pfx none (some .pkg)))), 2),
  dec [0xAC01808FF0000000] == some (.bind (mem 24 8 0xFF 0), 1),
  dec [0xAD01802FF0000000] == some (.bindt (mem 24 2 0xFF 0), 1)] : List Bool).all id = true := by decide +kernel

/-- R251, R271, R281. -/
theorem test_DecodeCrewCopy : ([
  dec [0xC000C00001000000] == some (.crnew { sw := false, d := 12, h := 0, b := 0, opt := 1 }, 1),
  dec [0xC60030C002000000] == some (.crquery { sw := false, d := 3, h := 12, b := 0, opt := 2 }, 1),
  dec [0xC802808101804000, 0xFD0005FF00000000] == some (.bcopy { sw := false, tok := 0x28, sd := 8, dd := 16, sl := 24, h := 4, mem := false, rid := 5, sta := 0xFF, stv := 0 }, 2),
  dec [0xC90290810FFFF000, 0xFD00091E20000000] == some (.bcopyc { sw := false, tok := 41, sd := 8, dd := 16, sl := 0xFF, h := 0xFF, mem := false, rid := 9, sta := 30, stv := 32 }, 2),
  dec [0xCA00000003000000] == some (.bseal { sw := false, d := 0, a := 0, k := 3 }, 1),
  dec [0xCD00607000000000] == some (.bcancel { sw := false, d := 6, a := 7, k := 0 }, 1)] : List Bool).all id = true := by decide +kernel

/-- R297, R328. -/
theorem test_DecodeMatrixQueue : ([
  dec [0xD000400080000004] == some (.tclaim (mtx 4 0 8 0 0 0 4), 1),
  dec [0xD2002080A00D0100] == some (.tload (mtx 2 8 10 0 13 1), 1),
  dec [0xD4000020300D0000] == some (.mma (mtx 0 2 3 0 13), 1),
  dec [0xD5001040800D0100] == some (.mmasp (mtx 1 4 8 0 13 1), 1),
  dec [0xD6000100004D0100] == some (.mloop (mtx 0 16 0 4 13 1), 1),
  dec [0xE00000A800000000] == some (.qpush { sw := false, pred := 0, d := 0, a := 10, q := 8 }, 1)] : List Bool).all id = true := by decide +kernel

/-- R40-R42: a field, a kind, a type, a rounding, SAT or SUB that the form does not admit. -/
theorem test_IllFormedGeneric : ([
  !Instr.wf (.sadd { gen 64 with ty := .i32 }),
  !Instr.wf (.sadd (gen 3)),
  !Instr.wf (.sadd { gen 3 (.sca 1) with ty := .i32 }),
  !Instr.wf (.sadd { gen 3 with ty := .i32, rnd := .rz }),
  !Instr.wf (.smul { gen 3 with ty := .i32, sat := true }),
  !Instr.wf (.scmp { gen 3 with ty := .i32, sub := 6 }),
  !Instr.wf (.snot { gen 3 with b := .reg 1 }),
  !Instr.wf (.sand { gen 3 with pred := 1 }),
  !Instr.wf (.sadd64 { gen 3 with ty := .i64 }),
  !Instr.wf (.mset (gen 0)),
  !Instr.wf (.mand (gen 1 (.reg 8))),
  !Instr.wf (.jmpi (gen 0 (.reg 3))),
  !Instr.wf (.waitcnt (gen 0 (.reg 32))),
  !Instr.wf (.spawn (gen 1 (.reg 4) (.reg 20) zero .i8 2)),
  !Instr.wf (.spawn (gen 1 (.reg 8) (.reg 20))),
  !Instr.wf (.reggrow (gen 2)),
  !Instr.wf (.sread (gen 3 (.reg 0x18))),
  !Instr.wf (.sread (gen 3 (.reg 0x0B))),
  !Instr.wf (.swrite (gen 0x0E (.reg 1))),
  !Instr.wf (.vadd64 { gen 3 with ty := .i64 }),
  !Instr.wf (.vfmin { gen 3 with ty := .f32, rnd := .rz }),
  !Instr.wf (.vfma { gen 2 (.reg 1) with ty := .f32, sat := true }),
  !Instr.wf (.vsfu { gen 3 with ty := .f32, rnd := .rz }),
  !Instr.wf (.vcvt (gen 3 zero zero zero .i32 2)),
  !Instr.wf (.vexpr (gen 3 zero zero zero .f32 1) { w0 := 0, w1 := none }),
  !Instr.wf (.vote (gen 3 (.reg 1) zero (.reg 5))),
  !Instr.wf (.vred (gen 3 (.reg 1) zero (.reg 3) .f32)),
  !Instr.wf (.s2v (gen 3 (.reg 1) (.con 32))),
  !Instr.wf (.v2s (gen 3 (.reg 1) (.con 32))),
  !Instr.wf (.pmread (gen 2 (.reg 8))),
  !Instr.wf (.qpost (gen 0 (.reg 3) (.reg 1)))] : List Bool).all id = true := by decide +kernel

/-- R43-R46, R215, R251, R271, R281, R297, R328, and events that name nothing. -/
theorem test_IllFormedOthers : ([
  !Instr.wf (.smovi (imm 64 0)),
  !Instr.wf (.sldk (imm 3 0 1)),
  !Instr.wf (.bra (bra 1 0 0)),
  !Instr.wf (.brc (bra 0x4000 0 0)),
  !Instr.wf (.brc (bra 0 6 0)),
  !Instr.wf (.call (bra 0x100 0 0)),
  !Instr.wf (.sigchk (imm 1 0)),
  !Instr.wf (.vmovi (imm 1 0 1)),
  !Instr.wf (.vld (mem 3 8 0xFF 3)),
  !Instr.wf (.vldx (mem 2 8 0xFF 8)),
  !Instr.wf (.sld (mem 3 8 2 2)),
  !Instr.wf (.vst (mem 3 64)),
  !Instr.wf (.atom (mem 6 8 2 0) { ret := 0xFF, op := 0, rnd := .rn }),
  !Instr.wf (.atomcas (mem 6 8 2 2) { ret := 0xFF, cmp := 0 }),
  !Instr.wf (.mwait (mem 6 8 0xFF 6) { cmp := 1, tmo := 1, m := 0, cond := 0 }),
  !Instr.wf (.fence (mem 1 0 0 0)),
  !Instr.wf (.acq (mem 3 8 0xFF 0)),
  !Instr.wf (.bind (mem 2 8 0xFF 0)),
  !Instr.wf (.unbind (mem 4 8 0xFF 0)),
  !Instr.wf (.cinv (mem 4 7 0xFF 0)),
  !Instr.wf (.cwb (mem 4 8 0xFF 2)),
  !Instr.wf (.alloc (mem 3 8 0xFF 0)),
  !Instr.wf (.crnew (crw 64 0 0)),
  !Instr.wf (.crjoin (crw 1 2 0)),
  !Instr.wf (.crquery (crw 1 2 0 5)),
  !Instr.wf (.bcopy { sw := false, tok := 64, sd := 8, dd := 16, sl := 0xFF, h := 0xFF, mem := false, rid := 0, sta := 0xFF, stv := 0 }),
  !Instr.wf (.bcopyc { sw := false, tok := 1, sd := 8, dd := 16, sl := 0xFF, h := 0xFF, mem := false, rid := 0, sta := 0xFF, stv := 0 }),
  !Instr.wf (.bcopy { sw := false, tok := 1, sd := 4, dd := 16, sl := 0xFF, h := 0xFF, mem := false, rid := 0, sta := 0xFF, stv := 0 }),
  !Instr.wf (.bseal (bat 0 0 8)),
  !Instr.wf (.bquery (bat 5 0 4)),
  !Instr.wf (.tclaim (mtx 4 0 61 0 0 0 4)),
  !Instr.wf (.tload (mtx 2 9 10 0 13 1)),
  !Instr.wf (.tloads (mtx 2 12 0 0 0 0 4)),
  !Instr.wf (.mma (mtx 0 2 3 0 2)),
  !Instr.wf (.mmasp (mtx 0 4 62 0 13 1)),
  !Instr.wf (.mloop (mtx 0 4 0 4 13 0)),
  !Instr.wf (.mtopk (mtx 0 0 1 0 11 0 1)),
  !Instr.wf (.czero (mtx 95 0 0 0 0 0 2)),
  !Instr.wf (.cload (mtx 0 8 1 0 13 1)),
  !Instr.wf (.cstore (mtx 0 8 1 96 2 1)),
  !Instr.wf (.cpop (mtx 0 0 0 0 0 0 3)),
  !Instr.wf (.msync (mtx 64 0 0 0)),
  !Instr.wf (.qpush (que 1 0 8)),
  !Instr.wf (.qpop (que 1 1 1)),
  !Instr.wf (.qcount (que 1 0 3)),
  !Instr.wf (.enginePerform 1024),
  !Instr.wf (.contextSave 0 4),
  !Instr.wf (.copyStart 64),
  !Instr.wf (.migrate 32 0),
  !Instr.wf (.rds 63 0),
  !Instr.wf (.sliceGate 256),
  !Instr.wf (.queueEnable 8 0),
  !Instr.wf (.blockPlace 64),
  !Instr.wf (.clockChange 426),
  !Instr.wf (.partCreate .management 3 0),
  !Instr.wf (.agentAssign .management 63 0),
  !Instr.wf (.winSeal .management 64 0),
  !Instr.wf (.ideIntegrityFail 9),
  !Instr.wf (.flitCrcFail 16)] : List Bool).all id = true := by decide +kernel

/-! Registers. -/

/-- Sources that suit the unary forms. -/
def un (ty : Ty := .i8) : Gen := gen 3 (.reg 1) zero zero ty
def bi (ty : Ty := .i8) (sub : BitVec 7 := 0) : Gen := gen 3 (.reg 1) (.reg 2) zero ty sub
/-- Scalars 1 and 2 hold these values. -/
def sc12 (a b : W32) : State := wp0 fun w => sset (sset w 1 a) 2 b
/-- Lane 0 of vector registers 1 and 2 holds these values, and lane 0 alone executes. -/
def v12 (a b : W32) : State := path0 (fun p => { p with mask := 1 }) (wp0 fun w => vset (vset w 1 0 a) 2 0 b)
def s3 (v : W32) : Here → State → Bool := fun _ t => sget (w0 t) 3 == v
def v3 (v : W32) : Here → State → Bool := fun _ t => vget (w0 t) 3 0 == v
def m3 (v : W32) : Here → State → Bool := fun _ t => mget (w0 t) .a 3 == v
def yes : Here → Bool := fun _ => true
/-- Lanes 0 and 1 execute; vector register 1 holds 0 and 9 there. -/
def lanes3 : State := path0 (fun p => { p with mask := 3 }) (wp0 fun w => sset (vset w 1 1 9) 2 5)
/-- A cross-lane word with members m2. -/
def member : Gen := gen 3 (.reg 1) (.con 1) zero .i8 2
/-- The other path holds lane 2, a member, at an address. -/
def other3 (pc : W64) : State := wp0 (fun w => { mset w 2 4 with
  b := { st := .live, pc := pc, mask := 4, words := encode (.v2s member), first := true } }) lanes3
def mode3 (s : State) (m : XMode) (x : Here) : Bool := x.p.first && crossMode (put (.v2s member) s) x member == m

/-- R153-R155 by hand. -/
theorem test_ScalarResults : ([
  wit (.sadd { bi .i32 with sat := true }) (sc12 0x7FFFFFFF 1) yes (s3 0x7FFFFFFF),
  wit (.sadd (bi .n32)) (sc12 0xFFFFFFFF 2) yes (s3 1),
  wit (.ssub { bi .n32 with sat := true }) (sc12 1 2) yes (s3 0),
  wit (.smul (bi .i32)) (sc12 0xFFFFFFFF 3) yes (s3 0xFFFFFFFD),
  wit (.smulhi (bi .i32)) (sc12 0xFFFFFFFF 3) yes (s3 0xFFFFFFFF),
  wit (.smulhi (bi .n32)) (sc12 0xFFFFFFFF 3) yes (s3 2),
  wit (.smin (bi .i32)) (sc12 0x80000000 1) yes (s3 0x80000000),
  wit (.smax (bi .n32)) (sc12 0x80000000 1) yes (s3 0x80000000),
  wit (.sand bi) (sc12 12 10) yes (s3 8),
  wit (.sor bi) (sc12 12 10) yes (s3 14),
  wit (.sxor bi) (sc12 12 10) yes (s3 6),
  wit (.sshl bi) (sc12 3 33) yes (s3 6),
  wit (.sshr bi) (sc12 0x80000000 31) yes (s3 1),
  wit (.ssar bi) (sc12 0x80000000 31) yes (s3 0xFFFFFFFF),
  wit (.snot un) (sc12 0 0) yes (s3 0xFFFFFFFF),
  wit (.spopc un) (sc12 0xF0F 0) yes (s3 8),
  wit (.sclz un) (sc12 1 0) yes (s3 31),
  wit (.sclz un) (sc12 0 0) yes (s3 32),
  wit (.scmp (bi .i32 2)) (sc12 0xFFFFFFFF 0) yes (s3 1),
  wit (.scmp (bi .n32 2)) (sc12 0xFFFFFFFF 0) yes (s3 0),
  wit (.scmp (bi .n32 5)) (sc12 4 4) yes (s3 1),
  wit (.ssel { bi with c := .con 1 }) (sc12 7 8) yes (s3 7),
  wit (.smov un) (sc12 9 0) yes (s3 9),
  wit (.smovi (imm 3 0x12345678)) base yes (s3 0x12345678),
  wit (.sadd64 (gen 4 (.reg 0) (.con 1) zero .n64)) (wp0 fun w => sset w 0 0xFFFFFFFF) yes
      fun _ t => sget64 (w0 t) 4 == 0x100000000,
  wit (.sbfe { bi .i32 with c := .con 4 }) (sc12 0xF0 4) yes (s3 0xFFFFFFFF),
  wit (.sbfe { bi .n32 with c := .con 16 }) (sc12 0xF0 4) yes (s3 15)] : List Bool).all id = true := by decide +kernel

/-- R157, R158: m0 is the mask of the path. -/
theorem test_MaskResults : ([
  wit (.mset (gen 3 (.con 6))) base yes (m3 6),
  wit (.mget (gen 3 zero)) base yes (s3 0xFFFFFFFF),
  wit (.mand (gen 3 zero (.reg 2))) (wp0 fun w => mset w 2 12) yes (m3 12),
  wit (.mor (gen 3 (.reg 1) (.reg 2))) (wp0 fun w => mset (mset w 1 3) 2 12) yes (m3 15),
  wit (.mxor (gen 3 zero (.reg 2))) (wp0 fun w => mset w 2 12) yes (m3 0xFFFFFFF3),
  wit (.mandn (gen 3 zero (.reg 2))) (wp0 fun w => mset w 2 12) yes (m3 0xFFFFFFF3),
  wit (.mpop (gen 3 zero)) base yes (s3 32),
  wit (.mfind (gen 3 (.reg 2))) (wp0 fun w => mset w 2 12) yes (s3 2),
  wit (.mfind (gen 3 (.reg 2) zero zero .i8 1)) (wp0 fun w => mset w 2 12) yes (s3 3),
  wit (.mfind (gen 3 (.reg 2))) base yes (s3 32)] : List Bool).all id = true := by decide +kernel

/-- R187-R190 by hand. -/
theorem test_VectorIntegerResults : ([
  wit (.vadd { bi .i32 with sat := true }) (v12 0x7FFFFFFF 1) yes (v3 0x7FFFFFFF),
  wit (.vsub (bi .n32)) (v12 0 1) yes (v3 0xFFFFFFFF),
  wit (.vmul (bi .n32)) (v12 0x10000 0x10000) yes (v3 0),
  wit (.vmulhi (bi .n32)) (v12 0x10000 0x10000) yes (v3 1),
  wit (.vmad { bi .i32 with c := .con 5 }) (v12 3 4) yes (v3 17),
  wit (.vmin (bi .i32)) (v12 0x80000000 1) yes (v3 0x80000000),
  wit (.vmax (bi .i32)) (v12 0x80000000 1) yes (v3 1),
  wit (.vabs { un .i32 with sat := true }) (v12 0x80000000 0) yes (v3 0x7FFFFFFF),
  wit (.vand bi) (v12 12 10) yes (v3 8),
  wit (.vor bi) (v12 12 10) yes (v3 14),
  wit (.vxor bi) (v12 12 10) yes (v3 6),
  wit (.vnot un) (v12 0 0) yes (v3 0xFFFFFFFF),
  wit (.vshl bi) (v12 1 32) yes (v3 1),
  wit (.vshr bi) (v12 0x80000000 31) yes (v3 1),
  wit (.vsar bi) (v12 0x80000000 31) yes (v3 0xFFFFFFFF),
  wit (.vbfe { bi .n32 with c := .con 4 }) (v12 0xF0 4) yes (v3 15),
  wit (.vpopc un) (v12 7 0) yes (v3 3),
  wit (.vclz un) (v12 1 0) yes (v3 31),
  wit (.vbrev un) (v12 1 0) yes (v3 0x80000000),
  wit (.vsel { bi with c := zero }) (v12 5 6) yes (v3 5),
  wit (.vmov un) (v12 9 0) yes (v3 9),
  wit (.vmovi (imm 3 77)) base yes (v3 77)] : List Bool).all id = true := by decide +kernel

/-- R188-R192, R194 by hand. -/
theorem test_VectorFieldAndConditionResults : ([
  wit (.vbfi { bi with c := .sca 4 }) (v12 0xFF 0) yes (v3 0),
  wit (.vbfi { bi with c := .sca 4 }) (wp0 (fun w => sset w 4 0x404) (v12 0xFF 0)) yes (v3 0xF0),
  wit (.vperm { bi with c := .sca 4 }) (wp0 (fun w => sset w 4 0x8C40) (v12 0x80 0x90)) yes (v3 0xFFFF9080),
  wit (.vsadd (bi .n8 1)) (v12 0x0203 0x0301) yes (v3 2),
  wit (.vadd64 { gen 4 (.reg 0) (.reg 2) zero .n64 with sat := true }) (wp0
      (fun w => vset (vset w 1 0 0xFFFFFFFF) 0 0 0xFFFFFFFF) (v12 0xFFFFFFFF 1)) yes
      fun _ t => vget64 (w0 t) 4 0 == 0xFFFFFFFFFFFFFFFF,
  wit (.vcmp (bi .i32 2)) (v12 0xFFFFFFFF 0) yes (m3 1),
  wit (.vfcmp (bi .f32 2)) (v12 0x3F800000 0x7FC00000) yes (m3 0),
  wit (.vaddc { bi with c := .reg 4 }) (wp0 (fun w => mset w 4 1) (v12 0xFFFFFFFF 0)) yes
      fun _ t => vget (w0 t) 3 0 == 0 && mget (w0 t) .a 4 == 1,
  wit (.vaddc { bi with c := .reg 4, sub := 1 }) (wp0 (fun w => mset w 4 1) (v12 0 0)) yes
      fun _ t => vget (w0 t) 3 0 == 0xFFFFFFFF && mget (w0 t) .a 4 == 1] : List Bool).all id = true := by decide +kernel

/-- The program `x0 END` (R206). -/
def exprX0 : BitVec 56 := 0x08000000000000

/-- R193-R206 by hand. -/
theorem test_VectorFloatResults : ([
  wit (.vfadd (bi .f32)) (v12 0x3F800000 0x3F800000) yes (v3 0x40000000),
  wit (.vfsub (bi .f32)) (v12 0x3F800000 0x3F800000) yes (v3 0),
  wit (.vfmul (bi .f32)) (v12 0x40000000 0x40400000) yes (v3 0x40C00000),
  wit (.vfma { bi .f32 with c := .con 0 }) (v12 0x40000000 0x40400000) yes (v3 0x40C00000),
  wit (.vfmin (bi .f32)) (v12 0x3F800000 0x40000000) yes (v3 0x3F800000),
  wit (.vfmax (bi .f32)) (v12 0x3F800000 0x40000000) yes (v3 0x40000000),
  wit (.vfclass (un .f32)) (v12 0x7F800000 0),
  wit (.vfrnd { un .f32 with rnd := .ru }) (v12 0x3FC00000 0) yes (v3 0x40000000),
  wit (.vfdiv (bi .f32)) (v12 0x3F800000 0x40000000) yes (v3 0x3F000000),
  wit (.vh2add (bi .f16)) (v12 0x3C003C00 0x3C003C00) yes (v3 0x40004000),
  wit (.vh2mul (bi .f16)) (v12 0x40004000 0x40004000) yes (v3 0x44004400),
  wit (.vh2fma { bi .f16 with c := zero }) (v12 0x40004000 0x40004000) yes (v3 0x44004400),
  wit (.vdot2 { bi .f16 with c := zero }) (v12 0x3C003C00 0x3C003C00) yes (v3 0x40000000),
  wit (.vdadd (gen 4 (.reg 0) (.reg 0))) (v12 0x3FF00000 0) yes fun _ t => vget64 (w0 t) 4 0 == 0x4000000000000000,
  wit (.vdmul (gen 4 (.reg 0) (.reg 0))) (v12 0x40000000 0) yes fun _ t => vget64 (w0 t) 4 0 == 0x4010000000000000,
  wit (.vdfma (gen 4 (.reg 0) (.reg 0) (.reg 2))) (v12 0x40000000 0) yes
      fun _ t => vget64 (w0 t) 4 0 == 0x4010000000000000,
  wit (.vsfu (un .f32)) (v12 0x3F800000 0),
  wit (.vcvt (gen 3 (.reg 1) zero zero .i32 11)) (v12 0xC0000000 0) yes (v3 0xFFFFFFFE),
  wit (.vexpr (gen 3 (.reg 1) (.reg 2) (.reg 0) .f32) { w0 := 0x082180C5300000, w1 := none }) (v12 0x3F800000 0x40000000),
  wit (.vexpr (gen 3 (.reg 1) zero zero .f32) { w0 := exprX0, w1 := none }) (v12 0xFFC00001 0) yes (v3 0x7FC00000)] : List Bool).all id = true := by decide +kernel

/-- R207-R213: two lanes, and the states of the other path (R209). -/
theorem test_CrossLaneResults : ([
  wit (.vote { gen 3 (.reg 1) with c := .reg 0 }) lanes3 yes fun _ t => sget (w0 t) 3 == 2,
  wit (.vote { gen 3 (.reg 1) with c := .reg 1 }) lanes3 yes fun _ t => sget (w0 t) 3 == 1,
  wit (.vote { gen 3 (.reg 1) with c := .reg 2 }) lanes3 yes fun _ t => sget (w0 t) 3 == 1,
  wit (.vote { gen 3 (.reg 1) with c := .reg 3 }) lanes3 yes fun _ t => sget (w0 t) 3 == 0,
  wit (.vote { gen 3 (.reg 1) with c := .reg 4 }) lanes3 yes fun _ t => sget (w0 t) 3 == 0,
  wit (.shfl { gen 3 (.reg 1) (.con 1) with c := .reg 3 }) lanes3 yes fun _ t => vget (w0 t) 3 0 == 9,
  wit (.shfl { gen 3 (.reg 1) (.con 1) with c := .reg 1 }) lanes3 yes fun _ t => vget (w0 t) 3 1 == 0,
  wit (.shfl { gen 3 (.reg 1) (.con 1) with c := .reg 2 }) lanes3 yes fun _ t => vget (w0 t) 3 0 == 9,
  wit (.shfl { gen 3 (.reg 1) (.con 31) with c := .reg 0 }) lanes3 yes fun _ t => vget (w0 t) 3 1 == 9,
  wit (.vred { gen 3 (.reg 1) with c := .reg 0, ty := .i32 }) lanes3 yes fun _ t => vget (w0 t) 3 1 == 9,
  wit (.vscan { gen 3 (.reg 1) with c := .reg 0, ty := .i32 }) lanes3 yes fun _ t => vget (w0 t) 3 0 == 0 &&
      vget (w0 t) 3 1 == 9,
  wit (.vscan { gen 3 (.reg 1) with c := .reg 0, ty := .i32, sub := 0x40 }) lanes3 yes fun _ t => vget (w0 t) 3 1 == 0,
  wit (.matchl { gen 3 (.reg 1) with ty := .b32 }) lanes3 yes fun _ t => vget (w0 t) 3 1 == 2,
  wit (.v2s { gen 3 (.reg 1) (.con 1) with sub := 0 }) lanes3 yes fun _ t => sget (w0 t) 3 == 9,
  wit (.vcompact (gen 3 (.reg 1) (.reg 1))) lanes3 yes fun _ t => vget (w0 t) 3 0 == 9 && vget (w0 t) 3 1 == 0,
  wit (.s2v (gen 3 (.sca 2) (.con 1))) lanes3 yes fun _ t => vget (w0 t) 3 1 == 5,
  wit (.v2s member) lanes3 (mode3 lanes3 (.alone false)) fun _ t => sget (w0 t) 3 == 9,
  wit (.v2s member) (other3 8) (mode3 (other3 8) .joint) fun _ t => sget (w0 t) 3 == 9 && (w0 t).b.pc == 16 &&
      (w0 t).a.pc == 16,
  wit (.v2s member) (other3 16) (mode3 (other3 16) (.wait 4)) fun _ t => (w0 t).a.wait == .cross 4,
  ev (exec (.v2s member) (path0 (fun p => { p with first := false }) (put (.v2s member) lanes3)))
      fun t => (w0 t).heldTrap.isSome || (c0 t).warps.isEmpty] : List Bool).all id = true := by decide +kernel

/-! Control words. -/

def sregs (l : List (Nat × W32)) : State := wp0 fun w => l.foldl (fun w p => sset w p.1 p.2) w
def pcIs (v : W64) : Here → State → Bool := fun _ t => (w0 t).a.pc == v && (w0 t).a.words.isEmpty
def trapIs (c : FClass) (t : State) : Bool :=
  match (w0 t).heldTrap with | some (_, y) => y.cls == c | none => (c0 t).warps.isEmpty
def traps (c : FClass) : Here → State → Bool := fun _ t => trapIs c t
/-- The handler is at 0x4000: a trap is delivered there. -/
def vec : State := co0 fun c => { c with trapvec := 0x4000 }
/-- Within a handler entered at stack depth 0. -/
def inHandler : State := wp0 fun w => { w with handler := some (.a, 0), handlerFrame := 0x8000 }
/-- What a trap delivered at once leaves: the path at the handler. -/
def entered : Here → State → Bool := fun _ t => (w0 t).a.pc == 0x4000 && (w0 t).handler == some (.a, 0) && (w0 t).a.rpc == none
def deep (n : Nat) : State := wp0 fun w =>
  { w with m := [(1, 3)], b := { st := .live, pc := 64, mask := 0 },
           stack := List.replicate n { kind := .pending, mask := 1, rpc := none, pc := 0 } }
/-- Every warp context of the core is in use. -/
def full : State := co0 fun c => { c with warps := (List.range 48).map fun k => (k, { bootWarp with granules := [0] }) }
/-- The block's scratch takes the whole pool. -/
def noPool (s : State := base) : State := blk0 (fun b => { b with scratchGran := 192 }) s
/-- A trap held by the warp. -/
def held (t : Trap) : State := wp0 (fun w => { w with heldTrap := some (.a, t), b := { st := .live, pc := 80, mask := 0 } }) vec

/-- R160-R162: the target counts words from the branch; CALL saves the next header. -/
theorem test_TransfersMoveTheIssuingPath : ([
  wit (.bra (bra 0 0 0xFFFFFFFF)) base yes (pcIs 0),
  wit (.brc (bra 0x900 1 4)) (sregs [(9, 1)]) yes (pcIs 40),
  wit (.brc (bra 0x900 1 4)) base yes (pcIs 16),
  wit (.brc (bra 0x900 2 4)) (sregs [(9, 0x80000000)]) yes (pcIs 40),
  wit (.brc (bra 0x900 5 4)) base yes (pcIs 40),
  wit (.call (bra 0x1E00 0 20)) base yes fun x t => pcIs 168 x t && sget64 (w0 t) 30 == 16,
  wit (.jmpi (gen 0 (.reg 4))) (sregs [(4, 0x4000)])
      (fun x => badTarget (pairOfSrc x.wp (.reg 4)) == false) (pcIs 0x4000),
  wit (.jmpi (gen 0 (.reg 4))) (sregs [(4, 4)]) (fun x => badTarget (pairOfSrc x.wp (.reg 4))),
  wit (.ret (gen 0 (.reg 4))) (sregs [(4, 0x4000)])
      (fun x => badTarget (pairOfSrc x.wp (.reg 4)) == false) (pcIs 0x4000),
  wit (.ret (gen 0 (.reg 4))) (sregs [(5, 0x10000)]) (fun x => badTarget (pairOfSrc x.wp (.reg 4))),
  wit (.reconv (gen 0)) base yes (pcIs 16),
  wit (.reconv (gen 0)) (path0 fun p => { p with rpc := some 0x80 }) yes fun _ t => (w0 t).a.pc == 0x80 &&
      (w0 t).a.rpc == none] : List Bool).all id = true := by decide +kernel

/-- R138, R142, R161: none taken, all taken, a split with the other slot free and in use, and a full stack. -/
theorem test_DivergentBranchSplits : ([
  wit (.brd (bra 12 3 6)) base yes (pcIs 16),
  wit (.brd (bra 12 11 6)) base yes (pcIs 56),
  wit (.brd (bra 12 3 6)) (wp0 fun w => { w with m := [(3, 0xFF)] }) yes fun _ t => (w0 t).a.pc == 56 &&
      (w0 t).a.mask == 0xFF && (w0 t).b.pc == 16 && (w0 t).b.mask == 0xFFFFFF00 && (w0 t).a.rpc == some 104 &&
      (w0 t).b.rpc == some 104 && (w0 t).stack.length == 1,
  wit (.brd (bra 12 1 6)) (deep 30) (fun x => x.wp.stack.length + 2 ≤ 32) fun _ t => (w0 t).stack.length == 32,
  wit (.brd (bra 12 1 6)) (deep 31) (fun x => x.wp.stack.length + 2 > 32)] : List Bool).all id = true := by decide +kernel

/-- Lane 0 issues, beside another slot and a stack. -/
def lane0 (b : Path) (stack : List StackEntry := []) : State :=
  wp0 fun w => { w with a := { w.a with mask := 1 }, b := b, stack := stack }
/-- Lane 1 at another address, in that other slot. -/
def other1 (st : PState) (rpc : Option W64 := none) : Path := { st := st, pc := 64, mask := 2, rpc := rpc }

/-- R141, R163, R178: alone, in the handler, and beside a live path, a pending side and a held path. -/
theorem test_ExitEndsItsLanes : ([
  wit (.exit (gen 0)) base yes fun _ t => (w0 t).exited == 0xFFFFFFFF && warpOver (w0 t),
  wit (.exit (gen 0)) inHandler yes fun _ t => (w0 t).handler.isNone && warpOver (w0 t),
  wit (.exit (gen 0)) (lane0 (other1 .live)) yes fun _ t => (w0 t).a.st == .empty && (w0 t).b == other1 .live,
  wit (.exit (gen 0)) (lane0 {} [{ kind := .pending, mask := 3, rpc := none, pc := 0x80 }]) yes fun _ t =>
      (w0 t).a.pc == 0x80 && (w0 t).a.mask == 2 && (w0 t).stack.isEmpty,
  wit (.exit (gen 0)) (lane0 (other1 .held (some 64))) yes fun _ t => (w0 t).a.st == .empty &&
      (w0 t).b == other1 .live] : List Bool).all id = true := by decide +kernel

/-- R164: a place with one warp on the core; none with all granules taken. -/
theorem test_SpawnCreatesWarpOrWritesZero : ([
  wit (.spawn (gen 1 (.reg 8) (.reg 20) zero .i8 2)) (sregs [(8, 5), (20, 0x4000)]) (fun x => spawnReady base x &&
      (spawnPlace x 2).isSome) fun _ t => mget (w0 t) .a 1 == 0xFFFFFFFF && (c0 t).warps.length == 2,
  wit (.spawn (gen 1 (.reg 8) (.reg 20) zero .i8 2)) full (fun x => spawnReady full x && (spawnPlace x 2).isNone)
      fun _ t => mget (w0 t) .a 1 == 0 && (c0 t).warps.length == 48] : List Bool).all id = true := by decide +kernel

/-- Four warps of the pipe are active, and a fifth is ready. -/
def crowd : State := co0 fun c => { c with warps := [(0, bootWarp), (1, bootWarp), (2, bootWarp), (3, bootWarp),
  (4, { bootWarp with active := false, a := { bootWarp.a with words := encode (.nop (gen 0)) } })] }

/-- R168-R173. -/
theorem test_WaitingAndSignatureWords : ([
  wit (.nop (gen 0)) base yes fun _ t => (w0 t).a.pc == 16,
  wit (.waitcnt (gen 0)) base (fun x => memOut x.co x.w x.wp == 0 && tokOut base x.core x.w == 0)
      fun _ t => (w0 t).a.pc == 16,
  wit (.waitcnt (gen 0 (.reg 31) (.reg 15) (.reg 63))) base yes fun _ t => (w0 t).a.pc == 16,
  wit (.sleep (gen 0 (.con 5))) base (fun x => scaVal x.wp (.con 5) != 0) fun _ t => (w0 t).a.wait == .sleep 5,
  wit (.sleep (gen 0 (.con 0))) base yes fun _ t => (w0 t).a.wait == .none && (w0 t).a.pc == 16,
  wit (.waitcnt (gen 0)) (co0 fun c => { c with ops := [{ id := 1, warp := 0, slot := .a, dest := .none, ty := .i32, left := 1 }] })
      (fun x => memOut x.co x.w x.wp == 1) fun _ t => (w0 t).a.pc == 8,
  wit (.waitcnt (gen 0 (.reg 31) (.reg 15))) (path0 fun p => { p with push := true }) (fun x => engOut x.wp == 1)
      fun _ t => (w0 t).a.pc == 16,
  wit (.yield (gen 0)) base yes fun _ t => (w0 t).active && (w0 t).yielded,
  wit (.yield (gen 0)) crowd (fun x => warpReady crowd x.core 4 ((tget x.co.warps 4).getD {})) fun _ t => !(w0 t).active,
  wit (.sigrst (gen 0)) (wp0 fun w => { w with sigs := 1, sigd := 2 }) (fun x => oneSlot x.wp)
      fun _ t => (w0 t).sigs == 0xFFFFFFFF && (w0 t).sigd == 0,
  wit (.sigrst (gen 0)) (wp0 (fun w => { w with sigs := 1 }) (deep 0)) (fun x => oneSlot x.wp == false)
      fun _ t => (w0 t).sigs == 1,
  wit (.sigchk (imm 0 0xFFFFFFFF)) base (fun x => x.wp.sigs == 0xFFFFFFFF) fun _ t => (w0 t).a.pc == 16,
  wit (.sigchk (imm 0 5)) (deep 0) (fun x => oneSlot x.wp == false) fun _ t => (w0 t).a.pc == 16,
  wit (.sigchk (imm 0 5)) base (fun x => x.wp.sigs != 5 && oneSlot x.wp)] : List Bool).all id = true := by decide +kernel

/-- R165, R167. -/
theorem test_WindowGrowsAndShrinks : ([
  wit (.reggrow (gen 2 zero zero zero .i8 1)) base (fun x => x.wp.grow.isNone && x.wp.granules.length + 1 > 32)
      fun _ t => mget (w0 t) .a 2 == 0 && (w0 t).a.pc == 16,
  wit (.reggrow (gen 2 zero zero zero .i8 1)) (wp0 fun w => { w with granules := [5, 0] })
      (fun x => x.wp.granules.length + 1 ≤ 32 && x.co.warps.all (fun p => p.2.grow.isNone) &&
      1 ≤ (freeGranules x.co).length) fun x t => (w0 t).grow.isNone &&
      (w0 t).granules == x.wp.granules ++ (freeGranules x.co).take 1 && mget (w0 t) .a 2 == 0xFFFFFFFF,
  wit (.reggrow (gen 2 zero zero zero .i8 1)) (wp0 fun w => { w with granules := [0], grow := some (1, 3, 1, .b, 0) }) yes
      fun _ t => (w0 t).a.pc == 8,
  wit (.reggrow (gen 2 zero zero zero .i8 1)) (noPool (wp0 fun w => { w with granules := [0] })) (fun x => x.wp.granules.length + 1 ≤ 32 &&
      x.co.warps.all (fun p => p.2.grow.isNone) && (freeGranules x.co).length == 0) fun _ t => (w0 t).a.wait == .grow &&
      (w0 t).grow.isSome && !(w0 t).active,
  wit (.regshrink (gen 0 zero zero zero .i8 1)) (wp0 fun w => { w with granules := [0, 1], pend := [8] }) yes
      fun _ t => (w0 t).granules == [0, 1],
  wit (.regshrink (gen 0 zero zero zero .i8 31)) (wp0 fun w => { w with granules := List.range 31 }) yes,
  wit (.regshrink (gen 0 zero zero zero .i8 31)) base (fun x => 31 < x.wp.granules.length)
      fun _ t => (w0 t).granules == [0]] : List Bool).all id = true := by decide +kernel

/-- Counts of every kind, and a launch that waits for its shape. -/
def counted : State :=
  { co0 (fun c => { c with l1Hits := 7, l1Misses := 8, growTime := 16000, stallTime := 1600, copies := 9, macs := 4096 * 5 })
      (wp0 fun w => { w with issued := 11 }) with arith := 3200 }
def unshaped : State := { base with launches := [(0, { ctx := 0, part := 0, queue := 0, index := 0, number := 0, gx := 0, gy := 0, gz := 0, g := 1, pairs := false, subs := [], sharedBank := false, first := 0, count := 1, arena := 0, faillog := 0, failcap := 0, total := 1, resolved := false })] }

/-- R129, R174, R175, R182. -/
theorem test_SpecialRegistersAndCounts : ([
  wit (.sread (gen 10 (.reg 11))) { base with clock := 0x123456789 } yes fun _ t => sget64 (w0 t) 10 == 0x123456789,
  wit (.sread (gen 3 (.reg 13))) base yes fun _ t => sget (w0 t) 3 == 0x269,
  wit (.sread (gen 3 zero zero zero .i8 1)) base yes fun _ t => vget (w0 t) 3 31 == 31,
  wit (.sread (gen 3 (.reg 0x0E) zero zero .i8 1)) (path0 fun p => { p with mask := 1 }) yes
      fun _ t => vget (w0 t) 3 0 != 0 && vget (w0 t) 3 1 == 0,
  wit (.sread (gen 4 (.reg 16) zero zero .i8 1)) vec yes fun _ t => vget (w0 t) 4 5 == 0x4000 && vget (w0 t) 5 5 == 0,
  wit (.sread (gen 3 (.reg 9) zero zero .i8 2)) unshaped yes fun _ t => (w0 t).pend == [259],
  wit (.swrite (gen 0x12 (.con 1))) (wp0 fun w => { w with poisonat := 0x21 }) yes fun _ t => (w0 t).poisonat == 0x20,
  wit (.swrite (gen 0x0D (.con 0))) base (fun x => memdefOk (scaVal x.wp (.con 0)) == false),
  wit (.swrite (gen 0x10 (.con 1))) base (fun x => badTarget (scaVal64 x.wp (.con 1))),
  wit (.swrite (gen 0x0D (.reg 4))) (sregs [(4, 0x26A)]) (fun x => memdefOk (scaVal x.wp (.reg 4)) &&
      usable base 0 true) fun _ t => (c0 t).memdef == 0x26A,
  wit (.swrite (gen 0x10 (.reg 4))) (sregs [(4, 0x4000)]) (fun x => badTarget (scaVal64 x.wp (.reg 4)) == false &&
      usable base 0 true) fun _ t => (c0 t).trapvec == 0x4000,
  wit (.pmread (gen 4 (.reg 0))) counted yes fun _ t => sget64 (w0 t) 4 == 2,
  wit (.pmread (gen 4 (.reg 1))) counted yes fun _ t => sget64 (w0 t) 4 == 11,
  wit (.pmread (gen 4 (.reg 2))) counted yes fun _ t => sget64 (w0 t) 4 == 7,
  wit (.pmread (gen 4 (.reg 3))) counted yes fun _ t => sget64 (w0 t) 4 == 8,
  wit (.pmread (gen 4 (.reg 4))) counted yes fun _ t => sget64 (w0 t) 4 == 10,
  wit (.pmread (gen 4 (.reg 5))) counted yes fun _ t => sget64 (w0 t) 4 == 1,
  wit (.pmread (gen 4 (.reg 6))) counted yes fun _ t => sget64 (w0 t) 4 == 9,
  wit (.pmread (gen 4 (.reg 7))) counted yes fun _ t => sget64 (w0 t) 4 == 5] : List Bool).all id = true := by decide +kernel

/-- R177, R180, R181. -/
theorem test_TrapWordsHoldTheirTrap : ([
  wit (.trap (gen 0 zero zero zero .i8 9)) vec yes entered,
  wit (.brk (gen 0 zero zero zero .i8 9)) vec yes
      fun _ t => (match (w0 t).a.wait with | .driver _ => true | _ => false) && (w0 t).a.pc == 8] : List Bool).all id = true := by decide +kernel

/-- R177-R179: the handler at TRAPVEC, and a return to word 0x100 with mask 5. -/
theorem test_TrapEntryAndReturn : ([
  landed (c0 (held {})) 0 (w0 (held {})) && (walk (held {}) 0 (descField (held {}) 0 0x10 8) matches .ok ..) &&
      usable (held {}) 0 true && trapDriver {} == false &&
      (let t := deliverTrap (held {}) 0 0; (w0 t).a.pc == 0x4000 && (w0 t).a.rpc == none &&
      (w0 t).handler == some (.a, 0) && (w0 t).b.susp && (w0 t).heldTrap.isNone),
  trapDriver { kind := 2 } &&
      (let t := deliverTrap (held { kind := 2 }) 0 0; (w0 t).a.wait == .driver (w0 t).trapframe && (w0 t).a.pc == 8),
  wit (.tret (gen 0)) base (fun x => x.wp.handler != some (.a, 0)),
  wit (.tret (gen 0)) { inHandler with mem := tables ++ [(0x8001, 1), (0x801C, 5), (0x8020, 0x80), (0x803B, 4)] }
      (fun x => x.wp.handler == some (x.sl, x.wp.stack.length) && storesDone base 0 0 .pkg)
      fun _ t => (w0 t).a.pc == 0x100 && (w0 t).a.mask == 5 && (w0 t).handler.isNone && (w0 t).a.remain == 2 &&
      (w0 t).a.rpc == some 0x80] : List Bool).all id = true := by decide +kernel

/-! Memory words. -/

def mw (k : MKd) (m : Mem) (x : Here) : Bool :=
  let md := modsOf x.co.memdef m.pfx
  !modsBad k m.pfx md && !baseBad k m.base md.space
/-- What every memory word needs to go ahead. -/
def go (k : MKd) (m : Mem) (s : State) (x : Here) : Bool :=
  mw k m x && x.exec != 0 && mayGo s x (modsOf x.co.memdef m.pfx) && !memHeld x true && !x.prov && x.block.shadow == .none
/-- Two lanes; s4 holds 0x8000 and the other scalars 0; m1 is lane 0. -/
def two (f : Warp → Warp := id) : State :=
  path0 (fun p => { p with mask := 3 }) (wp0 fun w => f (sset { w with m := [(1, 1)] } 4 0x8000))
/-- The block's scratch holds 5 at byte 0 and 6 at byte 4. -/
def scr : State := blk0 (fun b => { b with scratchGran := 1, scratch := [(0, 5), (4, 6)] })
  (path0 (fun p => { p with mask := 3 }) (wp0 fun w => vset (vset w 1 1 4) 2 1 7))
def scP : Option Pfx := some (pfx none none (some .scratch))
def checkS (n : Nat) (scalar write : Bool) (addrs : List (Nat × Nat)) (s : State) (x : Here) : Bool :=
  match checkLocal s x .scratch scalar write n addrs with
  | .ok ls => addrs.all (fun a => a.2 % n == 0) && ls.all fun p => !locBad s p.2 n
  | _ => false
/-- The addresses translate, with the permissions asked for, and nothing races. -/
def checkG (n : Nat) (need : Need) (scalar : Bool) (addrs : List (Nat × Nat)) (s : State) (x : Here) : Bool :=
  match checkGlobal s x.core x.ctx x.exec scalar need addrs with
  | (s', .ok ls) => addrs.all (fun a => a.2 % n == 0) && !ls.isEmpty &&
      (checkRace s' x (modsOf x.co.memdef none) (!need.w) true scalar ls matches .ok ..) &&
      ls.all fun g => usable s' g.line true && !poisoned (peekLine s' g.line).2 (g.pa % 128) n
  | _ => false
def sentTo (line : Nat) (t : State) : Bool := (tgetD t.ports 0 []).any fun r => r.line == line && r.warp == 0
def obj (d : BitVec 8) (ty : BitVec 4 := 0) (p : Option Pfx := none) : Mem := mem d 4 0xFF ty 0 p
def launch0 : Launch :=
  { ctx := 0, part := 0, queue := 0, index := 0, number := 0, gx := 1, gy := 1, gz := 1, g := 1, pairs := false,
    subs := [{ entry := 0, cbank := 0x4000, cbsize := 64, lanes := 32, regs := 8, scratch := 0, colbank := 0 }],
    sharedBank := false, first := 0, count := 1, arena := 0x6000, faillog := 0, failcap := 0, total := 1 }
def withL (s : State) : State := { s with launches := [(0, launch0)] }
/-- Memory with these cells behind the tables. -/
def memory (l : List Host.Cell) (s : State := two) : State := { s with mem := tables ++ l }
/-- A line at 0x8000 in a slice, changed. -/
def slice0 (w : Way) (s : State := two) : State := { s with slices := [(0, { ways := [(0, w)] })] }
def dirty : Way := { line := 0x100, valid := 0xF, dirty := 1, data := 9 }
def inCtx (b : Binding) : State := { two with contexts := [(0, { bindings := [b] })] }
/-- A tile record of one tile of 4 elements of a byte, for crew 1. -/
def record : Line := 0x1000000000000010000010001000100010001000400000100000001000000000000000000
def recordBytes : List Byte := (List.range 64).map fun i => byteOf record i
/-- The warp is in crew 1, and s8 names the record. -/
def strip : State :=
  { wp0 (fun w => { w with crews := [(1, 0, false)] }) (slice0 { line := 0xC0, valid := 0xF, data := record } (two fun w => sset w 8 0x6000)) with
    bunits := [(0, { crews := [(1, { ctx := 0, members := 1 })], fresh := 2 })] }

/-- R222, R223: lane 0 reads byte 0, lane 1 byte 4; constant space holds 9. -/
theorem test_LocalAndConstantAccesses : ([
  witS (.vld (mem 3 6 1 8 0 scP)) scr (fun s x => go .load (mem 3 6 1 8 0 scP) s x &&
      checkS 4 false false (vecAddrs x (mem 3 6 1 8 0 scP) .scratch) s x) fun _ t => vget (w0 t) 3 0 == 5 &&
      vget (w0 t) 3 1 == 6,
  witS (.vldx (mem 4 6 0xFF 8 0 scP)) scr (fun s x => go .load (mem 4 6 0xFF 8 0 scP) s x &&
      checkS 16 false false (vecAddrs x (mem 4 6 0xFF 8 0 scP) .scratch) s x) fun _ t => vget (w0 t) 4 0 == 5 &&
      vget (w0 t) 5 1 == 6,
  witS (.sld (mem 3 6 0xFF 8 4 scP)) scr (fun s x => go .load (mem 3 6 0xFF 8 4 scP) s x &&
      checkS 4 true false [(0, laneAddr x.wp (mem 3 6 0xFF 8 4 scP) .scratch 0)] s x) fun _ t => sget (w0 t) 3 == 6,
  witS (.vst (mem 2 6 1 8 0 scP)) scr (fun s x => go .store (mem 2 6 1 8 0 scP) s x &&
      checkS 4 false true (vecAddrs x (mem 2 6 1 8 0 scP) .scratch) s x) fun _ t => locByte t (.scr 0 0 4) == 7 &&
      locByte t (.scr 0 0 0) == 0,
  witS (.vstx (mem 4 6 0xFF 8 16 scP)) scr (fun s x => go .store (mem 4 6 0xFF 8 16 scP) s x &&
      checkS 16 false true (vecAddrs x (mem 4 6 0xFF 8 16 scP) .scratch) s x) fun _ t => locByte t (.scr 0 0 0) == 5,
  witS (.sst (mem 3 6 0xFF 8 4 scP)) scr (fun s x => go .store (mem 3 6 0xFF 8 4 scP) s x &&
      checkS 4 true true [(0, laneAddr x.wp (mem 3 6 0xFF 8 4 scP) .scratch 0)] s x)
      fun _ t => locByte t (.scr 0 0 4) == 0,
  witS (.vld (mem 3 8 0xFF 8 0 (some (pfx none none (some .const))))) (withL two)
      (fun s x => go .load (mem 3 8 0xFF 8 0 (some (pfx none none (some .const)))) s x &&
      checkG 4 { r := true } false [(0, 0x4000), (1, 0x4000)] s x) fun _ t => sentTo 0x80 t && (w0 t).pend == [3],
  wit (.sldk (imm 3 2 0 0xFF)) (withL two) (fun x => !memHeld x true),
  wit (.sldk (imm 3 64 0 0xFF)) (withL two) (fun x => !memHeld x true),
  witS (.sldk (imm 3 4 0 0xFF)) (withL (memory [(0x4004, 9)])) (fun s x => !memHeld x true &&
      checkG 4 { r := true } true [(0, 0x4004)] s x) fun _ t => sentTo 0x80 t && (w0 t).pend == [259]] : List Bool).all id = true := by decide +kernel

/-- R222-R224: the line of 0x8000 is 0x100. -/
theorem test_GlobalLoadsRequestTheirLines : ([
  witS (.vld (mem 3 4)) (two) (fun s x => go .load (mem 3 4) s x &&
      checkG 4 { r := true } false (vecAddrs x (mem 3 4) .global) s x) fun _ t => sentTo 0x100 t && (w0 t).pend == [3],
  witS (.vldx (mem 4 4 0xFF 8)) (two) (fun s x => go .load (mem 4 4 0xFF 8) s x &&
      checkG 16 { r := true } false (vecAddrs x (mem 4 4 0xFF 8) .global) s x) fun _ t => (w0 t).pend == [4, 5, 6, 7],
  witS (.sld (mem 3 4)) (two) (fun s x => go .load (mem 3 4) s x &&
      checkG 4 { r := true } true [(0, laneAddr x.wp (mem 3 4) .global 0)] s x) fun _ t => sentTo 0x100 t &&
      (w0 t).pend == [259],
  witS (.vld (mem 3 4)) (blk0 (fun b => { b with prov := true }) two) (fun s x => mw .load (mem 3 4) x && x.prov &&
      checkG 4 { r := true } false (vecAddrs x (mem 3 4) .global) s x) fun _ t => (w0 t).pend == [3],
  witS (.acq (obj 6)) (two) (fun s x => go .obj (obj 6) s x &&
      checkG 8 { r := true } true [(0, objAddr x.wp (obj 6))] s x) fun _ t => sentTo 0x100 t &&
      (w0 t).pend == [262, 263]] : List Bool).all id = true := by decide +kernel

/-- R19, R222. -/
theorem test_GlobalStoresEnterTheBuffer : ([
  witS (.vst (mem 3 4)) (two) (fun s x => go .store (mem 3 4) s x &&
      checkG 4 { w := true } false (vecAddrs x (mem 3 4) .global) s x) fun _ t => (c0 t).wc.length == 1 &&
      (tgetD t.ports 0 []).isEmpty && t.mem == tables,
  witS (.vstx (mem 4 4 0xFF 8)) (two) (fun s x => go .store (mem 4 4 0xFF 8) s x &&
      checkG 16 { w := true } false (vecAddrs x (mem 4 4 0xFF 8) .global) s x) fun _ t => (c0 t).wc.length == 1,
  witS (.sst (mem 3 4)) (two) (fun s x => go .store (mem 3 4) s x &&
      checkG 4 { w := true } true [(0, laneAddr x.wp (mem 3 4) .global 0)] s x) fun _ t => ((c0 t).wc.map
      fun e => e.req.line) == [0x100]] : List Bool).all id = true := by decide +kernel

/-- R226-R228: two lanes add to one word. -/
theorem test_AtomicsAreDoneLaneByLane : ([
  witS (.atom (mem 2 6 0xFF 6 0 scP) { ret := 12, op := 0, rnd := .rn }) scr
      (fun s x => go .atom (mem 2 6 0xFF 6 0 scP) s x &&
      checkS 4 false true (vecAddrs x (mem 2 6 0xFF 6 0 scP) .scratch) s x) fun _ t => vget (w0 t) 12 0 == 5 &&
      vget (w0 t) 12 1 == 5 && locByte t (.scr 0 0 0) == 12,
  witS (.atomcas (mem 2 6 0xFF 8 8 scP) { ret := 12, cmp := 3 }) scr
      (fun s x => go .atom (mem 2 6 0xFF 8 8 scP) s x &&
      checkS 4 false true (vecAddrs x (mem 2 6 0xFF 8 8 scP) .scratch) s x) fun _ t => locByte t (.scr 0 0 8) == 7,
  witS (.atom (mem 2 4 0xFF 6) { ret := 12, op := 0, rnd := .rn }) (two) (fun s x => go .atom (mem 2 4 0xFF 6) s x &&
      checkG 4 { r := true, w := true, atomic := true } false (vecAddrs x (mem 2 4 0xFF 6) .global) s x)
      fun _ t => sentTo 0x100 t && (w0 t).pend == [12],
  witS (.atomcas (mem 2 4 0xFF 8) { ret := 12, cmp := 3 }) (two) (fun s x => go .atom (mem 2 4 0xFF 8) s x &&
      checkG 4 { r := true, w := true, atomic := true } false (vecAddrs x (mem 2 4 0xFF 8) .global) s x)
      fun _ t => sentTo 0x100 t] : List Bool).all id = true := by decide +kernel

/-- A word waits for s6 at 0x8000, until clock 5. -/
def waitWord : Instr := .mwait (obj 8 6) { cmp := 6, tmo := 7, m := 3, cond := 0 }
/-- It has waited for this value, and the line, which holds 9, is in its slice. -/
def awaiting (clock : Nat) (cmp : W64) : State :=
  { co0 (fun c => { c with ops := [{ id := 1, warp := 0, slot := .a, dest := .mwait 8 1 3, ty := .b32, left := 1, cmp := cmp,
                                      vas := [(0, 0x8000)], lanes := 3 }] })
      (path0 (fun p => { p with wait := .mwait 5 }) (put waitWord (slice0 dirty (two fun w => { w with pend := [264, 515] }))))
    with clock := clock }
def tested (clock : Nat) (cmp : W64) (q : State → Bool) : Bool :=
  let s := awaiting clock cmp
  match hereAt s 0 0 .a with
  | some x => dec x.ws == some (waitWord, 2) && checkG 4 { r := true } true [(0, 0x8000)] s x &&
      (allReqs s 0 0).isEmpty && !unbacked s 0x100 && (answerTo s 0x100 (mwaitWho 0 1)).isNone && q (mwaitTest s 0 0 .a)
  | none => false

/-- R229, R230: the first test asks for the line; a later one sees 9 there. -/
theorem test_MemoryWaitTestsAndEnds : ([
  witS waitWord two (fun s x => go .mwait (obj 8 6) s x && checkG 4 { r := true } true [(0, objAddr x.wp (obj 8 6))] s x)
      fun _ t => sget (w0 t) 8 == 0 && mget (w0 t) .a 3 == 3 && (w0 t).a.pc == 24,
  tested 0 8 fun t => (w0 t).a.wait == .mwait 5 && (w0 t).a.pc == 8,
  tested 0 9 fun t => sget (w0 t) 8 == 9 && mget (w0 t) .a 3 == 3 && (w0 t).a.pc == 24,
  tested 5 8 fun t => sget (w0 t) 8 == 9 && mget (w0 t) .a 3 == 0 && (w0 t).a.pc == 24 && (w0 t).pend.isEmpty &&
      (c0 t).ops.isEmpty] : List Bool).all id = true := by decide +kernel

/-- R99, R231, R232. -/
theorem test_FencesAndReleasesWait : ([
  witS (.fence (mem 0 0 0 0 0 (some { pfx (some .acq) (some .pkg) (some .column) with layer := .none }))) (two)
      (fun s x => go .fence (mem 0 0 0 0 0 (some { pfx (some .acq) (some .pkg) (some .column) with layer := .none })) s x &&
      !baseLayer .column) fun _ t => (w0 t).a.pc == 24,
  witS (.fence (mem 0 0 0 0 0 (some (pfx (some .rel) (some .pkg))))) (two)
      (fun s x => go .fence (mem 0 0 0 0 0 (some (pfx (some .rel) (some .pkg)))) s x && loadsDone x.co x.w &&
      storesDone s 0 0 .pkg) fun _ t => (w0 t).a.pc == 24 && (ctxOf t 0).epoch == 1,
  witS (.fence (mem 0 0 0 0 0 (some (pfx (some .acq) (some .pkg))))) (co0
      (fun c => { c with l1 := [{ line := 1, home := 0, data := 0, poison := 0 }] }) two)
      (fun s x => go .fence (mem 0 0 0 0 0 (some (pfx (some .acq) (some .pkg)))) s x) fun _ t => (c0 t).l1.isEmpty,
  witS (.fence (mem 0 0 0 0 0 (some (pfx (some .acq) (some .block))))) (co0
      (fun c => { c with l1 := [{ line := 1, home := 0, data := 0, poison := 0 }] }) two)
      (fun s x => go .fence (mem 0 0 0 0 0 (some (pfx (some .acq) (some .block)))) s x)
      fun _ t => (c0 t).l1.length == 1,
  witS (.rel (obj 6)) (two) (fun s x => go .obj (obj 6) s x &&
      checkG 8 { w := true } true [(0, objAddr x.wp (obj 6))] s x && relReady s x .pkg 0x8000 &&
      (crustPushes s x 0x8000).isEmpty && x.tag.isNone) fun _ t => sentTo 0x100 t &&
      tgetD (ctxOf t 0).objEpochs 0x8000 0 == 1] : List Bool).all id = true := by decide +kernel

/-- R233-R235: s8:s9 the region, s10 its lines, s11 the flags. -/
theorem test_BindingsComeAndGo : ([
  witS (.bind (obj 8)) (two fun w => sset (sset (sset w 8 0x9000) 10 1) 11 1) (fun s x => go .bare (obj 8) s x)
      fun _ t => (ctxOf t 0).bindings == [{ obj := 0x8000, base := 0x9000, lines := 1, race := true, trap := false }],
  witS (.bind (obj 8)) (two) (fun s x => go .bare (obj 8) s x && (sget x.wp 10).toNat == 0),
  witS (.unbind (mem 0 4 0xFF 0)) (inCtx { obj := 0x8000, base := 0, lines := 1, race := false, trap := false })
      (fun s x => go .bare (mem 0 4 0xFF 0) s x) fun _ t => (ctxOf t 0).bindings.isEmpty,
  witS (.bindt (obj 8)) strip (fun s x => go .bare (obj 8) s x && checkG 64 { r := true } true [(0, 0x6000)] s x &&
      !refused s 0xC0 (wordWho x 0) && (answerTo s 0xC0 (wordWho x 0)).isNone && peekBytes s 0x6000 64 == recordBytes && recOk recordBytes && recTiles recordBytes == 1 &&
      replicaLen recordBytes == 0 && (claimsOn s 0 0x8000).isEmpty &&
      (crewAt s 0 (BitVec.ofNat 32 (recField recordBytes 0x24 2))).isSome)] : List Bool).all id = true := by decide +kernel

/-- R238-R240: the line of 0x8000, clean and changed. -/
theorem test_RangeMaintenance : ([
  witS (.cinv (obj 8)) (two) (fun s x => go .bare (obj 8) s x && (sget x.wp 8).toNat == 0)
      fun _ t => (w0 t).a.pc == 16,
  witS (.cwb (obj 8)) (two) (fun s x => go .bare (obj 8) s x && (sget x.wp 8).toNat == 0) fun _ t => (w0 t).a.pc == 16,
  witS (.cinv (obj 8)) (slice0 { dirty with dirty := 0 } (two fun w => sset w 8 1))
      (fun s x => go .bare (obj 8) s x && checkG 4 {} true [(0, objAddr x.wp (obj 8))] s x)
      fun _ t => (sliceOf t 0).ways.isEmpty && t.mem == tables,
  witS (.cinv (obj 8)) (slice0 dirty (two fun w => sset w 8 1)) (fun s x => go .bare (obj 8) s x &&
      checkG 4 {} true [(0, objAddr x.wp (obj 8))] s x),
  witS (.cwb (obj 8)) (slice0 dirty (two fun w => sset w 8 1)) (fun s x => go .bare (obj 8) s x &&
      checkG 4 {} true [(0, objAddr x.wp (obj 8))] s x) fun _ t => ((sliceOf t 0).ways.map
      fun p => p.2.dirty) == [0] && memRead t.mem 0x8000 == 9,
  witS (.cpref (obj 8)) (two) (fun s x => go .pref (obj 8) s x && (sget x.wp 8).toNat == 0)
      fun _ t => (w0 t).a.pc == 16 && (tgetD t.ports 0 []).isEmpty,
  witS (.cpref (obj 8)) (two fun w => sset w 8 1) (fun s x => go .pref (obj 8) s x &&
      checkG 4 { r := true } true [(0, objAddr x.wp (obj 8))] s x) fun _ t => sentTo 0x100 t] : List Bool).all id = true := by decide +kernel

/-- R241: the arena at 0x6000 goes from 0x7000 to 0x8400; a block of 128 bytes is the smallest. -/
theorem test_ArenaAllocatesAndFrees : ([
  witS (.alloc (mem 8 6 0xFF 0)) (withL two) (fun s x => go .bare (mem 8 6 0xFF 0) s x && arenaOf s x != 0)
      fun _ t => sget64 (w0 t) 8 == 0,
  witS (.alloc (mem 8 6 0xFF 0 100)) (withL (memory [(0x6001, 0x70), (0x6008, 0), (0x6009, 0x84)]))
      (fun s x => go .bare (mem 8 6 0xFF 0 100) s x &&
      checkG 8 { r := true, w := true, atomic := true } true [(0, 0x6000)] s x && sizeClass 100 == 0 &&
      peek64 s 0x6010 == 0) fun _ t => sget64 (w0 t) 8 == 0x7000 && peek64 t 0x6000 == 0x7080,
  witS (.alloc (mem 8 6 0xFF 0 100)) (withL (memory [(0x6001, 0x70), (0x6009, 0x70)]))
      (fun s x => go .bare (mem 8 6 0xFF 0 100) s x &&
      checkG 8 { r := true, w := true, atomic := true } true [(0, 0x6000)] s x) fun _ t => sget64 (w0 t) 8 == 0,
  witS (.free (obj 8)) (withL (memory [(0x6001, 0x70), (0x6009, 0x84)] (two fun w => sset w 8 128)))
      (fun s x => go .bare (obj 8) s x && checkG 8 { r := true, w := true, atomic := true } true [(0, 0x6000)] s x &&
      checkG 8 { w := true } true [(0, 0x8000)] s x) fun _ t => peek64 t 0x6010 == 0x8000,
  witS (.free (obj 8)) (withL (slice0 { line := 0xC0, valid := 0xF, poison := 1, data := 0x84000000000000007000 } (two fun w => sset w 8 128)))
      (fun s x => go .bare (obj 8) s x && (checkGlobal s x.core x.ctx x.exec true { r := true, w := true, atomic := true } [(0, 0x6000)] matches (_, .ok ..)) &&
      checkG 8 { w := true } true [(0, 0x8000)] s x) fun _ t => (w0 t).poisonat == 0x6001 && peek64 t 0x6010 == 0] : List Bool).all id = true := by decide +kernel

/-! Crews and copies. -/

/-- Crew 1, whose record is kept by unit 0, and a warp that may be in it; s12 holds its handle. -/
def crewS (c : Crew) (f : Warp → Warp := id) (inIt : Bool := true) : State :=
  { wp0 (fun w => f (sset { w with crews := if inIt then [(1, c.phase, false)] else [] } 12 1)) with
    bunits := [(0, { crews := [(1, c)], fresh := 2 })] }
def twoOf : Crew := { ctx := 0, members := 2 }
def far (c : Crew) : State := crewS { c with remote := true }
def cw (d : BitVec 8 := 0) (b : BitVec 8 := 0) (opt : BitVec 4 := 0) : Crw := crw d 12 b opt
def isIt (c : Crew) (t : State) : Bool := crewOf t 1 == some c
/-- A load of the warp is out. -/
def busy (s : State) : State :=
  co0 (fun c => { c with ops := [{ id := 1, warp := 0, slot := .a, dest := .none, ty := .i32, left := 1 }] }) s
def posted (t : State) : Bool := ((unitOf t 0).inbox == [{ handle := 1, core := 0, warp := 0, slot := .a }]) && (w0 t).a.wait == .answer
/-- A word waits for an answer; the barrier unit of chiplet 0 holds its message. -/
def asking (i : Instr) (s : State) : State :=
  let s := path0 (fun p => { p with wait := .answer }) (put i s)
  { s with bunits := s.bunits.map fun u => (u.1, { u.2 with inbox := [{ handle := 1, core := 0, warp := 0, slot := .a }] }) }
/-- CRMAP at the unit maps the block at index 0. -/
def mapsBlock : Bool :=
  let c : Crew := { twoOf with share := true, remote := true }
  match here (put (.crmap (cw 3)) (crewS c)) [] with
  | none => false
  | some x => (launched x.co 0).all (fun p => isMember p.2 1) && (match mapAct (crewS c) x 1 c with
    | .done t (some 0) => isIt { c with maps := [(0, 0, 0)] } t
    | _ => false)
def told (t : State) : List BRelease := tgetD t.releases 0 []
def rel1 : BRelease := { warp := 0, slot := .a, handle := 1, wr := some (3, 7) }
def telling (s : State) : State := { s with releases := [(0, [rel1])] }
def desc (base space columns rows : Nat) (log2es : Nat := 0) : TDesc :=
  { base := base, space := space, log2es := log2es, columns := columns, rows := rows, stride := columns, extent := columns * rows }
/-- A descriptor in eight scalar registers. -/
def inRegs (n : Nat) (d : TDesc) (w : Warp) : Warp :=
  sset (sset (sset (sset (sset w n (BitVec.ofNat 32 d.base)) (n + 1) (BitVec.ofNat 32 (65536 * (d.space + 16 * d.log2es))))
    (n + 2) (BitVec.ofNat 32 (d.columns + 65536 * d.rows))) (n + 3) (BitVec.ofNat 32 d.stride)) (n + 4) (BitVec.ofNat 32 d.extent)
/-- Scratch holds 5 at byte 0; s16 and s24 hold the descriptors of bytes 0 to 3 and 8 to 11. -/
def tileS (s : State) : State :=
  blk0 (fun b => { b with scratchGran := 1, scratch := [(0, 5), (4, 6)] })
    (wp0 (fun w => inRegs 24 (desc 8 2 4 1) (inRegs 16 (desc 0 2 4 1) w)) s)
def cpy (h : BitVec 8 := 0xFF) (tok : BitVec 8 := 5) (sta : BitVec 8 := 0xFF) : Cpy :=
  { sw := false, tok := tok, sd := 16, dd := 24, sl := 0xFF, h := h, mem := false, rid := 0, sta := sta, stv := if sta = 0xFF then 0 else 34 }
def starts (s : State) (x : Here) : Bool := !memHeld x true && releaseReady s x .pkg
def regsOfDesc (x : Here) (n : Nat) : List Byte := (List.range 8).flatMap fun i => leBytes 4 (sget x.wp (n + i)).toNat
def fits (s : State) (x : Here) : Bool :=
  starts s x && !descBad (regsOfDesc x 16) false && !descBad (regsOfDesc x 24) true &&
    (allocFail s x (descOf (regsOfDesc x 16)) false).isNone && (allocFail s x (descOf (regsOfDesc x 24)) true).isNone
def cslice (src dst : TDesc) : CSlice :=
  { core := 0, warp := 0, block := 0, src := src, dst := dst, firstRow := 0, count := 1, tok := some 5, sta := none }
def copyOf (src dst : TDesc) (st : CState := .ready) : Copy :=
  { ctx := 0, engine := 0, handle := 0, rid := 0, cond := false, members := [], slices := [cslice src dst], st := st }
def copying (c : Copy) : State := { tileS base with copies := [(1, c)] }
def starting (c : Copy) (q : State → Bool) : Bool := ev (exec (.copyStart 0) (copying c)) q
/-- A window of partition 5 from 0 to 0x10000. -/
def windowed (s : State) : State := { s with windows := [(0, { base := 0x100000000, store := 0, scale := 0, ctl := 0x3400 })] }
def ended (n : W32) (t : State) : Bool := t.copies.all fun p => p.2.st == .moved && p.2.status == n

/-- R250, R254-R260: a crew of two, one of which is the issuing warp. -/
theorem test_CrewWordsChangeTheirCrew : ([
  witS (.crjoin (cw)) (crewS twoOf id false) (fun _ x => !isShadow x.block && x.last)
      fun _ t => isIt { twoOf with members := 3 } t && isMember (w0 t) 1,
  witS (.crjoin (cw)) (crewS { twoOf with arrived := 1 } id false) (fun _ x => !isShadow x.block && x.last)
      fun _ t => isIt { twoOf with arrived := 1, joins := 1 } t && isMember (w0 t) 1,
  witS (.crjoin (cw)) (crewS twoOf (fun w => { w with crews := (List.range 8).map fun k => (k + 9, 0, false) }) false)
      (fun _ x => !isShadow x.block && x.last && x.wp.crews.length == 8 && !isMember x.wp 1),
  witS (.crleave (cw)) (crewS { twoOf with members := 3 }) (fun _ x => !isShadow x.block && x.last &&
      crewNext x.wp 1 == some (0, false)) fun _ t => isIt twoOf t && !isMember (w0 t) 1,
  witS (.crleave (cw)) (crewS twoOf id false) (fun _ x => !isShadow x.block && x.last),
  witS (.crarrive (cw 3)) (crewS { twoOf with phase := 4 }) (fun _ x => !isShadow x.block && x.last &&
      crewNext x.wp 1 == some (4, false) && !bothSlots x.wp)
      fun _ t => isIt { twoOf with phase := 4, arrived := 1 } t && sget (w0 t) 3 == 4,
  witS (.crarrive (cw 3 0 1)) (crewS { twoOf with phase := 4 }) (fun s x => !isShadow x.block && x.last &&
      pubReady s x (effScope s x .crew)) fun _ t => isIt { twoOf with phase := 4, arrived := 1, pub := true } t,
  witS (.crsync (cw 0 0 1)) (crewS twoOf) (fun s x => x.last && pubReady s x (effScope s x .crew)) fun x t =>
      (w0 t).a.wait == .crew 1 0 (some (acqInvalidates (effScope base x .crew))) true,
  witS (.crarrive (cw 3)) (crewS { twoOf with phase := 4, arrived := 1 }) (fun _ x => !isShadow x.block && x.last)
      fun _ t => isIt { twoOf with phase := 5 } t && sget (w0 t) 3 == 4,
  witS (.crsync (cw)) (crewS twoOf) (fun _ x => !isShadow x.block && x.last)
      fun _ t => isIt { twoOf with arrived := 1 } t && (w0 t).a.wait == .crew 1 0 none true,
  witS (.crsync (cw)) (crewS { twoOf with arrived := 1 }) (fun _ x => !isShadow x.block && x.last)
      fun _ t => isIt { twoOf with phase := 1 } t && (w0 t).a.wait == .none,
  witS (.crwait (cw 0 3)) (crewS twoOf) (fun _ x => !isShadow x.block && x.last)
      fun _ t => (w0 t).a.wait == .crew 1 0 none false,
  witS (.crwait (cw 0 3)) (crewS { twoOf with phase := 5 }) (fun _ x => !isShadow x.block && x.last)
      fun _ t => (w0 t).a.pc == 16,
  witS (.crwait (cw 0 3)) (crewS { twoOf with phase := 0x80000000 }) (fun _ x => !isShadow x.block && x.last),
  witS (.crmap (cw 3)) (base) (fun _ x => !isShadow x.block && x.last && (crewAt base x.ctx (sget x.wp 12)).isNone),
  wit (.crquery (cw 3 0 2)) (crewS { twoOf with arrived := 1 }) (fun x => !isShadow x.block)
      fun _ t => sget (w0 t) 3 == 1,
  wit (.crquery (cw 3)) base (fun x => !isShadow x.block) fun _ t => sget (w0 t) 3 == 0xFFFFFFFF] : List Bool).all id = true := by decide +kernel

/-- R247, R255. -/
theorem test_NewCrewTakesFreshRecord : ([
  wit (.crnew (crw 3 0 0)) (wp0 fun w => { w with crews := (List.range 8).map fun k => (k + 9, 0, false) })
      (fun x => x.wp.crews.length ≥ 8) fun _ t => sget (w0 t) 3 == 0,
  wit (.crnew (crw 3 0 0 1)) base (fun x => (launched x.co 0).length == 1 && x.block.share.isNone)
      fun _ t => sget (w0 t) 3 == 1 &&
      crewOf t 1 == some { ctx := 0, members := 1, share := true, remote := true, maps := [(0, 0, 0)] },
  wit (.crnew (crw 3 0 0)) (crewS twoOf) (fun x => x.wp.crews.all fun p => p.1 ≠ 2) fun _ t => sget (w0 t) 3 == 2 &&
      crewNext (w0 t) 2 == some (0, false) && crewOf t 2 == some { ctx := 0, members := 1 }] : List Bool).all id = true := by decide +kernel

/-- R249, R263, R265, R423. -/
theorem test_RemoteCrewWordsGoByMessage : ([
  witS (.crsync (cw)) (far twoOf) (fun _ x => !isShadow x.block && x.last) fun _ t => posted t,
  witS (.crsync (cw 0 0 1)) (busy (far twoOf)) (fun s x => !isShadow x.block && x.last && !pubReady s x (effScope s x .crew))
      fun x t => ((unitOf t 0).inbox.map (·.rel)) == [some (effScope base x .crew)],
  ev (exec (.barrierMessage 0) (let s := asking (.crsync (cw 0 0 1)) (busy (far twoOf))
      { s with bunits := s.bunits.map fun u => (u.1, { u.2 with inbox := u.2.inbox.map fun p => { p with rel := some .pkg } }) }))
      fun t => ((unitOf t 0).inbox.map (·.rel)) == [some .pkg] && isIt { twoOf with remote := true } t,
  ev (exec (.barrierMessage 0) (asking (.crarrive (cw 3)) (far twoOf)))
      fun t => isIt { twoOf with remote := true, arrived := 1 } t &&
      told t == [{ warp := 0, slot := .a, handle := 1, wr := some (3, 0) }],
  ev (exec (.barrierMessage 0) (asking (.crjoin (cw)) (far { twoOf with share := true }) |> fun s => wp0
      (fun w => { w with crews := [] }) s))
      fun t => told t == [{ warp := 0, slot := .a, handle := 1, reason := some 6 }],
  ev (exec (.barrierRelease 0) (telling (path0
      (fun p => { p with wait := .crew 1 0 none true }) (put (.crsync (cw)) (far twoOf)))))
      fun t => (w0 t).a.pc == 16 && (told t).isEmpty,
  ev (exec (.barrierRelease 0) (telling (asking (.crarrive (cw 3)) (far twoOf)))) fun t => (w0 t).a.pc == 16 &&
      sget (w0 t) 3 == 7 && (told t).isEmpty,
  mapsBlock,
  ev (exec (.crewRecordError 1) (crewS twoOf)) (isIt { twoOf with broken := true }),
  ev (exec (.crewRecordError 1) (path0
      (fun p => { p with wait := .crew 1 0 none true }) (put (.crsync (cw)) (crewS twoOf)))) (trapIs .crew)] : List Bool).all id = true := by decide +kernel

/-- R273-R275, R279: four bytes of scratch to four others. -/
theorem test_CopyWordsSupplyCopies : ([
  witS (.bcopy (cpy)) (tileS base) fits fun _ t => (tget t.copies 1).any (fun c => c.st == .ready && c.slices.map
      (fun y => (y.src, y.dst, y.tok)) == [(desc 0 2 4 1, desc 8 2 4 1, some 5)]) && (w0 t).pend == [261] &&
      (w0 t).unsealed == [1],
  witS (.bcopyc (cpy 0xFF 5 32)) (tileS base) (fun s x => fits s x && (sget64 x.wp 32).toNat % 8 == 0)
      fun _ t => (tget t.copies 1).any fun c => c.cond && c.st == .ready,
  witS (.bcopy (cpy 12)) (tileS (crewS twoOf)) (fun s x => fits s x && (copyReason s x 1 twoOf 0).isNone &&
      (gatheringOf s 0 1 0).isNone) fun _ t => (tget t.copies 1).any fun c => c.st == .ready && c.handle == 1,
  witS (.bcopy (cpy 12)) { tileS (crewS twoOf) with copies := [(7, { copyOf (desc 0 2 4 1) (desc 8 2 4 1) .gathering with handle := 1, members := [(0, 0), (3, 1)], slices := [] })] }
      (fun s x => fits s x && (copyReason s x 1 twoOf 0).isNone) fun _ t => (tget t.copies 7).any
      fun c => c.st == .gathering && c.members == [(3, 1)] && c.slices.length == 1,
  witS (.bcopy { cpy with mem := true, sd := 36, dd := 38 }) (wp0
      (fun w => sset (sset w 36 0x9000) 38 0x9020) { base with mem := tables ++ [(0x9006, 2), (0x9008, 4), (0x900A, 1), (0x900C, 4), (0x9010, 4)] })
      (fun s x => starts s x && checkG 32 { r := true } true [(0, 0x9000)] s x &&
      checkG 32 { r := true } true [(0, 0x9020)] s x && !refused s 0x120 (wordWho x 0) && !refused s 0x120 (wordWho x 1)),
  witS (.bcopy (cpy)) { tileS base with copies := (List.range 64).map fun k => (k + 1, copyOf (desc 0 2 4 1) (desc 8 2 4 1)) }
      (fun s x => fits s x && coreCopies s 0 0 == 64) fun _ t => (w0 t).a.push && (w0 t).a.pc == 8 && t.copies.length == 64,
  witS (.bcopy (cpy)) base (fun s x => starts s x && descBad (regsOfDesc x 16) false),
  witS (.bcopyc (cpy 0xFF 5 32)) base (fun s x => starts s x && descBad (regsOfDesc x 16) false)] : List Bool).all id = true := by decide +kernel

/-- R280-R282, R284. -/
theorem test_BatchWordsFollowTheirCopies : ([
  wit (.bseal (bat 0 0 2)) (wp0 fun w => { w with unsealed := [1] }) (fun _ => true)
      fun _ t => (w0 t).batches == [(2, [1])] && (w0 t).unsealed.isEmpty,
  wit (.bwait (bat 0 0 2)) (wp0 fun w => { w with batches := [(2, [1])] }) (fun x => x.last)
      fun _ t => (w0 t).batches.isEmpty,
  wit (.bwait (bat 0 0 2)) (wp0
      (fun w => { w with batches := [(2, [1])] }) (copying (copyOf (desc 0 2 4 1) (desc 8 2 4 1)))) (fun x => x.last)
      fun _ t => (w0 t).a.pc == 8,
  wit (.bquery (bat 5 0 0)) (copying (copyOf (desc 0 2 4 1) (desc 8 2 4 1))) (fun _ => true)
      fun _ t => sget (w0 t) 5 == 1,
  wit (.bquery (bat 5 0 1)) (copying (copyOf (desc 0 2 4 1) (desc 8 2 4 1))) (fun _ => true)
      fun _ t => sget (w0 t) 5 == 1,
  wit (.bquery (bat 5 0 2)) (copying (copyOf (desc 0 2 4 1) (desc 8 2 4 1))) (fun _ => true)
      fun _ t => sget (w0 t) 5 == 63,
  wit (.bcancel (bat 6 3 0)) base (fun _ => true) fun _ t => sget (w0 t) 6 == 0,
  wit (.bcancel (bat 6 3 0)) (copying (copyOf (desc 0 2 4 1) (desc 8 2 4 1))) (fun _ => true)
      fun _ t => sget (w0 t) 6 == 1 && sget (w0 t) 5 == 6 && t.copies.isEmpty] : List Bool).all id = true := by decide +kernel

/-- R276-R279, R287, R289: no table maps 2^30; 0x8000 is mapped; the source overlaps itself. -/
theorem test_CopiesStartMoveComplete : ([
  starting (copyOf (desc 0x40000000 1 4 1) (desc 8 2 4 1)) (ended 2),
  starting (copyOf (desc 0x8000 1 4 1) (desc 8 2 4 1)) (fun t => ended 0 t && locByte (copyPart t 1) (.scr 0 0 8) == 0),
  (match here (windowed (copying (copyOf (desc 0x8000 1 4 1) (desc 8 2 4 1)))) [] with | some _ => ev (exec (.copyStart 0) (windowed (copying (copyOf (desc 0x8000 1 4 1) (desc 8 2 4 1))))) (ended 4) | none => false),
  starting (copyOf (desc 0 2 4 1) (desc 2 2 4 1)) (ended 8),
  starting (copyOf (desc 0 2 4 1) (desc 8 2 4 1)) (fun t => ended 0 t && locByte t (.scr 0 0 8) == 0),
  (match exec (.copyStart 0) (copying (copyOf (desc 0 2 4 1) (desc 8 2 4 1))) with
   | .next t => ev (step { t with agenda := [.part 1] }) fun t => locByte t (.scr 0 0 8) == 5 && locByte t (.scr 0 0 9) == 0 &&
      t.copies.all fun c => c.2.parts == 1 && copyMoved c.2
   | _ => false),
  (copyParts (copyOf (desc 0 2 4 1) (desc 8 2 4 1))).map (fun p => (p.src, p.dst, p.len)) == [(0, 8, 4)],
  ev (exec (.copyComplete 1) (copying { copyOf (desc 0 2 4 1) (desc 8 2 4 1) .moved with parts := 1 }))
      fun t => t.copies.isEmpty && sget (w0 t) 5 == 0,
  -- 40 bytes from offset 8: three aligned parts (R370)
  (copyParts (copyOf (desc 0 2 40 1) (desc 8 2 40 1))).map (fun p => (p.src, p.dst, p.len)) == [(0, 8, 8), (8, 16, 16), (24, 32, 16)],
  ev (exec (.copyComplete 1) (copying { copyOf (desc 0 2 4 1) (desc 8 2 4 1) .moved with status := 3 }))
      fun t => t.copies.isEmpty && sget (w0 t) 5 == 3,
  ev (exec (.copyEngineFail 0) (modDev (copying (copyOf (desc 0 2 4 1) (desc 8 2 4 1)))
      fun d => { d with spareEngines := 0 })) (ended 7),
  ev (exec (.copyEngineFail 3) (copying (copyOf (desc 0 2 4 1) (desc 8 2 4 1)))) fun t => t.dev.spareEngines == 1] : List Bool).all id = true := by decide +kernel

/-! Matrix commands, queues, slot posts, fetching and the engine. -/

/-- The block has claimed these units. -/
def claimed (slots accs : List Nat) (s : State := base) : State :=
  co0 (fun c => { c with slotOwner := slots.map fun n => (n, 0), accOwner := accs.map fun n => (n, 0) }) s
def mok (i : Instr) (s : State) (x : Here) : Bool :=
  (match mtxCheck s x i (mtxVals x.wp i) with | (s', .ok _) => (coreOf s' x.core).q0.length < 16 | _ => false)
def q0is (i : Instr) (t : State) : Bool := (c0 t).q0.map (fun q => (q.word, q.warp, q.block)) == [((encode i).headD 0, 0, 0)]
def noUnit (i : Instr) (x : Here) : Bool := !(mtxUnits (mtxVals x.wp i) i).all (nameable x.co x.wp.block)
def ent : QEnt := { data := 0x0000000900000008 }
def qmem (d : BitVec 8) : Que := que d 7 8
/-- Scratch of 4 KiB; s4 is the slot's address, s6 the image's offset. -/
def post (va off : W32) : State :=
  slice0 dirty (blk0 (fun b => { b with scratchGran := 1, scratch := [(64, 3)] }) (wp0 fun w => sset (sset w 4 va) 6 off))
def twoWays (s : State) : State := { s with slices := [(0, { ways := [(0, dirty)] }), (1, { ways := [(0, { dirty with line := 0x101 })] })] }
/-- The path is at 0x8000, where the line has these words. -/
def code (data : Line) (f : Path → Path := id) : State :=
  slice0 { dirty with data := data } (path0 fun p => f { p with words := [], pc := 0x8000, via := 7 })
def hdr : Line := 0xFF00000000000000
def fetched (s : State) (q : State → Bool) : Bool :=
  (match here s [] with | some x => x.p.words.isEmpty | none => false) && ev (exec .clauseFetch s) q
/-- One command at the head of q0. -/
def engine (i : Instr) (f : Core → Core := id) : State :=
  co0 (fun c => { f c with q0 := [{ word := (encode i).headD 0, vals := [], warp := 0, block := 0 }] }) base
def zeroCmd : QCmd := { word := (encode (.czero (mtx 1 0 0 0 0 0 1))).headD 0, vals := [], warp := 0, block := 0 }
def performs (i : Instr) (f : Core → Core) (q : State → Bool) : Bool :=
  let s := engine i f
  match (c0 s).q0 with
  | [k] => !discarded s 0 k && engReady s 0 k && ev (exec (.enginePerform 0) s) q
  | _ => false

/-- R298, R299: the words with their units claimed, and on no unit of the block. -/
theorem test_MatrixCommandsEnterTheQueue : ([
  witS (.trel (mtx 0 0 8 0 0 0 2)) (claimed (List.range 16) [0, 1, 2]) (mok (.trel (mtx 0 0 8 0 0 0 2)))
      fun _ t => q0is (.trel (mtx 0 0 8 0 0 0 2)) t,
  witS (.tload (mtx 2 8 10 0 13 2)) ((blk0
      (fun b => { b with scratchGran := 4 }) (claimed (List.range 16) [0, 1, 2]))) (mok (.tload (mtx 2 8 10 0 13 2)))
      fun _ t => q0is (.tload (mtx 2 8 10 0 13 2)) t,
  witS (.mma (mtx 0 2 3 0 13)) (claimed (List.range 16) [0, 1, 2]) (mok (.mma (mtx 0 2 3 0 13)))
      fun _ t => q0is (.mma (mtx 0 2 3 0 13)) t,
  witS (.mmasp (mtx 1 4 8 0 13 1)) (claimed (List.range 16) [0, 1, 2]) (mok (.mmasp (mtx 1 4 8 0 13 1)))
      fun _ t => q0is (.mmasp (mtx 1 4 8 0 13 1)) t,
  witS (.mdist (mtx 0 2 3 0 13)) (claimed (List.range 16) [0, 1, 2]) (mok (.mdist (mtx 0 2 3 0 13)))
      fun _ t => q0is (.mdist (mtx 0 2 3 0 13)) t,
  witS (.mtopk (mtx 0 1 4 0 11 0 8)) (claimed (List.range 16) [0, 1, 2]) (mok (.mtopk (mtx 0 1 4 0 11 0 8)))
      fun _ t => q0is (.mtopk (mtx 0 1 4 0 11 0 8)) t,
  witS (.czero (mtx 0 0 0 0 0 0 2)) (claimed (List.range 16) [0, 1, 2]) (mok (.czero (mtx 0 0 0 0 0 0 2)))
      fun _ t => q0is (.czero (mtx 0 0 0 0 0 0 2)) t,
  witS (.cload (mtx 0 8 10 0 2 2)) ((blk0
      (fun b => { b with scratchGran := 4 }) (claimed (List.range 16) [0, 1, 2]))) (mok (.cload (mtx 0 8 10 0 2 2)))
      fun _ t => q0is (.cload (mtx 0 8 10 0 2 2)) t,
  witS (.cstore (mtx 0 8 10 1 2 2)) ((blk0
      (fun b => { b with scratchGran := 4 }) (claimed (List.range 16) [0, 1, 2]))) (mok (.cstore (mtx 0 8 10 1 2 2)))
      fun _ t => q0is (.cstore (mtx 0 8 10 1 2 2)) t,
  witS (.mloop (mtx 0 16 0 4 13 4)) (wp0
      (fun w => sset w 23 1) (claimed (List.range 16) [0, 1, 2])) (mok (.mloop (mtx 0 16 0 4 13 4)))
      fun _ t => q0is (.mloop (mtx 0 16 0 4 13 4)) t,
  witS (.tloads (mtx 2 12 0 0)) (wp0
      (fun w => sset w 12 0x10000) { claimed [2] [] with windows := [(0, { base := 0x100000000, store := 0, scale := 0x10000, ctl := 0x6000 })] }) (mok (.tloads (mtx 2 12 0 0)))
      fun _ t => q0is (.tloads (mtx 2 12 0 0)) t,
  witS (.mma (mtx 0 2 3 0 13)) (co0 (fun c => { c with q0 := List.replicate 16 { word := 0, vals := [], warp := 0, block := 0 } })
      (claimed (List.range 16) [0, 1, 2])) (fun s x => (mtxCheck s x (.mma (mtx 0 2 3 0 13)) (mtxVals x.wp (.mma (mtx 0 2 3 0 13))) matches (_, .ok _)))
      fun _ t => (c0 t).q0.length == 16 && (w0 t).a.push && (w0 t).a.pc == 8,
  wit (.trel (mtx 0 0 8 0 0 0 2)) base (noUnit (.trel (mtx 0 0 8 0 0 0 2))),
  wit (.tload (mtx 2 8 10 0 13 2)) base (noUnit (.tload (mtx 2 8 10 0 13 2))),
  wit (.tloads (mtx 2 12 0 0)) base (noUnit (.tloads (mtx 2 12 0 0))),
  wit (.mma (mtx 0 2 3 0 13)) base (noUnit (.mma (mtx 0 2 3 0 13))),
  wit (.mmasp (mtx 1 4 8 0 13 1)) base (noUnit (.mmasp (mtx 1 4 8 0 13 1))),
  wit (.mloop (mtx 0 16 0 4 13 1)) base (noUnit (.mloop (mtx 0 16 0 4 13 1))),
  wit (.mdist (mtx 0 2 3 0 13)) base (noUnit (.mdist (mtx 0 2 3 0 13))),
  wit (.mtopk (mtx 0 1 4 0 11 0 8)) base (noUnit (.mtopk (mtx 0 1 4 0 11 0 8))),
  wit (.czero (mtx 0 0 0 0 0 0 2)) base (noUnit (.czero (mtx 0 0 0 0 0 0 2))),
  wit (.cload (mtx 0 8 10 0 2 2)) base (noUnit (.cload (mtx 0 8 10 0 2 2))),
  wit (.cstore (mtx 0 8 10 1 2 2)) base (noUnit (.cstore (mtx 0 8 10 1 2 2))),
  wit (.trel (mtx 0 0 8 0 0 0 2)) (claimed [8, 9] []) (fun _ => true) fun _ t => !nameable (c0 t) 0 (false, 8) &&
      !nameable (c0 t) 0 (false, 9)] : List Bool).all id = true := by decide +kernel

/-- R296, R313, R314. -/
theorem test_ClaimPopSync : ([
  wit (.tclaim (mtx 4 0 8 0 0 0 2)) (claimed [9] []) (fun _ => true) fun _ t => sget (w0 t) 4 == 0 &&
      (unitOwner (c0 t) false 8).isNone,
  wit (.tclaim (mtx 4 0 8 0 0 0 2)) base (fun _ => true) fun _ t => sget (w0 t) 4 == 1 &&
      unitOwner (c0 t) false 8 == some 0 && unitOwner (c0 t) false 9 == some 0,
  wit (.cpop (mtx 3 0 0 0 0 0 1)) (co0 fun c => { c with q1 := [ent], q2 := [ent] }) (fun x => x.exec != 0)
      fun _ t => vget (w0 t) 3 0 == 8 && vget (w0 t) 3 1 == 9 && (c0 t).q1.isEmpty && (c0 t).q2.length == 1,
  wit (.cpop (mtx 3 0 0 0 0 0 2)) (co0 fun c => { c with q1 := [ent], q2 := [ent] }) (fun x => x.exec != 0)
      fun _ t => vget (w0 t) 3 1 == 9 && (c0 t).q2.isEmpty,
  wit (.msync (mtx 4 0 0 0)) (wp0 fun w => { w with mstatus := 5, mpushed := 1, mdone := 1 })
      (fun x => x.wp.msyncs.isEmpty) fun _ t => sget (w0 t) 4 == 5 && (w0 t).mstatus == 0,
  wit (.msync (mtx 4 0 0 0)) (wp0 fun w => { w with mpushed := 2, mdone := 1 }) (fun x => x.wp.msyncs.isEmpty)
      fun _ t => (w0 t).msyncs == [(4, 2)] && (w0 t).pend == [260]] : List Bool).all id = true := by decide +kernel

/-- R313: another number than 1 and 2. -/
theorem test_ClaimPopSyncOther : (wit (.cpop (mtx 3 0 0 0 0 0 9)) base (fun _ => true) fun _ t => trapIs .queue t) = true := by decide +kernel

/-- The partner of core 0. -/
def beside (c : Core) (s : State) : State := { s with cores := s.cores ++ [(partnerOf 0, c)] }

/-- R324, R328-R331. -/
theorem test_QueueWordsMoveEntries : ([
  wit (.qpush (que 0 7 1)) base (fun _ => true) fun _ t => trapIs .queue t,
  wit (.qpush (que 0 7 8)) (path0 (fun p => { p with mask := 3 }) (wp0 fun w => vset (vset w 7 0 5) 7 1 6))
      (fun x => x.exec != 0 && x.co.qfree8 != 0 && !opHeld x false && lanesWhere x.exec
      (fun l => vpois x.wp 7 l) == 0) fun _ t => (c0 t).transit == [{ data := 0x600000005 }] && (c0 t).qfree8 == 15,
  wit (.qpush (que 0 7 8)) (co0 fun c => { c with qfree8 := 0 }) (fun x => x.exec != 0 && lanesWhere x.exec
      (fun l => vpois x.wp 7 l) == 0) fun _ t => (c0 t).transit.isEmpty && (w0 t).a.push && (w0 t).a.pc == 8,
  wit (.qpop (que 3 0 8)) base (fun _ => true),
  wit (.qpop (que 3 0 1)) (co0 fun c => { c with q1 := [ent] }) (fun x => x.exec != 0)
      fun _ t => vget (w0 t) 3 1 == 9 && (c0 t).q1.isEmpty,
  wit (.qpop (que 3 0 9)) (beside { ctx := some 0, qfree8 := 15 } (co0 fun c => { c with q9 := [ent] })) (fun x => x.exec != 0 && !opHeld x false)
      fun _ t => vget (w0 t) 3 1 == 9 && (c0 t).q9.isEmpty && (coreOf t (partnerOf 0)).qfree8 == 16,
  wit (.qpop (que 3 0 9)) (beside { ctx := some 1, qfree8 := 15 } (co0 fun c => { c with q9 := [ent] })) (fun x => x.exec != 0 && !opHeld x false)
      fun _ t => (coreOf t (partnerOf 0)).qfree8 == 15,
  wit (.qpeek (que 3 0 2)) (co0 fun c => { c with q2 := [ent] }) (fun x => x.exec != 0)
      fun _ t => vget (w0 t) 3 1 == 9 && (c0 t).q2.length == 1,
  wit (.qpop (que 3 0 9)) base (fun x => x.exec != 0 && x.co.q9.isEmpty) fun _ t => (w0 t).a.pc == 8,
  wit (.qcount (que 3 0 0)) base (fun _ => true) fun _ t => sget (w0 t) 3 == 16,
  wit (.qcount (que 3 0 9)) (co0 fun c => { c with q9 := [ent] }) (fun _ => true) fun _ t => sget (w0 t) 3 == 1] : List Bool).all id = true := by decide +kernel

/-- R183: two lines of memory are at hand. -/
theorem test_SlotPostWritesTheImage : ([
  wit (.qpost (gen 0 (.reg 4) (.reg 6))) (post 0x8001 64) (fun x => !memHeld x true) fun _ t => trapIs .misalign t,
  wit (.qpost (gen 0 (.reg 4) (.reg 6))) (post 0x8000 1) (fun x => !memHeld x true),
  wit (.qpost (gen 0 (.reg 4) (.reg 6))) (post 0x8000 0xF20) (fun x => !memHeld x true),
  witS (.qpost (gen 0 (.reg 4) (.reg 6))) (twoWays (post 0x8000 64)) (fun s x => !memHeld x true &&
      releaseReady s x .pkg && checkG 1 { w := true } true [(0, 0x8000)] s x && usable s 0x100 true &&
      usable s 0x101 true)] : List Bool).all id = true := by decide +kernel

/-- R30, R34-R36: a header of one word, and the word. -/
theorem test_FetchReadsTheClause : ([
  fetched (code 0) (trapIs .undef),
  fetched (code (hdr + 1)) (trapIs .undef),
  fetched (code 0 fun p => { p with pc := 0x40000000 }) fun t => (w0 t).a.wait != .none,
  fetched (code (hdr + 0x13007000123456780000000000000000)) fun t => (w0 t).a.words == [0x1300700012345678] &&
      (w0 t).a.pc == 0x8008 && (w0 t).a.first,
  fetched (code (hdr + 0x13007000123456780000000000000000) fun p => { p with pc := 0x8008, remain := 1 })
      fun t => (w0 t).a.words == [0x1300700012345678] && (w0 t).a.pc == 0x8008 && (w0 t).a.first,
  fetched (code 0 fun p => { p with pc := 0x40000000, remain := 1 }) fun t => (w0 t).a.wait != .none,
  fetched (code 0x1300700012345678 fun p => { p with pc := 0x8008, remain := 1 }) fun t => (w0 t).a.words == [0] &&
      !(w0 t).a.first] : List Bool).all id = true := by decide +kernel

/-- R298, R300, R304: CZERO of tile 1, which holds 7. -/
theorem test_EnginePerformsItsCommands : ([
  performs (.czero (mtx 1 0 0 0 0 0 1)) (fun c => { c with acc := [(accKey 1 0 0, 7), (accKey 2 0 0, 8)] })
      fun t => accGet (c0 t) 1 0 0 == 0 && accGet (c0 t) 2 0 0 == 8 && (c0 t).q0.isEmpty && (w0 t).mdone == 1,
  performs (.mma (mtx 0 2 3 0 0)) id fun _ => true,
  (let s := wp0 (fun w => { w with mstatus := 2 }) (engine (.czero (mtx 1 0 0 0 0 0 1)) fun c => { c with acc := [(accKey 1 0 0, 7)] })
   (match (c0 s).q0 with | [k] => discarded s 0 k | _ => false) && ev (exec (.enginePerform 0) s) fun t =>
      accGet (c0 t) 1 0 0 == 7 && (c0 t).q0.isEmpty && (w0 t).mdone == 1),
  ev (exec (.enginePerform 0) (co0 (fun c => { c with acc := [(accKey 1 0 0, 7)], cmd := some ({ zeroCmd with begun := true }, 0) }) base))
      fun t => accGet (c0 t) 1 0 0 == 0 && (c0 t).cmd.isNone && (w0 t).mdone == 1] : List Bool).all id = true := by decide +kernel

/-! Events of cores and columns. -/

/-- The path waits at a NOP. -/
def waits (k : Wait) (s : State := base) : State := path0 (fun p => { p with wait := k }) (put (.nop (gen 0)) s)
/-- A core stopped for a save for reason r, with one save area for its context. -/
def stopped (r : Nat) : State := co0 (fun c => { c with stopped := true, saving := some (r, 0) }) 
    { base with mem := [(9, 0x10), (0x20, 1), (0x1000, 1), (0x1001, 0x20), (0x2000, 0x1F)] }
def mayStop (r : Nat) (s : State) : Bool :=
  mayStart s 0 r && !(colOf s 0 0).migrating && (c0 s).ctx == some 0 && freeArea s 0 == some 0
/-- The chiplet is fenced, and the core waits for a load. -/
def loading : State :=
  co0 (fun c => { c with ops := [{ id := 1, warp := 0, slot := .a, dest := .none, ty := .i32, left := 1 }] }) { unstop (stopped 1) 0 with chiplets := [(0, { fenced := true })] }
/-- A launch of queue 1, of priority 3, has waited for long. -/
def hungry (s : State) : State :=
  { s with clock := 2 ^ 20, launches := [(1, { launch0 with queue := 1 })], queues := [(1, { prio := 3 })] }
/-- A context saved from core 3 that may go to core 0. -/
def savedOne : State :=
  { State.reset with parts := [(0, { n := 8 })], contexts := [(0, {})],
                     saves := [{ ctx := 0, area := 0, core := 3, held := 4096, reason := 0, keepBank := true }],
                     cores := [(4096, { ctx := some 0, blocks := [(0, {})], warps := [(0, bootWarp)], stopped := true })] }
def colS (f : Column → Column) : State := modCol State.reset 0 0 f
def col0 (t : State) : Column := colOf t 0 0
def pairS (f : Pair → Pair) : State := modPair State.reset 0 f
def pair0 (t : State) : Pair := tgetD t.pairs 0 {}
def linked2 : State := { co0 (fun c => { c with transit := [ent] }) with cores := [(0, { (c0 base) with transit := [ent] }), (partnerOf 0, { ctx := some 0 })] }
def cross0 : State := put (.vote { gen 1 (.reg 1) with c := .reg 0 }) base

/-- A path asks for two more granules, with mask register 3. -/
def growing (gs : List Nat) (s : State := waits .grow) : State :=
  wp0 (fun w => { w with granules := gs, grow := some (2, 3, 5, .a, 0) }) s
/-- The warp has stalled on the scoreboard since time 0. -/
def stalledTo (t : Nat) : State :=
  { put (.vmov (gen 3)) (path0 (fun p => { p with since := some 0 }) (wp0 fun w => { w with pend := [3] })) with arith := t }
def passes (i : Instr) (s : State) (q : State → Bool) : Bool := (hereAt s 0 0 .a).isSome && ev (exec i s) q

/-- R145, R146, R165, R169, R209, R230. -/
theorem test_WaitsEndByTheirEvents : ([
  passes (.sleepDeadline 0 0 .a) (waits (.sleep 0)) fun t => (w0 t).a.pc == 16 && (w0 t).a.wait == .none,
  passes (.sleepDeadline 0 0 .a) (waits (.sleep 5)) fun t => t == waits (.sleep 5),
  passes (.mwaitRetest 0 0 .a) (awaiting 0 9) fun t => sget (w0 t) 8 == 9 && mget (w0 t) .a 3 == 3 && (w0 t).a.pc == 24,
  passes (.mwaitTimeout 0 0 .a) (awaiting 5 8) fun t => sget (w0 t) 8 == 9 && mget (w0 t) .a 3 == 0 && (w0 t).a.pc == 24,
  passes (.mwaitRetest 0 0 .a) (awaiting 0 8) fun t => w0 t == w0 (awaiting 0 8),
  passes (.mwaitTimeout 0 0 .a) (awaiting 4 8) fun t => t == awaiting 4 8,
  passes (.reggrowGrant 0) (growing [5]) fun t => (w0 t).granules == [5, 0, 1] && mget (w0 t) .a 3 == 5 &&
      (w0 t).grow.isNone && (w0 t).a.pc == 16,
  (freeGranules (c0 (growing [0] (noPool (waits .grow))))).isEmpty && passes (.reggrowGrant 0) (growing [0] (noPool (waits .grow))) fun t => t == growing [0] (noPool (waits .grow)),
  passes (.activeSetEvict 0 0) (stalledTo 51201) fun t => !(w0 t).active,
  passes (.activeSetEvict 0 0) (stalledTo 51200) fun t => (w0 t).active,
  let s := put (.nop (gen 0)) (wp0 fun w => { w with passed := 64 });
      overdue s 0 0 == some 0 && mayIssue s 0 0 .a && passes (.passedOverLimit 0 0) s fun t => t.agenda == [.issue 0 0 .a],
  overdue base 0 0 == none && passes (.passedOverLimit 0 0) base fun t => t == base,
  let s := path0 (fun p => { p with wait := .cross 4 }) (put (.v2s member) lanes3);
      (hereAt s 0 0 .a).any (fun x => crossMode s x member == .alone true) && passes (.crossLaneRelease 0 0 .a) s fun t =>
      sget (w0 t) 3 == 9 && (w0 t).a.pc == 16,
  let s := path0 (fun p => { p with wait := .cross 4 }) (put (.v2s member) (other3 8));
      (hereAt s 0 0 .a).any (fun x => crossMode s x member == .joint) && passes (.crossLaneRelease 0 0 .a) s fun t =>
      sget (w0 t) 3 == 9 && (w0 t).a.pc == 16 && (w0 t).b.pc == 16] : List Bool).all id = true := by decide +kernel

/-- R148-R151, R390, R391. -/
theorem test_ContextsAreSavedAndRestored : ([
  mayStop 0 (stopped 0) && saveReady (stopped 0) 0 0 && !saveLate (stopped 0) 0 0,
  mayStop 1 (stopped 1) && saveReady (stopped 1) 0 1 && !saveLate (stopped 1) 0 1,
  (fun s => mayStart s 0 1 && freeArea (stopCore s 0 1) 0 == some 0 && !saveReady (stopCore s 0 1) 0 1 &&
      ev (exec (.contextSave 0 1) s) fun t => (c0 t).stopped) loading,
  mayStop 0 (hungry (stopped 0)) && saveReady (hungry (stopped 0)) 0 0 &&
      partOfCore (hungry (stopped 0)) 0 == some 0 && starved (hungry (stopped 0)) 0 0 1,
  (repack (areaBack savedOne (savedOne.saves.headD { ctx := 0, area := 0, core := 0, held := 0, reason := 0 }) (coreOf savedOne 4096))).isSome &&
      (restoreFirst savedOne 0).isSome &&
      (restoreBoth savedOne (savedOne.saves.headD { ctx := 0, area := 0, core := 0, held := 0, reason := 0 })).isNone &&
      ev (exec (.contextRestore 0 0) savedOne) fun t => (c0 t).ctx == some 0 && t.saves.isEmpty &&
      (w0 t).a.mask == bootWarp.a.mask && (tget t.cores 4096).isNone] : List Bool).all id = true := by decide +kernel

/-- R11, R16, R131, R324, R337-R343. -/
theorem test_ColumnLinkAndRegisters : ([
  ev (exec (.transitPlace 0) linked2) fun t => (c0 t).transit.isEmpty && (coreOf t (partnerOf 0)).q9 == [ent],
  ev (exec (.vbusCheckFail 0) base) fun t => t == base,
  ev (exec (.laneRepair 0) State.reset) fun t => (col0 t).frozen && (col0 t).spares == 31,
  ev (exec (.busThaw 0) (colS fun c => { c with frozen := true })) fun t => !(col0 t).frozen && (col0 t).repairs == 1,
  ev (exec (.busFail 0) (colS fun c => { c with spares := 0 })) fun t => (col0 t).failed,
  ev (exec (.gateRequest 0) State.reset) fun t => (pair0 t).gate == 2 && (pair0 t).gates == 1,
  ev (exec (.gateRequest 0) { State.reset with cores := [(64, { ctx := some 0 })] }) fun t => (pair0 t).gate == 1,
  ev (exec (.gatePowerOn 0) (pairS fun p => { p with gate := 2, req := true })) fun t => (pair0 t).gate == 0 &&
      !(pair0 t).req,
  ev (exec (.gatePowerOn 0) { pairS
      (fun p => { p with gate := 2, req := true }) with saves := [{ ctx := 0, area := 0, core := 64, held := 4096, reason := 2 }] })
      fun t => (pair0 t).gate == 3,
  let s := colS fun c => { c with target := 16 }; !migrateIgnored s 0 0 && ev (exec (.migrate 0 0) s)
      fun t => (col0 t).migrating,
  ev (exec (.migrationDrainTimeout 0 0) { colS
      (fun c => { c with migrating := true, migrate := true }) with arith := 200000000 })
      fun t => (col0 t).abandoned && !(col0 t).migrating,
  ev (exec (.columnRemap 0 0) (colS fun c => { c with failed := true })) fun t => (col0 t).spare &&
      !(col0 t).failed && (pair0 t).spareUsed,
  ev (exec (.columnRemap 0 0) (modPair (colS fun c => { c with failed := true }) 0
      fun p => { p with spareUsed := true })) fun t => (col0 t).absent,
  ev (exec (.columnRemap 0 0) base) fun t => (col0 t).dead && !(col0 t).failed,
  registerRead (colS fun c => { c with target := 3, migrate := true }) (.link 0) 0x100 == 0x301,
  (registerRead (colS fun c => { c with abandoned := true, failed := true }) (.link 0) 0x200).extractLsb' 6 4 == 0b1010,
  registerRead base (.sched 0) 0x018 == 0,
  registerRead { base with parts := [(0, { n := 8, page := { qtlim := 1 } })] } (.sched 0) 0x008 == 1,
  ev (exec (.storecfgWrite 0 1) State.reset) fun t => (c0 t).l1ways == 1,
  ev (exec (.storecfgWrite 0 1) base) fun t => (c0 t).l1ways == 2 && (c0 t).cfgReport,
  ev (exec (.registerWrite (.sched 0) 0 0x12345) base) fun t => (tget t.parts 0).any fun p => p.page.qtbase == 0x12340,
  ev (exec (.registerWrite (.link 0) 0x100 0x300) base) fun t => (col0 t).target == 3,
  ev (exec (.registerWrite (.carve 0) 0 1) base) fun t => tgetD t.carve 0 0 == 1,
  ev (exec (.registerWrite .mgmt 0 0x5000002) base) fun t => t.dev.fails == 5 && t.dev.reason == 2] : List Bool).all id = true := by decide +kernel

/-! Homes and cached lines. -/

/-- Line 0x100 in slice 0, in a glaze state, with the other agents 4 and 8 in the domain. -/
def homed (st owner sharers : Nat) (dirty : BitVec 4 := 0) : State :=
  modDev { State.reset with slices := [(0, { ways := [(0, { line := 0x100, data := 9, valid := 0xF, dirty := dirty, glaze := glazeMk st owner sharers false })] })] }
    fun d => { d with agents := [(4, 0), (8, 0)] }
def sl0 (t : State) : Slice := sliceOf t 0
def glaze0 (t : State) : W32 := ((tget (sl0 t).ways 0).map (·.glaze)).getD 0xFFFFFFFF
def sent (t : State) (l : List (Nat × MKind × Line)) : Bool := t.outbox == l.map fun m => { agent := m.1, kind := m.2.1, line := 0x100, data := m.2.2 }
def stable (s : State) (line : Nat := 0x100) : Bool :=
  isDram line && !uncachable s line && holderOf s line == 0 && (entryOf (sl0 s) line).isNone && !(sl0 s).gated &&
  (sl0 s).inputLines.isEmpty && inBuffer (sl0 s) == 0 && !glazeBad (glaze0 s) && ((findWay (sl0 s) line).any fun p => p.2.valid == 0xF)
/-- A sealed window over the line: 1 while it loads, 2 when active. -/
def sealedBy (n : Nat) (s : State) : State :=
  { s with windows := [(0, { base := 0x100000000, store := 0, scale := 0, ctl := BitVec.ofNat 64 (0x2000 + 4 * n) })] }
def home (i : Instr) (s : State) (q : State → Bool) : Bool := stable s && ev (exec i s) q
def req (act : Act) (line : Nat := 0x100) : Req := { core := 0, line := line, home := 0, act := act }
def ported (act : Act) (s : State) : State := { s with ports := [(0, [req act])] }
def first (s : State) : Bool :=
  match tgetD s.ports 0 [] with | r :: _ => portReady s 0 r && !unbacked s r.line && r.home == 0 | [] => false
/-- An open entry of slice 0. -/
def entry (ph : Phase) (cur : HReq) (s : State) (line : Nat := 0x100) : State := modSlice s 0 fun sl => { sl with entries := [{ line := line, phase := ph, cur := cur }] }
def phase0 (t : State) : Option Phase := (sl0 t).entries.head?.map (·.phase)
/-- A line of agent 4, or of the host, in slice 0. -/
def rline : Nat := 2 ^ 40 + 4 * 2 ^ 34 + 5
def hline : Nat := 2 ^ 40 + 5
def caches (x : Held) (line : Nat := rline) : State :=
  { State.reset with slices := [(0, { ways := [(0, { line := line, data := 9, valid := 0xF, dirty := 0xF, held := some x })] })] }
def sends (t : State) (k : MKind) (d : Line) (a : Nat := 4) (line : Nat := rline) : Bool := t.outbox == [{ agent := a, kind := k, line := line, data := d }]
def heldIs (t : State) (x : Option Held) (line : Nat := rline) : Bool := ((findWay (sl0 t) line).bind fun p => p.2.held) == x
def dataIs (t : State) (d : Line) : Bool := ((findWay (sl0 t) rline).map fun p => p.2.data) == some d
def asked (ph : Phase) (act : Act) (s : State := State.reset) : State := entry ph (.own (req act rline)) s rline
def wr : Act := .write 5 (fieldMask 0 1) 0

/-- R355-R358, R364: agent 4 asks for the line. -/
theorem test_HomeServesOtherAgents : ([
  home (.rds 4 0x100) (homed 0 0 0) fun t => sent t [(4, .datae, 9)] && glaze0 t == glazeMk 2 4 0 false,
  home (.rds 4 0x100) (homed 0 0 0 1) fun t => sent t [(4, .datas, 9)] && glaze0 t == glazeMk 1 0 2 false,
  home (.rds 4 0x100) (homed 1 0 4) fun t => sent t [(4, .datas, 9)] && glaze0 t == glazeMk 1 0 6 false,
  home (.rds 4 0x100) (homed 4 8 0) fun t => sent t [(8, .snps, 0)] && phase0 t == some (.fs 8 false),
  home (.rdx 4 0x100) (homed 0 0 0) fun t => sent t [(4, .datam, 9)] && glaze0 t == glazeMk 4 4 0 false,
  home (.rdx 4 0x100) (homed 1 0 2) fun t => sent t [(4, .datam, 9)],
  home (.rdx 4 0x100) (homed 1 0 6) fun t => sent t [(8, .snpi, 0)] && phase0 t == some (.fx noOwner [8] false),
  home (.upg 4 0x100) (homed 1 0 2) fun t => sent t [(4, .gntm, 0)] && glaze0 t == glazeMk 4 4 0 false,
  home (.upg 4 0x100) (homed 2 8 0) fun t => sent t [(8, .snpi, 0)],
  home (.wbd 4 0x100 7) (homed 4 4 0) fun t => sent t [(4, .wback, 0)] && glaze0 t == 0 && (tget (sl0 t).ways 0).any
      fun w => w.data == 7 && w.dirty == 0xF,
  home (.wbc 4 0x100) (homed 2 4 0) fun t => sent t [(4, .wback, 0)] && glaze0 t == 0,
  ev (exec (.rds 4 (2 ^ 40)) (State.reset)) fun t => t.outbox == [{ agent := 4, kind := .err, line := 2 ^ 40 }],
  homedHere 0x100 && uncachable (sealedBy 1 State.reset) 0x100 && ev (exec (.rds 4 0x100) (sealedBy 1 State.reset))
      fun t => sent t [(4, .nocache, 0)],
  sealedLine (sealedBy 1 State.reset) 0x100 &&
      ev (exec (.rdu 4 0x100) (sealedBy 1 { State.reset with mem := [(0x8000, 6)] })) fun t => sent t [(4, .datau, 6)],
  ev (exec (.rdu 4 0x100) (State.reset)) fun t => sent t [(4, .err, 0)],
  ev (exec (.wru 4 0x100 6 1) (sealedBy 1 State.reset)) fun t => sent t [(4, .wback, 0)] && memRead t.mem 0x8000 == 6,
  ev (exec (.wru 4 0x100 6 1) (State.reset)) fun t => sent t [(4, .err, 0)],
  ev (exec (.rds 0 0x100) (homed 0 0 0)) fun t => sent t [(0, .err, 0)],
  home (.rds 0 0x100) { homed 0 0 0 with parts := [(0, { n := 8, window := some (0x8000, 0x1000) })] } fun t =>
      sent t [(0, .datae, 9)],
  ev (exec (.rds 0 0x100) (modDev (homed 0 0 0) fun d => { d with cxl := false })) fun t => t.outbox.isEmpty,
  ev (exec (.err hline) (modDev (entry .sentS (.own (req .read hline)) State.reset hline) fun d => { d with streams := [(0, false)] }))
      fun t => phase0 t == some .sentS] : List Bool).all id = true := by decide +kernel

/-- R19-R21, R348, R356, R359. -/
theorem test_HomeServesItsPorts : ([
  first (ported .read (homed 0 0 0)) && ev (exec (.lr 0 0x100) (ported .read (homed 0 0 0)))
      fun t => (tgetD t.ports 0 []).isEmpty,
  stable (ported wr (homed 0 0 0)) && first (ported wr (homed 0 0 0)) &&
      ev (exec (.lw 0 0x100) (ported wr (homed 0 0 0))) fun t => (tget (sl0 t).ways 0).any fun w => w.data == 5,
  (entryOf (sl0 State.reset) 0x100).isNone && phase0 (submit State.reset 0 0x100 (.own (req .read))) == some .fd,
  tgetD (entry .fd (.rds 4) { State.reset with mem := [(0x8000, 6)] }).glaze 0x100 0 == 0 &&
      ev (exec (.dramFetchDone 0 0x100) (entry .fd (.rds 4) { State.reset with mem := [(0x8000, 6)] }))
      fun t => sent t [(4, .datae, 6)],
  phase0 (submit (entry .fd (.rds 4) State.reset) 0 0x100 (.own (req .read))) == some .fd &&
      (sl0 (submit (entry .fd (.rds 4) State.reset) 0 0x100 (.own (req .read)))).entries.map (·.queue) == [[.own (req .read)]],
  (sl0 (submit (modSlice State.reset 0 fun sl => { sl with inputLines := [0x100], input := [.own (req .read)] }) 0 0x100 (.own (req .read)))).input.length == 2,
  (sl0 (submit (modSlice State.reset 0 fun sl => { sl with entries := (List.range 64).map fun k => { line := 0x200 + k, phase := .fd, cur := .rds 4 } }) 0 0x100 (.own (req .read)))).inputLines == [0x100],
  ev (exec (.sliceGate 0) (homed 0 0 0)) fun t => (sl0 t).gating && !(sl0 t).gated && (sl0 t).ways.length == 1,
  ev (exec (.sliceGate 0) (modSlice (homed 1 0 4) 0 fun sl => { sl with gating := true, ways := sl.ways.map fun p => (p.1, { p.2 with glazeDirty := true }) }))
      fun t => (sl0 t).gating && (sl0 t).ways.isEmpty && tgetD t.glaze 0x100 0 == glazeMk 1 0 4 false,
  ev (exec (.sliceGate 0) (modSlice State.reset 0 fun sl => { sl with gating := true })) fun t => (sl0 t).gated && !(sl0 t).gating,
  ev (exec (.sliceWake 0) (modSlice State.reset 0
      fun sl => { sl with gated := true, input := [.own (req .read)], inputLines := [0x100] }))
      fun t => !(sl0 t).gated && (sl0 t).input.length == 1] : List Bool).all id = true := by decide +kernel

/-- R356, R366, R369: agents 8 and 12 are asked for agent 4. -/
theorem test_HomeTakesSnoopAnswers : ([
  ev (exec (.rspi 8 0x100) (entry (.fx 0 [8, 12] false) (.rdx 4) (homed 1 0 12)))
      fun t => phase0 t == some (.fx 0 [12] false) && t.outbox.isEmpty,
  ev (exec (.rspid 8 0x100 7) (entry (.fx 8 [8, 12] false) (.rdx 4) (homed 4 8 0)))
      fun t => phase0 t == some (.fx 8 [12] true),
  ev (exec (.rspid 8 0x100 7) (modSlice (entry (.fx 8 [8] false) (.rdx 4) (homed 4 8 0)) 0 fun sl =>
      { sl with entries := sl.entries.map fun e => { e with queue := [.rds 12] } })) fun t => sent t [(4, .datam, 7)] &&
      (sl0 t).input == [.rds 12] &&
      glaze0 t == glazeMk 4 4 0 false,
  ev (exec (.rsps 8 0x100 7) (entry (.fs 8 false) (.rds 4) (homed 2 8 0))) fun t => sent t [(4, .datas, 7)] &&
      glazeState (glaze0 t) == 1,
  ev (exec (.rspod 8 0x100 7) (entry (.fs 8 false) (.rds 4) (homed 4 8 0))) fun t => sent t [(4, .datas, 7)] &&
      glazeState (glaze0 t) == 3 && glazeOwner (glaze0 t) == 8,
  (entryOf (sl0 (homed 0 0 0)) 0x100).isNone && ev (exec (.rspi 8 0x100) (homed 0 0 0)) fun t => t == homed 0 0 0] : List Bool).all id = true := by decide +kernel

/-- R357, R358, R368. -/
theorem test_CachedRemoteLines : ([
  ev (exec (.snps rline) (caches .e)) fun t => sends t .rsps 9 && heldIs t (some .s),
  ev (exec (.snps rline) (caches .m)) fun t => sends t .rspod 9 && heldIs t (some .o),
  ev (exec (.snps hline) (caches .m hline)) fun t => sends t .rspsd 9 0 hline && heldIs t (some .s) hline,
  ev (exec (.snps rline) (caches .o)) fun t => sends t .rspod 9 && heldIs t (some .o),
  ev (exec (.snpi rline) (caches .s)) fun t => sends t .rspi 0 && heldIs t none,
  ev (exec (.snpi rline) (caches .m)) fun t => sends t .rspid 9 && heldIs t none,
  ev (exec (.snpi rline) (State.reset)) fun t => sends t .rspi 0,
  ev (exec (.datas rline 7) (asked .sentS .probe)) fun t => heldIs t (some .s) && dataIs t 7,
  ev (exec (.datae rline 7) (asked .sentS .probe)) fun t => heldIs t (some .e),
  windowAt State.reset (128 * rline) == none && ev (exec (.datam rline 7) (asked .sentX wr))
      fun t => heldIs t (some .m) && dataIs t 5,
  ev (exec (.gntm rline) (asked .sentU wr (caches .s))) fun t => heldIs t (some .m) && dataIs t 5,
  ev (exec (.wback rline) (asked .sentWb .probe)) fun t => (sl0 t).entries.isEmpty,
  ev (exec (.wback rline) (asked .sentWrU wr)) fun t => (sl0 t).entries.isEmpty,
  ev (exec (.datau rline 7) (asked .sentRdU .read)) fun t => (sl0 t).entries.isEmpty,
  ev (exec (.nocache rline) (asked .sentS .read)) fun t => phase0 t == some .sentRdU && sends t .rdu 0,
  ev (exec (.nocache rline) (asked .sentX wr)) fun t => phase0 t == some .sentWrU,
  ev (exec (.datau rline 7) (asked .sentRdU .probe)) fun t => (sl0 t).entries.isEmpty,
  ev (exec (.datam rline 7) (asked .sentU wr (caches .s))) fun t => heldIs t (some .m) && dataIs t 5,
  ev (exec (.nocache rline) (asked .sentX (.atom 0 .n32 .rn))) fun t => (sl0 t).entries.isEmpty && t.outbox.isEmpty,
  isPacked ((rline + 2 ^ 33) % 2 ^ 34) && ev (exec (.nocache (rline + 2 ^ 33)) (entry .sentS (.own (req .read (rline + 2 ^ 33))) State.reset (rline + 2 ^ 33)))
      fun t => (sl0 t).entries.isEmpty && t.outbox.isEmpty,
  ev (exec (.err rline) (asked .sentX wr)) fun t => (sl0 t).entries.isEmpty] : List Bool).all id = true := by decide +kernel

/-- R16, R352, R367. -/
theorem test_ErrorsAtTheHomes : ([
  ev (exec (.dramCorrectable 1 2) (modDev State.reset fun d => { d with corrected := [(65538, 63)] }))
      fun t => t.dev.spared == [65538],
  ev (exec (.dramCorrectable 1 2) (State.reset)) fun t => t.dev.spared.isEmpty && t.dev.corrected == [(65538, 1)],
  ev (exec (.dramUncorrectable 0x100 2) (State.reset)) fun t => t.memPoison == [0x401] &&
      t.dev.log == [(0x367, 0x100)],
  ev (exec (.patrolScrub 0x100 2) (State.reset)) fun t => t.memPoison == [0x401],
  ev (exec (.glazeLost 0x100) (homed 0 0 0)) fun t => phase0 t == some (.fx 64 [0, 4, 8] false) &&
      sent t [(0, .snpi, 0), (4, .snpi, 0), (8, .snpi, 0)],
  ev (exec (.glazeLost 0x100) (modDev (homed 0 0 0) fun d => { d with agents := [], cxl := false })) fun t =>
      (tget (sl0 t).ways 0).any fun w => w.poison == 0xF && w.glaze == glazeMk 0 0 0 true,
  ev (exec (.sliceCorrectable 0 0x100) (base)) fun t => t == base,
  ev (exec (.sliceDataUncorrectable 0 0x100 3) (homed 0 0 0 1)) fun t => (tget (sl0 t).ways 0).any
      fun w => w.poison == 1 && w.valid == 0xD,
  ev (exec (.sliceDataUncorrectable 0 rline 3) (caches .m)) fun t => (tget (sl0 t).ways 0).any fun w => w.poison == 3,
  ev (exec (.sliceDataUncorrectable 0 rline 3) (caches .e)) fun t => (sl0 t).ways.isEmpty,
  ev (exec (.sliceTagUncorrectable 0) (modDev State.reset fun d => { d with spareSlices := 0 })) fun t => t.dev.reasons.contains 0x31,
  ev (exec (.snoopTimeout 8 0x100) ({ entry (.fx 8 [8, 12] false) (.rdx 4) (homed 4 8 0) with clock := 2 ^ 24 }))
      fun t => (tget (sl0 t).ways 0).any fun w => w.poison == 0xF,
  partOfChiplet State.reset 0 == none && ev (exec (.sliceTagUncorrectable 0) (State.reset))
      fun t => t.dev.spareSlices == 1 && t.dev.log == [(0x16, 0)],
  partOfChiplet base 0 == some 0 && ev (exec (.sliceTagUncorrectable 0) (base)) fun t => t.dev.irqs == [(0, 0)],
  ev (exec (.snoopTimeout 8 0x100) ({ entry (.fx 0 [8, 12] false) (.rdx 4) (homed 1 0 12) with clock := 2 ^ 24 }))
      fun t => phase0 t == some (.fx 0 [12] false) && t.dev.log == [(0x368, 8)],
  ev (exec (.snoopTimeout 8 0x100) (entry (.fx 0 [8, 12] false) (.rdx 4) (homed 1 0 12)))
      fun t => phase0 t == some (.fx 0 [8, 12] false)] : List Bool).all id = true := by decide +kernel

/-! The scheduling engine. -/

/-- A number whose bytes are these values at these offsets. -/
def fields (l : List (Nat × Nat)) : Nat := l.foldl (fun n p => n + p.2 * 2 ^ (8 * p.1)) 0
/-- Lines in slice 0, so that they read at once. -/
def lines (l : List (Nat × Nat)) (s : State := base) : State :=
  { s with slices := [(0, { ways := (List.range l.length).zip (l.map fun p => { line := p.1, valid := 0xF, dirty := 0xF, data := BitVec.ofNat 1024 p.2 }) })] }
/-- Partition 0 with a queue table of one queue at 0x9000. -/
def paged (s : State) : State := { s with parts := [(0, { n := 8, page := { qtbase := 0x9000, qtlim := 1 } })] }
/-- A queue descriptor, ring at 0xA000, of two slots, priority 3; and a context descriptor at 0x9080. -/
def described (prio : Nat) : State :=
  paged (lines [(0x120, fields [(0, 0xA000), (8, 2), (0x0C, prio), (0x10, 0x9080)]), (0x121, fields [(0, 5), (8, 0x1000), (0x20, 1)])])
def que0 (q : Queue) (s : State := paged base) : State := { s with queues := [(0, q)] }
def q0 (t : State) : Queue := queueOf t 0 0
def watched : Queue := { st := 1, wasActive := true, watch := true, ring := 0xA000, len := 2 }
/-- A command of queue 1, with its fields. -/
def cmdOf (ty : Nat) (l : List (Nat × Nat) := []) : Cmd := { part := 0, queue := 1, index := 0, ctx := 0, bytes := leBytes 256 (fields ((0xFE, ty) :: l)) }
def cmds (l : List Cmd) (s : State := base) : State := { s with cmds := l }
def runs (i : Instr) (s : State) (q : State → Bool) : Bool :=
  (match findCmd s 0 1 0 with | some c => mayStartCmd s c | none => false) && ev (exec i s) q
def waiting (deadline : Nat) (clock : Nat) (l : List (Nat × Nat)) : State :=
  { cmds [{ cmdOf 6 ((0, 0x8000) :: l) with st := .waiting, deadline := deadline }] with clock := clock }
/-- A core waits for its driver, with a frame at 0x8000 of kind 2 or another. -/
def asksDriver (kind : Nat) : State := lines [(0x100, fields [(0x39, kind)])] (waits (.driver 0x8000))
def pageIs (t : State) (f : SPage → Bool) : Bool := f (pageOf t 0)
def inTlb : State := { co0 (fun c => { c with tlb := [{ ctx := 7, va := 0, level := 0, leaf := 0 }, { ctx := 8, va := 0, level := 0, leaf := 0 }] }) with clusterTlb := [(0, [{ ctx := 7, va := 0, level := 0, leaf := 0 }])] }
/-- A launch of three blocks of one warp. -/
def launchCmd (l : List (Nat × Nat)) : Cmd := cmdOf 1 ([(0x18, 3), (0x1C, 1), (0x20, 1), (0x24, 32), (0x26, 8)] ++ l)
def proofCmd (l : List (Nat × Nat)) : Cmd := { launchCmd ([(0x60, 9), (0x70, 1), (0x74, 2)] ++ l) with bytes := leBytes 256 (fields ([(0xFE, 3), (0x18, 3), (0x1C, 1), (0x20, 1), (0x24, 32), (0x26, 8), (0x60, 9), (0x70, 1), (0x74, 2)] ++ l)) }
def placing (d : List Nat) (f : Leaf → Leaf := id) : State :=
  { base with cores := [], launches := [(1, { launch0 with dists := [(0, d)], total := 3, count := 0, subs := launch0.subs })], leaves := [(0, f {})] }
/-- A launch that waits for its shape, which stands at 0x8000. -/
def shaped (v : Nat) (f : Launch → Launch := id) : State :=
  lines [(0x100, v)] { base with launches := [(1, f { launch0 with proofed := true, resolved := false, predicted := 2, limit := 4, floor := 1, total := 2, shapeSrc := 0x8000, ktag := 9, deadline := 100 })] }
def l1 (t : State) : Launch := (tget t.launches 1).getD launch0

/-- Agent 4 owns the table line at 0x1000. -/
def abroad (s : State) : State := modSlice s 0 fun sl => { sl with ways := sl.ways ++ [(15, { line := 0x20, valid := 0xF, data := 0x2001, glaze := glazeMk 4 4 0 false })] }
/-- The partitions' stream has failed. -/
def unsealed (s : State) : State := modDev s fun d => { d with streams := [(0, false)] }

/-- R372, R375-R377. -/
theorem test_QueuesAreWatched : ([
  queueHere (described 3) 0 0 && descOk (described 3) 0 (peekBytes (described 3) 0x9080 128) &&
      ev (exec (.queueEnable 0 0) (described 3))
      fun t => q0 t == { st := 1, ring := 0xA000, len := 2, prio := 3, ctx := 5, wasActive := true, watch := true },
  ev (exec (.queueEnable 0 0) (described 8)) fun t => q0 t == { st := 2, code := 0x11 },
  descPlaced (described 3) 0 0x9080 && !descPlaced (described 3) 0 0x10000009080 && ev (exec (.queueEnable 0 0)
      (paged (lines [(0x120, fields [(0, 0xA000), (8, 2), (0x10, 0x10000009080)])]))) fun t => q0 t == { st := 2, code := 0x11 },
  (walkDesc (abroad (described 3)) 0 0 0x9000 matches .busy 0x20) && ev (exec (.queueEnable 0 0) (abroad (described 3)))
      fun t => (q0 t).enabling && (q0 t).st == 0,
  insecure (unsealed (described 3)) 0 && ev (exec (.queueEnable 0 0) (unsealed (described 3)))
      fun t => t == unsealed (described 3),
  ev (exec (.queueDisable 0 0) (que0 watched)) fun t => (q0 t).st == 0 && !(q0 t).watch,
  ev (exec (.queueClearFault 0 0) (que0 { watched with st := 2, code := 3, watch := false })) fun t => q0 t == watched,
  ev (exec (.queueClearFault 0 0) (que0 watched)) fun t => t == que0 watched,
  ev (exec (.slotAccept 0 0) (que0 { watched with watch := false })) fun t => t.cmds.isEmpty,
  (walk (que0 watched) 0 0xA000 matches .ok _ _) &&
      ev (exec (.slotAccept 0 0) (que0 watched (paged (lines [(0x140, 0), (0x141, fields [(0x7F, 1)])]))))
      fun t => (t.cmds.map fun c => (c.queue, c.index, c.st == .parsed)) == [(0, 0, true)] && (q0 t).consumed == 1,
  ev (exec (.slotAccept 0 0) (que0 watched (paged (lines [(0x140, 0), (0x141, 0)])))) fun t => t.cmds.isEmpty &&
      (q0 t).watch,
  (walk (que0 watched) 0 0x40000000 matches .bad) &&
      ev (exec (.slotAccept 0 0) (que0 { watched with ring := 0x40000000 }))
      fun t => q0 t == { watched with ring := 0x40000000, st := 2, code := 2, watch := false },
  ev (exec (.slotAccept 0 0) (que0 watched { paged base with mem := [(9, 0x10), (0x1000, 1), (0x1001, 0x20), (0x2000, 0x1B)] }))
      fun t => (q0 t).code == 3] : List Bool).all id = true := by decide +kernel

/-- R177, R221, R373, R374. -/
theorem test_DriverAnswersAndInvalidations : ([
  driverSlot (w0 (asksDriver 2)) == some (.a, 0x8000) && ev (exec (.drvrespReplay 0 0 0 0) (asksDriver 2))
      fun t => (w0 t).a.wait == .none && (w0 t).a.pc == 8,
  (peekBytes (asksDriver 2) 0x8000 64).getD 0x39 0 == 2 && ev (exec (.drvrespResume 0 0 0 0) (asksDriver 2))
      fun t => (w0 t).a.wait == .none,
  ev (exec (.drvrespResume 0 0 0 0) (asksDriver 1)) fun t => (c0 t).warps.isEmpty,
  ev (exec (.drvrespFail 0 0 0 0) (asksDriver 1)) fun t => (c0 t).warps.isEmpty,
  ev (exec (.tlbinv 0 7) (inTlb)) fun t => pageIs t (fun p => p.tlbBusy && p.tlbCtx == 7) && (c0 t).tlb.length == 1 &&
      (tgetD t.clusterTlb 0 []).isEmpty,
  ev (exec (.tlbinv 0 8) (modPage inTlb 0 fun p => { p with tlbBusy := true })) fun t => (c0 t).tlb.length == 2,
  let s := ported .read (modPage base 0 fun p => { p with tlbBusy := true }); (reqsAbroad s).length == 1 &&
      ev (exec (.tlbinvDone 0) (s)) fun t => pageIs t (·.tlbBusy),
  ev (exec (.tlbinvDone 0) (modPage base 0 fun p => { p with tlbBusy := true })) fun t => pageIs t fun p => !p.tlbBusy,
  (walk (abroad (asksDriver 2)) 0 0x8000 matches .busy 0x20) && ev (exec (.drvrespFail 0 0 0 0) (abroad (asksDriver 2)))
      fun t => (w0 t).resp == some 2 && driverSlot (w0 t) == some (.a, 0x8000),
  ev (exec (.drvrespFail 0 0 0 0) (unsealed (asksDriver 2))) fun t => t == unsealed (asksDriver 2),
  ev (exec (.tlbinv 0 7) (unsealed inTlb)) fun t => (c0 t).tlb.length == 2,
  ev (exec (.tlbinvDone 0) { modPage base 0 fun p => { p with tlbBusy := true } with
      copies := [(1, { copyOf (desc 0 2 4 1) (desc 8 2 4 1) with pages := [(0, 0, 0)] })] }) fun t => pageIs t (·.tlbBusy)] : List Bool).all id = true := by decide +kernel

/-- R378, R380, R384, R385. -/
theorem test_CommandsRun : ([
  runs (.launch 0 1 0) (cmds [{ launchCmd [] with code := some 0x11 }]) fun t => t.cmds.isEmpty && t.launches.isEmpty,
  runs (.proofed 0 1 0) (cmds [{ cmdOf 3 with code := some 0x11 }]) fun t => t.cmds.isEmpty,
  runs (.copy 0 1 0) (cmds [{ cmdOf 4 with code := some 0x11 }]) fun t => t.copies.isEmpty,
  runs (.signal 0 1 0) (cmds [{ cmdOf 5 with code := some 0x11 }]) fun t => t.cmds.isEmpty,
  runs (.wait 0 1 0) (cmds [{ cmdOf 6 with code := some 0x11 }]) fun t => t.cmds.isEmpty,
  runs (.marker 0 1 0) (cmds [{ cmdOf 7 with code := some 0x11 }]) fun t => t.cmds.isEmpty,
  runs (.nopCmd 0 1 0) (cmds [{ cmdOf 8 with code := some 0x11 }]) fun t => t.cmds.isEmpty,
  runs (.nopCmd 0 1 0) (cmds [{ cmdOf 0 with code := some 0x11 }]) fun t => t.cmds.isEmpty,
  runs (.marker 0 1 0) (cmds [cmdOf 7]) fun t => t.cmds.isEmpty,
  runs (.nopCmd 0 1 0) (cmds [cmdOf 8]) fun t => t.cmds.isEmpty,
  runs (.copy 0 1 0) (cmds [cmdOf 4 [(0, 0x8000), (6, 1), (8, 4), (10, 1), (12, 4), (16, 4), (32, 0x9000), (38, 1), (40, 4), (42, 1), (44, 4), (48, 4)]])
      fun t => (tget t.copies 1).any (fun k => k.cmd == some (0, 1, 0) && (k.slices.map
      fun y => (y.src, y.dst)) == [(desc 0x8000 1 4 1, desc 0x9000 1 4 1)]) && t.cmds.map (·.st) == [.started],
  runs (.copy 0 1 0) { cmds [cmdOf 4] with parts := [], copies := (List.range 1024).map fun k => (k + 1, copyOf (desc 0 2 4 1) (desc 8 2 4 1)) }
      fun t => t.cmds.map (·.st) == [.parsed] && t.nextCopy == 1,
  runs (.signal 0 1 0) (lines [(0x100, 5)] (cmds [cmdOf 5 [(0, 0x8000), (8, 3), (0x10, 1)]]))
      fun t => t.cmds.isEmpty && peek64 t 0x8000 == 8,
  runs (.signal 0 1 0) (cmds [cmdOf 5 [(0, 0x40000000)]]) fun t => t.cmds.isEmpty,
  runs (.wait 0 1 0) (cmds [cmdOf 6 [(0, 0x8000)]]) fun t => t.cmds.isEmpty && (queueOf t 0 1).st == 0,
  runs (.wait 0 1 0) (cmds [cmdOf 6 [(0, 0x8000), (8, 1)]]) fun t => t.cmds.isEmpty && (queueOf t 0 1).code == 0x12,
  runs (.wait 0 1 0) (cmds [cmdOf 6 [(0, 0x8000), (8, 1), (0x18, 9)]]) fun t => t.cmds.map
      (fun c => (c.st, c.deadline, c.spilled)) == [(.waiting, 9, false)],
  runs (.wait 0 1 0) (cmds [cmdOf 6 [(0, 0x40000000)]]) fun t => (queueOf t 0 1).code == 2,
  ev (exec (.waitMet 0 1 0) (waiting 9 0 [])) fun t => t.cmds.isEmpty,
  ev (exec (.waitMet 0 1 0) (waiting 9 0 [(8, 1)])) fun t => t.cmds.length == 1,
  ev (exec (.waitTimeout 0 1 0) (waiting 9 0 [])) fun t => t.cmds.length == 1,
  ev (exec (.waitTimeout 0 1 0) (waiting 9 9 [])) fun t => t.cmds.isEmpty && (queueOf t 0 1).st == 0,
  ev (exec (.waitTimeout 0 1 0) (waiting 9 9 [(8, 1)])) fun t => t.cmds.isEmpty && (queueOf t 0 1).code == 0x12,
  ev (exec (.priorityAge 0 1) ({ cmds [{ cmdOf 8 with ready := some 0 }] with clock := 2 ^ 17 }))
      fun t => (queueOf t 0 1).aged == 2 && effPrio t 0 1 == 2,
  ev (exec (.schedulerTakeover) (cmds [{ cmdOf 4 with st := .started }, { cmdOf 8 with index := 1 }]))
      fun t => t.dev.schedulers == 1 && t.cmds.map (·.index) == [1],
  ev (exec (.schedulerTakeover) (modDev (cmds [{ cmdOf 4 with st := .started }]) fun d => { d with schedulers := 1 }))
      fun t => t.cmds.length == 1] : List Bool).all id = true := by decide +kernel

/-- R379-R382, R386, R392, R394. -/
theorem test_LaunchesBegin : ([
  capable base (launchFrom (launchCmd [])) && runs (.launch 0 1 0) (cmds [launchCmd []])
      fun t => (tget t.launches 1).any (fun l => l.gx == 3 && l.total == 3 && l.resolved &&
      tgetD l.dists 0 [] == [0, 1, 2]) && t.nextLaunch == 2 && t.cmds.map (·.launch) == [1],
  !capable base (launchFrom (launchCmd [(0x2C, 0x4C000)])) &&
      runs (.launch 0 1 0) (cmds [launchCmd [(0x2C, 0x4C000)]]) fun t => t.cmds.isEmpty && t.launches.isEmpty,
  let c : Cmd := { launchCmd [(0x44, 1)] with bytes := leBytes 512 (fields [(0xFE, 1), (0x44, 1)]) }; linksOf c.bytes == 1 &&
      linkBad c.bytes ((c.bytes.drop 256).take 256) && runs (.launch 0 1 0) (cmds [c]) fun t => t.cmds.isEmpty,
  capable base (launchFrom (proofCmd [(0x68, 0x8000)])) && runs (.proofed 0 1 0) (cmds [proofCmd [(0x68, 0x8000)]])
      fun t => (tget t.launches 1).any fun l => l.proofed && !l.resolved && l.predicted == 2 && l.total == 2 &&
      tgetD l.dists 0 [] == [0, 1],
  runs (.proofed 0 1 0) (cmds [proofCmd [(0x68, 0x40000000)]]) fun t => t.cmds.isEmpty && t.launches.isEmpty,
  runs (.proofed 0 1 0) (cmds [proofCmd [(0x68, 0x8000)]] { base with mem := [(9, 0x10), (0x1000, 1), (0x1001, 0x20), (0x2000, 0x1B)] })
      fun t => t.cmds.isEmpty && t.launches.isEmpty,
  !capable base (launchFrom (proofCmd [(0x2C, 0x4C000), (0x68, 0x8000)])) &&
      runs (.proofed 0 1 0) (cmds [proofCmd [(0x2C, 0x4C000), (0x68, 0x8000)]]) fun t => t.cmds.isEmpty &&
      t.launches.isEmpty,
  runs (.link 0 1 0) (cmds [cmdOf 2]) fun t => t.cmds.isEmpty,
  ev (exec (.link 0 1 1) (cmds [cmdOf 1, { cmdOf 2 with index := 1, bundle := some 0 }])) fun t => t.cmds.map
      (fun c => (c.index, c.bytes.length)) == [(0, 512)]] : List Bool).all id = true := by decide +kernel

/-- R144, R332, R386-R390. -/
theorem test_BlocksArePlaced : ([
  leafServes (placing [2, 5]) (l1 (placing [2, 5])) 0 && ev (exec (.blockSend 1 0 0) (placing [2, 5]))
      fun t => tgetD (l1 t).dists 0 [] == [5] && (leafState t 0).waiting == [(1, 2)],
  ev (exec (.blockSend 1 0 0) (placing [2, 5] fun f => { f with waiting := [(1, 0), (1, 1)] }))
      fun t => (leafState t 0).waiting.length == 2,
  !leafServes { placing [2] with chiplets := [(0, { fenced := true })] } (l1 (placing [2])) 0 &&
      ev (exec (.blockSend 1 0 0) ({ placing [2] with chiplets := [(0, { fenced := true })] }))
      fun t => (leafState t 0).waiting.isEmpty,
  ev (exec (.steal 1 1) ({ placing [] with launches := [(1, { launch0 with dists := [(0, [4, 5, 6])], count := 0 })] }))
      fun t => (l1 t).dists == [(0, [4, 5]), (1, [6])],
  ev (exec (.steal 1 0) (placing [2])) fun t => tgetD (l1 t).dists 0 [] == [2],
  leafNext (placing [] fun f => { f with waiting := [(1, 0)] }) 0 == [(1, 0)] && ev (exec (.blockPlace 0) (placing []
      fun f => { f with waiting := [(1, 0)] })) fun t => (c0 t).ctx == some 0 && ((tget (c0 t).blocks 0).any
      fun b => b.launch == 1) && (w0 t).a.mask == 0xFFFFFFFF && (leafState t 0).waiting.isEmpty,
  (placeUnit { placing []
      (fun f => { f with waiting := [(1, 0)] }) with launches := [(1, { launch0 with first := 500, count := 1 })] } 0 1 0).isNone,
  (bindPart (placing []) 0 1 2 0 (launch0.subs.headD { entry := 0, cbank := 0, cbsize := 0, lanes := 0, regs := 0, scratch := 0, colbank := 0 }) .none).any
      fun u => ((tget (c0 u).blocks 0).any fun b => b.linear == 2) && (w0 u).granules == [0] && (crewOf u 1).any
      fun c => c.members == 1 && tgetD u.binds 0 [] == bindImg u 0 0 && bindRead u 0 0 127 == 0xA5 && descNat (bindImg u 0 0) 0x10 4 == 2,
  ev (exec (.leafTakeover 0) (base)) fun t => (leafState t 0).lost && t.dev.log == [(0x390, 0)] &&
      t.dev.irqs == [(0, 0)],
  ev (exec (.leafTakeover 0) (placing [] fun f => { f with lost := true })) fun t => t.dev.log.isEmpty] : List Bool).all id = true := by decide +kernel

/-- R393, R396, R397, R400, R403-R405. -/
theorem test_ShapesResolveLaunches : ([
  (shapeWord (shaped 3) 1 (l1 (shaped 3)) matches .ok 0x8000 3) && ev (exec (.shapeResolve 1) (shaped 3))
      fun t => !(l1 t).resolved,
  let s := { shaped 3 with slices := [(0, { ways := [(0, { line := 0x100, glaze := glazeMk 4 4 0 false })] })] }; (shapeWord s 1 (l1 s) matches .busy 0x100) &&
      ev (exec (.shapeResolve 1) (s)) fun t => !(l1 t).resolved,
  (shapeWord (shaped (2 ^ 63 + 3)) 1 (l1 (shaped (2 ^ 63 + 3))) matches .ok 0x8000 0x8000000000000003) &&
      ev (exec (.shapeResolve 1) (shaped (2 ^ 63 + 3))) fun t => (l1 t).resolved && (l1 t).total == 3 &&
      (l1 t).shape == 3 && ((l1 t).dists.flatMap (·.2)) == [2] &&
      predictorOf t 0 9 == { tag := 9, count := 1, h := [3] },
  ev (exec (.shapeResolve 1) (shaped (2 ^ 63 + 6))) fun t => (l1 t).total == 4 && (l1 t).failed == 2,
  learn { tag := 9, count := 4, h := [1, 2, 3, 4] } 9 0 5 == { tag := 9, count := 4, h := [5, 1, 2, 3] },
  ev (exec (.shapeTimeout 1) ({ shaped 3 with clock := 100 })) fun t => (l1 t).timedOut && (l1 t).total == 1,
  ev (exec (.shapeTimeout 1) (shaped 3)) fun t => !(l1 t).resolved,
  ev (exec (.shapeTimeout 1) { abroad (shaped 3) with clock := 100 }) fun t => !(l1 t).resolved,
  ev (exec (.shapeTimeout 1) ({ shaped (2 ^ 63 + 3) with clock := 100 })) fun t => !(l1 t).resolved,
  ev (exec (.shapeResolve 1) (shaped (2 ^ 63 + 3) fun l => { l with resolved := true })) fun t => (l1 t).total == 2] : List Bool).all id = true := by decide +kernel

/-! Chiplets, management and the outside. -/

def chip (c : Chiplet) (s : State := base) : State := { s with chiplets := [(0, c)] }
def ch0 (t : State) : Chiplet := chipOf t 0
def logged (t : State) (e : Nat × Nat) : Bool := t.dev.log.contains e
def dev0 (f : Dev → Dev) (s : State := State.reset) : State := modDev s f
/-- Session 1 is open, and its requester owns partition 0 or not. -/
def session1 (own : Option Nat) (s : State := State.reset) : State :=
  { modDev s (fun d => { d with sessions := [{ id := 1, open_ := true, chain := 7 }] }) with parts := [(0, { n := 8, owner := own })] }
def winR (ctl : W64) (base : W64 := 0x100000000) : WinRegs := { base := base, store := 0, scale := 0, ctl := ctl }
def windows (w : WinRegs) (s : State) : State := { s with windows := [(0, w)] }
/-- Management's answer. -/
def mgmtSays (t : State) (op why : Nat) : Bool := t.dev.log.contains (0x4150 + op, why)
def sessSays (t : State) (op why : Nat) : Bool := t.dev.responses.contains { code := if why = 0 then 0x7E else 0x7F, request := op, body := [BitVec.ofNat 64 why] }
def spdm : SpdmReq := { session := 1, arg := 3 }
def said (t : State) (code request : Nat) : Bool := t.dev.responses.map (fun r => (r.code, r.request)) == [(code, request)]
def said1 (t : State) (code request : Nat) (body : List W64) : Bool := t.dev.responses == [{ code := code, request := request, body := body }]
def rom : State := dev0 fun d => { d with mode := 2 }
def leaves4 (s : State := State.reset) : State := modDev s fun d => { d with leaf := 3, leafEnd := 4 }
/-- A host window of 0x1000 bytes at 0x8000. -/
def hosted (s : State := base) : State := { s with parts := [(0, { n := 8, window := some (0x8000, 0x1000) })] }
def answered (t : State) (r : Option (List Byte)) : Bool := t.dev.hostReads == [(0x8010, r)]
def stream0 (b : Bool) (s : State) : State := modDev s fun d => { d with streams := [(0, b)] }
def linkS (f : Dev → Dev := id) : State := dev0 fun d => f { d with ports := [(2, 5)] }
def x0 : StartIn := { imagePresent := true, sigValid := true, versionOk := true, baseDieOk := true, hbmOk := true, chipletsOk := 0xFF, agent := 5, parts := [], agents := [], ready := true }
def ran : State := { dev0 (fun d => { d with ready := true, fails := 1, log := [(1, 2)] }) base with clock := 9 }

/-- R4, R27, R421. -/
theorem test_ChipletsFenceResetDrop : ([
  ev (exec (.chipletFence 0) ({ base with leaves := [(0, { waiting := [(0, 3)] })] })) fun t => (ch0 t).fenced &&
      (leafState t 0).waiting.isEmpty && logged t (0x271, 0) && !coreInService t 0,
  ev (exec (.chipletFence 0) (chip { fenced := true })) fun t => t.dev.log.isEmpty,
  ev (exec (.chipletReset 0) (base)) fun t => (ch0 t).resetting && logged t (0x272, 0),
  ev (exec (.chipletReset 0) (chip { resetting := true })) fun t => t.dev.log.isEmpty,
  ev (exec (.saveDeadline 0) ({ chip { resetting := true } with arith := 200000000 })) fun t => (c0 t).ctx.isNone &&
      (c0 t).warps.isEmpty,
  (coreOf (loseHeld { State.reset with cores := [(0, { ctx := some 0 })] } 0) 0).ctx.isNone,
  ev (exec (.saveDeadline 0) (chip { resetting := true })) fun t => (c0 t).ctx == some 0,
  ev (exec (.saveDeadline 0) ({ chip { dropped := true } with arith := 200000000 })) fun t => (c0 t).ctx.isNone,
  ev (exec (.chipletDrop 0) ({ State.reset with leaves := [(0, { waiting := [(0, 3)] })] }))
      fun t => (ch0 t).dropped && (leafState t 0).waiting.isEmpty && logged t (0x273, 0),
  ev (exec (.chipletDrop 0) (chip { dropped := true })) fun t => t.dev.log.isEmpty,
  ev (exec (.chipletReinitialised 0 true) (chip { fenced := true, resetting := true } { State.reset with cores := [(3, { qfree8 := 1 })], leaves := [(1, { lost := true })] }))
      fun t => ch0 t == {} && (coreOf t 3).qfree8 == 16 && t.leaves.isEmpty,
  ev (exec (.chipletReinitialised 0 false) (chip { resetting := true } State.reset)) fun t => (ch0 t).dropped,
  ev (exec (.chipletReinitialised 0 true) (chip { fenced := true } State.reset)) fun t => (ch0 t).fenced,
  ev (exec (.clockChange 450) (base)) fun t => t.mhz == 450,
  ev (exec (.clockChange 460) (base)) fun t => t.mhz == 850] : List Bool).all id = true := by decide +kernel

/-- R363, R364, R414, R415, R417. -/
theorem test_PartitionOperations : ([
  ev (exec (.partCreate (.session 1) 2 1) (session1 none)) fun t => sessSays t 1 1,
  ev (exec (.partCreate .management 2 1) (rom)) fun t => mgmtSays t 1 2,
  ev (exec (.partCreate .management 2 1) (base)) fun t => mgmtSays t 1 3,
  ev (exec (.partCreate .management 2 1) ({ State.reset with mem := [(2 ^ 38 + 5, 1)] })) fun t => mgmtSays t 1 0 &&
      (tget t.parts 2).map (·.n) == some 2 && t.mem.isEmpty,
  ev (exec (.partDestroy (.session 1) 0) (session1 none)) fun t => sessSays t 2 1,
  ev (exec (.partDestroy .management 1) (base)) fun t => mgmtSays t 2 2,
  partHeld base 0 && ev (exec (.partDestroy .management 0) (base)) fun t => mgmtSays t 2 3,
  !partHeld (session1 none) 0 && ev (exec (.partDestroy .management 0) (session1 none)) fun t => mgmtSays t 2 0 &&
      t.parts.isEmpty,
  ev (exec (.agentAssign (.session 1) 3 0) (session1 none)) fun t => sessSays t 3 1,
  agentCached { caches .s with parts := [(0, { n := 8 })] } 4 &&
      ev (exec (.agentAssign .management 4 0) ({ caches .s with parts := [(0, { n := 8 })] })) fun t => mgmtSays t 3 3,
  ev (exec (.agentAssign .management 4 0) (session1 none)) fun t => mgmtSays t 3 0 && t.dev.agents == [(4, 0)],
  ev (exec (.agentAssign .management 0 0) (dev0 (fun d => { d with self := 0 }) (session1 none))) fun t => mgmtSays t 3 2,
  ev (exec (.winSet (.session 1) 0 (winR 0)) (session1 none)) fun t => sessSays t 4 1,
  ev (exec (.winSet .management 0 (winR 4)) (base)) fun t => mgmtSays t 4 8,
  (winConds base 0 (winMask (winR 0x2000))).all (·.1) && ev (exec (.winSet .management 0 (winR 0x2000)) (base))
      fun t => mgmtSays t 4 0 && t.windows == [(0, winR 0x2000)],
  ev (exec (.winSeal .management 0 1) (base)) fun t => mgmtSays t 5 1,
  ev (exec (.winSeal (.session 1) 0 2) (windows (winR 0x2000) (session1 (some 7)))) fun t => sessSays t 5 3,
  ev (exec (.winSeal (.session 1) 0 1) (windows (winR 0x2000) (session1 (some 7)))) fun t => sessSays t 5 0 &&
      (t.windows.map fun w => winSealOf w.2) == [1],
  ev (exec (.winSeal (.session 1) 0 0) ({ windows (winR 0x2008) (session1 (some 7)) with keys := [(0, 5)] }))
      fun t => sessSays t 5 0 && (t.windows.map fun w => winSealOf w.2) == [0] && t.keys.isEmpty,
  ev (exec (.keyBind .management 0 0 0 0) (base)) fun t => mgmtSays t 6 1,
  ev (exec (.keyClear (.session 2) 0) (session1 none)) fun t => sessSays t 7 1,
  ev (exec (.keyClear .management 0) ({ base with keys := [(0, 5)] })) fun t => mgmtSays t 7 0 && t.keys.isEmpty] : List Bool).all id = true := by decide +kernel

/-- R411, R416, R419: the codes of log 13. -/
theorem test_ResponderAndStreams : ([
  ev (exec (.getVersion spdm) (State.reset)) fun t => said1 t 0x04 0x84 [0x1300],
  ev (exec (.getCapabilities spdm) (State.reset)) fun t => said1 t 0x61 0xE1 [],
  ev (exec (.negotiateAlgorithms spdm) (State.reset)) fun t => said1 t 0x63 0xE3 [],
  ev (exec (.getDigests spdm) (State.reset)) fun t => said t 0x01 0x81,
  ev (exec (.getCertificate spdm) (State.reset)) fun t => said t 0x02 0x82,
  ev (exec (.challenge spdm) (State.reset)) fun t => said1 t 0x7F 0x83 [0x42],
  ev (exec (.challenge spdm) (leaves4)) fun t => said t 0x03 0x83 && t.dev.leaf == 4,
  (measure State.reset 5).isNone && ev (exec (.getMeasurements { spdm with arg := 5 }) (State.reset))
      fun t => said1 t 0x7F 0xE0 [1],
  (measure State.reset 1).isSome && ev (exec (.getMeasurements { spdm with arg := 1 }) (State.reset))
      fun t => said t 0x60 0xE0,
  ev (exec (.getMeasurements { spdm with arg := 0x101 }) (leaves4)) fun t => said t 0x60 0xE0 && t.dev.leaf == 4,
  ev (exec (.keyExchange spdm) (rom)) fun t => said1 t 0x7F 0xE4 [7],
  ev (exec (.finish spdm) (rom)) fun t => said1 t 0x7F 0xE5 [7],
  ev (exec (.heartbeat spdm) (rom)) fun t => said1 t 0x7F 0xE8 [7],
  ev (exec (.keyUpdate spdm) (rom)) fun t => said1 t 0x7F 0xE9 [7],
  ev (exec (.endSession spdm) (rom)) fun t => said1 t 0x7F 0xEC [7],
  ev (exec (.vendorDefinedRequest spdm) (rom)) fun t => said1 t 0x7F 0xFE [7],
  ev (exec (.heartbeat spdm) (State.reset)) fun t => said1 t 0x7F 0xE8 [2],
  ev (exec (.keyUpdate spdm) (State.reset)) fun t => said1 t 0x7F 0xE9 [2],
  ev (exec (.endSession spdm) (State.reset)) fun t => said1 t 0x7F 0xEC [2],
  ev (exec (.vendorDefinedRequest spdm) (State.reset)) fun t => said1 t 0x7F 0xFE [2],
  ev (exec (.keyExchange spdm) (session1 none)) fun t => said1 t 0x7F 0xE4 [2],
  ev (exec (.keyExchange spdm) (leaves4)) fun t => said t 0x64 0xE4 && t.dev.leaf == 4 &&
      t.dev.sessions == [{ id := 1, open_ := false, chain := 3 }],
  ev (exec (.keyExchange spdm) (State.reset)) fun t => said1 t 0x7F 0xE4 [0x42],
  ev (exec (.finish spdm) (dev0 fun d => { d with sessions := [{ id := 1, open_ := false, chain := 3 }] }))
      fun t => said1 t 0x65 0xE5 [] && (sessionOf t 1).isSome,
  ev (exec (.finish spdm) (session1 none)) fun t => said1 t 0x7F 0xE5 [4],
  ev (exec (.heartbeat spdm) (session1 none)) fun t => said1 t 0x68 0xE8 [],
  ev (exec (.vendorDefinedRequest spdm) (session1 none)) fun t => said1 t 0x7E 0xFE [],
  ev (exec (.keyUpdate spdm) (session1 none)) fun t => said1 t 0x69 0xE9 [] && t.dev.sessions.map (·.keys) == [1],
  ev (exec (.endSession spdm) (session1 none)) fun t => said1 t 0x6C 0xEC [] && (sessionOf t 1).isNone,
  ev (exec (.ideKm 1 1) (session1 none)) fun t => t.dev.streams == [(1, true)],
  ev (exec (.ideKm 2 1) (session1 none)) fun t => t.dev.streams.isEmpty,
  ev (exec (.ideIntegrityFail 0) (stream0 true base)) fun t => insecure t 0 && insecure t 5,
  ev (exec (.ideIntegrityFail 1) (dev0 (fun d => { d with streams := [(1, true)] }) base)) fun t => insecure t 0 &&
      t.dev.irqs == [(0, 0)],
  ev (exec (.ideIntegrityFail 1) (base)) fun t => !insecure t 0] : List Bool).all id = true := by decide +kernel

/-- R409, R412, R413, R418-R421. -/
theorem test_HostLinksAndStarts : ([
  ev (exec (.hostAccess 0 false 0x8010 [0]) (base)) fun t => answered t none,
  ev (exec (.hostAccess 0 false 0x8FFF [0, 0]) (hosted)) fun t => t.dev.hostReads == [(0x8FFF, none)],
  insecure (stream0 false hosted) 0 && ev (exec (.hostAccess 0 false 0x8010 [0]) (stream0 false hosted))
      fun t => answered t none,
  sealAt hosted 0x8010 == 0 && usable hosted 0x100 false &&
      ev (exec (.hostAccess 0 false 0x8010 [0]) (lines [(0x100, fields [(0x10, 6)])] hosted))
      fun t => answered t (some [6]),
  ev (exec (.hostAccess 0 false 0x8010 [0]) (dev0 (fun d => { d with hostWaits := [(0, true, 0x8000, [5])] }) hosted))
      fun t => t.dev.hostWaits.length == 2 && t.dev.hostReads.isEmpty,
  let s := { hosted with slices := [(0, { ways := [(0, { line := 0x100, valid := 0xF, glaze := glazeMk 4 4 0 false })] })] };
      !usable s 0x100 true && ev (exec (.hostAccess 0 true 0x8010 [6]) s)
      fun t => t.dev.hostWaits == [(0, true, 0x8010, [6])] && t.dev.hostReads.isEmpty,
  usable hosted 0x100 true && ev (exec (.hostAccess 0 true 0x8010 [6]) (hosted)) fun t => answered t (some []) &&
      peekBytes t 0x8010 1 == [6],
  sealAt (windows (winR 0x2008) hosted) 0x8010 == 2 &&
      ev (exec (.hostAccess 0 true 0x8010 [6]) (windows (winR 0x2008) hosted)) fun t => answered t none,
  ev (exec (.flitCrcFail 2) (linkS)) fun t => t.dev.replays == [(2, 1)],
  ev (exec (.portFail 2) (linkS)) fun t => !portUp t 2 && t.dev.ports == [(2, 5)],
  ev (exec (.flitCrcFail 3) (linkS)) fun t => t.dev.replays.isEmpty,
  ev (exec (.portFail 3) (linkS)) fun t => t.dev.portsFailed.isEmpty,
  ev (exec (.linkTrain 3 6) (linkS)) fun t => portUp t 3 && tget t.dev.ports 3 == some 6,
  ev (exec (.linkTrain 2 63) (linkS)) fun t => (tget t.dev.ports 2).isNone && logged t (0x413, 2),
  ev (exec (.linkTrain 3 6) (linkS fun d => { d with mode := 2 })) fun t => !portUp t 3,
  ev (exec (.coldPowerOn x0) (ran)) fun t => t.dev.mode == 0 && t.dev.ready && t.parts.isEmpty && t.cores.isEmpty &&
      t.mem.isEmpty && t.clock == 0 && t.dev.self == 5,
  ev (exec (.coldPowerOn { x0 with imagePresent := false }) (ran)) fun t => t.dev.mode == 2 && t.dev.reason == 0x12 &&
      !t.dev.ready,
  ev (exec (.coldPowerOn { x0 with sigValid := false }) (ran)) fun t => t.dev.mode == 2 && t.dev.reason == 0x10,
  ev (exec (.coldPowerOn { x0 with versionOk := false }) (ran)) fun t => t.dev.mode == 2 && t.dev.reason == 0x11,
  (startWarm (dev0 fun d => { d with fails := 3 }) x0 1).dev.mode == 1,
  ev (exec (.warmReset x0) (ran)) fun t => t.dev.reason == 1 && t.dev.mode == 0 && t.dev.log == [(1, 2)] &&
      t.mem.isEmpty && t.clock == 9,
  ev (exec (.watchdog x0) (ran)) fun t => t.dev.reason == 2,
  ev (exec (.unsparedBaseDieError x0) (ran)) fun t => t.dev.reason == 0x31,
  ev (exec (.startTimeout x0) (State.reset)) fun t => t.dev.reason == 0x40 && t.dev.fails == 1,
  ev (exec (.startTimeout x0) (ran)) fun t => t.dev.fails == 1 && t.dev.reason == 0,
  ev (exec (.schedulerDoubleFail x0) (dev0 fun d => { d with schedulers := 1 })) fun t => t.dev.reason == 0x30,
  ev (exec (.schedulerDoubleFail x0) (ran)) fun t => t.dev.reason == 0,
  ev (exec (.failsWindowExpire) (ran)) fun t => t.dev.fails == 0,
  ev (exec (.imageUpdate false x0) (ran)) fun t => t.dev.images == 1,
  ev (exec (.imageUpdate true x0) (rom)) fun t => t.dev.images == 1 && t.dev.mode == 0 && t.dev.reason == 3,
  ev (exec (.imageUpdate false x0) (rom)) fun t => t.dev.images == 0 && t.dev.mode == 2] : List Bool).all id = true := by decide +kernel

/-! The whole machine. -/

/-- The hypotheses of a KEY_BIND that goes to the key's own check: session 1 binds slot 0 of partition 0 (R417). -/
theorem test_PartitionOperations_bind :
    mayBind (session1 none) 0 (.session 1) = true ∧ (session1 none).dev.mode = 0 ∧
      (∃ d, measure (session1 none) (0x10 + 0) = some d) ∧ (chipletsOf (session1 none) 0).contains (0 / 8) = true ∧
      tget (session1 none).keys 0 = none :=
  ⟨by decide, rfl, ⟨_, rfl⟩, by decide, rfl⟩

/-- And of one with another digest. -/
theorem test_PartitionOperations_digest : ∃ d, measure (session1 none) (0x10 + 0) ≠ some d := by
  refine ⟨(measure (session1 none) (0x10 + 0)).getD 0 + 1, fun h => ?_⟩
  generalize hd : measure (session1 none) (0x10 + 0) = m at h
  cases m with
  | none => exact absurd h (by simp)
  | some d =>
    have := Option.some.inj h
    simp at this

/-- A word stands next. -/
def stands (i : Instr) (s : State) : Bool := (here (put i s) (encode i)).isSome
/-- Everything but the warp is as it was. -/
def kept (i : Instr) (s : State) (t : State) : Bool :=
  let s := put i s
  ({ t with cores := s.cores } == s) && ({ c0 t with warps := (c0 s).warps } == c0 s)
def register (i : Instr) (s : State := base) : Bool := wit i s (fun x => x.wp.vPoison.isEmpty) fun _ t => kept i s t
def turn (s : State) : Bool := s.agenda.isEmpty && s.cur == some (0, 0, .a) && mayIssue s 0 0 .a
def stepped (s : State) (q : State → Bool) : Bool := ev (step s) q

/-- R36, R39-R42, R147, R184. -/
theorem test_RegisterWordsChangeOnlyTheirWarp : ([
  stands (.sadd (gen 3)) base && !(Instr.sadd (gen 3)).wf &&
      ev (exec (.sadd (gen 3)) (put (.sadd (gen 3)) base)) (trapIs .undef),
  stands (.vmov (gen 200)) (wp0 fun w => { w with granules := [0] }) &&
      ev (exec (.vmov (gen 200)) (put (.vmov (gen 200)) (wp0 fun w => { w with granules := [0] }))) (trapIs .prot),
  stands (.vmov (gen 3)) (wp0 fun w => { w with pend := [3] }) && ev (exec (.vmov (gen 3)) (put (.vmov (gen 3)) (wp0
      fun w => { w with pend := [3] }))) fun t => t == put (.vmov (gen 3)) (wp0 fun w => { w with pend := [3] }),
  register (.smov (gen 3)),
  register (.sadd64 (gen 4 zero zero zero .n64)),
  register (.smovi (imm 3 7)),
  register (.mand (gen 2 (.reg 1) (.reg 1))),
  register (.vmov (gen 3)),
  register (.vadd64 (gen 4 zero zero zero .n64)),
  register (.vmovi (imm 3 7)),
  register (.vcmp (gen 2 zero zero zero .i32))] : List Bool).all id = true := by decide +kernel

/-- R35-R38. -/
theorem test_StepRunsDecodedInstruction : ([
  turn (put (.nop (gen 0))) && dec (curWords (put (.nop (gen 0)))) == some (.nop (gen 0), 1) &&
      stepped (put (.nop (gen 0))) fun t => (w0 t).a.pc == 16,
  turn base && curWords base == [] && stepped (code (hdr + 0x13007000123456780000000000000000))
      fun t => (w0 t).a.words.length == 1,
  let s := path0 fun p => { p with words := [0xFF00000000000000] }; turn s && (decode (curWords s)).toOption.isNone &&
      stepped s (trapIs .undef),
  let s := { put (.nop (gen 0)) with agenda := [.issue 0 0 .a] }; mayIssue s 0 0 .a && s.cur == some (0, 0, .a) &&
      stepped s fun t => (w0 t).a.pc == 16,
  stepped { waits (.sleep 5) with agenda := [.issue 0 0 .a] } fun t => (w0 t).a.pc == 8,
  stepped { put (.nop (gen 0)) with agenda := [.event (.nop (gen 0))] } fun t => (w0 t).a.pc == 8,
  stepped { base with agenda := [.own (.saveDeadline 0)] } fun t => (c0 t).ctx == some 0,
  stepped { base with agenda := [.event (.clockChange 450)] } fun t => t.mhz == 450,
  stepped { base with agenda := [.tick 5] } fun t => t.clock == 5 && t.arith == 5 * 850,
  stepped State.reset fun t => t.clock == 1] : List Bool).all id = true := by decide +kernel

/-- R39-R57: an instruction of two words before another. -/
theorem test_DecodeInvertsEncode : ((Instr.atomcas (mem 2 6 0xFF 8 8) { ret := 12, cmp := 3 }).wf &&
      dec (encode (.atomcas (mem 2 6 0xFF 8 8) { ret := 12, cmp := 3 }) ++ [5]) == some (.atomcas (mem 2 6 0xFF 8 8) { ret := 12, cmp := 3 }, 2)) = true := by decide +kernel

/-- R344. -/
theorem test_EveryStepKeepsMemoryCanonical : ([
  memWf base.mem,
  memWf (memWrite base.mem 0x9000 5) && memRead (memWrite base.mem 0x9000 5) 0x9000 == 5 &&
      memWrite (memWrite base.mem 0x9000 5) 0x9000 0 == base.mem] : List Bool).all id = true := by decide +kernel

end Sys2Proof.Tests
end

/-! What the homes leave as it was: everything but the fields that the coherence protocol writes. -/

namespace Sys2Proof.Machine

/-- The state but for what a home writes when it takes and performs requests: the slices, DRAM and its sideband, the
messages to other agents, the cores that get results, the race log, and the free values drawn (R347-R369). -/
def besideHomes (s : State) : State :=
  { s with freeCount := 0, cores := [], slices := [], mem := [], memPoison := [], glaze := [], contexts := [],
           late := [], outbox := [] }

/-- What every step of a fold keeps, the fold keeps. -/
theorem foldl_keeps {σ ι β : Type} (p : σ → β) {f : σ → ι → σ} (hf : ∀ s i, p (f s i) = p s) (l : List ι) (s : σ) :
    p (l.foldl f s) = p s := by
  induction l generalizing s with
  | nil => rfl
  | cons i l ih => exact (ih _).trans (hf s i)

theorem foldN_keeps {σ β : Type} (p : σ → β) {f : Nat → σ → σ} (hf : ∀ i s, p (f i s) = p s) (n : Nat) (s : σ) :
    p (foldN n f s) = p s :=
  foldl_keeps p (fun s i => hf i s) _ s

/-! Single updates. -/

@[simp] theorem besideHomes_modCore (s c f) : besideHomes (modCore s c f) = besideHomes s := rfl
@[simp] theorem besideHomes_modWarp (s c w f) : besideHomes (modWarp s c w f) = besideHomes s := rfl
@[simp] theorem besideHomes_modOp (s c i f) : besideHomes (modOp s c i f) = besideHomes s := rfl
@[simp] theorem besideHomes_modSlice (s h f) : besideHomes (modSlice s h f) = besideHomes s := rfl
@[simp] theorem besideHomes_setWay (s h k w) : besideHomes (setWay s h k w) = besideHomes s := rfl
@[simp] theorem besideHomes_addEntry (s h e) : besideHomes (addEntry s h e) = besideHomes s := rfl
@[simp] theorem besideHomes_modEntry (s h l f) : besideHomes (modEntry s h l f) = besideHomes s := rfl
@[simp] theorem besideHomes_dropEntry (s h l) : besideHomes (dropEntry s h l) = besideHomes s := rfl
@[simp] theorem besideHomes_waitIn (s h l r) : besideHomes (waitIn s h l r) = besideHomes s := rfl
@[simp] theorem besideHomes_send (s m) : besideHomes (send s m) = besideHomes s := rfl
@[simp] theorem besideHomes_sendHome (s k l d m) : besideHomes (sendHome s k l d m) = besideHomes s := rfl
@[simp] theorem besideHomes_dataMsg (s a k l d) : besideHomes (dataMsg s a k l d) = besideHomes s := rfl

theorem besideHomes_mem (s : State) (m : List Host.Cell) : besideHomes { s with mem := m } = besideHomes s := rfl

theorem besideHomes_raceNotes (s : State) (cs : Tab Ctx) (l : List Late) :
    besideHomes { s with contexts := cs, late := l } = besideHomes s := rfl

@[simp] theorem besideHomes_sendSnoops (s l k ts) : besideHomes (sendSnoops s l k ts) = besideHomes s :=
  foldl_keeps besideHomes (fun s _ => besideHomes_send s _) ts s

/-- Both branches of a choice keep it. -/
@[simp] theorem besideHomes_ite (c : Prop) [Decidable c] (s t : State) :
    besideHomes (if c then s else t) = if c then besideHomes s else besideHomes t := apply_ite ..

/-! DRAM and the ways of a slice. -/

@[simp] theorem besideHomes_noteGlaze (s l) : besideHomes (noteGlaze s l) = besideHomes s := by
  unfold noteGlaze; split <;> rfl

@[simp] theorem besideHomes_dramStore (s l d m p) : besideHomes (dramStore s l d m p) = besideHomes s := by
  unfold dramStore
  split
  · rfl
  · simp only
    split
    · split
      · simp only [besideHomes_noteGlaze]; rfl
      · simp only [besideHomes_noteGlaze]; rfl
    · simp only [besideHomes_noteGlaze]; rfl

@[simp] theorem besideHomes_evict (s h k w) : besideHomes (evict s h k w) = besideHomes s := by
  unfold evict
  simp only
  split
  · have draw (c : Bool) (t : State) :
        besideHomes (if c then { t with freeCount := t.freeCount + 1 } else t) = besideHomes t := by split <;> rfl
    split
    · exact (besideHomes_dramStore ..).trans (draw _ _)
    · exact (besideHomes_dramStore ..).trans (draw _ _)
  · rfl
  · rfl

@[simp] theorem besideHomes_fillWay (s h w) : besideHomes (fillWay s h w) = besideHomes s := by
  unfold fillWay
  simp only [besideHomes_modSlice]
  split
  · split
    · rfl
    · exact besideHomes_evict ..
  · rfl

@[simp] theorem besideHomes_pokeLine (s l d m p) : besideHomes (pokeLine s l d m p) = besideHomes s := by
  unfold pokeLine
  split
  · rfl
  · split
    · split <;> rfl
    · simp

@[simp] theorem besideHomes_pokeBytes (s a bs) : besideHomes (pokeBytes s a bs) = besideHomes s := by
  unfold pokeBytes
  simp only
  split
  · rfl
  · exact foldN_keeps _ (fun _ _ => besideHomes_pokeLine ..) _ _

/-! Results that come back to a core. -/

@[simp] theorem besideHomes_completeOp (s c i) : besideHomes (completeOp s c i) = besideHomes s := by
  unfold completeOp; split <;> rfl

@[simp] theorem besideHomes_lateTrap (s r c l a) : besideHomes (lateTrap s r c l a) = besideHomes s := by
  unfold lateTrap
  split
  · rfl
  · simp

@[simp] theorem besideHomes_performed (s r) : besideHomes (performed s r) = besideHomes s := by
  unfold performed
  split
  · rfl
  · simp only
    split <;> simp

@[simp] theorem besideHomes_deliver (s r d p) : besideHomes (deliver s r d p) = besideHomes s := by
  unfold deliver
  split
  · rfl
  · simp [foldl_keeps besideHomes (fun _ _ => besideHomes_modWarp ..)]

@[simp] theorem besideHomes_answerUnit (s r d) : besideHomes (answerUnit s r d) = besideHomes s := by
  unfold answerUnit; split <;> rfl

/-! The race detector. -/

@[simp] theorem besideHomes_raceLog (s x va w k) : besideHomes (raceLog s x va w k) = besideHomes s := by
  unfold raceLog
  simp only
  split
  · exact besideHomes_pokeBytes ..
  · exact besideHomes_raceNotes s _ _

@[simp] theorem besideHomes_recordWrite (s x l m) : besideHomes (recordWrite s x l m) = besideHomes s := by
  unfold recordWrite
  refine foldN_keeps _ (fun i s => ?_) _ _
  split
  · split
    · exact besideHomes_mem s _
    · rfl
  · rfl

@[simp] theorem besideHomes_raceDo (s r m k) : besideHomes (raceDo s r m k) = besideHomes s := by
  unfold raceDo
  split
  · rfl
  · simp only [besideHomes_ite, besideHomes_recordWrite, ite_self]
    refine foldN_keeps _ (fun i s => ?_) _ _
    split
    · split
      · exact besideHomes_raceLog ..
      · rfl
    · rfl

/-! Performing a request. -/

@[simp] theorem besideHomes_addProv (s h r d m p t) : besideHomes (addProv s h r d m p t) = besideHomes s := by
  unfold addProv
  simp only
  split
  · rfl
  · rw [besideHomes_modSlice]
    split
    · exact besideHomes_evict ..
    · rfl

@[simp] theorem besideHomes_hashAtoms (s r w o op ty rnd olds) :
    besideHomes (hashAtoms s r w o op ty rnd olds) = besideHomes s := by
  unfold hashAtoms
  split
  · rfl
  · refine foldl_keeps _ (fun s x => ?_) _ _
    simp only
    split
    · rfl
    · split
      · split <;> rfl
      · rfl

@[simp] theorem besideHomes_homeData (s h w) : besideHomes (homeData s h w).1 = besideHomes s := by
  unfold homeData; split <;> rfl

@[simp] theorem besideHomes_performOn (s h k w r) : besideHomes (performOn s h k w r) = besideHomes s := by
  unfold performOn
  split
  · simp
  · simp
  · split <;> simp only [besideHomes_ite, besideHomes_performed, besideHomes_addProv, besideHomes_answerUnit,
      besideHomes_setWay, besideHomes_raceDo, ite_self]
  · simp only
    split
    · simp
    · simp [foldl_keeps besideHomes (fun _ _ => besideHomes_modWarp ..)]

/-! Taking a request. -/

@[simp] theorem besideHomes_startFx (s h l o ts r) : besideHomes (startFx s h l o ts r) = besideHomes s := by
  simp [startFx]

@[simp] theorem besideHomes_grant (s h k w r) : besideHomes (grant s h k w r) = besideHomes s := by
  cases r <;> simp [grant]

@[simp] theorem besideHomes_takeReq (s h k w r) : besideHomes (takeReq s h k w r) = besideHomes s := by
  unfold takeReq
  simp only
  split <;> split <;> simp

@[simp] theorem besideHomes_takeRemote (s h l q) : besideHomes (takeRemote s h l q) = besideHomes s := by
  unfold takeRemote
  simp only
  split
  · split
    · simp
    · split <;> simp
  · simp only [besideHomes_ite, besideHomes_addEntry, besideHomes_sendHome, ite_self]

@[simp] theorem besideHomes_homeWay (s h l) : besideHomes (homeWay s h l).1 = besideHomes s := by
  unfold homeWay
  simp only
  split
  · split <;> simp
  · split <;> simp

@[simp] theorem besideHomes_loseGlaze (s h l) : besideHomes (loseGlaze s h l) = besideHomes s := by
  unfold loseGlaze; split <;> rfl

theorem besideHomes_finishWith (s h l) {f : State → State} (hf : ∀ s, besideHomes (f s) = besideHomes s) :
    besideHomes (finishWith s h l f) = besideHomes s := by
  unfold finishWith
  split
  · rfl
  · exact hf _

@[simp] theorem besideHomes_endFx (s h l e o m) : besideHomes (endFx s h l e o m) = besideHomes s :=
  besideHomes_finishWith _ _ _ fun _ => by simp

@[simp] theorem besideHomes_recover (s h l e) : besideHomes (recover s h l e) = besideHomes s := by
  simp [recover]

@[simp] theorem besideHomes_startLost (s h l r) : besideHomes (startLost s h l r) = besideHomes s := by
  unfold startLost
  simp only
  split <;> simp

/-- A result that is given only where there is room for it. -/
theorem besideHomes_of_room {c : Prop} [Decidable c] {s t u : State} (ht : (if c then some u else none) = some t)
    (hu : besideHomes u = besideHomes s) : besideHomes t = besideHomes s := by
  simp only [Option.ite_none_right_eq_some, Option.some.injEq] at ht
  exact ht.2 ▸ hu

/-- A request that is taken leaves everything beside the homes. -/
theorem besideHomes_tryTake {s t : State} {h l : Nat} {r : HReq} (ht : tryTake s h l r = some t) :
    besideHomes t = besideHomes s := by
  unfold tryTake at ht
  simp only at ht
  split at ht
  · split at ht
    · cases ht
      exact besideHomes_performed ..
    · exact besideHomes_of_room ht (by simp)
  · split at ht
    · cases ht
      split
      · exact besideHomes_takeRemote ..
      · rfl
    · split at ht
      · split at ht
        · exact besideHomes_of_room ht (besideHomes_startLost ..)
        · split at ht
          · exact besideHomes_of_room ht (besideHomes_takeReq ..)
          · exact besideHomes_of_room ht (besideHomes_addEntry ..)
      · exact besideHomes_of_room ht (besideHomes_addEntry ..)

@[simp] theorem besideHomes_submit (s h l r) : besideHomes (submit s h l r) = besideHomes s := by
  have taken (t : State) : besideHomes ((tryTake t h l r).getD (waitIn t h l r)) = besideHomes t := by
    cases ht : tryTake t h l r with
    | none => rfl
    | some u => exact besideHomes_tryTake ht
  simp [submit, taken]

/-! The device's own accesses. -/

@[simp] theorem besideHomes_wantLine (s p l o h w) : besideHomes (wantLine s p l o h w) = besideHomes s := by
  simp only [wantLine, besideHomes_ite, besideHomes_submit, ite_self]

@[simp] theorem besideHomes_homeWrite (s p l d m q h) : besideHomes (homeWrite s p l d m q h) = besideHomes s := by
  unfold homeWrite
  split
  · rfl
  · split
    · simp only
      split
      · split
        · simp
        · simp
      · simp
    · exact besideHomes_submit ..

@[simp] theorem besideHomes_homeWriteBytes (s p a bs h) : besideHomes (homeWriteBytes s p a bs h) = besideHomes s := by
  unfold homeWriteBytes
  simp only
  split
  · rfl
  · exact foldN_keeps _ (fun _ _ => besideHomes_homeWrite ..) _ _

/-! Writes that the device makes for copies, and the end of a copy. -/

/-- The state but for what the end of a copy writes: what a home writes, the copies, and the mailbox and interrupts of the
device (R277, R373). -/
def besideCopies (s : State) : State := { besideHomes s with copies := [], dev := {} }

theorem besideCopies_of_besideHomes {s t : State} (h : besideHomes t = besideHomes s) :
    besideCopies t = besideCopies s :=
  congrArg (fun u : State => { u with copies := [], dev := {} }) h

@[simp] theorem besideCopies_modWarp (s c w f) : besideCopies (modWarp s c w f) = besideCopies s := rfl
@[simp] theorem besideCopies_irq (s p v) : besideCopies (irq s p v) = besideCopies s := rfl
@[simp] theorem besideCopies_logEvent (s c a) : besideCopies (logEvent s c a) = besideCopies s := rfl

@[simp] theorem besideCopies_lateGo (s x) : besideCopies (lateGo s x) = besideCopies s := by
  have done (t : State) : besideCopies (match x.irq with | some v => irq t x.part v | none => t) = besideCopies t := by
    split <;> rfl
  have lost (t : State) :
      besideCopies (match x.fail with | some (c, a) => logEvent t c a | none => t) = besideCopies t := by
    split <;> rfl
  unfold lateGo
  simp only
  split
  · exact besideCopies_of_besideHomes (besideHomes_wantLine ..)
  · exact (done _).trans (lost _)
  · split
    · exact (done _).trans (besideCopies_of_besideHomes (besideHomes_homeWriteBytes ..))
    · exact (done _).trans (lost _)

@[simp] theorem besideCopies_devWrite (s x) : besideCopies (devWrite s x) = besideCopies s := by
  unfold devWrite
  split
  · rfl
  · exact besideCopies_lateGo ..

@[simp] theorem besideCopies_ctxPut (s c va bs) : besideCopies (ctxPut s c va bs) = besideCopies s :=
  besideCopies_devWrite ..

@[simp] theorem besideCopies_noteRecord (s c y st) : besideCopies (noteRecord s c y st) = besideCopies s := by
  unfold noteRecord
  split <;> simp

@[simp] theorem besideCopies_finishCopy (s i st) : besideCopies (finishCopy s i st) = besideCopies s := by
  unfold finishCopy
  split
  · rfl
  · refine (foldl_keeps besideCopies (fun s y => ?_) _ _).trans rfl
    simp only
    split
    · split <;> simp
    · simp

@[simp] theorem besideCopies_drainDone (s) : besideCopies (drainDone s) = besideCopies s := by
  unfold drainDone
  refine foldl_keeps besideCopies (fun s x => foldl_keeps besideCopies (fun s sl => ?_) _ _) _ _
  split <;> rfl

@[simp] theorem besideCopies_cancelGather (s c) : besideCopies (cancelGather s c) = besideCopies s :=
  foldl_keeps besideCopies (fun _ _ => (besideCopies_drainDone _).trans (besideCopies_finishCopy ..)) _ _

@[simp] theorem cancelGather_chiplets (s c) : (cancelGather s c).chiplets = s.chiplets :=
  (congrArg State.chiplets (besideCopies_cancelGather s c) :)

@[simp] theorem cancelGather_arith (s c) : (cancelGather s c).arith = s.arith :=
  (congrArg State.arith (besideCopies_cancelGather s c) :)

end Sys2Proof.Machine

/-! Chiplets: what their fence, reset, drop and return leave, and the loss of a context that was not saved. -/

namespace Sys2Proof.Machine

/-! Reading a chiplet. -/

@[simp] theorem chipOf_modChip (s c f) : chipOf (modChip s c f) c = f (chipOf s c) := tgetD_tput ..

theorem chipOf_congr {s t : State} (h : t.chiplets = s.chiplets) (c : Nat) : chipOf t c = chipOf s c := by
  simp only [chipOf, h]

/-- A core of a fenced chiplet takes no block. -/
theorem coreInService_fenced {s : State} {k : Nat} (h : (chipOf s (chipletOf k)).fenced = true) :
    coreInService s k = false := by
  have : (tgetD s.chiplets (chipletOf k) {}).fenced = true := h
  simp [coreInService, this]

/-! The note in the log. -/

@[simp] theorem chipNote_chiplets (s c a) : (chipNote s c a).chiplets = s.chiplets := by
  unfold chipNote; simp only; split <;> rfl

@[simp] theorem chipNote_leaves (s c a) : (chipNote s c a).leaves = s.leaves := by
  unfold chipNote; simp only; split <;> rfl

@[simp] theorem chipNote_log (s c a) : (chipNote s c a).dev.log = s.dev.log ++ [(a, c)] := by
  unfold chipNote; simp only; split <;> rfl

@[simp] theorem chipOf_chipNote (s c a d) : chipOf (chipNote s c a) d = chipOf s d := chipOf_congr (by simp) d

/-! Blocks that go back to the distributor. -/

@[simp] theorem handBack_chiplets (s c) : (handBack s c).chiplets = s.chiplets := rfl

@[simp] theorem handBack_arith (s c) : (handBack s c).arith = s.arith := rfl

/-- No block waits at a leaf of the chiplet any more. -/
theorem handBack_quiet (s : State) (c : Nat) : ∀ f ∈ (handBack s c).leaves, f.1 / 8 = c → f.2.waiting = [] := by
  intro f hf hc
  obtain ⟨g, -, rfl⟩ := List.mem_map.1 hf
  by_cases hg : g.1 / 8 = c
  · simp [hg]
  · simp [hg] at hc

/-- A fence's or a drop's own chiplet entry, before it changes. -/
theorem chipOf_handBack_cancelGather (s : State) (c d : Nat) : chipOf (handBack (cancelGather s c) c) d = chipOf s d :=
  chipOf_congr (by simp) d

/-! The fence. -/

theorem chipOf_fence (s : State) (c : Nat) : chipOf (fence s c) c = { chipOf s c with fenced := true } := by
  unfold fence
  split
  · rename_i h
    rw [← h]
  · simp [chipOf_handBack_cancelGather]

theorem fence_quiet {s : State} {c : Nat} (h : (chipOf s c).fenced = false) :
    ∀ f ∈ (fence s c).leaves, f.1 / 8 = c → f.2.waiting = [] := by
  simp only [fence, h, Bool.false_eq_true, if_false, chipNote_leaves]
  exact handBack_quiet _ c

theorem fence_log {s : State} {c : Nat} (h : (chipOf s c).fenced = false) : (0x271, c) ∈ (fence s c).dev.log := by
  simp [fence, h]

/-! Granules that leave with their saves. -/

/-- The state but for what the move of a column's granules into the saves writes (R27, R332, R333). -/
def besideSaves (s : State) : State := { s with saves := [], launches := [], bankUsed := [] }

@[simp] theorem besideSaves_freeBank (s b) : besideSaves (freeBank s b) = besideSaves s := by
  unfold freeBank
  split
  · split
    · rfl
    · simp only
      split <;> rfl
  · rfl

@[simp] theorem besideSaves_shareOut (s co b) : besideSaves (shareOut s co b) = besideSaves s := by
  unfold shareOut
  simp only
  split <;> rfl

@[simp] theorem besideSaves_evacuate (s k) : besideSaves (evacuate s k) = besideSaves s := by
  unfold evacuate
  refine foldl_keeps besideSaves (fun s v => ?_) _ _
  split
  · rfl
  · have freed (bs : Tab Block) (t : State) : besideSaves (bs.foldl (fun s b => freeBank s b.2) t) = besideSaves t :=
      foldl_keeps besideSaves (fun _ _ => besideSaves_freeBank ..) bs t
    exact (freed _ _).trans (besideSaves_shareOut ..)

theorem besideSaves_evacuateAll (ks : List Nat) (s : State) : besideSaves (ks.foldl evacuate s) = besideSaves s :=
  foldl_keeps besideSaves besideSaves_evacuate ks s

@[simp] theorem evacuateAll_chiplets (ks : List Nat) (s : State) : (ks.foldl evacuate s).chiplets = s.chiplets :=
  (congrArg State.chiplets (besideSaves_evacuateAll ks s) :)

@[simp] theorem evacuateAll_leaves (ks : List Nat) (s : State) : (ks.foldl evacuate s).leaves = s.leaves :=
  (congrArg State.leaves (besideSaves_evacuateAll ks s) :)

/-! The drop. -/

theorem chipOf_dropChip (s : State) (c : Nat) : chipOf (dropChip s c) c =
    { chipOf s c with fenced := true, dropped := true, resetting := false,
                      began := if (chipOf s c).resetting then (chipOf s c).began else s.arith } := by
  unfold dropChip
  simp only [chipOf_chipNote, chipOf_congr (evacuateAll_chiplets _ _), chipOf_modChip, chipOf_handBack_cancelGather,
    handBack_arith, cancelGather_arith]

theorem dropChip_quiet (s : State) (c : Nat) : ∀ f ∈ (dropChip s c).leaves, f.1 / 8 = c → f.2.waiting = [] := by
  simp only [dropChip, chipNote_leaves, evacuateAll_leaves, modChip_leaves]
  exact handBack_quiet _ c

theorem dropChip_log (s : State) (c : Nat) : (0x273, c) ∈ (dropChip s c).dev.log := by
  simp [dropChip]

/-! Tables from which keys are removed. -/

theorem tget_foldl_tdel_none {α : Type} (ks : List Nat) {t : List (Nat × α)} {n : Nat} (h : tget t n = none) :
    tget (ks.foldl (fun t k => tdel t k) t) n = none := by
  induction ks generalizing t with
  | nil => exact h
  | cons k ks ih =>
    refine ih ?_
    by_cases hk : n = k
    · rw [hk, tget_tdel]
    · rw [tget_tdel_ne t hk, h]

theorem tget_foldl_tdel {α : Type} {ks : List Nat} (t : List (Nat × α)) {n : Nat} (h : n ∈ ks) :
    tget (ks.foldl (fun t k => tdel t k) t) n = none := by
  induction ks generalizing t with
  | nil => cases h
  | cons k ks ih =>
    rcases List.mem_cons.1 h with rfl | h
    · exact tget_foldl_tdel_none ks (tget_tdel t n)
    · exact ih _ h

/-! The cores of a chiplet. -/

theorem mem_coresOf {c k : Nat} : k ∈ coresOf c ↔ ∃ i, i < 128 ∧ k = 128 * c + i := by
  simp only [coresOf, List.mem_map, List.mem_range]
  constructor
  · rintro ⟨i, hi, rfl⟩
    exact ⟨i, hi, Nat.add_comm ..⟩
  · rintro ⟨i, hi, rfl⟩
    exact ⟨i, hi, Nat.add_comm ..⟩

/-- No core of the chiplet holds a context. -/
theorem coresOf_free {s : State} {c : Nat} (h : ∀ k, k < 128 → (coreOf s (128 * c + k)).ctx = none) :
    ((coresOf c).any fun k => (coreOf s k).ctx.isSome) = false := by
  rw [List.any_eq_false]
  intro k hk
  obtain ⟨i, hi, rfl⟩ := mem_coresOf.1 hk
  simp [h i hi]

/-! The gate of a cluster pair. -/

/-- A move of a gate changes its pair at most. -/
theorem gateMove_cases (s : State) (pair : Nat) : gateMove s pair = s ∨ ∃ f, gateMove s pair = modPair s pair f := by
  unfold gateMove
  simp only
  split
  · split
    · exact .inr ⟨_, rfl⟩
    · exact .inl rfl
  · split
    · exact .inr ⟨_, rfl⟩
    · exact .inl rfl
  · split
    · exact .inl rfl
    · exact .inr ⟨_, rfl⟩
  · split
    · exact .inl rfl
    · exact .inr ⟨_, rfl⟩

/-- What no change of a pair touches, no move of a gate touches. -/
theorem settleGate_keeps {β : Type} (p : State → β) (hp : ∀ s pair f, p (modPair s pair f) = p s) (s : State)
    (pair : Nat) : p (settleGate s pair) = p s := by
  have moved (s : State) : p (gateMove s pair) = p s := by
    obtain h | ⟨f, h⟩ := gateMove_cases s pair
    · rw [h]
    · rw [h, hp]
  simp only [settleGate, moved]

/-! A core that gives up its context. -/

theorem coreOf_congr {s t : State} (h : t.cores = s.cores) (k : Nat) : coreOf t k = coreOf s k := by
  simp only [coreOf, h]

@[simp] theorem creditFree_ctx (s : State) (core ctx n k : Nat) :
    (coreOf (creditFree s core ctx n) k).ctx = (coreOf s k).ctx := by
  unfold creditFree
  split
  · by_cases h : k = partnerOf core
    · rw [h, coreOf_modCore]
    · rw [coreOf_modCore_ne _ _ h]
  · rfl

@[simp] theorem creditFree_mem (s : State) (core ctx n : Nat) : (creditFree s core ctx n).mem = s.mem := by
  unfold creditFree; split <;> rfl

@[simp] theorem countDiscards_mem (s : State) (core n : Nat) : (countDiscards s core n).mem = s.mem := by
  unfold countDiscards; split <;> rfl

@[simp] theorem countDiscards_cores (s : State) (core n : Nat) : (countDiscards s core n).cores = s.cores := by
  unfold countDiscards; split <;> rfl

@[simp] theorem releaseCore_mem (s : State) (core : Nat) : (releaseCore s core).mem = s.mem := by
  unfold releaseCore
  simp only
  split
  · rw [settleGate_keeps State.mem fun _ _ _ => rfl]
    simp only [countDiscards_mem, creditFree_mem]
    rfl
  · rfl

/-- A core with nothing left to do gives up its context. -/
theorem releaseCore_ctx {s : State} {core : Nat} (hc : core < 1024) (hb : (coreOf s core).blocks = [])
    (hw : (coreOf s core).warps = []) (hx : (coreOf s core).ctx.isSome = true) (hq : (coreOf s core).q0 = [])
    (hm : (coreOf s core).cmd = none) (ht : (coreOf s core).transit = []) (hwc : (coreOf s core).wc = [])
    (ho : (coreOf s core).ops = []) : (coreOf (releaseCore s core) core).ctx = none := by
  unfold releaseCore
  simp only [hc, hb, hw, hx, hq, hm, ht, hwc, ho, decide_true, List.isEmpty_nil, Option.isNone_none, Bool.and_self,
    if_true]
  rw [coreOf_congr (settleGate_keeps State.cores (fun _ _ _ => rfl) _ _), coreOf_congr (countDiscards_cores ..),
    creditFree_ctx, coreOf_modCore]

/-! A context that is lost. -/

/-- The core of a context that is lost, once its loads, atomics, stores and commands are gone (R27). -/
def bareCore (co : Core) : Core :=
  { co with wc := [], ops := [], q0 := [], cmd := none, transit := [], stopped := false, saving := none }

/-- Where a core has no block, its context goes without any report. -/
theorem loseHeld_idle {s : State} {core : Nat} (hb : (coreOf s core).blocks = []) :
    loseHeld s core = releaseCore (modCore (dropReads s core) core bareCore) core := by
  have bare : (coreOf (modCore (dropReads s core) core bareCore) core).blocks = [] := by
    rw [coreOf_modCore]
    exact hb
  have kept : loseCore (modCore (dropReads s core) core bareCore) core 1 = modCore (dropReads s core) core bareCore := by
    simp only [loseCore, slotBlocks, bare]
    rfl
  show sweepBlocks (loseCore (modCore (dropReads s core) core bareCore) core 1) core = _
  rw [kept]
  simp only [sweepBlocks, bare]
  rfl

/-- A context without blocks and warps that is lost leaves its core, and memory stays as it was. -/
theorem loseHeld_ctx {s : State} {core : Nat} (hc : core < 1024) (hb : (coreOf s core).blocks = [])
    (hw : (coreOf s core).warps = []) (hx : (coreOf s core).ctx.isSome = true) :
    (coreOf (loseHeld s core) core).ctx = none ∧ (loseHeld s core).mem = s.mem := by
  rw [loseHeld_idle hb]
  have core_eq : coreOf (modCore (dropReads s core) core bareCore) core = bareCore (coreOf s core) :=
    coreOf_modCore ..
  refine ⟨releaseCore_ctx hc ?_ ?_ ?_ ?_ ?_ ?_ ?_ ?_, releaseCore_mem ..⟩ <;> simp only [core_eq, bareCore, hb, hw, hx]

/-! What the steps of this family do. -/

theorem exec_chipletFence {s : State} {c : Nat} (hc : c < 8) : exec (.chipletFence c) s =
    .next (if (chipOf s c).dropped then s else fence s c) := by
  show execChipletFence c s = _
  exact eventIf_true (decide_eq_true hc) s _

theorem exec_chipletReset {s : State} {c : Nat} (hc : c < 8) : exec (.chipletReset c) s =
    .next (if (chipOf s c).dropped || (chipOf s c).resetting then s
      else chipNote (modChip (fence s c) c fun x => { x with resetting := true, began := s.arith }) c 0x272) := by
  show execChipletReset c s = _
  exact eventIf_true (decide_eq_true hc) s _

/-- The time for the saves of a chiplet in reset, or dropped, has run out (R27). -/
theorem exec_saveDeadline {s : State} {k : Nat} (hk : k < 1024) : exec (.saveDeadline k) s =
    .next (if (((chipOf s (chipletOf k)).resetting = true ∨ (chipOf s (chipletOf k)).dropped = true) ∧
        (chipOf s (chipletOf k)).began + 1600 * 65536 < s.arith) ∧ (coreOf s k).ctx.isSome = true
      then loseHeld s k else s) := by
  show execSaveDeadline k s = _
  refine (eventIf_true (decide_eq_true hk) s _).trans ?_
  simp only [lateBy, Bool.and_eq_true, Bool.or_eq_true, decide_eq_true_eq, gt_iff_lt]

theorem exec_chipletDrop {s : State} {c : Nat} (hc : c < 8) : exec (.chipletDrop c) s =
    .next (if (chipOf s c).dropped then s else dropChip s c) := by
  show execChipletDrop c s = _
  exact eventIf_true (decide_eq_true hc) s _

/-- The machine after an empty chiplet has passed its self-test (R421). -/
def returnChip (s : State) (c : Nat) : State :=
  modChip { s with cores := (coresOf c).foldl (fun t k => tdel t k) s.cores
                   leaves := s.leaves.filter fun f => f.1 / 8 != c
                   clusterTlb := s.clusterTlb.filter fun p => p.1 / 8 != c
                   icache := s.icache.filter fun p => p.1 / 8 != c } c fun _ => {}

theorem exec_chipletReinitialised {s : State} {c : Nat} (passes : Bool) (hc : c < 8) :
    exec (.chipletReinitialised c passes) s =
      .next (if !(chipOf s c).resetting || (coresOf c).any (fun k => (coreOf s k).ctx.isSome) then s
        else if !passes then dropChip s c else returnChip s c) := by
  show execChipletReinitialised c passes s = _
  exact eventIf_true (decide_eq_true hc) s _

theorem coreOf_returnChip (s : State) {c k : Nat} (hk : k < 128) : coreOf (returnChip s c) (128 * c + k) = {} := by
  have gone := tget_foldl_tdel s.cores (mem_coresOf.2 ⟨k, hk, rfl⟩ : 128 * c + k ∈ coresOf c)
  simp only [coreOf, returnChip, modChip_cores, tgetD, gone, Option.getD_none]

@[simp] theorem returnChip_mem (s c) : (returnChip s c).mem = s.mem := modChip_mem ..

theorem returnChip_leaves (s : State) (c : Nat) : ∀ f ∈ (returnChip s c).leaves, f.1 / 8 ≠ c := by
  intro f hf
  simpa using (List.mem_filter.1 hf).2

theorem exec_clockChange_grid {s : State} {mhz : Nat} (h : mhz = 425 ∨ (mhz % 50 = 0 ∧ 450 ≤ mhz ∧ mhz ≤ 850)) :
    exec (.clockChange mhz) s = .next { s with mhz := mhz } := by
  show execClockChange mhz s = _
  refine eventIf_true ?_ s _
  simp only [Bool.or_eq_true, beq_iff_eq, Bool.and_eq_true, decide_eq_true_eq]
  omega

theorem exec_clockChange_off {s : State} {mhz : Nat} (h : mhz ≠ 425) (ho : mhz % 50 ≠ 0 ∨ mhz < 450 ∨ 850 < mhz) :
    exec (.clockChange mhz) s = .next s := by
  show execClockChange mhz s = _
  refine eventIf_false ?_ s _
  simp only [Bool.or_eq_false_iff, beq_eq_false_iff_ne, Bool.and_eq_false_iff, decide_eq_false_iff_not]
  omega

/-! What each step leaves of its chiplet. -/

/-- A chiplet whose entry shows the fence takes no block on any of its cores. -/
theorem shut_of_chipOf {t : State} {c : Nat} (h : (chipOf t c).fenced = true) :
    ∀ k, chipletOf k = c → coreInService t k = false := by
  rintro k rfl
  exact coreInService_fenced h

theorem chipletFence_fences {s : State} {c : Nat} (hc : c < 8) (hd : (chipOf s c).dropped = false)
    (hf : (chipOf s c).fenced = false) : ∃ t, exec (.chipletFence c) s = .next t ∧
      chipOf t c = { chipOf s c with fenced := true } ∧ (∀ f ∈ t.leaves, f.1 / 8 = c → f.2.waiting = []) ∧
      (∀ k, chipletOf k = c → coreInService t k = false) ∧ (0x271, c) ∈ t.dev.log := by
  refine ⟨fence s c, ?_, chipOf_fence s c, fence_quiet hf, shut_of_chipOf ?_, fence_log hf⟩
  · simp [exec_chipletFence hc, hd]
  · rw [chipOf_fence]

theorem chipletReset_resets {s : State} {c : Nat} (hc : c < 8) (hd : (chipOf s c).dropped = false)
    (hr : (chipOf s c).resetting = false) : ∃ t, exec (.chipletReset c) s = .next t ∧
      chipOf t c = { chipOf s c with fenced := true, resetting := true, began := s.arith } ∧
      (∀ k, chipletOf k = c → coreInService t k = false) ∧ (0x272, c) ∈ t.dev.log := by
  have entry : chipOf (chipNote (modChip (fence s c) c fun x => { x with resetting := true, began := s.arith }) c 0x272)
      c = { chipOf s c with fenced := true, resetting := true, began := s.arith } := by
    rw [chipOf_chipNote, chipOf_modChip, chipOf_fence]
  refine ⟨_, ?_, entry, shut_of_chipOf ?_, ?_⟩
  · simp [exec_chipletReset hc, hd, hr]
  · rw [entry]
  · simp

theorem chipletDrop_drops {s : State} {c : Nat} (hc : c < 8) (hd : (chipOf s c).dropped = false) :
    ∃ t, exec (.chipletDrop c) s = .next t ∧
      chipOf t c = { chipOf s c with fenced := true, dropped := true, resetting := false,
                                     began := if (chipOf s c).resetting then (chipOf s c).began else s.arith } ∧
      (∀ f ∈ t.leaves, f.1 / 8 = c → f.2.waiting = []) ∧ (∀ k, chipletOf k = c → coreInService t k = false) ∧
      (0x273, c) ∈ t.dev.log := by
  refine ⟨dropChip s c, ?_, chipOf_dropChip s c, dropChip_quiet s c, shut_of_chipOf ?_, dropChip_log s c⟩
  · simp [exec_chipletDrop hc, hd]
  · rw [chipOf_dropChip]

/-- Settles O51: each step's effect on its chiplet is read off its own entry, which the cancelled copies, the blocks
handed back and the granules moved do not touch. -/
theorem chipletsFenceResetDrop : Obligations.ChipletsFenceResetDrop := by
  unfold Obligations.ChipletsFenceResetDrop
  intro s c core mhz
  refine ⟨chipletFence_fences, fun hc h => ?_, chipletReset_resets, fun hc h => ?_, fun hk hl hx => ?_, loseHeld_ctx,
    fun hk h => ?_, chipletDrop_drops, fun hc h => ?_, fun hc hr hf => ?_, fun hc hr hf => ?_, fun p hc hr => ?_,
    exec_clockChange_grid, exec_clockChange_off⟩
  · rw [exec_chipletFence hc]
    rcases h with h | h <;> simp [h, fence]
  · rw [exec_chipletReset hc]
    rcases h with h | h <;> simp [h]
  · rw [exec_saveDeadline hk, if_pos ⟨hl, hx⟩]
  · rw [exec_saveDeadline hk, if_neg]
    rintro ⟨hl, hx⟩
    rcases h with h | h
    · exact h hl
    · simp [h] at hx
  · simp [exec_chipletDrop hc, h]
  · refine ⟨returnChip s c, ?_, chipOf_modChip .., fun k hk => coreOf_returnChip s hk, returnChip_leaves s c,
      returnChip_mem s c⟩
    simp [exec_chipletReinitialised true hc, hr, coresOf_free hf]
  · refine ⟨dropChip s c, ?_, ?_⟩
    · simp [exec_chipletReinitialised false hc, hr, coresOf_free hf]
    · rw [chipOf_dropChip]
  · simp [exec_chipletReinitialised p hc, hr]

end Sys2Proof.Machine

/-! The machine at power-on. -/

namespace Sys2Proof.Machine

/-- Settles O60: each field is the one that the reset state lists, and what is not listed reads as its map's default. -/
theorem resetIsCanonicalAndEmpty : Obligations.ResetIsCanonicalAndEmpty := by
  unfold Obligations.ResetIsCanonicalAndEmpty
  exact ⟨memWf_reset, rfl, rfl, rfl, rfl, rfl, rfl, rfl, rfl, fun _ => ⟨rfl, rfl, rfl, rfl, rfl⟩,
    fun _ _ => ⟨rfl, rfl⟩, memRead_nil⟩

end Sys2Proof.Machine

/-! What forgetting a unit's answers leaves: the lines and the contexts as they stand, and what the detector makes of them. -/

namespace Sys2Proof.Machine

/-- Forgetting a unit's answers changes the answers alone, whether there are any or not. -/
theorem dropAnswers_eq (s : State) (who : Nat) : dropAnswers s who =
    { s with slices := s.slices.map fun p => (p.1, { p.2 with answers := p.2.answers.filter fun a => a.who != who }) } := by
  unfold dropAnswers
  split
  · rfl
  · next h =>
    have quiet : ∀ p ∈ s.slices, p.2.answers.filter (fun a => a.who != who) = p.2.answers := by
      simpa [List.filter_eq_self] using h
    have same : (s.slices.map fun p =>
        (p.1, { p.2 with answers := p.2.answers.filter fun a => a.who != who })) = s.slices :=
      (List.map_congr_left fun p hp => by simp only [quiet p hp]; rfl).trans (List.map_id _)
    rw [same]

@[simp] theorem dropAnswers_contexts (s who) : (dropAnswers s who).contexts = s.contexts := by rw [dropAnswers_eq]

@[simp] theorem wholeWays_dropAnswers (s who line) : wholeWays (dropAnswers s who) line = wholeWays s line := by
  rw [dropAnswers_eq]
  exact List.filterMap_map

@[simp] theorem dramLine_dropAnswers (s who line) : dramLine (dropAnswers s who) line = dramLine s line := by
  rw [dropAnswers_eq]; rfl

@[simp] theorem peekLine_dropAnswers (s who line) : peekLine (dropAnswers s who) line = peekLine s line := by
  have draws : (dropAnswers s who).freeCount = s.freeCount := by rw [dropAnswers_eq]
  simp only [peekLine, wholeWays_dropAnswers, dramLine_dropAnswers, draws]

@[simp] theorem ctxOf_dropAnswers (s who ctx) : ctxOf (dropAnswers s who) ctx = ctxOf s ctx := by
  simp only [ctxOf, dropAnswers_contexts]

@[simp] theorem descField_dropAnswers (s who ctx off n) :
    descField (dropAnswers s who) ctx off n = descField s ctx off n := by
  simp only [descField, peekBytes, ctxOf_dropAnswers, peekLine_dropAnswers]

@[simp] theorem raceOf_dropAnswers (s who ctx gid pc va leaf scope) :
    raceOf (dropAnswers s who) ctx gid pc va leaf scope = raceOf s ctx gid pc va leaf scope := by
  simp only [raceOf, ctxOf_dropAnswers, descField_dropAnswers]

@[simp] theorem shadowAt_dropAnswers (s who pa) : shadowAt (dropAnswers s who) pa = shadowAt s pa := by
  rw [dropAnswers_eq]; rfl

/-- The detector in trap mode checks the same lanes. -/
@[simp] theorem trapLanes_dropAnswers (s who x mods reads bypass ls) :
    trapLanes (dropAnswers s who) x mods reads bypass ls = trapLanes s x mods reads bypass ls := by
  simp only [trapLanes, raceOf_dropAnswers, shadowAt_dropAnswers]

/-- With no rows to push the word goes on, and only forgets what it was answered (R237). -/
theorem crustGo_nil (s : State) (x : Here) (k : State → State) :
    crustGo s x [] k = k (dropAnswers s (wordWho x 1)) := rfl

end Sys2Proof.Machine

/-! What a store leaves when it goes to its port, and what a release leaves of the epochs. -/

namespace Sys2Proof.Machine

@[simp] theorem retireNow_ports (s x) : (retireNow s x).ports = s.ports := rfl
@[simp] theorem retireNow_contexts (s x) : (retireNow s x).contexts = s.contexts := rfl
@[simp] theorem newOp_contexts (s c o) : (newOp s c o).1.contexts = s.contexts := rfl

@[simp] theorem accept_contexts (s c y) : (accept s c y).contexts = s.contexts := by
  unfold accept
  split
  · split <;> rfl
  · rfl

@[simp] theorem acceptIf_contexts (s c p) : (acceptIf s c p).contexts = s.contexts :=
  foldl_keeps State.contexts (fun _ _ => accept_contexts ..) _ _

/-- A request that reaches its port stands in the port's buffer under a number of its own. -/
theorem mem_ports_toPort (s : State) (r : Req) :
    { r with seq := s.nextReq } ∈ tgetD (toPort s r).ports (portOf r.core) [] := by
  simp [toPort, tgetD]

/-- An accepted store does. -/
theorem mem_ports_accept (s : State) (c : Nat) (y : Wc) :
    ∃ n, { y.req with seq := n } ∈ tgetD (accept s c y).ports (portOf y.req.core) [] :=
  ⟨_, mem_ports_toPort _ _⟩

/-- A context's own epoch is apart from those of its objects. -/
theorem objEpochs_advanceEpoch {s : State} {ctx : Nat} {c : Ctx} (h : tget s.contexts ctx = some c) (sc : Scope) :
    ∃ c', tget (advanceEpoch s ctx sc).contexts ctx = some c' ∧ c'.objEpochs = c.objEpochs := by
  unfold advanceEpoch
  split
  · exact ⟨{ c with epoch := c.epoch + 1 }, by simp [h], rfl⟩
  · exact ⟨c, h, rfl⟩

/-- The completion of a word leaves the L1 as it stands. -/
@[simp] theorem l1_retireNow (s : State) (x : Here) : (coreOf (retireNow s x) x.core).l1 = (coreOf s x.core).l1 := by
  simp [retireNow, modWarp]

end Sys2Proof.Machine

/-! FENCE and REL: what each waits for, and what it leaves. -/

namespace Sys2Proof.Machine

/-- An acquire's fence goes on with the L1 that its scope leaves (R94, R231). -/
def fenceAcquire (s : State) (x : Here) (sc : Scope) : State :=
  retireNow (modCore s x.core fun co => if acqInvalidates sc then { co with l1 := [] } else co) x

/-- That is nothing of the L1 at a scope of the die or wider, else all of it. -/
theorem l1_fenceAcquire (s : State) (x : Here) (sc : Scope) :
    (coreOf (fenceAcquire s x sc) x.core).l1 = if acqInvalidates sc then [] else (coreOf s x.core).l1 := by
  unfold fenceAcquire
  rw [l1_retireNow, coreOf_modCore]
  split <;> rfl

/-- A fence that nothing of its warp holds does what its layer, its ordering and its scope say (R99, R231). -/
theorem exec_fence {m : Mem} {s : State} {x : Here} {md : Mods} {base : Bool} {sc : Scope}
    (h : MemRuns (.fence m) .fence m s x) (hmd : modsOf x.co.memdef m.pfx = md)
    (hb : (md.layer != .none || baseLayer md.space) = base) (hsc : effScope s x md.scope = sc)
    (hh : memHeld x base = false) (hp : (x.prov && md.scope == .sys) = false) :
    exec (.fence m) s = .next (
      if base = false then retireNow s x
      else if md.ord = .rel then
        if releaseReady s x sc then retireNow (advanceEpoch s x.ctx sc) x else s
      else if loadsDone x.co x.w then
        fenceAcquire s x sc
      else s) := by
  show execFence m s = _
  refine (memWord_runs h).trans (congrArg Host.Outcome.next ?_)
  subst hmd
  simp only [hb, hh, hp, hsc, Bool.or_self, Bool.false_eq_true, if_false, Bool.not_eq_true']
  split
  · rfl
  · cases (modsOf x.co.memdef m.pfx).ord <;> simp [fenceAcquire]

/-- The modifiers that REL works with: a release of global memory (R232). -/
def relMods (x : Here) (m : Mem) : Mods :=
  { modsOf x.co.memdef m.pfx with ord := .rel, space := .global, cache := .norm }

/-- REL's first effect: the epoch of the object advances, and at a wide scope that of the context (R122, R232). -/
def relEpochs (s : State) (x : Here) (md : Mods) (va : Nat) : State :=
  advanceEpoch { s with contexts := tmod s.contexts x.ctx fun c =>
    { c with objEpochs := tput 0 c.objEpochs va (tgetD c.objEpochs va 0 + 1) } } x.ctx (effScope s x md.scope)

theorem objEpochs_relEpochs {s : State} {x : Here} {c : Ctx} (h : tget s.contexts x.ctx = some c) (md : Mods) (va : Nat) :
    ∃ c', tget (relEpochs s x md va).contexts x.ctx = some c' ∧
      tgetD c'.objEpochs va 0 = tgetD c.objEpochs va 0 + 1 := by
  obtain ⟨c', hc', he⟩ := objEpochs_advanceEpoch (ctx := x.ctx)
    (s := { s with contexts := tmod s.contexts x.ctx fun c =>
      { c with objEpochs := tput 0 c.objEpochs va (tgetD c.objEpochs va 0 + 1) } })
    (by simp only [tget_tmod, h]; rfl) (effScope s x md.scope)
  exact ⟨c', hc', by rw [he]; exact tgetD_tput ..⟩

/-- The release write: the register pair, to the eight bytes of the object word (R102). -/
def relReq (s : State) (x : Here) (m : Mem) (md : Mods) (id : Nat) (g : GLane) : Req :=
  reqFor s x md id
    (.write (fieldLine (g.pa % 128) 8 (sget64 x.wp m.data.toNat).toNat) (fieldMask (g.pa % 128) 8) 0) [] g

/-- A block that is not screened writes the pair as a store would: once the warp's earlier stores to the line are
accepted, the release write is (R102). -/
theorem relWrite_plain {s : State} {x : Here} (hs : x.block.shadow = .none) (m : Mem) (md : Mods) (g : GLane) :
    ∃ u id, State.contexts u = (relEpochs s x md g.va).contexts ∧
      relWrite s x m md g = retireNow (accept u x.core ⟨x.w, relReq u x m md id g⟩) x := by
  have screened : isShadow x.block = false := by simp [isShadow, hs]
  have hash (ls) : hashLanes s x 8 ls = s := by simp [hashLanes, hs]
  unfold relWrite
  simp only [hash, screened, Bool.false_eq_true, if_false]
  exact ⟨_, _, (newOp_contexts ..).trans (acceptIf_contexts ..), rfl⟩

/-- The release write of eight bytes stands at the core's port, and the object's epoch is the next (R102, R122). -/
theorem relWrite_writes {s : State} {x : Here} (hs : x.block.shadow = .none) (m : Mem) (md : Mods) (g : GLane) :
    let t := relWrite s x m md g
    let v := (sget64 x.wp m.data.toNat).toNat
    (∃ r ∈ tgetD t.ports (portOf x.core) [], r.core = x.core ∧ r.warp = x.w ∧ r.line = g.line ∧ r.home = g.home ∧
      r.act = .write (fieldLine (g.pa % 128) 8 v) (fieldMask (g.pa % 128) 8) 0) ∧
    (∀ c, tget s.contexts x.ctx = some c → ∃ c', tget t.contexts x.ctx = some c' ∧
      tgetD c'.objEpochs g.va 0 = tgetD c.objEpochs g.va 0 + 1) := by
  obtain ⟨u, id, hu, ht⟩ := relWrite_plain (s := s) hs m md g
  simp only [ht, retireNow_ports, retireNow_contexts, accept_contexts, hu]
  refine ⟨?_, fun c hc => objEpochs_relEpochs hc md g.va⟩
  obtain ⟨n, hn⟩ := mem_ports_accept u x.core ⟨x.w, relReq u x m md id g⟩
  exact ⟨_, hn, rfl, rfl, rfl, rfl, rfl⟩

/-- A REL that has passed its checks, whose bound regions are done and which has no crust to push, makes its release
write (R232, R237). -/
theorem exec_rel {m : Mem} {s s' : State} {x : Here} {ls : List GLane} (h : MemRuns (.rel m) .obj m s x)
    (hx : x.exec ≠ 0) (hh : memHeld x true = false) (hl : lwaitOk s x (relMods x m) = true) (hp : x.prov = false)
    (ha : objAddr x.wp m % 8 = 0)
    (hc : checkGlobal s x.core x.ctx x.exec true { w := true } [(0, objAddr x.wp m)] = (s', .ok ls))
    (hr : checkRace s' x (relMods x m) false true true ls = .ok ls)
    (hb : relReady s' x (effScope s' x (relMods x m).scope) (objAddr x.wp m) = true)
    (hn : crustPushes s' x (objAddr x.wp m) = []) :
    exec (.rel m) s = .next (rush (relWrite (dropAnswers s' (wordWho x 1)) x m (relMods x m) (groupHead ls)) x.core x.w
      ((trapLanes s' x (relMods x m) false true ls).map fun p => p.1.line)) := by
  show execRel m s = _
  refine (memWord_runs h).trans (congrArg Host.Outcome.next ?_)
  unfold relMods at *
  simp only [hx, hh, hl, hp, ha, hc, hr, hb, hn, withChk, crustGo_nil, trapLanes_dropAnswers, if_false, ne_eq,
    not_true_eq_false, Bool.not_true, Bool.or_self, Bool.false_eq_true]

/-- Settles O21: FENCE is read off its one effect, clause by clause; REL's write is the last request of its port, made in
the state that the checks leave, in which only the word's own answers are forgotten. -/
theorem fencesAndReleasesWait : Obligations.FencesAndReleasesWait := by
  unfold Obligations.FencesAndReleasesWait
  refine ⟨fun m s x h => ?_, fun m s s' x ls => ?_⟩
  · intro md base sc hh hp
    have runs := exec_fence (md := md) (base := base) (sc := sc) h rfl rfl rfl hh hp
    clear_value md base sc
    refine ⟨fun hb => ?_, fun hb ho hl hs => ?_, fun hb ho hl => ⟨fenceAcquire s x sc, ?_, fun hsc => ?_, fun hsc => ?_⟩⟩
    · rw [runs, if_pos hb]
    · simp [runs, hb, ho, releaseReady, hl, hs]
    · simp [runs, hb, ho, hl]
    · rcases hsc with rfl | rfl | rfl <;> exact l1_fenceAcquire ..
    · rcases hsc with rfl | rfl <;> exact l1_fenceAcquire ..
  · intro va md g v h hx hh hl hp ha hc hr hb hn hs _ _ hva
    obtain ⟨sent, epochs⟩ := relWrite_writes (s := dropAnswers s' (wordWho x 1)) hs m md g
    rw [dropAnswers_contexts, hva] at epochs
    exact ⟨_, exec_rel h hx hh hl hp ha hc hr hb hn, sent, epochs⟩

end Sys2Proof.Machine

/-! BRD: what a path does at a divergent branch, by how its taken lanes divide it. -/

namespace Sys2Proof.Machine

@[simp] theorem pathOf_countW (w : Warp) (sl sl' : Slot) (ws : List W64) :
    pathOf (countW w sl ws) sl' = pathOf w sl' := by
  cases sl' <;> rfl

/-- The warp leaves the active set, and its path parks, under SW (R54, R146). -/
def parkAt (x : Here) (w : Warp) : Warp :=
  { modPath w x.sl fun p => { p with parked := unitSw x.ws } with active := w.active && !unitSw x.ws }

/-- A BRD that does not divide the path's lanes sends the path one way (R161). -/
theorem exec_brd_whole {b : Bra} {s : State} {x : Here} (h : Runs (.brd b) s x)
    (hs : brdTaken x b = 0 ∨ x.p.mask &&& ~~~ brdTaken x b = 0) : exec (.brd b) s = .next (setWarp s x.core x.w
      (arrive (parkAt x (brd (countW x.wp x.sl x.ws) x.sl (brdTaken x b) (x.target b)
        (x.p.pc + 8 * b.fld.signExtend 64))) x.sl)) := by
  show execBrd b s = _
  refine (word_runs h rfl).trans (congrArg Host.Outcome.next ?_)
  rcases hs with hs | hs <;> simp only [hs, ne_eq, not_true_eq_false, decide_false, Bool.false_and, Bool.and_false,
    Bool.false_eq_true, if_false] <;> rfl

/-- One that divides them splits the path, or traps where the stack has no room for what it pushes (R138, R142). -/
theorem exec_brd_split {b : Bra} {s : State} {x : Here} (h : Runs (.brd b) s x) (ht : brdTaken x b ≠ 0)
    (hn : x.p.mask &&& ~~~ brdTaken x b ≠ 0) : exec (.brd b) s = .next (
      if x.wp.stack.length + (brdPushes x.wp x.sl (x.p.pc + 8 * b.fld.signExtend 64) (brdTaken x b)).length > 32 then
        faultAll s x .diverge 0 (BitVec.ofNat 32 x.wp.stack.length)
      else setWarp s x.core x.w (arrive (arrive (parkAt x (brd (countW x.wp x.sl x.ws) x.sl (brdTaken x b) (x.target b)
        (x.p.pc + 8 * b.fld.signExtend 64))) x.sl) (otherSlot x.sl))) := by
  show execBrd b s = _
  refine (word_runs h rfl).trans (congrArg Host.Outcome.next ?_)
  simp only [ht, hn, ne_eq, not_false_eq_true, decide_true, Bool.true_and, decide_eq_true_eq, if_true]
  rfl

/-- No lane is taken: the path goes on at the next header. -/
theorem brd_none {w : Warp} {sl : Slot} {p : Path} (hp : pathOf w sl = p) (target r : W64) :
    brd w sl 0 target r = modPath w sl fun q => transfer q (p.pc + 8) 0 := by
  subst hp; rfl

/-- Every lane is taken: the path goes to the target. -/
theorem brd_all {w : Warp} {sl : Slot} {p : Path} {t : W32} (hp : pathOf w sl = p) (ht : t ≠ 0)
    (hn : p.mask &&& ~~~ t = 0) (target r : W64) :
    brd w sl t target r = modPath w sl fun q => transfer q target p.pc := by
  subst hp
  simp only [brd, beq_iff_eq, ht, hn, if_false, if_true]

/-- What a split pushes: the side not taken, where the other slot is in use, over what joins at R (R138). -/
theorem brdPushes_eq (w : Warp) (sl : Slot) (r : W64) (t : W32) :
    brdPushes w sl r t =
      let p := pathOf w sl
      let join : List StackEntry :=
        if some r = p.rpc then [] else [{ kind := .join, mask := p.mask, rpc := p.rpc, pc := r }]
      if (pathOf w (otherSlot sl)).st = .empty then join
      else { kind := .pending, mask := p.mask &&& ~~~ t, rpc := some r, pc := p.pc + 8 } :: join := by
  simp only [brdPushes, beq_iff_eq]

/-- A split: both ways reconverge at R, and the lanes not taken go into the other slot if it is free. -/
theorem brd_split {w : Warp} {sl : Slot} {p : Path} {t : W32} (hp : pathOf w sl = p) (ht : t ≠ 0)
    (hn : p.mask &&& ~~~ t ≠ 0) {r : W64} {ps : List StackEntry} (hps : brdPushes w sl r t = ps) (target : W64) :
    brd w sl t target r =
      let v := { w with stack := ps ++ w.stack }
      let v := if (pathOf w (otherSlot sl)).st = .empty
        then setPath v (otherSlot sl) (livePath (p.pc + 8) (p.mask &&& ~~~ t) (some r)) else v
      sigdEvent (modPath v sl fun q => { transfer q target p.pc with mask := t, rpc := some r }) 1 t := by
  subst hp hps
  simp only [brd, beq_iff_eq, ht, hn, if_false]

/-- Settles O4: the four ways that the taken lanes divide the path are the four cases of a BRD. -/
theorem divergentBranchSplits : Obligations.DivergentBranchSplits := by
  unfold Obligations.DivergentBranchSplits
  intro b s x h k m taken rest target r other join pushes set w
  have path : pathOf (countW x.wp x.sl x.ws) x.sl = x.p := pathOf_countW ..
  have pushed : brdPushes x.wp x.sl r (brdTaken x b) = pushes := brdPushes_eq ..
  have counted : brdPushes (countW x.wp x.sl x.ws) x.sl r (brdTaken x b) = pushes := by
    rw [← pushed, brdPushes_eq, brdPushes_eq]
    simp only [pathOf_countW]
  refine ⟨fun none => ?_, fun some all => ?_, fun some split deep => ?_, fun some split room => ?_⟩
  · rw [exec_brd_whole h (.inl none), show brdTaken x b = 0 from none, brd_none path]
    rfl
  · rw [exec_brd_whole h (.inr all), brd_all (t := brdTaken x b) path some all]
    rfl
  · rw [exec_brd_split h some split, pushed, if_pos deep]
  · rw [exec_brd_split h some split, pushed, if_neg (Nat.not_lt.2 room),
      brd_split (t := brdTaken x b) path some split counted, pathOf_countW]
    rfl

end Sys2Proof.Machine

/-! EXIT: a slot that empties, what refills it, and the warp that it leaves. -/

namespace Sys2Proof.Machine

/-! The two slots of a warp. -/

@[simp] theorem pathOf_setPath (w : Warp) (sl : Slot) (p : Path) : pathOf (setPath w sl p) sl = p := by
  cases sl <;> rfl

@[simp] theorem pathOf_setPath_other (w : Warp) (sl : Slot) (p : Path) :
    pathOf (setPath w sl p) (otherSlot sl) = pathOf w (otherSlot sl) := by
  cases sl <;> rfl

@[simp] theorem pathOf_setOther (w : Warp) (sl : Slot) (p : Path) :
    pathOf (setPath w (otherSlot sl) p) sl = pathOf w sl := by
  cases sl <;> rfl

@[simp] theorem setPath_stack (w : Warp) (sl : Slot) (p : Path) : (setPath w sl p).stack = w.stack := by
  cases sl <;> rfl

@[simp] theorem setPath_exited (w : Warp) (sl : Slot) (p : Path) : (setPath w sl p).exited = w.exited := by
  cases sl <;> rfl

@[simp] theorem pathOf_withStack (w : Warp) (sl : Slot) (st : List StackEntry) :
    pathOf { w with stack := st } sl = pathOf w sl := by
  cases sl <;> rfl

/-- What holds of both slots holds of each. -/
theorem slots_iff (p : Path → Prop) (w : Warp) (sl : Slot) :
    (p w.a ∧ p w.b) ↔ (p (pathOf w sl) ∧ p (pathOf w (otherSlot sl))) := by
  cases sl
  · exact Iff.rfl
  · exact And.comm

/-! Arrivals and refills (R139, R140). -/

theorem arriveOnce_away {w : Warp} {sl : Slot} (h : atRpc (pathOf w sl) = false) : arriveOnce w sl = (w, []) := by
  simp [arriveOnce, h]

/-- With nothing left to join, a path that arrives goes on without a reconvergence point. -/
theorem arriveOnce_last {w : Warp} {sl : Slot} (h : atRpc (pathOf w sl) = true)
    (ho : (pathOf w (otherSlot sl)).st = .empty) (hs : w.stack = []) :
    arriveOnce w sl = (setPath w sl { pathOf w sl with rpc := none }, []) := by
  simp [arriveOnce, h, ho, hs]

theorem refillOnce_bare {w : Warp} (sl : Slot) (hs : w.stack = []) : refillOnce w sl = (w, []) := by
  simp [refillOnce, hs]

/-- A side on top of the stack, with lanes left, goes into an empty slot. -/
theorem refillOnce_side {w : Warp} {sl : Slot} {e : StackEntry} {rest : List StackEntry}
    (he : (pathOf w sl).st = .empty) (hs : w.stack = e :: rest) (hk : e.kind ≠ .join)
    (hm : e.mask &&& ~~~ w.exited ≠ 0) :
    refillOnce w sl =
      (setPath { w with stack := rest } sl (livePath e.pc (e.mask &&& ~~~ w.exited) e.rpc), [.arrive sl]) := by
  have side : (e.kind == SKind.join) = false := beq_eq_false_iff_ne.2 hk
  simp only [refillOnce, he, hs, side, hm, bne_self_eq_false, beq_iff_eq, Bool.false_and, Bool.false_eq_true, if_false]

/-! No arrival and no refill suspends a path (R178). -/

/-- Neither slot is suspended. -/
def Free (w : Warp) : Prop := w.a.susp = false ∧ w.b.susp = false

theorem free_iff (w : Warp) (sl : Slot) :
    Free w ↔ (pathOf w sl).susp = false ∧ (pathOf w (otherSlot sl)).susp = false :=
  slots_iff (fun p => p.susp = false) w sl

theorem free_setPath {w : Warp} (h : Free w) (sl : Slot) {p : Path} (hp : p.susp = false) : Free (setPath w sl p) := by
  rw [free_iff _ sl] at h ⊢
  simpa [hp] using h.2

theorem free_arriveOnce {w : Warp} (h : Free w) (sl : Slot) : Free (arriveOnce w sl).1 := by
  have own : (pathOf w sl).susp = false := ((free_iff w sl).1 h).1
  unfold arriveOnce
  simp only
  split
  · exact h
  · split
    · split
      · exact ⟨own, rfl⟩
      · exact free_setPath (by exact h) sl (by exact own)
    · split
      · split
        · exact h
        · split
          · exact free_setPath (by exact h) sl (by exact own)
          · split
            · exact free_setPath (by exact h) sl (by exact own)
            · split
              · exact free_setPath (by exact h) sl (by exact own)
              · split <;> exact free_setPath (by exact h) sl (by exact own)
      · split <;> exact free_setPath (by exact h) sl (by exact own)

theorem free_refillOnce {w : Warp} (h : Free w) (sl : Slot) : Free (refillOnce w sl).1 := by
  unfold refillOnce
  split
  · exact h
  · split
    · exact h
    · simp only
      split
      · exact h
      · split
        · exact h
        · split
          · exact ⟨rfl, h.2⟩
          · exact free_setPath (by exact h) sl rfl

theorem free_settle (n : Nat) (td : List Todo) {w : Warp} (h : Free w) : Free (settle n td w) := by
  induction n generalizing td w with
  | zero => exact h
  | succ n ih =>
    match td with
    | [] => exact h
    | .arrive sl :: t => exact ih _ (free_arriveOnce h sl)
    | .refill sl :: t => exact ih _ (free_refillOnce h sl)

/-! A slot that empties (R140, R141). -/

/-- The warp in which the slot is empty, and its partner not held any more. -/
def vacated (w : Warp) (sl : Slot) : Warp := modPath (setPath w sl emptyPath) (otherSlot sl) unheld

@[simp] theorem vacated_stack (w : Warp) (sl : Slot) : (vacated w sl).stack = w.stack := by simp [vacated, modPath]
@[simp] theorem vacated_exited (w : Warp) (sl : Slot) : (vacated w sl).exited = w.exited := by simp [vacated, modPath]
@[simp] theorem pathOf_vacated (w : Warp) (sl : Slot) : pathOf (vacated w sl) sl = emptyPath := by
  simp [vacated, modPath]
@[simp] theorem pathOf_vacated_other (w : Warp) (sl : Slot) :
    pathOf (vacated w sl) (otherSlot sl) = unheld (pathOf w (otherSlot sl)) := by
  simp [vacated, modPath]

/-- With an empty stack nothing refills the slot, and a partner that is elsewhere stays there. -/
theorem slotEmptied_bare {w : Warp} {sl : Slot} (hs : w.stack = [])
    (ho : atRpc (unheld (pathOf w (otherSlot sl))) = false) : slotEmptied w sl = vacated w sl := by
  have refill : refillOnce (vacated w sl) sl = (vacated w sl, []) := refillOnce_bare sl (by simp [hs])
  have away : arriveOnce (vacated w sl) (otherSlot sl) = (vacated w sl, []) := arriveOnce_away (by simpa using ho)
  show settle settleFuel [.refill sl, .arrive (otherSlot sl)] (vacated w sl) = _
  simp only [settleFuel, settle, refill, away, List.nil_append]

/-- With an empty stack a partner that stands at its reconvergence point has nothing left to join there. -/
theorem slotEmptied_last {w : Warp} {sl : Slot} (hs : w.stack = [])
    (ho : atRpc (unheld (pathOf w (otherSlot sl))) = true) :
    slotEmptied w sl =
      setPath (vacated w sl) (otherSlot sl) { unheld (pathOf w (otherSlot sl)) with rpc := none } := by
  have refill : refillOnce (vacated w sl) sl = (vacated w sl, []) := refillOnce_bare sl (by simp [hs])
  have back : otherSlot (otherSlot sl) = sl := by cases sl <;> rfl
  have last := arriveOnce_last (w := vacated w sl) (sl := otherSlot sl) (by simpa using ho)
    (by rw [back, pathOf_vacated]; rfl) (by simp [hs])
  show settle settleFuel [.refill sl, .arrive (otherSlot sl)] (vacated w sl) = _
  simp only [settleFuel, settle, refill, last, List.nil_append, pathOf_vacated_other]

/-- A side that refills a slot stays where it stands unless that is its reconvergence point; its partner too. -/
theorem settle_side {w : Warp} {sl : Slot} {e : StackEntry} {rest : List StackEntry} {m : W32} (n : Nat)
    (he : (pathOf w sl).st = .empty) (hs : w.stack = e :: rest) (hk : e.kind ≠ .join)
    (hm : e.mask &&& ~~~ w.exited = m) (h0 : m ≠ 0) (hr : e.rpc ≠ some e.pc)
    (ho : atRpc (pathOf w (otherSlot sl)) = false) :
    settle (n + 4) [.refill sl, .arrive (otherSlot sl)] w =
      setPath { w with stack := rest } sl (livePath e.pc m e.rpc) := by
  subst hm
  have stays : atRpc (livePath e.pc (e.mask &&& ~~~ w.exited) e.rpc) = false := by simp [atRpc, livePath, hr]
  have own := arriveOnce_away (w := setPath { w with stack := rest } sl (livePath e.pc (e.mask &&& ~~~ w.exited) e.rpc))
    (sl := sl) (by rwa [pathOf_setPath])
  have other := arriveOnce_away
    (w := setPath { w with stack := rest } sl (livePath e.pc (e.mask &&& ~~~ w.exited) e.rpc)) (sl := otherSlot sl)
    (by rwa [pathOf_setPath_other, pathOf_withStack])
  simp only [settle, refillOnce_side he hs hk h0, own, other, List.nil_append, List.cons_append]

/-- A side on top of the stack refills the slot. -/
theorem slotEmptied_side {w : Warp} {sl : Slot} {e : StackEntry} {rest : List StackEntry} (hs : w.stack = e :: rest)
    (hk : e.kind ≠ .join) (hm : e.mask &&& ~~~ w.exited ≠ 0) (hr : e.rpc ≠ some e.pc)
    (ho : atRpc (unheld (pathOf w (otherSlot sl))) = false) :
    slotEmptied w sl =
      setPath { vacated w sl with stack := rest } sl (livePath e.pc (e.mask &&& ~~~ w.exited) e.rpc) :=
  settle_side (w := vacated w sl) 252 (by rw [pathOf_vacated]; rfl) ((vacated_stack w sl).trans hs) hk
    (by rw [vacated_exited]) hm hr (by rwa [pathOf_vacated_other])

/-- It changes the paths, the stack and SIGD only. -/
theorem slotEmptied_keeps (w : Warp) (sl : Slot) :
    ∃ a b st d, slotEmptied w sl = { w with a := a, b := b, stack := st, sigd := d } := by
  obtain ⟨a, b, st, d, h⟩ := settle_keeps settleFuel [.refill sl, .arrive (otherSlot sl)] (vacated w sl)
  refine ⟨a, b, st, d, h.trans ?_⟩
  cases sl <;> rfl

theorem slotEmptied_exited (w : Warp) (sl : Slot) : (slotEmptied w sl).exited = w.exited := by
  obtain ⟨_, _, _, _, h⟩ := slotEmptied_keeps w sl; rw [h]

theorem slotEmptied_issued (w : Warp) (sl : Slot) : (slotEmptied w sl).issued = w.issued := by
  obtain ⟨_, _, _, _, h⟩ := slotEmptied_keeps w sl; rw [h]

theorem slotEmptied_handler (w : Warp) (sl : Slot) : (slotEmptied w sl).handler = w.handler := by
  obtain ⟨_, _, _, _, h⟩ := slotEmptied_keeps w sl; rw [h]

theorem slotEmptied_v (w : Warp) (sl : Slot) : (slotEmptied w sl).v = w.v := by
  obtain ⟨_, _, _, _, h⟩ := slotEmptied_keeps w sl; rw [h]

theorem slotEmptied_sc (w : Warp) (sl : Slot) : (slotEmptied w sl).sc = w.sc := by
  obtain ⟨_, _, _, _, h⟩ := slotEmptied_keeps w sl; rw [h]

theorem slotEmptied_m (w : Warp) (sl : Slot) : (slotEmptied w sl).m = w.m := by
  obtain ⟨_, _, _, _, h⟩ := slotEmptied_keeps w sl; rw [h]

theorem free_vacated {w : Warp} (h : Free w) (sl : Slot) : Free (vacated w sl) := by
  rw [free_iff _ sl] at h ⊢
  rw [pathOf_vacated, pathOf_vacated_other, unheld]
  refine ⟨rfl, ?_⟩
  split <;> exact h.2

theorem free_slotEmptied {w : Warp} (h : Free w) (sl : Slot) : Free (slotEmptied w sl) :=
  free_settle _ _ (free_vacated h sl)

/-- A warp whose stack and other slot are empty has nothing left to run (R140). -/
theorem slotEmptied_over {w : Warp} {sl : Slot} (hs : w.stack = []) (ho : (pathOf w (otherSlot sl)).st = .empty) :
    (slotEmptied w sl).a.st = .empty ∧ (slotEmptied w sl).b.st = .empty ∧ (slotEmptied w sl).stack = [] := by
  have same : unheld (pathOf w (otherSlot sl)) = pathOf w (otherSlot sl) := by simp [unheld, ho]
  rw [slotEmptied_bare hs (by simp [same, atRpc, ho]), ← and_assoc, slots_iff (fun p => p.st = .empty) _ sl]
  simp [same, ho, hs, emptyPath]

theorem unheld_of_ne {p : Path} (h : p.st ≠ .held) : unheld p = p := by simp [unheld, h]

theorem atRpc_of_empty {p : Path} (h : p.st = .empty) : atRpc p = false := by simp [atRpc, h]

/-- A partner that runs elsewhere runs on alone. -/
theorem slotEmptied_alone {w : Warp} {sl : Slot} (hs : w.stack = [])
    (hl : (pathOf w (otherSlot sl)).st = .live) (hr : atRpc (pathOf w (otherSlot sl)) = false) :
    (pathOf (slotEmptied w sl) sl).st = .empty ∧
      pathOf (slotEmptied w sl) (otherSlot sl) = pathOf w (otherSlot sl) ∧ (slotEmptied w sl).stack = [] := by
  have same := unheld_of_ne (p := pathOf w (otherSlot sl)) (by simp [hl])
  rw [slotEmptied_bare hs (by rwa [same]), pathOf_vacated, pathOf_vacated_other, vacated_stack]
  exact ⟨rfl, same, hs⟩

/-- The slot runs the side that stood on top of the stack, with the lanes of it that have not exited. -/
theorem slotEmptied_refilled {w : Warp} {sl : Slot} {e : StackEntry} {rest : List StackEntry}
    (hs : w.stack = e :: rest) (hk : e.kind ≠ .join) (hm : e.mask &&& ~~~ w.exited ≠ 0) (hr : e.rpc ≠ some e.pc)
    (hh : (pathOf w (otherSlot sl)).st ≠ .held) (ho : atRpc (pathOf w (otherSlot sl)) = false) :
    pathOf (slotEmptied w sl) sl = livePath e.pc (e.mask &&& ~~~ w.exited) e.rpc ∧
      (slotEmptied w sl).stack = rest ∧ pathOf (slotEmptied w sl) (otherSlot sl) = pathOf w (otherSlot sl) := by
  have same := unheld_of_ne hh
  rw [slotEmptied_side hs hk hm hr (by rwa [same]), pathOf_setPath, setPath_stack, pathOf_setPath_other,
    pathOf_withStack, pathOf_vacated_other]
  exact ⟨rfl, rfl, same⟩

/-- A partner that was held where it reconverges goes on from there without a reconvergence point. -/
theorem slotEmptied_released {w : Warp} {sl : Slot} {p : Path} (hp : pathOf w (otherSlot sl) = p) (hs : w.stack = [])
    (hh : p.st = .held) (hr : p.rpc = some p.pc) (hw : p.words = []) (hn : p.remain = 0) (hu : p.susp = false) :
    (pathOf (slotEmptied w sl) sl).st = .empty ∧
      pathOf (slotEmptied w sl) (otherSlot sl) = { p with st := .live, rpc := none } := by
  have live : unheld p = { p with st := .live } := by simp [unheld, hh]
  rw [slotEmptied_last hs (by simp [hp, live, atRpc, hr, hw, hn, hu]), pathOf_setOther, pathOf_setPath, pathOf_vacated,
    hp, live]
  exact ⟨rfl, rfl⟩

/-! EXIT (R141, R163). -/

/-- A form outside the vector family takes no predicate (R39, R42). -/
theorem pred_of_ok {f : Sig} {g : Gen} (hf : (f.fam == .vector) = false) (h : f.ok g = true) : g.pred = 0 := by
  unfold Sig.ok at h
  rw [hf, Bool.false_or] at h
  simp only [Bool.and_eq_true, beq_iff_eq] at h
  obtain ⟨⟨⟨⟨⟨⟨⟨⟨pred, -⟩, -⟩, -⟩, -⟩, -⟩, -⟩, -⟩, -⟩ := h
  exact pred

/-- The execution set of a word without a predicate is its path's mask (R42). -/
theorem predOf_exit {g : Gen} (h : (Instr.exit g).wf = true) : predOf (encode (.exit g)) = 0 := by
  have hp : g.pred = 0 := pred_of_ok (f := { fam := .control }) rfl h
  have field : (encodeGen 0x27 g).toNat / 2 ^ 52 % 2 ^ 3 = g.pred.toNat := by
    unfold encodeGen
    refine (congrArg (· % 2 ^ 3) ?_).trans (lo_append ((0x27 : BitVec 8) ++ boolBit g.sw) g.pred)
    iterate 11 (refine (hi_append _ _ _ (by decide)).trans ?_)
    exact Nat.div_one _
  have word : unitWord (encode (.exit g)) = encodeGen 0x27 g := by
    show (if major (encodeGen 0x27 g) = 0xFE then _ else encodeGen 0x27 g) = _
    exact if_neg (by rw [major_gen]; decide)
  refine BitVec.eq_of_toNat_eq ?_
  rw [predOf, word, bits, BitVec.extractLsb'_toNat, Nat.shiftRight_eq_div_pow, field, hp]

/-- The warp whose path exits: its lanes are gone for good (R141, R172). -/
def exiting (w : Warp) (m : W32) : Warp := { sigdEvent w 3 m with exited := w.exited ||| m }

@[simp] theorem pathOf_exiting (w : Warp) (m : W32) (sl : Slot) : pathOf (exiting w m) sl = pathOf w sl := by
  cases sl <;> rfl

theorem leaveHandler_st (w : Warp) (sl : Slot) : (pathOf (leaveHandler w) sl).st = (pathOf w sl).st := by
  cases sl <;> rfl

/-- Counted, it has changed in its exited lanes, its count of words and its signatures alone. -/
theorem exiting_countW (w : Warp) (sl : Slot) (ws : List W64) (m : W32) : ∃ g d, exiting (countW w sl ws) m =
    { w with sigs := g, sigd := d, exited := w.exited ||| m, issued := w.issued + ws.length } := ⟨_, _, rfl⟩

/-- A handler that exits is over, and suspends nothing any more (R178). -/
theorem exitPath_handler {w : Warp} {sl : Slot} {d : Nat} (h : w.handler = some (sl, d)) (m : W32) :
    exitPath w sl m = slotEmptied (leaveHandler (exiting w m)) sl := by
  have own : (exiting w m).handler = some (sl, d) := h
  show slotEmptied (match (exiting w m).handler with
    | some (k, _) => if k == sl then leaveHandler (exiting w m) else exiting w m
    | none => exiting w m) sl = _
  rw [own]
  simp only [beq_self_eq_true, if_true]

/-- Any other path leaves a handler as it is. -/
theorem exitPath_other {w : Warp} {sl : Slot} (h : ∀ d, w.handler ≠ some (sl, d)) (m : W32) :
    exitPath w sl m = slotEmptied (exiting w m) sl := by
  show slotEmptied (match (exiting w m).handler with
    | some (k, _) => if k == sl then leaveHandler (exiting w m) else exiting w m
    | none => exiting w m) sl = _
  have same : (exiting w m).handler = w.handler := rfl
  rw [same]
  split
  · rename_i k d hk
    have : k ≠ sl := fun e => h d (e ▸ hk)
    simp only [beq_eq_false_iff_ne.2 this, Bool.false_eq_true, if_false]
  · rfl

/-- A word that puts its warp back changes that warp alone. -/
theorem setWarp_only {s : State} {ws : List W64} {x : Here} (h : here s ws = some x) (y : Warp) {p : Warp → Prop}
    (hp : p y) : OnlyWarp s (setWarp s x.core x.w y) x p := by
  obtain ⟨hc, hw, -⟩ := here_warp h
  refine ⟨rfl, fun c hne => coreOf_modCore_ne _ _ hne, ?_, fun v hv => ?_, y, ?_, hp⟩
  · simp [setWarp, modWarp, hc]
  · simp [setWarp, modWarp, tget_tmod_ne _ _ hv, hc]
  · simp [setWarp, modWarp, hw]

theorem exec_exit {g : Gen} {s : State} {x : Here} (h : Runs (.exit g) s x) :
    exec (.exit g) s = .next (setWarp s x.core x.w (exitPath (countW x.wp x.sl x.ws) x.sl x.p.mask)) := by
  have all : x.exec = x.p.mask := by
    rw [Here.exec, (here_warp h.stands).2.2, predOf_exit h.legal]
    rfl
  show execExit g s = _
  exact (word_runs h rfl).trans (by rw [all])

/-- Settles O5: the slot that EXIT leaves is emptied, and the stack's top and its partner say what comes of it. -/
theorem exitEndsItsLanes : Obligations.ExitEndsItsLanes := by
  unfold Obligations.ExitEndsItsLanes
  intro g s x h gone other
  have one : x.ws.length = 1 := by rw [(here_warp h.stands).2.2]; rfl
  obtain ⟨g', d', left⟩ := exiting_countW x.wp x.sl x.ws x.p.mask
  have beside : pathOf (exiting (countW x.wp x.sl x.ws) x.p.mask) (otherSlot x.sl) = other := by
    rw [pathOf_exiting, pathOf_countW]
  refine ⟨fun depth hh => ⟨_, exec_exit h, setWarp_only h.stands _ ?_⟩,
    fun hh => ⟨_, exec_exit h, setWarp_only h.stands _ ?_⟩⟩
  · rw [exitPath_handler (w := countW x.wp x.sl x.ws) hh]
    generalize exiting (countW x.wp x.sl x.ws) x.p.mask = v at left beside
    obtain ⟨hsa, hsb⟩ := free_slotEmptied (w := leaveHandler v) ⟨rfl, rfl⟩ x.sl
    subst left
    exact ⟨slotEmptied_exited .., slotEmptied_handler .., hsa, hsb, slotEmptied_v .., slotEmptied_sc ..,
      slotEmptied_m .., fun hs ho => slotEmptied_over hs (by rwa [leaveHandler_st, beside])⟩
  · rw [exitPath_other (w := countW x.wp x.sl x.ws) hh]
    generalize exiting (countW x.wp x.sl x.ws) x.p.mask = v at left beside
    obtain ⟨a, b, st, d, keeps⟩ := slotEmptied_keeps v x.sl
    have stack : v.stack = x.wp.stack := by rw [left]
    have exited : v.exited = gone := by rw [left]
    refine ⟨(slotEmptied_exited ..).trans exited, (slotEmptied_issued ..).trans (by rw [left, one]),
      by rw [keeps, left], fun hs ho => slotEmptied_over (stack.trans hs) (by rwa [beside]), fun hs hl hr => ?_,
      fun e rest hs hk hm hr ho => ?_,
      fun hs hh hr hw hn hu => slotEmptied_released beside (stack.trans hs) hh hr hw hn hu⟩
    · rw [← beside] at hl hr ⊢
      exact slotEmptied_alone (stack.trans hs) hl hr
    · have away : other.st ≠ .held ∧ atRpc other = false := by
        rcases ho with ho | ⟨hl, ho⟩
        · exact ⟨by simp [ho], atRpc_of_empty ho⟩
        · exact ⟨by simp [hl], ho⟩
      rw [← beside] at away ⊢
      rw [← exited] at hm ⊢
      obtain ⟨own, under, side⟩ := slotEmptied_refilled (stack.trans hs) hk hm hr away.1 away.2
      rw [own]
      exact ⟨rfl, rfl, rfl, rfl, under, side⟩

end Sys2Proof.Machine

/-! Numbers in the byte strings that the device writes (R2). -/

namespace Sys2Proof.Machine

@[simp] theorem length_leBytes (n x : Nat) : (leBytes n x).length = n := by simp [leBytes]

@[simp] theorem length_bitBytes (n : Nat) (p : Nat → Bool) : (bitBytes n p).length = n := by simp [bitBytes]

theorem leBytes_succ (n x : Nat) : leBytes (n + 1) x = BitVec.ofNat 8 x :: leBytes n (x / 256) := by
  simp [leBytes, List.range_succ_eq_map, Nat.pow_succ', Nat.div_div_eq_div_mul]

/-- Bytes of a number read back as its low part. -/
theorem leNat_leBytes (n x : Nat) : leNat (leBytes n x) = x % 256 ^ n := by
  induction n generalizing x with
  | zero => simp [leBytes, leNat, Nat.mod_one]
  | succ n ih =>
    rw [leBytes_succ, leNat, ih, BitVec.toNat_ofNat, show 256 ^ (n + 1) = 256 * 256 ^ n from Nat.pow_succ']
    exact Nat.mod_mul.symm

theorem descNat_leBytes (n x : Nat) (c : List Byte) : descNat (leBytes n x ++ c) 0 n = x % 256 ^ n := by
  rw [descNat, List.drop_zero, List.take_left' (length_leBytes n x), leNat_leBytes]

/-- A field behind the first part of a string. -/
theorem descNat_behind {a : List Byte} {off : Nat} (h : a.length ≤ off) (c : List Byte) (n : Nat) :
    descNat (a ++ c) off n = descNat c (off - a.length) n := by
  rw [descNat, descNat, List.drop_append, List.drop_eq_nil_of_le h, List.nil_append]

end Sys2Proof.Machine

/-! Placement: what a block's warps, its slot and its bind record are (R144, R388, R389). -/

namespace Sys2Proof.Machine

/-! Room on a core. -/

theorem lowest_some {p : Nat → Bool} {n k : Nat} (h : lowest p n = some k) : p k = true ∧ k < n :=
  ⟨List.find?_some h, List.mem_range.1 (List.mem_of_find?_eq_some h)⟩

/-- A warp of a new block: at the entry with all its lanes, in its crew (R144, R248). -/
def AtEntry (slot idx n : Nat) (entry : W64) (crew : Nat) (y : Warp) : Prop :=
  y.block = slot ∧ y.index = idx ∧ y.a.st = .live ∧ y.a.pc = entry ∧ y.a.mask = 0xFFFFFFFF ∧ y.b.st = .empty ∧
    y.granules.length = n ∧ y.exited = 0 ∧ y.crews = [(crew, 0, false)]

/-- A warp goes into a free context of the core, and changes nothing else of it but the count of ages. -/
theorem placeWarp_some {co co' : Core} {slot idx n : Nat} {entry : W64} {crew : Nat}
    (h : placeWarp co slot idx n entry crew = some co') :
    ∃ w y, w < 48 ∧ tget co.warps w = none ∧ AtEntry slot idx n entry crew y ∧
      co' = { co with warps := tins co.warps w y, ages := co.ages + 1 } := by
  unfold placeWarp at h
  simp only at h
  split at h
  · rename_i w p g hw hp hg
    split at h
    · cases h
      obtain ⟨free, room⟩ := lowest_some hw
      exact ⟨w, _, room, Option.isNone_iff_eq_none.1 free,
        ⟨rfl, rfl, rfl, rfl, rfl, rfl, by simp, rfl, rfl⟩, rfl⟩
    · cases h
  · cases h

theorem foldl_bind_none {α β : Type} (f : α → β → Option α) (l : List β) :
    l.foldl (fun a i => a.bind fun x => f x i) none = none := by
  induction l with
  | nil => rfl
  | cons i l ih => exact ih

/-- The warps of a block go into contexts that were free, each at the entry; those that were there stay. -/
theorem placeWarps_some {slot n : Nat} {entry : W64} {crew : Nat} (is : List Nat) {co co' : Core}
    (h : is.foldl (fun (a : Option Core) i => a.bind fun co => placeWarp co slot i n entry crew) (some co) = some co') :
    co'.ctx = co.ctx ∧ co'.blocks = co.blocks ∧ (∀ w y, tget co.warps w = some y → tget co'.warps w = some y) ∧
      ∀ i ∈ is, ∃ w y, w < 48 ∧ tget co.warps w = none ∧ tget co'.warps w = some y ∧ AtEntry slot i n entry crew y := by
  induction is generalizing co with
  | nil =>
    cases h
    exact ⟨rfl, rfl, fun _ _ hy => hy, fun i hi => nomatch hi⟩
  | cons i is ih =>
    cases hp : placeWarp co slot i n entry crew with
    | none =>
      simp only [List.foldl_cons, Option.bind_some, hp, foldl_bind_none] at h
      cases h
    | some c =>
      simp only [List.foldl_cons, Option.bind_some, hp] at h
      obtain ⟨w, y, room, free, entered, rfl⟩ := placeWarp_some hp
      obtain ⟨ctx, blocks, kept, placed⟩ := ih h
      have stays (v : Nat) (z : Warp) (hz : tget co.warps v = some z) : tget (tins co.warps w y) v = some z := by
        have : v ≠ w := fun e => by rw [e, free] at hz; cases hz
        rw [tget_tins_ne _ _ this, hz]
      refine ⟨ctx, blocks, fun v z hz => kept v z (stays v z hz), fun j hj => ?_⟩
      rcases List.mem_cons.1 hj with rfl | hj
      · exact ⟨w, y, room, free, kept w y (tget_tins ..), entered⟩
      · obtain ⟨v, z, hv, hn, hz, he⟩ := placed j hj
        refine ⟨v, z, hv, ?_, hz, he⟩
        cases ho : tget co.warps v with
        | none => rfl
        | some x => rw [stays v x ho] at hn; cases hn

/-- A block takes a free slot, and room of scratch, and its warps stand at its entry. -/
theorem placePart_some {co co' : Core} {sub : Sub} {blk : Block} {crew slot : Nat}
    (h : placePart co sub blk crew = some (co', slot)) :
    slot < 16 ∧ co'.ctx = co.ctx ∧
      (∃ base, tget co'.blocks slot =
        some { blk with scratchBase := base, scratchGran := scratchOfSub sub, bcrew := crew }) ∧
      ∀ i, i < warpsOfSub sub → ∃ w y, w < 48 ∧ tget co.warps w = none ∧ tget co'.warps w = some y ∧
        AtEntry slot i (regsOfSub sub) sub.entry crew y := by
  unfold placePart at h
  split at h
  · rename_i k base hk hb
    obtain ⟨c, hc, e⟩ := Option.map_eq_some_iff.1 h
    cases e
    obtain ⟨ctx, blocks, -, placed⟩ := placeWarps_some _ hc
    exact ⟨(lowest_some hk).2, ctx, ⟨base, by rw [blocks, tget_tins]⟩, fun i hi => placed i (List.mem_range.2 hi)⟩
  · cases h

/-! What a part takes before it is placed. -/

theorem takeBank_keeps {s t : State} {core id n bank : Nat} {l : Launch} {gs : List Nat}
    (h : takeBank s core id l n = some (t, bank, gs)) : t.cores = s.cores ∧ t.bunits = s.bunits := by
  unfold takeBank at h
  simp only at h
  split at h
  · cases h; exact ⟨rfl, rfl⟩
  · split at h
    · split at h
      · cases h
      · cases h; exact ⟨rfl, rfl⟩
    · split at h
      · cases h; exact ⟨rfl, rfl⟩
      · split at h
        · cases h
        · cases h; exact ⟨rfl, rfl⟩

/-- A never-used record of the chiplet's unit (R247). -/
theorem allocCrew_fresh {s : State} {u : Nat} (h : (unitOf s u).fresh ≤ 8191) (c : Crew) : allocCrew s u c =
    some (8192 * u + (unitOf s u).fresh,
      modUnit s u fun b => { b with fresh := b.fresh + 1, crews := tins b.crews b.fresh c }) := by
  simp [allocCrew, h]

theorem unitOf_modUnit (s : State) (u : Nat) (f : BUnit → BUnit) : unitOf (modUnit s u f) u = f (unitOf s u) := by
  simp [unitOf, modUnit, tgetD]

theorem crewOf_fresh {s : State} {u : Nat} (h : (unitOf s u).fresh ≤ 8191) (c : Crew) :
    crewOf (modUnit s u fun b => { b with fresh := b.fresh + 1, crews := tins b.crews b.fresh c })
      (8192 * u + (unitOf s u).fresh) = some c := by
  rw [crewOf, show (8192 * u + (unitOf s u).fresh) / 8192 = u by omega,
    show (8192 * u + (unitOf s u).fresh) % 8192 = (unitOf s u).fresh by omega, unitOf_modUnit]
  exact tget_tins ..

@[simp] theorem takeCtx_bunits (s core ctx) : (takeCtx s core ctx).bunits = s.bunits := by
  unfold takeCtx; split <;> rfl

@[simp] theorem crewOf_takeCtx (s core ctx h) : crewOf (takeCtx s core ctx) h = crewOf s h := by
  simp only [crewOf, unitOf, takeCtx_bunits]

@[simp] theorem takeCtx_warps (s : State) (core ctx : Nat) :
    (coreOf (takeCtx s core ctx) core).warps = (coreOf s core).warps := by
  unfold takeCtx; split
  · rfl
  · rw [coreOf_modCore]

/-- A core that holds no context takes the launch's (R391). -/
theorem takeCtx_ctx {s : State} {core ctx : Nat} (h : (coreOf s core).ctx = none ∨ (coreOf s core).ctx = some ctx) :
    (coreOf (takeCtx s core ctx) core).ctx = some ctx := by
  unfold takeCtx
  rcases h with h | h
  · simp [h]
  · simp [h]

/-- A core that takes a block of a launch holds its context, or none. -/
theorem coreTakes_ctx {s : State} {core id : Nat} {l : Launch} (h : coreTakes s core id l = true) :
    (coreOf s core).ctx = none ∨ (coreOf s core).ctx = some l.ctx := by
  unfold coreTakes at h
  simp only [Bool.and_eq_true] at h
  obtain ⟨-, h⟩ := h
  split at h
  · exact .inl (Option.isNone_iff_eq_none.1 ‹_›)
  · exact .inr (beq_iff_eq.1 h)

/-! A part of a block on its core. -/

/-- The block that a part becomes, before it is placed (R144, R388). -/
def partBlock (id b k : Nat) (l : Launch) (bank : Nat) (gs : List Nat) : Block :=
  { launch := id, sub := k, bx := (blockId l b).1, byy := (blockId l b).2.1, bz := (blockId l b).2.2, linear := b,
    bankCol := bank, colGran := gs, sharedBank := l.sharedBank && !gs.isEmpty, prov := !l.resolved && b ≥ l.floor,
    bundle := l.subs.length > 1 }

/-- The crew of a part, before any of its warps has arrived (R248). -/
def partCrew (s : State) (core : Nat) (sub : Sub) (l : Launch) : Crew :=
  { ctx := l.ctx, members := warpsOfSub sub, core := core, remote := localCrews s core ≥ 16 }

/-- A part that is bound stands on a core of its context, with a fresh crew record and its bind record. -/
theorem bindPart_some {s u : State} {core id b k : Nat} {sub : Sub} {l : Launch} (hl : tget s.launches id = some l)
    (hf : (unitOf s (chipletOf core)).fresh ≤ 8191) (h : bindPart s core id b k sub .none = some u) :
    ∃ t co co' bank gs crew slot, co.ctx = some l.ctx ∧ co.warps = (coreOf s core).warps ∧
      placePart co sub (partBlock id b k l bank gs) crew = some (co', slot) ∧
      crewOf t crew = some (partCrew s core sub l) ∧ u = noteBind (setCore t core co') core slot := by
  unfold bindPart at h
  simp only [hl] at h
  split at h
  · cases h
  · rename_i takes
    rw [Bool.not_eq_true', Bool.not_eq_false] at takes
    split at h
    · rename_i s1 bank gs n t1 htake halloc
      obtain ⟨cores, units⟩ := takeBank_keeps htake
      have same : unitOf s1 (chipletOf core) = unitOf s (chipletOf core) := by rw [unitOf, units]; rfl
      rw [allocCrew_fresh hf] at halloc
      cases halloc
      simp only [allocCrew_fresh (same ▸ hf : (unitOf s1 (chipletOf core)).fresh ≤ 8191)] at h
      obtain ⟨⟨co', slot⟩, placed, rfl⟩ := Option.map_eq_some_iff.1 h
      refine ⟨_, _, co', bank, gs, _, slot, ?_, ?_, placed, ?_, rfl⟩
      · have held := coreTakes_ctx takes
        rw [← coreOf_congr cores] at held
        split <;> exact takeCtx_ctx held
      · rw [← coreOf_congr cores]
        split <;> exact takeCtx_warps ..
      · rw [crewOf_takeCtx, ← same]
        exact crewOf_fresh (same ▸ hf) _
    · cases h

/-! Bind records (R388). -/

/-- A bind record's context, slot and first granule of scratch. -/
theorem bindImg_fields {s : State} {core k : Nat} {b : Block} (h : tget (coreOf s core).blocks k = some b) :
    descNat (bindImg s core k) 0 4 = (coreOf s core).ctx.getD 0 % 2 ^ 32 ∧
      descNat (bindImg s core k) 0x14 1 = k % 2 ^ 8 ∧ descNat (bindImg s core k) 0x24 2 = b.scratchBase % 2 ^ 16 := by
  simp only [bindImg, h, List.append_assoc]
  refine ⟨descNat_leBytes .., ?_, ?_⟩
  · iterate 5 rw [descNat_behind (by simp)]
    simp only [length_leBytes]
    exact descNat_leBytes ..
  · iterate 10 rw [descNat_behind (by simp)]
    simp only [length_leBytes, length_bitBytes]
    exact descNat_leBytes ..

/-! Sorted lists. -/

theorem head?_insertBy {α : Type} (f : α → Nat) (y : α) (acc : List α) :
    (insertBy f y acc).head? = some (acc.head?.elim y fun h => if f y < f h then y else h) := by
  cases acc with
  | nil => rfl
  | cons h t =>
    simp only [insertBy, List.head?_cons, Option.elim_some]
    split <;> rfl

/-- An element with a key below all others comes to the head once it is inserted, and stays there. -/
theorem head?_foldl_insertBy {α : Type} {f : α → Nat} {x : α} (l : List α) {acc : List α}
    (hl : ∀ y ∈ l, y ≠ x → f x < f y) (ha : ∀ y ∈ acc.head?, y ≠ x → f x < f y) (hx : acc.head? = some x ∨ x ∈ l) :
    (l.foldl (fun acc y => insertBy f y acc) acc).head? = some x := by
  induction l generalizing acc with
  | nil => simpa using hx
  | cons y l ih =>
    have hy := hl y (List.mem_cons_self ..)
    refine ih (fun z hz => hl z (List.mem_cons_of_mem _ hz)) ?_ ?_
    · rw [head?_insertBy]
      cases hh : acc.head? with
      | none => simpa using hy
      | some h =>
        have hk := ha h hh
        simp only [Option.elim_some, Option.mem_some_iff, forall_eq']
        split
        · exact hy
        · exact hk
    · rw [head?_insertBy]
      by_cases e : y = x
      · refine .inl ?_
        subst e
        cases hh : acc.head? with
        | none => rfl
        | some h =>
          by_cases eh : h = y
          · simp [eh]
          · simp [ha h hh eh]
      · rcases hx with hx | hx
        · exact .inl (by simp [hx, Nat.not_lt.2 (Nat.le_of_lt (hy e))])
        · exact .inr ((List.mem_cons.1 hx).resolve_left (Ne.symm e))

/-- The head of a sorted list is the one with the least key. -/
theorem head?_sortBy {α : Type} {f : α → Nat} {x : α} {l : List α} (hx : x ∈ l) (hl : ∀ y ∈ l, y ≠ x → f x < f y) :
    (sortBy f l).head? = some x :=
  head?_foldl_insertBy l hl (fun _ h => nomatch h) (.inr hx)

/-! Distributors and leaf controllers (R386, R390). -/

theorem leafState_modLeaf (s : State) (leaf : Nat) (f : Leaf → Leaf) :
    leafState (modLeaf s leaf f) leaf = f (leafState s leaf) := by
  simp [leafState, modLeaf, tgetD]

/-- An event that leaves the state as it is, whatever it names. -/
theorem eventIf_still {b : Bool} {s : State} {f : State → State} (h : f s = s) : eventIf b s f = .next s := by
  cases b
  · exact eventIf_false rfl s f
  · exact (eventIf_true rfl s f).trans (congrArg Host.Outcome.next h)

/-- A distributor's next block goes to a leaf with a permit, whose queue it joins. -/
theorem exec_blockSend {s : State} {id site leaf b : Nat} {l : Launch} {rest : List Nat} (hs : site < 8)
    (hf : leaf < 64) (hl : tget s.launches id = some l) (hd : tgetD l.dists site [] = b :: rest)
    (hv : leafServes s l leaf = true) (hw : ((leafState s leaf).waiting.filter fun w => w.1 == id).length < 2) :
    exec (.blockSend id site leaf) s = .next (modLeaf
      { s with launches := tins s.launches id { l with dists := tput [] l.dists site rest } } leaf fun f =>
        { f with waiting := f.waiting ++ [(id, b)] }) := by
  show execBlockSend id site leaf s = _
  have permit : permits s leaf id > 0 := Nat.sub_pos_of_lt hw
  refine (eventIf_true (by simp [below, hs, hf]) s _).trans ?_
  simp only [hl, hd, hv, permit, decide_true, Bool.and_self, if_true]

/-- Without a permit, or to a leaf that does not serve the launch, nothing is sent. -/
theorem exec_blockSend_held {s : State} {id site leaf : Nat}
    (h : ∀ l, tget s.launches id = some l → leafServes s l leaf = false ∨ permits s leaf id = 0) :
    exec (.blockSend id site leaf) s = .next s := by
  show execBlockSend id site leaf s = _
  refine eventIf_still ?_
  cases hl : tget s.launches id with
  | none => rfl
  | some l =>
    simp only
    split
    · rfl
    · rcases h l hl with h | h <;> simp [h]

/-- An idle distributor takes the higher half of what the fullest one has. -/
theorem exec_steal {s : State} {id site d : Nat} {l : Launch} {bs : List Nat} (hs : site < 8)
    (hl : tget s.launches id = some l) (hi : tgetD l.dists site [] = []) (hd : site ∈ distSites s l)
    (hw : siteWorks s site = true) (hm : (d, bs) ∈ l.dists)
    (hf : ∀ e ∈ l.dists, e ≠ (d, bs) → e.2.length < bs.length) (h2 : 2 ≤ bs.length) (hb : bs.length < 2 ^ 33) :
    exec (.steal id site) s = .next { s with
      launches := tins s.launches id { l with
        dists := tins (tput [] l.dists d (bs.take (bs.length - bs.length / 2))) site
          (bs.drop (bs.length - bs.length / 2)) } } := by
  have fullest : (sortBy (fun (e : Nat × List Nat) => 2 ^ 33 - e.2.length) l.dists).head? = some (d, bs) :=
    head?_sortBy hm fun e he hne => by
      have := hf e he hne
      show 2 ^ 33 - bs.length < 2 ^ 33 - e.2.length
      omega
  have many : bs.length ≠ 1 := by omega
  show execSteal id site s = _
  refine (eventIf_true (decide_eq_true hs) s _).trans ?_
  simp only [hl, fullest, Option.getD_some, many, if_false]
  rw [if_pos (by simp [hi, hd, hw, h2])]

/-- A distributor that still has blocks steals none. -/
theorem exec_steal_busy {s : State} {id site : Nat} {l : Launch} (hl : tget s.launches id = some l)
    (hd : tgetD l.dists site [] ≠ []) : exec (.steal id site) s = .next s := by
  show execSteal id site s = _
  refine eventIf_still ?_
  simp [hl, hd]

/-- With one launch waiting, a leaf places its next block where it can. -/
theorem exec_blockPlace {s : State} {leaf id b : Nat} (hf : leaf < 64) (hn : leafNext s leaf = [(id, b)]) :
    exec (.blockPlace leaf) s = .next ((placeUnit s leaf id b).getD s) := by
  show execBlockPlace leaf s = _
  refine (eventIf_true (decide_eq_true hf) s _).trans ?_
  simp only [hn, List.findSome?_cons, List.findSome?_nil]
  cases placeUnit s leaf id b <;> rfl

/-- A leaf that is lost already, or whose neighbour is, is not served anew. -/
theorem exec_leafTakeover_lost {s : State} {leaf : Nat}
    (h : (leafState s leaf).lost = true ∨ (leafState s (Nat.xor leaf 1)).lost = true) :
    exec (.leafTakeover leaf) s = .next s := by
  show execLeafTakeover leaf s = _
  exact eventIf_still (if_pos (Bool.or_eq_true _ _ ▸ h))

/-- The leaf as its neighbour finds it: lost, and logged so (R390). -/
def leafLost (s : State) (leaf : Nat) : State := logEvent (modLeaf s leaf fun f => { f with lost := true }) 0x390 leaf

/-- The neighbour serves the leaf, and the owner of its chiplet is told. -/
theorem exec_leafTakeover {s : State} {leaf : Nat} (hf : leaf < 64) (h0 : (leafState s leaf).lost = false)
    (h1 : (leafState s (Nat.xor leaf 1)).lost = false) : exec (.leafTakeover leaf) s =
      .next ((partOfChiplet s (leaf / 8)).elim (leafLost s leaf) fun p => irq (leafLost s leaf) p 0) := by
  show execLeafTakeover leaf s = _
  have parts : partOfChiplet (leafLost s leaf) (leaf / 8) = partOfChiplet s (leaf / 8) := rfl
  refine (eventIf_true (decide_eq_true hf) s _).trans (congrArg Host.Outcome.next ((if_neg ?_).trans ?_))
  · rw [h0, h1]
    exact Bool.false_ne_true
  · show (match partOfChiplet (leafLost s leaf) (leaf / 8) with
      | some p => irq (leafLost s leaf) p 0
      | none => leafLost s leaf) = _
    rw [parts]
    cases partOfChiplet s (leaf / 8) <;> rfl

/-- A core's slots, warps and binding record after a part has come to it. -/
theorem bindPart_binds {s u : State} {core id b k : Nat} {sub : Sub} {l : Launch} (hl : tget s.launches id = some l)
    (h : bindPart s core id b k sub .none = some u) (hf : (unitOf s (chipletOf core)).fresh ≤ 8191) :
    ∃ slot blk crew, slot < 16 ∧ tget (coreOf u core).blocks slot = some blk ∧ (coreOf u core).ctx = some l.ctx ∧
      blk.launch = id ∧ blk.linear = b ∧ blk.sub = k ∧ (blk.bx, blk.byy, blk.bz) = blockId l b ∧
      blk.scratchGran = scratchOfSub sub ∧ (blk.prov = true ↔ l.resolved = false ∧ l.floor ≤ b) ∧
      bindRead u core slot 127 = 0xA5 ∧ tgetD u.binds (16 * core + slot) [] = bindImg u core slot ∧
      descNat (bindImg u core slot) 0 4 = l.ctx % 2 ^ 32 ∧ descNat (bindImg u core slot) 0x14 1 = slot ∧
      descNat (bindImg u core slot) 0x24 2 = blk.scratchBase % 2 ^ 16 ∧
      crewOf u blk.bcrew = some crew ∧ crew.members = sub.lanes / 32 ∧ crew.arrived = 0 ∧
      ∀ i, i < sub.lanes / 32 → ∃ w y, w < 48 ∧ tget (coreOf s core).warps w = none ∧
        tget (coreOf u core).warps w = some y ∧ AtEntry slot i ((sub.regs + 7) / 8) sub.entry blk.bcrew y := by
  obtain ⟨t, co, co', bank, gs, crew, slot, held, warps, placed, record, rfl⟩ := bindPart_some hl hf h
  obtain ⟨room, ctx, ⟨base, there⟩, entered⟩ := placePart_some placed
  have core' : coreOf (noteBind (setCore t core co') core slot) core = co' := coreOf_setCore ..
  obtain ⟨field0, field1, field2⟩ := bindImg_fields (s := noteBind (setCore t core co') core slot) (core := core)
    (by rw [core']; exact there)
  rw [core'] at field0 ⊢
  rw [ctx, held] at field0
  refine ⟨slot, _, _, room, there, ctx.trans held, rfl, rfl, rfl, rfl, rfl, ?_, ?_, ?_, field0, ?_, field2, record, rfl,
    rfl, ?_⟩
  · simp [partBlock]
  · simp [bindRead, core', there]
  · show (tget (tins _ _ _) _).getD [] = _
    rw [tget_tins]
    rfl
  · rw [field1, Nat.mod_eq_of_lt (by omega)]
  · rw [← warps]
    exact entered

/-- Settles O49: each step is read off its own equation, and a part that is bound off the slot, the crew record and the
contexts that it took. -/
theorem blocksArePlaced : Obligations.BlocksArePlaced := by
  unfold Obligations.BlocksArePlaced
  intro s id site leaf core b k l sub rest bs u lf r mate c
  refine ⟨fun hs hf hl hd hv hw => ⟨_, _, exec_blockSend hs hf hl hd hv hw, tget_tins .., tgetD_tput .., ?_, rfl⟩,
    fun hw => exec_blockSend_held fun _ _ => .inr (Nat.sub_eq_zero_of_le hw),
    fun hl hv => exec_blockSend_held fun l' hl' => .inl (by rw [hl] at hl'; cases hl'; exact hv),
    fun d hs hl hi hd hw hne hm hfull h2 hb =>
      ⟨_, _, exec_steal hs hl hi hd hw hm hfull h2 hb, tget_tins .., ?_, ?_⟩,
    exec_steal_busy, fun hf hn hp => ?_, fun hf hn hp => ?_, bindPart_binds, fun hf h0 h1 => ?_,
    fun _ => exec_leafTakeover_lost⟩
  · rw [leafState_modLeaf]
    rfl
  · simp only [tgetD, tget_tins_ne _ _ hne]
    exact tgetD_tput ..
  · simp [tgetD, r]
  · rw [exec_blockPlace hf hn, hp, Option.getD_some]
  · rw [exec_blockPlace hf hn, hp, Option.getD_none]
  · refine ⟨_, exec_leafTakeover hf h0 h1, ?_⟩
    have lost : leafState (leafLost s leaf) leaf = { lf with lost := true } :=
      leafState_modLeaf s leaf fun f => { f with lost := true }
    cases partOfChiplet s (leaf / 8) with
    | none => exact ⟨lost, rfl, fun p hp => nomatch hp⟩
    | some q =>
      refine ⟨lost, rfl, fun p hp => ?_⟩
      cases hp
      rfl

end Sys2Proof.Machine

/-! A restore over a table of warps that lists one key twice: the entry behind is not read as a warp, yet its wait is
looked at again. -/

namespace Sys2Proof.Machine

/-- A context saved from core 3, whose column-bank granules stayed where they were. -/
def keptSave : Saved := { ctx := 0, area := 0, core := 3, held := 4096, reason := 0, keepBank := true }

/-- A second entry under the key of warp 0, which waits for a phase of crew 5. -/
def shadeWarp : Warp := { bootWarp with a := { bootWarp.a with wait := .crew 5 0 none false } }

/-- The saved core lists warp 0 twice, and the crew that the entry behind waits for is broken. -/
def doubledKey : State :=
  { State.reset with
    parts := [(0, { n := 8 })]
    contexts := [(0, {})]
    saves := [keptSave]
    bunits := [(0, { crews := [(5, { ctx := 0, members := 1, broken := true })] })]
    cores := [(4096, { ctx := some 0, blocks := [(0, {})], warps := [(0, bootWarp), (0, shadeWarp)] })] }

/-- What the save holds of the core, under the name of core 0. -/
def doubledImage : Core :=
  coreOf (renameCore
    { doubledKey with cores := tins doubledKey.cores 4096 (areaBack doubledKey keptSave (coreOf doubledKey 4096)) }
    4096 0) 4096

theorem doubledImage_warps : doubledImage.warps = [(0, bootWarp), (0, shadeWarp)] := by decide +kernel

/-- The one warp that is read from it. -/
theorem tget_doubledImage {w : Nat} {y : Warp} (h : tget doubledImage.warps w = some y) : y = bootWarp := by
  rw [doubledImage_warps, tget_cons] at h
  split at h
  · exact (Option.some.inj h).symm
  · rename_i hw
    rw [tget_cons, if_neg hw] at h
    split at h <;> simp at h

/-- The entry behind waits for a broken crew, so the restore makes the warp trap, and its block ends with it. -/
theorem contextRestore_doubledKey :
    (match exec (.contextRestore 0 0) doubledKey with
      | .next t => tget (coreOf t 0).warps 0
      | _ => none) = none := by decide +kernel

/-- Refutes O37: nothing says that the saved core's table of warps is canonical.  Where a key stands twice, only the
entry in front is a warp, and the restore clause keeps waits for a crew from that one alone; but the restore looks at
the waits of all that is listed (R264), and for the entry behind, whose crew is broken, it makes the warp in front trap
CREW.  Without a handler its block fails, so the restored core has no warp 0. -/
theorem not_contextsAreSavedAndRestored : ¬ Obligations.ContextsAreSavedAndRestored := by
  unfold Obligations.ContextsAreSavedAndRestored
  intro h
  obtain ⟨-, -, -, restore⟩ := h doubledKey 0 0 0 0
  have calm (w : Nat) (y : Warp) (sl : Slot) (hy : tget doubledImage.warps w = some y) (k p : Nat) (a : Option Bool)
      (b : Bool) : (pathOf y sl).wait ≠ .crew k p a b := by
    rw [tget_doubledImage hy]
    cases sl <;> exact Wait.noConfusion
  obtain ⟨t, run, -, -, -, kept⟩ := restore 0 keptSave doubledImage (by decide) rfl (by decide +kernel)
    (by decide +kernel) rfl rfl (by decide) (by decide +kernel) rfl (by decide +kernel) calm
  obtain ⟨y, hy, -⟩ := kept 0 bootWarp (by rw [doubledImage_warps]; rfl)
  have gone := contextRestore_doubledKey
  rw [run] at gone
  exact Option.some_ne_none y (hy.symm.trans gone)

end Sys2Proof.Machine

/-! Words from their bits, and the lanes of a mask. -/

namespace Sys2Proof.Machine

/-- The sum of the powers of two below 2^n that a predicate names. -/
def bitSum (p : Nat → Bool) (n : Nat) : Nat := (List.range n).foldl (fun acc i => if p i then acc + 2 ^ i else acc) 0

theorem bitSum_succ (p : Nat → Bool) (n : Nat) : bitSum p (n + 1) = if p n then bitSum p n + 2 ^ n else bitSum p n := by
  rw [bitSum, List.range_succ, List.foldl_append]
  rfl

theorem bitSum_lt (p : Nat → Bool) (n : Nat) : bitSum p n < 2 ^ n := by
  induction n with
  | zero => exact Nat.one_pos
  | succ n ih =>
    rw [bitSum_succ, Nat.pow_succ]
    split <;> omega

theorem testBit_bitSum (p : Nat → Bool) (n i : Nat) : (bitSum p n).testBit i = (decide (i < n) && p i) := by
  induction n with
  | zero => exact Nat.zero_testBit i
  | succ n ih =>
    have sum : (bitSum p (n + 1)).testBit i = (p n && decide (n = i) || (bitSum p n).testBit i) := by
      rw [bitSum_succ]
      split <;> rename_i h
      · have disjoint := Nat.two_pow_add_eq_or_of_lt (bitSum_lt p n) 1
        rw [Nat.mul_one, Nat.add_comm] at disjoint
        rw [disjoint, Nat.testBit_or, Nat.testBit_two_pow, h, Bool.true_and]
      · simp [h]
    rw [sum, ih]
    by_cases h : n = i
    · simp [h]
    · simp [h, show i < n + 1 ↔ i < n by omega]

theorem getLsbD_ofBits (w : Nat) (p : Nat → Bool) (i : Nat) : (ofBits w p).getLsbD i = (decide (i < w) && p i) := by
  show (BitVec.ofNat w (bitSum p w)).getLsbD i = _
  rw [BitVec.getLsbD_ofNat, testBit_bitSum, ← Bool.and_assoc, Bool.and_self]

@[simp] theorem getLsbD_lanesWhere (m : W32) (p : Nat → Bool) (l : Nat) :
    (lanesWhere m p).getLsbD l = (m.getLsbD l && p l) := by
  rw [lanesWhere, getLsbD_ofBits]
  by_cases h : l < 32
  · simp [h]
  · simp [h, BitVec.getLsbD_of_ge m l (Nat.not_lt.1 h)]

theorem lanesWhere_false (m : W32) : lanesWhere m (fun _ => false) = 0 :=
  BitVec.eq_of_getLsbD_eq fun l _ => by simp

theorem setBits_lanesWhere (m : W32) (p : Nat → Bool) : setBits (lanesWhere m p) = (setBits m).filter p := by
  simp only [setBits, List.filter_filter, getLsbD_lanesWhere, Bool.and_comm]

/-- The one lane of a mask that has a given number. -/
theorem setBits_lanesWhere_eq (m : W32) (l : Nat) :
    setBits (lanesWhere m fun k => k == l) = if m.getLsbD l then [l] else [] := by
  rw [setBits_lanesWhere]
  have nodup : (setBits m).Nodup := List.nodup_range.filter _
  by_cases h : m.getLsbD l
  · have hl : l ∈ setBits m := List.mem_filter.2 ⟨List.mem_range.2 (BitVec.lt_of_getLsbD h), h⟩
    rw [if_pos h, List.filter_beq, nodup.count, if_pos hl, List.replicate_one]
  · rw [if_neg h, List.filter_eq_nil_iff]
    intro k hk e
    rw [beq_iff_eq] at e
    exact h (e ▸ (List.mem_filter.1 hk).2)

theorem popcount_eq_countP {w : Nat} (x : BitVec w) : popcount x = (List.range w).countP fun i => x.getLsbD i :=
  List.countP_eq_length_filter.symm

end Sys2Proof.Machine

/-! Integer functions on patterns (R68, R187-R190), on the numbers that the patterns stand for. -/

namespace Sys2Proof.Machine

theorem tyInt32_cases {t : Ty} (h : t ∈ tyInt32) : t = .i32 ∨ t = .n32 := by simpa [tyInt32] using h

theorem intOf_i32 (a : W32) : intOf .i32 a.toNat = a.toInt := by
  have := a.isLt
  show sgn 32 a.toNat = _
  rw [BitVec.toInt_eq_toNat_cond, sgn, Nat.mod_eq_of_lt this]
  split <;> split <;> omega

theorem intOf_int32 {t : Ty} (h : t ∈ tyInt32) (a : W32) : intOf t a.toNat = int32 t a := by
  rcases tyInt32_cases h with rfl | rfl
  · exact intOf_i32 a
  · exact congrArg Int.ofNat (Nat.mod_eq_of_lt a.isLt)

theorem ofNat_wrapN (w : Nat) (v : Int) : BitVec.ofNat w (wrapN w v) = BitVec.ofInt w v := by
  refine BitVec.eq_of_toNat_eq ?_
  rw [wrapN, BitVec.toNat_ofNat, BitVec.toNat_ofInt]
  refine Nat.mod_eq_of_lt ((Int.toNat_lt' (Nat.two_pow_pos w)).2 ?_)
  exact Int.emod_lt_of_pos v (Int.natCast_pos.2 (Nat.two_pow_pos w))

theorem clampTy_clamp32 {t : Ty} (h : t ∈ tyInt32) (v : Int) : clampTy t v = clamp32 t v := by
  rcases tyInt32_cases h with rfl | rfl <;> rfl

theorem ofNat_intPat {t : Ty} (h : t ∈ tyInt32) (sat : Bool) (v : Int) :
    BitVec.ofNat 32 (intPat t sat v) = low32 (if sat then clamp32 t v else v) := by
  have bits : tyBits t = 32 := by rcases tyInt32_cases h with rfl | rfl <;> rfl
  rw [intPat, bits, ofNat_wrapN, clampTy_clamp32 h, low32]

theorem addTy_eq {t : Ty} (h : t ∈ tyInt32) (sat : Bool) (a b : W32) :
    addTy t sat a b = low32 (if sat then clamp32 t (int32 t a + int32 t b) else int32 t a + int32 t b) := by
  rw [addTy, ofNat_intPat h, intOf_int32 h, intOf_int32 h]

theorem subTy_eq {t : Ty} (h : t ∈ tyInt32) (sat : Bool) (a b : W32) :
    subTy t sat a b = low32 (if sat then clamp32 t (int32 t a - int32 t b) else int32 t a - int32 t b) := by
  rw [subTy, ofNat_intPat h, intOf_int32 h, intOf_int32 h]

theorem mulHi_eq {t : Ty} (h : t ∈ tyInt32) (a b : W32) : mulHi t a b = low32 (int32 t a * int32 t b / 4294967296) := by
  rw [mulHi, intOf_int32 h, intOf_int32 h, low32]
  refine BitVec.eq_of_toNat_eq ?_
  rw [BitVec.toNat_ofNat, BitVec.toNat_ofInt, wrapN]
  omega

theorem minTy_eq {t : Ty} (h : t ∈ tyInt32) (a b : W32) : minTy t a b = if int32 t a ≤ int32 t b then a else b := by
  rw [minTy, intOf_int32 h, intOf_int32 h]

theorem maxTy_eq {t : Ty} (h : t ∈ tyInt32) (a b : W32) : maxTy t a b = if int32 t a ≤ int32 t b then b else a := by
  rw [maxTy, intOf_int32 h, intOf_int32 h]

theorem sar32_eq (a b : W32) : sar32 a b = low32 (a.toInt / 2 ^ (b.toNat % 32)) := by
  have shifted : (sar32 a b).toInt = a.toInt / 2 ^ (b.toNat % 32) := by
    rw [sar32, BitVec.toInt_sshiftRight, Int.shiftRight_eq_div_pow]
    rfl
  rw [← shifted, low32, BitVec.ofInt_toInt]

theorem popc32_eq (a : W32) : popc32 a = BitVec.ofNat 32 ((List.range 32).countP fun i => a.getLsbD i) :=
  congrArg (BitVec.ofNat 32) (popcount_eq_countP a)

theorem ofNat_clz32 (a : W32) : BitVec.ofNat 32 (clz32 a) = if a = 0 then 32 else BitVec.ofNat 32 (31 - a.toNat.log2) :=
  apply_ite _ _ _ _

theorem ofBits_reverse (a : W32) : (ofBits 32 fun i => a.getLsbD (31 - i)) = a.reverse :=
  BitVec.eq_of_getLsbD_eq fun i hi => by
    rw [getLsbD_ofBits, BitVec.getLsbD_reverse, BitVec.getMsbD]

theorem two_pow_ne_zero (n : Nat) : (2 : Int) ^ n ≠ 0 := Int.ne_of_gt (Int.pow_pos (by decide))

theorem natCast_two_pow (n : Nat) : ((2 ^ n : Nat) : Int) = 2 ^ n := Int.natCast_pow 2 n

/-- A field of a number is read as well from its low 64 bits, when it lies there. -/
theorem field_emod (z : Int) {off w : Nat} (h : off + w ≤ 64) :
    z % 2 ^ 64 / 2 ^ off % 2 ^ w = z / 2 ^ off % 2 ^ w := by
  obtain ⟨k, hk⟩ := Nat.exists_eq_add_of_le h
  have pow : (2 : Int) ^ 64 = 2 ^ off * (2 ^ w * 2 ^ k) := by rw [hk, Int.pow_add, Int.pow_add, Int.mul_assoc]
  have whole : z = z % 2 ^ 64 + 2 ^ off * (2 ^ w * (2 ^ k * (z / 2 ^ 64))) := by
    rw [← Int.mul_assoc (2 ^ w), ← Int.mul_assoc (2 ^ off), ← pow, Int.emod_add_mul_ediv]
  have field : z / 2 ^ off = z % 2 ^ 64 / 2 ^ off + 2 ^ w * (2 ^ k * (z / 2 ^ 64)) :=
    (congrArg (· / 2 ^ off) whole).trans (Int.add_mul_ediv_left _ _ (two_pow_ne_zero off))
  rw [field, Int.add_mul_emod_self_left]

/-- The field that BFE cuts from 64 bits is one of the number extended to them (R154). -/
theorem field_ofInt (z : Int) {off w : Nat} (h : off + w ≤ 64) :
    ((((BitVec.ofInt 64 z) >>> off).toNat % 2 ^ w : Nat) : Int) = z / 2 ^ off % 2 ^ w := by
  rw [BitVec.toNat_ushiftRight, Nat.shiftRight_eq_div_pow, BitVec.toNat_ofInt, Int.natCast_emod, Int.natCast_ediv,
    Int.toNat_of_nonneg (Int.emod_nonneg _ (Int.ne_of_gt (Int.natCast_pos.2 (Nat.two_pow_pos 64)))), natCast_two_pow,
    natCast_two_pow, natCast_two_pow, field_emod z h]

theorem sgn_of_lt {w x : Nat} (h : x < 2 ^ w) : sgn w x = if 2 * (x : Int) ≥ 2 ^ w then (x : Int) - 2 ^ w else x := by
  have cast : 2 * x ≥ 2 ^ w ↔ 2 * (x : Int) ≥ 2 ^ w := by
    have := natCast_two_pow w
    omega
  rw [sgn, Nat.mod_eq_of_lt h]
  exact ite_congr (propext cast) (fun _ => rfl) (fun _ => rfl)

theorem bfe_eq (t : Ty) (a b c : W32) : bfe (t == .i32) a b c =
    let off := b.toNat % 32
    let w := min (c.toNat % 64) 32
    if w = 0 then 0
    else if t = .i32 then
      let f := a.toInt / 2 ^ off % 2 ^ w
      low32 (if 2 * f ≥ 2 ^ w then f - 2 ^ w else f)
    else BitVec.ofNat 32 (a.toNat / 2 ^ off % 2 ^ w) := by
  have fits : b.toNat % 32 + min (c.toNat % 64) 32 ≤ 64 := by omega
  unfold bfe
  refine ite_congr rfl (fun _ => rfl) fun _ => ?_
  by_cases h : t = .i32
  · have field : (((a.signExtend 64 >>> (b.toNat % 32)).toNat % 2 ^ min (c.toNat % 64) 32 : Nat) : Int) = _ :=
      field_ofInt a.toInt fits
    simp only [h, beq_self_eq_true, if_true, ofNat_wrapN, sgn_of_lt (Nat.mod_lt _ (Nat.two_pow_pos _)), field, low32]
  · have wide : (a.zeroExtend 64).toNat = a.toNat := by
      rw [BitVec.toNat_setWidth, Nat.mod_eq_of_lt (by have := a.isLt; omega)]
    simp only [h, beq_eq_false_iff_ne.2 h, Bool.false_eq_true, if_false, BitVec.toNat_ushiftRight, wide,
      Nat.shiftRight_eq_div_pow]

/-- Field insertion, bit by bit (R189). -/
theorem getLsbD_bfi (u v k : W32) {i : Nat} (hi : i < 32) :
    let off := k.toNat % 32
    let w := min (k.toNat / 256 % 64) 32
    (bfi u v k).getLsbD i = if off ≤ i ∧ i < off + w then u.getLsbD (i - off) else v.getLsbD i := by
  intro off w
  have mask : (BitVec.ofNat 32 ((2 ^ w - 1) * 2 ^ off)).getLsbD i = decide (off ≤ i ∧ i < off + w) := by
    rw [BitVec.getLsbD_ofNat, Nat.testBit_mul_two_pow, Nat.testBit_two_pow_sub_one]
    by_cases h : off ≤ i <;> simp [hi, h]
    omega
  show ((v &&& ~~~ BitVec.ofNat 32 ((2 ^ w - 1) * 2 ^ off)) |||
    ((u <<< off) &&& BitVec.ofNat 32 ((2 ^ w - 1) * 2 ^ off))).getLsbD i = _
  rw [BitVec.getLsbD_or, BitVec.getLsbD_and, BitVec.getLsbD_and, BitVec.getLsbD_not, mask, BitVec.getLsbD_shiftLeft]
  by_cases h : off ≤ i ∧ i < off + w
  · simp [h, hi, Nat.not_lt.2 h.1]
  · simp [h, hi]

/-- A word put together from four bytes has them. -/
theorem byteOf_ofNat_four (f : Nat → Byte) {j : Nat} (hj : j < 4) : byteOf (BitVec.ofNat 32
    ((f 0).toNat + (f 1).toNat * 256 + (f 2).toNat * 65536 + (f 3).toNat * 2 ^ 24)) j = f j := by
  have h0 := (f 0).isLt
  have h1 := (f 1).isLt
  have h2 := (f 2).isLt
  have h3 := (f 3).isLt
  refine BitVec.eq_of_toNat_eq ?_
  rw [byteOf, BitVec.extractLsb'_toNat, BitVec.toNat_ofNat, Nat.shiftRight_eq_div_pow]
  match j, hj with
  | 0, _ | 1, _ | 2, _ | 3, _ => omega

/-- The byte that four bits of a selector name: a byte of the pair, or its sign throughout (R190). -/
def selectByte (w : W64) (n : Nat) : Byte :=
  let y := byteOf w (n % 8)
  if n < 8 then y else if y.msb then 0xFF else 0

theorem toNat_selectByte (w : W64) (n : Nat) : (selectByte w n).toNat =
    if n < 8 then (byteOf w (n % 8)).toNat else if (byteOf w (n % 8)).toNat ≥ 128 then 0xFF else 0 := by
  simp only [selectByte, BitVec.msb_eq_decide, decide_eq_true_eq, apply_ite BitVec.toNat]
  rfl

theorem byteOf_perm (u v k : W32) {j : Nat} (hj : j < 4) :
    byteOf (perm u v k) j = selectByte (v ++ u) (k.toNat / 16 ^ j % 16) := by
  rw [← byteOf_ofNat_four (fun i => selectByte (v ++ u) (k.toNat / 16 ^ i % 16)) hj]
  simp only [toNat_selectByte]
  rfl

/-- The six conditions of R155 on a comparison word's SUB. -/
theorem condInt_eq {cc : BitVec 7} (h : cc.toNat ≤ 5) (u v : Int) : condInt cc.toNat u v =
    ((cc == 0 && u == v) || (cc == 1 && u != v) || (cc == 2 && decide (u < v)) || (cc == 3 && decide (u ≥ v)) ||
      (cc == 4 && decide (u > v)) || (cc == 5 && decide (u ≤ v))) := by
  have codes : cc = 0 ∨ cc = 1 ∨ cc = 2 ∨ cc = 3 ∨ cc = 4 ∨ cc = 5 := by bv_omega
  rcases codes with rfl | rfl | rfl | rfl | rfl | rfl <;> simp [condInt]

theorem condTy_eq {t : Ty} (h : t ∈ tyInt32) {cc : BitVec 7} (hc : cc.toNat ≤ 5) (a b : W32) :
    condTy t cc.toNat a.toNat b.toNat =
      let u := int32 t a
      let v := int32 t b
      (cc == 0 && u == v) || (cc == 1 && u != v) || (cc == 2 && decide (u < v)) || (cc == 3 && decide (u ≥ v)) ||
        (cc == 4 && decide (u > v)) || (cc == 5 && decide (u ≤ v)) := by
  rw [condTy, intOf_int32 h, intOf_int32 h]
  exact condInt_eq hc ..

/-- What VADDC makes of its two sources and the bit that it takes in, as a number (R188). -/
def carrySum (sub : Bool) (a b : W32) (c : Bool) : Int :=
  let i : Int := if c then 1 else 0
  if sub then (a.toNat : Int) - b.toNat - i else a.toNat + b.toNat + i

theorem addCarry_sum (sub : Bool) (a b : W32) (c : Bool) :
    BitVec.ofNat 32 (addCarry sub a.toNat b.toNat (if c then 1 else 0)).1 = low32 (carrySum sub a b c) := by
  cases sub
  · refine BitVec.eq_of_toNat_eq ?_
    simp only [addCarry, carrySum, Bool.false_eq_true, if_false, low32, BitVec.toNat_ofNat, BitVec.toNat_ofInt]
    cases c <;> simp only [Bool.false_eq_true, if_true, if_false] <;> omega
  · refine (ofNat_wrapN 32 _).trans (congrArg (BitVec.ofInt 32) ?_)
    cases c <;> rfl

/-- It carries or borrows where that number is out of range. -/
theorem addCarry_carry (sub : Bool) (a b : W32) (c : Bool) : (addCarry sub a.toNat b.toNat (if c then 1 else 0)).2 =
    (decide (carrySum sub a b c < 0) || decide (carrySum sub a b c ≥ 4294967296)) := by
  have := a.isLt
  refine Bool.eq_iff_iff.2 ?_
  cases sub <;> cases c <;>
    simp only [addCarry, carrySum, Bool.false_eq_true, if_true, if_false, Bool.or_eq_true, decide_eq_true_eq] <;> omega

end Sys2Proof.Machine

/-! Lane words: what one that consumes no poison gives (R184, R185), from its meaning. -/

namespace Sys2Proof.Machine

theorem ty_of_ok {f : Sig} {g : Gen} (h : f.ok g = true) : g.ty ∈ f.tys := by
  unfold Sig.ok at h
  simp only [Bool.and_eq_true] at h
  obtain ⟨⟨⟨⟨-, ty⟩, -⟩, -⟩, -⟩ := h
  exact List.contains_iff_mem.1 ty

theorem sub_of_ok {f : Sig} {g : Gen} (h : f.ok g = true) : g.sub.toNat ≤ f.sub := by
  unfold Sig.ok at h
  rw [Bool.and_eq_true] at h
  exact of_decide_eq_true h.2

/-- A lane word whose meaning is this effect gives it; the effect may be restated for well-formed words. -/
theorem givesL_of_laneWord {i : Instr} {srcs : List (Src × Bool)} {f g : Here → Warp}
    (run : ∀ s, exec i s = laneWord i s srcs f) (eq : i.wf = true → ∀ x, f x = g x) : GivesL i srcs g := by
  intro s x h hp
  rw [run, laneWord_runs h hp, eq h.legal]

theorem givesV_of_vecRaw {i : Instr} {d : BitVec 8} {srcs : List Src} {f : Here → (Src → W32) → Nat → W32}
    {v : Here → Nat → W32} (run : ∀ s, exec i s = vecRaw i d s srcs f)
    (eq : i.wf = true → ∀ x l, f x (laneRaw x.wp l) l = v x l) : GivesV i d srcs v :=
  givesL_of_laneWord run fun wf x => congrArg (writeLanes x.wp d.toNat x.exec) (funext (eq wf x))

theorem givesT_of_vecTy {i : Instr} {d : BitVec 8} {t : Ty} {srcs : List Src} {f : (Src → Nat) → Nat}
    {v : Here → Nat → Nat} (run : ∀ s, exec i s = vecTy' i d t s srcs f)
    (eq : i.wf = true → ∀ x l, f (laneVal x.wp t l) = v x l) : GivesT i d t srcs v :=
  givesL_of_laneWord run fun wf x => congrArg (writeTy x.wp d.toNat x.exec t) (funext (eq wf x))

/-- Settles O12: each form is one 32-bit function of its lane's sources, which the lemmas above give on the numbers. -/
theorem vectorIntegerResults : Obligations.VectorIntegerResults := by
  unfold Obligations.VectorIntegerResults
  intro g m
  refine ⟨givesV_of_vecRaw (execVadd.eq_def g) fun wf _ _ => addTy_eq (ty_of_ok (f := sigV tyInt32 true) wf) ..,
    givesV_of_vecRaw (execVsub.eq_def g) fun wf _ _ => subTy_eq (ty_of_ok (f := sigV tyInt32 true) wf) ..,
    givesV_of_vecRaw (execVmul.eq_def g) fun wf _ _ => ?_,
    givesV_of_vecRaw (execVmulhi.eq_def g) fun wf _ _ => mulHi_eq (ty_of_ok (f := sigV tyInt32) wf) ..,
    givesV_of_vecRaw (execVmad.eq_def g) fun wf _ _ => ?_,
    givesV_of_vecRaw (execVmin.eq_def g) fun wf _ _ => minTy_eq (ty_of_ok (f := sigV tyInt32) wf) ..,
    givesV_of_vecRaw (execVmax.eq_def g) fun wf _ _ => maxTy_eq (ty_of_ok (f := sigV tyInt32) wf) ..,
    givesV_of_vecRaw (execVabs.eq_def g) fun wf _ _ => ?_,
    givesV_of_vecRaw (execVand.eq_def g) fun _ _ _ => rfl,
    givesV_of_vecRaw (execVor.eq_def g) fun _ _ _ => rfl,
    givesV_of_vecRaw (execVxor.eq_def g) fun _ _ _ => rfl,
    givesV_of_vecRaw (execVnot.eq_def g) fun _ _ _ => rfl,
    givesV_of_vecRaw (execVshl.eq_def g) fun _ _ _ => rfl,
    givesV_of_vecRaw (execVshr.eq_def g) fun _ _ _ => rfl,
    givesV_of_vecRaw (execVsar.eq_def g) fun _ _ _ => sar32_eq ..,
    givesV_of_vecRaw (execVbfe.eq_def g) fun _ _ _ => bfe_eq ..,
    givesV_of_vecRaw (execVpopc.eq_def g) fun _ _ _ => popc32_eq _,
    givesV_of_vecRaw (execVclz.eq_def g) fun _ _ _ => ofNat_clz32 _,
    givesV_of_vecRaw (execVbrev.eq_def g) fun _ _ _ => ofBits_reverse _,
    givesV_of_vecRaw (execVsel.eq_def g) fun _ _ _ => rfl,
    givesV_of_vecRaw (execVmov.eq_def g) fun _ _ _ => rfl,
    givesV_of_vecRaw (execVmovi.eq_def m) fun _ _ _ => rfl⟩
  · have ty : g.ty ∈ tyInt32 := ty_of_ok (f := sigV tyInt32 true) wf
    rw [ofNat_intPat ty, intOf_int32 ty, intOf_int32 ty]
  · have ty : g.ty ∈ tyInt32 := ty_of_ok (f := { sigV tyInt32 true with c := .src }) wf
    rw [ofNat_intPat ty, intOf_int32 ty, intOf_int32 ty, intOf_int32 ty]
  · have ty : g.ty ∈ tyInt32 :=
      List.mem_cons.2 (.inl (List.mem_singleton.1 (ty_of_ok (f := { sigV [.i32] true with b := .none }) wf)))
    rw [ofNat_intPat ty, intOf_i32]

/-- Settles O13: a field and a selector are read off bit by bit and byte by byte, and each mask bit off its comparison
or its carry. -/
theorem vectorFieldAndConditionResults : Obligations.VectorFieldAndConditionResults := by
  unfold Obligations.VectorFieldAndConditionResults
  refine ⟨fun g => ⟨
      ⟨bfi, givesV_of_vecRaw (execVbfi.eq_def g) fun _ _ _ => rfl, fun u v k _ hi => getLsbD_bfi u v k hi⟩,
      ⟨perm, givesV_of_vecRaw (execVperm.eq_def g) fun _ _ _ => rfl, fun u v k _ hj => byteOf_perm u v k hj⟩,
      givesL_of_laneWord (execVsadd.eq_def g) fun _ _ => rfl,
      givesT_of_vecTy (execVadd64.eq_def g) fun wf _ _ => ?_⟩,
    fun g => ⟨fun m p l _ => getLsbD_lanesWhere m p l, givesL_of_laneWord (execVcmp.eq_def g) fun wf x => ?_,
      givesL_of_laneWord (execVfcmp.eq_def g) fun _ _ => rfl,
      fun k hk => givesL_of_laneWord (execVaddc.eq_def g) fun _ x => ?_⟩⟩
  · have ty : g.ty ∈ [Ty.i64, .n64] := ty_of_ok
      (f := { fam := .vector, d := .v64, a := .src64, b := .src64, tys := [.i64, .n64], sat := true }) wf
    have wide : tyBits g.ty = 64 := by
      simp only [List.mem_cons, List.not_mem_nil, or_false] at ty
      rcases ty with h | h <;> rw [h] <;> rfl
    rw [intPat, wide]
    rfl
  · exact congrArg (fun p => mset x.wp g.d.toNat (maskWrite (mget x.wp x.sl g.d.toNat) x.exec p)) (funext fun _ =>
      condTy_eq (ty_of_ok (f := { sigV tyInt32 with d := .m, sub := 5 }) wf)
        (sub_of_ok (f := { sigV tyInt32 with d := .m, sub := 5 }) wf) ..)
  · simp only [hk, addCarry_sum, addCarry_carry, carrySum, decide_eq_true_eq]
    rfl

/-- What a list of three keeps under a condition on each, as VEXPR lists its sources (R203). -/
theorem filterMap_if_three {α β : Type} (q : α → Bool) (f : α → β) (x y z : α) :
    [x, y, z].filterMap (fun p => if q p then some (f p) else none) =
      (if q x then [f x] else []) ++ (if q y then [f y] else []) ++ (if q z then [f z] else []) := by
  simp only [List.filterMap_cons, List.filterMap_nil]
  cases q x <;> cases q y <;> cases q z <;> rfl

/-- Settles O14: the meaning of each form is the exact value of its operands, rounded once; VEXPR's sources are those
that its program pushes, and its result is a canonical NaN where the program leaves a NaN. -/
theorem vectorFloatResults : Obligations.VectorFloatResults := by
  unfold Obligations.VectorFloatResults
  refine ⟨fun g => ⟨givesT_of_vecTy (execVfadd.eq_def g) fun _ _ _ => rfl,
      givesT_of_vecTy (execVfsub.eq_def g) fun _ _ _ => rfl,
      givesT_of_vecTy (execVfmul.eq_def g) fun _ _ _ => rfl,
      givesT_of_vecTy (execVfma.eq_def g) fun _ _ _ => rfl,
      givesT_of_vecTy (execVfmin.eq_def g) fun _ _ _ => rfl,
      givesT_of_vecTy (execVfmax.eq_def g) fun _ _ _ => rfl,
      givesL_of_laneWord (execVfclass.eq_def g) fun _ _ => rfl,
      givesT_of_vecTy (execVfrnd.eq_def g) fun _ _ _ => rfl,
      givesT_of_vecTy (execVfdiv.eq_def g) fun _ _ _ => rfl,
      givesL_of_laneWord (execVh2add.eq_def g) fun _ _ => rfl,
      givesL_of_laneWord (execVh2mul.eq_def g) fun _ _ => rfl,
      givesL_of_laneWord (execVh2fma.eq_def g) fun _ _ => rfl,
      givesL_of_laneWord (execVdot2.eq_def g) fun _ _ => rfl,
      givesT_of_vecTy (execVdadd.eq_def g) fun _ _ _ => rfl,
      givesT_of_vecTy (execVdmul.eq_def g) fun _ _ _ => rfl,
      givesT_of_vecTy (execVdfma.eq_def g) fun _ _ _ => rfl⟩,
    fun g e => ⟨givesT_of_vecTy (execVsfu.eq_def g) fun _ _ _ => rfl,
      givesL_of_laneWord (execVcvt.eq_def g) fun _ _ => rfl, ?_⟩⟩
  rw [filterMap_if_three (fun p : Nat × Src => e.tokens.any (·.1 == p.1)) (fun p => (p.2, false))]
  exact givesL_of_laneWord (execVexpr.eq_def g e) fun _ x =>
    congrArg (writeLanes x.wp g.d.toNat x.exec) (funext fun _ => apply_ite (BitVec.ofNat 32) ..)

end Sys2Proof.Machine

/-! Cross-lane words: how one that stands at its word runs (R209, R210), and what each form gives (R212, R213). -/

namespace Sys2Proof.Machine

/-- What a cross-lane word that has run leaves in its MISS register, if it names one (R209). -/
def missMark (g : Gen) (w : Warp) (ps : W32) (miss : Bool) : Warp :=
  let j := missReg g
  if j = 0 then w else mset w j (maskWrite (tgetD w.m j 0) ps fun _ => miss)

theorem maskWrite_false (old m : W32) : (maskWrite old m fun _ => false) = old &&& ~~~ m := by
  rw [maskWrite, lanesWhere_false]
  exact BitVec.or_zero

/-- A cross-lane word goes by the table of R209, in its place in the clause. -/
theorem crossWord_runs {i : Instr} {g : Gen} {f : CrossForm} {s : State} {x : Here} (h : Runs i s x)
    (hf : memberReg g = 0 ∨ x.p.first = true) : crossWord i g f s = .next (crossGo s x i g f) := by
  unfold crossWord
  simp only [h.stands, h.legal]
  rcases hf with hf | hf <;> simp [hf]

/-- Elsewhere in its clause it traps UNDEF. -/
theorem crossWord_undef {i : Instr} {g : Gen} {f : CrossForm} {s : State} {x : Here} (h : Runs i s x)
    (hm : memberReg g ≠ 0) (hf : x.p.first = false) : crossWord i g f s = .next (faultAll s x .undef) := by
  unfold crossWord
  simp [h.stands, hm, hf]

/-- The lanes for which a cross-lane word executes: its path's, or those of both (R209, R210). -/
def crossLanes (x : Here) (joint : Bool) : W32 :=
  if joint then x.exec ||| execOf x.wp (otherSlot x.sl) (predOf x.ws) else x.exec

/-- A run that consumes no poison has its form's effect, for the lanes of one path or of both. -/
theorem crossRun_runs {i : Instr} {g : Gen} {f : CrossForm} {s : State} {x : Here} (h : Runs i s x) {joint : Bool}
    (miss : Bool) (hp : ∀ u ∈ f.uses x.wp (crossLanes x joint), lanePoison x.wp false u.1 u.2 = false) :
    crossRun s x i g f joint miss =
      let w := missMark g (f.effect x.wp (crossLanes x joint)) (crossLanes x joint) miss
      setWarp s x.core x.w (if joint then retireBoth w x.ws else retireW w x.sl x.ws) := by
  have clean : ((f.uses x.wp (crossLanes x joint)).filter fun u => lanePoison x.wp false u.1 u.2) = [] :=
    List.filter_eq_nil_iff.2 fun u hu => by simp [hp u hu]
  unfold crossLanes at clean
  unfold crossRun
  simp only [h.window, h.ready, clean, List.any_nil, lanesWhere_false, ne_eq, not_true_eq_false, if_false,
    Bool.false_eq_true]
  rfl

theorem crossMode_memberless {s : State} {x : Here} {g : Gen} (h : memberReg g = 0) :
    crossMode s x g = .alone false := by
  unfold crossMode
  simp only [h, if_true]

theorem crossGo_alone {i : Instr} {g : Gen} {f : CrossForm} {s : State} {x : Here} {miss : Bool} (h : Runs i s x)
    (hm : crossMode s x g = .alone miss) (hp : ∀ u ∈ f.uses x.wp x.exec, lanePoison x.wp false u.1 u.2 = false) :
    crossGo s x i g f = retire s x (missMark g (f.effect x.wp x.exec) x.exec miss) := by
  unfold crossGo
  rw [hm]
  exact crossRun_runs (joint := false) h miss hp

theorem crossGo_joint {i : Instr} {g : Gen} {f : CrossForm} {s : State} {x : Here} (h : Runs i s x)
    (hm : crossMode s x g = .joint)
    (hp : ∀ u ∈ f.uses x.wp (crossLanes x true), lanePoison x.wp false u.1 u.2 = false) :
    crossGo s x i g f = setWarp s x.core x.w
      (retireBoth (missMark g (f.effect x.wp (crossLanes x true)) (crossLanes x true) false) x.ws) := by
  simp only [crossGo, hm, crossRun_runs (joint := true) h false hp, if_true]

theorem crossGo_wait {i : Instr} {g : Gen} {f : CrossForm} {s : State} {x : Here} {lanes : W32}
    (hm : crossMode s x g = .wait lanes) : crossGo s x i g f =
      modWarp s x.core x.w fun w => modPath w x.sl fun p => { p with wait := .cross lanes } := by
  unfold crossGo
  rw [hm]

/-- Without a member register a cross-lane word issues alone, and its MISS register reads 0 for its lanes. -/
theorem crossWord_memberless {i : Instr} {g : Gen} {f : CrossForm} {s : State} {x : Here} (h : Runs i s x)
    (hm : memberReg g = 0) (hp : ∀ u ∈ f.uses x.wp x.exec, lanePoison x.wp false u.1 u.2 = false) :
    crossWord i g f s = .next (retire s x
      (let w := f.effect x.wp x.exec
       let j := missReg g
       if j = 0 then w else mset w j (tgetD w.m j 0 &&& ~~~ x.exec))) := by
  rw [crossWord_runs h (.inl hm), crossGo_alone h (crossMode_memberless hm) hp]
  simp only [missMark, maskWrite_false]

/-- The words that crossOf lists are cross-lane words of their own forms. -/
theorem exec_crossOf {i : Instr} {g : Gen} {f : CrossForm} (h : crossOf i = some (g, f)) (s : State) :
    exec i s = crossWord i g f s := by
  unfold crossOf at h
  split at h
  case h_8 => cases h
  all_goals cases h; rfl

/-! The five operations of VOTE (R212). -/

theorem voteForm_ballot {g : Gen} (h : g.c = .reg 0) (w : Warp) (ps : W32) :
    (voteForm g).effect w ps = sset w g.d.toNat (lanesWhere ps fun l => laneRaw w l g.a != 0) := by
  simp only [voteForm, h, if_true]

theorem voteForm_count {g : Gen} (h : g.c = .reg 1) (w : Warp) (ps : W32) : (voteForm g).effect w ps =
    sset w g.d.toNat (BitVec.ofNat 32 (popcount (lanesWhere ps fun l => laneRaw w l g.a != 0))) := by
  simp only [voteForm, h]
  rfl

theorem voteForm_any {g : Gen} (h : g.c = .reg 2) (w : Warp) (ps : W32) : (voteForm g).effect w ps =
    sset w g.d.toNat (if (lanesWhere ps fun l => laneRaw w l g.a != 0) = 0 then 0 else 1) := by
  simp only [voteForm, h]
  rfl

theorem voteForm_all {g : Gen} (h : g.c = .reg 3) (w : Warp) (ps : W32) : (voteForm g).effect w ps =
    sset w g.d.toNat (if (lanesWhere ps fun l => laneRaw w l g.a != 0) = ps then 1 else 0) := by
  simp only [voteForm, h]
  rfl

/-- Values all equal the first of them where any two are equal. -/
theorem all_eq_head_iff (f : Nat → W32) (l : List Nat) :
    ((l.map f).all fun v => v == (l.map f).headD 0) = true ↔ ∀ i ∈ l, ∀ j ∈ l, f i = f j := by
  cases l with
  | nil => simp
  | cons k l =>
    simp only [List.all_eq_true, beq_iff_eq, List.forall_mem_map]
    exact ⟨fun h i hi j hj => (h i hi).trans (h j hj).symm, fun h i hi => h i hi k List.mem_cons_self⟩

theorem voteForm_same {g : Gen} (h : g.c = .reg 4) (w : Warp) (ps : W32) : (voteForm g).effect w ps =
    sset w g.d.toNat
      (if ∀ l ∈ setBits ps, ∀ l' ∈ setBits ps, laneRaw w l g.a = laneRaw w l' g.a then 1 else 0) := by
  rw [← ite_congr (propext (all_eq_head_iff (laneRaw w · g.a) (setBits ps))) (fun _ => rfl) (fun _ => rfl)]
  simp only [voteForm, h]
  rfl

/-- A shuffle reads its source lane where that is present, else its own (R212). -/
theorem laneRaw_shflFrom (g : Gen) (w : Warp) (ps : W32) (l : Nat) : laneRaw w (shflFrom g w ps l) g.a =
    match shflSource (numOf g.c) ((laneRaw w l g.b).toNat % 32) l with
    | some q => if ps.getLsbD q then laneRaw w q g.a else laneRaw w l g.a
    | none => laneRaw w l g.a := by
  unfold shflFrom
  cases shflSource (numOf g.c) ((laneRaw w l g.b).toNat % 32) l with
  | some q => exact apply_ite (fun k => laneRaw w k g.a) (ps.getLsbD q = true) q l
  | none => rfl

/-- A lane's rank among the present lanes. -/
theorem popcount_lanesBelow (ps : W32) (l : Nat) :
    popcount (lanesWhere ps fun p => decide (p < l)) = (setBits ps).countP (· < l) := by
  rw [popcount, setBits_lanesWhere, List.countP_eq_length_filter]

theorem writeLanes_one (w : Warp) (d : Nat) (m : W32) (l : Nat) (f : Nat → W32) :
    writeLanes w d (lanesWhere m fun k => k == l) f = if m.getLsbD l then vset w d l (f l) else w := by
  rw [writeLanes, setBits_lanesWhere_eq]
  split <;> rfl

/-- Settles O15: without a member register a word issues alone and gives its form's effect, read off form by form; with
one, the table of R209 says for which lanes it does, or that it waits. -/
theorem crossLaneResults : Obligations.CrossLaneResults := by
  unfold Obligations.CrossLaneResults
  refine ⟨fun g s x => ?_, fun i g f s x hi h hm => ?_⟩
  · intro ps a b j fin alone on k tree
    have runs {i : Instr} {f : CrossForm} (hi : crossOf i = some (g, f)) (h : alone i f) :
        exec i s = fin (f.effect x.wp ps) := by
      obtain ⟨h, hm, hp⟩ := h
      exact (exec_crossOf hi s).trans (crossWord_memberless h hm hp)
    refine ⟨fun h hc => (runs rfl h).trans (congrArg fin (voteForm_ballot hc ..)),
      fun h hc => (runs rfl h).trans (congrArg fin (voteForm_count hc ..)),
      fun h hc => (runs rfl h).trans (congrArg fin (voteForm_any hc ..)),
      fun h hc => (runs rfl h).trans (congrArg fin (voteForm_all hc ..)),
      fun h hc => (runs rfl h).trans (congrArg fin (voteForm_same hc ..)),
      fun h => (runs rfl h).trans (congrArg fin ?_),
      fun h => runs (f := vredForm g) rfl h, fun h => runs (f := vscanForm g) rfl h,
      fun h => runs (f := matchForm g) rfl h, fun h => runs (f := v2sForm g) rfl h,
      fun h => (runs rfl h).trans (congrArg fin ?_), fun h => ?_⟩
    · exact congrArg (writeLanes x.wp g.d.toNat ps) (funext fun l => laneRaw_shflFrom g x.wp ps l)
    · refine congrArg (writeLanes x.wp g.d.toNat ps) (funext fun l => ?_)
      rw [popcount_lanesBelow]
      rfl
    · show execS2v g s = _
      exact (word_runs h rfl).trans (congrArg (Host.Outcome.next <| retire s x ·) (writeLanes_one ..))
  · rw [exec_crossOf hi]
    refine ⟨fun hf => crossWord_undef h hm hf, fun hf miss mode hp => ?_, fun hf mode hp => ?_,
      fun hf lanes mode => ?_⟩
    all_goals rw [crossWord_runs h (.inr hf)]
    · rw [crossGo_alone h mode hp]; rfl
    · rw [crossGo_joint h mode hp]; rfl
    · rw [crossGo_wait mode]

end Sys2Proof.Machine

/-! MWAIT: how the word issues, and what one test of a waiting one comes to. -/

namespace Sys2Proof.Machine

/-- The operation of an MWAIT, with all that it reads when it issues (R229, R230). -/
def mwaitOp (s : State) (x : Here) (m : Mem) (e : MwExt) : MemOp :=
  let md := modsOf x.co.memdef m.pfx
  { id := 0, warp := x.w, slot := x.sl, dest := mwaitDest m e, ty := memTy m, left := 1,
    cmp := if (memTy m).bytes = 8 then sget64 x.wp e.cmp.toNat else (sget x.wp e.cmp.toNat).zeroExtend 64,
    vas := [(0, objAddr x.wp m)], holds := md.layer == .lhold || md.layer == .lboth, acq := isAcq md.ord,
    lanes := x.exec, invalAll := isAcq md.ord && acqInvalidates (effScope s x md.scope) }

/-- The word waits: its operation is the core's newest, its registers are pending, and its deadline is set (R229). -/
def mwaitBegun (s : State) (x : Here) (m : Mem) (e : MwExt) : State :=
  waitAt (modWarp (newOp s x.core (mwaitOp s x m e)).1 x.core x.w fun w => addPend w (mwaitDest m e)) x
    (.mwait (s.clock + (sget x.wp e.tmo.toNat).toNat))

/-- An MWAIT that may go ahead and whose word is readable begins to wait, and is tested at once (R229, R230). -/
theorem exec_mwait {m : Mem} {e : MwExt} {s s' : State} {x : Here} {ls : List GLane}
    (h : MemRuns (.mwait m e) .mwait m s x) (hx : x.exec ≠ 0) (hg : mayGo s x (modsOf x.co.memdef m.pfx) = true)
    (hp : x.prov = false) (hs : isShadow x.block = false) (ha : objAddr x.wp m % (memTy m).bytes = 0)
    (hc : checkGlobal s x.core x.ctx x.exec true { r := true } [(0, objAddr x.wp m)] = (s', .ok ls)) :
    exec (.mwait m e) s = .next (mwaitTest (mwaitBegun s' x m e) x.core x.w x.sl) := by
  show execMwait m e s = _
  refine (memWord_runs h).trans (congrArg Host.Outcome.next ?_)
  simp only [hx, hg, hp, hs, ha, hc, withChk, if_false, ne_eq, not_true_eq_false, Bool.not_true, Bool.or_self,
    Bool.false_eq_true]
  rfl

/-- A wait that ends writes the value read and, per executing lane, whether the condition held; the older copy of the
line leaves the L1, all of them after a wide acquire, and the path goes on (R230). -/
def mwaitEnd (s : State) (x : Here) (m : Mem) (e : MwExt) (o : MemOp) (line v : Nat) (met : Bool) : State :=
  modWarp (modCore (modWarp (dropMwait s x.core x.w x.sl (mwaitDest m e)) x.core x.w fun y =>
    let y := putLane y (mwaitDest m e) (memTy m) 0 v fun _ => false
    mset y e.m.toNat (maskWrite (mget y x.sl e.m.toNat) o.lanes fun _ => met)) x.core fun co =>
    if o.invalAll then { co with l1 := [] } else l1DropLine co line) x.core x.w fun y => retireW y x.sl x.ws

/-- The path waits at its MWAIT, whose operation stands in the core, and its word is there for a test to read: nothing of
the warp goes before it (R90), and its line is at the home, unpoisoned, with no answer out for it (R230). -/
structure MwaitSees (s s' : State) (x : Here) (m : Mem) (e : MwExt) (o : MemOp) (ls : List GLane) (k deadline : Nat) :
    Prop where
  stands : hereAt s x.core x.w x.sl = some x
  waits : x.p.wait = .mwait deadline
  word : decode x.ws = .ok (.mwait m e, k)
  op : (x.co.ops.find? fun o => o.warp == x.w && o.slot == x.sl && isMwait o) = some o
  checked : checkGlobal s x.core x.ctx o.lanes true { r := true } [(0, laneVa o 0)] = (s', .ok ls)
  first : ((allReqs s' x.core x.w).any fun r => r.line == (groupHead ls).line && (isStore r || r.op < o.id)) = false
  backed : unbacked s' (groupHead ls).line = false
  unanswered : answerTo s' (groupHead ls).line (mwaitWho x.core o.id) = none
  home : usable s' (groupHead ls).line false (some (groupHead ls).home) = true
  sound : poisoned (peekLine s' (groupHead ls).line).2 (laneVa o 0 % 128) (memTy m).bytes = false

/-- The test ends the wait when the word meets the condition or the deadline has come, and else leaves it waiting
(R230). -/
theorem mwaitTest_sees {m : Mem} {e : MwExt} {s s' : State} {x : Here} {ls : List GLane} {k deadline : Nat} {o : MemOp}
    (h : MwaitSees s s' x m e o ls k deadline) :
    let line := (groupHead ls).line
    let t := dropAnswer s' line (mwaitWho x.core o.id)
    let v := lineField (peekLine s' line).1 (laneVa o 0 % 128) (memTy m).bytes
    let met := condTy (memTy m) e.cond.toNat v o.cmp.toNat
    mwaitTest s x.core x.w x.sl = if met = false ∧ s'.clock < deadline then t else mwaitEnd t x m e o line v met := by
  intro line t v met
  simp only [mwaitTest, h.stands, h.waits, h.word, h.op, Option.getD_some, h.checked, h.first, h.backed, h.unanswered,
    h.home, h.sound, Option.isNone_none, Bool.not_true, Bool.and_false, Bool.false_eq_true, if_false, Option.bind_none,
    Bool.and_eq_true, Bool.not_eq_true', decide_eq_true_eq]
  rfl

/-- Settles O20: the word begins to wait and is tested; the test's one result is read off for a word that does not meet
the condition in time, and for one that does or comes late. -/
theorem memoryWaitTestsAndEnds : Obligations.MemoryWaitTestsAndEnds := by
  unfold Obligations.MemoryWaitTestsAndEnds
  intro m e s s' x ls k deadline o ty n md va dest
  refine ⟨exec_mwait, fun hx hw hd ho hc hq hu hn hl hp => ?_⟩
  have test := mwaitTest_sees ⟨hx, hw, hd, ho, hc, hq, hu, hn, hl, hp⟩
  refine ⟨fun unmet early => test.trans (if_pos ⟨unmet, early⟩), fun ended => test.trans (if_neg fun waits => ?_)⟩
  obtain ⟨unmet, early⟩ := waits
  rcases ended with met | late
  · exact Bool.false_ne_true (unmet.symm.trans met)
  · exact Nat.not_lt.mpr late early

end Sys2Proof.Machine

/-! CINV, CWB and CPREF: what the words do over a range of this package's own lines. -/

namespace Sys2Proof.Machine

/-- CINV or CWB over a range that it may work on: it has passed its checks, its lines stand in no transient entry and in
no request of the warp, and none belongs to another package (R238, R239). -/
structure RangeCalm (s s' : State) (x : Here) (a lines : Nat) (ls : List GLane) : Prop where
  lanes : x.exec ≠ 0
  unheld : memHeld x true = false
  certain : x.prov = false
  aligned : a % 128 = 0
  nonempty : lines ≠ 0
  checked : checkGlobal s x.core x.ctx x.exec true {} (rangePages a (128 * lines)) = (s', .ok ls)
  unasked : ((allReqs s' x.core x.w).any fun r => (spanOf (rangeSpans a (128 * lines) ls) r.line).isSome) = false
  settled : (s'.slices.any fun p => p.2.entries.any fun e =>
    (spanOf (rangeSpans a (128 * lines) ls) e.line).isSome) = false
  mine : ∀ t ∈ rangeWays s' (rangeSpans a (128 * lines) ls), t.2.2.1.held = none

/-- The ways of a range that CINV may not drop: changed, on a page that is not discardable, bit 51 of its leaf (R239). -/
def rangeLost (s : State) (sp : List (Nat × Nat × Nat × W64)) : List (Nat × Nat × Way × Nat × W64) :=
  (rangeWays s sp).filter fun t => wayDirty t.2.2.1 && !t.2.2.2.2.getLsbD 51

/-- The request that goes with a message for another package's line; over lines of this package none is sent. -/
def rangeReq (s : State) (x : Here) : Req :=
  { core := x.core, warp := x.w, op := 0, line := 0, home := 0, act := .probe, part := (ctxOf s x.ctx).part }

/-- What CINV and CWB do to the ways of a range: clean them, then drop them, also from the L1 (R239). -/
def rangeDo (s : State) (x : Here) (sp : List (Nat × Nat × Nat × W64)) (inv clean : Bool) : State :=
  let r := rangeReq s x
  let s := if clean then (rangeWays s sp).foldl (cleanWay r) s else s
  let s := if inv then (rangeWays s sp).foldl (invalWay r) s else s
  if inv then modCore s x.core fun co => { co with l1 := co.l1.filter fun y => !(spanOf sp y.line).isSome } else s

theorem wayDirty_local {w : Way} (h : w.held = none) : wayDirty w = (w.dirty != 0) := by
  simp only [wayDirty, h]

theorem invalWay_local {w : Way} (r : Req) (s : State) (h k v : Nat) (leaf : W64) (hw : w.held = none) :
    invalWay r s (h, k, w, v, leaf) = dropWay s h k w := by
  simp only [invalWay, hw]

theorem cleanWay_local {w : Way} (r : Req) (s : State) (h k v : Nat) (leaf : W64) (hw : w.held = none) :
    cleanWay r s (h, k, w, v, leaf) = if w.dirty = 0 then s
      else setWay (dramStore s w.line w.data (w.dirty &&& w.valid) w.poison) h k { w with dirty := 0 } := by
  simp only [cleanWay, hw]

/-- Over lines of this package to invalidate is to drop each way. -/
theorem foldl_invalWay_local (r : Req) {ts : List (Nat × Nat × Way × Nat × W64)} (s : State)
    (h : ∀ t ∈ ts, t.2.2.1.held = none) :
    ts.foldl (invalWay r) s = ts.foldl (fun s t => dropWay s t.1 t.2.1 t.2.2.1) s := by
  induction ts generalizing s with
  | nil => rfl
  | cons t ts ih =>
    obtain ⟨mine, rest⟩ := List.forall_mem_cons.mp h
    rw [List.foldl_cons, List.foldl_cons, invalWay_local r s t.1 t.2.1 t.2.2.2.1 t.2.2.2.2 mine]
    exact ih _ rest

/-- With no lines the word just goes on (R238). -/
theorem rangeWord_zero {s : State} {x : Here} {a lines : Nat} (hh : memHeld x true = false)
    (hp : x.prov = false) (ha : a % 128 = 0) (hl : lines = 0) (inv clean : Bool) :
    rangeWord s x a lines inv clean = retireNow s x := by
  simp [rangeWord, hh, hp, ha, hl]

/-- A CINV that would lose changed data traps PROT in the state that its checks leave: nothing is dropped (R239). -/
theorem rangeWord_loses {s s' : State} {x : Here} {a lines : Nat} {ls : List GLane} (c : RangeCalm s s' x a lines ls)
    (hl : rangeLost s' (rangeSpans a (128 * lines) ls) ≠ []) :
    ∃ v, rangeWord s x a lines true false = faultAll s' x .prot v := by
  obtain ⟨t, ts, lost⟩ := List.exists_cons_of_ne_nil hl
  unfold rangeLost at lost
  simp only [rangeWord, c.lanes, c.unheld, c.certain, c.aligned, c.nonempty, c.checked, c.unasked, c.settled, lost,
    withChk, List.map_cons, if_false, if_true, ne_eq, not_true_eq_false, Bool.or_self, Bool.false_eq_true, Bool.not_false,
    Bool.and_self]
  exact ⟨_, rfl⟩

/-- A word that loses nothing does its work and goes on: no message goes to another package (R239). -/
theorem rangeWord_works {s s' : State} {x : Here} {a lines : Nat} {ls : List GLane} (c : RangeCalm s s' x a lines ls)
    {inv clean : Bool} (hl : (inv && !clean) = true → rangeLost s' (rangeSpans a (128 * lines) ls) = []) :
    rangeWord s x a lines inv clean = retireNow (rangeDo s' x (rangeSpans a (128 * lines) ls) inv clean) x := by
  have loses : (if inv && !clean then
      (rangeLost s' (rangeSpans a (128 * lines) ls)).map fun t => 128 * t.2.2.2.1 else []) = [] := by
    split
    · rw [hl ‹_›, List.map_nil]
    · rfl
  unfold rangeLost at loses
  simp only [rangeWord, c.lanes, c.unheld, c.certain, c.aligned, c.nonempty, c.checked, c.unasked, c.settled, loses,
    withChk, if_false, ne_eq, not_true_eq_false, Bool.or_self, Bool.false_eq_true]
  rw [List.filter_eq_nil_iff.mpr fun t ht => by rw [c.mine t ht]; exact Bool.false_ne_true]
  simp only [List.length_nil, if_true]
  rfl

theorem exec_cinv {m : Mem} {s : State} {x : Here} (h : MemRuns (.cinv m) .bare m s x) :
    exec (.cinv m) s = .next (rangeWord s x (objAddr x.wp m) (sget x.wp m.data.toNat).toNat true false) := by
  show execCinv m s = _
  exact memWord_runs h

theorem exec_cwb {m : Mem} {s : State} {x : Here} (h : MemRuns (.cwb m) .bare m s x) :
    exec (.cwb m) s = .next (rangeWord s x (objAddr x.wp m) (sget x.wp m.data.toNat).toNat (m.ty == 1) true) := by
  show execCwb m s = _
  exact memWord_runs h

/-- CPREF without lines, or off a line, just goes on (R240). -/
theorem exec_cpref_idle {m : Mem} {s : State} {x : Here} (h : MemRuns (.cpref m) .pref m s x)
    (hh : memHeld x true = false) (hi : objAddr x.wp m % 128 ≠ 0 ∨ (sget x.wp m.data.toNat).toNat = 0) :
    exec (.cpref m) s = .next (retireNow s x) := by
  show execCpref m s = _
  refine (memWord_runs h).trans (congrArg Host.Outcome.next ?_)
  rcases hi with off | none
  · simp [hh, off]
  · simp [hh, none, foldN]

/-- The request with which CPREF asks for a line: a read for no operation of the warp (R240). -/
def cprefReq (s : State) (x : Here) (m : Mem) (g : GLane) : Req :=
  let md := modsOf x.co.memdef m.pfx
  let r := reqFor s x { md with ord := .none, scope := .pkg, space := .global } 0 .read [] g
  { r with fill := r.pol < 2 && !x.prov, pol := if r.pol = 2 then 0 else r.pol, race := none }

/-- CPREF of one line that is readable sends its request and goes on (R240). -/
theorem exec_cpref_one {m : Mem} {s s' : State} {x : Here} {g : GLane} {ls : List GLane}
    (h : MemRuns (.cpref m) .pref m s x) (hx : x.exec ≠ 0) (hh : memHeld x true = false)
    (ha : objAddr x.wp m % 128 = 0) (hl : (sget x.wp m.data.toNat).toNat = 1)
    (hc : checkGlobal s x.core x.ctx x.exec true { r := true } [(0, objAddr x.wp m)] = (s', .ok (g :: ls))) :
    exec (.cpref m) s = .next (retireNow (toPort s' (cprefReq s' x m g)) x) := by
  show execCpref m s = _
  refine (memWord_runs h).trans (congrArg Host.Outcome.next ?_)
  simp only [hx, hh, ha, hl, hc, foldN, Nat.mul_zero, Nat.add_zero, if_false, ne_eq, not_true_eq_false,
    Bool.false_eq_true, Nat.reduceLeDiff, Nat.min_eq_right, List.range_one, List.foldl_cons, List.foldl_nil]
  rfl

/-- Settles O23: CINV and CWB are read off what they do to a calm range, where each way is this package's own; CPREF's
request is the last of its port. -/
theorem rangeMaintenance : Obligations.RangeMaintenance := by
  unfold Obligations.RangeMaintenance
  intro m s s' x ls a lines sp inside ways ready calm
  have calmly {i : Instr} (h : ready i) (c : calm) : RangeCalm s s' x a lines ls := by
    obtain ⟨-, hx, hh, hp, ha⟩ := h
    obtain ⟨hl, hc, hq, hb, hm⟩ := c
    exact ⟨hx, hh, hp, ha, hl, hc, hq, hb, hm⟩
  refine ⟨fun h hl => ?_, fun h hl => ?_, fun h c clean => ?_, fun h c lossy => ?_,
    fun h hty c => ⟨rangeReq s' x, ?_⟩, fun r t h k w v leaf hw => ⟨fun hd => ?_, fun hd => ?_⟩,
    fun h _ hh hi => exec_cpref_idle h hh hi, fun h hx hh ha hl hc hls => ?_⟩
  · obtain ⟨h, -, hh, hp, ha⟩ := h
    exact (exec_cinv h).trans (congrArg Host.Outcome.next (rangeWord_zero hh hp ha hl ..))
  · obtain ⟨h, -, hh, hp, ha⟩ := h
    exact (exec_cwb h).trans (congrArg Host.Outcome.next (rangeWord_zero hh hp ha hl ..))
  · have range := calmly h c
    have safe : rangeLost s' sp = [] := List.filter_eq_nil_iff.mpr fun t ht => by
      simp [wayDirty_local (range.mine t ht), clean t ht]
    rw [exec_cinv h.1, rangeWord_works range fun _ => safe, ← foldl_invalWay_local (rangeReq s' x) s' range.mine]
    rfl
  · have range := calmly h c
    obtain ⟨t, ht, changed, kept⟩ := lossy
    have lost : t ∈ rangeLost s' sp := List.mem_filter.mpr ⟨ht, by
      rw [wayDirty_local (range.mine t ht), kept, Bool.not_false, Bool.and_true]
      exact bne_iff_ne.mpr changed⟩
    obtain ⟨v, trap⟩ := rangeWord_loses range (List.ne_nil_of_mem lost)
    exact ⟨v, (exec_cinv h.1).trans (congrArg Host.Outcome.next trap)⟩
  · have keeps : (m.ty == 1) = false := by rw [hty]; rfl
    rw [exec_cwb h.1, keeps, rangeWord_works (inv := false) (clean := true) (calmly h c) nofun]
    rfl
  · rw [cleanWay_local r t h k v leaf hw, if_pos hd]
  · rw [cleanWay_local r t h k v leaf hw, if_neg hd]
  · obtain ⟨g, rest, rfl⟩ := List.exists_cons_of_ne_nil hls
    exact ⟨_, exec_cpref_one h hx hh ha hl hc, _, mem_ports_toPort s' (cprefReq s' x m g), rfl, rfl⟩

end Sys2Proof.Machine

/-! Crews: what is read of them after each update, and what a path that retires waits for. -/

namespace Sys2Proof.Machine

/-! A path that retires waits for nothing (R35, R139, R140). -/

/-- The slot's path waits for nothing. -/
def Idle (w : Warp) (sl : Slot) : Prop := (pathOf w sl).wait = .none

theorem idle_setPath {w : Warp} {sl sl' : Slot} {p : Path} (h : Idle w sl) (hp : p.wait = .none) :
    Idle (setPath w sl' p) sl := by
  cases sl <;> cases sl'
  · exact hp
  · exact h
  · exact h
  · exact hp

theorem idle_same {w v : Warp} (hv : v.a = w.a ∧ v.b = w.b) {sl : Slot} (h : Idle w sl) : Idle v sl := by
  obtain ⟨ha, hb⟩ := hv
  cases sl
  · exact (congrArg Path.wait ha).trans h
  · exact (congrArg Path.wait hb).trans h

theorem idle_setPath_self (w : Warp) (sl : Slot) {p : Path} (hp : p.wait = .none) : Idle (setPath w sl p) sl := by
  simpa [Idle] using hp

/-- What is done to a warp gives no path a wait, and the arrivals that follow are of paths that wait for nothing. -/
def KeepsIdle (w : Warp) (r : Warp × List Todo) : Prop :=
  (∀ sl, Idle w sl → Idle r.1 sl) ∧ ∀ sl, Todo.arrive sl ∈ r.2 → Idle r.1 sl

/-- It leaves the paths of the warp, and gives one slot a path that waits for nothing. -/
theorem keepsIdle_setPath {w v : Warp} (hv : v.a = w.a ∧ v.b = w.b) {sl : Slot} {p : Path} (hp : p.wait = .none)
    {td : List Todo} (htd : td = [] ∨ td = [.arrive sl]) : KeepsIdle w (setPath v sl p, td) := by
  refine ⟨fun sl' h => idle_setPath (idle_same hv h) hp, fun sl' h => ?_⟩
  rcases htd with rfl | rfl
  · simp at h
  · obtain rfl : sl' = sl := by simpa using h
    exact idle_setPath_self _ _ hp

theorem keepsIdle_same {w v : Warp} (hv : v.a = w.a ∧ v.b = w.b) {td : List Todo}
    (htd : ∀ sl, Todo.arrive sl ∈ td → Idle w sl) : KeepsIdle w (v, td) :=
  ⟨fun _ => idle_same hv, fun sl h => idle_same hv (htd sl h)⟩

theorem keepsIdle_arriveOnce {w : Warp} {sl : Slot} (h : Idle w sl) : KeepsIdle w (arriveOnce w sl) := by
  have nothing (sl' : Slot) (h' : Todo.arrive sl' ∈ []) : Idle w sl' := by simp at h'
  unfold arriveOnce
  simp only
  split
  · exact keepsIdle_same ⟨rfl, rfl⟩ nothing
  · split
    · split
      · refine ⟨fun sl' _ => ?_, fun sl' h' => ?_⟩
        · cases sl'
          · exact h
          · rfl
        · obtain rfl : sl' = .a := by simpa using h'
          exact h
      · exact keepsIdle_setPath (by exact ⟨rfl, rfl⟩) (by exact h) (.inl rfl)
    · split
      · split
        · refine keepsIdle_same ⟨rfl, rfl⟩ fun sl' h' => ?_
          obtain rfl : sl' = sl := by simpa using h'
          exact h
        · split
          · exact keepsIdle_setPath (by exact ⟨rfl, rfl⟩) (by exact h) (.inr rfl)
          · split
            · exact keepsIdle_setPath (by exact ⟨rfl, rfl⟩) (by exact h) (.inr rfl)
            · split
              · exact keepsIdle_setPath (by exact ⟨rfl, rfl⟩) (by exact h) (.inr rfl)
              · split <;> exact keepsIdle_setPath (by exact ⟨rfl, rfl⟩) (by exact h) (.inl rfl)
      · split <;> exact keepsIdle_setPath (by exact ⟨rfl, rfl⟩) (by exact h) (.inl rfl)

theorem keepsIdle_refillOnce (w : Warp) (sl : Slot) : KeepsIdle w (refillOnce w sl) := by
  unfold refillOnce
  split
  · exact keepsIdle_same ⟨rfl, rfl⟩ (by simp)
  · split
    · exact keepsIdle_same ⟨rfl, rfl⟩ (by simp)
    · rename_i e rest _
      simp only
      split
      · exact keepsIdle_same ⟨rfl, rfl⟩ (by simp)
      · split
        · exact keepsIdle_same ⟨rfl, rfl⟩ (by simp)
        · split
          · exact keepsIdle_setPath (v := { w with stack := rest }) (sl := .a) (by exact ⟨rfl, rfl⟩) (by rfl) (.inr rfl)
          · exact keepsIdle_setPath (by exact ⟨rfl, rfl⟩) (by rfl) (.inr rfl)

theorem KeepsIdle.append {w : Warp} {r : Warp × List Todo} (hr : KeepsIdle w r) {td : List Todo}
    (htd : ∀ sl, Todo.arrive sl ∈ td → Idle w sl) : ∀ sl, Todo.arrive sl ∈ r.2 ++ td → Idle r.1 sl :=
  fun sl h => (List.mem_append.1 h).elim (hr.2 sl) fun h => hr.1 sl (htd sl h)

/-- Arrivals of paths that wait for nothing, and refills, give no path a wait. -/
theorem idle_settle (n : Nat) {td : List Todo} {w : Warp} (htd : ∀ sl, Todo.arrive sl ∈ td → Idle w sl) {sl : Slot}
    (h : Idle w sl) : Idle (settle n td w) sl := by
  induction n generalizing td w with
  | zero => exact h
  | succ n ih =>
    match td with
    | [] => exact h
    | .arrive sl' :: t =>
      have hr := keepsIdle_arriveOnce (htd sl' List.mem_cons_self)
      exact ih (hr.append fun sl hs => htd sl (List.mem_cons_of_mem _ hs)) (hr.1 _ h)
    | .refill sl' :: t =>
      have hr := keepsIdle_refillOnce w sl'
      exact ih (hr.append fun sl hs => htd sl (List.mem_cons_of_mem _ hs)) (hr.1 _ h)

theorem idle_arrive {w : Warp} {sl : Slot} (h : Idle w sl) : Idle (arrive w sl) sl := by
  refine idle_settle settleFuel (fun sl' hs => ?_) h
  obtain rfl : sl' = sl := by simpa using hs
  exact h

theorem retireW_wait (w : Warp) (sl : Slot) (ws : List W64) : (pathOf (retireW w sl ws) sl).wait = .none :=
  idle_arrive (idle_setPath_self _ _ rfl)

@[simp] theorem retireW_crews (w : Warp) (sl : Slot) (ws : List W64) : (retireW w sl ws).crews = w.crews := by
  obtain ⟨_, _, _, _, _, _, _, h⟩ := retireW_keeps w sl ws
  rw [h]

@[simp] theorem sget_retireW (w : Warp) (sl : Slot) (ws : List W64) (n : Nat) :
    sget (retireW w sl ws) n = sget w n := by
  obtain ⟨_, _, _, _, _, _, _, h⟩ := retireW_keeps w sl ws
  rw [h]
  rfl

/-! A warp's crews and next phases (R250). -/

theorem crewNext_crews {w y : Warp} (h : y.crews = w.crews) (k : Nat) : crewNext y k = crewNext w k := by
  simp only [crewNext, h]

theorem isMember_crews {w y : Warp} (h : y.crews = w.crews) (k : Nat) : isMember y k = isMember w k := by
  simp only [isMember, crewNext_crews h]

/-- Replacing the entries of a key finds the new one where there was one. -/
theorem find?_replaceKey {β : Type} (l : List (Nat × β)) (h : Nat) (v : β) (hm : (l.any fun c => c.1 == h) = true) :
    (l.map fun c => if c.1 == h then (h, v) else c).find? (fun c => c.1 == h) = some (h, v) := by
  induction l with
  | nil => simp at hm
  | cons c t ih =>
    rw [List.any_cons] at hm
    rw [List.map_cons]
    cases hc : c.1 == h with
    | true => rw [if_pos rfl, List.find?_cons_of_pos (by simp)]
    | false => rw [if_neg Bool.false_ne_true, List.find?_cons_of_neg (by simp [hc]), ih (by simpa [hc] using hm)]

/-- A new entry behind entries of other keys is found. -/
theorem find?_appendKey {β : Type} (l : List (Nat × β)) (h : Nat) (v : β) (hm : ¬ (l.any fun c => c.1 == h) = true) :
    (l ++ [(h, v)]).find? (fun c => c.1 == h) = some (h, v) := by
  have absent : l.find? (fun c => c.1 == h) = none := by
    rw [List.find?_eq_none]
    exact fun c hc e => hm (List.any_eq_true.2 ⟨c, hc, e⟩)
  rw [List.find?_append, absent, Option.none_or, List.find?_cons_of_pos (by exact beq_self_eq_true h)]

theorem crewNext_setNext (w : Warp) (h next : Nat) (joined : Bool) :
    crewNext (setNext w h next joined) h = some (next, joined) := by
  unfold setNext crewNext
  split
  · exact congrArg (Option.map _) (find?_replaceKey w.crews h (next, joined) ‹_›)
  · exact congrArg (Option.map _) (find?_appendKey w.crews h (next, joined) ‹_›)

theorem isMember_setNext (w : Warp) (h next : Nat) (joined : Bool) : isMember (setNext w h next joined) h = true := by
  simp [isMember, crewNext_setNext]

theorem isMember_dropNext (w : Warp) (h : Nat) : isMember (dropNext w h) h = false := by
  have none : (w.crews.filter fun c => c.1 != h).find? (fun c => c.1 == h) = none := by
    simp [List.find?_eq_none]
  simp [isMember, crewNext, dropNext, none]

/-! Reading crews, units and warps. -/

theorem crewOf_bunits {s t : State} (h : t.bunits = s.bunits) (k : Nat) : crewOf t k = crewOf s k := by
  simp only [crewOf, unitOf, h]

@[simp] theorem crewOf_modWarp (s c w f k) : crewOf (modWarp s c w f) k = crewOf s k := rfl

@[simp] theorem crewOf_modCore (s c f k) : crewOf (modCore s c f) k = crewOf s k := rfl

@[simp] theorem crewOf_modBlock (s c b f k) : crewOf (modBlock s c b f) k = crewOf s k := rfl

@[simp] theorem coreOf_modCrew (s h f c) : coreOf (modCrew s h f) c = coreOf s c := rfl

/-- A change of a crew's record is read back. -/
@[simp] theorem crewOf_modCrew (s : State) (h : Nat) (f : Crew → Crew) :
    crewOf (modCrew s h f) h = (crewOf s h).map f := by
  simp only [crewOf, modCrew, unitOf_modUnit, tget_tmod]

@[simp] theorem warp_modWarp (s : State) (c w : Nat) (f : Warp → Warp) :
    tget (coreOf (modWarp s c w f) c).warps w = (tget (coreOf s c).warps w).map f := by
  simp [modWarp]

/-- A change of a warp leaves the warps that stand. -/
theorem standing_modWarp (s : State) (c w : Nat) (f : Warp → Warp) (d v : Nat) :
    (tget (coreOf (modWarp s c w f) d).warps v).isSome = (tget (coreOf s d).warps v).isSome := by
  by_cases hc : d = c
  · subst hc
    by_cases hv : v = w
    · subst hv; simp
    · simp [modWarp, tget_tmod_ne _ _ hv]
  · simp [modWarp, coreOf_modCore_ne _ _ hc]

/-- What a handle names: a record of that number, of the context (R246). -/
theorem crewAt_some {s : State} {ctx h : Nat} {hv : W32} {c : Crew} (ha : crewAt s ctx hv = some (h, c)) :
    hv.toNat = h ∧ crewOf s h = some c := by
  unfold crewAt at ha
  split at ha
  · cases ha
  · split at ha
    · split at ha
      · cases ha; exact ⟨rfl, ‹_›⟩
      · cases ha
    · cases ha

end Sys2Proof.Machine

/-! Crew words: what each does to its crew's record where the phase state is kept (R250, R254-R260). -/

namespace Sys2Proof.Machine

/-! Phases (R250). -/

/-- Crew records are as they were, and the same warps stand. -/
def Resumes (s t : State) : Prop :=
  t.bunits = s.bunits ∧ ∀ c w, (tget (coreOf t c).warps w).isSome = (tget (coreOf s c).warps w).isSome

theorem Resumes.trans {s t u : State} (h : Resumes s t) (h' : Resumes t u) : Resumes s u :=
  ⟨h'.1.trans h.1, fun c w => (h'.2 c w).trans (h.2 c w)⟩

theorem resumes_modWarp (s : State) (c w : Nat) (f : Warp → Warp) : Resumes s (modWarp s c w f) :=
  ⟨rfl, standing_modWarp s c w f⟩

theorem coreOf_pubDone_warps (s : State) (c : Nat) (wide : Bool) (d : Nat) :
    (coreOf (pubDone s c wide) d).warps = (coreOf s d).warps := by
  unfold pubDone
  split
  · by_cases hd : d = c
    · subst hd; simp
    · simp [coreOf_modCore_ne _ _ hd]
  · rfl

@[simp] theorem pubDone_bunits (s : State) (c : Nat) (wide : Bool) : (pubDone s c wide).bunits = s.bunits := by
  unfold pubDone; split <;> rfl

theorem resumes_pubDone (s : State) (c : Nat) (wide : Bool) : Resumes s (pubDone s c wide) :=
  ⟨pubDone_bunits s c wide, fun d w => by rw [coreOf_pubDone_warps]⟩

theorem resumes_resumeCrew (s : State) (c w : Nat) (sl : Slot) : Resumes s (resumeCrew s c w sl) := by
  unfold resumeCrew
  split
  · exact ⟨rfl, fun _ _ => rfl⟩
  · split
    · exact (resumes_modWarp ..).trans (resumes_pubDone ..)
    · exact ⟨rfl, fun _ _ => rfl⟩

theorem resumes_releasePhase (s : State) (h phase : Nat) : Resumes s (releasePhase s h phase false) :=
  List.foldlRecOn _ _ ⟨rfl, fun _ _ => rfl⟩ fun _ ht _ _ => ht.trans (resumes_resumeCrew ..)

/-- Two phases in a row differ in their number (R250). -/
theorem phase_ne_next {p : Nat} : p < 2 ^ 32 → p ≠ (p + 1) % 2 ^ 32 := by omega

/-- The record after the phase that an arrival completes. -/
def nextPhase (c : Crew) : Crew :=
  { c with phase := (c.phase + 1) % 2 ^ 32, arrived := 0, members := c.members + c.joins, joins := 0, pub := false }

theorem crewCheck_open {s : State} {h : Nat} {c : Crew} (hc : crewOf s h = some c) (ha : c.arrived ≠ c.members) :
    crewCheck s h = s := by
  simp [crewCheck, hc, ha]

/-- A local phase that is complete ends: its waiters resume, and no record goes (R250). -/
theorem crewCheck_over {s : State} {h : Nat} {c : Crew} (hc : crewOf s h = some c) (ha : c.arrived = c.members)
    (hr : c.remote = false) (hm : c.members + c.joins ≠ 0) :
    crewOf (crewCheck s h) h = some (nextPhase c) ∧
      ∀ k w, (tget (coreOf (crewCheck s h) k).warps w).isSome = (tget (coreOf s k).warps w).isSome := by
  have read : crewOf (modCrew s h nextPhase) h = some (nextPhase c) := by simp [hc]
  simp only [crewCheck, hc, ha, hr, hm, if_true, if_false]
  obtain ⟨records, stand⟩ := resumes_releasePhase
    (if c.pub then
        { modCrew s h nextPhase with contexts := tmod s.contexts c.ctx fun k => { k with epoch := k.epoch + 1 } }
      else modCrew s h nextPhase) h c.phase
  refine ⟨(crewOf_bunits records h).trans (Eq.trans ?_ read), fun k w => (stand k w).trans ?_⟩ <;> split <;> rfl

/-- The record after an arrival. -/
def oneMore (pub : Bool) (c : Crew) : Crew := { c with arrived := c.arrived + 1, pub := c.pub || pub }

/-- What a leaving warp with its next phase does to the record as it then stands (R250). -/
def withoutOne (c : Crew) (next : Nat) (joined : Bool) (d : Crew) : Crew :=
  if next == (c.phase + 1) % 2 ^ 32 && joined then { d with joins := d.joins - 1 }
  else if next == (c.phase + 1) % 2 ^ 32 then { d with arrived := d.arrived - 1, members := d.members - 1 }
  else { d with members := d.members - 1 }

/-- A warp that has not arrived in the open phase is one of the members it waits for. -/
theorem withoutOne_early {c : Crew} (hp : c.phase < 2 ^ 32) (joined : Bool) (d : Crew) :
    withoutOne c c.phase joined d = { d with members := d.members - 1 } := by
  have early : (c.phase == (c.phase + 1) % 2 ^ 32) = false := beq_eq_false_iff_ne.2 (phase_ne_next hp)
  rw [withoutOne, early, if_neg (by simp), if_neg (by simp)]

/-- The state in which an arrival is counted, its phase not yet looked at. -/
def countedIn (s : State) (h core w : Nat) (c : Crew) (pub : Bool) : State :=
  modWarp (modCrew s h (oneMore pub)) core w fun x => setNext x h ((c.phase + 1) % 2 ^ 32) false

section Arrive
variable {s : State} {h core w : Nat} {c : Crew} {y : Warp} (hc : crewOf s h = some c)
include hc

theorem crewArrive_eq (pub : Bool) : crewArrive s h core w pub = crewCheck (countedIn s h core w c pub) h := by
  simp only [crewArrive, hc]
  rfl

theorem crewOf_countedIn (pub : Bool) : crewOf (countedIn s h core w c pub) h = some (oneMore pub c) := by
  simp [countedIn, hc]

/-- An arrival that is not the last counts itself (R250). -/
theorem crewArrive_open (hy : tget (coreOf s core).warps w = some y) (pub : Bool) (ha : c.arrived + 1 ≠ c.members) :
    crewOf (crewArrive s h core w pub) h = some (oneMore pub c) ∧
      ∃ z, tget (coreOf (crewArrive s h core w pub) core).warps w = some z := by
  have record := crewOf_countedIn (core := core) (w := w) hc pub
  rw [crewArrive_eq hc, crewCheck_open record ha]
  exact ⟨record, _, by rw [countedIn, warp_modWarp, coreOf_modCrew, hy]; rfl⟩

/-- The last arrival of a local phase ends it (R250). -/
theorem crewArrive_last (hy : tget (coreOf s core).warps w = some y) (pub : Bool) (ha : c.arrived + 1 = c.members)
    (hr : c.remote = false) :
    crewOf (crewArrive s h core w pub) h = some (nextPhase c) ∧
      ∃ z, tget (coreOf (crewArrive s h core w pub) core).warps w = some z := by
  have record := crewOf_countedIn (core := core) (w := w) hc pub
  obtain ⟨ends, stand⟩ := crewCheck_over record ha hr (show c.members + c.joins ≠ 0 by omega)
  rw [crewArrive_eq hc]
  refine ⟨ends, Option.isSome_iff_exists.1 ?_⟩
  rw [stand, countedIn, standing_modWarp, coreOf_modCrew, hy]
  rfl

/-- A join counts the warp at once, or for the next phase where others have arrived (R250). -/
theorem crewJoin_spec (hy : tget (coreOf s core).warps w = some y) :
    crewOf (crewJoin s h core w) h =
        some (if c.arrived = 0 then { c with members := c.members + 1 } else { c with joins := c.joins + 1 }) ∧
      ∃ z, tget (coreOf (crewJoin s h core w) core).warps w = some z ∧ isMember z h = true := by
  simp only [crewJoin, hc]
  split <;>
  exact ⟨by simp [hc], _, by rw [warp_modWarp, coreOf_modCrew, hy]; rfl, isMember_setNext ..⟩

theorem crewLeave_member (hy : tget (coreOf s core).warps w = some y) {next : Nat} {j : Bool}
    (hn : crewNext y h = some (next, j)) (hb : c.broken = false) : crewLeave s h core w =
      crewCheck (modWarp (modCrew s h (withoutOne c next j)) core w fun x => dropNext x h) h := by
  simp only [crewLeave, hc, hy, hn]
  exact if_neg (Bool.eq_false_iff.1 hb)

/-- A member that has not arrived leaves a phase that it does not complete (R250). -/
theorem crewLeave_spec (hy : tget (coreOf s core).warps w = some y) {j : Bool} (hn : crewNext y h = some (c.phase, j))
    (hp : c.phase < 2 ^ 32) (hb : c.broken = false) (ha : c.arrived ≠ c.members - 1) :
    crewOf (crewLeave s h core w) h = some { c with members := c.members - 1 } ∧
      ∃ z, tget (coreOf (crewLeave s h core w) core).warps w = some z ∧ isMember z h = false := by
  have record : crewOf (modWarp (modCrew s h (withoutOne c c.phase j)) core w fun x => dropNext x h) h =
      some { c with members := c.members - 1 } := by
    rw [crewOf_modWarp, crewOf_modCrew, hc, Option.map_some, withoutOne_early hp]
  rw [crewLeave_member hc hy hn hb, crewCheck_open record ha]
  exact ⟨record, _, by rw [warp_modWarp, coreOf_modCrew, hy]; rfl, isMember_dropNext ..⟩

end Arrive

/-! The frame of the crew words (R249, R253, R259). -/

/-- The state in which a word goes on at its crew: an arrival with .pub has made its release (R259). -/
def released (s : State) (x : Here) (f : CrewForm) : State :=
  if f.rel then advanceEpoch s x.ctx (effScope s x .crew) else s

@[simp] theorem advanceEpoch_bunits (s : State) (ctx : Nat) (sc : Scope) :
    (advanceEpoch s ctx sc).bunits = s.bunits := by
  unfold advanceEpoch; split <;> rfl

@[simp] theorem advanceEpoch_cores (s : State) (ctx : Nat) (sc : Scope) : (advanceEpoch s ctx sc).cores = s.cores := by
  unfold advanceEpoch; split <;> rfl

@[simp] theorem released_bunits (s : State) (x : Here) (f : CrewForm) : (released s x f).bunits = s.bunits := by
  unfold released; split <;> simp

@[simp] theorem released_cores (s : State) (x : Here) (f : CrewForm) : (released s x f).cores = s.cores := by
  unfold released; split <;> simp

@[simp] theorem crewOf_released (s : State) (x : Here) (f : CrewForm) (h : Nat) :
    crewOf (released s x f) h = crewOf s h := crewOf_bunits (released_bunits s x f) h

@[simp] theorem coreOf_released (s : State) (x : Here) (f : CrewForm) (c : Nat) :
    coreOf (released s x f) c = coreOf s c := by
  simp only [coreOf, released_cores]

/-- The release changes nothing that the scope depends on (R95). -/
theorem wide_released (s : State) (x : Here) (f : CrewForm) : f.wide (released s x f) x = f.wide s x := by
  unfold released advanceEpoch
  split
  · split
    · rfl
    · rfl
  · rfl

/-- A crew word that runs, last in its clause where it must be, goes to its crew (R253). -/
theorem exec_crewForm {i : Instr} {s : State} {x : Here} {f : CrewForm} (h : Runs i s x)
    (hf : crewForm x.wp i = some f) (hl : (∀ w, i ≠ .crarrive w) → x.last = true) :
    exec i s = .next (crewGo s x f) := by
  have frame (ends : Bool) (he : ends = true → x.last = true) : crewWord i ends s = .next (crewGo s x f) := by
    refine (word_runs h ?_).trans (by rw [hf])
    cases ends
    · rfl
    · simp [he rfl]
  have six := hf
  unfold crewForm at six
  split at six
  · exact frame true fun _ => hl nofun
  · exact frame true fun _ => hl nofun
  · exact frame true fun _ => hl nofun
  · exact frame false nofun
  · exact frame true fun _ => hl nofun
  · exact frame true fun _ => hl nofun
  · cases six

section Go
variable {s : State} {x : Here} {f : CrewForm} (hs : isShadow x.block = false)
include hs

theorem crewGo_none (ha : crewAt s x.ctx (sget x.wp f.h.toNat) = none) :
    crewGo s x f = crewTrap s x (sget x.wp f.h.toNat) 1 := by
  simp [crewGo, foreignCrew, hs, ha]

/-- A word whose release is done, if it has one, and that finds no trap on a local barrier before it, acts (R254,
R259). -/
theorem crewGo_acts {h : Nat} {c : Crew} (ha : crewAt s x.ctx (sget x.wp f.h.toNat) = some (h, c))
    (hp : f.rel = true → pubReady s x (effScope s x .crew) = true)
    (hk : f.rel = true → c.remote = false → ∀ r, f.act s x h c ≠ .trap r) :
    crewGo s x f = crewAct (released s x f) x f h c := by
  simp only [crewGo, foreignCrew, hs, ha, Bool.false_and, Bool.false_eq_true, if_false, released]
  cases hr : f.rel with
  | false => rfl
  | true =>
    simp only [Bool.not_true, Bool.false_eq_true, if_false, if_true]
    split
    · exact absurd ‹f.act s x h c = _› (hk hr ‹_› _)
    · rw [if_pos (hp hr)]

end Go

theorem crewAct_local {s : State} {x : Here} {f : CrewForm} {h : Nat} {c : Crew} (hr : c.remote = false)
    (hj : f.join = true → c.core = x.core) : crewAct s x f h c = crewLocal s x f h (f.act s x h c) := by
  have stays : ¬ (f.join && c.core != x.core) = true := by
    cases hf : f.join
    · exact Bool.false_ne_true
    · simp [hj hf]
  unfold crewAct
  refine (if_neg (Bool.eq_false_iff.1 hr)).trans ?_
  split
  · exact (if_neg stays).trans (congrArg (crewLocal s x f h) ‹f.act s x h c = _›.symm)
  · rfl

/-- A crew word stands at a crew whose phase state its own core keeps (R249). -/
structure LocalWord (i : Instr) (f : CrewForm) (s : State) (x : Here) (h : Nat) (c : Crew) : Prop where
  form : crewForm x.wp i = some f
  runs : Runs i s x
  last : (∀ w, i ≠ .crarrive w) → x.last = true
  plain : isShadow x.block = false
  names : crewAt s x.ctx (sget x.wp f.h.toNat) = some (h, c)
  own : c.remote = false
  whole : c.broken = false

/-- The word of this core's warp does what its form says. -/
theorem LocalWord.exec {i : Instr} {f : CrewForm} {s : State} {x : Here} {h : Nat} {c : Crew}
    (k : LocalWord i f s x h c) (hj : f.join = true → c.core = x.core)
    (hp : f.rel = true → pubReady s x (effScope s x .crew) = true ∧ ∀ r, f.act s x h c ≠ .trap r) :
    exec i s = .next (crewLocal (released s x f) x f h (f.act (released s x f) x h c)) := by
  rw [exec_crewForm k.runs k.form k.last, crewGo_acts k.plain k.names (fun hr => (hp hr).1) fun hr _ => (hp hr).2,
    crewAct_local k.own hj]

/-- A word that does not arrive with .pub acts in the state as it stands. -/
theorem LocalWord.exec_plain {i : Instr} {f : CrewForm} {s : State} {x : Here} {h : Nat} {c : Crew}
    (k : LocalWord i f s x h c) (hj : f.join = true → c.core = x.core) (hp : f.rel = false) :
    Machine.exec i s = .next (crewLocal s x f h (f.act s x h c)) := by
  have same : released s x f = s := by simp [released, hp]
  rw [k.exec hj (by simp [hp]), same]

/-! What a word that is done, and one that waits, leave. -/

section Outcome
variable {s : State} {x : Here} {y : Warp} (hy : tget (coreOf s x.core).warps x.w = some y)

@[simp] theorem crewOf_crewDone (s : State) (x : Here) (wr : Option (Nat × W32)) (acq : Option Bool) (h : Nat) :
    crewOf (crewDone s x wr acq) h = crewOf s h := crewOf_bunits (by simp [crewDone]) h

@[simp] theorem crewOf_crewWait (s : State) (core w : Nat) (sl : Slot) (k : Wait) (h : Nat) :
    crewOf (crewWait s core w sl k) h = crewOf s h := rfl

include hy

theorem warp_crewDone (acq : Option Bool) : tget (coreOf (crewDone s x none acq) x.core).warps x.w =
    some (retireW y x.sl x.ws) := by
  simp [crewDone, coreOf_pubDone_warps, hy]

theorem warp_crewDone_wr (d : Nat) (v : W32) (acq : Option Bool) :
    tget (coreOf (crewDone s x (some (d, v)) acq) x.core).warps x.w = some (retireW (sset y d v) x.sl x.ws) := by
  simp [crewDone, coreOf_pubDone_warps, hy]

theorem warp_crewWait (sl : Slot) (k : Wait) :
    ∃ z, tget (coreOf (crewWait s x.core x.w sl k) x.core).warps x.w = some z ∧ (pathOf z sl).wait = k := by
  refine ⟨_, by rw [crewWait, warp_modWarp, hy]; rfl, ?_⟩
  cases sl <;> rfl

end Outcome

/-! Arrivals (R256, R257). -/

theorem arriveRes_arrives {s : State} {x : Here} {h : Nat} {c : Crew} {j : Bool} (hb : c.broken = false)
    (hn : crewNext x.wp h = some (c.phase, j)) (hs : bothSlots x.wp = false) (pub : Bool) (g : State → Nat → CrewRes) :
    arriveRes pub s x h c g = g (crewArrive s h x.core x.w pub) c.phase := by
  simp [arriveRes, hb, hn, hs]

/-- A member that may arrive does (R250). -/
theorem LocalWord.exec_arrival {i : Instr} {f : CrewForm} {s : State} {x : Here} {h : Nat} {c : Crew}
    (k : LocalWord i f s x h c) {pub j : Bool} {g : State → Nat → CrewRes}
    (hact : ∀ t, f.act t x h c = arriveRes pub t x h c g) (hg : ∀ t p r, g t p ≠ .trap r) (hj : f.join = false)
    (hn : crewNext x.wp h = some (c.phase, j)) (hs : bothSlots x.wp = false)
    (hp : f.rel = true → pubReady s x (effScope s x .crew) = true) :
    Machine.exec i s =
      .next (crewLocal (released s x f) x f h (g (crewArrive (released s x f) h x.core x.w pub) c.phase)) := by
  have act (t : State) : f.act t x h c = g (crewArrive t h x.core x.w pub) c.phase :=
    (hact t).trans (arriveRes_arrives k.whole hn hs pub g)
  rw [k.exec (by simp [hj]) fun hr => ⟨hp hr, fun r => by rw [act]; exact hg _ _ r⟩, act]

/-- The state that CRSYNC's arrival leaves says whether it waits (R257). -/
def syncRes (t : State) (h p : Nat) : CrewRes :=
  match crewOf t h with
  | some c' => if c'.phase = p then .wait t p true else .done t none
  | none => .done t none

theorem syncRes_ne_trap (t : State) (h p r : Nat) : syncRes t h p ≠ .trap r := by
  unfold syncRes
  split
  · split <;> nofun
  · nofun

theorem syncAct_eq (pub : Bool) (s : State) (x : Here) (h : Nat) (c : Crew) :
    syncAct pub s x h c = arriveRes pub s x h c fun t p => syncRes t h p := rfl

end Sys2Proof.Machine

/-! Joins, leaves, waits and queries (R254, R256, R258, R260). -/

namespace Sys2Proof.Machine

theorem isMember_next {w : Warp} {h : Nat} {r : Nat × Bool} (hn : crewNext w h = some r) : isMember w h = true := by
  simp [isMember, hn]

theorem joinAct_new {s : State} {x : Here} {h : Nat} {c : Crew} (hb : c.broken = false) (hc : c.core = x.core)
    (hs : c.share = false) (hm : isMember x.wp h = false) (hl : x.wp.crews.length < 8) (hp : x.prov = false) :
    joinAct s x h c = .done (crewJoin s h x.core x.w) none := by
  simp [joinAct, hb, hc, hs, hm, hp, Nat.not_le.2 hl]

theorem joinAct_full {s : State} {x : Here} {h : Nat} {c : Crew} (hb : c.broken = false)
    (hm : isMember x.wp h = false) (hl : x.wp.crews.length ≥ 8) : joinAct s x h c = .trap 5 := by
  simp [joinAct, hb, hm, hl]

theorem leaveAct_plain {s : State} {x : Here} {h : Nat} {c : Crew} (hm : isMember x.wp h = true)
    (hs : c.share = false) : leaveAct s x h c =
      .done (dropEmptyCopies (crewLeave (copyForget s x.core x.w (some h)) h x.core x.w)) none := by
  simp [leaveAct, hm, hs]

theorem leaveAct_outside {s : State} {x : Here} {h : Nat} {c : Crew} (hm : isMember x.wp h = false) :
    leaveAct s x h c = .trap 3 := by
  simp [leaveAct, hm]

/-- CRWAIT compares the crew's phase with the given one (R258). -/
theorem waitAct_eq {c : Crew} (hb : c.broken = false) (b : W32) (s : State) (x : Here) (h : Nat) :
    waitAct b s x h c =
      if ((BitVec.ofNat 32 c.phase : W32) - b).toNat = 0 then .wait s c.phase false
      else if ((BitVec.ofNat 32 c.phase : W32) - b).toNat < 2 ^ 31 then .done s none else .trap 7 := by
  simp [waitAct, hb]

/-- A word that is done and has no value to write. -/
theorem LocalWord.exec_done {i : Instr} {f : CrewForm} {s t : State} {x : Here} {h : Nat} {c : Crew}
    (k : LocalWord i f s x h c) (hj : f.join = true → c.core = x.core) (hp : f.rel = false)
    (ha : f.act s x h c = .done t none) : Machine.exec i s = .next (crewDone t x none (f.wide s x)) := by
  rw [k.exec_plain hj hp, ha, crewLocal]
  cases f.d <;> rfl

theorem LocalWord.exec_wait {i : Instr} {f : CrewForm} {s t : State} {x : Here} {h p : Nat} {c : Crew} {counted : Bool}
    (k : LocalWord i f s x h c) (hj : f.join = true → c.core = x.core) (hp : f.rel = false)
    (ha : f.act s x h c = .wait t p counted) :
    Machine.exec i s = .next (crewWait t x.core x.w x.sl (.crew h p (f.wide s x) counted)) := by
  rw [k.exec_plain hj hp, ha, crewLocal]

theorem LocalWord.exec_trap {i : Instr} {f : CrewForm} {s : State} {x : Here} {h r : Nat} {c : Crew}
    (k : LocalWord i f s x h c) (hj : f.join = true → c.core = x.core) (hp : f.rel = false)
    (ha : f.act s x h c = .trap r) : Machine.exec i s = .next (crewTrap s x (BitVec.ofNat 32 h) r) := by
  rw [k.exec_plain hj hp, ha, crewLocal]

theorem warp_crewDone_member {s : State} {x : Here} {h : Nat} {b : Bool} (acq : Option Bool)
    (hm : ∃ z, tget (coreOf s x.core).warps x.w = some z ∧ isMember z h = b) :
    ∃ y, tget (coreOf (crewDone s x none acq) x.core).warps x.w = some y ∧ isMember y h = b := by
  obtain ⟨z, hz, hb⟩ := hm
  exact ⟨_, warp_crewDone hz acq, (isMember_crews (retireW_crews z x.sl x.ws) h).trans hb⟩

/-- CRARRIVE of a member that may arrive writes the phase it arrived in (R256, R259). -/
theorem LocalWord.exec_crarrive {w : Crw} {f : CrewForm} {s : State} {x : Here} {h : Nat} {c : Crew} {j : Bool}
    (k : LocalWord (.crarrive w) f s x h c) (hn : crewNext x.wp h = some (c.phase, j)) (hs : bothSlots x.wp = false)
    (hp : pubOf w = true → pubReady s x (effScope s x .crew) = true) :
    Machine.exec (.crarrive w) s = .next (crewDone (crewArrive (released s x f) h x.core x.w (pubOf w)) x
      (some (w.d.toNat, BitVec.ofNat 32 c.phase)) none) := by
  obtain rfl := Option.some.inj k.form
  exact k.exec_arrival (g := fun t p => .done t (some (BitVec.ofNat 32 p))) (fun _ => rfl) nofun rfl hn hs hp

/-- CRSYNC of a member that may arrive: whether its path waits shows in the crew's record (R257, R259). -/
theorem LocalWord.exec_crsync {w : Crw} {f : CrewForm} {s : State} {x : Here} {h : Nat} {c : Crew} {j : Bool}
    (k : LocalWord (.crsync w) f s x h c) (hn : crewNext x.wp h = some (c.phase, j)) (hs : bothSlots x.wp = false)
    (hp : pubOf w = true → pubReady s x (effScope s x .crew) = true) :
    let t := crewArrive (released s x f) h x.core x.w (pubOf w)
    (∀ c', crewOf t h = some c' → c'.phase = c.phase → Machine.exec (.crsync w) s =
      .next (crewWait t x.core x.w x.sl (.crew h c.phase (f.wide s x) true))) ∧
    (∀ c', crewOf t h = some c' → c'.phase ≠ c.phase → Machine.exec (.crsync w) s =
      .next (crewDone t x none (f.wide s x))) := by
  obtain rfl := Option.some.inj k.form
  have run := k.exec_arrival (syncAct_eq (pubOf w) · x h c) (syncRes_ne_trap · h) rfl hn hs hp
  refine ⟨fun c' hc hph => ?_, fun c' hc hph => ?_⟩
  · rw [run, syncRes, hc, ← wide_released]
    simp only [hph, if_true, crewLocal]
  · rw [run, syncRes, hc, ← wide_released]
    simp only [hph, if_false, crewLocal]
    rfl

theorem exec_crquery {w : Crw} {s : State} {x : Here} (h : Runs (.crquery w) s x) (hs : isShadow x.block = false) :
    exec (.crquery w) s =
      .next (retire s x (sset x.wp w.d.toNat (crewQuery s x (sget x.wp w.h.toNat) w.opt.toNat))) := by
  show execCrquery w s = _
  refine (word_runs h rfl).trans ?_
  simp [foreignCrew, hs]

theorem retireNow_pubDone (s : State) (x : Here) (wide : Option Bool) : crewDone s x none wide =
    retireNow (if wide = some true then modCore s x.core fun co => { co with l1 := [] } else s) x := by
  rcases wide with _ | _ | _ <;> rfl

/-- The words that consult a phase state have their form; it names the crew in H, and arrives with .pub where it is
CRSYNC or CRARRIVE with that option (R251, R259). -/
theorem crewForm_listed {i : Instr} {w : Crw}
    (hi : i ∈ [Instr.crjoin w, .crleave w, .crsync w, .crarrive w, .crwait w, .crmap w]) (wp : Warp) :
    ∃ f, crewForm wp i = some f ∧ f.h = w.h ∧ (f.rel = true ↔ (i = .crsync w ∨ i = .crarrive w) ∧ pubOf w = true) := by
  simp only [List.mem_cons, List.not_mem_nil, or_false] at hi
  rcases hi with rfl | rfl | rfl | rfl | rfl | rfl <;> exact ⟨_, rfl, rfl, by simp⟩

/-- Settles O25: each word is read off its act where the phase state is kept; an arrival goes on once its release is
made, which changes neither crew nor warp. -/
theorem crewWordsChangeTheirCrew : Obligations.CrewWordsChangeTheirCrew := by
  unfold Obligations.CrewWordsChangeTheirCrew
  intro w s x h c at' ready member arrives warpIn over' arrived' wide trap d
  have word {i : Instr} {f : CrewForm} (hi : crewForm x.wp i = some f) (hh : f.h = w.h) (r : ready i) :
      LocalWord i f s x h c :=
    have ⟨⟨runs, plain, last⟩, names, own, whole⟩ := r
    ⟨hi, runs, fun hne => last (hne w), plain, hh ▸ names, own, whole⟩
  have stands {i : Instr} (r : ready i) : tget (coreOf s x.core).warps x.w = some x.wp ∧ crewOf s h = some c := by
    obtain ⟨⟨runs, -⟩, names, -⟩ := r
    exact ⟨(here_warp runs.stands).2.1, (crewAt_some names).2⟩
  have free {i : Instr} {f : CrewForm} (r : ready i) :
      tget (coreOf (released s x f) x.core).warps x.w = some x.wp ∧ crewOf (released s x f) h = some c := by
    rw [coreOf_released, crewOf_released]
    exact stands r
  refine ⟨fun r hc hs hm hl hp => ?_, fun r hc hm hl => ?_, fun r hs hn hp ha => ?_, fun r hm => ?_,
    fun r ha => ?_, fun r ha => ?_, fun r ha => ?_, fun r ha hp => ?_, fun r hd => ?_, fun r hd hd' => ?_,
    fun r hd => ?_, fun i hi r hn => ?_, fun r hs => ?_⟩
  · have k := word rfl rfl r
    obtain ⟨record, joined⟩ := crewJoin_spec (stands r).2 (stands r).1
    exact ⟨_, k.exec_done (fun _ => hc) rfl (joinAct_new k.whole hc hs hm hl hp), warp_crewDone_member _ joined,
      (crewOf_crewDone ..).trans record⟩
  · have k := word rfl rfl r
    exact k.exec_trap (fun _ => hc) rfl (joinAct_full k.whole hm hl)
  · have k := word rfl rfl r
    obtain ⟨j, hn⟩ := hn
    obtain ⟨record, left⟩ := crewLeave_spec (s := copyForget s x.core x.w (some h)) (stands r).2 (stands r).1 hn hp
      k.whole ha
    exact ⟨_, k.exec_done nofun rfl (leaveAct_plain (isMember_next hn) hs), (crewOf_crewDone ..).trans record,
      warp_crewDone_member (s := dropEmptyCopies _) _ left⟩
  · exact (word rfl rfl r).exec_trap nofun rfl (leaveAct_outside hm)
  · obtain ⟨r, ⟨j, hn⟩, hs, hp⟩ := r
    obtain ⟨record, z, hz⟩ := crewArrive_open (free r).2 (free r).1 (pubOf w) ha
    exact ⟨_, (word rfl rfl r).exec_crarrive hn hs hp, (crewOf_crewDone ..).trans record, _, warp_crewDone_wr hz ..,
      by simp⟩
  · obtain ⟨r, ⟨j, hn⟩, hs, hp⟩ := r
    obtain ⟨record, z, hz⟩ := crewArrive_last (free r).2 (free r).1 (pubOf w) ha (word rfl rfl r).own
    exact ⟨_, (word rfl rfl r).exec_crarrive hn hs hp, (crewOf_crewDone ..).trans record, _, warp_crewDone_wr hz ..,
      by simp⟩
  · obtain ⟨r, ⟨j, hn⟩, hs, hp⟩ := r
    obtain ⟨record, z, hz⟩ := crewArrive_open (free r).2 (free r).1 (pubOf w) ha
    exact ⟨_, ((word rfl rfl r).exec_crsync hn hs hp).1 _ record rfl, record, warp_crewWait hz ..⟩
  · obtain ⟨r, ⟨j, hn⟩, hs, hp'⟩ := r
    obtain ⟨record, z, hz⟩ := crewArrive_last (free r).2 (free r).1 (pubOf w) ha (word rfl rfl r).own
    exact ⟨_, ((word rfl rfl r).exec_crsync hn hs hp').2 _ record (phase_ne_next hp).symm,
      (crewOf_crewDone ..).trans record, _, warp_crewDone hz _, retireW_wait ..⟩
  · have k := word rfl rfl r
    exact ⟨_, k.exec_wait nofun rfl ((waitAct_eq k.whole _ s x h).trans (if_pos hd)), warp_crewWait (stands r).1 ..⟩
  · have k := word rfl rfl r
    rw [k.exec_done nofun rfl ((waitAct_eq k.whole _ s x h).trans ((if_neg (Nat.ne_of_gt hd)).trans (if_pos hd'))),
      retireNow_pubDone]
    rfl
  · have k := word rfl rfl r
    exact k.exec_trap nofun rfl
      ((waitAct_eq k.whole _ s x h).trans ((if_neg (by omega)).trans (if_neg (Nat.not_lt.2 hd))))
  · obtain ⟨runs, hs, hl⟩ := r
    obtain ⟨f, hf, hh, -⟩ := crewForm_listed hi x.wp
    rw [exec_crewForm runs hf fun hne => hl (hne w), crewGo_none hs (hh ▸ hn), hh]
  · refine ⟨_, exec_crquery r hs, fun hn => by simp [crewQuery, hn], fun hn => ?_⟩
    refine ⟨fun ho => ?_, fun ho => ?_, fun ho => ?_⟩ <;> simp [crewQuery, hn, ho]

end Sys2Proof.Machine

/-! CRNEW: the next record of the unit, and who is in the new crew (R247, R255). -/

namespace Sys2Proof.Machine

/-- The warps of a new crew (R255). -/
def crewTeam (x : Here) (share : Bool) : List (Nat × Warp) :=
  if share then launched x.co x.wp.block else [(x.w, x.wp)]

/-- The record of a new crew. -/
def newRecord (s : State) (x : Here) (share : Bool) : Crew :=
  { ctx := x.ctx, members := (crewTeam x share).length, remote := share || localCrews s x.core ≥ 16, share := share,
    cluster := clusterOf x.core, core := x.core, maps := if share then [(0, x.core, x.wp.block)] else [] }

/-- Warps of a core are members of a new crew. -/
def enrol (s : State) (core h : Nat) (ws : List (Nat × Warp)) : State :=
  ws.foldl (fun s p => modWarp s core p.1 fun y => setNext y h 0 false) s

/-- The handle of the unit's next record that was never used (R247). -/
def freshHandle (s : State) (x : Here) : Nat := 8192 * chipletOf x.core + (unitOf s (chipletOf x.core)).fresh

/-- The unit holds the new crew's record. -/
def recorded (s : State) (x : Here) (share : Bool) : State :=
  modUnit s (chipletOf x.core) fun b =>
    { b with fresh := b.fresh + 1, crews := tins b.crews b.fresh (newRecord s x share) }

/-- The unit holds the new crew, and its warps are members. -/
def withNewCrew (s : State) (x : Here) (share : Bool) : State :=
  enrol (recorded s x share) x.core (freshHandle s x) (crewTeam x share)

theorem recorded_fresh (s : State) (x : Here) (share : Bool) :
    (unitOf (recorded s x share) (chipletOf x.core)).fresh = (unitOf s (chipletOf x.core)).fresh + 1 :=
  congrArg BUnit.fresh (unitOf_modUnit ..)

theorem enrol_keeps (s : State) (core h : Nat) (ws : List (Nat × Warp)) :
    Resumes s (enrol s core h ws) ∧ (coreOf (enrol s core h ws) core).blocks = (coreOf s core).blocks :=
  List.foldlRecOn (motive := fun t => Resumes s t ∧ (coreOf t core).blocks = (coreOf s core).blocks) _ _
    ⟨⟨rfl, fun _ _ => rfl⟩, rfl⟩ fun _ ⟨ht, hb⟩ _ _ => ⟨ht.trans (resumes_modWarp ..), by simp [modWarp, hb]⟩

theorem newCrew_none {s : State} {x : Here} (share : Bool) (hl : x.wp.crews.length ≥ 8) : newCrew s x share = none := by
  simp [newCrew, hl]

/-- A block enters a share crew at map index 0 (R255). -/
def seat (s : State) (x : Here) (share : Bool) (h : Nat) : State :=
  if share then modBlock s x.core x.wp.block fun b => { b with share := some (h, 0) } else s

theorem newCrew_some {s : State} {x : Here} (share : Bool) (ht : ∀ p ∈ crewTeam x share, p.2.crews.length < 8)
    (hl : x.wp.crews.length < 8) (hs : share = true → x.block.share = none)
    (hf : (unitOf s (chipletOf x.core)).fresh ≤ 8191) :
    newCrew s x share = some (freshHandle s x, seat (withNewCrew s x share) x share (freshHandle s x)) := by
  have room : ((crewTeam x share).any fun p => p.2.crews.length ≥ 8) = false := by
    simpa using ht
  have unshared : (share && x.block.share.isSome) = false := by
    cases share
    · rfl
    · simp [hs rfl]
  have eligible : ((crewTeam x share).any (fun p => p.2.crews.length ≥ 8) || decide (x.wp.crews.length ≥ 8) ||
      (share && x.block.share.isSome)) = false := by
    simp [room, unshared, Nat.not_le.2 hl]
  unfold newCrew
  refine (if_neg (Bool.eq_false_iff.1 eligible)).trans ?_
  show (match allocCrew s (chipletOf x.core) (newRecord s x share) with | none => _ | some (h, s) => _) = _
  rw [allocCrew_fresh hf]
  rfl

theorem exec_crnew {w : Crw} {s t : State} {x : Here} {h : Nat} (runs : Runs (.crnew w) s x)
    (hn : (newCrew s x (w.opt == 1)).getD (0, s) = (h, t)) : exec (.crnew w) s =
      .next (modWarp t x.core x.w fun y => retireW (sset y w.d.toNat (BitVec.ofNat 32 h)) x.sl x.ws) := by
  show execCrnew w s = _
  refine (word_runs runs rfl).trans ?_
  exact congrArg (fun p : Nat × State => Host.Outcome.next
    (modWarp p.2 x.core x.w fun y => retireW (sset y w.d.toNat (BitVec.ofNat 32 p.1)) x.sl x.ws)) hn

/-- A warp that stands is retired as it is read (R35). -/
theorem retire_read {s : State} {x : Here} (hw : tget (coreOf s x.core).warps x.w = some x.wp) (f : Warp → Warp) :
    (modWarp s x.core x.w fun y => retireW (f y) x.sl x.ws) = retire s x (f x.wp) := by
  simp only [retire, setWarp, modWarp, modCore, tmod, hw]

theorem crewOf_withNewCrew {s : State} {x : Here} (share : Bool) (hf : (unitOf s (chipletOf x.core)).fresh ≤ 8191) :
    crewOf (withNewCrew s x share) (freshHandle s x) = some (newRecord s x share) :=
  (crewOf_bunits (enrol_keeps ..).1.1 _).trans (crewOf_fresh hf _)

/-- The issuing core's blocks are as they were, and the same warps stand. -/
theorem withNewCrew_core (s : State) (x : Here) (share : Bool) :
    (coreOf (withNewCrew s x share) x.core).blocks = (coreOf s x.core).blocks ∧
      (tget (coreOf (withNewCrew s x share) x.core).warps x.w).isSome = (tget (coreOf s x.core).warps x.w).isSome :=
  have ⟨⟨_, stand⟩, blocks⟩ := enrol_keeps (recorded s x share) x.core (freshHandle s x) (crewTeam x share)
  ⟨blocks, stand x.core x.w⟩

theorem withNewCrew_own (s : State) (x : Here) : withNewCrew s x false =
    modWarp (recorded s x false) x.core x.w fun y => setNext y (freshHandle s x) 0 false := rfl

/-- Settles O26: a warp in eight crews makes none; else the unit's next record is the crew's, whichever warps enter
it. -/
theorem newCrewTakesFreshRecord : Obligations.NewCrewTakesFreshRecord := by
  unfold Obligations.NewCrewTakesFreshRecord
  intro w s x b runs u h team
  obtain ⟨hc, hw, -⟩ := here_warp runs.stands
  refine ⟨fun hl => ?_, fun ho hl hf ht hb hs => ?_, fun ho hl hf => ?_⟩
  · rw [exec_crnew runs (by rw [newCrew_none _ hl, Option.getD_none])]
    exact congrArg Host.Outcome.next (retire_read hw fun y => sset y w.d.toNat 0)
  · have blockIs : x.block = b := by rw [Here.block, hb]; rfl
    have shared : (w.opt == 1) = true := by simp [ho]
    have run := exec_crnew runs (by
      rw [shared, newCrew_some true ht hl (fun _ => blockIs ▸ hs) hf, Option.getD_some])
    obtain ⟨blocks, stand⟩ := withNewCrew_core s x true
    obtain ⟨z, hz⟩ := Option.isSome_iff_exists.1 (stand.trans (by rw [hw]; rfl))
    refine ⟨_, newRecord s x true, retireW (sset z w.d.toNat (BitVec.ofNat 32 h)) x.sl x.ws, run,
      crewOf_withNewCrew true hf, rfl, rfl, rfl, rfl, rfl, rfl, rfl, rfl, rfl, ?_, ?_, by simp⟩
    · have block : tget (coreOf (withNewCrew s x true) x.core).blocks x.wp.block = some b := by rw [blocks, ← hc, hb]
      simp [modWarp, seat, modBlock, block, h, u, freshHandle]
    · simp [seat, modBlock, hz, h, u, freshHandle]
  · have lone : (w.opt == 1) = false := by simp [ho]
    have run := exec_crnew runs (by
      rw [lone, newCrew_some false (by simpa [crewTeam] using hl) hl nofun hf, Option.getD_some])
    refine ⟨_, newRecord s x false, retireW (sset (setNext x.wp h 0 false) w.d.toNat (BitVec.ofNat 32 h)) x.sl x.ws,
      run, crewOf_withNewCrew false hf, rfl, rfl, rfl, rfl, rfl, rfl, by simp [newRecord], ?_, ?_, by simp, fun _ => ?_⟩
    · exact recorded_fresh s x false
    · rw [seat, if_neg Bool.false_ne_true, withNewCrew_own, warp_modWarp, warp_modWarp]
      exact congrArg (Option.map _ <| Option.map _ ·) hw
    · rw [crewNext_crews (retireW_crews ..)]
      exact crewNext_setNext x.wp h 0 false

end Sys2Proof.Machine

/-! Remote barriers: messages, what the unit does with them, and the answers (R249, R263, R265, R423). -/

namespace Sys2Proof.Machine

/-! The message (R249, R423). -/

/-- A word of a crew whose barrier is remote goes by message: with the scope of its release while that is not done, else
after it (R263). -/
theorem crewGo_remote {s : State} {x : Here} {f : CrewForm} {h : Nat} {c : Crew} (hs : isShadow x.block = false)
    (ha : crewAt s x.ctx (sget x.wp f.h.toNat) = some (h, c)) (hr : c.remote = true) :
    (f.rel = true ∧ pubReady s x (effScope s x .crew) = false →
      crewGo s x f = crewPost s x h (some (effScope s x .crew)) ((f.wide s x).getD false)) ∧
    (¬ (f.rel = true ∧ pubReady s x (effScope s x .crew) = false) →
      crewGo s x f = crewPost (released s x f) x h none ((f.wide s x).getD false)) := by
  refine ⟨fun ⟨hf, hp⟩ => ?_, fun hn => ?_⟩
  · simp only [crewGo, foreignCrew, hs, ha, hf, hp, hr, Bool.false_and, Bool.not_true, Bool.false_eq_true, if_false]
  · have ready (hf : f.rel = true) : pubReady s x (effScope s x .crew) = true :=
      (Bool.eq_false_or_eq_true _).elim id fun hp => absurd ⟨hf, hp⟩ hn
    have far (_ : f.rel = true) (own : c.remote = false) : ∀ r, f.act s x h c ≠ .trap r :=
      absurd (hr.symm.trans own) nofun
    rw [crewGo_acts hs ha ready far, crewAct, if_pos hr, wide_released]

/-- What a path sends to a unit. -/
def postOf (x : Here) (h : Nat) (rel : Option Scope) (wide : Bool) : BPost :=
  { handle := h, core := x.core, warp := x.w, slot := x.sl, rel := rel, wide := wide }

theorem requeue_inbox (s : State) (u : Nat) (p : BPost) :
    (unitOf (requeue s u p) u).inbox = (unitOf s u).inbox ++ [p] :=
  congrArg BUnit.inbox (unitOf_modUnit ..)

theorem crewPost_eq (s : State) (x : Here) (h : Nat) (rel : Option Scope) (wide : Bool) : crewPost s x h rel wide =
    modWarp (waitAt (requeue s (h / 8192) (postOf x h rel wide)) x .answer) x.core x.w
      fun w => { w with active := x.wp.active && !x.last } := rfl

theorem crewPost_inbox (s : State) (x : Here) (h : Nat) (rel : Option Scope) (wide : Bool) :
    (unitOf (crewPost s x h rel wide) (h / 8192)).inbox = (unitOf s (h / 8192)).inbox ++ [postOf x h rel wide] :=
  requeue_inbox ..

/-- The path waits at its word for the answer. -/
theorem crewPost_waits {s : State} {x : Here} (hw : tget (coreOf s x.core).warps x.w = some x.wp) (h : Nat)
    (rel : Option Scope) (wide : Bool) :
    ∃ y, tget (coreOf (crewPost s x h rel wide) x.core).warps x.w = some y ∧ (pathOf y x.sl).wait = .answer ∧
      (pathOf y x.sl).pc = x.p.pc := by
  have read : tget (coreOf (requeue s (h / 8192) (postOf x h rel wide)) x.core).warps x.w = some x.wp := hw
  refine ⟨_, by rw [crewPost_eq, waitAt, warp_modWarp, warp_modWarp, read]; rfl, ?_⟩
  rw [Here.p]
  cases x.sl <;> exact ⟨rfl, rfl⟩

/-! The unit (R263, R423). -/

theorem exec_barrierMessage {s : State} {u : Nat} {p : BPost} {rest : List BPost} (hu : u < 8)
    (hi : (unitOf s u).inbox = p :: rest) :
    exec (.barrierMessage u) s = .next (unitTake (modUnit s u fun b => { b with inbox := rest }) u p) := by
  show execBarrierMessage u s = _
  rw [execBarrierMessage, event, eventIf_true (by exact decide_eq_true hu), hi]

/-- The release of a message is made before its word acts. -/
def afterRelease (s : State) (x : Here) (p : BPost) : State :=
  match p.rel with | some sc => advanceEpoch s x.ctx sc | none => s

section Unit
variable {s : State} {u : Nat} {p : BPost} {x : Here}
  (hx : hereAt s p.core p.warp p.slot = some x) (hw : x.p.wait = .answer)
include hx hw

/-- A message whose release is not done goes back to the input (R263). -/
theorem unitTake_held {sc : Scope} (hr : p.rel = some sc) (hp : pubReady s x sc = false) :
    unitTake s u p = requeue s u p := by
  simp [unitTake, hx, hw, heldBack, hr, hp]

/-- A message is handled by the word at which its path stands (R423). -/
theorem unitTake_acts (hc : p.core < 1024) (hp : ∀ sc, p.rel = some sc → pubReady s x sc = true) {h k : Nat} {c : Crew}
    {i : Instr} {f : CrewForm} (ha : crewAt (afterRelease s x p) x.ctx (BitVec.ofNat 32 p.handle) = some (h, c))
    (hd : decode x.ws = .ok (i, k)) (hf : crewForm x.wp i = some f) :
    unitTake s u p = unitRes (afterRelease s x p) u { p with rel := none } f h (f.act (afterRelease s x p) x h c) := by
  have free : heldBack s x p = false := by
    unfold heldBack
    split
    · simp [hp _ ‹_›]
    · rfl
  have due : ¬ (decide (p.core ≥ 1024) || heldBack s x p) = true := by simp [free, hc]
  have asks : ¬ (x.p.wait != .answer) = true := by simp [hw]
  unfold unitTake
  rw [hx]
  refine (if_neg asks).trans ((if_neg due).trans ?_)
  obtain hr | ⟨sc, hr⟩ := Option.eq_none_or_eq_some p.rel <;>
  · simp only [afterRelease, hr] at ha ⊢
    rw [ha, hd]
    simp only
    split <;> cases ‹Except.ok (i, k) = _›
    · cases hf
    · cases hf
    · rw [hf]

end Unit

/-! Answers (R263, R423). -/

/-- The core has no more of its answers than those. -/
def popRelease (core : Nat) (rest : List BRelease) (s : State) : State :=
  { s with releases := tput [] s.releases core rest }

theorem exec_barrierRelease {s : State} {core : Nat} {r : BRelease} {rest : List BRelease} (hc : core < 1024)
    (hr : tgetD s.releases core [] = r :: rest) :
    exec (.barrierRelease core) s = .next (takeRelease s core r rest) := by
  show execBarrierRelease core s = _
  rw [execBarrierRelease, event, eventIf_true (by exact decide_eq_true hc), hr]

theorem takeRelease_phase {s : State} {core ph h : Nat} {r : BRelease} {rest : List BRelease} {x : Here}
    {a : Option Bool} {b : Bool} (hx : hereAt s core r.warp r.slot = some x) (hw : x.p.wait = .crew h ph a b) :
    takeRelease s core r rest = resumeCrew (popRelease core rest s) core r.warp r.slot := by
  simp only [takeRelease, hx, hw, popRelease]

/-- An answer without a reason completes a crew word (R423). -/
theorem takeAnswer_done {s : State} {x : Here} {r : BRelease} {i : Instr} {k : Nat} (hr : r.reason = none)
    (hd : decode x.ws = .ok (i, k)) (hf : (crewForm x.wp i).isSome = true) :
    takeAnswer s x r = crewDone s x r.wr r.acq := by
  simp only [takeAnswer, hr, hd]
  split
  · cases ‹Except.ok (i, k) = _›
    cases hf
  · cases ‹Except.ok (i, k) = _›
    cases hf
  · rfl

/-- It is taken once its path waits for none any more. -/
theorem takeRelease_answer {s : State} {core : Nat} {r : BRelease} {rest : List BRelease} {x : Here}
    (hx : hereAt s core r.warp r.slot = some x) (hw : x.p.wait = .answer)
    (hn : ∀ y, hereAt (takeAnswer s x r) core r.warp r.slot = some y → y.p.wait ≠ .answer) :
    takeRelease s core r rest = popRelease core rest (takeAnswer s x r) := by
  simp only [takeRelease, hx, hw, popRelease]
  split
  · rw [if_neg (by simpa using hn _ ‹_›)]
  · rfl

/-- The block is mapped in its share crew at an index (R261). -/
def mapped (s : State) (x : Here) (h i : Nat) : State :=
  modBlock (modCrew s h fun c => { c with maps := c.maps ++ [(i, x.core, x.wp.block)] }) x.core x.wp.block
    fun b => { b with share := some (h, i) }

/-- CRMAP of a block whose warps are all members takes the crew's lowest free map index (R261). -/
theorem mapAct_free {s : State} {x : Here} {h i : Nat} {c : Crew} (hs : c.share = true) (hb : c.broken = false)
    (hk : c.cluster = clusterOf x.core) (hx : x.block.share = none) (hp : x.prov = false)
    (hm : ∀ p ∈ launched x.co x.wp.block, isMember p.2 h = true)
    (hi : lowest (fun i => !c.maps.any fun m => m.1 == i) 16 = some i) :
    mapAct s x h c = .done (mapped s x h i) (some (BitVec.ofNat 32 i)) := by
  have room : ((launched x.co x.wp.block).any fun p => !isMember p.2 h && p.2.crews.length ≥ 8) = false :=
    List.any_eq_false.2 fun p hp => by simp [hm p hp]
  have same : (launched x.co x.wp.block).foldl
      (fun s p => if isMember p.2 h then s else crewJoin s h x.core p.1) s = s :=
    List.foldlRecOn (motive := (· = s)) _ _ rfl fun t ht p hp => (if_pos (hm p hp)).trans ht
  have enters : ¬ ((((x.block.share.map (·.1)).isSome && x.block.share.map (·.1) != some h) ||
      (c.share && clusterOf x.core != c.cluster) ||
      (c.share && (x.block.share.map (·.1)).isNone && decide (c.maps.length < 16) &&
        (launched x.co x.wp.block).any fun p => !isMember p.2 h && p.2.crews.length ≥ 8)) = true) := by
    rw [room, hx, hk]
    simp
  unfold mapAct
  refine (if_neg (Bool.eq_false_iff.1 hb)).trans ((if_neg enters).trans ((if_neg (by simp [hs])).trans ?_))
  rw [hx]
  refine (if_neg (by simp [hp])).trans ?_
  split
  · exact absurd (hi.symm.trans ‹_›) (Option.some_ne_none i)
  · obtain rfl := Option.some.inj (hi.symm.trans ‹_›)
    exact congrArg (fun t => CrewRes.done (mapped t x h i) (some (BitVec.ofNat 32 i))) same

/-! A lost record (R265). -/

/-- The paths that wait for a phase of the crew. -/
def crewWaiters (s : State) (h : Nat) : List (Nat × Nat × Slot) :=
  (warpsOf s).flatMap fun p => [Slot.a, .b].filterMap fun sl =>
    match (pathOf p.2.2 sl).wait with
    | .crew k _ _ _ => if k = h then some (p.1, p.2.1, sl) else none
    | _ => none

/-- The crew whose record is lost is broken (R265). -/
def breakRecord (s : State) (h : Nat) : State := modCrew s h fun c => { c with broken := true }

/-- A path that waited for the crew traps with reason 2 (R265). -/
def trapWaiter (h : Nat) (s : State) (p : Nat × Nat × Slot) : State :=
  match hereAt s p.1 p.2.1 p.2.2 with
  | some x => crewTrap s x (BitVec.ofNat 32 h) 2
  | none => s

theorem exec_crewRecordError {s : State} {h : Nat} (hh : h < 65536) :
    exec (.crewRecordError h) s = .next ((crewWaiters s h).foldl (trapWaiter h) (breakRecord s h)) := by
  show execCrewRecordError h s = _
  rw [execCrewRecordError, event, eventIf_true (by exact decide_eq_true hh)]
  rfl

/-- Settles O27: a remote crew's word is its message, the unit and the core act on the oldest of their input, and a lost
record traps each path that waits for it. -/
theorem remoteCrewWordsGoByMessage : Obligations.RemoteCrewWordsGoByMessage := by
  unfold Obligations.RemoteCrewWordsGoByMessage
  refine ⟨fun w s x h c => ⟨fun i hi runs last hs ha hr => ?_, ?_, fun core r rest hc hr hx => ?_,
    fun i hs hb hk hx hp hm hc hi => ?_⟩, fun s h c => ?_⟩
  · intro sc late
    obtain ⟨f, hf, hh, hrel⟩ := crewForm_listed hi x.wp
    obtain ⟨held, goes⟩ := crewGo_remote hs (hh ▸ ha) hr (f := f)
    have hw := (here_warp runs.stands).2.1
    have run := exec_crewForm runs hf fun hne => last (hne w)
    have isLate : late ↔ f.rel = true ∧ pubReady s x sc = false := by rw [hrel, and_assoc]
    by_cases hl : late
    · obtain ⟨y, waits⟩ := crewPost_waits hw h (some sc) ((f.wide s x).getD false)
      exact ⟨_, y, _, run.trans (congrArg _ (held (isLate.1 hl))), crewPost_inbox .., rfl, rfl, rfl, rfl,
        fun _ => rfl, fun hn => absurd hl hn, waits⟩
    · obtain ⟨y, waits⟩ := crewPost_waits (s := released s x f) (by rw [coreOf_released]; exact hw) h none
        ((f.wide s x).getD false)
      refine ⟨_, y, postOf x h none ((f.wide s x).getD false), run.trans (congrArg _ (goes (hl ∘ isLate.2))), ?_,
        rfl, rfl, rfl, rfl, fun hn => absurd hn hl, fun _ => rfl, waits⟩
      rw [crewPost_inbox, unitOf, released_bunits]
      rfl
  · intro u p rest i k f s₂ wr s₀ s₁ hu hb hc hx hw
    refine ⟨fun sc hr hp => ?_, fun hp ha hd hf => ⟨fun hact => ?_, fun r hact => ?_⟩⟩
    · exact (exec_barrierMessage hu hb).trans (congrArg _ (unitTake_held hx hw hr hp))
    · exact (exec_barrierMessage hu hb).trans
        (congrArg _ ((unitTake_acts hx hw hc hp ha hd hf).trans (congrArg (unitRes _ u _ f h) hact)))
    · exact (exec_barrierMessage hu hb).trans
        (congrArg _ ((unitTake_acts hx hw hc hp ha hd hf).trans (congrArg (unitRes _ u _ f h) hact)))
  · intro pop
    refine ⟨fun k ph a b hw => ?_, fun i k hw hn hd hf hy => ?_⟩
    · rw [exec_barrierRelease hc hr, takeRelease_phase hx hw]
      rfl
    · have completes := takeAnswer_done hn hd hf (s := s)
      rw [exec_barrierRelease hc hr, takeRelease_answer hx hw (completes ▸ hy), completes]
      rfl
  · exact ⟨_, mapAct_free hs hb hk hx hp hm hi, by simp [mapped, hc]⟩
  · intro waiting hh hc
    refine ⟨fun hn => ?_, fun k w sl x hn hx => ?_⟩
    · have idle : crewWaiters s h = [] := hn
      refine ⟨breakRecord s h, (exec_crewRecordError hh).trans (by rw [idle, List.foldl_nil]), ?_, rfl⟩
      rw [breakRecord, crewOf_modCrew, hc]
      rfl
    · have one : crewWaiters s h = [(k, w, sl)] := hn
      have stands : hereAt (breakRecord s h) k w sl = some x := hx
      rw [exec_crewRecordError hh, one, List.foldl_cons, List.foldl_nil, trapWaiter, stands]
      rfl

end Sys2Proof.Machine

/-! The end of a copy (R277, R279): what each of its slices receives, and what that leaves. -/

namespace Sys2Proof.Machine

/-- What the end of a copy does for one of its slices: the record of a saved member, and the token of a warp that has
not ended. -/
def endSlice (ctx : Nat) (status : W32) (s : State) (y : CSlice) : State :=
  let s := noteRecord s ctx y status
  match y.tok with
  | some t =>
    if y.orphan then s
    else modWarp s y.core y.warp fun w => { sset w t status with pend := sdel w.pend (256 + t) }
  | none => s

theorem finishCopy_eq {s : State} {id : Nat} {c : Copy} (h : tget s.copies id = some c) (status : W32) :
    finishCopy s id status = c.slices.foldl (endSlice c.ctx status) { s with copies := tdel s.copies id } := by
  unfold finishCopy
  rw [h]
  rfl

theorem noteRecord_none {y : CSlice} (h : y.rec' = none) (s : State) (ctx : Nat) (status : W32) :
    noteRecord s ctx y status = s := by
  unfold noteRecord
  rw [h]

/-- The slice of a warp in its core gives the warp the status and ends the wait for its token. -/
theorem endSlice_token {y : CSlice} {t : Nat} (ht : y.tok = some t) (ho : y.orphan = false) (hr : y.rec' = none)
    (ctx : Nat) (status : W32) (s : State) : endSlice ctx status s y =
      modWarp s y.core y.warp fun w => { sset w t status with pend := sdel w.pend (256 + t) } := by
  unfold endSlice
  rw [noteRecord_none hr, ht, ho]
  rfl

/-- The copies are as they were, and the same warps stand. -/
def KeepsCopies (s t : State) : Prop := t.copies = s.copies ∧ Resumes s t

theorem KeepsCopies.refl (s : State) : KeepsCopies s s := ⟨rfl, rfl, fun _ _ => rfl⟩

theorem KeepsCopies.trans {s t u : State} (h : KeepsCopies s t) (h' : KeepsCopies t u) : KeepsCopies s u :=
  ⟨h'.1.trans h.1, h.2.trans h'.2⟩

theorem keepsCopies_modWarp (s : State) (c w : Nat) (f : Warp → Warp) : KeepsCopies s (modWarp s c w f) :=
  ⟨rfl, resumes_modWarp s c w f⟩

theorem keepsCopies_endSlice {y : CSlice} (h : y.rec' = none) (ctx : Nat) (status : W32) (s : State) :
    KeepsCopies s (endSlice ctx status s y) := by
  unfold endSlice
  rw [noteRecord_none h]
  dsimp only
  split
  · split
    · exact .refl s
    · exact keepsCopies_modWarp ..
  · exact .refl s

/-- The end of a copy whose members are not saved removes it, and the same warps stand. -/
theorem keepsCopies_finishCopy {s : State} {id : Nat} {c : Copy} (h : tget s.copies id = some c)
    (hr : ∀ y ∈ c.slices, y.rec' = none) (status : W32) :
    KeepsCopies { s with copies := tdel s.copies id } (finishCopy s id status) := by
  rw [finishCopy_eq h]
  exact List.foldlRecOn _ _ (.refl _) fun _ ht y hy => ht.trans (keepsCopies_endSlice (hr y hy) ..)

theorem keepsCopies_drainDone (s : State) : KeepsCopies s (drainDone s) := by
  unfold drainDone
  refine List.foldlRecOn _ _ (.refl s) fun t ht p _ => ht.trans ?_
  refine List.foldlRecOn _ _ (.refl t) fun u hu sl _ => hu.trans ?_
  split
  · exact keepsCopies_modWarp ..
  · exact .refl u

end Sys2Proof.Machine

/-! BSEAL, BWAIT, BQUERY and BCANCEL: a warp's batches, its counts, and the end of one of its copies (R280-R282). -/

namespace Sys2Proof.Machine

@[simp] theorem retireW_sc (w : Warp) (sl : Slot) (ws : List W64) : (retireW w sl ws).sc = w.sc := by
  obtain ⟨_, _, _, _, _, _, _, h⟩ := retireW_keeps w sl ws
  rw [h]

@[simp] theorem retireW_batches (w : Warp) (sl : Slot) (ws : List W64) : (retireW w sl ws).batches = w.batches := by
  obtain ⟨_, _, _, _, _, _, _, h⟩ := retireW_keeps w sl ws
  rw [h]

@[simp] theorem retireW_unsealed (w : Warp) (sl : Slot) (ws : List W64) : (retireW w sl ws).unsealed = w.unsealed := by
  obtain ⟨_, _, _, _, _, _, _, h⟩ := retireW_keeps w sl ws
  rw [h]

@[simp] theorem retireW_pend (w : Warp) (sl : Slot) (ws : List W64) : (retireW w sl ws).pend = w.pend := by
  obtain ⟨_, _, _, _, _, _, _, h⟩ := retireW_keeps w sl ws
  rw [h]

/-- A word that retires its warp, as it gives it, changes that warp alone. -/
theorem ends_retire {i : Instr} {s : State} {x : Here} {wp : Warp} {p : Warp → Prop} (runs : Runs i s x)
    (he : exec i s = .next (retire s x wp)) (hp : p (retireW wp x.sl x.ws)) : Ends i s x p :=
  ⟨_, he, retire_only runs.stands wp hp⟩

/-- A word that writes one scalar register and goes on changes that register alone, but for its path's progress. -/
theorem ends_sset {i : Instr} {s : State} {x : Here} {d : Nat} {v : W32} {p : Warp → Prop} (away : Away x)
    (runs : Runs i s x) (he : exec i s = .next (retire s x (sset x.wp d v)))
    (hp : ∀ y, sget y d = v → (∀ j, j ≠ d → sget y j = sget x.wp j) → Past x { x.wp with sc := y.sc } y → p y) :
    Ends i s x p := by
  refine ends_retire runs he (hp _ ?_ (fun j hj => ?_) ?_)
  · rw [sget_retireW, sget_sset]
  · rw [sget_retireW, sget_sset_ne _ _ hj]
  · rw [retireW_sc]
    exact retireW_past away rfl

theorem any_liveCopy (s : State) (ids : List Nat) :
    ids.any (liveCopy s) = true ↔ ∃ id ∈ ids, tget s.copies id ≠ none := by
  simp [liveCopy, Option.isSome_iff_ne_none]

/-- The warp with its unsealed copies moved into a batch (R280). -/
def sealed (w : Warp) (k : Nat) : Warp :=
  { w with unsealed := [], batches := tput [] w.batches k (tgetD w.batches k [] ++ w.unsealed) }

theorem exec_bseal {w : Bat} {s : State} {x : Here} (h : Runs (.bseal w) s x) : exec (.bseal w) s =
    .next (retire s x (sealed x.wp w.k.toNat)) := by
  show execBseal w s = _
  exact word_runs h rfl

theorem exec_bwait {w : Bat} {s : State} {x : Here} (h : Runs (.bwait w) s x) (hl : x.last = true) : exec (.bwait w) s =
    .next (if (tgetD x.wp.batches w.k.toNat []).any (liveCopy s) then s
      else retire s x { x.wp with batches := tput [] x.wp.batches w.k.toNat [] }) := by
  show execBwait w s = _
  exact word_runs h (by rw [hl]; rfl)

theorem exec_bquery {w : Bat} {s : State} {x : Here} (h : Runs (.bquery w) s x) : exec (.bquery w) s =
    .next (retire s x (sset x.wp w.d.toNat (BitVec.ofNat 32 (copyQuery s x w.k.toNat)))) := by
  show execBquery w s = _
  exact word_runs h rfl

/-- The copies that the ninth bit of BQUERY's fourth count is about, and the batches that the others are (R282). -/
def countedIds (w : Warp) (j : Nat) : List Nat := if j = 8 then w.unsealed else tgetD w.batches j []

theorem foldl_bits (p : Nat → Bool) (n c : Nat) :
    (List.range n).foldl (fun a k => a + if p k then 2 ^ k else 0) c = c + bitSum p n := by
  induction n with
  | zero => rfl
  | succ n ih =>
    rw [List.range_succ, List.foldl_append, ih, bitSum_succ]
    simp only [List.foldl_cons, List.foldl_nil]
    split <;> omega

theorem bitSum_congr {p q : Nat → Bool} {n : Nat} (h : ∀ j, j < n → p j = q j) : bitSum p n = bitSum q n := by
  induction n with
  | zero => rfl
  | succ n ih => rw [bitSum_succ, bitSum_succ, ih fun j hj => h j (Nat.lt_succ_of_lt hj), h n (Nat.lt_succ_self n)]

/-- BQUERY's fourth count has a bit for each batch with a copy that is not complete, and one for the unsealed set. -/
theorem copyQuery_bits (s : State) (x : Here) :
    copyQuery s x 3 = bitSum (fun j => (countedIds x.wp j).any (liveCopy s)) 9 := by
  have same : bitSum (fun j => (countedIds x.wp j).any (liveCopy s)) 8 =
      bitSum (fun j => (tgetD x.wp.batches j []).any (liveCopy s)) 8 :=
    bitSum_congr fun j hj => by simp only [countedIds, if_neg (Nat.ne_of_lt hj)]
  have count : copyQuery s x 3 = (List.range 8).foldl
      (fun a k => a + if (tgetD x.wp.batches k []).any (liveCopy s) then 2 ^ k else 0)
      (if x.wp.unsealed.any (liveCopy s) then 256 else 0) := rfl
  rw [count, foldl_bits fun k => (tgetD x.wp.batches k []).any (liveCopy s), bitSum_succ _ 8, same]
  simp only [countedIds, if_true]
  split <;> omega

theorem copyQuery_bit (s : State) (x : Here) {j : Nat} (hj : j < 9) :
    (BitVec.ofNat 32 (copyQuery s x 3)).getLsbD j = true ↔ ∃ id ∈ countedIds x.wp j, tget s.copies id ≠ none := by
  rw [BitVec.getLsbD_ofNat, copyQuery_bits, testBit_bitSum, ← any_liveCopy]
  simp [hj, show j < 32 by omega]

/-- The warp's oldest copy of an identity before its payload (R280). -/
def cancelHit (s : State) (x : Here) (rid : Nat) : Option (Nat × Copy) :=
  s.copies.find? fun p => p.2.st != .moved && p.2.cmd.isNone && p.2.rid == rid && suppliedBy p.2 x.core x.w

theorem exec_bcancel_none {w : Bat} {s : State} {x : Here} (h : Runs (.bcancel w) s x)
    (hn : cancelHit s x (sget x.wp w.a.toNat).toNat = none) :
    exec (.bcancel w) s = .next (retire s x (sset x.wp w.d.toNat 0)) := by
  rw [← retire_read (here_warp h.stands).2.1 fun y => sset y w.d.toNat 0]
  show execBcancel w s = _
  refine (word_runs h rfl).trans (congrArg Host.Outcome.next ?_)
  exact congrArg (fun o : Option (Nat × Copy) =>
    modWarp (match o with | some (id, _) => drainDone (finishCopy s id 6) | none => s) x.core x.w
      fun y => retireW (sset y w.d.toNat (if o.isSome then 1 else 0)) x.sl x.ws) hn

theorem exec_bcancel_some {w : Bat} {s : State} {x : Here} {id : Nat} {c : Copy} (h : Runs (.bcancel w) s x)
    (hc : cancelHit s x (sget x.wp w.a.toNat).toNat = some (id, c)) :
    exec (.bcancel w) s = .next (modWarp (drainDone (finishCopy s id 6)) x.core x.w
      fun y => retireW (sset y w.d.toNat 1) x.sl x.ws) := by
  show execBcancel w s = _
  refine (word_runs h rfl).trans (congrArg Host.Outcome.next ?_)
  exact congrArg (fun o : Option (Nat × Copy) =>
    modWarp (match o with | some (id, _) => drainDone (finishCopy s id 6) | none => s) x.core x.w
      fun y => retireW (sset y w.d.toNat (if o.isSome then 1 else 0)) x.sl x.ws) hc

/-- Settles O29: each of the four words from what it does to its warp's batches and to the copies. -/
theorem batchWordsFollowTheirCopies : Obligations.BatchWordsFollowTheirCopies := by
  unfold Obligations.BatchWordsFollowTheirCopies
  intro w s x away k d batch mine live
  refine ⟨fun runs => ?_, fun runs hl hn => ?_, fun runs hl hv => ?_, fun runs => ?_, fun runs => ⟨fun hn => ?_, ?_⟩⟩
  · refine ends_retire runs (exec_bseal runs) ⟨?_, ?_, fun j hj => ?_, ?_⟩
    · exact retireW_unsealed ..
    · rw [retireW_batches, sealed, tgetD_tput]
    · rw [retireW_batches, sealed, tgetD_tput_ne _ _ _ _ hj]
    · rw [retireW_batches]
      exact retireW_past away rfl
  · have goes := (exec_bwait runs hl).trans (congrArg _ (if_neg (mt (any_liveCopy s batch).1 hn)))
    refine ends_retire runs goes ⟨?_, fun j hj => ?_, ?_⟩
    · rw [retireW_batches, tgetD_tput]
    · rw [retireW_batches, tgetD_tput_ne _ _ _ _ hj]
    · rw [retireW_batches]
      exact retireW_past away rfl
  · exact (exec_bwait runs hl).trans (congrArg _ (if_pos ((any_liveCopy s batch).2 hv)))
  · refine ends_sset away runs (exec_bquery runs) fun y hd others past => ⟨past, others, ?_⟩
    refine ⟨fun hk => ?_, fun hk => ?_, fun hk => ?_, fun hk j hj => ?_⟩ <;> rw [hd, hk]
    · exact congrArg _ List.countP_eq_length_filter.symm
    · rfl
    · rfl
    · exact copyQuery_bit s x hj
  · exact ends_sset away runs (exec_bcancel_none runs hn) fun y hd others past => ⟨hd, others, past⟩
  · intro id c hc hid hr
    have ⟨gone, stands⟩ := (keepsCopies_finishCopy hid hr 6).trans (keepsCopies_drainDone _)
    have there := stands.2 x.core x.w
    obtain ⟨v, hv⟩ := Option.isSome_iff_exists.1 (there.trans (congrArg Option.isSome (here_warp runs.stands).2.1))
    refine ⟨_, retireW (sset v w.d.toNat 1) x.sl x.ws, exec_bcancel_some runs hc, ?_, ?_, ?_⟩
    · rw [modWarp_copies, gone]
      exact tget_tdel ..
    · rw [warp_modWarp, hv]
      rfl
    · rw [sget_retireW, sget_sset]

end Sys2Proof.Machine

/-! The start and the payload of a copy (R276, R370): the checks, and the move of one part from scratch to scratch. -/

namespace Sys2Proof.Machine

/-! The start. -/

/-- The oldest of an engine's copies that may start (R276, R342). -/
def oldestReady (s : State) (e : Nat) : Option (Nat × Copy) :=
  (sortBy (fun p => p.2.order)
    (s.copies.filter fun p => p.2.st == .ready && p.2.engine == e && !withdrawn p.2 && !intoMoving s p.2)).head?

theorem exec_copyStart {s : State} {e id : Nat} {c : Copy} (he : e < 64) (ho : oldestReady s e = some (id, c)) :
    exec (.copyStart e) s = .next (copyGo s id c) := by
  show execCopyStart e s = _
  rw [execCopyStart, event, eventIf_true (show (Instr.copyStart e).wf = true from decide_eq_true he)]
  refine congrArg Host.Outcome.next ?_
  exact congrArg (fun o : Option (Nat × Copy) => match o with | some (id, c) => copyGo s id c | none => s) ho

theorem copyGo_unmapped {s : State} {c : Copy} {n : Nat} (id : Nat) (hp : pageStep s c.ctx (copyPages c) = .fail n) :
    copyGo s id c = copyEnd s id (BitVec.ofNat 32 n) false := by
  simp only [copyGo, hp]

theorem copyGo_barred {s : State} {c : Copy} {n : Nat} (id : Nat) (hp : pageStep s c.ctx (copyPages c) = .ok)
    (hw : windowStep s c.ctx (copyPages c) = .fail n) : copyGo s id c = copyEnd s id (BitVec.ofNat 32 n) false := by
  simp only [copyGo, hp, hw]

theorem copyGo_overlaps {s : State} {c : Copy} (id : Nat) (hp : pageStep s c.ctx (copyPages c) = .ok)
    (hw : windowStep s c.ctx (copyPages c) = .ok) (ho : copyOverlap s c = true) :
    copyGo s id c = copyEnd s id 8 false := by
  simp only [copyGo, hp, hw, ho, if_true]

theorem versionOf_plain {c : Copy} (h : c.cond = false) : versionOf c = none := by
  unfold versionOf
  split
  · rw [h]; rfl
  · rfl

theorem copyGo_begins {s : State} {c : Copy} (id : Nat) (hp : pageStep s c.ctx (copyPages c) = .ok)
    (hw : windowStep s c.ctx (copyPages c) = .ok) (ho : copyOverlap s c = false) (hc : c.cond = false) :
    copyGo s id c = copyBegin s id (foundPages s c) false := by
  simp only [copyGo, hp, hw, ho, versionOf_plain hc, Bool.false_eq_true, if_false]

/-! Bytes of scratch. -/

@[simp] theorem locPut_copies (s : State) (x : Loc) (b : Byte) (poison : Bool) :
    (locPut s x b poison).copies = s.copies := by
  cases x <;> rfl

theorem locByte_cores {s t : State} (h : t.cores = s.cores) (c b o : Nat) :
    locByte t (.scr c b o) = locByte s (.scr c b o) := by
  simp only [locByte, coreOf_congr h]

theorem block_locPut {s : State} {c b : Nat} {x : Block} (h : tget (coreOf s c).blocks b = some x) (o : Nat) (v : Byte)
    (poison : Bool) : tget (coreOf (locPut s (.scr c b o) v poison) c).blocks b =
      some { x with scratch := tput 0 x.scratch o v, scratchPoison := sput x.scratchPoison (o / 4) poison } := by
  simp [locPut, modBlock, h]

theorem locByte_locPut {s : State} {c b : Nat} {x : Block} (h : tget (coreOf s c).blocks b = some x) (o : Nat)
    (v : Byte) (poison : Bool) : locByte (locPut s (.scr c b o) v poison) (.scr c b o) = v := by
  simp only [locByte, block_locPut h, tgetD_tput]

theorem locByte_locPut_ne {s : State} {c b : Nat} {x : Block} (h : tget (coreOf s c).blocks b = some x) {o o' : Nat}
    (v : Byte) (poison : Bool) (ne : o' ≠ o) :
    locByte (locPut s (.scr c b o) v poison) (.scr c b o') = locByte s (.scr c b o') := by
  simp only [locByte, block_locPut h, tgetD_tput_ne _ _ _ _ ne, h]

/-- Bytes written one after the other into a block's scratch, each with the poison bit that its place gives. -/
def putScratch (s : State) (c b off : Nat) (bad : Nat → Bool) (bs : List (Byte × Bool)) : State :=
  ((List.range bs.length).zip bs).foldl (fun t p => locPut t (.scr c b (off + p.1)) p.2.1 (bad p.1)) s

theorem putScratch_snoc (s : State) (c b off : Nat) (bad : Nat → Bool) (bs : List (Byte × Bool)) (v : Byte × Bool) :
    putScratch s c b off bad (bs ++ [v]) =
      locPut (putScratch s c b off bad bs) (.scr c b (off + bs.length)) v.1 (bad bs.length) := by
  unfold putScratch
  rw [List.length_append, List.length_singleton, List.range_succ, List.zip_append (List.length_range ..),
    List.foldl_append]
  rfl

theorem putScratch_copies (s : State) (c b off : Nat) (bad : Nat → Bool) (bs : List (Byte × Bool)) :
    (putScratch s c b off bad bs).copies = s.copies :=
  foldl_keeps State.copies (fun _ _ => locPut_copies ..) _ s

theorem putScratch_block {s : State} {c b : Nat} {x : Block} (h : tget (coreOf s c).blocks b = some x) (off : Nat)
    (bad : Nat → Bool) (bs : List (Byte × Bool)) :
    ∃ y, tget (coreOf (putScratch s c b off bad bs) c).blocks b = some y :=
  List.foldlRecOn (motive := fun t => ∃ y, tget (coreOf t c).blocks b = some y) _ _ ⟨x, h⟩
    fun _ ⟨_, hy⟩ _ _ => ⟨_, block_locPut hy ..⟩

/-- What is written into scratch is read, byte for byte. -/
theorem locByte_putScratch {s : State} {c b : Nat} {x : Block} (h : tget (coreOf s c).blocks b = some x) (off : Nat)
    (bad : Nat → Bool) (bs : List (Byte × Bool)) {i : Nat} {u : Byte × Bool} (hu : bs[i]? = some u) :
    locByte (putScratch s c b off bad bs) (.scr c b (off + i)) = u.1 := by
  obtain ⟨back, rfl⟩ : ∃ back, bs = List.reverse back := ⟨bs.reverse, (List.reverse_reverse bs).symm⟩
  induction back with
  | nil => cases hu
  | cons v back ih =>
    obtain ⟨y, hy⟩ := putScratch_block h off bad back.reverse
    rw [List.reverse_cons] at hu ⊢
    rw [putScratch_snoc]
    by_cases last : i = back.reverse.length
    · subst last
      rw [List.getElem?_concat_length] at hu
      cases hu
      exact locByte_locPut hy ..
    · have here : i < back.reverse.length := by
        obtain ⟨bound, -⟩ := List.getElem?_eq_some_iff.1 hu
        rw [List.length_append, List.length_singleton] at bound
        omega
      rw [List.getElem?_append_left here] at hu
      rw [locByte_locPut_ne hy _ _ (by omega), ih hu]

/-! The parts of a payload. -/

theorem mem_pieces {size a n : Nat} {d : Nat × Nat} (h : d ∈ pieces size a n) : d.2 ≤ size ∧ d.2 ≤ n - (d.1 - a) := by
  unfold pieces at h
  split at h
  · cases h
  · obtain ⟨i, -, rfl⟩ := List.mem_map.1 h
    have next : (a / size + i + 1) * size = (a / size + i) * size + size := Nat.succ_mul ..
    dsimp only
    omega

/-- A part is no longer than 16 bytes, nor than what is left of its row. -/
theorem len_of_copyParts {c : Copy} {p : Part16} (h : p ∈ copyParts c) : p.len ≤ 16 ∧ p.len ≤ p.rest := by
  simp only [copyParts, List.mem_flatMap, List.mem_map] at h
  obtain ⟨_, -, _, -, d, hd, rfl⟩ := h
  exact mem_pieces hd

/-- n bytes of a slice's scratch with their poison. -/
def scratchRow (s : State) (y : CSlice) (a n : Nat) : List (Byte × Bool) :=
  (List.range n).map fun i => (locByte s (.scr y.core y.block (a + i)), locPoison s (.scr y.core y.block (a + i)))

theorem scratchRow_append (s : State) (y : CSlice) (a m k : Nat) :
    scratchRow s y a m ++ scratchRow s y (a + m) k = scratchRow s y a (m + k) := by
  simp only [scratchRow, List.range_add, List.map_append, List.map_map, Nat.add_assoc, Function.comp_def]

theorem scratchRow_cores {s t : State} (h : t.cores = s.cores) (y : CSlice) (a n : Nat) :
    scratchRow t y a n = scratchRow s y a n := by
  simp only [scratchRow, locByte, locPoison, coreOf_congr h]

theorem readRow_scratch {y : CSlice} (h : y.src.space = 2) (s : State) (ctx : Nat) (pg : Pages) (who a n : Nat) :
    readRow s ctx pg who y (a, n) = scratchRow s y a n := by
  simp only [readRow, h, sliceLoc, scratchRow]
  rfl

theorem busHolds_scratch {d : TDesc} (h : d.space = 2) (s : State) (y : CSlice) : busHolds s y d = false := by
  simp [busHolds, h]

/-- The copy has these bytes of its source besides those it had. -/
def tookAhead (s : State) (id : Nat) (bs : List (Byte × Bool)) : State :=
  { dropAnswers s (copyWho id) with copies := tmod (dropAnswers s (copyWho id)).copies id fun c =>
      { c with ahead := c.ahead ++ bs, status := if bs.any (·.2) then c.status ||| 0x100 else c.status } }

/-- The copy has read m bytes of a row of scratch, and has come no further otherwise. -/
def HasRead (s : State) (id : Nat) (c : Copy) (p : Part16) (m : Nat) (t : State) : Prop :=
  t.cores = s.cores ∧ ∃ st, tget t.copies id = some { c with ahead := scratchRow s p.y p.src m, status := st }

section ReadAhead
variable {s t : State} {id m n : Nat} {c : Copy} {p : Part16} (hr : HasRead s id c p m t)
include hr

theorem readAhead_enough (hm : p.len ≤ m) : readAhead id p n t = .go t := by
  obtain ⟨-, st, hc⟩ := hr
  cases n with
  | zero => rfl
  | succ n =>
    have got : (scratchRow s p.y p.src m).length ≥ p.len := by simpa [scratchRow] using hm
    simp only [readAhead, hc, if_pos got]

/-- One read takes the rest of an aligned 16-byte part of the source, or of the row (R275). -/
theorem readAhead_reads (hp : p.y.src.space = 2) (hm : m < p.len) :
    ∃ u, readAhead id p (n + 1) t = readAhead id p n u ∧
      HasRead s id c p (m + min (16 - (p.src + m) % 16) (p.rest - m)) u := by
  obtain ⟨hcores, st, hc⟩ := hr
  have got : (scratchRow s p.y p.src m).length = m := by simp [scratchRow]
  refine ⟨tookAhead t id (scratchRow t p.y (p.src + m) (min (16 - (p.src + m) % 16) (p.rest - m))), ?_, ?_⟩
  · simp only [readAhead, hc, got, if_neg (Nat.not_le.2 hm), busHolds_scratch hp, hp,
      readRow_scratch hp, Bool.false_eq_true, if_false]
    rfl
  · refine ⟨(congrArg State.cores (dropAnswers_eq ..)).trans hcores, ?_⟩
    have same : (dropAnswers t (copyWho id)).copies = t.copies := by rw [dropAnswers_eq]
    rw [tookAhead, tget_tmod, same, hc, Option.map_some, scratchRow_cores hcores, scratchRow_append]
    exact ⟨_, rfl⟩

/-- The reads that are left suffice for the part. -/
theorem readAhead_goes (hp : p.y.src.space = 2) (hl : p.len ≤ p.rest)
    (hn : p.len ≤ m ∨ p.len + (p.src + m) % 16 ≤ m + 16 * n) :
    ∃ u k, readAhead id p n t = .go u ∧ p.len ≤ k ∧ HasRead s id c p k u := by
  induction n generalizing m t with
  | zero => exact ⟨t, m, rfl, by omega, hr⟩
  | succ n ih =>
    by_cases hm : p.len ≤ m
    · exact ⟨t, m, readAhead_enough hr hm, hm, hr⟩
    · obtain ⟨u, same, hu⟩ := readAhead_reads hr hp (Nat.not_le.1 hm)
      rw [same]
      exact ih hu (by omega)

end ReadAhead

end Sys2Proof.Machine

/-! The move of a part, the completion of a copy and the failure of an engine (R276, R279, R289). -/

namespace Sys2Proof.Machine

/-! A copy that ends, and one that begins. -/

/-- The copy ends with a code. -/
def ended (status : W32) (locked : Bool) (c : Copy) : Copy :=
  { c with st := .moved, status := status, locked := locked }

/-- The copy begins, with the pages it has found and its version word locked or not. -/
def begun (pages : Tab (W64 × Nat)) (locked : Bool) (c : Copy) : Copy :=
  { c with st := .moved, status := 0, locked := locked, pages := pages, parts := 0, ahead := [], bad := [] }

theorem ended_ended (status : W32) (locked : Bool) (c : Copy) :
    ended status locked (ended status locked c) = ended status locked c := rfl

theorem begun_begun (pages : Tab (W64 × Nat)) (locked : Bool) (c : Copy) :
    begun pages locked (begun pages locked c) = begun pages locked c := rfl

theorem tget_copyEnd (s : State) (id : Nat) (status : W32) (locked : Bool) :
    tget (copyEnd s id status locked).copies id = (tget s.copies id).map (ended status locked) := tget_tmod ..

theorem tget_copyBegin (s : State) (id : Nat) (pages : Tab (W64 × Nat)) (locked : Bool) :
    tget (copyBegin s id pages locked).copies id = (tget s.copies id).map (begun pages locked) := tget_tmod ..

/-! One part. -/

/-- The poison bit of a lane word when these bytes come into a row of local storage (R243, R278). -/
def rowPoison (s : State) (y : CSlice) (off : Nat) (bs : List (Byte × Bool)) (k : Nat) : Bool :=
  let mine := (List.range bs.length).filter fun i => (off + i) / 4 == k
  mine.any (fun i => match bs[i]? with | some b => b.2 | none => false) ||
    (mine.length < 4 && locPoison s (.scr y.core y.block (4 * k)))

theorem writeLocal_scratch {y : CSlice} (h : y.dst.space = 2) (s : State) (off : Nat) (bs : List (Byte × Bool)) :
    writeLocal s y off bs = putScratch s y.core y.block off (fun i => rowPoison s y off bs ((off + i) / 4)) bs := by
  unfold writeLocal sliceLoc
  rw [h]
  rfl

/-- The copy has written this part, of these bytes. -/
def partWritten (s : State) (id : Nat) (p : Part16) (bs : List (Byte × Bool)) : State :=
  let bad := ((List.range bs.length).zip bs).filterMap fun (i, b) => if b.2 then some (p.idx, p.dst + i) else none
  { s with copies := tmod s.copies id fun c =>
      { c with parts := c.parts + 1, ahead := c.ahead.drop p.len, bad := c.bad ++ bad } }

theorem writePart_scratch {p : Part16} (hd : p.y.dst.space = 2) (hv : p.y.prov = none) (s : State) (id : Nat)
    (c : Copy) : writePart s id c p =
      .go (partWritten (writeLocal s p.y p.dst (c.ahead.take p.len)) id p (c.ahead.take p.len)) := by
  have free : (partFull s c p.y p.dst || busHolds s p.y p.y.dst) = false := by
    rw [busHolds_scratch hd, partFull, hv]
    rfl
  unfold writePart
  simp only [free, hd, Bool.false_eq_true, if_false]
  rfl

theorem copyPart_eq {s : State} {id : Nat} {c : Copy} {p : Part16} (hc : tget s.copies id = some c) (hs : c.st = .moved)
    (hm : copyMoved c = false) (hp : (copyParts c)[c.parts]? = some p) : copyPart s id = movePart s id p := by
  unfold copyPart
  simp only [hc, hs, hm, hp]
  rfl

/-- A part from scratch to scratch moves in one turn, byte for byte (R276, R370). -/
theorem movePart_scratch {s : State} {id : Nat} {c : Copy} {p : Part16} {b : Block} (hc : tget s.copies id = some c)
    (ha : c.ahead = []) (hp : p ∈ copyParts c) (hs : p.y.src.space = 2) (hd : p.y.dst.space = 2) (hv : p.y.prov = none)
    (hb : tget (coreOf s p.y.core).blocks p.y.block = some b) :
    (∀ i, i < p.len → locByte (movePart s id p) (.scr p.y.core p.y.block (p.dst + i)) =
      locByte s (.scr p.y.core p.y.block (p.src + i))) ∧
    ∃ c', tget (movePart s id p).copies id = some c' ∧ c'.parts = c.parts + 1 := by
  obtain ⟨short, inRow⟩ := len_of_copyParts hp
  have start : HasRead s id c p 0 s := ⟨rfl, c.status, by rw [hc, show scratchRow s p.y p.src 0 = c.ahead from ha.symm]⟩
  obtain ⟨t, k, reads, enough, hcores, st, ht⟩ := readAhead_goes start (n := 3) hs inRow (by omega)
  have block : tget (coreOf t p.y.core).blocks p.y.block = some b := by rw [coreOf_congr hcores, hb]
  have length : ((scratchRow s p.y p.src k).take p.len).length = p.len := by simp [scratchRow, enough]
  have moved : movePart s id p = partWritten (writeLocal t p.y p.dst ((scratchRow s p.y p.src k).take p.len)) id p
      ((scratchRow s p.y p.src k).take p.len) := by
    simp only [movePart, reads, ht, writePart_scratch hd hv]
  rw [moved, writeLocal_scratch hd]
  refine ⟨fun i hi => ?_, ?_⟩
  · refine (locByte_putScratch block _ _ _ (List.getElem?_eq_getElem (by rw [length]; exact hi))).trans ?_
    simp [scratchRow]
  · rw [partWritten, tget_tmod, putScratch_copies, ht]
    exact ⟨_, rfl, rfl⟩

/-! Completion. -/

theorem copyPart_moved {s : State} {id : Nat} {c : Copy} (hc : tget s.copies id = some c) (hm : copyMoved c = true) :
    copyPart s id = s := by
  unfold copyPart
  simp only [hc, hm, Bool.or_true, if_true]

theorem movePayload_moved {s : State} {id : Nat} {c : Copy} (hc : tget s.copies id = some c) (hm : copyMoved c = true) :
    movePayload s id = s := by
  simp only [movePayload, hc]
  exact List.foldlRecOn (motive := fun t => t = s) _ _ rfl fun _ ht _ _ =>
    (congrArg (copyPart · id) ht).trans (copyPart_moved hc hm)

theorem copyStamps_none {s : State} {c : Copy} (hc : c.cond = false) (hs : ∀ y ∈ c.slices, y.sta = none) :
    copyStamps s c = [] := by
  have unnamed :
      c.slices.filterMap (fun y => if sliceShadow s y then none else y.sta.map fun a => (y, a, y.stv)) = [] := by
    rw [List.filterMap_eq_nil_iff]
    exact fun y hy => by simp [hs y hy]
  unfold copyStamps
  rw [unnamed, hc]
  simp

/-- A copy that has moved, names no stamp and leaves no poison to cover drops its lines from the members' L1 and
completes (R279). -/
theorem exec_copyComplete {s : State} {id : Nat} {c : Copy} (hc : tget s.copies id = some c) (hs : c.st = .moved)
    (hm : copyMoved c = true) (hq : c.cmd = none) (hv : c.cond = false) (ht : ∀ y ∈ c.slices, y.sta = none)
    (hp : c.status.toNat % 256 ≠ 0 ∨ copyClean s c = (s, true)) :
    exec (.copyComplete id) s = .next (drainDone (finishCopy (copyDropL1 s c) id c.status)) := by
  have clean : (if c.status.toNat % 256 = 0 then copyClean s c else (s, true)) = (s, true) := by
    split
    · exact hp.resolve_left (absurd ‹_›)
    · rfl
  have ends : copyComplete s id c = drainDone (finishCopy (copyDropL1 s c) id c.status) := by
    unfold copyComplete
    rw [clean]
    simp [copyStamps_none hv ht, stampGo, hc, hq]
  show execCopyComplete id s = _
  rw [execCopyComplete, event, eventIf_true (show (Instr.copyComplete id).wf = true from rfl), movePayload_moved hc hm]
  simp [hc, hs, hm, ends]

/-- The end of a copy of one warp gives its token the status. -/
theorem finishCopy_token {s : State} {id t : Nat} {c : Copy} {y : CSlice} {w : Warp} (status : W32)
    (hc : tget s.copies id = some c) (hy : c.slices = [y]) (ht : y.tok = some t) (ho : y.orphan = false)
    (hr : y.rec' = none) (hw : tget (coreOf s y.core).warps y.warp = some w) :
    tget (finishCopy s id status).copies id = none ∧
    ∃ w', tget (coreOf (finishCopy s id status) y.core).warps y.warp = some w' ∧ sget w' t = status ∧
      w'.pend.contains (256 + t) = false := by
  have ends : finishCopy s id status = modWarp { s with copies := tdel s.copies id } y.core y.warp
      fun w => { sset w t status with pend := sdel w.pend (256 + t) } := by
    rw [finishCopy_eq hc, hy, List.foldl_cons, List.foldl_nil, endSlice_token ht ho hr]
  rw [ends]
  refine ⟨tget_tdel .., { sset w t status with pend := sdel w.pend (256 + t) }, ?_, sget_sset .., ?_⟩
  · rw [warp_modWarp]
    exact congrArg _ hw
  · simp [sdel]

/-! The failure of an engine. -/

/-- The copies that an engine holds (R284, R287). -/
def onEngine (s : State) (e : Nat) : List (Nat × Copy) := s.copies.filter fun p => p.2.engine == e && !withdrawn p.2

theorem exec_copyEngineFail_last {s : State} {e : Nat} (he : e < 64) (hn : s.dev.spareEngines = 0) :
    exec (.copyEngineFail e) s =
      .next ((onEngine s e).foldl (fun s p => copyEnd s p.1 7 false) (logEvent s 0x289 e)) := by
  show execCopyEngineFail e s = _
  rw [execCopyEngineFail, event, eventIf_true (show (Instr.copyEngineFail e).wf = true from decide_eq_true he)]
  exact congrArg _ (if_neg (by rw [logEvent, modDev]; simp [hn]))

/-- A copy that has started and not failed runs its payload again (R289). -/
def copyAgain (s : State) (p : Nat × Copy) : State :=
  if p.2.st == .moved && p.2.status.toNat % 256 = 0 then copyBegin s p.1 p.2.pages p.2.locked else s

/-- A failure has been logged, and a spare has taken the engine's number. -/
def spareTaken (s : State) (e : Nat) : State :=
  modDev (logEvent s 0x289 e) fun d => { d with spareEngines := d.spareEngines - 1 }

theorem exec_copyEngineFail_spare {s : State} {e : Nat} (he : e < 64) (hn : s.dev.spareEngines > 0) :
    exec (.copyEngineFail e) s = .next ((onEngine s e).foldl copyAgain (spareTaken s e)) := by
  show execCopyEngineFail e s = _
  rw [execCopyEngineFail, event, eventIf_true (show (Instr.copyEngineFail e).wf = true from decide_eq_true he)]
  exact congrArg _ (if_pos hn)

theorem copyAgain_dev (s : State) (p : Nat × Copy) : (copyAgain s p).dev = s.dev := by
  unfold copyAgain
  split <;> rfl

theorem spares_copyAgain (s : State) (e : Nat) :
    ((onEngine s e).foldl copyAgain (spareTaken s e)).dev.spareEngines = s.dev.spareEngines - 1 :=
  congrArg Dev.spareEngines (foldl_keeps State.dev copyAgain_dev _ (spareTaken s e))

/-- Steps that all change one copy, and alike, leave it changed once. -/
theorem tget_foldl_alike {ι : Type} {f : State → ι → State} {g : Copy → Copy} {id : Nat} (hg : ∀ c, g (g c) = g c)
    (l : List ι) (hl : l ≠ []) (hf : ∀ t, ∀ i ∈ l, tget (f t i).copies id = (tget t.copies id).map g) {s : State}
    {c : Copy} (hc : tget s.copies id = some c) : tget (l.foldl f s).copies id = some (g c) := by
  induction l generalizing s c with
  | nil => exact absurd rfl hl
  | cons i l ih =>
    have one : tget (f s i).copies id = some (g c) := by rw [hf s i List.mem_cons_self, hc]; rfl
    by_cases hn : l = []
    · subst hn
      exact one
    · rw [List.foldl_cons, ih hn (fun t j hj => hf t j (List.mem_cons_of_mem _ hj)) one, hg]

theorem mem_onEngine {s : State} {e id : Nat} {c : Copy} (hc : tget s.copies id = some c) (he : c.engine = e)
    (hw : withdrawn c = false) : (id, c) ∈ onEngine s e :=
  List.mem_filter.2 ⟨mem_of_tget hc, by simp [he, hw]⟩

theorem of_mem_onEngine {s : State} {e : Nat} {p : Nat × Copy} (h : p ∈ onEngine s e) :
    p ∈ s.copies ∧ p.2.engine = e := by
  obtain ⟨hp, on⟩ := List.mem_filter.1 h
  simp only [Bool.and_eq_true, beq_iff_eq] at on
  exact ⟨hp, on.1⟩

/-- Settles O30: starts, parts and completions from what each does to its copy; a failed engine's copies are ended or
begun again one after the other. -/
theorem copiesStartMoveComplete : Obligations.CopiesStartMoveComplete := by
  unfold Obligations.CopiesStartMoveComplete
  intro s e id n c rest oldest done pages
  refine ⟨fun he ho hp => ?_, fun he ho hp hw => ?_, fun he ho hp hw hv => ?_, fun he ho hc hp hw hv hn => ?_,
    fun ha => ?_, fun p b hc hs hm ha hp hsrc hdst _ hprov hb => ?_, exec_copyComplete, ?_, fun he hn only hc hce hw => ?_,
    fun he hn only hc hce hw => ?_, fun he hn idle => ?_⟩
  · exact (exec_copyStart he ho).trans (congrArg _ (copyGo_unmapped id hp))
  · exact (exec_copyStart he ho).trans (congrArg _ (copyGo_barred id hp hw))
  · exact (exec_copyStart he ho).trans (congrArg _ (copyGo_overlaps id hp hw hv))
  · refine ⟨_, (exec_copyStart he ho).trans (congrArg _ (copyGo_begins id hp hw hv hn)), rfl, ?_⟩
    rw [tget_copyBegin, hc]
    rfl
  · simp only [step, nextTurn, ha]
    rfl
  · rw [copyPart_eq hc hs hm hp]
    exact movePart_scratch hc ha (List.mem_of_getElem? hp) hsrc hdst hprov hb
  · intro y t w hc hy ht ho hr hw
    exact finishCopy_token c.status hc hy ht ho hr hw
  · refine ⟨_, exec_copyEngineFail_last he hn, ?_⟩
    refine tget_foldl_alike (ended_ended 7 false) _ (List.ne_nil_of_mem (mem_onEngine hc hce hw)) (fun t p hp => ?_) hc
    obtain ⟨listed, on⟩ := of_mem_onEngine hp
    rw [only p listed on, tget_copyEnd]
  · have alone : ∀ p ∈ onEngine s e, p = (id, c) := fun p hp =>
      have ⟨listed, on⟩ := of_mem_onEngine hp
      only p listed on
    refine ⟨_, exec_copyEngineFail_spare he hn, spares_copyAgain s e, fun waits => ?_, fun started fine => ?_⟩
    · refine List.foldlRecOn (motive := fun t : State => tget t.copies id = some c) _ _ hc fun t ht p hp => ?_
      rw [alone p hp, copyAgain, if_neg (by simp [waits])]
      exact ht
    · refine (tget_foldl_alike (s := spareTaken s e) (begun_begun c.pages c.locked) _
        (List.ne_nil_of_mem (mem_onEngine hc hce hw)) (fun t p hp => ?_) hc).trans (by rw [begun, ← started])
      rw [alone p hp, copyAgain, if_pos (by simp [started, fine]), tget_copyBegin]
  · have empty : onEngine s e = [] := List.filter_eq_nil_iff.2 fun p hp => by simp [idle p hp]
    refine ⟨_, exec_copyEngineFail_spare he hn, spares_copyAgain s e, ?_⟩
    rw [empty]
    rfl

end Sys2Proof.Machine

/-! BCOPY and BCOPYC: the reads of their descriptors, their checks, and the copy that a word makes or joins
(R273-R275, R284). -/

namespace Sys2Proof.Machine

/-! Descriptors (R268). -/

/-- A descriptor in registers. -/
def regDesc (x : Here) (n : BitVec 8) : List Byte :=
  (List.range 8).flatMap fun i => leBytes 4 (sget x.wp (n.toNat + i)).toNat

theorem withDesc_registers (s : State) (x : Here) (i : Nat) (n : BitVec 8) (k : State → List Byte → Nat → State) :
    withDesc s x i false n k = k s (regDesc x n) 0 := rfl

/-- The 32 bytes of a descriptor at its home. -/
def homeDesc (s : State) (l : GLane) : List Byte := leBytes 32 (lineField (peekLine s (l.pa / 128)).1 (l.pa % 128) 32)

/-- A word's k-th read finds its line at the home: nothing refuses or has answered it, and its bytes are not
poisoned. -/
def Seen (x : Here) (s : State) (l : GLane) (k : Nat) : Prop :=
  refused s (l.pa / 128) (wordWho x k) = false ∧ answerTo s (l.pa / 128) (wordWho x k) = none ∧
  usable s (l.pa / 128) false (some l.home) = true ∧ poisoned (peekLine s (l.pa / 128)).2 (l.pa % 128) 32 = false

theorem wordBytes_seen {x : Here} {s : State} {l : GLane} {k : Nat} (h : Seen x s l k)
    (f : State → List Byte → Bool → State) :
    wordBytes s x k 32 l f = f (dropAnswers s (wordWho x k)) (homeDesc s l) false := by
  obtain ⟨hr, ha, hu, hp⟩ := h
  have reads : wordReads s x k [(l.line, l.home)] = .go s := by
    simp [wordReads, unitReads, GLane.line, hr, ha, hu]
  have line : unitLine s l.line (wordWho x k) = peekLine s (l.pa / 128) := by
    simp [unitLine, GLane.line, ha]
  unfold wordBytes
  rw [reads]
  dsimp only
  rw [line, hp, homeDesc]

/-- A descriptor in memory, whose line stands at its home, is read there. -/
theorem withDesc_memory {s t : State} {x : Here} {i : Nat} {n : BitVec 8} {l : GLane}
    (hc : checkGlobal s x.core x.ctx x.exec true { r := true } [(0, (sget64 x.wp n.toNat).toNat)] = (t, .ok [l]))
    (hs : Seen x t l i) (k : State → List Byte → Nat → State) :
    withDesc s x i true n k = k (dropAnswers t (wordWho x i)) (homeDesc t l) (sget64 x.wp n.toNat).toNat := by
  simp only [withDesc, hc, withChk, groupHead, List.headD_cons, wordBytes_seen hs, Bool.not_true, Bool.false_eq_true,
    if_false]

/-! The word (R273, R275). -/

/-- A copy word goes ahead: it runs, and the warp's earlier accesses are performed (R275). -/
def Ahead (i : Instr) (s : State) (x : Here) : Prop :=
  Runs i s x ∧ memHeld x true = false ∧ releaseReady s x .pkg = true

theorem exec_bcopy {w : Cpy} {s : State} {x : Here} (h : Runs (.bcopy w) s x) :
    exec (.bcopy w) s = .next (copyBody s x w false false) := by
  show execBcopy w s = _
  exact word_runs h rfl

theorem exec_bcopyc {w : Cpy} {s : State} {x : Here} (h : Runs (.bcopyc w) s x) :
    exec (.bcopyc w) s = .next (copyBody s x w true false) := by
  show execBcopyc w s = _
  exact word_runs h rfl

theorem copyBody_registers {i : Instr} {w : Cpy} {s : State} {x : Here} (h : Ahead i s x) (hm : w.mem = false)
    (cond answered : Bool) : copyBody s x w cond answered =
      copyChecks s x w cond answered (regDesc x w.sd) (regDesc x w.dd) 0 0 := by
  obtain ⟨-, held, ready⟩ := h
  simp [copyBody, held, ready, hm, withDesc_registers]

theorem copyBody_memory {i : Instr} {w : Cpy} {s s₁ s₂ : State} {x : Here} {l₁ l₂ : GLane} (h : Ahead i s x)
    (hm : w.mem = true) (h₁ : (sget64 x.wp w.sd.toNat).toNat % 32 = 0) (h₂ : (sget64 x.wp w.dd.toNat).toNat % 32 = 0)
    (c₁ : checkGlobal s x.core x.ctx x.exec true { r := true } [(0, (sget64 x.wp w.sd.toNat).toNat)] = (s₁, .ok [l₁]))
    (seen₁ : Seen x s₁ l₁ 0)
    (c₂ : checkGlobal (dropAnswers s₁ (wordWho x 0)) x.core x.ctx x.exec true { r := true }
      [(0, (sget64 x.wp w.dd.toNat).toNat)] = (s₂, .ok [l₂]))
    (seen₂ : Seen x s₂ l₂ 1) (cond answered : Bool) : copyBody s x w cond answered =
      copyChecks (dropAnswers s₂ (wordWho x 1)) x w cond answered (homeDesc s₁ l₁) (homeDesc s₂ l₂)
        (sget64 x.wp w.sd.toNat).toNat (sget64 x.wp w.dd.toNat).toNat := by
  obtain ⟨-, held, ready⟩ := h
  simp only [copyBody, held, ready, hm, h₁, h₂, withDesc_memory c₁ seen₁, withDesc_memory c₂ seen₂, Bool.not_true,
    Bool.or_self, Bool.true_and, bne_self_eq_false, Bool.false_eq_true, if_false]

/-! The checks (R269, R270, R273). -/

/-- The first row of the word's slice. -/
def sliceFirst (x : Here) (w : Cpy) : Nat := if w.sl = 0xFF then 0 else (sget x.wp w.sl.toNat).toNat

/-- The rows of the word's slice. -/
def sliceCount (x : Here) (w : Cpy) (src : TDesc) : Nat :=
  if w.sl = 0xFF then src.rows else (sget x.wp (w.sl.toNat + 1)).toNat

theorem copyChecks_malformed {sb : List Byte} (h : descBad sb false = true) (s : State) (x : Here) (w : Cpy)
    (cond answered : Bool) (db : List Byte) (sa da : Nat) :
    copyChecks s x w cond answered sb db sa da = faultAll s x .tdesc sa := if_pos h

/-- The descriptors and the stamp of a copy word pass its checks, its sides lie in their allocations, and its block is
certain. -/
structure Formed (s : State) (x : Here) (w : Cpy) (cond : Bool) (sb db : List Byte) : Prop where
  src : descBad sb false = false
  dst : descBad db true = false
  agree : descDiffer (descOf sb) (descOf db) = false
  rows : sliceFirst x w + sliceCount x w (descOf sb) ≤ (descOf sb).rows
  stamp : w.sta ≠ 0xFF → (sget64 x.wp w.sta.toNat).toNat % 8 = 0 ∧ (sget64 x.wp w.sta.toNat).toNat < 2 ^ 48
  version : cond = true → (descOf db).space = 1 →
    overlaps (sget64 x.wp w.sta.toNat).toNat 8 (descOf db).base (descOf db).extent = false
  srcFits : allocFail s x (descOf sb) false = none
  dstFits : allocFail s x (descOf db) true = none
  certain : x.prov = false

section Formed
variable {s : State} {x : Here} {w : Cpy} {cond : Bool} {sb db : List Byte} (f : Formed s x w cond sb db)
include f

theorem Formed.versionApart : (cond && (descOf db).space = 1 &&
    overlaps (sget64 x.wp w.sta.toNat).toNat 8 (descOf db).base (descOf db).extent) = false := by
  have apart := f.version
  cases cond
  · rfl
  · simpa using apart rfl

theorem Formed.stampFits : (w.sta ≠ 0xFF && (sget64 x.wp w.sta.toNat).toNat % 8 ≠ 0) = false ∧
    (w.sta ≠ 0xFF && (sget64 x.wp w.sta.toNat).toNat ≥ 2 ^ 48) = false := by
  by_cases unnamed : w.sta = 0xFF
  · simp [unnamed]
  · obtain ⟨aligned, low⟩ := f.stamp unnamed
    exact ⟨by simp [aligned], by simpa using fun _ => low⟩

theorem Formed.rowsFit : (descDiffer (descOf sb) (descOf db) ||
    sliceFirst x w + sliceCount x w (descOf sb) > (descOf sb).rows) = false := by
  simpa [f.agree] using f.rows

theorem Formed.checks_alone (hh : w.h = 0xFF) (sa da : Nat) : copyChecks s x w cond false sb db sa da =
    copySupply s x w cond (descOf sb) (descOf db) (sliceFirst x w) (sliceCount x w (descOf sb)) none := by
  obtain ⟨aligned, low⟩ := f.stampFits
  have rows := f.rowsFit
  unfold sliceFirst sliceCount at rows ⊢
  simp only [copyChecks, f.src, f.dst, rows, f.versionApart, aligned, low, hh, Bool.false_eq_true, if_false, if_true]

theorem Formed.checks_crew {h : Nat} {c : Crew} (hh : w.h ≠ 0xFF)
    (ha : crewAt s x.ctx (sget x.wp w.h.toNat) = some (h, c)) (hr : c.remote = false) (hn : copyReason s x h c w.rid.toNat = none) (sa da : Nat) :
    copyChecks s x w cond false sb db sa da =
      copySupply s x w cond (descOf sb) (descOf db) (sliceFirst x w) (sliceCount x w (descOf sb)) (some h) := by
  obtain ⟨aligned, low⟩ := f.stampFits
  have rows := f.rowsFit
  unfold sliceFirst sliceCount at rows ⊢
  simp only [copyChecks, f.src, f.dst, rows, f.versionApart, aligned, low, hh, ha, hr, hn, Bool.false_and,
    Bool.false_eq_true, if_false]

end Formed

/-! The slice (R274, R284). -/

section Supply
variable {s : State} {x : Here} {w : Cpy} {cond : Bool} {src dst : TDesc} {first count : Nat}

/-- A copy of one warp alone. -/
def soloCopy (s : State) (x : Here) (w : Cpy) (cond : Bool) (l : CSlice) : Copy :=
  { ctx := x.ctx, engine := clusterOf x.core, handle := 0, rid := w.rid.toNat, cond := cond, members := [],
    slices := [l], st := .ready, order := s.nextReq }

/-- A copy to which its member has supplied a slice. -/
def joined (s : State) (x : Here) (l : CSlice) (c : Copy) : Copy :=
  { c with members := c.members.filter (· != (x.core, x.w)), slices := c.slices ++ [l],
           st := if (c.members.filter (· != (x.core, x.w))).isEmpty && !withdrawn c then .ready else .gathering,
           order := s.nextReq }

/-- The members of a crew: core and warp. -/
def crewWarps (s : State) (h : Nat) : List (Nat × Nat) :=
  (warpsOf s).filterMap fun p => if isMember p.2.2 h then some (p.1, p.2.1) else none

/-- The engine of the lowest member's cluster. -/
def crewEngine (s : State) (x : Here) (h : Nat) : Nat :=
  clusterOf ((crewWarps s h).foldl (fun a m => min a m.1) x.core)

/-- A copy of a crew to which no member has supplied a slice. -/
def crewCopy (s : State) (x : Here) (w : Cpy) (cond : Bool) (h : Nat) : Copy :=
  { ctx := x.ctx, engine := crewEngine s x h, handle := h, rid := w.rid.toNat, cond := cond, members := crewWarps s h,
    slices := [], st := .gathering }

theorem members_joined (s : State) (x : Here) (l : CSlice) (c : Copy) :
    (joined s x l c).members = c.members.filter (· ≠ (x.core, x.w)) :=
  List.filter_congr fun p _ => Bool.eq_iff_iff.2 (by simp)

theorem st_joined {c : Copy} (hw : withdrawn c = false) (l : CSlice) :
    (joined s x l c).st = if (joined s x l c).members = [] then .ready else .gathering := by
  simp only [joined, hw, Bool.not_false, Bool.and_true, List.isEmpty_iff]

variable (hs : allocFail s x src false = none) (hd : allocFail s x dst true = none) (hp : x.prov = false)
include hs hd hp

theorem copySupply_full (hc : 64 ≤ coreCopies s x.core x.ctx) (crew : Option Nat) :
    copySupply s x w cond src dst first count crew = pushWait s x := by
  simp only [copySupply, hs, hd, hp, Bool.false_and, Bool.false_eq_true, if_false, Option.isSome_none, ge_iff_le, hc,
    if_true]

theorem copySupply_alone (hc : coreCopies s x.core x.ctx < 64) :
    copySupply s x w cond src dst first count none =
      if engineCopies s (clusterOf x.core) ≥ 1024 then pushWait s x
      else copyAccept { s with nextCopy := s.nextCopy + 1 } x w s.nextCopy
        (soloCopy s x w cond (sliceFor s x w src dst first count)) := by
  simp only [copySupply, hs, hd, hp, Bool.false_and, Bool.false_eq_true, if_false, Option.isSome_none,
    if_neg (Nat.not_le.2 hc), ge_iff_le]
  rfl

theorem copySupply_makes {h : Nat} (hc : coreCopies s x.core x.ctx < 64)
    (hg : gatheringOf s x.ctx h w.rid.toNat = none) (he : engineCopies s (crewEngine s x h) < 1024) :
    copySupply s x w cond src dst first count (some h) =
      copyAccept { s with nextCopy := s.nextCopy + 1 } x w s.nextCopy
        (joined s x (sliceFor s x w src dst first count) (crewCopy s x w cond h)) := by
  simp only [copySupply, hs, hd, hp, Bool.false_and, Bool.false_eq_true, if_false, Option.isSome_none,
    if_neg (Nat.not_le.2 hc), ge_iff_le, hg]
  exact if_neg (Nat.not_le.2 he)

theorem copySupply_joins {h id : Nat} {c : Copy} (hc : coreCopies s x.core x.ctx < 64)
    (hg : gatheringOf s x.ctx h w.rid.toNat = some (id, c)) (hk : c.cond = cond) (hm : (x.core, x.w) ∈ c.members) :
    copySupply s x w cond src dst first count (some h) =
      copyAccept s x w id (joined s x (sliceFor s x w src dst first count) c) := by
  subst hk
  simp only [copySupply, hs, hd, hp, Bool.false_and, Bool.false_eq_true, if_false, Option.isSome_none,
    if_neg (Nat.not_le.2 hc), ge_iff_le, hg, bne_self_eq_false, List.contains_iff_mem.2 hm, Bool.not_true]
  rfl

end Supply

section Alone
variable {s : State} {x : Here} {w : Cpy} {cond : Bool} {sb db : List Byte} (f : Formed s x w cond sb db)
  (hh : w.h = 0xFF)
include f hh

/-- A word without a crew makes a copy of its own where there is room. -/
theorem Formed.makes_solo (hc : coreCopies s x.core x.ctx < 64) (he : engineCopies s (clusterOf x.core) < 1024)
    (sa da : Nat) : copyChecks s x w cond false sb db sa da =
      copyAccept { s with nextCopy := s.nextCopy + 1 } x w s.nextCopy (soloCopy s x w cond
        (sliceFor s x w (descOf sb) (descOf db) (sliceFirst x w) (sliceCount x w (descOf sb)))) := by
  rw [f.checks_alone hh, copySupply_alone f.srcFits f.dstFits f.certain hc, if_neg (Nat.not_le.2 he)]

/-- Without room on its core or its engine it waits (R284). -/
theorem Formed.waits_solo (hc : 64 ≤ coreCopies s x.core x.ctx ∨ ¬ engineCopies s (clusterOf x.core) < 1024)
    (sa da : Nat) : copyChecks s x w cond false sb db sa da = pushWait s x := by
  rw [f.checks_alone hh]
  by_cases full : 64 ≤ coreCopies s x.core x.ctx
  · exact copySupply_full f.srcFits f.dstFits f.certain full none
  · rw [copySupply_alone f.srcFits f.dstFits f.certain (Nat.not_le.1 full),
      if_pos (Nat.not_lt.1 (hc.resolve_left full))]

end Alone

/-! The copy as it is accepted (R279, R280). -/

theorem contains_sins (t : List Nat) (n : Nat) : (sins t n).contains n = true := by
  induction t with
  | nil => simp [sins]
  | cons k t ih =>
    simp only [sins]
    split
    · simp
    · split
      · simp [*]
      · rw [List.contains_cons, ih, Bool.or_true]

@[simp] theorem tget_copyAccept (s : State) (x : Here) (w : Cpy) (id : Nat) (c : Copy) :
    tget (copyAccept s x w id c).copies id = some c := tget_tins ..

/-- The warp whose copy word is accepted holds the copy among its unsealed ones, and its token is pending. -/
theorem warp_copyAccept {s : State} {x : Here} {y : Warp} (hw : tget (coreOf s x.core).warps x.w = some y) (w : Cpy)
    (id : Nat) (c : Copy) : ∃ z, tget (coreOf (copyAccept s x w id c) x.core).warps x.w = some z ∧
      (w.tok ≠ 0xFF → z.pend.contains (256 + w.tok.toNat) = true) ∧ z.unsealed = y.unsealed ++ [id] := by
  unfold copyAccept
  dsimp only
  rw [warp_modWarp, coreOf_modCore, coreOf_congr (s := s) (by rfl), hw]
  refine ⟨_, rfl, fun named => ?_, retireW_unsealed ..⟩
  rw [retireW_pend]
  simp only [if_neg named]
  exact contains_sins ..

/-- Settles O28: the words come to their checks by registers or by memory, and from the checks to a copy of the warp
alone, to one of its crew, or to one that gathers. -/
theorem copyWordsSupplyCopies : Obligations.CopyWordsSupplyCopies := by
  unfold Obligations.CopyWordsSupplyCopies
  intro w s x reg src dst first count st starts goes plain warps low a₁ a₂ formed fits made bytes seen stalls room
  have pass {cond : Bool} (hf : formed) (hp : plain)
      (hv : cond = true → dst.space = 1 → overlaps st 8 dst.base dst.extent = false) :
      Formed s x w cond (reg w.sd) (reg w.dd) := by
    obtain ⟨bs, bd, agree, rows, fitsSrc, fitsDst, certain⟩ := hf
    exact ⟨bs, bd, agree, rows, hp, hv, fitsSrc, fitsDst, certain⟩
  have unconditional : false = true → dst.space = 1 → overlaps st 8 dst.base dst.extent = false := nofun
  have bcopy (hg : goes (.bcopy w)) :
      exec (.bcopy w) s = .next (copyChecks s x w false false (reg w.sd) (reg w.dd) 0 0) :=
    (exec_bcopy hg.1.1).trans (congrArg _ (copyBody_registers hg.1 hg.2 false false))
  have bcopyc (hg : goes (.bcopyc w)) :
      exec (.bcopyc w) s = .next (copyChecks s x w true false (reg w.sd) (reg w.dd) 0 0) :=
    (exec_bcopyc hg.1.1).trans (congrArg _ (copyBody_registers hg.1 hg.2 true false))
  have makes {i : Instr} {cond : Bool} (hg : goes i) (f : Formed s x w cond (reg w.sd) (reg w.dd)) (hh : w.h = 0xFF)
      (hc : coreCopies s x.core x.ctx < 64) (hr : room)
      (he : exec i s = .next (copyChecks s x w cond false (reg w.sd) (reg w.dd) 0 0)) : made i cond := by
    obtain ⟨y, hy, pending, unsealed⟩ := warp_copyAccept (s := { s with nextCopy := s.nextCopy + 1 })
      (here_warp hg.1.1.stands).2.1 w s.nextCopy (soloCopy s x w cond (sliceFor s x w src dst first count))
    have supplied := he.trans (congrArg _ (f.makes_solo hh hc hr 0 0))
    exact ⟨_, _, y, supplied, tget_copyAccept .., rfl, rfl, rfl, rfl, rfl,
      ⟨_, rfl, rfl, rfl, rfl, rfl, rfl, rfl, rfl⟩, hy, pending, unsealed, rfl, rfl, rfl⟩
  refine ⟨fun hg hf hh hp hr => ?_, fun hg hf hh hp hr hv => ?_, fun hg hf hh hp hfull => ?_,
    fun h c hg hf hh hp ha hl hn hgather hroom => ?_, fun h c id k hg hf hh hp ha hl hn hgather hk hw hm => ?_,
    fun s₁ s₂ l₁ l₂ hm h₁ h₂ c₁ seen₁ c₂ seen₂ => ⟨fun hs => ?_, fun hs => ?_⟩, fun hg hb => ?_, fun hg hb => ?_⟩
  · exact makes hg (pass hf.1 hp unconditional) hh hf.2 hr (bcopy hg)
  · exact makes hg (pass hf.1 hp fun _ => hv) hh hf.2 hr (bcopyc hg)
  · exact (bcopy hg).trans (congrArg _ ((pass hf hp unconditional).waits_solo hh hfull 0 0))
  · obtain ⟨rfl, -⟩ := crewAt_some ha
    have f := pass hf.1 hp unconditional
    have supplied := (bcopy hg).trans (congrArg _ ((f.checks_crew hh ha hl hn 0 0).trans
      (copySupply_makes f.srcFits f.dstFits f.certain hf.2 hgather hroom)))
    exact ⟨_, _, supplied, tget_copyAccept .., rfl, rfl, members_joined .., st_joined rfl _⟩
  · have f := pass hf.1 hp unconditional
    have supplied := (bcopy hg).trans (congrArg _ ((f.checks_crew hh ha hl hn 0 0).trans
      (copySupply_joins f.srcFits f.dstFits f.certain hf.2 hgather hk hm)))
    exact ⟨_, _, supplied, tget_copyAccept .., List.length_append, members_joined .., st_joined hw _⟩
  · exact (exec_bcopy hs.1).trans (congrArg _ (copyBody_memory hs hm h₁ h₂ c₁ seen₁ c₂ seen₂ false false))
  · exact (exec_bcopyc hs.1).trans (congrArg _ (copyBody_memory hs hm h₁ h₂ c₁ seen₁ c₂ seen₂ true false))
  · exact (bcopy hg).trans (congrArg _ (copyChecks_malformed hb ..))
  · exact (bcopyc hg).trans (congrArg _ (copyChecks_malformed hb ..))

end Sys2Proof.Machine

/-! Matrix commands at issue: the checks that each passes or fails, and its entry into q0 (R296, R298, R299). -/

namespace Sys2Proof.Machine

/-- What holds a matrix command at issue: what holds the warp's later accesses, where the command accesses memory, else
a shape that the warp waits for (R50, R97, R174). -/
def mtxHeld (x : Here) (i : Instr) : Bool :=
  match mtxLayer i (mtxVals x.wp i) with
  | some base => memHeld x base
  | none => !x.wp.shapeWaits.isEmpty

/-- The commands that enter q0 are every matrix word but TCLAIM, CPOP and MSYNC (R298). -/
theorem exec_mtxCommand {w : Mtx} {i : Instr} (h : i ∈ [Instr.trel w, .tload w, .tloads w, .mma w, .mmasp w, .mloop w,
    .mdist w, .mtopk w, .czero w, .cload w, .cstore w]) (s : State) : exec i s = mtxWord i s := by
  simp only [List.mem_cons, List.not_mem_nil, or_false] at h
  rcases h with rfl | rfl | rfl | rfl | rfl | rfl | rfl | rfl | rfl | rfl | rfl <;> rfl

/-- What a command does after its checks (R298, R299). -/
def mtxGo (x : Here) (i : Instr) : State × MChk → State
  | (s, .busy) => s
  | (s, .trap cls sector) => faultAll s x cls sector
  | (s, .ok scales) => mtxPush s x i (mtxVals x.wp i) scales

/-- A command that nothing holds does what its checks say. -/
theorem mtxWord_runs {i : Instr} {s : State} {x : Here} {r : State × MChk} (runs : Runs i s x)
    (free : mtxHeld x i = false) (checked : mtxCheck s x i (mtxVals x.wp i) = r) :
    mtxWord i s = .next (mtxGo x i r) := by
  refine (word_runs runs rfl).trans (congrArg Host.Outcome.next ?_)
  refine (if_neg (Bool.eq_false_iff.1 free)).trans ?_
  rw [checked]
  obtain ⟨s', c⟩ := r
  cases c <;> rfl

/-- A unit that the block has not claimed, or has released, may not be named (R296, R299). -/
theorem mtxCheck_unclaimed {s : State} {x : Here} {i : Instr} {vals : List W32}
    (h : (mtxUnits vals i).all (nameable x.co x.wp.block) = false) : mtxCheck s x i vals = (s, .trap .prot 0) := by
  unfold mtxCheck
  rw [h]
  rfl

/-- A command that names no memory has no other check (R299). -/
theorem mtxCheck_claimed {w : Mtx} {i : Instr}
    (hi : i ∈ [Instr.trel w, .mma w, .mmasp w, .mdist w, .mtopk w, .czero w]) {s : State} {x : Here} {vals : List W32}
    (h : (mtxUnits vals i).all (nameable x.co x.wp.block) = true) :
    mtxCheck s x i vals = (s, .ok []) := by
  unfold mtxCheck
  rw [h]
  simp only [List.mem_cons, List.not_mem_nil, or_false] at hi
  rcases hi with rfl | rfl | rfl | rfl | rfl | rfl <;> rfl

/-- The command as it enters q0 (R298). -/
def mtxEntry (s : State) (x : Here) (i : Instr) (scales : List Nat) : QCmd :=
  { word := unitWord x.ws, vals := mtxVals x.wp i, warp := x.w, block := x.wp.block, age := x.wp.age, scales := scales,
    pc := x.p.pc, own := mtxOwn s x i (mtxVals x.wp i), after := x.co.nextOp }

/-- The numbers of the units that a command takes from its block (R296). -/
def unitsGone (vals : List W32) (i : Instr) : List Nat :=
  match i with
  | .trel _ => (mtxUnits vals i).map fun u => unitNo u.1 u.2
  | _ => []

/-- The core whose q0 the command has entered. -/
def withCommand (co : Core) (q : QCmd) (gone : List Nat) : Core :=
  { co with q0 := co.q0 ++ [q], releasing := gone.foldl sins co.releasing }

/-- A full q0 has the command wait at its word, as an engine push (R32, R298). -/
theorem mtxPush_full {s : State} {x : Here} (h : 16 ≤ (coreOf s x.core).q0.length) (i : Instr) (vals : List W32)
    (scales : List Nat) : mtxPush s x i vals scales = pushWait s x := if_pos h

/-- The machine once the command has entered q0: its path goes on, and the warp has pushed one more (R298, R314). -/
def mtxPushed (s : State) (x : Here) (i : Instr) (scales : List Nat) : State :=
  modWarp (modCore s x.core fun co => withCommand co (mtxEntry s x i scales) (unitsGone (mtxVals x.wp i) i)) x.core x.w
    fun y => retireW { y with mpushed := y.mpushed + 1 } x.sl x.ws

theorem mtxPush_enters {s : State} {x : Here} (h : (coreOf s x.core).q0.length < 16) (i : Instr) (scales : List Nat) :
    mtxPush s x i (mtxVals x.wp i) scales = mtxPushed s x i scales := if_neg (Nat.not_le.2 h)

/-! Units that are being released. -/

theorem mem_sins (t : List Nat) (m n : Nat) : m ∈ sins t n ↔ m = n ∨ m ∈ t := by
  induction t with
  | nil => simp [sins]
  | cons k t ih =>
    simp only [sins]
    split
    · simp
    · split
      · next h => simp [h]
      · rw [List.mem_cons, ih, List.mem_cons]
        exact or_left_comm

theorem mem_foldl_sins (ns t : List Nat) (m : Nat) : m ∈ ns.foldl sins t ↔ m ∈ ns ∨ m ∈ t := by
  induction ns generalizing t with
  | nil => simp
  | cons n ns ih =>
    rw [List.foldl_cons, ih, mem_sins, List.mem_cons]
    exact or_left_comm.trans or_assoc.symm

/-- A unit being released may not be named (R296). -/
theorem nameable_releasing {co : Core} {u : Bool × Nat} (h : unitNo u.1 u.2 ∈ co.releasing) (b : Nat) :
    nameable co b u = false := by
  simp [nameable, smem, h]

/-- Settles O31: each command is its checks and, when they pass, its push; a TREL's units are being released as it
enters. -/
theorem matrixCommandsEnterTheQueue : Obligations.MatrixCommandsEnterTheQueue := by
  unfold Obligations.MatrixCommandsEnterTheQueue
  intro w s s' x scales
  refine ⟨fun i hi runs free => ?_, fun i hi named => mtxCheck_claimed hi named, fun runs noShape room named u hu => ?_⟩
  · have free : mtxHeld x i = false := by
      unfold mtxHeld
      cases hl : mtxLayer i (mtxVals x.wp i) <;> simpa only [hl] using free
    have run {r : State × MChk} (checked : mtxCheck s x i (mtxVals x.wp i) = r) : exec i s = .next (mtxGo x i r) :=
      (exec_mtxCommand hi s).trans (mtxWord_runs runs free checked)
    refine ⟨fun foreign => ?_, fun checked full => ?_, fun checked room => ?_⟩
    · rw [run (mtxCheck_unclaimed foreign), mtxGo]
    · rw [run checked, mtxGo, mtxPush_full full, pushWait]
    · refine ⟨mtxPushed s' x i scales, mtxEntry s' x i scales, ?_, ?_, rfl, rfl, rfl, rfl, rfl, ?_, ?_, rfl⟩
      · rw [run checked, mtxGo, mtxPush_enters room]
      all_goals simp [mtxPushed, modWarp, withCommand]
  · have free : mtxHeld x (.trel w) = false := by
      show (!x.wp.shapeWaits.isEmpty) = false
      rw [noShape]; rfl
    have checked := mtxCheck_claimed (s := s) (x := x) (List.mem_cons_self ..) named
    have run := mtxWord_runs runs free checked
    rw [mtxGo, mtxPush_enters room] at run
    refine ⟨_, run, nameable_releasing ?_ _⟩
    simp only [mtxPushed, modWarp, coreOf_modCore, withCommand]
    exact (mem_foldl_sins ..).2 (.inl (List.mem_map_of_mem hu))

end Sys2Proof.Machine

/-! TCLAIM, CPOP and MSYNC: claims of units, entries taken from a queue, and the status of a warp's commands
(R296, R313, R314). -/

namespace Sys2Proof.Machine

/-! What a retiring word leaves of the vector registers and of the matrix status. -/

@[simp] theorem vget_retireW (w : Warp) (sl : Slot) (ws : List W64) (n l : Nat) :
    vget (retireW w sl ws) n l = vget w n l := by
  obtain ⟨_, _, _, _, _, _, _, h⟩ := retireW_keeps w sl ws
  rw [h]
  rfl

@[simp] theorem retireW_mstatus (w : Warp) (sl : Slot) (ws : List W64) : (retireW w sl ws).mstatus = w.mstatus := by
  obtain ⟨_, _, _, _, _, _, _, h⟩ := retireW_keeps w sl ws
  rw [h]

@[simp] theorem retireW_msyncs (w : Warp) (sl : Slot) (ws : List W64) : (retireW w sl ws).msyncs = w.msyncs := by
  obtain ⟨_, _, _, _, _, _, _, h⟩ := retireW_keeps w sl ws
  rw [h]

/-! Claims (R296). -/

/-- TCLAIM with a unit that is claimed already takes none. -/
theorem exec_tclaim_none {w : Mtx} {s : State} {x : Here} (runs : Runs (.tclaim w) s x)
    (taken : ((unitsFrom (w.opt == 1) w.b.toNat w.n.toNat).all fun u => (unitOwner x.co u.1 u.2).isNone) = false) :
    exec (.tclaim w) s = .next (retire s x (sset x.wp w.d.toNat 0)) := by
  show execTclaim w s = _
  refine (word_runs runs rfl).trans (congrArg Host.Outcome.next ?_)
  simp only [taken, Bool.false_eq_true, if_false]
  obtain ⟨-, hw, -⟩ := here_warp runs.stands
  exact retire_read hw fun y => sset y w.d.toNat 0

/-- With all of them free it takes them all. -/
theorem exec_tclaim_all {w : Mtx} {s : State} {x : Here} (runs : Runs (.tclaim w) s x)
    (free : ((unitsFrom (w.opt == 1) w.b.toNat w.n.toNat).all fun u => (unitOwner x.co u.1 u.2).isNone) = true) :
    exec (.tclaim w) s = .next (modWarp
      (modCore s x.core fun co => claimUnits co x.wp.block (unitsFrom (w.opt == 1) w.b.toNat w.n.toNat)) x.core x.w
      fun y => retireW (sset y w.d.toNat 1) x.sl x.ws) := by
  show execTclaim w s = _
  refine (word_runs runs rfl).trans (congrArg Host.Outcome.next ?_)
  simp only [free, if_true]

/-- The unit is the block's. -/
def claimUnit (b : Nat) (co : Core) (u : Bool × Nat) : Core :=
  if u.1 then { co with accOwner := tins co.accOwner u.2 b } else { co with slotOwner := tins co.slotOwner u.2 b }

theorem claimUnit_warps (b : Nat) (co : Core) (u : Bool × Nat) : (claimUnit b co u).warps = co.warps := by
  unfold claimUnit; split <;> rfl

/-- A claim of a unit leaves the owners of the others. -/
theorem unitOwner_claimUnit (b : Nat) (co : Core) (u v : Bool × Nat) :
    unitOwner (claimUnit b co u) v.1 v.2 = if v = u then some b else unitOwner co v.1 v.2 := by
  obtain ⟨tile, n⟩ := u
  obtain ⟨tile', m⟩ := v
  by_cases h : m = n
  · subst h
    cases tile <;> cases tile' <;> simp [claimUnit, unitOwner]
  · cases tile <;> cases tile' <;> simp [claimUnit, unitOwner, h, tget_tins_ne _ _ h]

theorem claimUnits_warps (co : Core) (b : Nat) (us : List (Bool × Nat)) : (claimUnits co b us).warps = co.warps :=
  foldl_keeps Core.warps (claimUnit_warps b) us co

theorem unitOwner_claimUnits (co : Core) (b : Nat) (us : List (Bool × Nat)) (v : Bool × Nat) :
    unitOwner (claimUnits co b us) v.1 v.2 = if v ∈ us then some b else unitOwner co v.1 v.2 := by
  induction us generalizing co with
  | nil => simp [claimUnits]
  | cons u us ih =>
    have step : claimUnits co b (u :: us) = claimUnits (claimUnit b co u) b us := rfl
    rw [step, ih, unitOwner_claimUnit]
    by_cases hv : v ∈ us <;> simp [hv]

/-! Entries taken from a queue (R313). -/

/-- Lane values written over some lanes, with any poison. -/
theorem vget_foldl_vset (ls : List Nat) (w : Warp) (d : Nat) (f : Nat → W32) (bad : Nat → Bool) (l : Nat) :
    vget (ls.foldl (fun w l => vset w d l (f l) (bad l)) w) d l = if l ∈ ls then f l else vget w d l := by
  induction ls generalizing w with
  | nil => simp
  | cons k ls ih =>
    rw [List.foldl_cons, ih]
    by_cases hk : l = k
    · subst hk; simp
    · rw [vget_vset_ne _ _ _ (by omega)]
      simp [hk]

theorem mem_setBits {n : Nat} (x : BitVec n) (i : Nat) : i ∈ setBits x ↔ x.getLsbD i = true := by
  rw [setBits, List.mem_filter, List.mem_range]
  exact ⟨And.right, fun h => ⟨BitVec.lt_of_getLsbD h, h⟩⟩

/-- The executing lanes take their words of the entry, and the others keep theirs. -/
theorem vget_popInto (w : Warp) (d : Nat) (exec : W32) (e : QEnt) (l : Nat) : vget (popInto w d exec e) d l =
    if exec.getLsbD l then e.data.extractLsb' (32 * l) 32 else vget w d l := by
  refine (vget_foldl_vset ..).trans ?_
  simp only [mem_setBits]

/-- A pop of an entry that is there takes it, and its word goes on. -/
theorem popWord_takes {s : State} {x : Here} {q : Nat} {e : QEnt} (lanes : x.exec ≠ 0) (head : popHead x.co q = some e)
    (own : q ≠ 9) (d : Nat) : popWord s x q d false = modWarp (modCore s x.core fun co => popRest co q) x.core x.w
      fun y => retireW (popInto y d x.exec e) x.sl x.ws := by
  simp only [popWord, if_neg lanes, head, if_neg own, Bool.false_eq_true, if_false]

theorem popRest_warps (co : Core) (q : Nat) : (popRest co q).warps = co.warps := by
  unfold popRest
  split
  · rfl
  · split <;> rfl

/-- CPOP of one of its two queues is a pop (R313). -/
theorem exec_cpop {w : Mtx} {s : State} {x : Here} (runs : Runs (.cpop w) s x) (hn : w.n = 1 ∨ w.n = 2) :
    exec (.cpop w) s = .next (popWord s x w.n.toNat w.d.toNat false) := by
  show execCpop w s = _
  refine (word_runs runs rfl).trans (congrArg Host.Outcome.next (if_pos ?_))
  simpa using hn

theorem exec_cpop_foreign {w : Mtx} {s : State} {x : Here} (runs : Runs (.cpop w) s x) (h₁ : w.n ≠ 1) (h₂ : w.n ≠ 2) :
    exec (.cpop w) s = .next (faultAll s x .queue) := by
  show execCpop w s = _
  refine (word_runs runs rfl).trans (congrArg Host.Outcome.next (if_neg ?_))
  simpa using And.intro h₁ h₂

/-- CPOP of an entry that is there leaves it in the register and takes it off its queue. -/
theorem cpop_takes {w : Mtx} {s : State} {x : Here} {e : QEnt} (runs : Runs (.cpop w) s x) (lanes : x.exec ≠ 0)
    (hn : w.n = 1 ∨ w.n = 2) (head : popHead x.co w.n.toNat = some e) : ∃ t y, exec (.cpop w) s = .next t ∧
      tget (coreOf t x.core).warps x.w = some y ∧
      (∀ l, l < 32 → vget y w.d.toNat l =
        if x.exec.getLsbD l then e.data.extractLsb' (32 * l) 32 else vget x.wp w.d.toNat l) ∧
      (coreOf t x.core).q1 = (if w.n = 1 then x.co.q1.drop 1 else x.co.q1) ∧
      (coreOf t x.core).q2 = (if w.n = 1 then x.co.q2 else x.co.q2.drop 1) := by
  obtain ⟨hco, hw, -⟩ := here_warp runs.stands
  have own : w.n.toNat ≠ 9 := by rcases hn with h | h <;> rw [h] <;> decide
  refine ⟨_, retireW (popInto x.wp w.d.toNat x.exec e) x.sl x.ws,
    (exec_cpop runs hn).trans (congrArg Host.Outcome.next (popWord_takes lanes head own _)), ?_, fun l _ => ?_, ?_⟩
  · rw [warp_modWarp, coreOf_modCore, popRest_warps, hw]
    rfl
  · rw [vget_retireW, vget_popInto]
  · rcases hn with h | h <;> simp [modWarp, popRest, hco, h]

/-! MSYNC (R314). -/

/-- MSYNC's warp as it leaves it to its commands' ends: it waits for all that it has pushed. -/
def syncing (w : Warp) (d : Nat) : Warp :=
  { w with msyncs := w.msyncs ++ [(d, w.mpushed)], pend := sins w.pend (256 + d) }

theorem exec_msync {w : Mtx} {s : State} {x : Here} (runs : Runs (.msync w) s x) :
    exec (.msync w) s = .next (retire s x (settleSyncs (syncing x.wp w.d.toNat))) := by
  show execMsync w s = _
  exact word_runs runs rfl

/-- The only MSYNC of a warp takes the status once all its commands are complete. -/
theorem settleSyncs_complete {w : Warp} {d n : Nat} (h : w.msyncs = [(d, n)]) (hn : n ≤ w.mdone) :
    settleSyncs w = { sset w d w.mstatus with mstatus := 0, pend := sdel w.pend (256 + d), msyncs := [] } := by
  simp only [settleSyncs, h, List.foldl_cons, List.foldl_nil, if_pos hn]
  rfl

theorem settleSyncs_waits {w : Warp} {d n : Nat} (h : w.msyncs = [(d, n)]) (hn : w.mdone < n) : settleSyncs w = w := by
  simp only [settleSyncs, h, List.foldl_cons, List.foldl_nil, if_neg (Nat.not_le.2 hn)]

/-- Settles O32: each word is read off what it leaves: the owners of the units, the queue and the register, or the MSYNC
that the warp's commands still owe. -/
theorem claimPopSync : Obligations.ClaimPopSync := by
  unfold Obligations.ClaimPopSync
  intro w s x us
  refine ⟨fun runs taken => exec_tclaim_none runs ?_, fun runs free => ?_, fun e runs lanes head => ?_,
    exec_cpop_foreign, fun runs first complete => ?_, fun runs first due => ?_⟩
  · obtain ⟨u, hu, owned⟩ := taken
    exact List.all_eq_false.2 ⟨u, hu, by simpa using owned⟩
  · obtain ⟨-, hw, -⟩ := here_warp runs.stands
    refine ⟨_, retireW (sset x.wp w.d.toNat 1) x.sl x.ws,
      exec_tclaim_all runs (List.all_eq_true.2 fun u hu => by simpa using free u hu), fun u hu => ?_, ?_, by simp⟩
    · refine Eq.trans ?_ ((unitOwner_claimUnits (coreOf s x.core) x.wp.block us u).trans (if_pos hu))
      simp [modWarp, unitOwner, us]
    · rw [warp_modWarp, coreOf_modCore, claimUnits_warps, hw]
      rfl
  · rcases head with ⟨hn, head⟩ | ⟨hn, head⟩
    · exact cpop_takes runs lanes (.inl hn) (by rw [hn]; exact head)
    · exact cpop_takes runs lanes (.inr hn) (by rw [hn]; exact head)
  · have only : (syncing x.wp w.d.toNat).msyncs = [(w.d.toNat, x.wp.mpushed)] := by simp [syncing, first]
    obtain ⟨-, hw, -⟩ := here_warp runs.stands
    have run := exec_msync runs
    rw [settleSyncs_complete only complete] at run
    refine ⟨_, _, run, warp_retire s x _ _ hw, ?_, by simp, by simp⟩
    rw [sget_retireW]
    exact sget_sset ..
  · have only : (syncing x.wp w.d.toNat).msyncs = [(w.d.toNat, x.wp.mpushed)] := by simp [syncing, first]
    obtain ⟨-, hw, -⟩ := here_warp runs.stands
    have run := exec_msync runs
    rw [settleSyncs_waits only due] at run
    refine ⟨_, _, run, warp_retire s x _ _ hw, by rw [retireW_msyncs, only], ?_⟩
    rw [retireW_pend]
    exact contains_sins ..

end Sys2Proof.Machine

/-! What the matrix engine writes into its accumulators: tiles cleared and INT8 products summed (R83, R304, R312). -/

namespace Sys2Proof.Machine

/-! Removing a range of keys. -/

/-- What lies in the range is not there, and the rest is as it was. -/
theorem tget_tcut {α : Type} (t : List (Nat × α)) (lo hi n : Nat) :
    tget (tcut t lo hi) n = if lo ≤ n ∧ n < hi then none else tget t n := by
  induction t with
  | nil => simp [tcut]
  | cons p t ih =>
    obtain ⟨k, v⟩ := p
    simp only [tcut]
    by_cases hlo : k < lo
    · rw [if_pos hlo, tget_cons, tget_cons, ih]
      by_cases hn : lo ≤ n ∧ n < hi
      · rw [if_pos hn, if_pos hn, if_neg (by omega), ite_self]
      · rw [if_neg hn, if_neg hn]
    · rw [if_neg hlo]
      by_cases hhi : k < hi
      · obtain ⟨h, rfl⟩ := Nat.exists_eq_add_one_of_ne_zero (Nat.ne_of_gt (Nat.zero_lt_of_lt hhi))
        rw [if_pos hhi]
        simp only [Nat.lt_succ_iff]
        by_cases hn : n ≤ h
        · rw [tget_dropWhile_le t hn]
          split
          · rfl
          · rw [tget_cons, if_neg (by omega), if_pos (by omega)]
        · rw [tget_dropWhile t (Nat.not_le.1 hn), if_neg (by omega), tget_cons, if_neg (by omega), if_neg (by omega)]
      · rw [if_neg hhi]
        split
        · rw [tget_cons, if_neg (by omega), if_pos (by omega)]
        · rfl

/-! Elements of accumulator tiles (R294). -/

theorem foldN_succ {σ : Type} (n : Nat) (f : Nat → σ → σ) (s : σ) : foldN (n + 1) f s = f n (foldN n f s) := by
  rw [foldN, List.range_succ, List.foldl_append]
  rfl

/-- Elements of a tile stand under keys of their own. -/
theorem accKey_inj {c m n c' m' n' : Nat} (hm : m < 64) (hn : n < 64) (hm' : m' < 64) (hn' : n' < 64) :
    accKey c' m' n' = accKey c m n ↔ c' = c ∧ m' = m ∧ n' = n := by
  simp only [accKey]
  omega

theorem accGet_congr {co co' : Core} (h : co'.acc = co.acc) (c m n : Nat) : accGet co' c m n = accGet co c m n := by
  simp only [accGet, h]

theorem accGet_accPut (co : Core) {c m n c' m' n' : Nat} (hm : m < 64) (hn : n < 64) (hm' : m' < 64) (hn' : n' < 64)
    (x : W32) (bad : Bool) : accGet (accPut co c m n x bad) c' m' n' =
      if c' = c ∧ m' = m ∧ n' = n then x else accGet co c' m' n' := by
  simp only [accGet, accPut, ← accKey_inj hm hn hm' hn']
  split
  · next h => rw [h, tgetD_tput]
  · next h => exact tgetD_tput_ne _ _ _ _ h

/-- The first elements of a row, written one after the other. -/
theorem accGet_row (co : Core) (c : Nat) {m : Nat} (hm : m < 64) (f : Nat → W32 × Bool) {k : Nat} (hk : k ≤ 64)
    {c' m' n' : Nat} (hm' : m' < 64) (hn' : n' < 64) :
    accGet (foldN k (fun n co => accPut co c m n (f n).1 (f n).2) co) c' m' n' =
      if c' = c ∧ m' = m ∧ n' < k then (f n').1 else accGet co c' m' n' := by
  induction k with
  | zero => simp [foldN]
  | succ k ih =>
    rw [foldN_succ, accGet_accPut _ hm (by omega) hm' hn', ih (by omega)]
    by_cases hn : n' = k
    · subst hn
      by_cases h : c' = c ∧ m' = m <;> simp [h]
    · have : n' < k + 1 ↔ n' < k := by omega
      simp [hn, this]

/-- The first rows of a tile. -/
theorem accGet_rows (co : Core) (c : Nat) (f : Nat → Nat → W32 × Bool) {k : Nat} (hk : k ≤ 64) {c' m' n' : Nat}
    (hm' : m' < 64) (hn' : n' < 64) :
    accGet (foldN k (fun m co => foldN 64 (fun n co => accPut co c m n (f m n).1 (f m n).2) co) co) c' m' n' =
      if c' = c ∧ m' < k then (f m' n').1 else accGet co c' m' n' := by
  induction k with
  | zero => simp [foldN]
  | succ k ih =>
    rw [foldN_succ, accGet_row _ _ (by omega) _ (Nat.le_refl _) hm' hn', ih (by omega)]
    by_cases hm : m' = k
    · subst hm
      simp [hn']
    · have : m' < k + 1 ↔ m' < k := by omega
      simp [hm, this]

/-- A change of every element of a tile. -/
theorem accGet_accMap (co : Core) (c : Nat) (f : Nat → Nat → W32 × Bool) {c' m n : Nat} (hm : m < 64) (hn : n < 64) :
    accGet (accMap co c f) c' m n = if c' = c then (f m n).1 else accGet co c' m n := by
  rw [accMap, accGet_rows co c f (Nat.le_refl _) hm hn]
  simp [hm]

/-- It leaves of a core what a write of one element leaves. -/
theorem accMap_keeps {β : Type} (p : Core → β) (hp : ∀ co c m n x bad, p (accPut co c m n x bad) = p co) (co : Core)
    (c : Nat) (f : Nat → Nat → W32 × Bool) : p (accMap co c f) = p co :=
  foldN_keeps p (fun _ co => foldN_keeps p (fun _ co => hp co ..) _ co) _ co

/-! CZERO (R312). -/

theorem accGet_clearTile (co : Core) (c : Nat) {c' m n : Nat} (hm : m < 64) (hn : n < 64) :
    accGet (clearTile co c) c' m n = if c' = c then 0 else accGet co c' m n := by
  have inside : 4096 * c ≤ accKey c' m n ∧ accKey c' m n < 4096 * c + 4096 ↔ c' = c := by
    simp only [accKey]
    omega
  simp only [accGet, clearTile, tgetD, tget_tcut, inside]
  split <;> rfl

/-- The tiles that a CZERO names, cleared (R312). -/
def clearTiles (d n : Nat) (co : Core) : Core := foldN n (fun k co => clearTile co (d + k)) co

theorem accGet_clearTiles (co : Core) (d k : Nat) {c m n : Nat} (hm : m < 64) (hn : n < 64) :
    accGet (clearTiles d k co) c m n = if d ≤ c ∧ c < d + k then 0 else accGet co c m n := by
  induction k with
  | zero =>
    rw [if_neg (by omega)]
    rfl
  | succ k ih =>
    rw [clearTiles, foldN_succ, accGet_clearTile _ _ hm hn]
    by_cases hc : c = d + k
    · rw [if_pos hc, if_pos (by omega)]
    · have : d ≤ c ∧ c < d + (k + 1) ↔ d ≤ c ∧ c < d + k := by omega
      rw [if_neg hc]
      simp only [this]
      exact ih

theorem clearTiles_keeps {β : Type} (p : Core → β) (hp : ∀ co c, p (clearTile co c) = p co) (d n : Nat) (co : Core) :
    p (clearTiles d n co) = p co :=
  foldN_keeps p (fun _ co => hp co _) n co

/-! An INT8 multiply (R83, R304). -/

theorem sgn_toNat {w : Nat} (x : BitVec w) : sgn w x.toNat = x.toInt := by
  have cast := natCast_two_pow w
  rw [sgn_of_lt x.isLt, BitVec.toInt_eq_toNat_cond]
  split <;> split <;> omega

/-- Sums of products are clamped once, at their end. -/
theorem intSum_eq (c : W32) (ts : List Int) : intSum c ts = low32 (clamp32 .i32 (c.toInt + ts.sum)) := by
  have total : ts.foldl (· + ·) c.toInt = c.toInt + ts.sum := by
    rw [List.sum_eq_foldl, ← List.foldl_assoc (α := Int) (op := (· + ·)), Int.add_zero]
  rw [intSum, ofNat_wrapN, sgn_toNat, total, clampTy_clamp32 (by simp [tyInt32])]
  rfl

theorem tileOf_range {α β : Type} (k l : Nat) (a : Nat → α) (b : Nat → β) (f : Nat → Nat → α → β → W32) :
    tileOf ((List.range k).map a) ((List.range l).map b) f =
      (List.range k).map fun m => (List.range l).map fun n => f m n (a m) (b n) := by
  have paired {γ : Type} (n : Nat) (g : Nat → γ) :
      (List.range ((List.range n).map g).length).zip ((List.range n).map g) = (List.range n).map fun i => (i, g i) := by
    rw [List.length_map, List.length_range, List.zip_map_right, List.zip_eq_zipWith, List.zipWith_self, List.map_map]
    rfl
  simp only [tileOf, paired, List.map_map]
  rfl

theorem getD_map_range {α : Type} (f : Nat → α) {i n : Nat} (h : i < n) (d : α) :
    ((List.range n).map f).getD i d = f i := by
  simp [h]

/-- The sum of the 64 products of a row and a row of two slots of signed bytes (R304). -/
def int8Dot (co : Core) (ta tb m n : Nat) : Int := ((List.range 64).map fun k =>
  (BitVec.ofNat 8 (slotByte co ta (64 * m + k))).toInt * (BitVec.ofNat 8 (slotByte co tb (64 * n + k))).toInt).sum

theorem sgn_slotByte (co : Core) (t off : Nat) :
    sgn 8 (slotByte co t off) = (BitVec.ofNat 8 (slotByte co t off)).toInt := by
  rw [slotByte, sgn_toNat, BitVec.ofNat_toNat, BitVec.setWidth_eq]

/-- A multiply writes the elements of its tile alone. -/
theorem accMul_keeps {β : Type} (p : Core → β) (hp : ∀ co c m n x bad, p (accPut co c m n x bad) = p co) (co : Core)
    (dist : Bool) (ty c ta tb : Nat) : p (accMul co dist ty c ta tb).1 = p co := by
  unfold accMul
  dsimp only
  exact accMap_keeps p hp co c _

/-- An INT8 multiply adds the products to each element of its tile. -/
theorem accGet_accMul_int8 (co : Core) (c ta tb : Nat) {c' m n : Nat} (hm : m < 64) (hn : n < 64) :
    accGet (accMul co false 0 c ta tb).1 c' m n =
      if c' = c then low32 (clamp32 .i32 ((accGet co c' m n).toInt + int8Dot co ta tb m n)) else accGet co c' m n := by
  unfold accMul
  dsimp only
  rw [accGet_accMap co c _ hm hn]
  refine ite_congr rfl (fun hc => ?_) fun _ => rfl
  subst hc
  rw [if_pos rfl, tileOf_range, getD_map_range _ hm, getD_map_range _ hn, intSum_eq, List.zipWith_map,
    List.zipWith_self]
  simp only [sgn_slotByte, Bool.false_eq_true, if_false]
  rfl

end Sys2Proof.Machine

/-! The matrix engine: how it takes the oldest command of q0 or goes on with one, and what the end of a command leaves
(R298, R300, R304, R314). -/

namespace Sys2Proof.Machine

/-! The command that the engine takes (R298). -/

theorem exec_enginePerform {s : State} {core : Nat} (hc : core < 1024) :
    exec (.enginePerform core) s = .next (engStep s core) := by
  show execEnginePerform core s = _
  have wf : (Instr.enginePerform core).wf = true := decide_eq_true hc
  exact eventIf_true wf s fun s => engStep s core

/-- The machine without the head of q0. -/
def commandTaken (s : State) (core : Nat) (rest : List QCmd) : State := modCore s core fun co => { co with q0 := rest }

/-- The core runs, with these as its command in progress and its q0. -/
structure EngineAt (s : State) (core : Nat) (cmd : Option (QCmd × Nat)) (q0 : List QCmd) : Prop where
  inRange : core < 1024
  ctx : (coreOf s core).ctx.isSome = true
  stopped : (coreOf s core).stopped = false
  cmd : (coreOf s core).cmd = cmd
  q0 : (coreOf s core).q0 = q0

theorem EngineAt.present {s : State} {core : Nat} {cmd : Option (QCmd × Nat)} {q0 : List QCmd}
    (e : EngineAt s core cmd q0) : ((coreOf s core).ctx.isNone || decide (core ≥ 1024)) = false := by
  rw [← Option.not_isSome, e.ctx]
  simpa using e.inRange

/-- With nothing in progress the engine takes the oldest command of q0, and discards or performs it (R298, R300). -/
theorem EngineAt.exec_takes {s : State} {core : Nat} {q : QCmd} {rest : List QCmd}
    (e : EngineAt s core none (q :: rest)) (after : afterMwait s core q = false) : exec (.enginePerform core) s = .next
      (if discarded s core q then engFinish (commandTaken s core rest) core q
       else engRun (commandTaken s core rest) core q 0) := by
  rw [exec_enginePerform e.inRange, engStep]
  simp only [e.present, e.cmd, e.q0, e.stopped, after, Bool.or_self, Bool.false_eq_true, if_false]
  rfl

theorem EngineAt.exec_resumes {s : State} {core p : Nat} {q : QCmd} {q0 : List QCmd}
    (e : EngineAt s core (some (q, p)) q0) : exec (.enginePerform core) s = .next (engRun s core q p) := by
  rw [exec_enginePerform e.inRange, engStep]
  simp only [e.present, e.cmd, e.stopped, Bool.false_and, Bool.false_eq_true, if_false]

/-- Taking a command leaves what its accesses wait for (R315). -/
theorem engReady_commandTaken (s : State) (core : Nat) (rest : List QCmd) (q : QCmd) :
    engReady (commandTaken s core rest) core q = engReady s core q := by
  simp [engReady, allReqs, wcReqs, portReqs, homeReqs, commandTaken]

/-- A command that may go on and comes to its end is complete. -/
theorem engRun_done {s t : State} {core p : Nat} {q : QCmd} (ready : q.begun = true ∨ engReady s core q = true)
    (done : engDo s core q p = .done t) : engRun s core q p = engFinish t core q := by
  have go : (!q.begun && !engReady s core q) = false := by
    rcases ready with h | h <;> simp [h]
  simp only [engRun, go, done, Bool.false_eq_true, if_false]

/-- A command that accesses nothing waits for no access and no MWAIT (R230, R315). -/
theorem ready_of_layer {q : QCmd} (h : cmdLayer q = none) (s : State) (core : Nat) :
    engReady s core q = true ∧ afterMwait s core q = false := by
  simp [engReady, afterMwait, h]

theorem cmdLayer_of_decode {q : QCmd} {i : Instr} {k : Nat} (h : decode [q.word] = .ok (i, k)) :
    cmdLayer q = mtxLayer i q.vals := by
  unfold cmdLayer
  rw [h]

/-- A command that is ready and done in one part is complete in one step. -/
theorem EngineAt.exec_done {s u : State} {core : Nat} {q : QCmd} {rest : List QCmd}
    (e : EngineAt s core none (q :: rest)) (live : discarded s core q = false) (ready : engReady s core q = true)
    (after : afterMwait s core q = false) (done : engDo (commandTaken s core rest) core q 0 = .done u) :
    exec (.enginePerform core) s = .next (engFinish u core q) := by
  rw [e.exec_takes after, live, if_neg Bool.false_ne_true,
    engRun_done (.inr ((engReady_commandTaken ..).trans ready)) done]

/-- So is one that accesses nothing and is done in one part. -/
theorem EngineAt.exec_plain {s u : State} {core k : Nat} {q : QCmd} {rest : List QCmd} {i : Instr}
    (e : EngineAt s core none (q :: rest)) (live : discarded s core q = false) (decoded : decode [q.word] = .ok (i, k))
    (layer : mtxLayer i q.vals = none) (done : engDo (commandTaken s core rest) core q 0 = .done u) :
    exec (.enginePerform core) s = .next (engFinish u core q) :=
  have ⟨ready, after⟩ := ready_of_layer ((cmdLayer_of_decode decoded).trans layer) s core
  e.exec_done live ready after done

/-! What the end of a command leaves (R314). -/

/-- A core but for its warps. -/
def besideWarps (co : Core) : Core := { co with warps := [] }

theorem besideWarps_modWarp (s : State) (c w : Nat) (f : Warp → Warp) (d : Nat) :
    besideWarps (coreOf (modWarp s c w f) d) = besideWarps (coreOf s d) := by
  by_cases h : d = c
  · subst h
    rw [modWarp, coreOf_modCore]
    rfl
  · rw [modWarp, coreOf_modCore_ne _ _ h]

/-- What a change of a warp keeps of it, it keeps of every warp. -/
theorem warpPart_modWarp {β : Type} (p : Warp → β) {f : Warp → Warp} (hf : ∀ y, p (f y) = p y) (s : State)
    (c w d v : Nat) :
    (tget (coreOf (modWarp s c w f) d).warps v).map p = (tget (coreOf s d).warps v).map p := by
  by_cases h : d = c
  · subst h
    by_cases hv : v = w
    · subst hv
      rw [warp_modWarp, Option.map_map]
      exact congrArg (Option.map · _) (funext hf)
    · simp [modWarp, tget_tmod_ne _ _ hv]
  · rw [modWarp, coreOf_modCore_ne _ _ h]

/-- The end of waits for copies keeps what retiring a word keeps. -/
theorem drainDone_keeps {β : Type} (p : State → β)
    (hp : ∀ s c w sl, p (modWarp s c w fun y => retireW y sl (unitAt (pathOf y sl))) = p s) (s : State) :
    p (drainDone s) = p s := by
  unfold drainDone
  refine foldl_keeps p (fun s x => foldl_keeps p (fun s sl => ?_) _ _) _ _
  split
  · exact hp ..
  · rfl

/-- A warp's vector and mask registers, and how many of its commands are complete. -/
def warpWork (y : Warp) : Nat × Tab W32 × Tab W32 := (y.mdone, y.v, y.m)

theorem warpWork_retireW (w : Warp) (sl : Slot) (ws : List W64) : warpWork (retireW w sl ws) = warpWork w := by
  obtain ⟨_, _, _, _, _, _, _, h⟩ := retireW_keeps w sl ws
  rw [h]
  rfl

/-- MSYNCs that are met write scalars alone (R314). -/
theorem warpWork_settleSyncs (w : Warp) : warpWork (settleSyncs w) = warpWork w :=
  foldl_keeps warpWork (fun w m => by split <;> rfl) w.msyncs w

/-- The engine has let go of the command. -/
def commandEnded (s : State) (core : Nat) : State :=
  modCore (dropAnswers s (engWho s core)) core fun co => { co with cmd := none, cmdsDone := co.cmdsDone + 1 }

theorem engFinish_eq (s : State) (core : Nat) (q : QCmd) : engFinish s core q =
    drainDone (mineQ (commandEnded s core) core q fun w => settleSyncs { w with mdone := w.mdone + 1 }) := rfl

theorem coreOf_commandEnded (s : State) (core : Nat) : coreOf (commandEnded s core) core =
    { coreOf s core with cmd := none, cmdsDone := (coreOf s core).cmdsDone + 1 } := by
  rw [commandEnded, coreOf_modCore, coreOf_congr (s := s) (by rw [dropAnswers_eq])]

theorem engFinish_mem (s : State) (core : Nat) (q : QCmd) : (engFinish s core q).mem = s.mem := by
  rw [engFinish_eq, drainDone_keeps State.mem fun _ _ _ _ => rfl]
  show (dropAnswers s _).mem = s.mem
  rw [dropAnswers_eq]

/-- The end of a command leaves its core as it was, but for the command and the warps. -/
theorem besideWarps_engFinish (s : State) (core : Nat) (q : QCmd) : besideWarps (coreOf (engFinish s core q) core) =
    { besideWarps (coreOf s core) with cmd := none, cmdsDone := (coreOf s core).cmdsDone + 1 } := by
  rw [engFinish_eq, drainDone_keeps (fun s => besideWarps (coreOf s core)) fun _ _ _ _ => besideWarps_modWarp ..,
    mineQ, besideWarps_modWarp, coreOf_commandEnded]
  rfl

/-- It counts for the command's warp, and leaves the warp's vector and mask registers. -/
theorem warp_engFinish {s : State} {core : Nat} {q : QCmd} {y : Warp}
    (hy : tget (coreOf s core).warps q.warp = some y) (ha : y.age = q.age) : ∃ y',
      tget (coreOf (engFinish s core q) core).warps q.warp = some y' ∧ y'.mdone = y.mdone + 1 ∧ y'.v = y.v ∧
        y'.m = y.m := by
  have work : (tget (coreOf (engFinish s core q) core).warps q.warp).map warpWork = some (y.mdone + 1, y.v, y.m) := by
    rw [engFinish_eq, drainDone_keeps (fun s => (tget (coreOf s core).warps q.warp).map warpWork)
      fun _ _ _ _ => warpPart_modWarp warpWork (fun _ => warpWork_retireW ..) .., mineQ, warp_modWarp,
      coreOf_commandEnded]
    simp only [hy, Option.map_some, if_pos ha, warpWork_settleSyncs]
    rfl
  obtain ⟨y', hy', parts⟩ := Option.map_eq_some_iff.1 work
  simp only [warpWork, Prod.mk.injEq] at parts
  exact ⟨y', hy', parts⟩

/-- A command's work, before it counts: its core has come from s with the rest of q0, and its slots, memory and the
warp's registers and counts as they were. -/
structure Worked (s u : State) (core : Nat) (q : QCmd) (rest : List QCmd) (y : Warp) : Prop where
  q0 : (coreOf u core).q0 = rest
  slots : (coreOf u core).slots = (coreOf s core).slots
  mem : u.mem = s.mem
  warp : (tget (coreOf u core).warps q.warp).map (fun z => (z.age, warpWork z)) = some (y.age, warpWork y)

/-- A command whose work is done ends with nothing in progress and one more of its warp's commands complete. -/
theorem Worked.ends {s u : State} {core : Nat} {q : QCmd} {rest : List QCmd} {y : Warp} (h : Worked s u core q rest y)
    (ha : y.age = q.age) (run : exec (.enginePerform core) s = .next (engFinish u core q)) {acc : Nat → Nat → Nat → W32}
    (sums : ∀ c m n, m < 64 → n < 64 → accGet (coreOf u core) c m n = acc c m n) :
    ∃ t y', exec (.enginePerform core) s = .next t ∧ (coreOf t core).q0 = rest ∧ (coreOf t core).cmd = none ∧
      (coreOf t core).slots = (coreOf s core).slots ∧ t.mem = s.mem ∧ tget (coreOf t core).warps q.warp = some y' ∧
      y'.mdone = y.mdone + 1 ∧ y'.v = y.v ∧ y'.m = y.m ∧
      ∀ c m n, m < 64 → n < 64 → accGet (coreOf t core) c m n = acc c m n := by
  obtain ⟨z, hz, parts⟩ := Option.map_eq_some_iff.1 h.warp
  simp only [warpWork, Prod.mk.injEq] at parts
  obtain ⟨age, mdone, v, m⟩ := parts
  obtain ⟨y', hy', hd, hv, hm⟩ := warp_engFinish hz (age.trans ha)
  have kept := besideWarps_engFinish u core q
  refine ⟨_, y', run, (congrArg Core.q0 kept).trans h.q0, (congrArg Core.cmd kept :),
    (congrArg Core.slots kept).trans h.slots, (engFinish_mem ..).trans h.mem, hy', hd.trans (by rw [mdone]), hv.trans v,
    hm.trans m, fun c m n hm hn => ?_⟩
  exact (accGet_congr (congrArg Core.acc kept) c m n).trans (sums c m n hm hn)

/-! What each command does to its core. -/

theorem worked_taken {s : State} {core : Nat} {q : QCmd} {y : Warp} (hy : tget (coreOf s core).warps q.warp = some y)
    (rest : List QCmd) : Worked s (commandTaken s core rest) core q rest y := by
  refine ⟨?_, ?_, rfl, ?_⟩ <;> rw [commandTaken, coreOf_modCore]
  rw [hy]
  rfl

/-- A change of the accumulators is work that leaves the rest. -/
theorem Worked.after_modCore {s u : State} {core : Nat} {q : QCmd} {rest : List QCmd} {y : Warp} {f : Core → Core}
    (h : Worked s u core q rest y) (hq : ∀ co, (f co).q0 = co.q0) (hs : ∀ co, (f co).slots = co.slots)
    (hw : ∀ co, (f co).warps = co.warps) : Worked s (modCore u core f) core q rest y := by
  refine ⟨?_, ?_, h.mem, ?_⟩ <;> rw [coreOf_modCore]
  · rw [hq, h.q0]
  · rw [hs, h.slots]
  · rw [hw, h.warp]

theorem besideWarps_addStatus (s : State) (core : Nat) (q : QCmd) (poison many : Bool) :
    besideWarps (coreOf (addStatus s core q poison many) core) = besideWarps (coreOf s core) := besideWarps_modWarp ..

theorem acc_addStatus (s : State) (core : Nat) (q : QCmd) (poison many : Bool) :
    (coreOf (addStatus s core q poison many) core).acc = (coreOf s core).acc :=
  (congrArg Core.acc (besideWarps_addStatus s core q poison many) :)

/-- The status bits of a command leave its work (R300). -/
theorem Worked.after_addStatus {s u : State} {core : Nat} {q : QCmd} {rest : List QCmd} {y : Warp}
    (h : Worked s u core q rest y) (poison many : Bool) : Worked s (addStatus u core q poison many) core q rest y := by
  have kept := besideWarps_addStatus u core q poison many
  refine ⟨(congrArg Core.q0 kept).trans h.q0, (congrArg Core.slots kept).trans h.slots, h.mem, ?_⟩
  refine (warpPart_modWarp _ (fun z => ?_) ..).trans h.warp
  dsimp only
  split <;> rfl

theorem engDo_czero {q : QCmd} {w : Mtx} {k : Nat} (h : decode [q.word] = .ok (.czero w, k)) (s : State)
    (core p : Nat) : engDo s core q p = .done (modCore s core (clearTiles w.d.toNat w.n.toNat)) := by
  unfold engDo
  simp only [h]
  rfl

theorem Worked.after_clearTiles {s u : State} {core : Nat} {q : QCmd} {rest : List QCmd} {y : Warp}
    (h : Worked s u core q rest y) (d n : Nat) : Worked s (modCore u core (clearTiles d n)) core q rest y :=
  h.after_modCore (clearTiles_keeps Core.q0 (fun _ _ => rfl) d n) (clearTiles_keeps Core.slots (fun _ _ => rfl) d n)
    (clearTiles_keeps Core.warps (fun _ _ => rfl) d n)

theorem engDo_mma {q : QCmd} {w : Mtx} {k : Nat} (h : decode [q.word] = .ok (.mma w, k)) (s : State)
    (core p : Nat) : engDo s core q p = .done (mulStep s core q false w.ty.toNat w.d.toNat w.a.toNat w.b.toNat) := by
  unfold engDo
  simp only [h]

/-- A core that has counted products (R182). -/
def countMacs (n : Nat) (co : Core) : Core := { co with macs := co.macs + n }

theorem acc_countMacs (n : Nat) (co : Core) : (countMacs n co).acc = co.acc := rfl

/-- The core after a multiply. -/
def multiplied (dist : Bool) (ty c ta tb : Nat) (co : Core) : Core :=
  countMacs (macsOf ty) (accMul co dist ty c ta tb).1

theorem mulStep_eq (s : State) (core : Nat) (q : QCmd) (dist : Bool) (ty c ta tb : Nat) :
    mulStep s core q dist ty c ta tb = addStatus (modCore s core (multiplied dist ty c ta tb)) core q
      (accMul (coreOf s core) dist ty c ta tb).2 false := rfl

theorem multiplied_keeps {β : Type} (p : Core → β) (hm : ∀ n co, p (countMacs n co) = p co)
    (hp : ∀ co c m n x bad, p (accPut co c m n x bad) = p co) (dist : Bool) (ty c ta tb : Nat) (co : Core) :
    p (multiplied dist ty c ta tb co) = p co := (hm ..).trans (accMul_keeps p hp ..)

theorem Worked.after_mulStep {s u : State} {core : Nat} {q : QCmd} {rest : List QCmd} {y : Warp}
    (h : Worked s u core q rest y) (dist : Bool) (ty c ta tb : Nat) :
    Worked s (mulStep u core q dist ty c ta tb) core q rest y := by
  rw [mulStep_eq]
  refine (h.after_modCore ?_ ?_ ?_).after_addStatus _ _
  · exact multiplied_keeps Core.q0 (fun _ _ => rfl) (fun _ _ _ _ _ _ => rfl) dist ty c ta tb
  · exact multiplied_keeps Core.slots (fun _ _ => rfl) (fun _ _ _ _ _ _ => rfl) dist ty c ta tb
  · exact multiplied_keeps Core.warps (fun _ _ => rfl) (fun _ _ _ _ _ _ => rfl) dist ty c ta tb

theorem accGet_mulStep_int8 (s : State) (core : Nat) (q : QCmd) (c ta tb : Nat) {c' m n : Nat} (hm : m < 64)
    (hn : n < 64) : accGet (coreOf (mulStep s core q false 0 c ta tb) core) c' m n =
      if c' = c then
        low32 (clamp32 .i32 ((accGet (coreOf s core) c' m n).toInt + int8Dot (coreOf s core) ta tb m n))
      else accGet (coreOf s core) c' m n := by
  rw [mulStep_eq, accGet_congr (acc_addStatus ..), coreOf_modCore, multiplied, accGet_congr (acc_countMacs ..),
    accGet_accMul_int8 _ _ _ _ hm hn]

/-- Settles O39: the engine comes to the command's own work, which is read off the tiles that it writes, and to the end
that counts it. -/
theorem enginePerformsItsCommands : Obligations.EnginePerformsItsCommands := by
  unfold Obligations.EnginePerformsItsCommands
  intro s core k q rest w t₁ y co taken runs start first mine dot done
  have engine (h : start) : EngineAt s core none (q :: rest) := by
    obtain ⟨⟨hc, hx, hs⟩, hm, hq⟩ := h
    exact ⟨hc, hx, hs, hm, hq⟩
  refine ⟨fun ⟨h, live, ready, after⟩ => (engine h).exec_done live ready after, fun p ⟨hc, hx, hs⟩ hm ready hd => ?_,
    fun h ⟨hy, ha⟩ dead after => ?_, fun h ⟨hy, ha⟩ live hi => ?_, fun h ⟨hy, ha⟩ live hi int8 => ?_⟩
  · rw [EngineAt.exec_resumes ⟨hc, hx, hs, hm, rfl⟩, engRun_done ready hd]
  · refine (worked_taken hy rest).ends ha ?_ fun c m n _ _ => ?_
    · rw [(engine h).exec_takes after, dead, if_pos rfl]
    · rw [commandTaken, coreOf_modCore]
      rfl
  · refine ((worked_taken hy rest).after_clearTiles ..).ends ha
      ((engine h).exec_plain live hi rfl (engDo_czero hi ..)) fun c m n hm hn => ?_
    rw [coreOf_modCore, accGet_clearTiles _ _ _ hm hn, commandTaken, coreOf_modCore]
    rfl
  · have ty : w.ty.toNat = 0 := by rw [int8]; rfl
    refine ((worked_taken hy rest).after_mulStep ..).ends ha
      ((engine h).exec_plain live hi rfl (engDo_mma hi ..)) fun c m n hm hn => ?_
    rw [ty, accGet_mulStep_int8 _ _ _ _ _ _ hm hn, commandTaken, coreOf_modCore]
    rfl

end Sys2Proof.Machine

/-! What every function of the model does to DRAM (R344, log 2).  `f_mem` says that a function does not write it,
`memWf_f` that what it writes leaves memory canonical.  The lemmas stand in the order of the functions that they speak
of, file by file; every instruction then `Proceeds`. -/

namespace Sys2Proof.Machine

open Sys2Proof

@[simp] theorem foldl_mem {ι : Type} {f : State → ι → State} (hf : ∀ s i, (f s i).mem = s.mem) (l : List ι)
    (s : State) :
    (l.foldl f s).mem = s.mem := foldl_keeps State.mem hf l s

/-! Machine/Tab.lean -/

@[simp] theorem foldN_mem {f : Nat → State → State} (hf : ∀ i s, (f i s).mem = s.mem) (n : Nat) (s : State) :
    (foldN n f s).mem = s.mem := foldN_keeps State.mem hf n s

@[simp] theorem memWf_foldlState {ι : Type} {f : State → ι → State}
    (hf : ∀ s i, memWf s.mem = true → memWf (f s i).mem = true)
    (l : List ι) {s : State} (h : memWf s.mem = true) : memWf (l.foldl f s).mem = true := by
  induction l generalizing s with
  | nil => exact h
  | cons i l ih => exact ih (hf s i h)

@[simp] theorem memWf_foldNState {f : Nat → State → State} (hf : ∀ i s, memWf s.mem = true → memWf (f i s).mem = true)
    (n : Nat) {s : State} (h : memWf s.mem = true) : memWf (foldN n f s).mem = true :=
  memWf_foldlState (fun s i => hf i s) _ h

@[simp] theorem mem_ite (c : Prop) [Decidable c] (s t : State) : (if c then s else t).mem = if c then s.mem else t.mem
    := by
  split <;> rfl

theorem memWf_ite {c : Prop} [Decidable c] {s t : State} (hs : memWf s.mem = true) (ht : memWf t.mem = true) :
    memWf (if c then s else t).mem = true := by split <;> assumption

@[simp] theorem memWf_iteCells {c : Prop} [Decidable c] {s t : List Host.Cell} (hs : memWf s = true)
    (ht : memWf t = true) :
    memWf (if c then s else t) = true := by split <;> assumption

@[simp] theorem memWf_foldlCells {σ : Type} (l : List σ) (f : List Host.Cell → σ → List Host.Cell)
    (hf : ∀ m x, memWf m = true → memWf (f m x) = true) {m : List Host.Cell} (h : memWf m = true) :
    memWf (l.foldl f m) = true := memWf_foldl l f hf h

/-! Machine/Home.lean -/

@[simp] theorem noteGlaze_mem (s : State) (line : Nat) : (noteGlaze s line).mem = s.mem := by simp [noteGlaze]

@[simp] theorem memWf_dramStore (s : State) (line : Nat) (data : Line) (dirty poison : BitVec 4)
    (wf : memWf s.mem = true) : memWf (dramStore s line data dirty poison).mem = true := by
  unfold dramStore
  dsimp only
  (repeat' split) <;> simp +contextual [memWf_memPut, wf]

@[simp] theorem sendHome_mem (s : State) (k : MKind) (line : Nat) (data : Line) (mask : LineMask) :
    (sendHome s k line data mask).mem = s.mem := by rfl

@[simp] theorem memWf_evict (s : State) (h key : Nat) (w : Way) (wf : memWf s.mem = true) :
    memWf (evict s h key w).mem = true := by
  unfold evict
  split <;> simp [wf]

@[simp] theorem memWf_fillWay (s : State) (h : Nat) (w : Way) (wf : memWf s.mem = true) : memWf (fillWay s h w).mem =
    true := by
  unfold fillWay
  dsimp only
  (repeat' split) <;> simp [wf]

@[simp] theorem addEntry_mem (s : State) (h : Nat) (e : TEntry) : (addEntry s h e).mem = s.mem := by rfl

@[simp] theorem modEntry_mem (s : State) (h line : Nat) (f : TEntry → TEntry) : (modEntry s h line f).mem = s.mem :=
    by rfl

@[simp] theorem dropEntry_mem (s : State) (h line : Nat) : (dropEntry s h line).mem = s.mem := by rfl
@[simp] theorem modOp_mem (s : State) (c id : Nat) (f : MemOp → MemOp) : (modOp s c id f).mem = s.mem := by rfl

@[simp] theorem completeOp_mem (s : State) (c id : Nat) : (completeOp s c id).mem = s.mem := by
  unfold completeOp
  split <;> simp

@[simp] theorem memWf_lateTrap (s : State) (r : Req) (cls : FClass) (lanes : W32) (sector : Nat)
    (wf : memWf s.mem = true) : memWf (lateTrap s r cls lanes sector).mem = true := by
  unfold lateTrap
  split <;> simp [wf]

@[simp] theorem memWf_deliver (s : State) (r : Req) (data : Line) (poison : BitVec 4) (wf : memWf s.mem = true) :
    memWf (deliver s r data poison).mem = true := by
  unfold deliver
  dsimp only
  (repeat' split) <;> simp +contextual [wf]

@[simp] theorem performed_mem (s : State) (r : Req) : (performed s r).mem = s.mem := by
  unfold performed
  split <;> simp

@[simp] theorem memWf_pokeLine (s : State) (line : Nat) (data : Line) (m : LineMask) (poison : BitVec 4)
    (wf : memWf s.mem = true) : memWf (pokeLine s line data m poison).mem = true := by
  unfold pokeLine
  (repeat' split) <;> simp [wf]

@[simp] theorem memWf_pokeBytes (s : State) (pa : Nat) (bs : List Byte) (wf : memWf s.mem = true) :
    memWf (pokeBytes s pa bs).mem = true := by
  unfold pokeBytes
  dsimp only
  (repeat' split) <;> simp +contextual [wf]

@[simp] theorem memWf_recordWrite (s : State) (x : Race) (line : Nat) (secs : BitVec 4) (wf : memWf s.mem = true) :
    memWf (recordWrite s x line secs).mem = true := by
  refine memWf_foldNState (fun i t wf => ?_) 4 wf
  split
  · split <;> simp [memWf_memPut, wf]
  · exact wf

@[simp] theorem memWf_addProv (s : State) (h : Nat) (r : Req) (data : Line) (m : LineMask) (poison : BitVec 4)
    (tag : Nat × Nat) (wf : memWf s.mem = true) : memWf (addProv s h r data m poison tag).mem = true := by
  unfold addProv
  dsimp only
  (repeat' split) <;> simp [wf]

@[simp] theorem memWf_raceLog (s : State) (x : Race) (va : Nat) (shadow : W32) (kind : Nat) (wf : memWf s.mem = true)
    : memWf (raceLog s x va shadow kind).mem = true := by simp [raceLog, wf]

@[simp] theorem memWf_raceDo (s : State) (r : Req) (secs : BitVec 4) (kind : Nat) (wf : memWf s.mem = true) :
    memWf (raceDo s r secs kind).mem = true := by
  unfold raceDo
  split
  · exact wf
  · next x _ =>
    have logged : memWf (foldN 4 (fun i s =>
        if secs.getLsbD i && !x.trap then
          match conflicts s x (128 * r.line + 32 * i) with
          | some w => raceLog s x (tgetD x.vas i 0) w kind
          | none => s
        else s) s).mem = true := by
      refine memWf_foldNState (fun i t wf => ?_) 4 wf
      split
      · split <;> simp [wf]
      · exact wf
    dsimp only
    split
    · exact logged
    · exact memWf_recordWrite _ _ _ _ logged

/-! Machine/Perform.lean -/

@[simp] theorem hashAtoms_mem (s : State) (r : Req) (warp : Nat) (o : MemOp) (op : Nat) (ty : Ty) (rnd : Rnd)
    (olds : List (Nat × Nat × Bool)) : (hashAtoms s r warp o op ty rnd olds).mem = s.mem := by
  unfold hashAtoms
  split
  · rfl
  · refine foldl_mem (fun t x => ?_) olds s
    dsimp only
    split
    · rfl
    · split
      · split <;> simp
      · rfl

@[simp] theorem homeData_mem (s : State) (h : Nat) (w : Way) : (homeData s h w).1.mem = s.mem := by
  unfold homeData
  split <;> rfl

@[simp] theorem answerUnit_mem (s : State) (r : Req) (d : Option Line) : (answerUnit s r d).mem = s.mem := by
  simp [answerUnit]

@[simp] theorem memWf_performOn (s : State) (h key : Nat) (w : Way) (r : Req) (wf : memWf s.mem = true) :
    memWf (performOn s h key w r).mem = true := by
  unfold performOn
  split
  · simp [wf]
  · have read : memWf (homeData (if r.fill = true then raceDo s r (laneSectors r) 0 else s) h w).1.mem = true := by
      simp [wf]
    dsimp only
    generalize homeData (if r.fill = true then raceDo s r (laneSectors r) 0 else s) h w = x at read ⊢
    obtain ⟨t, base⟩ := x
    simp [read]
  · split <;> simp [wf]
  · next op ty rnd _ =>
    have checked : memWf (homeData (raceDo s r (laneSectors r) 2) h w).1.mem = true := by simp [wf]
    dsimp only
    generalize homeData (raceDo s r (laneSectors r) 2) h w = x at checked ⊢
    obtain ⟨t, base⟩ := x
    dsimp only
    split
    · simpa using checked
    · rw [mem_ite, completeOp_mem, ite_self, modOp_mem, foldl_mem]
      · simpa using checked
      · intro u x
        simp

@[simp] theorem dataMsg_mem (s : State) (a : Nat) (k : MKind) (line : Nat) (d : Line) : (dataMsg s a k line d).mem =
    s.mem := by rfl

@[simp] theorem sendSnoops_mem (s : State) (line : Nat) (k : MKind) (ts : List Nat) :
    (sendSnoops s line k ts).mem = s.mem := by
  rw [sendSnoops, foldl_mem]
  exact fun _ _ => rfl

@[simp] theorem startFx_mem (s : State) (h line owner : Nat) (ts : List Nat) (r : HReq) :
    (startFx s h line owner ts r).mem = s.mem := by simp [startFx]

@[simp] theorem memWf_grant (s : State) (h : Nat) (key : Nat) (w : Way) (r : HReq) (wf : memWf s.mem = true) :
    memWf (grant s h key w r).mem = true := by
  unfold grant
  split <;> simp [wf]

@[simp] theorem memWf_takeReq (s : State) (h key : Nat) (w : Way) (r : HReq) (wf : memWf s.mem = true) :
    memWf (takeReq s h key w r).mem = true := by
  unfold takeReq
  dsimp only
  (repeat' split) <;> simp [wf]

@[simp] theorem memWf_takeRemote (s : State) (h line : Nat) (q : Req) (wf : memWf s.mem = true) :
    memWf (takeRemote s h line q).mem = true := by
  unfold takeRemote
  dsimp only
  (repeat' split) <;> simp [wf]

@[simp] theorem memWf_homeWay (s : State) (h line : Nat) (wf : memWf s.mem = true) : memWf (homeWay s h line).1.mem =
    true := by
  unfold homeWay
  dsimp only
  (repeat' split) <;> simp [wf]

@[simp] theorem loseGlaze_mem (s : State) (h line : Nat) : (loseGlaze s h line).mem = s.mem := by
  unfold loseGlaze
  split <;> simp

@[simp] theorem memWf_finishWith {s : State} (h line : Nat) {f : State → State}
    (hf : ∀ t, memWf t.mem = true → memWf (f t).mem = true) (wf : memWf s.mem = true) :
    memWf (finishWith s h line f).mem = true := by
  unfold finishWith
  split
  · exact wf
  · exact hf _ (by simpa using wf)

@[simp] theorem memWf_endFx (s : State) (h line : Nat) (e : TEntry) (owner : Nat) (merged : Bool)
    (wf : memWf s.mem = true) :
    memWf (endFx s h line e owner merged).mem = true := by
  refine memWf_finishWith h line (fun t wf => ?_) wf
  have brought := memWf_homeWay t h line wf
  generalize homeWay t h line = x at brought ⊢
  obtain ⟨u, k, w⟩ := x
  dsimp only
  split <;> simp [brought]

@[simp] theorem memWf_recover (s : State) (h line : Nat) (e : TEntry) (wf : memWf s.mem = true) :
    memWf (recover s h line e).mem = true := by simp [recover, wf]

@[simp] theorem memWf_startLost (s : State) (h line : Nat) (cur : HReq) (wf : memWf s.mem = true) :
    memWf (startLost s h line cur).mem = true := by
  unfold startLost
  split <;> simp [wf]

@[simp] theorem waitIn_mem (s : State) (h line : Nat) (r : HReq) : (waitIn s h line r).mem = s.mem := by rfl

/-- What is taken only where there is room is canonical when it is there. -/
theorem memWf_of_room {c : Prop} [Decidable c] {t u : State} (taken : (if c then some u else none) = some t)
    (wf : memWf u.mem = true) : memWf t.mem = true := by
  simp only [Option.ite_none_right_eq_some, Option.some.injEq] at taken
  exact taken.2 ▸ wf

theorem memWf_tryTake {s t : State} {h line : Nat} {r : HReq} (taken : tryTake s h line r = some t)
    (wf : memWf s.mem = true) : memWf t.mem = true := by
  unfold tryTake at taken
  simp only at taken
  split at taken
  · split at taken
    · cases taken
      simp [wf]
    · exact memWf_of_room taken (by simp [wf])
  · split at taken
    · cases taken
      split <;> simp [wf]
    · split at taken
      · split at taken
        · exact memWf_of_room taken (by simp [wf])
        · split at taken <;> exact memWf_of_room taken (by simp [wf])
      · exact memWf_of_room taken (by simp [wf])

@[simp] theorem memWf_submit (s : State) (h line : Nat) (r : HReq) (wf : memWf s.mem = true) :
    memWf (submit s h line r).mem = true := by
  have taken (t : State) (wf : memWf t.mem = true) : memWf ((tryTake t h line r).getD (waitIn t h line r)).mem = true := by
    cases ht : tryTake t h line r with
    | none => simp [wf]
    | some u => exact memWf_tryTake ht wf
  unfold submit
  dsimp only
  split
  · simp [wf]
  · split
    · simp [wf]
    · exact taken _ (by simp [wf])

@[simp] theorem memWf_takeFirst (s : State) (h : Nat) (wf : memWf s.mem = true) : memWf (takeFirst s h).mem = true :=
    by
  unfold takeFirst
  dsimp only
  split
  · exact wf
  · generalize ho : List.findSome? _ _ = o
    cases o with
    | none => exact wf
    | some t =>
      obtain ⟨i, -, hi⟩ := List.exists_of_findSome?_eq_some ho
      split at hi
      · split at hi
        · cases hi
        · split at hi
          · cases hi
            simp [wf]
          · exact memWf_tryTake hi (by simp [wf])
      · cases hi

@[simp] theorem memWf_slicesTake (s : State) (n : Nat) (wf : memWf s.mem = true) : memWf (slicesTake s n).mem = true
    :=
  memWf_foldlState (fun _ _ wf => memWf_foldNState (fun _ t wf => memWf_takeFirst t _ wf) _ wf) _ wf

@[simp] theorem memWf_takeAside (s : State) (h : Nat) (w : Way) (r : HReq) (wf : memWf s.mem = true) :
    memWf (takeAside s h w r).mem = true := by
  unfold takeAside
  dsimp only
  (repeat' split) <;> simp [wf]

@[simp] theorem memWf_fetchDone (s : State) (h line : Nat) (wf : memWf s.mem = true) : memWf (fetchDone s h line).mem
    = true := by
  unfold fetchDone
  split
  · exact wf
  · split
    · exact wf
    · split
      · simp [wf]
      · refine memWf_finishWith h line (fun t wf => ?_) wf
        split
        · simp [wf]
        · have brought := memWf_homeWay t h line wf
          generalize homeWay t h line = x at brought ⊢
          obtain ⟨u, k, w⟩ := x
          simp [brought]

@[simp] theorem memWf_wantLine (s : State) (part line : Nat) (own : Bool) (home : Option Nat) (who : Nat)
    (wf : memWf s.mem = true) : memWf (wantLine s part line own home who).mem = true := by simp [wantLine, wf]

@[simp] theorem memWf_homeWrite (s : State) (part line : Nat) (data : Line) (m : LineMask) (poison : BitVec 4)
    (home : Option Nat) (wf : memWf s.mem = true) : memWf (homeWrite s part line data m poison home).mem = true := by
  unfold homeWrite
  dsimp only
  (repeat' split) <;> simp [wf]

@[simp] theorem memWf_homeWriteBytes (s : State) (part pa : Nat) (bs : List Byte) (home : Option Nat)
    (wf : memWf s.mem = true) : memWf (homeWriteBytes s part pa bs home).mem = true := by
  unfold homeWriteBytes
  dsimp only
  (repeat' split) <;> simp +contextual [wf]

@[simp] theorem dropAnswer_mem (s : State) (line who : Nat) : (dropAnswer s line who).mem = s.mem := by rfl

@[simp] theorem memWf_reqFault (s : State) (r : Req) (wf : memWf s.mem = true) : memWf (reqFault s r).mem = true := by
  simp [reqFault, wf]

@[simp] theorem dropAnswers_mem (s : State) (who : Nat) : (dropAnswers s who).mem = s.mem := by simp [dropAnswers]

/-- The state that a unit comes to. -/
def Got.state : Got → State
  | .go s => s
  | .prot s => s
  | .wait s => s

@[simp] theorem memWf_unitReads (s : State) (part who : Nat) (ls : List (Nat × Nat)) (wf : memWf s.mem = true) :
    memWf (unitReads s part who ls).state.mem = true := by
  unfold unitReads
  dsimp only
  (repeat' split) <;> simp +contextual [Got.state, wf]

@[simp] theorem memWf_unitBytes (s : State) (part who pa n : Nat) (wf : memWf s.mem = true) :
    memWf (unitBytes s part who pa n).1.state.mem = true := by
  unfold unitBytes
  dsimp only
  (repeat' split) <;> simp +contextual [Got.state, wf]

@[simp] theorem memWf_writeUnit (s : State) (part : Nat) (w : UnitWrite) (wf : memWf s.mem = true) :
    memWf (writeUnit s part w).mem = true := by simp [writeUnit, wf]

@[simp] theorem noteDone_mem (s : State) (w : UnitWrite) (who : Nat) : (noteDone s w who).mem = s.mem := by rfl

@[simp] theorem memWf_unitPut (s : State) (part who : Nat) (ws : List UnitWrite) (keep : Bool)
    (wf : memWf s.mem = true) :
    memWf (unitPut s part who ws keep).state.mem = true := by
  unfold unitPut
  dsimp only
  split
  · simp [Got.state, wf]
  · split
    · split <;> simp +contextual [Got.state, wf]
    · refine memWf_foldlState (fun t w wf => ?_) _ wf
      split <;> simp [wf]

@[simp] theorem memWf_unitWrites (s : State) (part who : Nat) (ws : List UnitWrite) (wf : memWf s.mem = true) :
    memWf (unitWrites s part who ws).state.mem = true := memWf_unitPut s part who ws false wf

@[simp] theorem memWf_portTake (s : State) (port line : Nat) (want : Req → Bool) (wf : memWf s.mem = true) :
    memWf (portTake s port line want).mem = true := by
  unfold portTake
  dsimp only
  (repeat' split) <;> simp [wf]

/-! Machine/Work.lean -/

@[simp] theorem memWf_lateGo (s : State) (x : Late) (wf : memWf s.mem = true) : memWf (lateGo s x).mem = true := by
  unfold lateGo
  (repeat' split) <;> simp [wf]

@[simp] theorem memWf_devWrite (s : State) (x : Late) (wf : memWf s.mem = true) : memWf (devWrite s x).mem = true :=
    by simp [devWrite, wf]

@[simp] theorem memWf_lateAll (s : State) (wf : memWf s.mem = true) : memWf (lateAll s).mem = true := by
  simp +contextual [lateAll, wf]

@[simp] theorem memWf_ctxPut (s : State) (ctx va : Nat) (bs : List Byte) (wf : memWf s.mem = true) :
    memWf (ctxPut s ctx va bs).mem = true := by simp [ctxPut, wf]

@[simp] theorem memWf_notice (s : State) (part : Nat) (value : W64) (wf : memWf s.mem = true) :
    memWf (notice s part value).mem = true := by simp [notice, wf]

@[simp] theorem memWf_completeCmd (s : State) (c : Cmd) (code failed : Nat) (wf : memWf s.mem = true) :
    memWf (completeCmd s c code failed).mem = true := by
  unfold completeCmd
  dsimp only
  (repeat' split) <;> simp [wf]

@[simp] theorem memWf_queuePut (s : State) (part q off : Nat) (bs : List Byte) (wf : memWf s.mem = true) :
    memWf (queuePut s part q off bs).mem = true := by simp [queuePut, wf]

@[simp] theorem memWf_putQueueState (s : State) (part q st code : Nat) (wf : memWf s.mem = true) :
    memWf (putQueueState s part q st code).mem = true := by simp [putQueueState, wf]

@[simp] theorem memWf_faultQueue (s : State) (part q code : Nat) (wf : memWf s.mem = true) :
    memWf (faultQueue s part q code).mem = true := by simp [faultQueue, wf]

@[simp] theorem modCrew_mem (s : State) (h : Nat) (f : Crew → Crew) : (modCrew s h f).mem = s.mem := by rfl

theorem allocCrew_mem {s t : State} {u n : Nat} {c : Crew} (made : allocCrew s u c = some (n, t)) : t.mem = s.mem :=
    by
  unfold allocCrew at made
  dsimp only at made
  split at made
  · cases made
    rfl
  · split at made <;> cases made
    rfl

@[simp] theorem freeCrew_mem (s : State) (h : Nat) : (freeCrew s h).mem = s.mem := by rfl

@[simp] theorem pubDone_mem (s : State) (core : Nat) (wide : Bool) : (pubDone s core wide).mem = s.mem := by
  simp [pubDone]

@[simp] theorem resumeCrew_mem (s : State) (core w : Nat) (sl : Slot) : (resumeCrew s core w sl).mem = s.mem := by
  unfold resumeCrew
  (repeat' split) <;> simp

@[simp] theorem releasePhase_mem (s : State) (h phase : Nat) (remote : Bool) : (releasePhase s h phase remote).mem =
    s.mem := by simp [releasePhase]

@[simp] theorem crewCheck_mem (s : State) (h : Nat) : (crewCheck s h).mem = s.mem := by
  unfold crewCheck
  split <;> simp

@[simp] theorem crewJoin_mem (s : State) (h core w : Nat) : (crewJoin s h core w).mem = s.mem := by
  unfold crewJoin
  split <;> simp

@[simp] theorem crewArrive_mem (s : State) (h core w : Nat) (pub : Bool) : (crewArrive s h core w pub).mem = s.mem :=
    by
  unfold crewArrive
  split <;> simp

@[simp] theorem crewLeave_mem (s : State) (h core w : Nat) : (crewLeave s h core w).mem = s.mem := by
  unfold crewLeave
  dsimp only
  (repeat' split) <;> simp

@[simp] theorem copyForget_mem (s : State) (core w : Nat) (h : Option Nat) : (copyForget s core w h).mem = s.mem := by
    rfl

@[simp] theorem dropEmptyCopies_mem (s : State) : (dropEmptyCopies s).mem = s.mem := by rfl

@[simp] theorem leaveAll_mem (s : State) (core w : Nat) : (leaveAll s core w).mem = s.mem := by
  unfold leaveAll
  split <;> simp

@[simp] theorem makeRemote_mem (s : State) (h : Nat) : (makeRemote s h).mem = s.mem := by rfl

@[simp] theorem revokeShare_mem (s : State) (core b : Nat) : (revokeShare s core b).mem = s.mem := by
  unfold revokeShare
  (repeat' split) <;> simp

@[simp] theorem freeBank_mem (s : State) (b : Block) : (freeBank s b).mem = s.mem := by
  unfold freeBank
  (repeat' split) <;> simp

@[simp] theorem forgetReads_mem (s : State) (core : Nat) : (forgetReads s core).mem = s.mem := by rfl

@[simp] theorem gateMove_mem (s : State) (pair : Nat) : (gateMove s pair).mem = s.mem := by
  unfold gateMove
  dsimp only
  (repeat' split) <;> simp

@[simp] theorem settleGate_mem (s : State) (pair : Nat) : (settleGate s pair).mem = s.mem := by simp [settleGate]

@[simp] theorem dropBlock_mem (s : State) (core b : Nat) : (dropBlock s core b).mem = s.mem := by
  unfold dropBlock
  split <;> simp

@[simp] theorem sweepBlocks_mem (s : State) (core : Nat) : (sweepBlocks s core).mem = s.mem := by
  unfold sweepBlocks
  dsimp only
  rw [releaseCore_mem]
  refine foldl_mem (fun t b => ?_) _ s
  split
  · split <;> simp
  · rfl

@[simp] theorem parkBlock_mem (s : State) (core b : Nat) : (parkBlock s core b).mem = s.mem := by
  unfold parkBlock
  split <;> simp

@[simp] theorem memWf_failLog (s : State) (l : Launch) (entry : List Byte) (wf : memWf s.mem = true) :
    memWf (failLog s l entry).mem = true := by simp [failLog, wf]

@[simp] theorem memWf_launchDone (s : State) (id : Nat) (wf : memWf s.mem = true) : memWf (launchDone s id).mem = true
    := by
  unfold launchDone
  dsimp only
  (repeat' split) <;> simp [wf]

@[simp] theorem memWf_screenDone (s : State) (launch id : Nat) (shadow : Bool) (res : Option (W32 × W32))
    (wf : memWf s.mem = true) : memWf (screenDone s launch id shadow res).mem = true := by
  unfold screenDone
  dsimp only
  (repeat' split) <;> simp [wf]

@[simp] theorem memWf_unitEnded (s : State) (launch : Nat) (failed : Option (List Byte)) (wf : memWf s.mem = true) :
    memWf (unitEnded s launch failed).mem = true := by
  unfold unitEnded
  (repeat' split) <;> simp [wf]

@[simp] theorem freeWarp_mem (s : State) (core w : Nat) : (freeWarp s core w).mem = s.mem := by
  unfold freeWarp
  split <;> simp

@[simp] theorem memWf_endBlock (s : State) (core b : Nat) (failed : Option (List Byte)) (count : Bool)
    (wf : memWf s.mem = true) : memWf (endBlock s core b failed count).mem = true := by
  unfold endBlock
  dsimp only
  (repeat' split) <;> simp [wf]

@[simp] theorem memWf_endWarp (s : State) (core w : Nat) (wf : memWf s.mem = true) : memWf (endWarp s core w).mem =
    true := by
  unfold endWarp
  dsimp only
  (repeat' split) <;> simp [wf]

@[simp] theorem memWf_failBlock (s : State) (core b : Nat) (entry : List Byte) (wf : memWf s.mem = true) :
    memWf (failBlock s core b entry).mem = true := by simp [failBlock, wf]

@[simp] theorem memWf_killBlock (s : State) (core b : Nat) (wf : memWf s.mem = true) : memWf (killBlock s core b).mem
    = true := by simp [killBlock, wf]

/-! Machine/Ops.lean -/

@[simp] theorem retireNow_mem (s : State) (x : Here) : (retireNow s x).mem = s.mem := by rfl
@[simp] theorem waitAt_mem (s : State) (x : Here) (k : Wait) : (waitAt s x k).mem = s.mem := by rfl
@[simp] theorem pushWait_mem (s : State) (x : Here) : (pushWait s x).mem = s.mem := by rfl
@[simp] theorem takeTurn_mem (s : State) (core w : Nat) (sl : Slot) : (takeTurn s core w sl).mem = s.mem := by rfl

@[simp] theorem noteTurn_mem (s t : State) (core w : Nat) (sl : Slot) : (noteTurn s t core w sl).mem = t.mem := by
  unfold noteTurn
  split
  · dsimp only
    split
    · rfl
    · split <;> rfl
  · rfl

@[simp] theorem fillSet_mem (s : State) (core pipe : Nat) : (fillSet s core pipe).mem = s.mem := by
  unfold fillSet
  refine foldN_mem (fun i t => ?_) 4 s
  dsimp only
  split
  · rfl
  · split <;> rfl

@[simp] theorem activeSets_mem (s : State) (core : Nat) : (activeSets s core).mem = s.mem := by
  simp [activeSets]

@[simp] theorem endGrow_mem (s : State) (core w : Nat) (got : Option (List Nat)) : (endGrow s core w got).mem = s.mem
    := by
  unfold endGrow
  (repeat' split) <;> simp

@[simp] theorem grantOne_mem (s : State) (core : Nat) : (grantOne s core).mem = s.mem := by
  unfold grantOne
  dsimp only
  (repeat' split) <;> simp

@[simp] theorem massFail_mem (s : State) (core : Nat) : (massFail s core).mem = s.mem := by simp [massFail]

@[simp] theorem memWf_deliverTrap (s : State) (core w : Nat) (wf : memWf s.mem = true) :
    memWf (deliverTrap s core w).mem = true := by
  unfold deliverTrap
  extract_lets co ctx part
  split
  · exact wf
  · split
    · exact wf
    · extract_lets b drv va bytes route
      have routed {t : State} (pa : Option Nat) (wf : memWf t.mem = true) : memWf (route t pa).mem = true := by
        simp only [route]
        split
        · simp [wf]
        · split
          · split <;> simp [wf]
          · simp [wf]
      split
      · exact wf
      · split
        · simp [wf]
        · rw [if_neg Bool.false_ne_true]
          cases walk s ctx va with
          | busy line => simp [wf]
          | bad => exact routed none wf
          | ok leaf level =>
            dsimp only
            split
            · exact routed none wf
            · have got := memWf_unitWrites s part (deviceWho 1 (64 * core + w))
                [frameWrite s part leaf (leafPa leaf level va) bytes] wf
              generalize unitWrites s part _ _ = r at got ⊢
              cases r with
              | wait t => exact got
              | prot t => exact routed none got
              | go t => exact routed (some (leafPa leaf level va)) got

@[simp] theorem memWf_calm (s : State) (core : Nat) (wf : memWf s.mem = true) : memWf (calm s core).mem = true := by
  unfold calm
  rw [activeSets_mem, massFail_mem, sweepBlocks_mem]
  exact memWf_foldlState (fun t w wf => memWf_endWarp _ _ _ (memWf_deliverTrap t core w wf)) _ wf

@[simp] theorem memWf_calmAll (s : State) (wf : memWf s.mem = true) : memWf (calmAll s).mem = true := by
  simp +contextual [calmAll, wf]

@[simp] theorem memWf_takeTrap (s : State) (x : Here) (t : Trap) (wf : memWf s.mem = true) :
    memWf (takeTrap s x t).mem = true := by simp [takeTrap, wf]

@[simp] theorem memWf_fault (s : State) (x : Here) (cls : FClass) (lanes : W32) (sector : Nat) (detail : W32)
    (wf : memWf s.mem = true) : memWf (fault s x cls lanes sector detail).mem = true := by simp [fault, wf]

@[simp] theorem memWf_faultAll (s : State) (x : Here) (cls : FClass) (sector : Nat) (detail : W32)
    (wf : memWf s.mem = true) : memWf (faultAll s x cls sector detail).mem = true := by simp [faultAll, wf]

/-- The step goes on, from a canonical memory to a canonical one. -/
def Proceeds (s : State) (o : Host.Outcome State Fault Refusal) : Prop :=
  ∃ t, o = .next t ∧ (memWf s.mem = true → memWf t.mem = true)

theorem proceeds_next {s t : State} (h : memWf s.mem = true → memWf t.mem = true) : Proceeds s (.next t) :=
    ⟨t, rfl, h⟩

theorem proceeds_word {i : Instr} {s : State} {f : State → Here → State} {undef : Here → Bool}
    (hf : ∀ x, memWf s.mem = true → memWf (f s x).mem = true) : Proceeds s (word i s f undef) := by
  unfold word
  split
  · exact proceeds_next id
  · split
    · exact proceeds_next fun wf => by simp [wf]
    · dsimp only
      split
      · exact proceeds_next fun wf => by simp [wf]
      · split
        · exact proceeds_next id
        · exact proceeds_next (hf _)

theorem proceeds_eventIf {ok : Bool} {s : State} {f : State → State}
    (hf : memWf s.mem = true → memWf (f s).mem = true) :
    Proceeds s (eventIf ok s f) := by
  unfold eventIf
  split
  · exact proceeds_next hf
  · exact proceeds_next id

theorem proceeds_event {i : Instr} {s : State} {f : State → State} (hf : memWf s.mem = true → memWf (f s).mem = true)
    :
    Proceeds s (event i s f) := proceeds_eventIf hf

/-! Machine/Access.lean -/

@[simp] theorem xlate_mem (s : State) (core ctx va : Nat) : (xlate s core ctx va).1.mem = s.mem := by
  unfold xlate
  dsimp only
  (repeat' split) <;> simp

@[simp] theorem xlateLanes_mem (s : State) (core ctx : Nat) (l : List (Nat × Nat)) :
    (xlateLanes s core ctx l).1.mem = s.mem := by
  induction l generalizing s with
  | nil => rfl
  | cons a l ih =>
    obtain ⟨n, va⟩ := a
    exact (ih _).trans (xlate_mem s core ctx va)

@[simp] theorem memWf_checkGlobal (s : State) (core ctx : Nat) (exec : W32) (scalar : Bool) (need : Need)
    (addrs : List (Nat × Nat)) (wf : memWf s.mem = true) :
    memWf (checkGlobal s core ctx exec scalar need addrs).1.mem = true := by
  unfold checkGlobal
  dsimp only
  split
  · exact wf
  · have kept := xlateLanes_mem s core ctx addrs
    generalize xlateLanes s core ctx addrs = x at kept ⊢
    obtain ⟨t, rs⟩ := x
    dsimp only at kept ⊢
    split
    · simp [kept, wf]
    · (repeat' split) <;> simpa [kept] using wf

@[simp] theorem locPut_mem (s : State) (x : Loc) (b : Byte) (poison : Bool) : (locPut s x b poison).mem = s.mem := by
  unfold locPut
  split <;> simp

@[simp] theorem locWrite_mem (s : State) (x : Loc) (n v : Nat) : (locWrite s x n v).mem = s.mem := by simp [locWrite]

@[simp] theorem advanceEpoch_mem (s : State) (ctx : Nat) (sc : Scope) : (advanceEpoch s ctx sc).mem = s.mem := by
  simp [advanceEpoch]

@[simp] theorem toPort_mem (s : State) (r : Req) : (toPort s r).mem = s.mem := by rfl

@[simp] theorem accept_mem (s : State) (core : Nat) (x : Wc) : (accept s core x).mem = s.mem := by
  unfold accept
  split <;> simp

@[simp] theorem acceptOne_mem (s : State) (core : Nat) : (acceptOne s core).mem = s.mem := by
  unfold acceptOne
  split <;> simp

@[simp] theorem acceptIf_mem (s : State) (core : Nat) (p : Wc → Bool) : (acceptIf s core p).mem = s.mem := by
  simp [acceptIf]

@[simp] theorem memWf_noteWrite (s : State) (x : Here) (mods : Mods) (g : GLane) (n kind : Nat)
    (wf : memWf s.mem = true) : memWf (noteWrite s x mods g n kind).mem = true := by simp [noteWrite, wf]

@[simp] theorem newOp_mem (s : State) (core : Nat) (o : MemOp) : (newOp s core o).1.mem = s.mem := rfl
@[simp] theorem markWay_mem (s : State) (h line : Nat) : (markWay s h line).mem = s.mem := by rfl

@[simp] theorem hitMarks_mem (s : State) (core pol home line : Nat) : (hitMarks s core pol home line).mem = s.mem :=
    by simp [hitMarks]

@[simp] theorem loadGlobal_mem (s : State) (x : Here) (dest : Dest) (ty : Ty) (mods : Mods) (ls : List GLane)
    (bound : Option (List (Nat × Nat))) (after : Option Nat) :
    (loadGlobal s x dest ty mods ls bound after).mem = s.mem := by
  unfold loadGlobal
  extract_lets lines accepted sc acq home bypass co groups mine hit n looked misses hold
  have kept : looked.mem = s.mem := by
    refine (foldl_mem (fun t g => ?_) groups accepted).trans (acceptIf_mem ..)
    split
    · rfl
    · next y _ =>
      extract_lets put bads noted
      have delivered : put.mem = t.mem := by
        refine foldl_mem (fun u l => ?_) g t
        rfl
      rw [hitMarks_mem]
      simp only [noted]
      cases bads <;> exact delivered
  split
  · simp [kept]
  · rw [retireNow_mem, modWarp_mem, modCore_mem, foldl_mem]
    · simpa using kept
    · exact fun _ _ => rfl

@[simp] theorem storeGlobal_mem (s : State) (x : Here) (mods : Mods) (n : Nat) (ls : List (GLane × Nat)) :
    (storeGlobal s x mods n ls).mem = s.mem := by
  unfold storeGlobal
  extract_lets groups hold
  generalize ho : (if hold = true then newOp s x.core _ else (s, 0)) = opened
  have kept : opened.1.mem = s.mem := by
    rw [← ho]
    split <;> rfl
  obtain ⟨t, id⟩ := opened
  dsimp only
  rw [retireNow_mem, mem_ite, advanceEpoch_mem, ite_self, foldl_mem]
  · exact kept
  · exact fun _ _ => rfl

@[simp] theorem memWf_rush (s : State) (core w : Nat) (lines : List Nat) (wf : memWf s.mem = true) :
    memWf (rush s core w lines).mem = true := by
  unfold rush
  exact memWf_foldlState (fun t n wf => by simp [wf]) lines (by simpa using wf)

@[simp] theorem memWf_wordReads (s : State) (x : Here) (k : Nat) (ls : List (Nat × Nat)) (wf : memWf s.mem = true) :
    memWf (wordReads s x k ls).state.mem = true := memWf_unitReads s _ _ ls wf

@[simp] theorem dropWord_mem (s : State) (x : Here) : (dropWord s x).mem = s.mem := by simp [dropWord]

@[simp] theorem memWf_wordBytes {s : State} (x : Here) (k n : Nat) (g : GLane) {f : State → List Byte → Bool → State}
    (hf : ∀ t bs bad, memWf t.mem = true → memWf (f t bs bad).mem = true) (wf : memWf s.mem = true) :
    memWf (wordBytes s x k n g f).mem = true := by
  unfold wordBytes
  have got := memWf_wordReads s x k [(g.line, g.home)] wf
  generalize wordReads s x k [(g.line, g.home)] = r at got ⊢
  cases r with
  | wait t => exact got
  | prot t => exact memWf_fault t x _ _ _ _ got
  | go t => exact hf _ _ _ ((congrArg memWf (dropAnswers_mem t _)).trans got)

/-! Machine/Mem.lean -/

theorem proceeds_memWord {i : Instr} {k : MKd} {m : Mem} {s : State} {f : State → Here → Mods → State}
    (hf : ∀ x md, memWf s.mem = true → memWf (f s x md).mem = true) : Proceeds s (memWord i k m s f) :=
  proceeds_word fun x wf => hf x _ wf

@[simp] theorem memWf_poisonTrap (s : State) (x : Here) (va : Nat) (wf : memWf s.mem = true) :
    memWf (poisonTrap s x va).mem = true := by simp [poisonTrap, wf]

@[simp] theorem memWf_withChk {α : Type} {s : State} (x : Here) (c : Chk α) {f : α → State}
    (hf : ∀ a, memWf (f a).mem = true) (wf : memWf s.mem = true) : memWf (withChk s x c f).mem = true := by
  unfold withChk
  split
  · exact hf _
  · simp [wf]
  · exact wf
  · refine memWf_foldlState (fun t g wf => ?_) _ wf
    split <;> simp [wf]

@[simp] theorem memWf_loadLanes (s : State) (x : Here) (m : Mods) (dest : Dest) (ty : Ty) (scalar : Bool)
    (ls : List GLane)
    (bound : Option (List (Nat × Nat))) (after : Option Nat) (wf : memWf s.mem = true) :
    memWf (loadLanes s x m dest ty scalar ls bound after).mem = true := by
  unfold loadLanes
  refine memWf_withChk x _ (fun a => ?_) wf
  extract_lets bads
  clear_value bads
  split
  · split <;> simp [wf]
  · simp [wf]

@[simp] theorem memWf_constLoad (s : State) (x : Here) (dest : Dest) (ty : Ty) (m : Mods) (scalar : Bool)
    (addrs : List (Nat × Nat)) (wf : memWf s.mem = true) : memWf (constLoad s x dest ty m scalar addrs).mem = true := by
  unfold constLoad
  extract_lets n l bank size bad
  split
  · exact memWf_withChk x _ (fun _ => wf) wf
  · have checked := memWf_checkGlobal s x.core x.ctx x.exec scalar { r := true } (addrs.map fun a => (a.1, bank + a.2)) wf
    exact memWf_withChk x _ (fun ls => memWf_loadLanes _ _ _ _ _ _ _ _ _ checked) checked

@[simp] theorem memWf_localLoad (s : State) (x : Here) (dest : Dest) (ty : Ty) (sp : Space) (scalar : Bool)
    (addrs : List (Nat × Nat)) (wf : memWf s.mem = true) : memWf (localLoad s x dest ty sp scalar addrs).mem = true := by
  unfold localLoad
  refine memWf_withChk x _ (fun ls => ?_) wf
  split
  · exact wf
  · extract_lets vaOf bads vals put noted
    have kept : put.mem = s.mem := by
      refine foldl_mem (fun t p => ?_) vals s
      rfl
    have same : noted.mem = s.mem := by
      simp only [noted]
      cases bads <;> exact kept
    clear_value bads
    split <;> simp [same, wf]

@[simp] theorem memWf_doLoad (s : State) (x : Here) (m : Mods) (dest : Dest) (ty : Ty) (scalar : Bool)
    (bad : Nat → Bool)
    (addrs : List (Nat × Nat)) (wf : memWf s.mem = true) : memWf (doLoad s x m dest ty scalar bad addrs).mem = true := by
  unfold doLoad
  extract_lets n pl mis
  split
  · simp [wf]
  · split
    · exact wf
    · split
      · simp [wf]
      · split
        · exact memWf_withChk x _ (fun _ => wf) wf
        · split
          · have checked := memWf_checkGlobal s x.core x.ctx x.exec scalar { r := true } addrs wf
            exact memWf_withChk x _ (fun ls => memWf_loadLanes _ _ _ _ _ _ _ _ _ checked) checked
          · simp [wf]
          · simp [wf]

@[simp] theorem hashLanes_mem (s : State) (x : Here) (n : Nat) (ls : List (GLane × Nat)) : (hashLanes s x n ls).mem =
    s.mem := by simp [hashLanes]

@[simp] theorem memWf_doStore (s : State) (x : Here) (m : Mods) (n : Nat) (ty : Ty) (d : Nat) (scalar : Bool)
    (bad : Nat → Bool) (addrs : List (Nat × Nat)) (wf : memWf s.mem = true) :
    memWf (doStore s x m n ty d scalar bad addrs).mem = true := by
  unfold doStore
  extract_lets pl mis val
  split
  · simp [wf]
  · split
    · exact wf
    · split
      · simp [wf]
      · split
        · simp [wf]
        · split
          · have checked := memWf_checkGlobal s x.core x.ctx x.exec scalar { w := true } addrs wf
            generalize checkGlobal s x.core x.ctx x.exec scalar { w := true } addrs = r at checked ⊢
            obtain ⟨t, c⟩ := r
            refine memWf_withChk x c (fun ls => memWf_withChk x _ (fun ls => ?_) checked) checked
            split
            · exact checked
            · dsimp only at checked ⊢
              split <;> simp [checked]
          · refine memWf_withChk x _ (fun ls => ?_) wf
            split
            · exact wf
            · simp [wf]

@[simp] theorem localAtoms_mem (s : State) (x : Here) (dest : Dest) (op : Nat) (ty : Ty) (rnd : Rnd)
    (ls : List (Nat × Loc × Nat × Nat × Nat)) : (localAtoms s x dest op ty rnd ls).mem = s.mem := by
  unfold localAtoms
  refine foldl_mem (fun t p => ?_) ls s
  dsimp only
  rw [modWarp_mem]
  split
  · rfl
  · split
    · simp
    · rfl

@[simp] theorem memWf_doAtom (s : State) (x : Here) (m : Mods) (mem : Mem) (op : Nat) (rnd : Rnd) (ret : BitVec 8)
    (cmpReg : Option Nat) (wf : memWf s.mem = true) : memWf (doAtom s x m mem op rnd ret cmpReg).mem = true := by
  unfold doAtom
  extract_lets ty n wide addrs pl mis dest opnd cmp
  split
  · simp [wf]
  · split
    · exact wf
    · split
      · simp [wf]
      · split
        · simp [wf]
        · split
          · have checked := memWf_checkGlobal s x.core x.ctx x.exec false { r := true, w := true, atomic := true } addrs wf
            generalize checkGlobal s x.core x.ctx x.exec false { r := true, w := true, atomic := true } addrs = r at checked ⊢
            obtain ⟨t, c⟩ := r
            refine memWf_withChk x c (fun ls => memWf_withChk x _ (fun ls => ?_) checked) checked
            refine memWf_rush _ _ _ _ ?_
            rw [retireNow_mem, modWarp_mem, mem_ite, advanceEpoch_mem, ite_self, foldl_mem]
            · simpa using checked
            · exact fun _ _ => rfl
          · refine memWf_withChk x _ (fun ls => ?_) wf
            simp [wf]

@[simp] theorem dropMwait_mem (s : State) (core w : Nat) (sl : Slot) (d : Dest) : (dropMwait s core w sl d).mem =
    s.mem := by rfl

@[simp] theorem memWf_mwaitTest (s : State) (core w : Nat) (sl : Slot) (wf : memWf s.mem = true) :
    memWf (mwaitTest s core w sl).mem = true := by
  unfold mwaitTest
  dsimp only
  (repeat' split) <;> simp [wf]

@[simp] theorem giveUp_mem (s : State) (h : Nat) (w : Way) (k : MKind) (r : Req) : (giveUp s h w k r).mem = s.mem :=
    by rfl

@[simp] theorem dropWay_mem (s : State) (h k : Nat) (w : Way) : (dropWay s h k w).mem = s.mem := by simp [dropWay]

@[simp] theorem invalWay_mem (r : Req) (s : State) (t : Nat × Nat × Way × Nat × W64) : (invalWay r s t).mem = s.mem :=
    by
  unfold invalWay
  (repeat' split) <;> simp

@[simp] theorem memWf_cleanWay (r : Req) (s : State) (t : Nat × Nat × Way × Nat × W64) (wf : memWf s.mem = true) :
    memWf (cleanWay r s t).mem = true := by
  unfold cleanWay
  (repeat' split) <;> simp [wf]

@[simp] theorem memWf_rangeWord (s : State) (x : Here) (a lines : Nat) (inv clean : Bool) (wf : memWf s.mem = true) :
    memWf (rangeWord s x a lines inv clean).mem = true := by
  unfold rangeWord
  extract_lets bytes sends
  split
  · simp [wf]
  · split
    · exact wf
    · split
      · simp [wf]
      · split
        · simp [wf]
        · have checked := memWf_checkGlobal s x.core x.ctx x.exec true {} (rangePages a bytes) wf
          generalize checkGlobal s x.core x.ctx x.exec true {} (rangePages a bytes) = r at checked ⊢
          obtain ⟨t, c⟩ := r
          refine memWf_withChk x c (fun ls => ?_) checked
          extract_lets sp inRange own busy ways dirty n
          split
          · exact checked
          · split
            · exact memWf_faultAll _ _ _ _ _ checked
            · generalize ho : (if n = 0 then (t, 0) else newOp t x.core _) = opened
              have kept : memWf opened.1.mem = true := by
                rw [← ho]
                split <;> exact checked
              obtain ⟨u, id⟩ := opened
              dsimp -zeta only
              extract_lets r cleaned emptied forgot
              have hc : memWf cleaned.mem = true := by
                simp only [cleaned]
                split
                · exact memWf_foldlState (fun t w wf => memWf_cleanWay r t w wf) ways kept
                · exact kept
              have he : memWf emptied.mem = true := by
                simp only [emptied]
                split
                · exact memWf_foldlState (fun t w wf => by simpa using wf) _ hc
                · exact hc
              simpa [forgot] using he

@[simp] theorem memWf_arenaPut (s : State) (x : Here) (g : GLane) (v : Nat) (wf : memWf s.mem = true) :
    memWf (arenaPut s x g v).mem = true := by simp [arenaPut, wf]

/-! Machine/Crew.lean -/

@[simp] theorem memWf_crewTrap (s : State) (x : Here) (hv : W32) (reason : Nat) (wf : memWf s.mem = true) :
    memWf (crewTrap s x hv reason).mem = true := by simp [crewTrap, wf]

/-- What a crew word comes to holds a canonical memory. -/
def CrewRes.Canonical : CrewRes → Prop
  | .done s _ => memWf s.mem = true
  | .wait s _ _ => memWf s.mem = true
  | .drain s => memWf s.mem = true
  | .trap _ => True
  | .again => True

@[simp] theorem canonical_joinAct (s : State) (x : Here) (h : Nat) (c : Crew) (wf : memWf s.mem = true) :
    (joinAct s x h c).Canonical := by
  unfold joinAct
  (repeat' split) <;> simp [CrewRes.Canonical, wf]

@[simp] theorem canonical_leaveAct (s : State) (x : Here) (h : Nat) (c : Crew) (wf : memWf s.mem = true) :
    (leaveAct s x h c).Canonical := by
  unfold leaveAct
  dsimp only
  (repeat' split) <;> simp [CrewRes.Canonical, wf]

theorem canonical_arriveRes {pub : Bool} {s : State} {x : Here} {h : Nat} {c : Crew} {f : State → Nat → CrewRes}
    (hf : ∀ t p, memWf t.mem = true → (f t p).Canonical) (wf : memWf s.mem = true) :
    (arriveRes pub s x h c f).Canonical := by
  unfold arriveRes
  split
  · trivial
  · split
    · trivial
    · split
      · trivial
      · split
        · trivial
        · exact hf _ _ (by simpa using wf)

@[simp] theorem canonical_arriveAct (pub : Bool) (s : State) (x : Here) (h : Nat) (c : Crew) (wf : memWf s.mem = true)
    :
    (arriveAct pub s x h c).Canonical :=
  canonical_arriveRes (fun _ _ wf => wf) wf

@[simp] theorem canonical_syncAct (pub : Bool) (s : State) (x : Here) (h : Nat) (c : Crew) (wf : memWf s.mem = true) :
    (syncAct pub s x h c).Canonical := by
  refine canonical_arriveRes (fun t p wf => ?_) wf
  (repeat' split) <;> exact wf

@[simp] theorem canonical_waitAct (b : W32) (s : State) (x : Here) (h : Nat) (c : Crew) (wf : memWf s.mem = true) :
    (waitAct b s x h c).Canonical := by
  unfold waitAct
  dsimp only
  (repeat' split) <;> simp [CrewRes.Canonical, wf]

@[simp] theorem canonical_mapAct (s : State) (x : Here) (h : Nat) (c : Crew) (wf : memWf s.mem = true) :
    (mapAct s x h c).Canonical := by
  unfold mapAct
  dsimp only
  (repeat' split) <;> simp [CrewRes.Canonical, wf]

@[simp] theorem crewDone_mem (s : State) (x : Here) (wr : Option (Nat × W32)) (acq : Option Bool) :
    (crewDone s x wr acq).mem = s.mem := by simp [crewDone]

@[simp] theorem crewWait_mem (s : State) (core w : Nat) (sl : Slot) (k : Wait) : (crewWait s core w sl k).mem = s.mem
    := by rfl

@[simp] theorem crewPost_mem (s : State) (x : Here) (h : Nat) (rel : Option Scope) (wide : Bool) :
    (crewPost s x h rel wide).mem = s.mem := by rfl

/-- The words of a crew keep memory canonical where its phase state is kept. -/
def CrewForm.Sound (f : CrewForm) : Prop :=
  ∀ s x h c, memWf s.mem = true → (f.act s x h c).Canonical

theorem sound_crewForm {wp : Warp} {i : Instr} {f : CrewForm} (form : crewForm wp i = some f) : f.Sound := by
  intro s x h c wf
  unfold crewForm at form
  split at form <;> cases form <;> simp [wf]

theorem memWf_crewLocal {s : State} (x : Here) (f : CrewForm) (h : Nat) {r : CrewRes} (hr : r.Canonical)
    (wf : memWf s.mem = true) : memWf (crewLocal s x f h r).mem = true := by
  unfold crewLocal
  dsimp only
  cases r with
  | done t wr =>
    have kept : memWf t.mem = true := hr
    simp [kept]
  | wait t p counted =>
    have kept : memWf t.mem = true := hr
    simp [kept]
  | drain t =>
    have kept : memWf t.mem = true := hr
    simp [kept]
  | trap reason => simp [wf]
  | again => simp [wf]

theorem memWf_crewAct {s : State} (x : Here) {f : CrewForm} (h : Nat) (c : Crew) (hf : f.Sound)
    (wf : memWf s.mem = true) : memWf (crewAct s x f h c).mem = true := by
  unfold crewAct
  split
  · simp [wf]
  · have acted := hf s x h c wf
    split
    · next t wr ht =>
      rw [ht] at acted
      split
      · simp [wf]
      · exact memWf_crewLocal x f h acted wf
    · exact memWf_crewLocal x f h acted wf

theorem memWf_crewGo {s : State} (x : Here) {f : CrewForm} (hf : f.Sound) (wf : memWf s.mem = true) :
    memWf (crewGo s x f).mem = true := by
  unfold crewGo
  dsimp only
  split
  · simp [wf]
  · split
    · simp [wf]
    · split
      · exact memWf_crewAct x _ _ hf wf
      · split
        · simp [wf]
        · split
          · exact memWf_crewAct x _ _ hf (by simpa using wf)
          · simp [wf]

theorem newCrew_mem {s t : State} {x : Here} {share : Bool} {h : Nat} (made : newCrew s x share = some (h, t)) :
    t.mem = s.mem := by
  unfold newCrew at made
  extract_lets u ws c at made
  split at made
  · cases made
  · split at made
    · cases made
    · next h' s' hs =>
      have kept := allocCrew_mem hs
      extract_lets joined at made
      have same : joined.mem = s'.mem := by
        refine foldl_mem (fun u m => ?_) ws s'
        rfl
      simp only [Option.some.injEq, Prod.mk.injEq] at made
      obtain ⟨-, rfl⟩ := made
      split <;> exact same.trans kept

/-! Machine/Copy.lean -/

@[simp] theorem memWf_withDesc {s : State} (x : Here) (i : Nat) (inMem : Bool) (n : BitVec 8)
    {k : State → List Byte → Nat → State} (hk : ∀ t bs a, memWf t.mem = true → memWf (k t bs a).mem = true)
    (wf : memWf s.mem = true) : memWf (withDesc s x i inMem n k).mem = true := by
  unfold withDesc
  split
  · exact hk _ _ _ wf
  · dsimp only
    have checked := memWf_checkGlobal s x.core x.ctx x.exec true { r := true } [(0, (sget64 x.wp n.toNat).toNat)] wf
    generalize checkGlobal s x.core x.ctx x.exec true { r := true } [(0, (sget64 x.wp n.toNat).toNat)] = r at checked ⊢
    obtain ⟨t, c⟩ := r
    refine memWf_withChk x c (fun ls => memWf_wordBytes x i 32 _ (fun u bs bad wf => ?_) checked) checked
    split
    · simp [wf]
    · exact hk _ _ _ wf

@[simp] theorem copyAccept_mem (s : State) (x : Here) (w : Cpy) (id : Nat) (c : Copy) : (copyAccept s x w id c).mem =
    s.mem := by rfl

@[simp] theorem memWf_copySupply (s : State) (x : Here) (w : Cpy) (cond : Bool) (src dst : TDesc) (first count : Nat)
    (crew : Option Nat) (wf : memWf s.mem = true) : memWf (copySupply s x w cond src dst first count crew).mem = true := by
  unfold copySupply
  extract_lets rid sl far held busy e c add
  clear_value held busy c add
  split
  · simp [wf]
  · simp [wf]
  · split
    · exact wf
    · split
      · simp [wf]
      · split
        · simp [wf]
        · cases crew with
          | none =>
            dsimp only
            split <;> simp [wf]
          | some h =>
            dsimp only
            split
            · split
              · simp [wf]
              · split <;> simp [wf]
            · split <;> simp [wf]

@[simp] theorem memWf_copyChecks (s : State) (x : Here) (w : Cpy) (cond answered : Bool) (sb db : List Byte)
    (sa da : Nat) (wf : memWf s.mem = true) : memWf (copyChecks s x w cond answered sb db sa da).mem = true := by
  unfold copyChecks
  extract_lets src dst first count st hv
  have faulted (c : FClass) (a : Nat) : memWf (faultAll s x c a).mem = true := by simp [wf]
  refine memWf_ite (faulted _ _) <| memWf_ite (faulted _ _) <| memWf_ite (faulted _ _) <| memWf_ite (faulted _ _) <|
    memWf_ite (faulted _ _) <| memWf_ite (faulted _ _) <| memWf_ite (by simp [wf]) ?_
  split
  · simp [wf]
  · refine memWf_ite (by simp [wf]) ?_
    split <;> simp [wf]

@[simp] theorem memWf_copyBody (s : State) (x : Here) (w : Cpy) (cond answered : Bool) (wf : memWf s.mem = true) :
    memWf (copyBody s x w cond answered).mem = true := by
  unfold copyBody
  dsimp only
  split
  · exact wf
  split
  · simp [wf]
  split
  · simp [wf]
  exact memWf_withDesc x 0 _ _
    (fun _ _ _ wf => memWf_withDesc x 1 _ _ (fun _ _ _ wf => by simp [wf]) wf) wf

@[simp] theorem memWf_writeVa (s : State) (ctx va : Nat) (bs : List Byte) (wf : memWf s.mem = true) :
    memWf (writeVa s ctx va bs).mem = true := by simp +contextual [writeVa, wf]

@[simp] theorem memWf_noteRecord (s : State) (ctx : Nat) (y : CSlice) (status : W32) (wf : memWf s.mem = true) :
    memWf (noteRecord s ctx y status).mem = true := by
  unfold noteRecord
  split <;> simp [wf]

@[simp] theorem memWf_finishCopy (s : State) (id : Nat) (status : W32) (wf : memWf s.mem = true) :
    memWf (finishCopy s id status).mem = true := by
  unfold finishCopy
  split
  · exact wf
  · refine memWf_foldlState (fun t y wf => ?_) _ wf
    dsimp only
    split
    · split <;> simp [wf]
    · simp [wf]

@[simp] theorem drainDone_mem (s : State) : (drainDone s).mem = s.mem := by simp [drainDone]

@[simp] theorem memWf_writePieces (s : State) (ctx who : Nat) (pg : Pages) (y : CSlice)
    (ps : List (Nat × List (Byte × Bool))) (wf : memWf s.mem = true) :
    memWf (writePieces s ctx who pg y ps).state.mem = true := by
  unfold writePieces
  extract_lets ws hash
  have hashed (t : State) (wf : memWf t.mem = true) : memWf (hash t).mem = true := by
    simp only [hash]
    split
    · exact memWf_foldlState (fun _ _ wf => by simpa using wf) _ wf
    · exact wf
  clear_value hash
  split
  · exact hashed s wf
  · split
    · split
      · exact hashed s wf
      · exact memWf_foldlState (fun _ _ wf => by simp [wf]) _ (hashed s wf)
    · have got := memWf_unitWrites s (ctxOf s ctx).part who ws wf
      generalize unitWrites s (ctxOf s ctx).part who ws = r at got ⊢
      cases r with
      | go t => exact hashed t got
      | prot t => exact got
      | wait t => exact got

@[simp] theorem writeLocal_mem (s : State) (y : CSlice) (off : Nat) (bs : List (Byte × Bool)) :
    (writeLocal s y off bs).mem = s.mem := by simp [writeLocal]

@[simp] theorem copyEnd_mem (s : State) (id : Nat) (status : W32) (locked : Bool) : (copyEnd s id status locked).mem =
    s.mem := by rfl

@[simp] theorem memWf_readAhead (id : Nat) (p : Part16) (n : Nat) (s : State) (wf : memWf s.mem = true) :
    memWf (readAhead id p n s).state.mem = true := by
  induction n generalizing s with
  | zero => exact wf
  | succ n ih =>
    unfold readAhead
    split
    · exact wf
    · next c _ =>
      dsimp only
      split
      · exact wf
      · split
        · exact wf
        · generalize (if p.y.src.space = 1 then _ else _ : List (Nat × Nat)) = ls
          have got := memWf_unitReads s (ctxOf s c.ctx).part (copyWho id) ls wf
          generalize unitReads s (ctxOf s c.ctx).part (copyWho id) ls = r at got ⊢
          cases r with
          | go t =>
            refine ih _ ?_
            have kept : memWf t.mem = true := got
            simp [kept]
          | prot t => exact got
          | wait t => exact got

@[simp] theorem memWf_writePart (s : State) (id : Nat) (c : Copy) (p : Part16) (wf : memWf s.mem = true) :
    memWf (writePart s id c p).state.mem = true := by
  unfold writePart
  extract_lets bs wrote bad
  have wroteWf : memWf wrote.state.mem = true := by
    simp only [wrote]
    split
    · exact wf
    · split
      · simp [Got.state, wf]
      · simp [wf]
  clear_value wrote
  cases wrote with
  | go t => exact wroteWf
  | prot t => exact wroteWf
  | wait t => exact wroteWf

@[simp] theorem memWf_movePart (s : State) (id : Nat) (p : Part16) (wf : memWf s.mem = true) :
    memWf (movePart s id p).mem = true := by
  unfold movePart
  have got := memWf_readAhead id p 3 s wf
  generalize readAhead id p 3 s = r at got ⊢
  cases r with
  | wait t => exact got
  | prot t => exact got
  | go t =>
    dsimp only
    split
    · exact got
    · next c _ =>
      have put := memWf_writePart t id c p got
      generalize writePart t id c p = r at put ⊢
      cases r with
      | wait u => exact put
      | prot u => exact put
      | go u => exact put

@[simp] theorem memWf_copyPart (s : State) (id : Nat) (wf : memWf s.mem = true) : memWf (copyPart s id).mem = true :=
    by
  unfold copyPart
  (repeat' split) <;> simp [wf]

@[simp] theorem memWf_movePayload (s : State) (id : Nat) (wf : memWf s.mem = true) :
    memWf (movePayload s id).mem = true := by
  unfold movePayload
  split
  · exact memWf_foldNState (fun _ _ wf => by simpa using memWf_copyPart _ _ wf) _ wf
  · exact wf

@[simp] theorem copyBegin_mem (s : State) (id : Nat) (pages : Tab (W64 × Nat)) (locked : Bool) :
    (copyBegin s id pages locked).mem = s.mem := by rfl

@[simp] theorem memWf_cleanSector (s : State) (c : Copy) (y : CSlice) (va : Nat) (wf : memWf s.mem = true) :
    memWf (cleanSector s c y va).mem = true := by
  unfold cleanSector
  split <;> simp [wf]

@[simp] theorem cleanWords_mem (s : State) (c : Copy) (y : CSlice) : (cleanWords s c y).mem = s.mem := by
  simp [cleanWords]

@[simp] theorem memWf_copyClean (s : State) (c : Copy) (wf : memWf s.mem = true) :
    memWf (copyClean s c).1.mem = true := by
  unfold copyClean
  dsimp only
  split
  · refine memWf_foldlState (fun _ _ wf => by simpa using wf) _ ?_
    exact memWf_foldlState (fun _ _ wf => by simp [wf]) _ wf
  · exact memWf_foldlState (fun _ _ wf => by simp [wf]) _ wf

@[simp] theorem memWf_copyGo (s : State) (id : Nat) (c : Copy) (wf : memWf s.mem = true) : memWf (copyGo s id c).mem =
    true := by
  unfold copyGo
  dsimp only
  (repeat' split) <;> simp [wf]

@[simp] theorem memWf_copyStamp (s : State) (id : Nat) (c : Copy) (y : CSlice) (va : Nat) (v : W64)
    (wf : memWf s.mem = true) : memWf (copyStamp s id c y va v).state.mem = true := by
  unfold copyStamp
  extract_lets w
  have got := memWf_unitWrites s (ctxOf s c.ctx).part (copyWho id) [w] wf
  generalize unitWrites s (ctxOf s c.ctx).part (copyWho id) [w] = r at got ⊢
  cases r with
  | go t =>
    have kept : memWf t.mem = true := got
    simp [Got.state, kept]
  | prot t => exact got
  | wait t => exact got

@[simp] theorem memWf_stampGo (id n : Nat) (s : State) (wf : memWf s.mem = true) : memWf (stampGo id n s).mem = true
    := by
  induction n generalizing s with
  | zero => exact wf
  | succ n ih =>
    unfold stampGo
    split
    · exact wf
    · next c _ =>
      split
      · exact wf
      · next y va v _ =>
        have got := memWf_copyStamp s id c y va v wf
        generalize copyStamp s id c y va v = r at got ⊢
        cases r with
        | go t => exact ih t got
        | prot t => exact ih _ got
        | wait t => exact got

@[simp] theorem copyDropL1_mem (s : State) (c : Copy) : (copyDropL1 s c).mem = s.mem := by simp [copyDropL1]

@[simp] theorem memWf_copyComplete (s : State) (id : Nat) (c : Copy) (wf : memWf s.mem = true) :
    memWf (copyComplete s id c).mem = true := by
  unfold copyComplete
  have cleaned : memWf (if c.status.toNat % 256 = 0 then copyClean s c else (s, true)).1.mem = true := by
    split
    · simp [wf]
    · exact wf
  generalize (if c.status.toNat % 256 = 0 then copyClean s c else (s, true)) = r at cleaned ⊢
  obtain ⟨t, clean⟩ := r
  have stamped : memWf (if clean = true then stampGo id (copyStamps t c).length t else t).mem = true :=
    memWf_ite (memWf_stampGo _ _ _ cleaned) cleaned
  dsimp only
  generalize (if clean = true then stampGo id (copyStamps t c).length t else t) = u at stamped ⊢
  have ended : memWf (drainDone (finishCopy (copyDropL1 u c) id c.status)).mem = true := by simp [stamped]
  generalize drainDone (finishCopy (copyDropL1 u c) id c.status) = v at ended ⊢
  refine memWf_ite stamped ?_
  split
  · split <;> simp [ended]
  · exact ended

/-! Machine/Barrier.lean -/

@[simp] theorem answer_mem (s : State) (core : Nat) (r : BRelease) : (answer s core r).mem = s.mem := by rfl
@[simp] theorem requeue_mem (s : State) (u : Nat) (p : BPost) : (requeue s u p).mem = s.mem := by rfl

theorem memWf_unitRes {s : State} (u : Nat) (p : BPost) (f : CrewForm) (h : Nat) {r : CrewRes} (hr : r.Canonical)
    (wf : memWf s.mem = true) : memWf (unitRes s u p f h r).mem = true := by
  unfold unitRes
  cases r with
  | done t wr =>
    have kept : memWf t.mem = true := hr
    simp [kept]
  | wait t ph counted =>
    have kept : memWf t.mem = true := hr
    simp [kept]
  | drain t =>
    have kept : memWf t.mem = true := hr
    simp [kept]
  | trap reason => simp [wf]
  | again => simp [wf]

@[simp] theorem memWf_unitTake (s : State) (u : Nat) (p : BPost) (wf : memWf s.mem = true) :
    memWf (unitTake s u p).mem = true := by
  unfold unitTake
  split
  · exact wf
  · next x _ =>
    split
    · exact wf
    · split
      · simp [wf]
      · have noted : memWf (match p.rel with | some sc => advanceEpoch s x.ctx sc | none => s).mem = true := by
          split <;> simp [wf]
        extract_lets t p' say
        have kept : memWf t.mem = true := noted
        clear_value t
        have said (reason : Option Nat) : memWf (say reason).mem = true := by simp [say, kept]
        clear_value say
        split
        · exact said _
        · split
          · exact said _
          · exact said _
          · split
            · next f hf => exact memWf_unitRes u p' f _ (sound_crewForm hf _ _ _ _ kept) kept
            · exact kept
          · exact kept

@[simp] theorem memWf_takeAnswer (s : State) (x : Here) (r : BRelease) (wf : memWf s.mem = true) :
    memWf (takeAnswer s x r).mem = true := by
  unfold takeAnswer
  (repeat' split) <;> simp [wf]

@[simp] theorem memWf_takeRelease (s : State) (core : Nat) (r : BRelease) (t : List BRelease)
    (wf : memWf s.mem = true) : memWf (takeRelease s core r t).mem = true := by
  unfold takeRelease
  dsimp only
  (repeat' split) <;> simp [wf]

@[simp] theorem memWf_breakCrew (s : State) (h : Nat) (wf : memWf s.mem = true) : memWf (breakCrew s h).mem = true :=
    by
  unfold breakCrew
  dsimp only
  refine memWf_foldlState (fun t p wf => ?_) _ (by simp [wf])
  split <;> simp [wf]

/-! Machine/Matrix.lean -/

@[simp] theorem memWf_xlateChk {s : State} (x : Here) (rs : List (Nat × Nat × Xl))
    {k : List (Nat × Nat) → State × MChk} (hk : ∀ ps, memWf (k ps).1.mem = true) (wf : memWf s.mem = true) :
    memWf (xlateChk s x rs k).1.mem = true := by
  unfold xlateChk
  split
  · simp [wf]
  · split
    · exact wf
    · exact hk _

@[simp] theorem memWf_tloadsChk (s : State) (x : Here) (va : Nat) (wf : memWf s.mem = true) :
    memWf (tloadsChk s x va).1.mem = true := by
  unfold tloadsChk
  have kept := xlateLanes_mem s x.core x.ctx [(0, va)]
  generalize xlateLanes s x.core x.ctx [(0, va)] = r at kept ⊢
  obtain ⟨t, rs⟩ := r
  have wf : memWf t.mem = true := (congrArg memWf kept).trans wf
  refine memWf_xlateChk x rs (fun ps => ?_) wf
  split
  · split <;> exact wf
  · exact wf

@[simp] theorem memWf_loopScChk (s : State) (x : Here) (r : Loop) (wf : memWf s.mem = true) :
    memWf (loopScChk s x r).1.mem = true := by
  unfold loopScChk
  extract_lets ts
  have kept := xlateLanes_mem s x.core x.ctx (ts.map fun t => (0, t.2.2.1))
  generalize xlateLanes s x.core x.ctx (ts.map fun t => (0, t.2.2.1)) = r at kept ⊢
  obtain ⟨t, rs⟩ := r
  have wf : memWf t.mem = true := (congrArg memWf kept).trans wf
  refine memWf_xlateChk x rs (fun ps => ?_) wf
  dsimp only
  split <;> exact wf

@[simp] theorem memWf_mtxCheck (s : State) (x : Here) (i : Instr) (vals : List W32) (wf : memWf s.mem = true) :
    memWf (mtxCheck s x i vals).1.mem = true := by
  unfold mtxCheck
  split
  · exact wf
  · split
    · dsimp only
      split
      · exact wf
      · split <;> simp [wf]
    · dsimp only
      split <;> simp [wf]
    · split
      · exact wf
      · split
        · exact wf
        · split
          · exact wf
          · split <;> exact wf

@[simp] theorem memWf_mtxPush (s : State) (x : Here) (i : Instr) (vals : List W32) (scales : List Nat)
    (wf : memWf s.mem = true) : memWf (mtxPush s x i vals scales).mem = true := by simp [mtxPush, wf]

theorem proceeds_mtxWord (i : Instr) (s : State) : Proceeds s (mtxWord i s) := by
  refine proceeds_word fun x wf => ?_
  dsimp only
  refine memWf_ite wf ?_
  have checked := memWf_mtxCheck s x i (mtxVals x.wp i) wf
  generalize mtxCheck s x i (mtxVals x.wp i) = r at checked ⊢
  obtain ⟨t, c⟩ := r
  dsimp only at checked ⊢
  split <;> simp [checked]

@[simp] theorem memWf_popWord (s : State) (x : Here) (q d : Nat) (peek : Bool) (wf : memWf s.mem = true) :
    memWf (popWord s x q d peek).mem = true := by
  unfold popWord
  (repeat' split) <;> simp [wf]

/-! Machine/Queue.lean -/

@[simp] theorem transitPlace_mem (s : State) (core : Nat) : (transitPlace s core).mem = s.mem := by
  unfold transitPlace
  dsimp only
  (repeat' split) <;> simp

/-! Machine/Engine.lean -/

@[simp] theorem mineQ_mem (s : State) (core : Nat) (q : QCmd) (f : Warp → Warp) : (mineQ s core q f).mem = s.mem := by
    rfl

@[simp] theorem addStatus_mem (s : State) (core : Nat) (q : QCmd) (poison many : Bool) :
    (addStatus s core q poison many).mem = s.mem := by rfl

@[simp] theorem memWf_setCode (s : State) (core : Nat) (q : QCmd) (code step : Nat) (wf : memWf s.mem = true) :
    memWf (setCode s core q code step).mem = true := by simp [setCode, wf]

/-- The state that the engine comes to. -/
def EngRes.state : EngRes → State
  | .done s => s
  | .more s _ => s
  | .stay s => s

@[simp] theorem memWf_rowsIn {s : State} (ctx : Nat) (q : QCmd) (y : CSlice) (rows : List (Nat × Nat))
    {k : State → List (List (Byte × Bool)) → Nat → EngRes}
    (hk : ∀ t got code, memWf t.mem = true → memWf (k t got code).state.mem = true) (wf : memWf s.mem = true) :
    memWf (rowsIn s ctx q y rows k).state.mem = true := by
  unfold rowsIn
  split
  · split
    · exact wf
    · exact hk _ _ _ wf
  · split
    · simp [EngRes.state, wf]
    · extract_lets m rs
      have got := memWf_unitReads s (ctxOf s ctx).part (engWho s y.core) (rowsLines s ctx rs) wf
      generalize unitReads s (ctxOf s ctx).part (engWho s y.core) (rowsLines s ctx rs) = r at got ⊢
      cases r with
      | wait t => exact got
      | prot t => exact got
      | go t => exact hk _ _ _ got

@[simp] theorem drawFree_mem (s : State) (n : Nat) : (drawFree s n).mem = s.mem := by rfl

@[simp] theorem memWf_scaleIn {s : State} (core ctx : Nat) (tag : Option (Nat × Nat)) (scale : Option Nat)
    {k : State → List (Byte × Bool) → EngRes} (hk : ∀ t tile, memWf t.mem = true → memWf (k t tile).state.mem = true)
    (wf : memWf s.mem = true) : memWf (scaleIn s core ctx tag scale k).state.mem = true := by
  unfold scaleIn
  split
  · exact hk _ _ wf
  · next pa =>
    have got := memWf_unitReads s (ctxOf s ctx).part (engWho s core) [(pa / 128, holderOf s (pa / 128))] wf
    generalize unitReads s (ctxOf s ctx).part (engWho s core) [(pa / 128, holderOf s (pa / 128))] = r at got ⊢
    cases r with
    | wait t => exact got
    | prot t => exact hk _ _ got
    | go t => exact hk _ _ got

@[simp] theorem memWf_loadRead {s : State} (core : Nat) (q : QCmd) (ctx : Nat) (r : Rows) (scale : Option Nat)
    {k : State → SlotIn → EngRes} (hk : ∀ t x, memWf t.mem = true → memWf (k t x).state.mem = true)
    (wf : memWf s.mem = true) : memWf (loadRead s core q ctx r scale k).state.mem = true := by
  unfold loadRead
  exact memWf_rowsIn _ _ _ _ (fun _ _ _ wf => memWf_scaleIn _ _ _ _ (fun _ _ wf => hk _ _ wf) wf) wf

@[simp] theorem loadWrite_mem (s : State) (core : Nat) (q : QCmd) (len ty : Nat) (trans : Bool) (slot : Nat)
    (x : SlotIn) : (loadWrite s core q len ty trans slot x).mem = s.mem := by rfl

@[simp] theorem mulStep_mem (s : State) (core : Nat) (q : QCmd) (dist : Bool) (ty c ta tb : Nat) :
    (mulStep s core q dist ty c ta tb).mem = s.mem := by rfl

@[simp] theorem pushRows_mem (s : State) (core : Nat) (q : QCmd) (total p : Nat) (q1 : Bool) (ent : Core → Nat → QEnt)
    :
    (pushRows s core q total p q1 ent).state.mem = s.mem := by
  unfold pushRows
  extract_lets co room n es t u
  split <;> simp [EngRes.state, u, t]

@[simp] theorem memWf_cload (s : State) (core : Nat) (q : QCmd) (ctx : Nat) (w : Mtx) (r : Rows)
    (wf : memWf s.mem = true) : memWf (cload s core q ctx w r).state.mem = true :=
  memWf_rowsIn _ _ _ _ (fun _ _ _ wf => by simp [EngRes.state, wf]) wf

@[simp] theorem dropRow_mem (s : State) (core ctx : Nat) (row : Nat × Nat) : (dropRow s core ctx row).mem = s.mem :=
    by rfl

@[simp] theorem memWf_storeRows (core : Nat) (q : QCmd) (ctx : Nat) (w : Mtx) (y : CSlice) (code n m : Nat)
    (rows : List (Nat × Nat)) (s : State) (wf : memWf s.mem = true) :
    memWf (storeRows core q ctx w y code n m rows s).state.mem = true := by
  induction n generalizing m rows s with
  | zero => simp [storeRows, EngRes.state, wf]
  | succ n ih =>
    cases rows with
    | nil => exact wf
    | cons row rows =>
      unfold storeRows
      extract_lets bs
      split
      · exact wf
      · have put := memWf_writePieces s ctx (engWho s core) (tablesNow s ctx) y
          ((pieces 128 row.1 row.2).map fun p => (p.1, (bs.drop (p.1 - row.1)).take p.2)) wf
        generalize writePieces s ctx (engWho s core) (tablesNow s ctx) y
          ((pieces 128 row.1 row.2).map fun p => (p.1, (bs.drop (p.1 - row.1)).take p.2)) = r at put ⊢
        cases r with
        | wait t => exact put
        | prot t =>
          have kept : memWf t.mem = true := put
          simp [EngRes.state, kept]
        | go t =>
          have kept : memWf t.mem = true := put
          exact ih _ _ _ (by simp [kept])

@[simp] theorem memWf_cstore (s : State) (core : Nat) (q : QCmd) (ctx : Nat) (w : Mtx) (r : Rows) (p : Nat)
    (wf : memWf s.mem = true) : memWf (cstore s core q ctx w r p).state.mem = true := by
  unfold cstore
  dsimp only
  split
  · split
    · exact wf
    · simp +contextual [EngRes.state, wf]
  · split
    · exact wf
    · split
      · simp [EngRes.state, wf]
      · simp [wf]

@[simp] theorem memWf_loopStep (s : State) (core : Nat) (q : QCmd) (ctx : Nat) (w : Mtx) (p : Nat)
    (wf : memWf s.mem = true) : memWf (loopStep s core q ctx w p).state.mem = true := by
  unfold loopStep
  extract_lets r ty ta tb len rd lay
  have readWf (t : State) (on second : Bool) (k : State → Option SlotIn → EngRes) (wf : memWf t.mem = true)
      (hk : ∀ t x, memWf t.mem = true → memWf (k t x).state.mem = true) : memWf (rd t on second k).state.mem = true := by
    simp only [rd]
    split
    · exact hk _ _ wf
    · refine memWf_loadRead _ _ _ _ _ (fun u x wf => ?_) wf
      split
      · exact hk _ _ wf
      · simp [EngRes.state, wf]
  have laid (t : State) (slot : Nat) (x : Option SlotIn) : (lay t slot x).mem = t.mem := by
    simp only [lay]
    split <;> simp
  clear_value rd lay
  refine readWf _ _ _ _ wf fun t a wf => readWf _ _ _ _ wf fun u b wf => ?_
  dsimp only
  split <;> simp [EngRes.state, laid, wf]

@[simp] theorem memWf_engDo (s : State) (core : Nat) (q : QCmd) (p : Nat) (wf : memWf s.mem = true) :
    memWf (engDo s core q p).state.mem = true := by
  unfold engDo
  dsimp only
  split
  · exact wf
  · split
    · simp [EngRes.state, wf]
    · exact memWf_loadRead _ _ _ _ _ (fun _ _ wf => by simp [EngRes.state, wf]) wf
    · exact memWf_scaleIn _ _ _ _ (fun _ _ wf => by simp [EngRes.state, wf]) wf
    · simp [EngRes.state, wf]
    · simp [EngRes.state, wf]
    · simp [EngRes.state, wf]
    · simp [wf]
    · split
      · simp [wf]
      · simp [EngRes.state, wf]
    · simp [EngRes.state, wf]
    · simp [wf]
    · split <;> simp [wf]
    · exact wf

@[simp] theorem memWf_engRun (s : State) (core : Nat) (q : QCmd) (p : Nat) (wf : memWf s.mem = true) :
    memWf (engRun s core q p).mem = true := by
  unfold engRun
  dsimp only
  split
  · simp [wf]
  · have did := memWf_engDo s core q p wf
    generalize engDo s core q p = r at did ⊢
    cases r with
    | done t =>
      have kept : memWf t.mem = true := did
      simp [engFinish_mem, kept]
    | more t n =>
      have kept : memWf t.mem = true := did
      simp [kept]
    | stay t =>
      have kept : memWf t.mem = true := did
      simp [kept]

@[simp] theorem memWf_engStep (s : State) (core : Nat) (wf : memWf s.mem = true) : memWf (engStep s core).mem = true
    := by
  unfold engStep
  dsimp only
  refine memWf_ite wf ?_
  split
  · exact memWf_ite wf (by simp [wf])
  · split
    · exact wf
    · refine memWf_ite wf (memWf_ite ?_ ?_)
      · simp [engFinish_mem, wf]
      · simp [wf]

/-! Machine/Context.lean -/

@[simp] theorem renameCore_mem (s : State) (a b : Nat) : (renameCore s a b).mem = s.mem := by rfl

@[simp] theorem stopCore_mem (s : State) (core reason : Nat) : (stopCore s core reason).mem = s.mem := by
  simp [stopCore]

@[simp] theorem unstop_mem (s : State) (core : Nat) : (unstop s core).mem = s.mem := by rfl

@[simp] theorem shareOut_mem (s : State) (co : Core) (bank : Tab Byte) : (shareOut s co bank).mem = s.mem := by
  simp [shareOut]

@[simp] theorem withdrawCopies_mem (s : State) (core held base : Nat) : (withdrawCopies s core held base).mem = s.mem
    := by simp [withdrawCopies]

@[simp] theorem memWf_cancelSaved (s : State) (held : Nat) (wf : memWf s.mem = true) : memWf (cancelSaved s held).mem
    = true := by simp +contextual [cancelSaved, wf]

@[simp] theorem memWf_saveNow (s : State) (core reason area : Nat) (keep : Bool) (wf : memWf s.mem = true) :
    memWf (saveNow s core reason area keep).mem = true := by
  unfold saveNow
  extract_lets co ctx base secs t
  have written : memWf t.mem = true := memWf_foldlState (fun _ _ wf => by simp [wf]) _ wf
  clear_value t
  generalize (if keep = true then (([], []) : Tab Byte × List Nat) else bankOut t co) = r
  obtain ⟨bank, pois⟩ := r
  dsimp -zeta only
  extract_lets u held v src image saved w x
  have freed : memWf u.mem = true := memWf_ite written (memWf_foldlState (fun _ _ wf => by simpa using wf) _ (by simpa using written))
  clear_value u held src image saved
  have left : memWf x.mem = true := by simp [x, w, v, freed]
  clear_value x
  rw [settleGate_mem]
  exact memWf_ite (by simp [left]) left

@[simp] theorem memWf_saveStep (s : State) (core reason : Nat) (wf : memWf s.mem = true) :
    memWf (saveStep s core reason).mem = true := by
  unfold saveStep
  dsimp only
  (repeat' split) <;> simp [wf]

@[simp] theorem placeBank_mem (s : State) (v : Saved) (bytes : Tab Byte) (core i n : Nat) :
    (placeBank s v bytes core i n).1.mem = s.mem := rfl

@[simp] theorem bankBack_mem (s : State) (v : Saved) (bytes : Tab Byte) (core : Nat) :
    (bankBack s v bytes core).mem = s.mem := by
  unfold bankBack
  split
  · rfl
  · refine foldl_mem (fun t p => ?_) _ s
    obtain ⟨i, b⟩ := p
    dsimp only
    split
    · rfl
    · split
      · simp
      · split <;> simp

@[simp] theorem evacuate_mem (s : State) (core : Nat) : (evacuate s core).mem = s.mem := by simp [evacuate]

@[simp] theorem memWf_recheckCrews (s : State) (core : Nat) (wf : memWf s.mem = true) :
    memWf (recheckCrews s core).mem = true := by
  unfold recheckCrews
  dsimp only
  refine memWf_foldlState (fun t p wf => ?_) _ wf
  split
  · simp [wf]
  · split
    · split <;> simp [wf]
    · split <;> simp [wf]

@[simp] theorem memWf_frameRead (s : State) (core w va : Nat) (wf : memWf s.mem = true) :
    memWf (frameRead s core w va).1.state.mem = true := by
  unfold frameRead
  dsimp only
  split
  · simp [Got.state, wf]
  · exact wf
  · simp [wf]

@[simp] theorem memWf_driverEnd (s : State) (core w : Nat) (x : Warp) (sl : Slot) (action : Nat) (frame : List Byte)
    (wf : memWf s.mem = true) : memWf (driverEnd s core w x sl action frame).mem = true := by simp [driverEnd, wf]

@[simp] theorem memWf_driverAct (s : State) (core w action : Nat) (wf : memWf s.mem = true) :
    memWf (driverAct s core w action).mem = true := by
  unfold driverAct
  split
  · exact wf
  · split
    · exact wf
    · next sl f _ =>
      split
      · exact wf
      · split
        · simp [wf]
        · have got := memWf_frameRead s core w f.toNat wf
          generalize frameRead s core w f.toNat = r at got ⊢
          obtain ⟨r, frame⟩ := r
          cases r with
          | wait t =>
            have kept : memWf t.mem = true := got
            simp [kept]
          | prot t => exact memWf_driverEnd _ _ _ _ _ _ _ got
          | go t => exact memWf_driverEnd _ _ _ _ _ _ _ got

@[simp] theorem memWf_respAll (s : State) (wf : memWf s.mem = true) : memWf (respAll s).mem = true := by
  simp +contextual [respAll, wf]

@[simp] theorem memWf_driverResponse (s : State) (part ctxid core w action : Nat) (wf : memWf s.mem = true) :
    memWf (driverResponse s part ctxid core w action).mem = true := by simp [driverResponse, wf]

@[simp] theorem reissue_mem (s : State) (core : Nat) : (reissue s core).mem = s.mem := by simp [reissue]
@[simp] theorem noteBind_mem (s : State) (core k : Nat) : (noteBind s core k).mem = s.mem := by rfl

@[simp] theorem memWf_restoreNow (s : State) (v : Saved) (core : Nat) (wf : memWf s.mem = true) :
    memWf (restoreNow s v core).mem = true := by
  unfold restoreNow
  extract_lets old bytes back moved src cur
  have movedWf : memWf moved.mem = true := by simp [moved, wf]
  clear_value moved
  split
  · exact wf
  · extract_lets free co placed checked noted answered
    have placedWf : memWf placed.mem = true := movedWf
    clear_value placed
    have checkedWf : memWf checked.mem = true := by simp [checked, placedWf]
    have answeredWf : memWf answered.mem = true :=
      memWf_foldlState (fun _ _ wf => by simp [wf]) _ (by simp [noted, checkedWf])
    simp [answeredWf]

/-! Machine/Column.lean -/

@[simp] theorem moveBank_mem (s : State) (a b : Nat) : (moveBank s a b).mem = s.mem := by rfl

@[simp] theorem memWf_saveHalf (s : State) (core : Nat) (wf : memWf s.mem = true) : memWf (saveHalf s core).mem = true
    := by
  unfold saveHalf
  (repeat' split) <;> simp [wf]

@[simp] theorem memWf_restoreHalf (s : State) (old core : Nat) (wf : memWf s.mem = true) :
    memWf (restoreHalf s old core).mem = true := by
  unfold restoreHalf
  split <;> simp [wf]

@[simp] theorem toSpare_mem (s : State) (pair pos : Nat) : (toSpare s pair pos).mem = s.mem := by rfl

@[simp] theorem memWf_migrateStep (s : State) (pair pos : Nat) (wf : memWf s.mem = true) :
    memWf (migrateStep s pair pos).mem = true := by
  unfold migrateStep
  extract_lets c l u old new fits t v w k x
  refine memWf_ite wf ?_
  have moved : memWf v.mem = true := by simp [v, t, wf]
  have spared : memWf w.mem = true := memWf_ite (by simp [moved]) moved
  clear_value w
  simp [x, spared]

@[simp] theorem unstopFor_mem (s : State) (core reason : Nat) : (unstopFor s core reason).mem = s.mem := by
  unfold unstopFor
  split <;> simp

@[simp] theorem remap_mem (s : State) (pair position : Nat) : (remap s pair position).mem = s.mem := by simp [remap]

/-! Machine/Protocol.lean -/

@[simp] theorem refuse_mem (s : State) (agent line : Nat) : (refuse s agent line).mem = s.mem := by rfl

@[simp] theorem uncachedRead_mem (s : State) (agent line : Nat) : (uncachedRead s agent line).mem = s.mem := by
  simp [uncachedRead]

@[simp] theorem dropCopies_mem (s : State) (line : Nat) : (dropCopies s line).mem = s.mem := by
  refine foldl_mem (fun t p => ?_) _ s
  split <;> simp

@[simp] theorem memWf_uncachedWrite (s : State) (agent line : Nat) (data : Line) (mask : LineMask)
    (wf : memWf s.mem = true) : memWf (uncachedWrite s agent line data mask).mem = true := by
  unfold uncachedWrite
  split
  · exact memWf_ite (by simp [memWf_memPut, wf]) (by simp [wf])
  · simp [wf]

@[simp] theorem memWf_askLine (s : State) (agent line : Nat) (r : HReq) (wf : memWf s.mem = true) :
    memWf (askLine s agent line r).mem = true := by
  unfold askLine
  split <;> simp [wf]

@[simp] theorem memWf_backStable (s : State) (h agent line : Nat) (data : Option Line) (wf : memWf s.mem = true) :
    memWf (backStable s h agent line data).mem = true := by simp [backStable, wf]

@[simp] theorem stir_mem (s : State) (h : Nat) : (stir s h).mem = s.mem := by simp [stir]

@[simp] theorem memWf_checkGlaze (s : State) (h line : Nat) (wf : memWf s.mem = true) :
    memWf (checkGlaze s h line).mem = true := by simp [checkGlaze, wf]

@[simp] theorem memWf_writeBack (s : State) (agent line : Nat) (data : Option Line) (wf : memWf s.mem = true) :
    memWf (writeBack s agent line data).mem = true := by
  unfold writeBack
  dsimp only
  (repeat' split) <;> simp [wf]

@[simp] theorem memWf_targetDone (s : State) (h agent line : Nat) (data : Option Line) (wf : memWf s.mem = true) :
    memWf (targetDone s h agent line data).mem = true := by
  unfold targetDone
  (repeat' split) <;> simp [wf]

@[simp] theorem memWf_ownerKept (s : State) (h agent line : Nat) (data : Line) (dirty : Bool)
    (wf : memWf s.mem = true) :
    memWf (ownerKept s h agent line data dirty).mem = true := by
  unfold ownerKept
  split
  · exact wf
  · split
    · refine memWf_ite wf (memWf_finishWith _ _ (fun t wf => ?_) wf)
      have kept := memWf_homeWay t h line wf
      generalize homeWay t h line = r at kept ⊢
      obtain ⟨u, k, w⟩ := r
      have wf : memWf u.mem = true := kept
      dsimp only
      split <;> simp [wf]
    · exact wf

@[simp] theorem memWf_heldNone (s : State) (h agent line : Nat) (wf : memWf s.mem = true) :
    memWf (heldNone s h agent line).mem = true := by
  unfold heldNone
  split
  · exact wf
  · split
    · refine memWf_ite wf (memWf_ite (by simp [wf]) (memWf_finishWith _ _ (fun t wf => ?_) wf))
      have kept := memWf_homeWay t h line wf
      generalize homeWay t h line = r at kept ⊢
      obtain ⟨u, k, w⟩ := r
      have wf : memWf u.mem = true := kept
      simp [wf]
    · simp [wf]

@[simp] theorem snoop_mem (s : State) (line : Nat) (inv : Bool) : (snoop s line inv).mem = s.mem := by
  unfold snoop
  dsimp only
  (repeat' split) <;> simp

@[simp] theorem memWf_granted (s : State) (line : Nat) (p : Phase → Bool) (held : Held) (data : Option Line)
    (wf : memWf s.mem = true) : memWf (granted s line p held data).mem = true := by
  unfold granted
  split
  · exact wf
  · dsimp only
    split
    · exact wf
    · refine memWf_finishWith _ _ (fun t wf => ?_) wf
      split <;> simp [wf]

@[simp] theorem memWf_endSent {s : State} (h line : Nat) (e : TEntry) {f : State → Req → State}
    (hf : ∀ t q, memWf t.mem = true → memWf (f t q).mem = true) (wf : memWf s.mem = true) :
    memWf (endSent s h line e f).mem = true := by
  refine memWf_finishWith _ _ (fun t wf => ?_) wf
  split
  · exact hf _ _ wf
  · exact wf

/-! Machine/Slices.lean -/

@[simp] theorem dropProvs_mem (s : State) (launch : Nat) (p : Nat → Bool) : (dropProvs s launch p).mem = s.mem := by
    rfl

@[simp] theorem memWf_loseBlock (s : State) (core b reason : Nat) (wf : memWf s.mem = true) :
    memWf (loseBlock s core b reason).mem = true := by
  unfold loseBlock
  split <;> simp [wf]

@[simp] theorem memWf_loseCore (s : State) (core reason : Nat) (wf : memWf s.mem = true) :
    memWf (loseCore s core reason).mem = true := by simp +contextual [loseCore, wf]

@[simp] theorem memWf_loseUnplaced (s : State) (id b reason : Nat) (wf : memWf s.mem = true) :
    memWf (loseUnplaced s id b reason).mem = true := by
  unfold loseUnplaced
  dsimp only
  (repeat' split) <;> simp +contextual [wf]

@[simp] theorem withdraw_mem (s : State) (id : Nat) (p : Nat → Bool) : (withdraw s id p).mem = s.mem := by rfl

@[simp] theorem memWf_loseLaunch (s : State) (id reason : Nat) (wf : memWf s.mem = true) :
    memWf (loseLaunch s id reason).mem = true := by
  unfold loseLaunch
  split
  · exact wf
  · extract_lets un t sites u v
    have lost : memWf u.mem = true := memWf_foldlState (fun _ _ wf => by simp [wf]) _ (by simp [t, wf])
    clear_value u
    have noted : memWf (un.foldl (fun s b => loseUnplaced s id b reason) v).mem = true :=
      memWf_foldlState (fun _ _ wf => by simp [wf]) _ lost
    simp [noted]

@[simp] theorem memWf_losePart (s : State) (part reason : Nat) (wf : memWf s.mem = true) :
    memWf (losePart s part reason).mem = true := by simp +contextual [losePart, wf]

@[simp] theorem restamp_mem (s : State) (line : Nat) : (restamp s line).mem = s.mem := by rfl

@[simp] theorem poisonDram_mem (s : State) (line : Nat) (bad : BitVec 4) : (poisonDram s line bad).mem = s.mem := by
  simp [poisonDram]

@[simp] theorem memWf_poisonLine (s : State) (h line : Nat) (wf : memWf s.mem = true) :
    memWf (poisonLine s h line).mem = true := by simp [poisonLine, wf]

/-! Machine/Control.lean -/

@[simp] theorem keepLine_mem (s : State) (x : Here) (line : Nat) : (keepLine s x line).mem = s.mem := by
  simp [keepLine]

@[simp] theorem memWf_fetchTrap (s : State) (x : Here) (cls : FClass) (word sector : W64) (wf : memWf s.mem = true) :
    memWf (fetchTrap s x cls word sector).mem = true := by simp [fetchTrap, wf]

@[simp] theorem memWf_refetch (s : State) (x : Here) (wf : memWf s.mem = true) : memWf (refetch s x).mem = true := by
  unfold refetch
  (repeat' split) <;> simp [wf]

@[simp] theorem memWf_fetchClause (s : State) (x : Here) (wf : memWf s.mem = true) : memWf (fetchClause s x).mem =
    true := by
  unfold fetchClause
  (repeat' split) <;> simp [wf]

@[simp] theorem goTo_mem (s : State) (x : Here) (wp : Warp) (pc via : W64) : (goTo s x wp pc via).mem = s.mem := by
    rfl

@[simp] theorem memWf_yieldWarp (s : State) (x : Here) (wf : memWf s.mem = true) : memWf (yieldWarp s x).mem = true :=
    by simp [yieldWarp, wf]

@[simp] theorem memWf_trapWord (s : State) (x : Here) (kind : BitVec 8) (code : Nat) (wf : memWf s.mem = true) :
    memWf (trapWord s x kind code).mem = true := by simp [trapWord, wf]

/-! Machine/Sys.lean -/

@[simp] theorem memWf_ctxWrite (s : State) (x : Here) (off : Nat) (bs : List Byte) (load : Core → Core)
    (wf : memWf s.mem = true) : memWf (ctxWrite s x off bs load).mem = true := by simp [ctxWrite, wf]

@[simp] theorem qpostDone_mem (s : State) (x : Here) (g : GLane) (img : List Byte) : (qpostDone s x g img).mem = s.mem
    := by simp [qpostDone]

@[simp] theorem memWf_qpostWrite (s : State) (x : Here) (g : GLane) (img : List Byte) (wf : memWf s.mem = true) :
    memWf (qpostWrite s x g img).mem = true := by
  unfold qpostWrite
  extract_lets part no body valid ready
  have refusedWf (t : State) (wf : memWf t.mem = true) : memWf (no t).mem = true := by simp [no, wf]
  clear_value no
  refine memWf_ite (by simp [wf]) (memWf_ite ?_ ?_)
  · have wrote : memWf (body.foldl (fun s w => writeUnit s part w) s).mem = true :=
      memWf_foldlState (fun _ _ wf => by simp [wf]) _ wf
    simp [wrote]
  · have put := memWf_unitPut s part (wordWho x 0) body true wf
    generalize unitPut s part (wordWho x 0) body true = r at put ⊢
    cases r with
    | wait t => exact put
    | prot t => exact refusedWf t put
    | go t =>
      dsimp only
      have wrote := memWf_unitWrites t part (wordWho x 1) [valid] put
      generalize unitWrites t part (wordWho x 1) [valid] = r at wrote ⊢
      cases r with
      | wait u => exact wrote
      | prot u => exact refusedWf u wrote
      | go u => exact (congrArg memWf (qpostDone_mem u x g img)).trans wrote

/-! Machine/Sched.lean -/

@[simp] theorem adoptCtx_mem (s : State) (part desc : Nat) (bs : List Byte) : (adoptCtx s part desc bs).1.mem = s.mem
    := rfl

@[simp] theorem enableLater_mem (s : State) (part q : Nat) : (enableLater s part q).mem = s.mem := by rfl

@[simp] theorem memWf_enableBad (s : State) (part q : Nat) (wf : memWf s.mem = true) : memWf (enableBad s part q).mem
    = true := by simp [enableBad, wf]

@[simp] theorem enableLost_mem (s : State) (part q : Nat) : (enableLost s part q).mem = s.mem := by rfl

@[simp] theorem memWf_enableGood (s : State) (part q : Nat) (bs : List Byte) (desc : Nat) (ds : List Byte)
    (wf : memWf s.mem = true) : memWf (enableGood s part q bs desc ds).mem = true := by
  unfold enableGood
  have kept := adoptCtx_mem s part desc ds
  generalize adoptCtx s part desc ds = r at kept ⊢
  obtain ⟨t, key⟩ := r
  have wf : memWf t.mem = true := (congrArg memWf kept).trans wf
  simp [wf]

@[simp] theorem memWf_enableQueue (s : State) (part q pa : Nat) (wf : memWf s.mem = true) :
    memWf (enableQueue s part q pa).mem = true := by
  unfold enableQueue
  have got := memWf_unitBytes s part (deviceWho 3 (queueKey part q)) pa 64 wf
  generalize unitBytes s part (deviceWho 3 (queueKey part q)) pa 64 = r at got ⊢
  obtain ⟨r, bs⟩ := r
  cases r with
  | wait t => exact got
  | prot t => exact got
  | go t =>
    have kept : memWf t.mem = true := got
    refine memWf_ite (memWf_enableBad t part q got) ?_
    have had := memWf_unitBytes t part (deviceWho 3 (32768 + queueKey part q)) (descNat bs 0x10 8) 128 kept
    generalize unitBytes t part (deviceWho 3 (32768 + queueKey part q)) (descNat bs 0x10 8) 128 = r at had ⊢
    obtain ⟨r, ds⟩ := r
    cases r with
    | wait u => exact had
    | prot u => exact memWf_enableBad u part q had
    | go u => exact memWf_ite (memWf_enableGood _ _ _ _ _ _ had) (memWf_enableBad u part q had)

@[simp] theorem memWf_enableGo (s : State) (part q : Nat) (wf : memWf s.mem = true) : memWf (enableGo s part q).mem =
    true := by
  unfold enableGo
  dsimp only
  (repeat' split) <;> simp [wf]

@[simp] theorem memWf_acceptSlot (s : State) (part qn : Nat) (q : Queue) (bs : List Byte) (wf : memWf s.mem = true) :
    memWf (acceptSlot s part qn q bs).mem = true := by simp [acceptSlot, wf]

@[simp] theorem memWf_slotFault (s : State) (part qn code : Nat) (wf : memWf s.mem = true) :
    memWf (slotFault s part qn code).mem = true := by simp [slotFault, wf]

@[simp] theorem noteReady_mem (s : State) : (noteReady s).mem = s.mem := by rfl

@[simp] theorem memWf_startCmd {s : State} (part queue index : Nat) (ty : Nat → Bool) {f : State → Cmd → State}
    (hf : ∀ t c, memWf t.mem = true → memWf (f t c).mem = true) (wf : memWf s.mem = true) :
    memWf (startCmd s part queue index ty f).mem = true := by
  unfold startCmd
  split
  · exact wf
  · refine memWf_ite wf ?_
    dsimp only
    split
    · simp [wf]
    · exact hf _ _ wf

@[simp] theorem startCopy_mem (s : State) (c : Cmd) : (startCopy s c).mem = s.mem := by simp [startCopy]

@[simp] theorem memWf_startSignal (s : State) (c : Cmd) (wf : memWf s.mem = true) : memWf (startSignal s c).mem = true
    := by
  unfold startSignal
  split <;> simp [wf]

@[simp] theorem memWf_waitOut (s : State) (c : Cmd) (code : Nat) (wf : memWf s.mem = true) :
    memWf (waitOut s c code).mem = true := by simp [waitOut, wf]

@[simp] theorem memWf_waitDone (s : State) (c : Cmd) (wf : memWf s.mem = true) : memWf (waitDone s c).mem = true := by
  simp [waitDone, wf]

@[simp] theorem memWf_startWait (s : State) (c : Cmd) (wf : memWf s.mem = true) : memWf (startWait s c).mem = true :=
    by
  unfold startWait
  dsimp only
  (repeat' split) <;> simp [wf]

@[simp] theorem unspill_mem (s : State) (c : Cmd) : (unspill s c).1.mem = s.mem := by
  unfold unspill
  split
  · rfl
  · split
    · split <;> rfl
    · rfl

@[simp] theorem irqAll_mem (s : State) : (irqAll s).mem = s.mem := foldl_mem (fun t p => irq_mem t p 0) _ s

@[simp] theorem memWf_loseUnbound (s : State) (id : Nat) (wf : memWf s.mem = true) : memWf (loseUnbound s id).mem =
    true := by
  unfold loseUnbound
  dsimp only
  (repeat' split) <;> simp +contextual [wf]

@[simp] theorem memWf_takeover (s : State) (wf : memWf s.mem = true) : memWf (takeover s).mem = true := by
  unfold takeover
  extract_lets t u flying
  have lost : memWf u.mem = true := memWf_foldlState (fun _ _ wf => by simp [wf]) _ wf
  clear_value u
  have ended : memWf (flying.foldl (fun s c => completeCmd s c 0x15 0) u).mem = true :=
    memWf_foldlState (fun _ _ wf => by simp [wf]) _ lost
  simp [ended]

/-! Machine/Place.lean -/

@[simp] theorem memWf_beginLaunch (s : State) (c : Cmd) (l : Launch) (blocks : List Nat) (wf : memWf s.mem = true) :
    memWf (beginLaunch s c l blocks).mem = true := by simp [beginLaunch, wf]

@[simp] theorem memWf_startLaunch (s : State) (c : Cmd) (wf : memWf s.mem = true) : memWf (startLaunch s c).mem = true
    := by
  unfold startLaunch
  dsimp only
  (repeat' split) <;> simp [wf]

@[simp] theorem takeCtx_mem (s : State) (core ctx : Nat) : (takeCtx s core ctx).mem = s.mem := by simp [takeCtx]

/-- Memory is canonical in the state that a choice may give. -/
def MaybeCanonical (o : Option State) : Bool := o.all fun s => memWf s.mem

@[simp] theorem maybeCanonical_some (s : State) : MaybeCanonical (some s) = memWf s.mem := rfl

theorem maybeCanonical_map {o : Option State} {f : State → State} (hf : ∀ s, memWf s.mem = true → memWf (f s).mem = true)
    (ho : MaybeCanonical o = true) : MaybeCanonical (o.map f) = true := by
  cases o with
  | none => rfl
  | some s => exact hf s ho

theorem maybeCanonical_bind {o : Option State} {f : State → Option State}
    (hf : ∀ s, memWf s.mem = true → MaybeCanonical (f s) = true) (ho : MaybeCanonical o = true) : MaybeCanonical (o.bind f) = true := by
  cases o with
  | none => rfl
  | some s => exact hf s ho

theorem maybeCanonical_findSome {ι : Type} {f : ι → Option State} (hf : ∀ i, MaybeCanonical (f i) = true) (l : List ι) :
    MaybeCanonical (l.findSome? f) = true := by
  induction l with
  | nil => rfl
  | cons i l ih =>
    rw [List.findSome?_cons]
    have here := hf i
    generalize f i = o at here ⊢
    cases o with
    | none => exact ih
    | some s => exact here

theorem maybeCanonical_takeBank {s : State} (core id : Nat) (l : Launch) (n : Nat) (wf : memWf s.mem = true) :
    MaybeCanonical ((takeBank s core id l n).map (·.1)) = true := by
  unfold takeBank
  extract_lets own fresh
  have freshWf : MaybeCanonical ((fresh s).map (·.1)) = true := by
    simp only [fresh]
    split
    · rfl
    · exact wf
  clear_value fresh
  split
  · exact wf
  · split
    · exact freshWf
    · split
      · exact wf
      · cases h : fresh s with
        | none => rfl
        | some r =>
          rw [h] at freshWf
          exact freshWf

theorem maybeCanonical_bindPart {s : State} (core id b k : Nat) (sub : Sub) (shadow : Shadow)
    (wf : memWf s.mem = true) : MaybeCanonical (bindPart s core id b k sub shadow) = true := by
  unfold bindPart
  split
  · rfl
  · next l _ =>
    split
    · rfl
    · dsimp -zeta only
      extract_lets crew
      have taken := maybeCanonical_takeBank core id l (bankOfSub sub) wf
      generalize takeBank s core id l (bankOfSub sub) = r at taken ⊢
      cases r with
      | none => rfl
      | some r =>
        obtain ⟨t, bank, gs⟩ := r
        have wf : memWf t.mem = true := taken
        split
        · next heq _ =>
          cases heq
          extract_lets u
          have wf : memWf u.mem = true := by
            simp only [u]
            split
            · next h => rw [allocCrew_mem h, wf]
            · exact wf
          clear_value u
          generalize placePart _ _ _ _ = p
          cases p with
          | none => rfl
          | some p => exact (congrArg memWf (takeCtx_mem u core l.ctx)).trans wf
        · rfl

theorem maybeCanonical_bindScreened {s : State} (core id b k : Nat) (sub : Sub) (wf : memWf s.mem = true) :
    MaybeCanonical (bindScreened s core id b k sub) = true := by
  unfold bindScreened
  split
  · rfl
  · split
    · exact maybeCanonical_bindPart _ _ _ _ _ _ wf
    · extract_lets n wide back cs
      have bound := maybeCanonical_bindPart core id b k sub (.original n) wf
      generalize bindPart s core id b k sub (.original n) = o at bound ⊢
      cases o with
      | none => rfl
      | some t =>
        have widened : memWf (wide t).mem = true := bound
        have backWf (u : State) (wf : memWf u.mem = true) : memWf (back u).mem = true := wf
        clear_value wide back
        exact maybeCanonical_map backWf (maybeCanonical_findSome (fun _ => maybeCanonical_bindPart _ _ _ _ _ _ widened) _)

theorem maybeCanonical_bindBlock {s : State} (core id b : Nat) (subs : List Sub) (wf : memWf s.mem = true) :
    MaybeCanonical (bindBlock s core id b subs) = true := by
  unfold bindBlock
  generalize (List.range subs.length).zip subs = l
  have start : MaybeCanonical (some s) = true := wf
  generalize some s = o at start
  induction l generalizing o with
  | nil => exact start
  | cons p l ih => exact ih _ (maybeCanonical_bind (fun _ wf => maybeCanonical_bindScreened _ _ _ _ _ wf) start)

theorem maybeCanonical_bindUnit {s : State} (core id b : Nat) (wf : memWf s.mem = true) :
    MaybeCanonical (bindUnit s core id b) = true := by
  unfold bindUnit
  split
  · rfl
  · have bound := maybeCanonical_bindBlock core id b (‹Launch› : Launch).subs wf
    dsimp only
    split
    · exact maybeCanonical_bind (fun _ wf => maybeCanonical_bindBlock _ _ _ _ wf) bound
    · exact bound

theorem maybeCanonical_placeUnit {s : State} (leaf id b : Nat) (wf : memWf s.mem = true) :
    MaybeCanonical (placeUnit s leaf id b) = true :=
  maybeCanonical_map (fun _ wf => by simpa using wf) (maybeCanonical_findSome (fun _ => maybeCanonical_bindUnit _ _ _ wf) _)

/-! Machine/Proofed.lean -/

@[simp] theorem memWf_startProofed (s : State) (c : Cmd) (wf : memWf s.mem = true) : memWf (startProofed s c).mem =
    true := by
  unfold startProofed
  dsimp only
  (repeat' split) <;> simp [wf]

@[simp] theorem memWf_arenaFree (s : State) (l : Launch) (p c : Nat) (wf : memWf s.mem = true) :
    memWf (arenaFree s l p c).mem = true := by
  unfold arenaFree
  split <;> simp [wf]

@[simp] theorem sweepReqs_mem (s : State) (id x : Nat) : (sweepReqs s id x).mem = s.mem := by rfl
@[simp] theorem sweepCopies_mem (s : State) (id x : Nat) : (sweepCopies s id x).mem = s.mem := by rfl

@[simp] theorem memWf_trimBlock (s : State) (l : Launch) (core b : Nat) (wf : memWf s.mem = true) :
    memWf (trimBlock s l core b).mem = true := by
  unfold trimBlock
  split
  · exact wf
  · next x _ =>
    have freed : memWf (x.arena.foldl (fun s a => arenaFree s l a.1 a.2) s).mem = true :=
      memWf_foldlState (fun _ _ wf => by simp [wf]) _ wf
    simp [freed]

@[simp] theorem dropSaved_mem (s : State) (v : Saved) : (dropSaved s v).mem = s.mem := by
  unfold dropSaved
  extract_lets im half t u
  clear_value half
  have kept : u.mem = s.mem := by
    simp only [u]
    split
    · rfl
    · exact modCore_mem ..
  clear_value u
  simp [kept]

@[simp] theorem dropEmptySaves_mem (s : State) : (dropEmptySaves s).mem = s.mem := by simp [dropEmptySaves]

@[simp] theorem memWf_commitLine (s : State) (part h : Nat) (p : ProvLine) (wf : memWf s.mem = true) :
    memWf (commitLine s part h p).mem = true := by
  unfold commitLine
  extract_lets check t
  have checked : memWf (p.races.foldl check s).mem = true := memWf_foldlState (fun _ _ wf => by simp [check, wf]) _ wf
  have wrote : memWf t.mem = true := by simp [t, checked]
  clear_value t
  exact memWf_foldlState (fun _ _ wf => by simp [wf]) _ wrote

@[simp] theorem memWf_wakeShapes (s : State) (id : Nat) (shape : Nat) (wf : memWf s.mem = true) :
    memWf (wakeShapes s id shape).mem = true := by simp [wakeShapes, wf]

@[simp] theorem memWf_makeCertain (s : State) (id : Nat) (wf : memWf s.mem = true) : memWf (makeCertain s id).mem =
    true := by simp +contextual [makeCertain, wf]

@[simp] theorem settleLaunch_mem (s : State) (id x : Nat) (timeout : Bool) : (settleLaunch s id x timeout).mem = s.mem
    := by
  unfold settleLaunch
  split <;> simp

@[simp] theorem memWf_beyondLimit (s : State) (id x : Nat) (wf : memWf s.mem = true) : memWf (beyondLimit s id x).mem
    = true := by
  unfold beyondLimit
  split <;> simp [wf]

@[simp] theorem addTail_mem (s : State) (id x : Nat) : (addTail s id x).mem = s.mem := by rfl

@[simp] theorem memWf_resolve (s : State) (id x : Nat) (timeout : Bool) (wf : memWf s.mem = true) :
    memWf (resolve s id x timeout).mem = true := by
  unfold resolve
  split
  · exact wf
  · extract_lets gone lines commit need missing t u v w settled woken counted told learned
    refine memWf_ite (memWf_foldlState (fun _ _ wf => by simp [wf]) _ wf) ?_
    have trimmed : memWf u.mem = true := memWf_foldlState (fun _ _ wf => by simp [wf]) _ (by simp [t, wf])
    have committed : memWf w.mem = true := by
      have all : memWf (commit.foldl (fun s p => commitLine s (‹Launch› : Launch).part p.1 p.2) v).mem = true :=
        memWf_foldlState (fun _ _ wf => by simp [wf]) _ (by simp [v, trimmed])
      simp [w, all]
    have wakened : memWf woken.mem = true := by simp [woken, settled, committed]
    have ended : memWf counted.mem = true := memWf_foldlState (fun _ _ wf => by simp [wf]) _ wakened
    have said : memWf told.mem = true := memWf_ite (by simp [ended]) (by simp [ended])
    have noted : memWf learned.mem = true := memWf_ite said said
    simp [noted]

/-! Machine/Chiplet.lean -/

@[simp] theorem chipNote_mem (s : State) (c code : Nat) : (chipNote s c code).mem = s.mem := by
  unfold chipNote
  dsimp only
  (repeat' split) <;> simp

@[simp] theorem memWf_cancelGather (s : State) (c : Nat) (wf : memWf s.mem = true) : memWf (cancelGather s c).mem =
    true := by simp +contextual [cancelGather, wf]

@[simp] theorem handBack_mem (s : State) (c : Nat) : (handBack s c).mem = s.mem := by rfl

@[simp] theorem memWf_fence (s : State) (c : Nat) (wf : memWf s.mem = true) : memWf (fence s c).mem = true := by
  simp [fence, wf]

@[simp] theorem dropReads_mem (s : State) (core : Nat) : (dropReads s core).mem = s.mem := by rfl

@[simp] theorem memWf_loseHeld (s : State) (core : Nat) (wf : memWf s.mem = true) : memWf (loseHeld s core).mem = true
    := by simp [loseHeld, wf]

@[simp] theorem memWf_dropChip (s : State) (c : Nat) (wf : memWf s.mem = true) : memWf (dropChip s c).mem = true := by
  simp [dropChip, wf]

/-! Machine/Cross.lean -/

@[simp] theorem memWf_crossTrap (s : State) (x : Here) (joint : Bool) (cls : FClass) (lanes : W32) (sector : Nat)
    (wf : memWf s.mem = true) : memWf (crossTrap s x joint cls lanes sector).mem = true := by simp [crossTrap, wf]

@[simp] theorem memWf_crossRun (s : State) (x : Here) (i : Instr) (g : Gen) (f : CrossForm) (joint miss : Bool)
    (wf : memWf s.mem = true) : memWf (crossRun s x i g f joint miss).mem = true := by
  unfold crossRun
  dsimp only
  (repeat' split) <;> simp [wf]

@[simp] theorem memWf_crossGo (s : State) (x : Here) (i : Instr) (g : Gen) (f : CrossForm) (wf : memWf s.mem = true) :
    memWf (crossGo s x i g f).mem = true := by
  unfold crossGo
  split <;> simp [wf]

/-! Machine/Crust.lean -/

@[simp] theorem crustRow_mem (s : State) (x : Here) (pg : Pages) (core b : Nat) (row : Nat × Nat × Nat) :
    (crustRow s x pg core b row).mem = s.mem := by simp [crustRow]

@[simp] theorem memWf_crustGo {s : State} (x : Here) (moves : List (Nat × Nat × List (Nat × Nat × Nat)))
    {k : State → State} (hk : ∀ t, memWf t.mem = true → memWf (k t).mem = true) (wf : memWf s.mem = true) :
    memWf (crustGo s x moves k).mem = true := by
  unfold crustGo
  extract_lets rows
  have checked := memWf_checkGlobal s x.core x.ctx x.exec true { r := true } (rowPages rows) wf
  generalize checkGlobal s x.core x.ctx x.exec true { r := true } (rowPages rows) = r at checked ⊢
  obtain ⟨t, c⟩ := r
  refine memWf_withChk x c (fun ls => ?_) checked
  extract_lets pg at'
  have got := memWf_wordReads t x 1 (rows.flatMap fun row => rangeLines t x.ctx pg row.1 row.2.2) checked
  generalize wordReads t x 1 (rows.flatMap fun row => rangeLines t x.ctx pg row.1 row.2.2) = r at got ⊢
  cases r with
  | wait u => exact got
  | prot u => exact memWf_fault u x _ _ _ _ got
  | go u =>
    have moved : memWf (moves.foldl (fun s m => m.2.2.foldl (fun s row => crustRow s x pg m.1 m.2.1 row) s) u).mem = true :=
      memWf_foldlState (fun _ _ wf => memWf_foldlState (fun _ _ wf => by simp [wf]) _ wf) _ got
    exact hk _ ((congrArg memWf (dropAnswers_mem _ _)).trans moved)

@[simp] theorem bindtClaim_mem (s : State) (x : Here) (obj : Nat) (r : List Byte) (tile : Nat) :
    (bindtClaim s x obj r tile).mem = s.mem := by rfl

@[simp] theorem memWf_bindtGo (s : State) (x : Here) (obj recVa : Nat) (r : List Byte) (tile last : Nat)
    (wf : memWf s.mem = true) : memWf (bindtGo s x obj recVa r tile last).mem = true := by
  unfold bindtGo
  dsimp only
  (repeat' split) <;> simp [wf]

@[simp] theorem memWf_relWrite (s : State) (x : Here) (m : Mem) (md : Mods) (g : GLane) (wf : memWf s.mem = true) :
    memWf (relWrite s x m md g).mem = true := by simp [relWrite, wf]

/-! Machine/Manage.lean -/

@[simp] theorem respond_mem (s : State) (code request : Nat) (body : List W64) : (respond s code request body).mem =
    s.mem := by rfl

@[simp] theorem answerOp_mem (s : State) (i : Issuer) (op why : Nat) : (answerOp s i op why).mem = s.mem := by
  unfold answerOp
  split <;> simp

@[simp] theorem memWf_operate {s : State} (i : Issuer) (op : Nat) (conds : List (Bool × Nat)) {f : State → State}
    (hf : memWf (f s).mem = true) (wf : memWf s.mem = true) : memWf (operate s i op conds f).mem = true := by
  unfold operate
  split <;> simp [hf, wf]

@[simp] theorem memWf_zeroDram (s : State) (lo hi : Nat) (wf : memWf s.mem = true) :
    memWf (zeroDram s lo hi).mem = true := by simp [zeroDram, memWf_outside, wf]

@[simp] theorem memWf_zeroSites (s : State) (lo n : Nat) (wf : memWf s.mem = true) : memWf (zeroSites s lo n).mem =
    true := by simp [zeroSites, wf]

@[simp] theorem memWf_makePart (s : State) (part lo n : Nat) (wf : memWf s.mem = true) :
    memWf (makePart s part lo n).mem = true := by simp [makePart, wf]

@[simp] theorem memWf_unmakePart (s : State) (part : Nat) (wf : memWf s.mem = true) : memWf (unmakePart s part).mem =
    true := by simp [unmakePart, wf]

@[simp] theorem memWf_flushRanges (s : State) (part : Nat) (rs : List (Nat × Nat)) (back : Bool)
    (wf : memWf s.mem = true) : memWf (flushRanges s part rs back).mem = true := by
  unfold flushRanges
  dsimp only
  (repeat' split) <;> simp +contextual [wf]

@[simp] theorem setSeal_mem (s : State) (k st : Nat) : (setSeal s k st).mem = s.mem := by rfl

@[simp] theorem memWf_breakSeal (s : State) (k : Nat) (wf : memWf s.mem = true) : memWf (breakSeal s k).mem = true :=
    by
  unfold breakSeal
  dsimp only
  (repeat' split) <;> simp [wf]

@[simp] theorem memWf_sealStep (s : State) (k st : Nat) (wf : memWf s.mem = true) : memWf (sealStep s k st).mem = true
    := by
  unfold sealStep
  dsimp only
  (repeat' split) <;> simp [wf]

@[simp] theorem linkWrite_mem (off : Nat) (v : W64) (s : State) (pair : Nat) : (linkWrite off v s pair).mem = s.mem :=
    by simp [linkWrite]

@[simp] theorem carveWrite_mem (v : W64) (s : State) (site : Nat) : (carveWrite v s site).mem = s.mem := by
  simp [carveWrite]

/-! Machine/Device.lean -/

@[simp] theorem respondSigned_mem (s : State) (code request : Nat) (body : List W64) :
    (respondSigned s code request body).mem = s.mem := by simp [respondSigned]

@[simp] theorem spdmError_mem (s : State) (request err : Nat) : (spdmError s request err).mem = s.mem := by rfl

@[simp] theorem memWf_needsFirmware {s : State} (request : Nat) {f : State → State} (hf : memWf (f s).mem = true)
    (wf : memWf s.mem = true) : memWf (needsFirmware s request f).mem = true :=
  memWf_ite (by simp [wf]) hf

@[simp] theorem memWf_inSession {s : State} (r : SpdmReq) (request : Nat) {f : State → State}
    (hf : memWf (f s).mem = true) (wf : memWf s.mem = true) : memWf (inSession s r request f).mem = true :=
  memWf_needsFirmware request (memWf_ite hf (by simp [wf])) wf

@[simp] theorem memWf_insecureNotice (s : State) (part : Nat) (wf : memWf s.mem = true) :
    memWf (insecureNotice s part).mem = true := by simp [insecureNotice, wf]

@[simp] theorem hostAnswer_mem (s : State) (addr : Nat) (r : Option (List Byte)) : (hostAnswer s addr r).mem = s.mem
    := by rfl

@[simp] theorem dropStored_mem (s : State) (line : Nat) : (dropStored s line).mem = s.mem := by
  unfold dropStored
  dsimp only
  (repeat' split) <;> simp

@[simp] theorem memWf_storeRaw (s : State) (a : Nat) (bs : List Byte) (wf : memWf s.mem = true) :
    memWf (storeRaw s a bs).mem = true := by simp [storeRaw, memWf_memPut, wf]

@[simp] theorem memWf_hostWrite (s : State) (part : Nat) (ps : List (Nat × Nat)) (addr : Nat) (bs : List Byte)
    (wf : memWf s.mem = true) : memWf (hostWrite s part ps addr bs).mem = true := by
  refine memWf_foldlState (fun t p wf => ?_) _ wf
  exact memWf_ite (by simp [wf]) (by simp [wf])

@[simp] theorem memWf_hostGo (s : State) (part : Nat) (write : Bool) (addr : Nat) (bytes : List Byte)
    (wf : memWf s.mem = true) : memWf (hostGo s part write addr bytes).mem = true := by
  unfold hostGo
  dsimp only
  (repeat' split) <;> simp [wf]

@[simp] theorem memWf_hostNext (s : State) (x : Nat × Bool × Nat × List Byte) (wf : memWf s.mem = true) :
    memWf (hostNext s x).mem = true := by simp [hostNext, wf]

@[simp] theorem memWf_afterReset (s : State) (cold : Bool) : memWf (afterReset s cold).mem = true := rfl
@[simp] theorem romOnly_mem (s : State) (r : BitVec 8) : (romOnly s r).mem = s.mem := by rfl

@[simp] theorem memWf_startParts (s : State) (x : StartIn) (good : List Nat) (wf : memWf s.mem = true) :
    memWf (startParts s x good).mem = true := by
  unfold startParts
  split
  · simp [wf]
  · have made : memWf (x.parts.foldl (fun s p =>
        if partSize p.1 p.2 && partFree s (p.1 * p.2) p.1 then makePart s (p.1 * p.2) (p.1 * p.2) p.1 else s) s).mem =
          true := memWf_foldlState (fun _ _ wf => memWf_ite (by simp [wf]) wf) _ wf
    simpa using made

@[simp] theorem memWf_startOnce (s : State) (x : StartIn) (r : BitVec 8) (wf : memWf s.mem = true) :
    memWf (startOnce s x r).1.mem = true := by
  unfold startOnce
  extract_lets t bad u good
  have wf : memWf t.mem = true := wf
  have dropped : memWf u.mem = true := memWf_foldlState (fun _ _ wf => by simpa using wf) _ wf
  clear_value t u
  (repeat' split) <;> simp [wf, dropped]

@[simp] theorem memWf_startGo (n : Nat) (s : State) (x : StartIn) (r : BitVec 8) (wf : memWf s.mem = true) :
    memWf (startGo n s x r).mem = true := by
  induction n generalizing s r with
  | zero => exact wf
  | succ n ih =>
    unfold startGo
    have started := memWf_startOnce s x r wf
    generalize startOnce s x r = p at started ⊢
    obtain ⟨t, o⟩ := p
    cases o with
    | none => exact started
    | some r' => exact ih _ _ (memWf_afterReset _ _)

@[simp] theorem memWf_startCold (s : State) (x : StartIn) : memWf (startCold s x).mem = true :=
  memWf_startGo _ _ _ _ (memWf_afterReset _ _)

@[simp] theorem memWf_startWarm (s : State) (x : StartIn) (r : BitVec 8) : memWf (startWarm s x r).mem = true :=
  memWf_startGo _ _ _ _ (memWf_afterReset _ _)

@[simp] theorem loseWay_mem (s : State) (h key : Nat) (w : Way) : (loseWay s h key w).mem = s.mem := by simp [loseWay]

/-! Machine/Turn.lean -/

@[simp] theorem memWf_afterTurn (s : State) (wf : memWf s.mem = true) : memWf (afterTurn s).mem = true := by
  unfold afterTurn
  have settled := memWf_lateAll _ (memWf_respAll _ (memWf_calmAll s wf))
  generalize lateAll (respAll (calmAll s)) = t at settled ⊢
  have ended : memWf ((tkeys t.launches).foldl launchDone t).mem = true :=
    memWf_foldlState (fun _ _ wf => memWf_launchDone _ _ wf) _ settled
  simp [ended]

@[simp] theorem memWf_elapse (s : State) (n : Nat) (wf : memWf s.mem = true) : memWf (elapse s n).mem = true := by
  simp [elapse, wf]

@[simp] theorem memWf_undefinedWord (s : State) (wf : memWf s.mem = true) : memWf (undefinedWord s).mem = true := by
  unfold undefinedWord
  (repeat' split) <;> simp [wf]

@[simp] theorem nextTurn_mem (s : State) : (nextTurn s).2.mem = s.mem := by
  unfold nextTurn
  split
  · rfl
  · split <;> rfl

/-! Machine/Crew.lean -/

theorem proceeds_crewWord (i : Instr) (ends : Bool) (s : State) : Proceeds s (crewWord i ends s) := by
  refine proceeds_word fun x wf => ?_
  split
  · next f form => exact memWf_crewGo x (sound_crewForm form) wf
  · exact wf

/-! Machine/Protocol.lean -/

theorem proceeds_fromAgent {agent : Nat} {i : Instr} {s : State} {f : State → State}
    (hf : memWf s.mem = true → memWf (f s).mem = true) : Proceeds s (fromAgent agent i s f) :=
  proceeds_event fun wf => memWf_ite (hf wf) wf

/-! Machine/Scalar.lean -/

theorem proceeds_scaWord (i : Instr) (d : BitVec 8) (s : State) (f : Here → W32) : Proceeds s (scaWord i d s f) :=
  proceeds_word fun _ wf => by simp [wf]

theorem proceeds_mskWord (i : Instr) (d : BitVec 8) (s : State) (f : Here → W32) : Proceeds s (mskWord i d s f) :=
  proceeds_word fun _ wf => by simp [wf]

/-! Machine/Vector.lean -/

theorem proceeds_laneWord (i : Instr) (s : State) (srcs : List (Src × Bool)) (f : Here → Warp) :
    Proceeds s (laneWord i s srcs f) :=
  proceeds_word fun _ wf => memWf_ite (by simp [wf]) (by simp [wf])

theorem proceeds_vecRaw (i : Instr) (d : BitVec 8) (s : State) (srcs : List Src) (f : Here → (Src → W32) → Nat → W32)
    :
    Proceeds s (vecRaw i d s srcs f) := proceeds_laneWord _ _ _ _

/-! WellFormed.lean -/

theorem proceeds_vecTy (i : Instr) (d : BitVec 8) (t : Ty) (s : State) (srcs : List Src) (f : (Src → Nat) → Nat) :
    Proceeds s (vecTy' i d t s srcs f) := proceeds_laneWord _ _ _ _

/-! Machine/Vector.lean -/

theorem proceeds_vecMask (i : Instr) (d : BitVec 8) (s : State) (srcs : List (Src × Bool)) (f : Here → Nat → Bool) :
    Proceeds s (vecMask i d s srcs f) := proceeds_laneWord _ _ _ _

theorem proceeds_halfWord (i : Instr) (g : Gen) (s : State) (srcs : List Src) (f : (Src → Nat) → Nat) :
    Proceeds s (halfWord i g s srcs f) := proceeds_laneWord _ _ _ _

/-! Machine/Cross.lean -/

theorem proceeds_crossWord (i : Instr) (g : Gen) (f : CrossForm) (s : State) : Proceeds s (crossWord i g f s) := by
  unfold crossWord
  split
  · exact proceeds_next id
  · split
    · exact proceeds_next fun wf => by simp [wf]
    · exact proceeds_next fun wf => by simp [wf]

theorem memWf_of_checkGlobal {s t : State} {core ctx : Nat} {exec : W32} {scalar : Bool} {need : Need}
    {addrs : List (Nat × Nat)} {c : Chk (List GLane)} (h : checkGlobal s core ctx exec scalar need addrs = (t, c))
    (wf : memWf s.mem = true) : memWf t.mem = true := by
  have checked := memWf_checkGlobal s core ctx exec scalar need addrs wf
  rwa [h] at checked

/-! Machine/Mem.lean -/

theorem proceeds_execVld (m : Mem) (s : State) : Proceeds s (execVld m s) :=
  proceeds_memWord fun _ _ wf => by simp [wf]

theorem proceeds_execVldx (m : Mem) (s : State) : Proceeds s (execVldx m s) :=
  proceeds_memWord fun _ _ wf => by simp [wf]

theorem proceeds_execSld (m : Mem) (s : State) : Proceeds s (execSld m s) :=
  proceeds_memWord fun _ _ wf => by simp [wf]

theorem proceeds_execSldk (m : Imm) (s : State) : Proceeds s (execSldk m s) := by
  refine proceeds_word fun x wf => ?_
  split <;> simp [wf]

theorem proceeds_execVst (m : Mem) (s : State) : Proceeds s (execVst m s) :=
  proceeds_memWord fun _ _ wf => by simp [wf]

theorem proceeds_execVstx (m : Mem) (s : State) : Proceeds s (execVstx m s) :=
  proceeds_memWord fun _ _ wf => by simp [wf]

theorem proceeds_execSst (m : Mem) (s : State) : Proceeds s (execSst m s) :=
  proceeds_memWord fun _ _ wf => by simp [wf]

theorem proceeds_execAtom (m : Mem) (e : AtomExt) (s : State) : Proceeds s (execAtom m e s) :=
  proceeds_memWord fun _ _ wf => by simp [wf]

theorem proceeds_execAtomcas (m : Mem) (e : CasExt) (s : State) : Proceeds s (execAtomcas m e s) :=
  proceeds_memWord fun _ _ wf => by simp [wf]

theorem proceeds_execMwait (m : Mem) (e : MwExt) (s : State) : Proceeds s (execMwait m e s) := by
  refine proceeds_memWord fun x md wf => ?_
  refine memWf_ite (by simp [wf]) <| memWf_ite wf <| memWf_ite (by simp [wf]) <| memWf_ite (by simp [wf]) ?_
  generalize hr : checkGlobal s _ _ _ _ _ _ = r
  obtain ⟨t, c⟩ := r
  have checked := memWf_of_checkGlobal hr wf
  refine memWf_withChk x c (fun _ => memWf_mwaitTest _ _ _ _ ?_) checked
  simp [waitAt, checked]

theorem proceeds_execFence (m : Mem) (s : State) : Proceeds s (execFence m s) := by
  refine proceeds_memWord fun x md wf => ?_
  split <;> simp [wf]

theorem proceeds_execAcq (m : Mem) (s : State) : Proceeds s (execAcq m s) := by
  refine proceeds_memWord fun x md wf => ?_
  refine memWf_ite (by simp [wf]) <| memWf_ite wf <| memWf_ite (by simp [wf]) ?_
  generalize hr : checkGlobal s _ _ _ _ _ _ = r
  obtain ⟨t, c⟩ := r
  have checked := memWf_of_checkGlobal hr wf
  exact memWf_withChk x c (fun _ => memWf_loadLanes _ _ _ _ _ _ _ _ _ checked) checked

theorem proceeds_execBind (m : Mem) (s : State) : Proceeds s (execBind m s) := by
  refine proceeds_memWord fun x md wf => ?_
  dsimp only
  (repeat' split) <;> simp [wf]

theorem proceeds_execUnbind (m : Mem) (s : State) : Proceeds s (execUnbind m s) := by
  refine proceeds_memWord fun x md wf => ?_
  (repeat' split) <;> simp [wf]

theorem proceeds_execCinv (m : Mem) (s : State) : Proceeds s (execCinv m s) :=
  proceeds_memWord fun _ _ wf => by simp [wf]

theorem proceeds_execCwb (m : Mem) (s : State) : Proceeds s (execCwb m s) :=
  proceeds_memWord fun _ _ wf => by simp [wf]

theorem proceeds_execCpref (m : Mem) (s : State) : Proceeds s (execCpref m s) := by
  refine proceeds_memWord fun x md wf => ?_
  refine memWf_ite (by simp [wf]) <| memWf_ite wf <| memWf_ite (by simp [wf]) ?_
  rw [retireNow_mem]
  refine memWf_foldNState (fun i t wf => ?_) _ wf
  generalize hr : checkGlobal t _ _ _ _ _ _ = r
  obtain ⟨u, c⟩ := r
  have checked := memWf_of_checkGlobal hr wf
  dsimp -zeta only
  split
  · simp [checked]
  · exact checked

theorem proceeds_execAlloc (m : Mem) (s : State) : Proceeds s (execAlloc m s) := by
  refine proceeds_memWord fun x md wf => ?_
  refine memWf_ite (by simp [wf]) <| memWf_ite wf <| memWf_ite (by simp [wf]) ?_
  generalize hr : checkGlobal s _ _ _ _ _ _ = r
  obtain ⟨t, c⟩ := r
  have checked := memWf_of_checkGlobal hr wf
  refine memWf_withChk x c (fun ls => ?_) checked
  refine memWf_ite checked <| memWf_ite (by simp [checked]) <| memWf_ite (by simp [checked]) <|
    memWf_ite (by simp [checked]) <| memWf_ite (by simp [checked]) ?_
  dsimp -zeta only
  extract_lets away dropped put hit noted
  clear_value away
  have droppedWf : memWf dropped.mem = true := by simp [dropped, checked]
  have putWf : memWf put.mem = true :=
    memWf_ite droppedWf (memWf_foldlState (fun _ _ wf => by simp [wf]) _ droppedWf)
  have notedWf : memWf noted.mem = true := memWf_ite (by simp [hit, putWf]) (by simp [hit, putWf])
  clear_value noted dropped
  split
  · simp [checked]
  · exact memWf_withChk x _ (fun _ => by simp [notedWf]) droppedWf

theorem proceeds_execFree (m : Mem) (s : State) : Proceeds s (execFree m s) := by
  refine proceeds_memWord fun x md wf => ?_
  refine memWf_ite (by simp [wf]) <| memWf_ite wf <| memWf_ite (by simp [wf]) <| memWf_ite (by simp [wf]) ?_
  dsimp only
  generalize hr : checkGlobal s _ _ _ _ _ _ = r
  obtain ⟨t, c⟩ := r
  have checked := memWf_of_checkGlobal hr wf
  refine memWf_withChk x c (fun hs => ?_) checked
  refine memWf_ite (by simp [checked]) <| memWf_ite (by simp [checked]) <| memWf_ite (by simp [checked]) ?_
  generalize hq : checkGlobal t _ _ _ _ _ _ = r
  obtain ⟨u, cp⟩ := r
  have checked := memWf_of_checkGlobal hq checked
  refine memWf_withChk x cp (fun ps => ?_) checked
  refine memWf_ite checked <| memWf_ite (by simp [checked]) <| memWf_ite (by simp [checked]) <|
    memWf_ite (by simp [checked]) <| memWf_withChk x _ (fun _ => ?_) checked
  rw [retireNow_mem, modCore_mem]
  exact memWf_ite (by simp [checked]) (by simp [checked])

/-! Machine/Crew.lean -/

theorem proceeds_execCrjoin (w : Crw) (s : State) : Proceeds s (execCrjoin w s) := proceeds_crewWord ..
theorem proceeds_execCrleave (w : Crw) (s : State) : Proceeds s (execCrleave w s) := proceeds_crewWord ..
theorem proceeds_execCrsync (w : Crw) (s : State) : Proceeds s (execCrsync w s) := proceeds_crewWord ..
theorem proceeds_execCrarrive (w : Crw) (s : State) : Proceeds s (execCrarrive w s) := proceeds_crewWord ..
theorem proceeds_execCrwait (w : Crw) (s : State) : Proceeds s (execCrwait w s) := proceeds_crewWord ..
theorem proceeds_execCrmap (w : Crw) (s : State) : Proceeds s (execCrmap w s) := proceeds_crewWord ..

theorem proceeds_execCrnew (w : Crw) (s : State) : Proceeds s (execCrnew w s) := by
  refine proceeds_word fun x wf => ?_
  cases made : newCrew s x (w.opt == 1) with
  | none => simp [wf]
  | some r =>
    obtain ⟨h, t⟩ := r
    simp [newCrew_mem made, wf]

theorem proceeds_execCrquery (w : Crw) (s : State) : Proceeds s (execCrquery w s) :=
  proceeds_word fun _ wf => by simp [wf]

/-! Machine/Copy.lean -/

theorem proceeds_execBcopy (w : Cpy) (s : State) : Proceeds s (execBcopy w s) :=
  proceeds_word fun _ wf => by simp [wf]

theorem proceeds_execBcopyc (w : Cpy) (s : State) : Proceeds s (execBcopyc w s) :=
  proceeds_word fun _ wf => by simp [wf]

theorem proceeds_execBseal (w : Bat) (s : State) : Proceeds s (execBseal w s) := proceeds_word fun _ wf => wf

theorem proceeds_execBwait (w : Bat) (s : State) : Proceeds s (execBwait w s) :=
  proceeds_word fun _ wf => by simp [wf]

theorem proceeds_execBquery (w : Bat) (s : State) : Proceeds s (execBquery w s) := proceeds_word fun _ wf => wf

theorem proceeds_execBcancel (w : Bat) (s : State) : Proceeds s (execBcancel w s) := by
  refine proceeds_word fun x wf => ?_
  dsimp only
  (repeat' split) <;> simp [wf]

theorem proceeds_execCopyStart (engine : Nat) (s : State) : Proceeds s (execCopyStart engine s) := by
  refine proceeds_event fun wf => ?_
  dsimp only
  (repeat' split) <;> simp [wf]

theorem proceeds_execCopyComplete (copy : Nat) (s : State) : Proceeds s (execCopyComplete copy s) := by
  refine proceeds_event fun wf => ?_
  dsimp only
  (repeat' split) <;> simp [wf]

theorem proceeds_execCopyEngineFail (engine : Nat) (s : State) : Proceeds s (execCopyEngineFail engine s) :=
  proceeds_event fun wf => by simp [wf]

/-! Machine/Barrier.lean -/

theorem proceeds_execBarrierMessage (chiplet : Nat) (s : State) : Proceeds s (execBarrierMessage chiplet s) := by
  refine proceeds_event fun wf => ?_
  split <;> simp [wf]

theorem proceeds_execBarrierRelease (core : Nat) (s : State) : Proceeds s (execBarrierRelease core s) := by
  refine proceeds_event fun wf => ?_
  split <;> simp [wf]

theorem proceeds_execCrewRecordError (handle : Nat) (s : State) : Proceeds s (execCrewRecordError handle s) :=
  proceeds_event fun wf => by simp [wf]

/-! Machine/Matrix.lean -/

theorem proceeds_execTrel (w : Mtx) (s : State) : Proceeds s (execTrel w s) := proceeds_mtxWord ..
theorem proceeds_execTload (w : Mtx) (s : State) : Proceeds s (execTload w s) := proceeds_mtxWord ..
theorem proceeds_execTloads (w : Mtx) (s : State) : Proceeds s (execTloads w s) := proceeds_mtxWord ..
theorem proceeds_execMma (w : Mtx) (s : State) : Proceeds s (execMma w s) := proceeds_mtxWord ..
theorem proceeds_execMmasp (w : Mtx) (s : State) : Proceeds s (execMmasp w s) := proceeds_mtxWord ..
theorem proceeds_execMloop (w : Mtx) (s : State) : Proceeds s (execMloop w s) := proceeds_mtxWord ..
theorem proceeds_execMdist (w : Mtx) (s : State) : Proceeds s (execMdist w s) := proceeds_mtxWord ..
theorem proceeds_execMtopk (w : Mtx) (s : State) : Proceeds s (execMtopk w s) := proceeds_mtxWord ..
theorem proceeds_execCzero (w : Mtx) (s : State) : Proceeds s (execCzero w s) := proceeds_mtxWord ..
theorem proceeds_execCload (w : Mtx) (s : State) : Proceeds s (execCload w s) := proceeds_mtxWord ..
theorem proceeds_execCstore (w : Mtx) (s : State) : Proceeds s (execCstore w s) := proceeds_mtxWord ..

theorem proceeds_execTclaim (w : Mtx) (s : State) : Proceeds s (execTclaim w s) :=
  proceeds_word fun _ wf => by simp [wf]

theorem proceeds_execCpop (w : Mtx) (s : State) : Proceeds s (execCpop w s) := proceeds_word fun _ wf => by simp [wf]
theorem proceeds_execMsync (w : Mtx) (s : State) : Proceeds s (execMsync w s) := proceeds_word fun _ wf => wf

/-! Machine/Queue.lean -/

theorem proceeds_execQpush (w : Que) (s : State) : Proceeds s (execQpush w s) := by
  refine proceeds_word fun x wf => ?_
  split <;> simp [wf]

theorem proceeds_execQpop (w : Que) (s : State) : Proceeds s (execQpop w s) := by
  refine proceeds_word fun x wf => ?_
  split <;> simp [wf]

theorem proceeds_execQpeek (w : Que) (s : State) : Proceeds s (execQpeek w s) := by
  refine proceeds_word fun x wf => ?_
  split <;> simp [wf]

theorem proceeds_execQcount (w : Que) (s : State) : Proceeds s (execQcount w s) := proceeds_word fun _ wf => wf

theorem proceeds_execTransitPlace (core : Nat) (s : State) : Proceeds s (execTransitPlace core s) :=
  proceeds_event fun wf => by simp [wf]

theorem proceeds_execVbusCheckFail (column : Nat) (s : State) : Proceeds s (execVbusCheckFail column s) :=
  proceeds_event fun wf => wf

theorem proceeds_execLaneRepair (column : Nat) (s : State) : Proceeds s (execLaneRepair column s) :=
  proceeds_event fun wf => by simp [wf]

theorem proceeds_execBusThaw (column : Nat) (s : State) : Proceeds s (execBusThaw column s) :=
  proceeds_event fun wf => by simp [wf]

/-! Machine/Engine.lean -/

theorem proceeds_execEnginePerform (core : Nat) (s : State) : Proceeds s (execEnginePerform core s) :=
  proceeds_event fun wf => by simp [wf]

/-! Machine/Context.lean -/

theorem proceeds_execDrvrespReplay (part ctxid core warp : Nat) (s : State) :
    Proceeds s (execDrvrespReplay part ctxid core warp s) :=
  proceeds_event fun wf => by simp [wf]

theorem proceeds_execDrvrespResume (part ctxid core warp : Nat) (s : State) :
    Proceeds s (execDrvrespResume part ctxid core warp s) :=
  proceeds_event fun wf => by simp [wf]

theorem proceeds_execDrvrespFail (part ctxid core warp : Nat) (s : State) :
    Proceeds s (execDrvrespFail part ctxid core warp s) :=
  proceeds_event fun wf => by simp [wf]

theorem proceeds_execContextRestore (core index : Nat) (s : State) : Proceeds s (execContextRestore core index s) :=
    by
  refine proceeds_event fun wf => ?_
  split
  · refine memWf_ite (memWf_ite (memWf_foldlState (fun _ _ wf => by simp [wf]) _ wf) ?_) wf
    dsimp only
    split <;> simp [wf]
  · exact wf

theorem proceeds_execPriorityPreempt (core part queue : Nat) (s : State) :
    Proceeds s (execPriorityPreempt core part queue s) :=
  proceeds_event fun wf => by simp [wf]

/-! Machine/Column.lean -/

theorem proceeds_execContextSave (core reason : Nat) (s : State) : Proceeds s (execContextSave core reason s) := by
  refine proceeds_event fun wf => ?_
  split <;> simp [wf]

theorem proceeds_execMigrate (pair position : Nat) (s : State) : Proceeds s (execMigrate pair position s) :=
  proceeds_event fun wf => by simp [wf]

theorem proceeds_execMigrationDrainTimeout (pair position : Nat) (s : State) :
    Proceeds s (execMigrationDrainTimeout pair position s) :=
  proceeds_event fun wf => by simp [wf]

theorem proceeds_execBusFail (column : Nat) (s : State) : Proceeds s (execBusFail column s) :=
  proceeds_event fun wf => by simp [wf]

theorem proceeds_execColumnRemap (pair position : Nat) (s : State) : Proceeds s (execColumnRemap pair position s) :=
  proceeds_event fun wf => by simp [wf]

theorem proceeds_execGateRequest (pair : Nat) (s : State) : Proceeds s (execGateRequest pair s) :=
  proceeds_event fun wf => by simp [wf]

theorem proceeds_execGatePowerOn (pair : Nat) (s : State) : Proceeds s (execGatePowerOn pair s) :=
  proceeds_event fun wf => by simp [wf]

theorem proceeds_execStorecfgWrite (core : Nat) (l1ways : BitVec 2) (s : State) :
    Proceeds s (execStorecfgWrite core l1ways s) :=
  proceeds_event fun wf => by simp [wf]

/-! Machine/Request.lean -/

theorem proceeds_execDramFetchDone (slice line : Nat) (s : State) : Proceeds s (execDramFetchDone slice line s) :=
  proceeds_event fun wf => by simp [wf]

theorem proceeds_execLr (port line : Nat) (s : State) : Proceeds s (execLr port line s) :=
  proceeds_event fun wf => by simp [wf]

theorem proceeds_execLw (port line : Nat) (s : State) : Proceeds s (execLw port line s) :=
  proceeds_event fun wf => by simp [wf]

theorem proceeds_execSliceGate (slice : Nat) (s : State) : Proceeds s (execSliceGate slice s) := by
  refine proceeds_event fun wf => ?_
  dsimp only
  (repeat' split) <;> simp [wf]

theorem proceeds_execSliceWake (slice : Nat) (s : State) : Proceeds s (execSliceWake slice s) :=
  proceeds_event fun wf => by simp [wf]

/-! Machine/Protocol.lean -/

theorem proceeds_execRds (agent line : Nat) (s : State) : Proceeds s (execRds agent line s) :=
  proceeds_fromAgent fun wf => by simp [wf]

theorem proceeds_execRdx (agent line : Nat) (s : State) : Proceeds s (execRdx agent line s) :=
  proceeds_fromAgent fun wf => by simp [wf]

theorem proceeds_execUpg (agent line : Nat) (s : State) : Proceeds s (execUpg agent line s) :=
  proceeds_fromAgent fun wf => by simp [wf]

theorem proceeds_execRdu (agent line : Nat) (s : State) : Proceeds s (execRdu agent line s) :=
  proceeds_fromAgent fun wf => by simp [wf]

theorem proceeds_execWru (agent line : Nat) (data : Line) (mask : LineMask) (s : State) :
    Proceeds s (execWru agent line data mask s) :=
  proceeds_fromAgent fun wf => by simp [wf]

theorem proceeds_execWbd (agent line : Nat) (data : Line) (s : State) : Proceeds s (execWbd agent line data s) :=
  proceeds_fromAgent fun wf => by simp [wf]

theorem proceeds_execWbc (agent line : Nat) (s : State) : Proceeds s (execWbc agent line s) :=
  proceeds_fromAgent fun wf => by simp [wf]

theorem proceeds_execRspi (agent line : Nat) (s : State) : Proceeds s (execRspi agent line s) :=
  proceeds_fromAgent fun wf => by simp [wf]

theorem proceeds_execRsps (agent line : Nat) (data : Line) (s : State) : Proceeds s (execRsps agent line data s) :=
  proceeds_fromAgent fun wf => by simp [wf]

theorem proceeds_execRspod (agent line : Nat) (data : Line) (s : State) : Proceeds s (execRspod agent line data s) :=
  proceeds_fromAgent fun wf => by simp [wf]

theorem proceeds_execRspid (agent line : Nat) (data : Line) (s : State) : Proceeds s (execRspid agent line data s) :=
  proceeds_fromAgent fun wf => by simp [wf]

theorem proceeds_execSnps (line : Nat) (s : State) : Proceeds s (execSnps line s) :=
  proceeds_fromAgent fun wf => by simp [wf]

theorem proceeds_execSnpi (line : Nat) (s : State) : Proceeds s (execSnpi line s) :=
  proceeds_fromAgent fun wf => by simp [wf]

theorem proceeds_execDatas (line : Nat) (data : Line) (s : State) : Proceeds s (execDatas line data s) :=
  proceeds_fromAgent fun wf => by simp [wf]

theorem proceeds_execDatae (line : Nat) (data : Line) (s : State) : Proceeds s (execDatae line data s) :=
  proceeds_fromAgent fun wf => by simp [wf]

theorem proceeds_execDatam (line : Nat) (data : Line) (s : State) : Proceeds s (execDatam line data s) :=
  proceeds_fromAgent fun wf => by simp [wf]

theorem proceeds_execGntm (line : Nat) (s : State) : Proceeds s (execGntm line s) :=
  proceeds_fromAgent fun wf => by simp [wf]

theorem proceeds_execWback (line : Nat) (s : State) : Proceeds s (execWback line s) := by
  refine proceeds_fromAgent fun wf => ?_
  split <;> simp [wf]

theorem proceeds_execDatau (line : Nat) (data : Line) (s : State) : Proceeds s (execDatau line data s) := by
  refine proceeds_fromAgent fun wf => ?_
  split
  · exact memWf_endSent _ _ _ (fun _ _ wf => memWf_ite (by simp [wf]) (by simp [wf])) wf
  · exact wf

theorem proceeds_execNocache (line : Nat) (s : State) : Proceeds s (execNocache line s) := by
  refine proceeds_fromAgent fun wf => ?_
  split
  · exact wf
  · next h e _ =>
    have refusedWf : memWf (endSent s h line e reqFault).mem = true :=
      memWf_endSent _ _ _ (fun _ _ wf => memWf_reqFault _ _ wf) wf
    split
    · refine memWf_ite refusedWf ?_
      split
      · exact refusedWf
      · simp [wf]
      · exact refusedWf
      · simp [wf]
    · exact wf

theorem proceeds_execErr (line : Nat) (s : State) : Proceeds s (execErr line s) := by
  refine proceeds_fromAgent fun wf => ?_
  split
  · exact memWf_endSent _ _ _ (fun _ _ wf => memWf_reqFault _ _ wf) wf
  · exact wf

/-! Machine/Slices.lean -/

theorem proceeds_execDramCorrectable (channel position : Nat) (s : State) :
    Proceeds s (execDramCorrectable channel position s) :=
  proceeds_event fun wf => wf

theorem proceeds_execDramUncorrectable (line : Nat) (sectors : BitVec 4) (s : State) :
    Proceeds s (execDramUncorrectable line sectors s) :=
  proceeds_event fun wf => by simp [wf]

theorem proceeds_execPatrolScrub (line : Nat) (bad : BitVec 4) (s : State) : Proceeds s (execPatrolScrub line bad s)
    :=
  proceeds_event fun wf => by simp [wf]

theorem proceeds_execGlazeLost (line : Nat) (s : State) : Proceeds s (execGlazeLost line s) := by
  refine proceeds_event fun wf => ?_
  split <;> simp [wf]

theorem proceeds_execSliceCorrectable (slice line : Nat) (s : State) : Proceeds s (execSliceCorrectable slice line s)
    :=
  proceeds_event fun wf => wf

theorem proceeds_execSliceDataUncorrectable (slice line : Nat) (sectors : BitVec 4) (s : State) :
    Proceeds s (execSliceDataUncorrectable slice line sectors s) := by
  refine proceeds_event fun wf => ?_
  (repeat' split) <;> simp [wf]

theorem proceeds_execSnoopTimeout (agent line : Nat) (s : State) : Proceeds s (execSnoopTimeout agent line s) := by
  refine proceeds_event fun wf => ?_
  dsimp only
  (repeat' split) <;> simp [wf]

/-! Machine/Control.lean -/

theorem proceeds_execClauseFetch (s : State) : Proceeds s (execClauseFetch s) := by
  refine proceeds_event fun wf => ?_
  (repeat' split) <;> simp [wf]

theorem proceeds_execBra (b : Bra) (s : State) : Proceeds s (execBra b s) := proceeds_word fun _ wf => wf
theorem proceeds_execBrc (b : Bra) (s : State) : Proceeds s (execBrc b s) := proceeds_word fun _ wf => by simp [wf]
theorem proceeds_execBrd (b : Bra) (s : State) : Proceeds s (execBrd b s) := proceeds_word fun _ wf => by simp [wf]
theorem proceeds_execReconv (g : Gen) (s : State) : Proceeds s (execReconv g s) := proceeds_word fun _ wf => wf
theorem proceeds_execJmpi (g : Gen) (s : State) : Proceeds s (execJmpi g s) := proceeds_word fun _ wf => by simp [wf]
theorem proceeds_execRet (g : Gen) (s : State) : Proceeds s (execRet g s) := proceeds_word fun _ wf => by simp [wf]
theorem proceeds_execCall (b : Bra) (s : State) : Proceeds s (execCall b s) := proceeds_word fun _ wf => wf
theorem proceeds_execExit (g : Gen) (s : State) : Proceeds s (execExit g s) := proceeds_word fun _ wf => wf

theorem proceeds_execSpawn (g : Gen) (s : State) : Proceeds s (execSpawn g s) := by
  refine proceeds_word fun x wf => ?_
  (repeat' split) <;> simp [wf]

theorem proceeds_execYield (g : Gen) (s : State) : Proceeds s (execYield g s) := proceeds_word fun _ wf => wf
theorem proceeds_execNop (g : Gen) (s : State) : Proceeds s (execNop g s) := proceeds_word fun _ wf => wf

theorem proceeds_execWaitcnt (g : Gen) (s : State) : Proceeds s (execWaitcnt g s) :=
  proceeds_word fun _ wf => by simp [wf]

theorem proceeds_execSleep (g : Gen) (s : State) : Proceeds s (execSleep g s) :=
  proceeds_word fun _ wf => by simp [wf]

theorem proceeds_execTrap (g : Gen) (s : State) : Proceeds s (execTrap g s) :=
  proceeds_word fun x wf => memWf_trapWord s x 1 _ wf

theorem proceeds_execTret (g : Gen) (s : State) : Proceeds s (execTret g s) := by
  refine proceeds_word fun x wf => ?_
  refine memWf_ite (by simp [wf]) <| memWf_ite wf ?_
  generalize hr : checkGlobal s _ _ _ _ _ _ = r
  obtain ⟨t, c⟩ := r
  have checked := memWf_of_checkGlobal hr wf
  dsimp -zeta only
  split
  · exact checked
  · exact checked
  · simp [checked]
  · refine memWf_wordBytes x 2 64 _ (fun u f _ wf => ?_) checked
    extract_lets pc fetch skip v
    have dropped : memWf v.mem = true := by simp [v, wf]
    clear_value skip v
    split <;> simp [dropped]

theorem proceeds_execSigchk (m : Imm) (s : State) : Proceeds s (execSigchk m s) :=
  proceeds_word fun _ wf => by simp [wf]

theorem proceeds_execSigrst (g : Gen) (s : State) : Proceeds s (execSigrst g s) := proceeds_word fun _ wf => wf

theorem proceeds_execReggrow (g : Gen) (s : State) : Proceeds s (execReggrow g s) :=
  proceeds_word fun _ wf => by simp [wf]

theorem proceeds_execRegshrink (g : Gen) (s : State) : Proceeds s (execRegshrink g s) :=
  proceeds_word fun _ wf => by simp [wf]

/-! Machine/Sys.lean -/

theorem proceeds_execSread (g : Gen) (s : State) : Proceeds s (execSread g s) :=
  proceeds_word fun _ wf => by simp [wf]

theorem proceeds_execSwrite (g : Gen) (s : State) : Proceeds s (execSwrite g s) := by
  refine proceeds_word fun x wf => ?_
  (repeat' split) <;> simp [wf]

theorem proceeds_execBrk (g : Gen) (s : State) : Proceeds s (execBrk g s) :=
  proceeds_word fun x wf => memWf_trapWord s x 2 _ wf

theorem proceeds_execPmread (g : Gen) (s : State) : Proceeds s (execPmread g s) := proceeds_word fun _ wf => wf

theorem proceeds_execQpost (g : Gen) (s : State) : Proceeds s (execQpost g s) := by
  refine proceeds_word fun x wf => ?_
  refine memWf_ite wf <| memWf_ite (by simp [wf]) <| memWf_ite (by simp [wf]) <| memWf_ite (by simp [wf]) ?_
  generalize hr : checkGlobal s _ _ _ _ _ _ = r
  obtain ⟨t, c⟩ := r
  have checked := memWf_of_checkGlobal hr wf
  dsimp -zeta only
  split
  · exact checked
  · exact checked
  · simp [checked]
  · exact memWf_ite checked (memWf_withChk x _ (fun _ => memWf_qpostWrite _ _ _ _ checked) checked)

/-! Machine/Sched.lean -/

theorem proceeds_execEnableRetry (part queue : Nat) (s : State) : Proceeds s (execEnableRetry part queue s) :=
  proceeds_eventIf fun wf => by simp [wf]

theorem proceeds_execQueueEnable (part queue : Nat) (s : State) : Proceeds s (execQueueEnable part queue s) :=
  proceeds_eventIf fun wf => by simp [wf]

theorem proceeds_execQueueDisable (part queue : Nat) (s : State) : Proceeds s (execQueueDisable part queue s) :=
  proceeds_eventIf fun wf => by simp [wf]

theorem proceeds_execQueueClearFault (part queue : Nat) (s : State) : Proceeds s (execQueueClearFault part queue s) :=
  proceeds_eventIf fun wf => by simp [wf]

theorem proceeds_execTlbinv (part ctxid : Nat) (s : State) : Proceeds s (execTlbinv part ctxid s) :=
  proceeds_eventIf fun wf => by simp [wf]

theorem proceeds_execTlbinvDone (part : Nat) (s : State) : Proceeds s (execTlbinvDone part s) :=
  proceeds_eventIf fun wf => by simp [wf]

theorem proceeds_execSlotAccept (part queue : Nat) (s : State) : Proceeds s (execSlotAccept part queue s) := by
  refine proceeds_eventIf fun wf => memWf_ite wf ?_
  dsimp only
  split
  · simp [wf]
  · simp [wf]
  · next leaf level _ =>
    refine memWf_ite (by simp [wf]) ?_
    generalize leafPa leaf level _ = pa
    have got := memWf_unitBytes s part (deviceWho 3 (queueKey part queue)) pa 256 wf
    generalize unitBytes s part (deviceWho 3 (queueKey part queue)) pa 256 = r at got ⊢
    obtain ⟨r, bs⟩ := r
    cases r with
    | wait t => exact got
    | prot t => exact memWf_slotFault _ _ _ _ got
    | go t => exact memWf_ite (memWf_acceptSlot _ _ _ _ _ got) got

theorem proceeds_execPriorityAge (part queue : Nat) (s : State) : Proceeds s (execPriorityAge part queue s) := by
  refine proceeds_eventIf fun wf => ?_
  split <;> simp [wf]

theorem proceeds_execCopy (part queue index : Nat) (s : State) : Proceeds s (execCopy part queue index s) :=
  proceeds_eventIf fun wf => by simp [wf]

theorem proceeds_execMarker (part queue index : Nat) (s : State) : Proceeds s (execMarker part queue index s) :=
  proceeds_eventIf fun wf => memWf_startCmd _ _ _ _ (fun _ _ wf => memWf_completeCmd _ _ _ _ wf) wf

theorem proceeds_execNopCmd (part queue index : Nat) (s : State) : Proceeds s (execNopCmd part queue index s) :=
  proceeds_eventIf fun wf => memWf_startCmd _ _ _ _ (fun _ _ wf => memWf_completeCmd _ _ _ _ wf) wf

theorem proceeds_execSignal (part queue index : Nat) (s : State) : Proceeds s (execSignal part queue index s) :=
  proceeds_eventIf fun wf => memWf_startCmd _ _ _ _ (fun _ _ wf => memWf_startSignal _ _ wf) wf

theorem proceeds_execWait (part queue index : Nat) (s : State) : Proceeds s (execWait part queue index s) :=
  proceeds_eventIf fun wf => memWf_startCmd _ _ _ _ (fun _ _ wf => memWf_startWait _ _ wf) wf

theorem proceeds_execWaitMet (part queue index : Nat) (s : State) : Proceeds s (execWaitMet part queue index s) := by
  refine proceeds_eventIf fun wf => ?_
  dsimp only
  (repeat' split) <;> simp [wf]

theorem proceeds_execWaitTimeout (part queue index : Nat) (s : State) :
    Proceeds s (execWaitTimeout part queue index s) := by
  refine proceeds_eventIf fun wf => ?_
  (repeat' split) <;> simp [wf]

theorem proceeds_execSchedulerTakeover (s : State) : Proceeds s (execSchedulerTakeover s) :=
  proceeds_eventIf fun wf => by simp [wf]

/-! Machine/Place.lean -/

theorem proceeds_execLaunch (part queue index : Nat) (s : State) : Proceeds s (execLaunch part queue index s) :=
  proceeds_eventIf fun wf => memWf_startCmd _ _ _ _ (fun _ _ wf => memWf_startLaunch _ _ wf) wf

theorem proceeds_execLink (part queue index : Nat) (s : State) : Proceeds s (execLink part queue index s) := by
  refine proceeds_eventIf fun wf => ?_
  dsimp only
  (repeat' split) <;> simp +contextual [wf]

theorem proceeds_execBlockSend (launch site leaf : Nat) (s : State) : Proceeds s (execBlockSend launch site leaf s) :=
    by
  refine proceeds_eventIf fun wf => ?_
  (repeat' split) <;> simp [wf]

theorem proceeds_execSteal (launch site : Nat) (s : State) : Proceeds s (execSteal launch site s) := by
  refine proceeds_eventIf fun wf => ?_
  split <;> simp [wf]

theorem proceeds_execBlockPlace (leaf : Nat) (s : State) : Proceeds s (execBlockPlace leaf s) := by
  refine proceeds_eventIf fun wf => ?_
  have placed := maybeCanonical_findSome (fun p : Nat × Nat => maybeCanonical_placeUnit leaf p.1 p.2 wf) (leafNext s leaf)
  generalize (leafNext s leaf).findSome? _ = o at placed ⊢
  cases o with
  | none => exact wf
  | some t => exact placed

theorem proceeds_execLeafTakeover (leaf : Nat) (s : State) : Proceeds s (execLeafTakeover leaf s) := by
  refine proceeds_eventIf fun wf => ?_
  dsimp only
  (repeat' split) <;> simp [wf]

/-! Machine/Proofed.lean -/

theorem proceeds_execProofed (part queue index : Nat) (s : State) : Proceeds s (execProofed part queue index s) :=
  proceeds_eventIf fun wf => memWf_startCmd _ _ _ _ (fun _ _ wf => memWf_startProofed _ _ wf) wf

theorem proceeds_execShapeResolve (launch : Nat) (s : State) : Proceeds s (execShapeResolve launch s) := by
  refine proceeds_eventIf fun wf => ?_
  (repeat' split) <;> simp [wf]

theorem proceeds_execShapeTimeout (launch : Nat) (s : State) : Proceeds s (execShapeTimeout launch s) := by
  refine proceeds_eventIf fun wf => ?_
  (repeat' split) <;> simp [wf]

/-! Machine/Chiplet.lean -/

theorem proceeds_execChipletFence (chiplet : Nat) (s : State) : Proceeds s (execChipletFence chiplet s) :=
  proceeds_eventIf fun wf => by simp [wf]

theorem proceeds_execChipletReset (chiplet : Nat) (s : State) : Proceeds s (execChipletReset chiplet s) :=
  proceeds_eventIf fun wf => by simp [wf]

theorem proceeds_execSaveDeadline (core : Nat) (s : State) : Proceeds s (execSaveDeadline core s) :=
  proceeds_eventIf fun wf => by simp [wf]

theorem proceeds_execChipletDrop (chiplet : Nat) (s : State) : Proceeds s (execChipletDrop chiplet s) :=
  proceeds_eventIf fun wf => by simp [wf]

theorem proceeds_execChipletReinitialised (chiplet : Nat) (passes : Bool) (s : State) :
    Proceeds s (execChipletReinitialised chiplet passes s) := by
  refine proceeds_eventIf fun wf => ?_
  split <;> simp [wf]

theorem proceeds_execClockChange (mhz : Nat) (s : State) : Proceeds s (execClockChange mhz s) :=
  proceeds_eventIf fun wf => wf

/-! Machine/Scalar.lean -/

theorem proceeds_execSadd (g : Gen) (s : State) : Proceeds s (execSadd g s) := proceeds_scaWord ..
theorem proceeds_execSsub (g : Gen) (s : State) : Proceeds s (execSsub g s) := proceeds_scaWord ..
theorem proceeds_execSmul (g : Gen) (s : State) : Proceeds s (execSmul g s) := proceeds_scaWord ..
theorem proceeds_execSmulhi (g : Gen) (s : State) : Proceeds s (execSmulhi g s) := proceeds_scaWord ..
theorem proceeds_execSmin (g : Gen) (s : State) : Proceeds s (execSmin g s) := proceeds_scaWord ..
theorem proceeds_execSmax (g : Gen) (s : State) : Proceeds s (execSmax g s) := proceeds_scaWord ..
theorem proceeds_execSand (g : Gen) (s : State) : Proceeds s (execSand g s) := proceeds_scaWord ..
theorem proceeds_execSor (g : Gen) (s : State) : Proceeds s (execSor g s) := proceeds_scaWord ..
theorem proceeds_execSxor (g : Gen) (s : State) : Proceeds s (execSxor g s) := proceeds_scaWord ..
theorem proceeds_execSnot (g : Gen) (s : State) : Proceeds s (execSnot g s) := proceeds_scaWord ..
theorem proceeds_execSshl (g : Gen) (s : State) : Proceeds s (execSshl g s) := proceeds_scaWord ..
theorem proceeds_execSshr (g : Gen) (s : State) : Proceeds s (execSshr g s) := proceeds_scaWord ..
theorem proceeds_execSsar (g : Gen) (s : State) : Proceeds s (execSsar g s) := proceeds_scaWord ..
theorem proceeds_execSbfe (g : Gen) (s : State) : Proceeds s (execSbfe g s) := proceeds_scaWord ..
theorem proceeds_execSpopc (g : Gen) (s : State) : Proceeds s (execSpopc g s) := proceeds_scaWord ..
theorem proceeds_execSclz (g : Gen) (s : State) : Proceeds s (execSclz g s) := proceeds_scaWord ..
theorem proceeds_execScmp (g : Gen) (s : State) : Proceeds s (execScmp g s) := proceeds_scaWord ..
theorem proceeds_execSsel (g : Gen) (s : State) : Proceeds s (execSsel g s) := proceeds_scaWord ..
theorem proceeds_execSmov (g : Gen) (s : State) : Proceeds s (execSmov g s) := proceeds_scaWord ..
theorem proceeds_execSmovi (m : Imm) (s : State) : Proceeds s (execSmovi m s) := proceeds_scaWord ..
theorem proceeds_execSadd64 (g : Gen) (s : State) : Proceeds s (execSadd64 g s) := proceeds_word fun _ wf => wf
theorem proceeds_execMset (g : Gen) (s : State) : Proceeds s (execMset g s) := proceeds_mskWord ..
theorem proceeds_execMget (g : Gen) (s : State) : Proceeds s (execMget g s) := proceeds_scaWord ..
theorem proceeds_execMand (g : Gen) (s : State) : Proceeds s (execMand g s) := proceeds_mskWord ..
theorem proceeds_execMor (g : Gen) (s : State) : Proceeds s (execMor g s) := proceeds_mskWord ..
theorem proceeds_execMxor (g : Gen) (s : State) : Proceeds s (execMxor g s) := proceeds_mskWord ..
theorem proceeds_execMandn (g : Gen) (s : State) : Proceeds s (execMandn g s) := proceeds_mskWord ..
theorem proceeds_execMpop (g : Gen) (s : State) : Proceeds s (execMpop g s) := proceeds_scaWord ..
theorem proceeds_execMfind (g : Gen) (s : State) : Proceeds s (execMfind g s) := proceeds_scaWord ..

/-! Machine/Cross.lean -/

theorem proceeds_execVote (g : Gen) (s : State) : Proceeds s (execVote g s) := proceeds_crossWord ..
theorem proceeds_execShfl (g : Gen) (s : State) : Proceeds s (execShfl g s) := proceeds_crossWord ..
theorem proceeds_execVred (g : Gen) (s : State) : Proceeds s (execVred g s) := proceeds_crossWord ..
theorem proceeds_execVscan (g : Gen) (s : State) : Proceeds s (execVscan g s) := proceeds_crossWord ..
theorem proceeds_execMatchl (g : Gen) (s : State) : Proceeds s (execMatchl g s) := proceeds_crossWord ..
theorem proceeds_execV2s (g : Gen) (s : State) : Proceeds s (execV2s g s) := proceeds_crossWord ..
theorem proceeds_execVcompact (g : Gen) (s : State) : Proceeds s (execVcompact g s) := proceeds_crossWord ..
theorem proceeds_execS2v (g : Gen) (s : State) : Proceeds s (execS2v g s) := proceeds_word fun _ wf => wf

theorem proceeds_execCrossLaneRelease (core warp : Nat) (slot : Slot) (s : State) :
    Proceeds s (execCrossLaneRelease core warp slot s) := by
  refine proceeds_event fun wf => ?_
  (repeat' split) <;> simp [wf]

/-! Machine/Crust.lean -/

theorem proceeds_execBindt (m : Mem) (s : State) : Proceeds s (execBindt m s) := by
  refine proceeds_memWord fun x md wf => ?_
  refine memWf_ite (by simp [wf]) <| memWf_ite wf <| memWf_ite (by simp [wf]) <| memWf_ite (by simp [wf]) ?_
  generalize hr : checkGlobal s _ _ _ _ _ _ = r
  obtain ⟨t, c⟩ := r
  have checked := memWf_of_checkGlobal hr wf
  exact memWf_withChk x c (fun ls => memWf_wordBytes x 0 64 _
    (fun u bs bad wf => memWf_ite (by simp [wf]) (by simp [wf])) checked) checked

theorem proceeds_execRel (m : Mem) (s : State) : Proceeds s (execRel m s) := by
  refine proceeds_memWord fun x md wf => ?_
  refine memWf_ite (by simp [wf]) <| memWf_ite wf <| memWf_ite (by simp [wf]) ?_
  generalize hr : checkGlobal s _ _ _ _ _ _ = r
  obtain ⟨t, c⟩ := r
  have checked := memWf_of_checkGlobal hr wf
  exact memWf_withChk x c (fun ls => memWf_withChk x _ (fun ls => memWf_ite checked <|
    memWf_crustGo x _ (fun _ wf => by simp [wf]) checked) checked) checked

/-! Machine/Manage.lean -/

theorem proceeds_execPartCreate (by_ : Issuer) (n k : Nat) (s : State) : Proceeds s (execPartCreate by_ n k s) :=
  proceeds_eventIf fun wf => by simp [wf]

theorem proceeds_execPartDestroy (by_ : Issuer) (part : Nat) (s : State) : Proceeds s (execPartDestroy by_ part s) :=
  proceeds_eventIf fun wf => by simp [wf]

theorem proceeds_execAgentAssign (by_ : Issuer) (agent part : Nat) (s : State) :
    Proceeds s (execAgentAssign by_ agent part s) :=
  proceeds_eventIf fun wf => by simp [wf]

theorem proceeds_execWinSet (by_ : Issuer) (window : Nat) (regs : WinRegs) (s : State) :
    Proceeds s (execWinSet by_ window regs s) := by
  refine proceeds_eventIf fun wf => memWf_operate _ _ _ ?_ wf
  have flushed : memWf (if winValid (winOf s window) then
      flushRanges s (winPart (winOf s window)) (winRanges (winOf s window)) true else s).mem = true :=
    memWf_ite (by simp [wf]) wf
  dsimp only
  refine memWf_ite (memWf_flushRanges _ _ _ _ flushed) flushed

theorem proceeds_execWinSeal (by_ : Issuer) (window state : Nat) (s : State) :
    Proceeds s (execWinSeal by_ window state s) :=
  proceeds_eventIf fun wf => by simp [wf]

theorem proceeds_execKeyBind (by_ : Issuer) (part slot : Nat) (wrapped : BitVec 576) (digest : BitVec 256) (s : State)
    : Proceeds s (execKeyBind by_ part slot wrapped digest s) :=
  proceeds_eventIf fun wf => by simp [wf]

theorem proceeds_execKeyClear (by_ : Issuer) (slot : Nat) (s : State) : Proceeds s (execKeyClear by_ slot s) := by
  refine proceeds_eventIf fun wf => memWf_operate _ _ _ ?_ wf
  dsimp only
  exact memWf_foldlState (fun t k wf => memWf_breakSeal t k wf) _ wf

theorem proceeds_execRegisterWrite (page : RegPage) (offset : Nat) (value : W64) (s : State) :
    Proceeds s (execRegisterWrite page offset value s) := by
  refine proceeds_eventIf fun wf => ?_
  split <;> simp [wf]

/-! Machine/Device.lean -/

theorem proceeds_execGetVersion (_r : SpdmReq) (s : State) : Proceeds s (execGetVersion _r s) :=
  proceeds_eventIf fun wf => wf

theorem proceeds_execGetCapabilities (_r : SpdmReq) (s : State) : Proceeds s (execGetCapabilities _r s) :=
  proceeds_eventIf fun wf => wf

theorem proceeds_execNegotiateAlgorithms (_r : SpdmReq) (s : State) : Proceeds s (execNegotiateAlgorithms _r s) :=
  proceeds_eventIf fun wf => wf

theorem proceeds_execGetDigests (_r : SpdmReq) (s : State) : Proceeds s (execGetDigests _r s) :=
  proceeds_eventIf fun wf => wf

theorem proceeds_execGetCertificate (_r : SpdmReq) (s : State) : Proceeds s (execGetCertificate _r s) :=
  proceeds_eventIf fun wf => wf

theorem proceeds_execChallenge (r : SpdmReq) (s : State) : Proceeds s (execChallenge r s) :=
  proceeds_eventIf fun wf => by simp [wf]

theorem proceeds_execGetMeasurements (r : SpdmReq) (s : State) : Proceeds s (execGetMeasurements r s) := by
  refine proceeds_eventIf fun wf => ?_
  split <;> simp [wf]

theorem proceeds_execKeyExchange (r : SpdmReq) (s : State) : Proceeds s (execKeyExchange r s) :=
  proceeds_eventIf fun wf => by simp [wf]

theorem proceeds_execFinish (r : SpdmReq) (s : State) : Proceeds s (execFinish r s) :=
  proceeds_eventIf fun wf => by simp [wf]

theorem proceeds_execHeartbeat (r : SpdmReq) (s : State) : Proceeds s (execHeartbeat r s) :=
  proceeds_eventIf fun wf => by simp [wf]

theorem proceeds_execKeyUpdate (r : SpdmReq) (s : State) : Proceeds s (execKeyUpdate r s) :=
  proceeds_eventIf fun wf => by simp [wf]

theorem proceeds_execEndSession (r : SpdmReq) (s : State) : Proceeds s (execEndSession r s) :=
  proceeds_eventIf fun wf => by simp [wf]

theorem proceeds_execVendorDefinedRequest (r : SpdmReq) (s : State) : Proceeds s (execVendorDefinedRequest r s) :=
  proceeds_eventIf fun wf => by simp [wf]

theorem proceeds_execIdeKm (session stream : Nat) (s : State) : Proceeds s (execIdeKm session stream s) :=
  proceeds_eventIf fun wf => by simp [wf]

theorem proceeds_execIdeIntegrityFail (stream : Nat) (s : State) : Proceeds s (execIdeIntegrityFail stream s) := by
  refine proceeds_eventIf fun wf => ?_
  dsimp only
  (repeat' split) <;> simp +contextual [wf]

theorem proceeds_execHostAccess (part : Nat) (write : Bool) (addr : Nat) (bytes : List Byte) (s : State) :
    Proceeds s (execHostAccess part write addr bytes s) :=
  proceeds_eventIf fun wf => by simp [wf]

theorem proceeds_execHostRetry (s : State) : Proceeds s (execHostRetry s) :=
  proceeds_eventIf fun wf => memWf_foldlState (fun t x wf => memWf_hostNext t x wf) _ wf

theorem proceeds_execFlitCrcFail (port : Nat) (s : State) : Proceeds s (execFlitCrcFail port s) :=
  proceeds_eventIf fun wf => by simp [wf]

theorem proceeds_execPortFail (port : Nat) (s : State) : Proceeds s (execPortFail port s) :=
  proceeds_eventIf fun wf => by simp [wf]

theorem proceeds_execLinkTrain (port agent : Nat) (s : State) : Proceeds s (execLinkTrain port agent s) :=
  proceeds_eventIf fun wf => by simp [wf]

theorem proceeds_execColdPowerOn (x : StartIn) (s : State) : Proceeds s (execColdPowerOn x s) :=
  proceeds_eventIf fun _ => by simp

theorem proceeds_execWarmReset (x : StartIn) (s : State) : Proceeds s (execWarmReset x s) :=
  proceeds_eventIf fun _ => by simp

theorem proceeds_execWatchdog (x : StartIn) (s : State) : Proceeds s (execWatchdog x s) :=
  proceeds_eventIf fun _ => by simp

theorem proceeds_execStartTimeout (x : StartIn) (s : State) : Proceeds s (execStartTimeout x s) :=
  proceeds_eventIf fun wf => by simp [wf]

theorem proceeds_execFailsWindowExpire (s : State) : Proceeds s (execFailsWindowExpire s) :=
  proceeds_eventIf fun wf => wf

theorem proceeds_execImageUpdate (ok : Bool) (x : StartIn) (s : State) : Proceeds s (execImageUpdate ok x s) :=
  proceeds_eventIf fun wf => by simp [wf]

theorem proceeds_execSchedulerDoubleFail (x : StartIn) (s : State) : Proceeds s (execSchedulerDoubleFail x s) :=
  proceeds_eventIf fun wf => by simp [wf]

theorem proceeds_execUnsparedBaseDieError (x : StartIn) (s : State) : Proceeds s (execUnsparedBaseDieError x s) :=
  proceeds_eventIf fun _ => by simp

theorem proceeds_execSliceTagUncorrectable (slice : Nat) (s : State) : Proceeds s (execSliceTagUncorrectable slice s)
    := by
  refine proceeds_event fun wf => ?_
  have swept : memWf ((sliceOf s slice).ways.foldl (fun t p =>
      if Config.readable t.freeCount p.2.line then evict t slice p.1 p.2 else loseWay t slice p.1 p.2) s).mem = true :=
    memWf_foldlState (fun _ _ wf => memWf_ite (by simp [wf]) (by simp [wf])) _ wf
  refine memWf_ite (memWf_startWarm _ _ _) ?_
  dsimp only
  split <;> simp [swept]

/-! Machine/Vector.lean -/

theorem proceeds_execVadd (g : Gen) (s : State) : Proceeds s (execVadd g s) := proceeds_vecRaw ..
theorem proceeds_execVsub (g : Gen) (s : State) : Proceeds s (execVsub g s) := proceeds_vecRaw ..
theorem proceeds_execVmul (g : Gen) (s : State) : Proceeds s (execVmul g s) := proceeds_vecRaw ..
theorem proceeds_execVmulhi (g : Gen) (s : State) : Proceeds s (execVmulhi g s) := proceeds_vecRaw ..
theorem proceeds_execVmad (g : Gen) (s : State) : Proceeds s (execVmad g s) := proceeds_vecRaw ..
theorem proceeds_execVaddc (g : Gen) (s : State) : Proceeds s (execVaddc g s) := proceeds_laneWord ..
theorem proceeds_execVadd64 (g : Gen) (s : State) : Proceeds s (execVadd64 g s) := proceeds_vecTy ..
theorem proceeds_execVmin (g : Gen) (s : State) : Proceeds s (execVmin g s) := proceeds_vecRaw ..
theorem proceeds_execVmax (g : Gen) (s : State) : Proceeds s (execVmax g s) := proceeds_vecRaw ..
theorem proceeds_execVabs (g : Gen) (s : State) : Proceeds s (execVabs g s) := proceeds_vecRaw ..
theorem proceeds_execVand (g : Gen) (s : State) : Proceeds s (execVand g s) := proceeds_vecRaw ..
theorem proceeds_execVor (g : Gen) (s : State) : Proceeds s (execVor g s) := proceeds_vecRaw ..
theorem proceeds_execVxor (g : Gen) (s : State) : Proceeds s (execVxor g s) := proceeds_vecRaw ..
theorem proceeds_execVnot (g : Gen) (s : State) : Proceeds s (execVnot g s) := proceeds_vecRaw ..
theorem proceeds_execVshl (g : Gen) (s : State) : Proceeds s (execVshl g s) := proceeds_vecRaw ..
theorem proceeds_execVshr (g : Gen) (s : State) : Proceeds s (execVshr g s) := proceeds_vecRaw ..
theorem proceeds_execVsar (g : Gen) (s : State) : Proceeds s (execVsar g s) := proceeds_vecRaw ..
theorem proceeds_execVbfe (g : Gen) (s : State) : Proceeds s (execVbfe g s) := proceeds_vecRaw ..
theorem proceeds_execVbfi (g : Gen) (s : State) : Proceeds s (execVbfi g s) := proceeds_vecRaw ..
theorem proceeds_execVpopc (g : Gen) (s : State) : Proceeds s (execVpopc g s) := proceeds_vecRaw ..
theorem proceeds_execVclz (g : Gen) (s : State) : Proceeds s (execVclz g s) := proceeds_vecRaw ..
theorem proceeds_execVbrev (g : Gen) (s : State) : Proceeds s (execVbrev g s) := proceeds_vecRaw ..
theorem proceeds_execVperm (g : Gen) (s : State) : Proceeds s (execVperm g s) := proceeds_vecRaw ..
theorem proceeds_execVcmp (g : Gen) (s : State) : Proceeds s (execVcmp g s) := proceeds_vecMask ..
theorem proceeds_execVsel (g : Gen) (s : State) : Proceeds s (execVsel g s) := proceeds_vecRaw ..
theorem proceeds_execVmov (g : Gen) (s : State) : Proceeds s (execVmov g s) := proceeds_vecRaw ..
theorem proceeds_execVmovi (m : Imm) (s : State) : Proceeds s (execVmovi m s) := proceeds_vecRaw ..
theorem proceeds_execVsadd (g : Gen) (s : State) : Proceeds s (execVsadd g s) := proceeds_laneWord ..
theorem proceeds_execVfadd (g : Gen) (s : State) : Proceeds s (execVfadd g s) := proceeds_vecTy ..
theorem proceeds_execVfsub (g : Gen) (s : State) : Proceeds s (execVfsub g s) := proceeds_vecTy ..
theorem proceeds_execVfmul (g : Gen) (s : State) : Proceeds s (execVfmul g s) := proceeds_vecTy ..
theorem proceeds_execVfma (g : Gen) (s : State) : Proceeds s (execVfma g s) := proceeds_vecTy ..
theorem proceeds_execVfmin (g : Gen) (s : State) : Proceeds s (execVfmin g s) := proceeds_vecTy ..
theorem proceeds_execVfmax (g : Gen) (s : State) : Proceeds s (execVfmax g s) := proceeds_vecTy ..
theorem proceeds_execVfcmp (g : Gen) (s : State) : Proceeds s (execVfcmp g s) := proceeds_vecMask ..
theorem proceeds_execVfclass (g : Gen) (s : State) : Proceeds s (execVfclass g s) := proceeds_laneWord ..
theorem proceeds_execVfrnd (g : Gen) (s : State) : Proceeds s (execVfrnd g s) := proceeds_vecTy ..
theorem proceeds_execVfdiv (g : Gen) (s : State) : Proceeds s (execVfdiv g s) := proceeds_vecTy ..
theorem proceeds_execVsfu (g : Gen) (s : State) : Proceeds s (execVsfu g s) := proceeds_vecTy ..
theorem proceeds_execVcvt (g : Gen) (s : State) : Proceeds s (execVcvt g s) := proceeds_laneWord _ _ _ _

theorem proceeds_execVexpr (g : Gen) (e : ExprExt) (s : State) : Proceeds s (execVexpr g e s) := proceeds_laneWord _ _
    _ _

theorem proceeds_execVh2add (g : Gen) (s : State) : Proceeds s (execVh2add g s) := proceeds_halfWord ..
theorem proceeds_execVh2mul (g : Gen) (s : State) : Proceeds s (execVh2mul g s) := proceeds_halfWord ..
theorem proceeds_execVh2fma (g : Gen) (s : State) : Proceeds s (execVh2fma g s) := proceeds_halfWord ..
theorem proceeds_execVdot2 (g : Gen) (s : State) : Proceeds s (execVdot2 g s) := proceeds_laneWord ..
theorem proceeds_execVdadd (g : Gen) (s : State) : Proceeds s (execVdadd g s) := proceeds_vecTy ..
theorem proceeds_execVdmul (g : Gen) (s : State) : Proceeds s (execVdmul g s) := proceeds_vecTy ..
theorem proceeds_execVdfma (g : Gen) (s : State) : Proceeds s (execVdfma g s) := proceeds_vecTy ..

/-! Machine/Wake.lean -/

theorem proceeds_execSleepDeadline (core warp : Nat) (slot : Slot) (s : State) :
    Proceeds s (execSleepDeadline core warp slot s) := by
  refine proceeds_event fun wf => ?_
  split <;> simp [wf]

theorem proceeds_execMwaitRetest (core warp : Nat) (slot : Slot) (s : State) :
    Proceeds s (execMwaitRetest core warp slot s) := by
  refine proceeds_event fun wf => ?_
  split <;> simp [wf]

theorem proceeds_execMwaitTimeout (core warp : Nat) (slot : Slot) (s : State) :
    Proceeds s (execMwaitTimeout core warp slot s) := by
  refine proceeds_event fun wf => ?_
  split <;> simp [wf]

theorem proceeds_execReggrowGrant (core : Nat) (s : State) : Proceeds s (execReggrowGrant core s) :=
  proceeds_event fun wf => by simp [wf]

theorem proceeds_execActiveSetEvict (core warp : Nat) (s : State) : Proceeds s (execActiveSetEvict core warp s) :=
  proceeds_event fun wf => wf

theorem proceeds_execPassedOverLimit (core warp : Nat) (s : State) : Proceeds s (execPassedOverLimit core warp s) :=
    by
  refine proceeds_event fun wf => ?_
  dsimp only
  (repeat' split) <;> simp [wf]

/-! Machine/Dispatch.lean -/

/-- Every instruction proceeds: none faults and none is refused. -/
theorem proceeds_exec (i : Instr) (s : State) : Proceeds s (exec i s) := by
  cases i with
  | sadd g => exact proceeds_execSadd g s
  | ssub g => exact proceeds_execSsub g s
  | smul g => exact proceeds_execSmul g s
  | smulhi g => exact proceeds_execSmulhi g s
  | smin g => exact proceeds_execSmin g s
  | smax g => exact proceeds_execSmax g s
  | sand g => exact proceeds_execSand g s
  | sor g => exact proceeds_execSor g s
  | sxor g => exact proceeds_execSxor g s
  | snot g => exact proceeds_execSnot g s
  | sshl g => exact proceeds_execSshl g s
  | sshr g => exact proceeds_execSshr g s
  | ssar g => exact proceeds_execSsar g s
  | sbfe g => exact proceeds_execSbfe g s
  | spopc g => exact proceeds_execSpopc g s
  | sclz g => exact proceeds_execSclz g s
  | scmp g => exact proceeds_execScmp g s
  | ssel g => exact proceeds_execSsel g s
  | smov g => exact proceeds_execSmov g s
  | smovi m => exact proceeds_execSmovi m s
  | sadd64 g => exact proceeds_execSadd64 g s
  | sldk m => exact proceeds_execSldk m s
  | mset g => exact proceeds_execMset g s
  | mget g => exact proceeds_execMget g s
  | mand g => exact proceeds_execMand g s
  | mor g => exact proceeds_execMor g s
  | mxor g => exact proceeds_execMxor g s
  | mandn g => exact proceeds_execMandn g s
  | mpop g => exact proceeds_execMpop g s
  | mfind g => exact proceeds_execMfind g s
  | bra b => exact proceeds_execBra b s
  | brc b => exact proceeds_execBrc b s
  | brd b => exact proceeds_execBrd b s
  | reconv g => exact proceeds_execReconv g s
  | jmpi g => exact proceeds_execJmpi g s
  | call b => exact proceeds_execCall b s
  | ret g => exact proceeds_execRet g s
  | exit g => exact proceeds_execExit g s
  | spawn g => exact proceeds_execSpawn g s
  | yield g => exact proceeds_execYield g s
  | nop g => exact proceeds_execNop g s
  | waitcnt g => exact proceeds_execWaitcnt g s
  | sleep g => exact proceeds_execSleep g s
  | trap g => exact proceeds_execTrap g s
  | tret g => exact proceeds_execTret g s
  | sigchk m => exact proceeds_execSigchk m s
  | sigrst g => exact proceeds_execSigrst g s
  | sread g => exact proceeds_execSread g s
  | swrite g => exact proceeds_execSwrite g s
  | reggrow g => exact proceeds_execReggrow g s
  | regshrink g => exact proceeds_execRegshrink g s
  | vadd g => exact proceeds_execVadd g s
  | vsub g => exact proceeds_execVsub g s
  | vmul g => exact proceeds_execVmul g s
  | vmulhi g => exact proceeds_execVmulhi g s
  | vmad g => exact proceeds_execVmad g s
  | vaddc g => exact proceeds_execVaddc g s
  | vadd64 g => exact proceeds_execVadd64 g s
  | vmin g => exact proceeds_execVmin g s
  | vmax g => exact proceeds_execVmax g s
  | vabs g => exact proceeds_execVabs g s
  | vand g => exact proceeds_execVand g s
  | vor g => exact proceeds_execVor g s
  | vxor g => exact proceeds_execVxor g s
  | vnot g => exact proceeds_execVnot g s
  | vshl g => exact proceeds_execVshl g s
  | vshr g => exact proceeds_execVshr g s
  | vsar g => exact proceeds_execVsar g s
  | vbfe g => exact proceeds_execVbfe g s
  | vbfi g => exact proceeds_execVbfi g s
  | vpopc g => exact proceeds_execVpopc g s
  | vclz g => exact proceeds_execVclz g s
  | vbrev g => exact proceeds_execVbrev g s
  | vperm g => exact proceeds_execVperm g s
  | vcmp g => exact proceeds_execVcmp g s
  | vsel g => exact proceeds_execVsel g s
  | vmov g => exact proceeds_execVmov g s
  | vmovi m => exact proceeds_execVmovi m s
  | vsadd g => exact proceeds_execVsadd g s
  | vfadd g => exact proceeds_execVfadd g s
  | vfsub g => exact proceeds_execVfsub g s
  | vfmul g => exact proceeds_execVfmul g s
  | vfma g => exact proceeds_execVfma g s
  | vfmin g => exact proceeds_execVfmin g s
  | vfmax g => exact proceeds_execVfmax g s
  | vfcmp g => exact proceeds_execVfcmp g s
  | vfclass g => exact proceeds_execVfclass g s
  | vfrnd g => exact proceeds_execVfrnd g s
  | vfdiv g => exact proceeds_execVfdiv g s
  | vsfu g => exact proceeds_execVsfu g s
  | vcvt g => exact proceeds_execVcvt g s
  | vexpr g x => exact proceeds_execVexpr g x s
  | vh2add g => exact proceeds_execVh2add g s
  | vh2mul g => exact proceeds_execVh2mul g s
  | vh2fma g => exact proceeds_execVh2fma g s
  | vdot2 g => exact proceeds_execVdot2 g s
  | vdadd g => exact proceeds_execVdadd g s
  | vdmul g => exact proceeds_execVdmul g s
  | vdfma g => exact proceeds_execVdfma g s
  | vote g => exact proceeds_execVote g s
  | shfl g => exact proceeds_execShfl g s
  | vred g => exact proceeds_execVred g s
  | vscan g => exact proceeds_execVscan g s
  | matchl g => exact proceeds_execMatchl g s
  | v2s g => exact proceeds_execV2s g s
  | s2v g => exact proceeds_execS2v g s
  | vcompact g => exact proceeds_execVcompact g s
  | vld m => exact proceeds_execVld m s
  | vst m => exact proceeds_execVst m s
  | vldx m => exact proceeds_execVldx m s
  | vstx m => exact proceeds_execVstx m s
  | sld m => exact proceeds_execSld m s
  | sst m => exact proceeds_execSst m s
  | atom m x => exact proceeds_execAtom m x s
  | atomcas m x => exact proceeds_execAtomcas m x s
  | mwait m x => exact proceeds_execMwait m x s
  | fence m => exact proceeds_execFence m s
  | acq m => exact proceeds_execAcq m s
  | rel m => exact proceeds_execRel m s
  | bind m => exact proceeds_execBind m s
  | bindt m => exact proceeds_execBindt m s
  | unbind m => exact proceeds_execUnbind m s
  | cinv m => exact proceeds_execCinv m s
  | cwb m => exact proceeds_execCwb m s
  | cpref m => exact proceeds_execCpref m s
  | alloc m => exact proceeds_execAlloc m s
  | free m => exact proceeds_execFree m s
  | crnew w => exact proceeds_execCrnew w s
  | crjoin w => exact proceeds_execCrjoin w s
  | crleave w => exact proceeds_execCrleave w s
  | crsync w => exact proceeds_execCrsync w s
  | crarrive w => exact proceeds_execCrarrive w s
  | crwait w => exact proceeds_execCrwait w s
  | crquery w => exact proceeds_execCrquery w s
  | crmap w => exact proceeds_execCrmap w s
  | bcopy w => exact proceeds_execBcopy w s
  | bcopyc w => exact proceeds_execBcopyc w s
  | bseal w => exact proceeds_execBseal w s
  | bwait w => exact proceeds_execBwait w s
  | bquery w => exact proceeds_execBquery w s
  | bcancel w => exact proceeds_execBcancel w s
  | tclaim w => exact proceeds_execTclaim w s
  | trel w => exact proceeds_execTrel w s
  | tload w => exact proceeds_execTload w s
  | tloads w => exact proceeds_execTloads w s
  | mma w => exact proceeds_execMma w s
  | mmasp w => exact proceeds_execMmasp w s
  | mloop w => exact proceeds_execMloop w s
  | mdist w => exact proceeds_execMdist w s
  | mtopk w => exact proceeds_execMtopk w s
  | czero w => exact proceeds_execCzero w s
  | cload w => exact proceeds_execCload w s
  | cstore w => exact proceeds_execCstore w s
  | cpop w => exact proceeds_execCpop w s
  | msync w => exact proceeds_execMsync w s
  | qpush w => exact proceeds_execQpush w s
  | qpop w => exact proceeds_execQpop w s
  | qpeek w => exact proceeds_execQpeek w s
  | qcount w => exact proceeds_execQcount w s
  | brk g => exact proceeds_execBrk g s
  | pmread g => exact proceeds_execPmread g s
  | qpost g => exact proceeds_execQpost g s
  | clauseFetch => exact proceeds_execClauseFetch s
  | crossLaneRelease core warp slot => exact proceeds_execCrossLaneRelease core warp slot s
  | sleepDeadline core warp slot => exact proceeds_execSleepDeadline core warp slot s
  | mwaitRetest core warp slot => exact proceeds_execMwaitRetest core warp slot s
  | mwaitTimeout core warp slot => exact proceeds_execMwaitTimeout core warp slot s
  | reggrowGrant core => exact proceeds_execReggrowGrant core s
  | activeSetEvict core warp => exact proceeds_execActiveSetEvict core warp s
  | passedOverLimit core warp => exact proceeds_execPassedOverLimit core warp s
  | contextSave core reason => exact proceeds_execContextSave core reason s
  | contextRestore core index => exact proceeds_execContextRestore core index s
  | priorityPreempt core part queue => exact proceeds_execPriorityPreempt core part queue s
  | barrierMessage chiplet => exact proceeds_execBarrierMessage chiplet s
  | barrierRelease core => exact proceeds_execBarrierRelease core s
  | crewRecordError handle => exact proceeds_execCrewRecordError handle s
  | copyStart engine => exact proceeds_execCopyStart engine s
  | copyComplete copy => exact proceeds_execCopyComplete copy s
  | copyEngineFail engine => exact proceeds_execCopyEngineFail engine s
  | enginePerform core => exact proceeds_execEnginePerform core s
  | transitPlace core => exact proceeds_execTransitPlace core s
  | vbusCheckFail column => exact proceeds_execVbusCheckFail column s
  | laneRepair column => exact proceeds_execLaneRepair column s
  | busThaw column => exact proceeds_execBusThaw column s
  | busFail column => exact proceeds_execBusFail column s
  | gateRequest pair => exact proceeds_execGateRequest pair s
  | gatePowerOn pair => exact proceeds_execGatePowerOn pair s
  | migrate pair position => exact proceeds_execMigrate pair position s
  | migrationDrainTimeout pair position => exact proceeds_execMigrationDrainTimeout pair position s
  | columnRemap pair position => exact proceeds_execColumnRemap pair position s
  | storecfgWrite core l1ways => exact proceeds_execStorecfgWrite core l1ways s
  | registerWrite page offset value => exact proceeds_execRegisterWrite page offset value s
  | rds agent line => exact proceeds_execRds agent line s
  | rdx agent line => exact proceeds_execRdx agent line s
  | upg agent line => exact proceeds_execUpg agent line s
  | wbd agent line data => exact proceeds_execWbd agent line data s
  | wbc agent line => exact proceeds_execWbc agent line s
  | rdu agent line => exact proceeds_execRdu agent line s
  | wru agent line data mask => exact proceeds_execWru agent line data mask s
  | lr port line => exact proceeds_execLr port line s
  | lw port line => exact proceeds_execLw port line s
  | dramFetchDone slice line => exact proceeds_execDramFetchDone slice line s
  | rspi agent line => exact proceeds_execRspi agent line s
  | rsps agent line data => exact proceeds_execRsps agent line data s
  | rspod agent line data => exact proceeds_execRspod agent line data s
  | rspid agent line data => exact proceeds_execRspid agent line data s
  | snps line => exact proceeds_execSnps line s
  | snpi line => exact proceeds_execSnpi line s
  | datas line data => exact proceeds_execDatas line data s
  | datae line data => exact proceeds_execDatae line data s
  | datam line data => exact proceeds_execDatam line data s
  | gntm line => exact proceeds_execGntm line s
  | wback line => exact proceeds_execWback line s
  | datau line data => exact proceeds_execDatau line data s
  | nocache line => exact proceeds_execNocache line s
  | err line => exact proceeds_execErr line s
  | sliceGate slice => exact proceeds_execSliceGate slice s
  | sliceWake slice => exact proceeds_execSliceWake slice s
  | dramCorrectable channel position => exact proceeds_execDramCorrectable channel position s
  | dramUncorrectable line sectors => exact proceeds_execDramUncorrectable line sectors s
  | patrolScrub line bad => exact proceeds_execPatrolScrub line bad s
  | glazeLost line => exact proceeds_execGlazeLost line s
  | sliceCorrectable slice line => exact proceeds_execSliceCorrectable slice line s
  | sliceDataUncorrectable slice line sectors => exact proceeds_execSliceDataUncorrectable slice line sectors s
  | sliceTagUncorrectable slice => exact proceeds_execSliceTagUncorrectable slice s
  | snoopTimeout agent line => exact proceeds_execSnoopTimeout agent line s
  | queueEnable part queue => exact proceeds_execQueueEnable part queue s
  | queueDisable part queue => exact proceeds_execQueueDisable part queue s
  | queueClearFault part queue => exact proceeds_execQueueClearFault part queue s
  | drvrespReplay part ctxid core warp => exact proceeds_execDrvrespReplay part ctxid core warp s
  | drvrespResume part ctxid core warp => exact proceeds_execDrvrespResume part ctxid core warp s
  | drvrespFail part ctxid core warp => exact proceeds_execDrvrespFail part ctxid core warp s
  | tlbinv part ctxid => exact proceeds_execTlbinv part ctxid s
  | tlbinvDone part => exact proceeds_execTlbinvDone part s
  | slotAccept part queue => exact proceeds_execSlotAccept part queue s
  | launch part queue index => exact proceeds_execLaunch part queue index s
  | link part queue index => exact proceeds_execLink part queue index s
  | proofed part queue index => exact proceeds_execProofed part queue index s
  | copy part queue index => exact proceeds_execCopy part queue index s
  | signal part queue index => exact proceeds_execSignal part queue index s
  | wait part queue index => exact proceeds_execWait part queue index s
  | marker part queue index => exact proceeds_execMarker part queue index s
  | nopCmd part queue index => exact proceeds_execNopCmd part queue index s
  | waitMet part queue index => exact proceeds_execWaitMet part queue index s
  | waitTimeout part queue index => exact proceeds_execWaitTimeout part queue index s
  | priorityAge part queue => exact proceeds_execPriorityAge part queue s
  | schedulerTakeover => exact proceeds_execSchedulerTakeover s
  | blockSend launch site leaf => exact proceeds_execBlockSend launch site leaf s
  | steal launch site => exact proceeds_execSteal launch site s
  | blockPlace leaf => exact proceeds_execBlockPlace leaf s
  | leafTakeover leaf => exact proceeds_execLeafTakeover leaf s
  | shapeResolve launch => exact proceeds_execShapeResolve launch s
  | shapeTimeout launch => exact proceeds_execShapeTimeout launch s
  | chipletFence chiplet => exact proceeds_execChipletFence chiplet s
  | chipletReset chiplet => exact proceeds_execChipletReset chiplet s
  | saveDeadline core => exact proceeds_execSaveDeadline core s
  | chipletDrop chiplet => exact proceeds_execChipletDrop chiplet s
  | clockChange mhz => exact proceeds_execClockChange mhz s
  | partCreate by_ n k => exact proceeds_execPartCreate by_ n k s
  | partDestroy by_ part => exact proceeds_execPartDestroy by_ part s
  | agentAssign by_ agent part => exact proceeds_execAgentAssign by_ agent part s
  | winSet by_ window regs => exact proceeds_execWinSet by_ window regs s
  | winSeal by_ window state => exact proceeds_execWinSeal by_ window state s
  | keyBind by_ part slot wrapped digest => exact proceeds_execKeyBind by_ part slot wrapped digest s
  | keyClear by_ slot => exact proceeds_execKeyClear by_ slot s
  | getVersion r => exact proceeds_execGetVersion r s
  | getCapabilities r => exact proceeds_execGetCapabilities r s
  | negotiateAlgorithms r => exact proceeds_execNegotiateAlgorithms r s
  | getDigests r => exact proceeds_execGetDigests r s
  | getCertificate r => exact proceeds_execGetCertificate r s
  | challenge r => exact proceeds_execChallenge r s
  | getMeasurements r => exact proceeds_execGetMeasurements r s
  | keyExchange r => exact proceeds_execKeyExchange r s
  | finish r => exact proceeds_execFinish r s
  | heartbeat r => exact proceeds_execHeartbeat r s
  | keyUpdate r => exact proceeds_execKeyUpdate r s
  | endSession r => exact proceeds_execEndSession r s
  | vendorDefinedRequest r => exact proceeds_execVendorDefinedRequest r s
  | ideKm session stream => exact proceeds_execIdeKm session stream s
  | ideIntegrityFail stream => exact proceeds_execIdeIntegrityFail stream s
  | hostAccess part write addr bytes => exact proceeds_execHostAccess part write addr bytes s
  | flitCrcFail port => exact proceeds_execFlitCrcFail port s
  | portFail port => exact proceeds_execPortFail port s
  | linkTrain port agent => exact proceeds_execLinkTrain port agent s
  | coldPowerOn x => exact proceeds_execColdPowerOn x s
  | warmReset x => exact proceeds_execWarmReset x s
  | watchdog x => exact proceeds_execWatchdog x s
  | startTimeout x => exact proceeds_execStartTimeout x s
  | failsWindowExpire => exact proceeds_execFailsWindowExpire s
  | imageUpdate ok x => exact proceeds_execImageUpdate ok x s
  | schedulerDoubleFail x => exact proceeds_execSchedulerDoubleFail x s
  | unsparedBaseDieError x => exact proceeds_execUnsparedBaseDieError x s
  | chipletReinitialised chiplet passes => exact proceeds_execChipletReinitialised chiplet passes s

/-! Machine/Step.lean -/

theorem proceeds_ownStep (o : Own) (s : State) : Proceeds s (ownStep o s) := by
  cases o with
  | saveDeadline core => exact proceeds_execSaveDeadline _ _
  | waitTimeout part queue index => exact proceeds_execWaitTimeout _ _ _ _
  | priorityAge part queue => exact proceeds_execPriorityAge _ _ _
  | blockSend launch site leaf => exact proceeds_execBlockSend _ _ _ _
  | steal launch site => exact proceeds_execSteal _ _ _
  | blockPlace leaf => exact proceeds_execBlockPlace _ _
  | shapeResolve launch => exact proceeds_execShapeResolve _ _
  | shapeTimeout launch => exact proceeds_execShapeTimeout _ _
  | hostRetry => exact proceeds_execHostRetry _
  | enableRetry part queue => exact proceeds_execEnableRetry _ _ _

theorem proceeds_issueStep (s : State) : Proceeds s (issueStep s) := by
  unfold issueStep
  split
  · exact proceeds_exec _ _
  · exact proceeds_exec _ _
  · exact proceeds_next fun wf => by simp [wf]

theorem proceeds_turnStep (t : Turn) (s : State) : Proceeds s (turnStep t s) := by
  unfold turnStep
  split
  · next c w sl =>
    split
    · obtain ⟨t, run, kept⟩ := proceeds_issueStep (takeTurn s c w sl)
      rw [run]
      exact proceeds_next fun wf => by simp [kept (by simp [wf])]
    · exact proceeds_next id
  · split
    · exact proceeds_next id
    · exact proceeds_exec _ _
  · exact proceeds_next fun wf => by simp [wf]
  · exact proceeds_next fun wf => by simp [wf]
  · exact proceeds_next fun wf => by simp [wf]
  · exact proceeds_ownStep _ _

/-- Settles O59: the turn proceeds, and what follows of itself after it keeps memory canonical too. -/
theorem everyStepKeepsMemoryCanonical : Obligations.EveryStepKeepsMemoryCanonical := by
  intro s
  obtain ⟨t, run, kept⟩ := proceeds_turnStep (nextTurn s).1 (nextTurn s).2
  refine ⟨afterTurn t, by rw [step, run, settleTurn], fun wf => memWf_afterTurn t (kept ?_)⟩
  rw [nextTurn_mem]
  exact wf

end Sys2Proof.Machine

/-! The words of the column's queues: what QPUSH sends on its way, what QPOP and QPEEK take of a queue's head, and what
QCOUNT counts (R328-R331). -/

namespace Sys2Proof.Machine

open Sys2Proof

/-! The lane words of an entry. -/

/-- The sum of the first n words, each at its place. -/
def wordSum (c : Nat → Nat) (n : Nat) : Nat := (List.range n).foldl (fun a l => a + c l * 2 ^ (32 * l)) 0

theorem wordSum_succ (c : Nat → Nat) (n : Nat) : wordSum c (n + 1) = wordSum c n + c n * 2 ^ (32 * n) := by
  simp [wordSum, List.range_succ]

theorem wordSum_lt {c : Nat → Nat} (hc : ∀ l, c l < 2 ^ 32) (n : Nat) : wordSum c n < 2 ^ (32 * n) := by
  induction n with
  | zero => exact Nat.one_pos
  | succ n ih =>
    rw [wordSum_succ, Nat.mul_succ, Nat.pow_add, Nat.mul_comm (2 ^ (32 * n))]
    have top : (c n + 1) * 2 ^ (32 * n) ≤ 2 ^ 32 * 2 ^ (32 * n) := Nat.mul_le_mul_right _ (hc n)
    rw [Nat.add_mul, Nat.one_mul] at top
    omega

/-- Each word can be read at its place. -/
theorem wordSum_div_mod {c : Nat → Nat} (hc : ∀ l, c l < 2 ^ 32) {l n : Nat} (hl : l < n) :
    wordSum c n / 2 ^ (32 * l) % 2 ^ 32 = c l := by
  induction n with
  | zero => omega
  | succ n ih =>
    rw [wordSum_succ]
    rcases Nat.lt_or_eq_of_le (Nat.le_of_lt_succ hl) with below | rfl
    · have place : 32 * n = 32 * l + (32 + 32 * (n - l - 1)) := by omega
      rw [place, Nat.pow_add, ← Nat.mul_assoc, Nat.mul_right_comm, Nat.add_mul_div_right _ _ (Nat.two_pow_pos _),
        Nat.pow_add, Nat.mul_left_comm, Nat.add_mul_mod_self_left]
      exact ih below
    · rw [Nat.add_mul_div_right _ _ (Nat.two_pow_pos _), Nat.div_eq_of_lt (wordSum_lt hc l), Nat.zero_add,
        Nat.mod_eq_of_lt (hc l)]

/-- An entry holds the words of the lanes that are set, and zero for the others. -/
theorem extract_laneSum (m : W32) (v : Nat → W32) {l : Nat} (hl : l < 32) :
    (BitVec.ofNat 1024 ((setBits m).foldl (fun n l => n + (v l).toNat * 2 ^ (32 * l)) 0)).extractLsb' (32 * l) 32 =
      if m.getLsbD l then v l else 0 := by
  let word (l : Nat) : W32 := if m.getLsbD l then v l else 0
  have sum : (setBits m).foldl (fun n l => n + (v l).toNat * 2 ^ (32 * l)) 0 = wordSum (fun l => (word l).toNat) 32 := by
    rw [setBits, List.foldl_filter, wordSum]
    congr
    funext n l
    by_cases h : m.getLsbD l <;> simp [word, h]
  have small : wordSum (fun l => (word l).toNat) 32 < 2 ^ 1024 := wordSum_lt (fun l => (word l).isLt) 32
  apply BitVec.eq_of_toNat_eq
  rw [sum, BitVec.extractLsb'_toNat, BitVec.toNat_ofNat, Nat.mod_eq_of_lt small, Nat.shiftRight_eq_div_pow,
    wordSum_div_mod (fun l => (word l).isLt) hl]

/-! The partner. -/

theorem partnerOf_ne (core : Nat) : partnerOf core ≠ core := by
  unfold partnerOf
  split <;> omega

/-- The credit of an entry goes to the partner alone. -/
theorem coreOf_creditFree (s : State) (core ctx n : Nat) : coreOf (creditFree s core ctx n) core = coreOf s core := by
  unfold creditFree
  split
  · exact coreOf_modCore_ne _ _ (partnerOf_ne core).symm
  · rfl

theorem qfree8_creditFree (s : State) (core ctx n : Nat) : (coreOf (creditFree s core ctx n) (partnerOf core)).qfree8 =
    (if (coreOf s (partnerOf core)).ctx = some ctx then min 16 ((coreOf s (partnerOf core)).qfree8 + n)
     else (coreOf s (partnerOf core)).qfree8) := by
  unfold creditFree
  by_cases h : (coreOf s (partnerOf core)).ctx = some ctx
  · rw [if_pos (by simpa using h), if_pos h, coreOf_modCore]
  · rw [if_neg (by simpa using h), if_neg h]

/-! QPUSH (R328). -/

/-- The entry of the executing lanes' words. -/
def pushedEntry (w : Que) (x : Here) : QEnt :=
  { data := BitVec.ofNat 1024
      ((setBits x.exec).foldl (fun n l => n + (vget x.wp w.a.toNat l).toNat * 2 ^ (32 * l)) 0) }

section
variable {w : Que} {s : State} {x : Here}

theorem exec_qpush_foreign (runs : Runs (.qpush w) s x) (other : w.q ≠ 8) :
    exec (.qpush w) s = .next (faultAll s x .queue) := by
  show execQpush w s = _
  exact (word_runs runs rfl).trans (congrArg Host.Outcome.next (if_pos other))

/-- The word of a path that may push and consumes no poison. -/
theorem exec_qpush (runs : Runs (.qpush w) s x) (hq : w.q = 8)
    (clean : lanesWhere x.exec (fun l => vpois x.wp w.a.toNat l) = 0) (lanes : x.exec ≠ 0)
    (free : opHeld x false = false) : exec (.qpush w) s = .next (if x.co.qfree8 = 0 then pushWait s x else
      retireNow (modCore s x.core fun co =>
        { co with qfree8 := co.qfree8 - 1, transit := co.transit ++ [pushedEntry w x] }) x) := by
  show execQpush w s = _
  refine (word_runs runs rfl).trans (congrArg Host.Outcome.next ?_)
  simp only [hq, clean, lanes, free, ne_eq, not_true_eq_false, if_false, Bool.false_eq_true]
  rfl

end

/-! QPOP and QPEEK (R329, R330). -/

theorem popQueue_iff (q : BitVec 4) : popQueue q = true ↔ q = 1 ∨ q = 2 ∨ q = 9 := by
  simp [popQueue, or_assoc]

/-- What a pop, or a peek, of an entry that is there does: a pop takes it off its queue, and one of q9 gives the partner
its place back. -/
def popped (s : State) (x : Here) (q : Nat) (peek : Bool) : State :=
  if peek then s
  else
    let t := modCore s x.core fun co => popRest co q
    if q = 9 then creditFree t x.core x.ctx 1 else t

theorem popWord_head {s : State} {x : Here} {q : Nat} {e : QEnt} (lanes : x.exec ≠ 0) (head : popHead x.co q = some e)
    (d : Nat) (peek : Bool) : popWord s x q d peek = modWarp (popped s x q peek) x.core x.w
      fun y => retireW (popInto y d x.exec e) x.sl x.ws := by
  simp only [popWord, if_neg lanes, head]
  rfl

theorem popWord_empty {s : State} {x : Here} {q : Nat} (lanes : x.exec ≠ 0) (head : popHead x.co q = none) (d : Nat)
    (peek : Bool) : popWord s x q d peek = s := by
  simp only [popWord, if_neg lanes, head]

theorem coreOf_popped (s : State) (x : Here) (q : Nat) (peek : Bool) : coreOf (popped s x q peek) x.core =
    if peek then coreOf s x.core else popRest (coreOf s x.core) q := by
  unfold popped
  cases peek
  · by_cases h : q = 9 <;> simp [h, coreOf_creditFree]
  · rfl

/-- The executing lanes hold the entry's words, the others what they held. -/
theorem vget_popWord {s : State} {x : Here} {q : Nat} {e : QEnt} (read : tget (coreOf s x.core).warps x.w = some x.wp)
    (d : Nat) (peek : Bool) : ∃ y, tget (coreOf (modWarp (popped s x q peek) x.core x.w
        fun y => retireW (popInto y d x.exec e) x.sl x.ws) x.core).warps x.w = some y ∧ ∀ l, l < 32 →
      vget y d l = if x.exec.getLsbD l then e.data.extractLsb' (32 * l) 32 else vget x.wp d l := by
  refine ⟨retireW (popInto x.wp d x.exec e) x.sl x.ws, ?_, fun l _ => ?_⟩
  · have same : (coreOf (popped s x q peek) x.core).warps = (coreOf s x.core).warps := by
      rw [coreOf_popped]
      split
      · rfl
      · exact popRest_warps ..
    rw [warp_modWarp, same, read]
    rfl
  · rw [vget_retireW, vget_popInto]

section
variable {w : Que} {s : State} {x : Here}

theorem exec_qpop_foreign (runs : Runs (.qpop w) s x) (other : ¬ (w.q = 1 ∨ w.q = 2 ∨ w.q = 9)) :
    exec (.qpop w) s = .next (faultAll s x .queue) := by
  show execQpop w s = _
  have named : popQueue w.q = false := by rw [← Bool.not_eq_true, popQueue_iff]; exact other
  exact (word_runs runs rfl).trans (congrArg Host.Outcome.next (if_pos (by rw [named]; rfl)))

/-- Nothing holds the word when only q9 could be held. -/
theorem notHeld_of_free (free : w.q = 9 → opHeld x false = false) : ¬ (w.q = 9 && opHeld x false) = true := by
  rw [Bool.and_eq_true, decide_eq_true_eq]
  rintro ⟨h, held⟩
  rw [free h] at held
  cases held

theorem exec_qpop (runs : Runs (.qpop w) s x) (hq : w.q = 1 ∨ w.q = 2 ∨ w.q = 9)
    (free : w.q = 9 → opHeld x false = false) :
    exec (.qpop w) s = .next (popWord s x w.q.toNat w.d.toNat false) := by
  show execQpop w s = _
  refine (word_runs runs rfl).trans (congrArg Host.Outcome.next ?_)
  rw [if_neg (by rw [(popQueue_iff _).2 hq]; decide), if_neg (notHeld_of_free free)]

theorem exec_qpeek (runs : Runs (.qpeek w) s x) (hq : w.q = 1 ∨ w.q = 2 ∨ w.q = 9)
    (free : w.q = 9 → opHeld x false = false) :
    exec (.qpeek w) s = .next (popWord s x w.q.toNat w.d.toNat true) := by
  show execQpeek w s = _
  refine (word_runs runs rfl).trans (congrArg Host.Outcome.next ?_)
  rw [if_neg (by rw [(popQueue_iff _).2 hq]; decide), if_neg (notHeld_of_free free)]

/-- A pop of an empty queue waits; one that is held waits too. -/
theorem exec_qpop_empty (runs : Runs (.qpop w) s x) (hq : w.q = 1 ∨ w.q = 2 ∨ w.q = 9) (lanes : x.exec ≠ 0)
    (head : popHead x.co w.q.toNat = none) : exec (.qpop w) s = .next s := by
  show execQpop w s = _
  refine (word_runs runs rfl).trans (congrArg Host.Outcome.next ?_)
  rw [if_neg (by rw [(popQueue_iff _).2 hq]; decide), popWord_empty lanes head, ite_self]

/-- The head that the statement names is the one that a pop takes, and there is one of the three queues only. -/
theorem popHead_named (co : Core) (hq : w.q = 1 ∨ w.q = 2 ∨ w.q = 9) : popHead co w.q.toNat =
    if w.q = 1 then co.q1.head? else if w.q = 2 then co.q2.head? else if w.q = 9 then co.q9.head? else none := by
  rcases hq with h | h | h <;> rw [h] <;> rfl

end

/-- Settles O33, word by word. -/
theorem queueWordsMoveEntries : Obligations.QueueWordsMoveEntries := by
  intro w s x e headOf shows
  have queued (h : headOf x.co = some e) : w.q = 1 ∨ w.q = 2 ∨ w.q = 9 := by
    by_contra none
    simp only [not_or] at none
    obtain ⟨h₁, h₂, h₉⟩ := none
    simp only [headOf, if_neg h₁, if_neg h₂, if_neg h₉] at h
    cases h
  refine ⟨exec_qpush_foreign, fun runs hq clean lanes room free => ?_, fun runs hq clean lanes full free => ?_,
    fun runs h₁ h₂ h₉ => exec_qpop_foreign runs (not_or.2 ⟨h₁, not_or.2 ⟨h₂, h₉⟩⟩), fun runs free lanes head => ?_,
    fun runs free lanes head => ?_, fun runs hq lanes head => ?_, fun runs => ⟨queueCount x.co w.q.toNat, ?_⟩⟩
  · obtain ⟨hco, -, -⟩ := here_warp runs.stands
    refine ⟨_, pushedEntry w x, (exec_qpush runs hq clean lanes free).trans (congrArg _ (if_neg room)), ?_, ?_, rfl,
      fun l hl => extract_laneSum _ _ hl⟩
    · simp [retireNow, modWarp, hco]
    · simp [retireNow, modWarp, hco]
  · exact (exec_qpush runs hq clean lanes free).trans (congrArg _ (if_pos full))
  · obtain ⟨hco, hw, -⟩ := here_warp runs.stands
    have hq := queued head
    have head := (popHead_named _ hq).trans head
    refine ⟨_, (exec_qpop runs hq free).trans (congrArg _ (popWord_head lanes head _ _)), vget_popWord hw _ _, ?_⟩
    refine ⟨fun h => ?_, fun h => ?_, fun h => ⟨?_, ?_⟩⟩
    · simp [modWarp, coreOf_popped, popRest, hco, h]
    · simp [modWarp, coreOf_popped, popRest, hco, h]
    · simp [modWarp, coreOf_popped, popRest, hco, h]
    · rw [modWarp, coreOf_modCore_ne _ _ (partnerOf_ne x.core)]
      simp only [popped, h, Bool.false_eq_true, if_false]
      exact (qfree8_creditFree ..).trans (by rw [coreOf_modCore_ne _ _ (partnerOf_ne x.core)])
  · obtain ⟨hco, hw, -⟩ := here_warp runs.stands
    have hq := queued head
    have head := (popHead_named _ hq).trans head
    refine ⟨_, (exec_qpeek runs hq free).trans (congrArg _ (popWord_head lanes head _ _)), vget_popWord hw _ _, ?_⟩
    simp [modWarp, popped, hco]
  · exact exec_qpop_empty runs hq lanes ((popHead_named _ hq).trans head)
  · refine ⟨?_, ?_⟩
    · show execQcount w s = _
      exact word_runs runs rfl
    · refine ⟨fun h => ?_, fun h => ?_, fun h => ?_, fun h => ?_, fun h => ?_⟩ <;> rw [h] <;> rfl

end Sys2Proof.Machine

/-! The responder's answers and the IDE streams (R411, R416, R419). -/

namespace Sys2Proof.Machine

open Sys2Proof

/-! Notices leave the streams as they are (R373, R411). -/

theorem dev_of_besideHomes {s t : State} (h : besideHomes t = besideHomes s) : t.dev = s.dev := by
  have same := congrArg (fun s : State => s.dev) h
  exact same

/-- A write whose page is there, or not, raises its vector; one that waits leaves the device as it is. -/
theorem dev_lateGo {s : State} {x : Late} {v : Nat} (raises : x.irq = some v) (silent : x.fail = none) :
    (lateGo s x).dev = s.dev ∨ (lateGo s x).dev = (irq s x.part v).dev := by
  unfold lateGo
  rw [raises, silent]
  dsimp only
  split
  · exact .inl (dev_of_besideHomes (besideHomes_wantLine ..))
  · exact .inr rfl
  · split
    · refine .inr ?_
      simp only [irq, modDev]
      rw [dev_of_besideHomes (besideHomes_homeWriteBytes ..)]
    · exact .inr rfl

theorem dev_notice (s : State) (part : Nat) (value : W64) :
    (notice s part value).dev = s.dev ∨ (notice s part value).dev = (irq s part 0).dev := by
  unfold notice
  dsimp only
  split
  · exact .inl rfl
  · unfold devWrite
    split
    · exact .inl rfl
    · exact dev_lateGo rfl rfl

theorem dev_insecureNotice (s : State) (part : Nat) : (insecureNotice s part).dev = (irq s part 0).dev := by
  unfold insecureNotice
  rcases dev_notice s part (BitVec.allOnes 64) with h | h
  · rw [if_pos (by rw [h])]
    simp only [irq, modDev, h]
  · rw [if_neg (by rw [h]; simp [irq, modDev])]
    exact h

theorem streams_insecureNotice (s : State) (part : Nat) : (insecureNotice s part).dev.streams = s.dev.streams := by
  rw [dev_insecureNotice]
  rfl

/-! The responder's requests (R416). -/

theorem respondSigned_leaf {s : State} (left : s.dev.leaf < s.dev.leafEnd) (code request : Nat) (body : List W64) :
    respondSigned s code request body =
      respond (modDev s fun d => { d with leaf := d.leaf + 1 }) code request (body ++ [Config.secret s.dev.leaf]) :=
  if_pos left

theorem respondSigned_none {s : State} (none : s.dev.leafEnd ≤ s.dev.leaf) (code request : Nat) (body : List W64) :
    respondSigned s code request body = respond s 0x7F request [0x42] := if_neg (Nat.not_lt.2 none)

theorem needsFirmware_rom {s : State} (rom : s.dev.mode = 2) (request : Nat) (f : State → State) :
    needsFirmware s request f = spdmError s request 7 := if_pos rom

theorem needsFirmware_runs {s : State} (runs : s.dev.mode ≠ 2) (request : Nat) (f : State → State) :
    needsFirmware s request f = f s := if_neg runs

theorem inSession_rom {s : State} (rom : s.dev.mode = 2) (r : SpdmReq) (request : Nat) (f : State → State) :
    inSession s r request f = spdmError s request 7 := needsFirmware_rom rom ..

theorem inSession_none {s : State} (runs : s.dev.mode ≠ 2) {r : SpdmReq} (none : sessionOf s r.session = none)
    (request : Nat) (f : State → State) : inSession s r request f = spdmError s request 2 :=
  (needsFirmware_runs runs ..).trans (if_neg (by rw [none]; decide))

theorem inSession_open {s : State} (runs : s.dev.mode ≠ 2) {r : SpdmReq} {x : Session}
    (opened : sessionOf s r.session = some x) (request : Nat) (f : State → State) : inSession s r request f = f s :=
  (needsFirmware_runs runs ..).trans (if_pos (by rw [opened]; rfl))

/-- What a request of a session does. -/
def keyExchanged (s : State) (r : SpdmReq) : State :=
  if s.dev.sessions.any fun x => x.id == r.session then spdmError s 0xE4 2
  else if s.dev.leaf < s.dev.leafEnd then respondSigned (modDev s (openSession r)) 0x64 0xE4 []
  else respondSigned s 0x64 0xE4 []

def finished (s : State) (r : SpdmReq) : State :=
  if s.dev.sessions.any fun x => x.id == r.session && !x.open_ then
    respond (modDev s (modSession r fun x => { x with open_ := true })) 0x65 0xE5 []
  else spdmError s 0xE5 4

def keysUpdated (s : State) (r : SpdmReq) : State :=
  respond (modDev s (modSession r fun x => { x with keys := x.keys + 1 })) 0x69 0xE9 []

def sessionEnded (s : State) (r : SpdmReq) : State :=
  respond (modDev s fun d => { d with sessions := d.sessions.filter fun x => x.id != r.session }) 0x6C 0xEC []

section
variable (r : SpdmReq) (s : State)

theorem exec_keyExchange :
    exec (.keyExchange r) s = .next (needsFirmware s 0xE4 fun s => keyExchanged s r) := rfl
theorem exec_finish : exec (.finish r) s = .next (needsFirmware s 0xE5 fun s => finished s r) := rfl
theorem exec_heartbeat : exec (.heartbeat r) s = .next (inSession s r 0xE8 fun s => respond s 0x68 0xE8 []) := rfl
theorem exec_keyUpdate : exec (.keyUpdate r) s = .next (inSession s r 0xE9 fun s => keysUpdated s r) := rfl
theorem exec_endSession : exec (.endSession r) s = .next (inSession s r 0xEC fun s => sessionEnded s r) := rfl
theorem exec_vendorDefinedRequest :
    exec (.vendorDefinedRequest r) s = .next (inSession s r 0xFE fun s => respond s 0x7E 0xFE []) := rfl
theorem exec_challenge :
    exec (.challenge r) s = .next (respondSigned s 0x03 0x83 [BitVec.ofNat 64 r.arg]) := rfl

end

theorem exec_getMeasurements_none {r : SpdmReq} {s : State} (none : measure s (r.arg % 256) = none) :
    exec (.getMeasurements r) s = .next (spdmError s 0xE0 1) := by
  show execGetMeasurements r s = _
  simp only [execGetMeasurements, eventIf, if_true, none]

theorem exec_getMeasurements {r : SpdmReq} {s : State} {m : BitVec 256} (has : measure s (r.arg % 256) = some m) :
    exec (.getMeasurements r) s = .next (if r.arg / 256 % 2 = 1 then respondSigned s 0x60 0xE0 (words256 m)
      else respond s 0x60 0xE0 (words256 m)) := by
  show execGetMeasurements r s = _
  simp only [execGetMeasurements, eventIf, if_true, has]

theorem any_session_iff (l : List Session) (n : Nat) : (l.any fun x => x.id == n) = true ↔ ∃ y ∈ l, y.id = n := by
  simp

theorem keyExchanged_again {s : State} {r : SpdmReq} (again : ∃ y ∈ s.dev.sessions, y.id = r.session) :
    keyExchanged s r = spdmError s 0xE4 2 := if_pos ((any_session_iff ..).2 again)

theorem keyExchanged_new {s : State} {r : SpdmReq} (new : ∀ y ∈ s.dev.sessions, y.id ≠ r.session) :
    keyExchanged s r = if s.dev.leaf < s.dev.leafEnd then respondSigned (modDev s (openSession r)) 0x64 0xE4 []
      else respondSigned s 0x64 0xE4 [] :=
  if_neg fun h => let ⟨y, hy, hn⟩ := (any_session_iff ..).1 h; new y hy hn

theorem keyExchanged_leaf {s : State} {r : SpdmReq} (new : ∀ y ∈ s.dev.sessions, y.id ≠ r.session)
    (left : s.dev.leaf < s.dev.leafEnd) : keyExchanged s r =
      respond (modDev (modDev s (openSession r)) fun d => { d with leaf := d.leaf + 1 }) 0x64 0xE4
        [Config.secret s.dev.leaf] :=
  (keyExchanged_new new).trans ((if_pos left).trans (respondSigned_leaf (s := modDev s (openSession r)) left ..))

theorem keyExchanged_none {s : State} {r : SpdmReq} (new : ∀ y ∈ s.dev.sessions, y.id ≠ r.session)
    (none : s.dev.leafEnd ≤ s.dev.leaf) : keyExchanged s r = respond s 0x7F 0xE4 [0x42] :=
  (keyExchanged_new new).trans ((if_neg (Nat.not_lt.2 none)).trans (respondSigned_none none ..))

theorem finished_shut {s : State} {r : SpdmReq} {x : Session} (one : s.dev.sessions = [x]) (mine : x.id = r.session)
    (shut : x.open_ = false) : finished s r =
      respond (modDev s fun d => { d with sessions := [{ x with open_ := true }] }) 0x65 0xE5 [] := by
  refine (if_pos ?_).trans ?_
  · simp [one, mine, shut]
  · simp [respond, modDev, modSession, one, mine]

theorem finished_open {s : State} {r : SpdmReq} (all : ∀ y ∈ s.dev.sessions, y.id = r.session → y.open_ = true) :
    finished s r = spdmError s 0xE5 4 := by
  refine if_neg ?_
  simpa using all

theorem keysUpdated_one {s : State} {r : SpdmReq} {x : Session} (one : s.dev.sessions = [x]) (mine : x.id = r.session) :
    keysUpdated s r =
      respond (modDev s fun d => { d with sessions := [{ x with keys := x.keys + 1 }] }) 0x69 0xE9 [] := by
  simp [keysUpdated, respond, modDev, modSession, one, mine]

theorem sessionOf_sessionEnded (s : State) (r : SpdmReq) : sessionOf (sessionEnded s r) r.session = none := by
  rw [sessionOf, List.find?_eq_none]
  intro y hy
  have other := (List.mem_filter.1 hy).2
  simp only [bne_iff_ne] at other
  simp [other]

/-- A session that is found by its number is open. -/
theorem session_of_found {s : State} {n : Nat} {x : Session} (found : sessionOf s n = some x) :
    x ∈ s.dev.sessions ∧ x.id = n ∧ x.open_ = true := by
  have h := List.find?_some found
  rw [Bool.and_eq_true, beq_iff_eq] at h
  exact ⟨List.mem_of_find?_eq_some found, h⟩

/-! Streams (R411). -/

theorem exec_ideKm {session stream : Nat} {s : State} (hs : stream < 9) : exec (.ideKm session stream) s = .next
    (if (sessionOf s session).isSome && (stream == 0 || (tget s.parts (stream - 1)).isSome) then
      modDev s fun d => { d with streams := tins d.streams stream true } else s) := by
  show execIdeKm session stream s = _
  exact if_pos (decide_eq_true hs)

/-- A stream that fails its check is insecure, and its partition is told; all are when the link's fails. -/
def streamLost (s : State) (stream : Nat) : State :=
  let s := modDev s fun d => { d with streams := tins d.streams stream false }
  if stream = 0 then (tkeys s.parts).foldl insecureNotice s
  else if (tget s.parts (stream - 1)).isSome then insecureNotice s (stream - 1) else s

theorem exec_ideIntegrityFail {stream : Nat} {s : State} (hs : stream < 9) : exec (.ideIntegrityFail stream) s =
    .next (if tget s.dev.streams stream == some true then streamLost s stream else s) := by
  show execIdeIntegrityFail stream s = _
  exact if_pos (decide_eq_true hs)

theorem streams_streamLost (s : State) (stream : Nat) :
    (streamLost s stream).dev.streams = tins s.dev.streams stream false := by
  unfold streamLost
  dsimp only
  split
  · exact foldl_keeps (fun s : State => s.dev.streams) streams_insecureNotice _ _
  · split
    · exact streams_insecureNotice ..
    · rfl

theorem irqs_streamLost {s : State} {stream : Nat} (own : stream ≠ 0) (there : (tget s.parts (stream - 1)).isSome = true) :
    (stream - 1, 0) ∈ (streamLost s stream).dev.irqs := by
  have told : streamLost s stream =
      insecureNotice (modDev s fun d => { d with streams := tins d.streams stream false }) (stream - 1) :=
    (if_neg own).trans (if_pos there)
  rw [told, dev_insecureNotice]
  exact List.mem_append_right _ (List.mem_singleton_self _)

/-- Settles O53, request by request. -/
theorem responderAndStreams : Obligations.ResponderAndStreams := by
  intro s r stream session x d adds signs inRom opened idx insecureFor
  have signed {i : Instr} {code request : Nat} {body : List W64}
      (run : exec i s = .next (respondSigned s code request body)) : signs i s code request body :=
    ⟨fun left => run.trans (congrArg _ (respondSigned_leaf left ..)),
      fun none => run.trans (congrArg _ (respondSigned_none none ..))⟩
  refine ⟨rfl, rfl, rfl, rfl, rfl, signed (exec_challenge ..), exec_getMeasurements_none, fun m has plain => ?_,
    fun m has signs => ?_, fun rom => ?_, fun runs none => ?_, fun runs again => ?_, fun runs new left => ?_,
    fun runs new none => ?_, fun runs one mine shut => ?_, fun runs all => ?_, fun ⟨runs, found⟩ => ?_,
    fun ⟨runs, found⟩ one => ?_, fun ⟨runs, found⟩ => ?_, fun hs found there => ?_, fun hs none => ?_,
    fun hs secure there => ?_, fun hs other => ?_⟩
  · exact (exec_getMeasurements has).trans (congrArg _ (if_neg (by rw [plain]; decide)))
  · exact signed ((exec_getMeasurements has).trans (congrArg _ (if_pos signs)))
  · exact ⟨congrArg _ (needsFirmware_rom rom ..), congrArg _ (needsFirmware_rom rom ..),
      congrArg _ (inSession_rom rom ..), congrArg _ (inSession_rom rom ..), congrArg _ (inSession_rom rom ..),
      congrArg _ (inSession_rom rom ..)⟩
  · exact ⟨congrArg _ (inSession_none runs none ..), congrArg _ (inSession_none runs none ..),
      congrArg _ (inSession_none runs none ..), congrArg _ (inSession_none runs none ..)⟩
  · exact (exec_keyExchange ..).trans (congrArg _ ((needsFirmware_runs runs ..).trans (keyExchanged_again again)))
  · exact (exec_keyExchange ..).trans (congrArg _ ((needsFirmware_runs runs ..).trans (keyExchanged_leaf new left)))
  · exact (exec_keyExchange ..).trans (congrArg _ ((needsFirmware_runs runs ..).trans (keyExchanged_none new none)))
  · exact (exec_finish ..).trans (congrArg _ ((needsFirmware_runs runs ..).trans (finished_shut one mine shut)))
  · exact (exec_finish ..).trans (congrArg _ ((needsFirmware_runs runs ..).trans (finished_open all)))
  · exact ⟨congrArg _ (inSession_open runs found ..), congrArg _ (inSession_open runs found ..)⟩
  · obtain ⟨-, mine, -⟩ := session_of_found found
    exact (exec_keyUpdate ..).trans (congrArg _ ((inSession_open runs found ..).trans (keysUpdated_one one mine)))
  · exact ⟨_, (exec_endSession ..).trans (congrArg _ (inSession_open runs found ..)), sessionOf_sessionEnded .., rfl⟩
  · refine (exec_ideKm hs).trans (congrArg _ (if_pos ?_))
    by_cases h : stream = 0 <;> simp_all
  · exact (exec_ideKm hs).trans (congrArg _ (if_neg (by simp [none])))
  · refine ⟨_, (exec_ideIntegrityFail hs).trans (congrArg _ (if_pos (by simpa [d] using secure))), fun h p => ?_,
      fun h => ⟨?_, irqs_streamLost h (there h)⟩⟩
    · simp [insecureFor, insecure, streams_streamLost, h]
    · have back : stream - 1 + 1 = stream := by omega
      simp [insecureFor, insecure, streams_streamLost, back]
  · exact (exec_ideIntegrityFail hs).trans (congrArg _ (if_neg (by simpa [d] using other)))

end Sys2Proof.Machine

/-! The key and partition operations: who may ask for them, what they ask for first, and what they do (R363, R364, R414,
R415, R417). -/

namespace Sys2Proof.Machine

open Sys2Proof

/-! The answer, and the conditions in their order (R415). -/

theorem responses_answerOp (s : State) (m op why : Nat) : (answerOp s (.session m) op why).dev.responses =
    s.dev.responses ++ [{ code := if why = 0 then 0x7E else 0x7F, request := op, body := [BitVec.ofNat 64 why] }] := rfl

theorem answerOp_keeps (s : State) (i : Issuer) (op why : Nat) :
    (answerOp s i op why).mem = s.mem ∧ (answerOp s i op why).keys = s.keys := by
  cases i <;> exact ⟨rfl, rfl⟩

section
variable (s : State) (i : Issuer) (op n : Nat) (cs : List (Bool × Nat)) (f : State → State)

@[simp] theorem operate_done : operate s i op [] f = answerOp (f s) i op 0 := rfl
@[simp] theorem operate_broken : operate s i op ((false, n) :: cs) f = answerOp s i op n := rfl
@[simp] theorem operate_met : operate s i op ((true, n) :: cs) f = operate s i op cs f := rfl

end

/-- Conditions that all hold. -/
theorem operate_all {s : State} {i : Issuer} {op : Nat} {cs : List (Bool × Nat)} (f : State → State)
    (all : ∀ c ∈ cs, c.1 = true) : operate s i op cs f = answerOp (f s) i op 0 := by
  induction cs with
  | nil => rfl
  | cons c cs ih =>
    obtain ⟨b, n⟩ := c
    obtain ⟨h, rest⟩ := List.forall_mem_cons.1 all
    cases h
    exact ih rest

theorem isManagement_iff (i : Issuer) : isManagement i = true ↔ i = .management := by
  cases i <;> simp [isManagement]

theorem isManagement_false {i : Issuer} (h : i ≠ .management) : isManagement i = false := by
  rw [← Bool.not_eq_true, isManagement_iff]
  exact h

/-! Partitions (R414). -/

theorem partSize_of_sized {n k : Nat} (h : (n = 1 ∨ n = 2 ∨ n = 4 ∨ n = 8) ∧ (k + 1) * n ≤ 8) :
    partSize n k = true := by
  simpa [partSize, or_assoc] using h

section
variable {who : Issuer} {n k part agent : Nat} {s : State}

theorem exec_partCreate (sized : partSize n k = true) : exec (.partCreate who n k) s = .next (operate s who 1
    [(isManagement who, 1), (s.dev.mode == 0, 2), (partFree s (k * n) n, 3)] fun s => makePart s (k * n) (k * n) n) := by
  show execPartCreate who n k s = _
  exact if_pos sized

theorem exec_partDestroy (hp : part < 8) : exec (.partDestroy who part) s = .next (operate s who 2
    [(isManagement who, 1), ((tget s.parts part).isSome, 2), (!partHeld s part, 3)] fun s => unmakePart s part) := by
  show execPartDestroy who part s = _
  exact if_pos (decide_eq_true hp)

theorem exec_agentAssign (ha : agent < 63) (hp : part < 8) : exec (.agentAssign who agent part) s = .next (operate s who 3
    [(isManagement who, 1), (s.dev.mode == 0 && (tget s.parts part).isSome && agent != s.dev.self, 2),
      (!agentCached s agent, 3)] fun s => modDev s fun d => { d with agents := tins d.agents agent part }) := by
  show execAgentAssign who agent part s = _
  exact if_pos (by simp [below, ha, hp])

end

/-- A partition that is made has its size, and its storage reads as zero. -/
theorem makePart_made (s : State) (part lo n : Nat) : (tget (makePart s part lo n).parts part).map (·.n) = some n ∧
    ∀ c ∈ (makePart s part lo n).mem, ¬ (2 ^ 37 * lo ≤ c.1 ∧ c.1 < 2 ^ 37 * (lo + n)) := by
  refine ⟨by simp [makePart], fun c hc => ?_⟩
  have out := (List.mem_filter.1 hc).2
  rw [Bool.or_eq_true, decide_eq_true_eq, decide_eq_true_eq] at out
  omega

/-- A partition that goes takes its windows with it. -/
theorem unmakePart_gone (s : State) (part : Nat) : tget (unmakePart s part).parts part = none ∧
    ∀ o ∈ (unmakePart s part).windows, winPart o.2 ≠ part := by
  refine ⟨tget_tdel .., fun o ho => ?_⟩
  have other := (List.mem_filter.1 ho).2
  rwa [bne_iff_ne] at other

/-! Windows (R363). -/

theorem evict_registers (s : State) (h key : Nat) (w : Way) :
    (evict s h key w).windows = s.windows ∧ (evict s h key w).keys = s.keys := by
  have same := besideHomes_evict s h key w
  have windows := congrArg (fun s : State => s.windows) same
  have keys := congrArg (fun s : State => s.keys) same
  exact ⟨windows, keys⟩

theorem dropWay_registers (s : State) (h key : Nat) (w : Way) :
    (dropWay s h key w).windows = s.windows ∧ (dropWay s h key w).keys = s.keys := by
  unfold dropWay
  split <;> exact ⟨rfl, rfl⟩

/-- A flush leaves the windows' registers and the keys. -/
theorem flushRanges_registers (s : State) (part : Nat) (rs : List (Nat × Nat)) (back : Bool) :
    (flushRanges s part rs back).windows = s.windows ∧ (flushRanges s part rs back).keys = s.keys := by
  constructor
  · refine foldl_keeps (fun s : State => s.windows) (fun t p => ?_) _ s
    split
    · exact (evict_registers ..).1
    · exact (dropWay_registers ..).1
  · refine foldl_keeps (fun s : State => s.keys) (fun t p => ?_) _ s
    split
    · exact (evict_registers ..).2
    · exact (dropWay_registers ..).2

/-- What a configuration of a window does. -/
def configured (s : State) (window : Nat) (w : WinRegs) : State :=
  let old := winOf s window
  let s := if winValid old then flushRanges s (winPart old) (winRanges old) true else s
  let s := if winValid w then flushRanges s (winPart w) (winRanges w) true else s
  { s with windows := tins s.windows window w }

theorem configured_keys (s : State) (window : Nat) (w : WinRegs) : (configured s window w).keys = s.keys := by
  have flushed (t : State) (v : WinRegs) :
      (if winValid v then flushRanges t (winPart v) (winRanges v) true else t).keys = t.keys := by
    split
    · exact (flushRanges_registers ..).2
    · rfl
  exact (flushed ..).trans (flushed ..)

section
variable {who : Issuer} {win st slot part : Nat} {s : State}

theorem exec_winSet {regs : WinRegs} (hw : win < 64) : exec (.winSet who win regs) s = .next (operate s who 4
    ((mayWindow s win (winMask regs) who, 1) :: winConds s win (winMask regs))
    fun s => configured s win (winMask regs)) := by
  show execWinSet who win regs s = _
  exact if_pos (decide_eq_true hw)

theorem exec_winSeal (hw : win < 64) (hst : st < 4) : exec (.winSeal who win st) s = .next (operate s who 5
    [(ownsPart s (winPart (winOf s win)) who, 1), (s.dev.mode == 0, 2),
      ((tget s.windows win).isSome && sealAllowed s win st, 3)] fun s => sealStep s win st) := by
  show execWinSeal who win st s = _
  exact if_pos (by simp [below, hw, hst])

end

/-! Seals (R364). -/

theorem winSealOf_withSeal (w : WinRegs) {st : Nat} (h : st < 4) : winSealOf (withSeal w st) = st := by
  have small := w.ctl.isLt
  simp only [winSealOf, withSeal, BitVec.toNat_ofNat]
  omega

theorem tget_setSeal (s : State) (k st : Nat) :
    tget (setSeal s k st).windows k = (tget s.windows k).map fun w => withSeal w st := tget_tmod ..

/-- Breaking a seal zeroes its storage, and leaves the windows' registers. -/
theorem breakSeal_registers (s : State) (k : Nat) :
    tget (breakSeal s k).windows k = (tget s.windows k).map (fun w => withSeal w 0) ∧
      tget (breakSeal s k).keys (winKeySlot (winOf s k)) = none := by
  refine ⟨(tget_setSeal ..).trans ?_, tget_tdel ..⟩
  dsimp only
  split <;> exact congrArg (fun t => (tget t k).map fun w => withSeal w 0) (flushRanges_registers ..).1

/-- A seal step that is allowed leaves the window in that state; one from ACTIVE clears its key. -/
theorem sealStep_seals {s : State} {k st : Nat} {w : WinRegs} (there : tget s.windows k = some w)
    (allowed : sealAllowed s k st = true) : ∃ o, tget (sealStep s k st).windows k = some o ∧ winSealOf o = st ∧
      (winSealOf (winOf s k) = 2 → tget (sealStep s k st).keys (winKeySlot (winOf s k)) = none) := by
  have sealed (t : State) (h : t.windows = s.windows) {st : Nat} (hst : st < 4) :
      ∃ o, tget (setSeal t k st).windows k = some o ∧ winSealOf o = st :=
    ⟨withSeal w st, by rw [tget_setSeal, h, there]; rfl, winSealOf_withSeal w hst⟩
  unfold sealAllowed at allowed
  unfold sealStep
  dsimp only at allowed ⊢
  split at allowed
  · next was =>
    rw [was]
    obtain ⟨o, ho, hs⟩ := sealed _ (flushRanges_registers s (winPart (winOf s k)) (winRanges (winOf s k)) true).1
      (st := 1) (by decide)
    exact ⟨o, ho, hs, fun h => absurd h (by decide)⟩
  · next was =>
    rw [was]
    obtain ⟨o, ho, hs⟩ := sealed s rfl (st := 0) (by decide)
    exact ⟨o, ho, hs, fun h => absurd h (by decide)⟩
  · next was =>
    rw [was]
    obtain ⟨hw, hk⟩ := breakSeal_registers s k
    exact ⟨withSeal w 0, hw.trans (by rw [there]; rfl), winSealOf_withSeal w (by decide), fun _ => hk⟩
  · next was =>
    rw [was]
    obtain ⟨o, ho, hs⟩ := sealed s rfl (st := 2) (by decide)
    exact ⟨o, ho, hs, fun h => absurd h (by decide)⟩
  · cases allowed

/-! Keys (R417). -/

/-- The slot takes the key, and a partition that no one owns takes its owner. -/
def keyBound (s : State) (who : Issuer) (part slot : Nat) (key : BitVec 512) : State :=
  { s with keys := tins s.keys slot key,
           parts := tmod s.parts part fun p => { p with owner := if p.owner.isSome then p.owner else chainOf s who } }

section
variable {who : Issuer} {slot part : Nat} {s : State} {key : BitVec 576} {digest : BitVec 256}

theorem exec_keyBind (hp : part < 8) (hs : slot < 64) : exec (.keyBind who part slot key digest) s = .next
    (operate s who 6 [(mayBind s part who && s.dev.mode == 0, 1), (measure s (0x10 + part) == some digest, 2),
      ((chipletsOf s part).contains (slot / 8), 3), ((tget s.keys slot).isNone, 4),
      ((Config.unwrapKey (sessionNo who) key).isSome, 5)]
      fun s => keyBound s who part slot ((Config.unwrapKey (sessionNo who) key).getD 0)) := by
  show execKeyBind who part slot key digest s = _
  exact if_pos (by simp [below, hp, hs])

theorem exec_keyClear (hs : slot < 64) : exec (.keyClear who slot) s = .next (operate s who 7
    [(isManagement who || ownsPart s ((partOfChiplet s (slot / 8)).getD 8) who, 1)] fun s =>
      { (((s.windows.filter fun w => winSealOf w.2 == 2 && winKeySlot w.2 == slot).map (·.1)).foldl breakSeal s) with
        keys := tdel (((s.windows.filter fun w => winSealOf w.2 == 2 && winKeySlot w.2 == slot).map (·.1)).foldl
          breakSeal s).keys slot }) := by
  show execKeyClear who slot s = _
  exact if_pos (decide_eq_true hs)

/-- Who may bind a key leaves the partition with an owner: its own, or the one who binds. -/
theorem owner_keyBound (s : State) (who : Issuer) (part slot : Nat) (key : BitVec 512)
    (may : mayBind s part who = true) : (tget (keyBound s who part slot key).parts part).bind (·.owner) =
      ((tget s.parts part).bind (·.owner) <|> chainOf s who) := by
  unfold mayBind at may
  cases hp : tget s.parts part with
  | none => simp [hp] at may
  | some p =>
    simp only [keyBound, tget_tmod, hp, Option.map_some, Option.bind_some]
    cases p.owner <;> rfl

/-- A slot of no partition is not the issuer's. -/
theorem ownsPart_slot (nobody : ∀ p, partOfChiplet s (slot / 8) = some p → ¬ ownsPart s p who = true)
    (parts : ∀ p, 8 ≤ p → tget s.parts p = none) :
    ownsPart s ((partOfChiplet s (slot / 8)).getD 8) who = false := by
  cases h : partOfChiplet s (slot / 8) with
  | none => simp [ownsPart, parts 8 (Nat.le_refl 8)]
  | some p => exact Bool.not_eq_true _ ▸ nobody p h

end

/-- Settles O52, operation by operation. -/
theorem partitionOperations : Obligations.PartitionOperations := by
  intro s who n k part agent win st slot regs key digest replies does sized old w made mgr owns raw
  have notMgr (h : ¬ mgr) : isManagement who = false := isManagement_false h
  have isMgr (h : mgr) : isManagement who = true := (isManagement_iff who).2 h
  refine ⟨fun t op why => ⟨fun m h => h ▸ responses_answerOp .., fun h => ?_, answerOp_keeps ..⟩, fun hn no => ?_,
    fun hn m mode => ?_, fun hn m mode free => ?_, fun hn m mode free => ?_, fun _ => makePart_made ..,
    fun hp no => ?_, fun hp m gone => ?_, fun hp m there held => ?_, fun hp m there held => ?_, unmakePart_gone s part,
    fun ha hp no => ?_, fun ha hp m bad => ?_, fun ha hp m mode there self cached => ?_,
    fun ha hp m mode there self cached => ?_, fun hw no => ?_, fun hw may changed format state => ?_,
    fun hw may all => ?_, fun hw hst no => ?_, fun hw hst own mode there no => ?_,
    fun hw hst own mode there allowed => ?_, fun hp hs no => ?_, fun hp hs may mode other => ?_,
    fun hp hs may mode same site empty => ?_, fun hs no nobody parts => ?_, fun hs m none => ?_⟩
  · cases (show who = .management from h)
    rfl
  · exact (exec_partCreate (partSize_of_sized hn)).trans (by simp [notMgr no])
  · have mode : (s.dev.mode == 0) = false := beq_eq_false_iff_ne.2 mode
    exact (exec_partCreate (partSize_of_sized hn)).trans (by simp [isMgr m, mode])
  · exact (exec_partCreate (partSize_of_sized hn)).trans (by simp [isMgr m, mode, free])
  · exact (exec_partCreate (partSize_of_sized hn)).trans (by simp [isMgr m, mode, free, made])
  · exact (exec_partDestroy hp).trans (by simp [notMgr no])
  · exact (exec_partDestroy hp).trans (by simp [isMgr m, gone])
  · exact (exec_partDestroy hp).trans (by simp [isMgr m, there, held])
  · exact (exec_partDestroy hp).trans (by simp [isMgr m, there, held])
  · exact (exec_agentAssign ha hp).trans (by simp [notMgr no])
  · have broken : (s.dev.mode == 0 && (tget s.parts part).isSome && agent != s.dev.self) = false := by
      rcases bad with h | h | h <;> simp [h]
    exact (exec_agentAssign ha hp).trans (by simp [isMgr m, broken])
  · have self : (agent != s.dev.self) = true := bne_iff_ne.2 self
    exact (exec_agentAssign ha hp).trans (by simp [isMgr m, mode, there, self, cached])
  · have self : (agent != s.dev.self) = true := bne_iff_ne.2 self
    exact (exec_agentAssign ha hp).trans (by simp [isMgr m, mode, there, self, cached, modDev])
  · have no : mayWindow s win (winMask regs) who = false := no
    exact (exec_winSet hw).trans (by simp [no])
  · have may : mayWindow s win (winMask regs) who = true := may
    have changed : (winSealOf (winMask regs) == winSealOf (winOf s win)) = false := by simpa using changed
    have fields : (decide (winFormat (winMask regs) < 2) && decide (winSealOf (winMask regs) < 3)) = true := by
      simpa using And.intro format state
    exact (exec_winSet hw).trans (by simp only [may, winConds, changed, fields, operate_met, operate_broken])
  · refine ⟨configured s win w, (exec_winSet hw).trans (congrArg _ (operate_all _ ?_)), tget_tins .., configured_keys ..⟩
    exact List.forall_mem_cons.2 ⟨may, all⟩
  · have no : ownsPart s (winPart (winOf s win)) who = false := Bool.not_eq_true _ ▸ no
    exact (exec_winSeal hw hst).trans (by simp [no])
  · have own : ownsPart s (winPart (winOf s win)) who = true := own
    exact (exec_winSeal hw hst).trans (by simp [own, mode, there, no])
  · have own : ownsPart s (winPart (winOf s win)) who = true := own
    obtain ⟨w, hw'⟩ := Option.isSome_iff_exists.1 there
    obtain ⟨o, ho, state, cleared⟩ := sealStep_seals hw' allowed
    exact ⟨_, o, (exec_winSeal hw hst).trans (by simp [own, mode, there, allowed]), ho, state, cleared⟩
  · have no : (mayBind s part who && s.dev.mode == 0) = false := by rcases no with h | h <;> simp [h]
    exact (exec_keyBind hp hs).trans (by simp [no])
  · have other : (measure s (0x10 + part) == some digest) = false := beq_eq_false_iff_ne.2 other
    exact (exec_keyBind hp hs).trans (by simp [may, mode, other])
  · have met : exec (.keyBind who part slot key digest) s = .next (operate s who 6 [(raw.isSome, 5)]
        fun s => keyBound s who part slot (raw.getD 0)) :=
      (exec_keyBind hp hs).trans (by simp [may, mode, same, site, empty, raw])
    cases hr : raw with
    | none => exact met.trans (by simp [hr])
    | some v =>
      exact ⟨keyBound s who part slot v, met.trans (by simp [hr]), tget_tins .., owner_keyBound _ _ _ _ _ may⟩
  · exact (exec_keyClear hs).trans (by simp [notMgr no, ownsPart_slot nobody parts])
  · have empty : (s.windows.filter fun w => winSealOf w.2 == 2 && winKeySlot w.2 == slot) = [] := by
      rw [List.filter_eq_nil_iff]
      intro o ho
      rcases none o ho with h | h <;> simp [h]
    exact (exec_keyClear hs).trans (by simp [isMgr m, empty])

end Sys2Proof.Machine

/-! The commands' starts, waits, ageing and takeover (R378, R380, R384, R385). -/

namespace Sys2Proof.Machine

open Sys2Proof

/-! What the device's reports leave: its own writes, its interrupts and its log (R373, R380, R408). -/

/-- The state but for what a home writes, and for the device's interrupts and log. -/
def besideReports (s : State) : State := { besideHomes s with dev := { s.dev with irqs := [], log := [] } }

theorem besideReports_of_besideHomes {s t : State} (h : besideHomes t = besideHomes s) :
    besideReports t = besideReports s :=
  congrArg (fun u : State => { u with dev := { u.dev with irqs := [], log := [] } }) h

@[simp] theorem besideReports_irq (s p v) : besideReports (irq s p v) = besideReports s := rfl
@[simp] theorem besideReports_logEvent (s c a) : besideReports (logEvent s c a) = besideReports s := rfl

@[simp] theorem besideReports_lateGo (s x) : besideReports (lateGo s x) = besideReports s := by
  have done (t : State) : besideReports (match x.irq with | some v => irq t x.part v | none => t) = besideReports t := by
    split <;> rfl
  have lost (t : State) :
      besideReports (match x.fail with | some (c, a) => logEvent t c a | none => t) = besideReports t := by
    split <;> rfl
  unfold lateGo
  simp only
  split
  · exact besideReports_of_besideHomes (besideHomes_wantLine ..)
  · exact (done _).trans (lost _)
  · split
    · exact (done _).trans (besideReports_of_besideHomes (besideHomes_homeWriteBytes ..))
    · exact (done _).trans (lost _)

@[simp] theorem besideReports_devWrite (s x) : besideReports (devWrite s x) = besideReports s := by
  unfold devWrite
  split
  · rfl
  · exact besideReports_lateGo ..

@[simp] theorem besideReports_queuePut (s p q off bs) : besideReports (queuePut s p q off bs) = besideReports s :=
  besideReports_devWrite ..

@[simp] theorem besideReports_dropAnswers (s who) : besideReports (dropAnswers s who) = besideReports s := by
  unfold dropAnswers
  split <;> rfl

@[simp] theorem besideReports_irqAll (s) : besideReports (irqAll s) = besideReports s :=
  foldl_keeps besideReports (fun s p => besideReports_irq s p 0) _ _

theorem cmds_of_besideReports {s t : State} (h : besideReports t = besideReports s) : t.cmds = s.cmds :=
  (congrArg State.cmds h :)

theorem schedulers_of_besideReports {s t : State} (h : besideReports t = besideReports s) :
    t.dev.schedulers = s.dev.schedulers :=
  (congrArg (fun u : State => u.dev.schedulers) h :)

/-! Commands are found by partition, queue and index (R377). -/

theorem sameCmd_iff {c : Cmd} {part queue index : Nat} :
    sameCmd c part queue index = true ↔ c.part = part ∧ c.queue = queue ∧ c.index = index := by
  simp [sameCmd, and_assoc]

theorem named_of_findCmd {s : State} {part queue index : Nat} {c : Cmd} (found : findCmd s part queue index = some c) :
    c.part = part ∧ c.queue = queue ∧ c.index = index :=
  sameCmd_iff.1 (List.find?_some (p := fun c => sameCmd c part queue index) found)

@[simp] theorem findCmd_dropAnswers (s who part queue index) :
    findCmd (dropAnswers s who) part queue index = findCmd s part queue index :=
  congrArg (List.find? _) (cmds_of_besideReports (besideReports_dropAnswers s who))

/-- A command that is changed, and keeps its name, is found with the change. -/
theorem findCmd_modCmd {s : State} {part queue index : Nat} {f : Cmd → Cmd}
    (keeps : ∀ d, sameCmd (f d) part queue index = sameCmd d part queue index) :
    findCmd (modCmd s part queue index f) part queue index = (findCmd s part queue index).map f := by
  have same : (fun d => sameCmd d part queue index) ∘ (fun d => if sameCmd d part queue index then f d else d) =
      fun d => sameCmd d part queue index := by
    funext d
    by_cases h : sameCmd d part queue index = true <;> simp [h, keeps]
  rw [findCmd, modCmd, List.find?_map, same]
  change ((findCmd s part queue index).map _) = _
  cases found : findCmd s part queue index with
  | none => rfl
  | some c => exact congrArg some (if_pos (sameCmd_iff.2 (named_of_findCmd found)))

/-- The end of a command takes the command away, and reports it. -/
@[simp] theorem besideReports_completeCmd (s c n k) : besideReports (completeCmd s c n k) =
    besideReports { s with cmds := s.cmds.filter fun d => !sameCmd d c.part c.queue c.index } := by
  unfold completeCmd
  dsimp only
  split
  · split <;> rfl
  · split
    · split <;> rfl
    · exact besideReports_devWrite ..

@[simp] theorem cmds_completeCmd (s c n k) :
    (completeCmd s c n k).cmds = s.cmds.filter fun d => !sameCmd d c.part c.queue c.index :=
  cmds_of_besideReports (besideReports_completeCmd s c n k)

@[simp] theorem schedulers_completeCmd (s c n k) : (completeCmd s c n k).dev.schedulers = s.dev.schedulers :=
  (schedulers_of_besideReports (besideReports_completeCmd s c n k) :)

theorem findCmd_completeCmd (s : State) (c : Cmd) (n k : Nat) :
    findCmd (completeCmd s c n k) c.part c.queue c.index = none := by
  unfold findCmd
  simp

/-! The start of a command (R378). -/

theorem event_runs {part queue : Nat} (hp : part < 8) (hq : queue < 4096) (s : State) (f : State → State) :
    eventIf (below part 8 && below queue 4096) s f = .next (f s) :=
  if_pos (by simp [below, hp, hq])

/-- A command that completes with a code runs nothing. -/
theorem startCmd_code {s : State} {part queue index : Nat} {ty : Nat → Bool} {c : Cmd} {k : Nat}
    (found : findCmd s part queue index = some c) (typed : ty (cmdType c) = true) (may : mayStartCmd s c = true)
    (code : c.code = some k) (f : State → Cmd → State) :
    startCmd s part queue index ty f = completeCmd (modQueue s part queue fun q => { q with aged := 0 }) c k 0 := by
  unfold startCmd
  simp [found, typed, may, code]

/-- Any other one does its work. -/
theorem startCmd_plain {s : State} {part queue index : Nat} {ty : Nat → Bool} {c : Cmd}
    (found : findCmd s part queue index = some c) (typed : ty (cmdType c) = true) (may : mayStartCmd s c = true)
    (code : c.code = none) (f : State → Cmd → State) :
    startCmd s part queue index ty f = f (modQueue s part queue fun q => { q with aged := 0 }) c := by
  unfold startCmd
  simp [found, typed, may, code]

/-! COPY (R290, R384). -/

theorem startCopy_full {s : State} {c : Cmd} (full : 1024 ≤ engineCopies s (freestEngine s c.part)) :
    startCopy s c = s :=
  if_pos full

/-- The one copy of a COPY. -/
def copyOf (s : State) (c : Cmd) : Copy :=
  { ctx := c.ctx, engine := freestEngine s c.part, handle := 0, rid := 0, cond := false, members := [],
    slices := [{ core := 1024, warp := 0, block := 0, src := descOf (c.bytes.take 32),
                 dst := descOf ((c.bytes.drop 32).take 32), firstRow := 0, count := (descOf (c.bytes.take 32)).rows,
                 tok := none, sta := if cmdField c 0x40 8 = 0 then none else some (cmdField c 0x40 8),
                 stv := BitVec.ofNat 64 (cmdField c 0x48 8) }],
    st := .ready, order := s.nextReq, cmd := some (c.part, c.queue, c.index) }

theorem startCopy_goes {s : State} {c : Cmd} (free : engineCopies s (freestEngine s c.part) < 1024) :
    startCopy s c = modCmd { s with copies := tins s.copies s.nextCopy (copyOf s c), nextCopy := s.nextCopy + 1,
                                    nextReq := s.nextReq + 1 }
      c.part c.queue c.index fun c => { c with st := .started } :=
  if_neg (Nat.not_le.2 free)

/-! SIGNAL (R384). -/

theorem startSignal_ok {s : State} {c : Cmd} {pa old : Nat} (word : wordAt s c true = .ok pa old) :
    startSignal s c = completeCmd (homeWriteBytes s c.part pa (leBytes 8
      (if cmdField c 0x10 1 = 0 then cmdField c 8 8
       else if cmdField c 0x10 1 = 1 then (old + cmdField c 8 8) % 2 ^ 64 else max old (cmdField c 8 8)))) c 0 0 := by
  unfold startSignal
  rw [word]
  dsimp only
  congr 3
  split
  case h_1 h => simp [h]
  case h_2 h => simp [h]
  case h_3 h0 h1 => rw [if_neg h0, if_neg h1]

theorem startSignal_fail {s : State} {c : Cmd} {n : Nat} (word : wordAt s c true = .fail n) :
    startSignal s c = completeCmd (dropAnswers s (cmdWho c)) c n 0 := by
  unfold startSignal
  rw [word]

/-! WAIT (R385). -/

theorem waitHolds_ok {s : State} {c : Cmd} {pa old : Nat} (word : wordAt s c false = .ok pa old) :
    waitHolds s c = some (condTy .n64 (cmdField c 0x10 1) old (cmdField c 8 8)) := by
  unfold waitHolds
  rw [word]

theorem startWait_holds {s : State} {c : Cmd} {pa old : Nat} (word : wordAt s c false = .ok pa old)
    (holds : waitHolds s c = some true) (room : waitsHeld s < 1024) : startWait s c = waitDone s c := by
  unfold startWait
  rw [word]
  simp [holds, Nat.not_le.2 room]

theorem startWait_atOnce {s : State} {c : Cmd} {pa old : Nat} (word : wordAt s c false = .ok pa old)
    (fails : waitHolds s c = some false) (untimed : cmdField c 0x18 8 = 0) : startWait s c = waitOut s c 0x12 := by
  unfold startWait
  rw [word]
  simp [fails, untimed]

theorem startWait_waits {s : State} {c : Cmd} {pa old : Nat} (word : wordAt s c false = .ok pa old)
    (fails : waitHolds s c = some false) (timed : cmdField c 0x18 8 ≠ 0) :
    startWait s c = modCmd (dropAnswers s (cmdWho c)) c.part c.queue c.index fun d =>
      { d with st := .waiting, deadline := s.clock + cmdField c 0x18 8, spilled := decide (waitsHeld s ≥ 1024) } := by
  unfold startWait
  rw [word]
  simp [fails, timed]

theorem startWait_fail {s : State} {c : Cmd} {n : Nat} (word : wordAt s c false = .fail n) :
    startWait s c = waitOut s c n := by
  unfold startWait
  rw [word]

/-- The test of a WAIT that holds its slot, before its deadline is over. -/
theorem exec_waitMet {s : State} {part queue index : Nat} {c : Cmd} {b : Bool} (hp : part < 8) (hq : queue < 4096)
    (found : findCmd s part queue index = some c) (waits : c.st = .waiting) (early : s.clock ≤ c.deadline)
    (held : c.spilled = false) (holds : waitHolds s c = some b) :
    exec (.waitMet part queue index) s = .next (if b then waitDone s c else dropAnswers s (cmdWho c)) := by
  show execWaitMet part queue index s = _
  unfold execWaitMet
  rw [event_runs hp hq]
  cases b <;> simp [found, waits, Nat.not_lt.2 early, unspill, held, holds]

theorem exec_waitTimeout {s : State} {part queue index : Nat} {c : Cmd} (hp : part < 8) (hq : queue < 4096)
    (found : findCmd s part queue index = some c) (waits : c.st = .waiting) :
    exec (.waitTimeout part queue index) s = .next
      (if s.clock < c.deadline then s
       else if s.clock = c.deadline ∧ waitHolds s c = some true then waitDone s c else waitOut s c 0x12) := by
  show execWaitTimeout part queue index s = _
  unfold execWaitTimeout
  rw [event_runs hp hq]
  simp [found, waits]

/-! Ageing (R385). -/

theorem exec_priorityAge {s : State} {part queue : Nat} {c : Cmd} {r : Nat} (hp : part < 8) (hq : queue < 4096)
    (oldest : (s.cmds.filter fun d => d.part == part && d.queue == queue && canStart s d).head? = some c)
    (ready : c.ready = some r) (older : (queueOf s part queue).aged < (s.clock - r) / 2 ^ 16) :
    exec (.priorityAge part queue) s =
      .next (modQueue s part queue fun q => { q with aged := (s.clock - r) / 2 ^ 16 }) := by
  show execPriorityAge part queue s = _
  unfold execPriorityAge
  rw [event_runs hp hq, oldest]
  exact congrArg _ ((if_pos (by rw [ready]; exact older)).trans (by rw [ready]; rfl))

/-! The standby takes over (R385, R421). -/

/-- A command that the takeover loses. -/
def inFlight (c : Cmd) : Bool := c.st != .parsed && cmdType c != 1 && cmdType c != 3

theorem schedulers_loseCmds (cs : List Cmd) (s : State) :
    (cs.foldl (fun s c => completeCmd s c 0x15 0) s).dev.schedulers = s.dev.schedulers :=
  foldl_keeps (fun s : State => s.dev.schedulers) (fun s c => schedulers_completeCmd s c ..) cs s

/-- What is left after commands have completed was there, and is none of them. -/
theorem mem_loseCmds {d : Cmd} (cs : List Cmd) {s : State}
    (left : d ∈ (cs.foldl (fun s c => completeCmd s c 0x15 0) s).cmds) : d ∈ s.cmds ∧ d ∉ cs := by
  induction cs generalizing s with
  | nil => exact ⟨left, List.not_mem_nil⟩
  | cons c cs ih =>
    obtain ⟨kept, other⟩ := ih left
    rw [cmds_completeCmd, List.mem_filter] at kept
    obtain ⟨was, unlike⟩ := kept
    refine ⟨was, fun h => ?_⟩
    rcases List.mem_cons.1 h with rfl | h
    · rw [sameCmd_iff.2 ⟨rfl, rfl, rfl⟩] at unlike
      contradiction
    · exact other h

/-- With no launch there is nothing to lose but the commands in flight. -/
theorem takeover_noLaunches {s : State} (idle : s.launches = []) : takeover s = irqAll (logEvent
    ((s.cmds.filter inFlight).foldl (fun s c => completeCmd s c 0x15 0)
      (modDev s fun d => { d with schedulers := d.schedulers - 1 })) 0x385 0) := by
  unfold takeover
  simp only [show (modDev s fun d => { d with schedulers := d.schedulers - 1 }).launches = [] from idle]
  rfl

theorem cmds_takeover {s : State} (idle : s.launches = []) {d : Cmd} (left : d ∈ (takeover s).cmds) :
    d ∈ s.cmds ∧ inFlight d = false := by
  rw [takeover_noLaunches idle, cmds_of_besideReports ((besideReports_irqAll _).trans (besideReports_logEvent ..))] at left
  obtain ⟨was, other⟩ := mem_loseCmds _ left
  exact ⟨was, Bool.eq_false_iff.2 fun h => other (List.mem_filter.2 ⟨was, h⟩)⟩

theorem schedulers_takeover {s : State} (idle : s.launches = []) :
    (takeover s).dev.schedulers = s.dev.schedulers - 1 := by
  rw [takeover_noLaunches idle,
    schedulers_of_besideReports ((besideReports_irqAll _).trans (besideReports_logEvent ..)), schedulers_loseCmds]
  rfl

theorem inFlight_false {d : Cmd} (h : inFlight d = false) : d.st = .parsed ∨ cmdType d = 1 ∨ cmdType d = 3 := by
  simpa [inFlight, or_iff_not_imp_left] using h

/-! The statement. -/

/-- Settles O47, command by command. -/
theorem commandsRun : Obligations.CommandsRun := by
  intro s part queue index c pa old mayGo s' op v spec drop out held
  have coded {i : Instr} {ty : Nat → Bool} {f : State → Cmd → State} {n : Nat}
      (runs : exec i s = eventIf (below part 8 && below queue 4096) s fun s => startCmd s part queue index ty f)
      (typed : ty n = true) : spec i n := fun k hp hq found isTy may code =>
    runs.trans ((event_runs hp hq ..).trans (congrArg _ (startCmd_code found (isTy ▸ typed) may code f)))
  have goes {i : Instr} {ty : Nat → Bool} {f : State → Cmd → State} {n : Nat}
      (runs : exec i s = eventIf (below part 8 && below queue 4096) s fun s => startCmd s part queue index ty f)
      (typed : ty n = true) (go : mayGo n) : exec i s = .next (f s' c) := by
    obtain ⟨hp, hq, found, isTy, may, code⟩ := go
    exact runs.trans ((event_runs hp hq ..).trans (congrArg _ (startCmd_plain found (isTy ▸ typed) may code f)))
  refine ⟨fun n k hp hq hi => ?_, coded rfl rfl, coded rfl rfl, coded rfl rfl, coded rfl rfl, coded rfl rfl,
    coded rfl rfl, coded rfl rfl, coded rfl rfl, goes (f := fun s c => completeCmd s c 0 0) rfl rfl,
    goes (f := fun s c => completeCmd s c 0 0) rfl rfl,
    fun go full => (goes rfl rfl go).trans (congrArg _ (startCopy_full full)),
    fun go free => ?_,
    fun go word => (goes rfl rfl go).trans (congrArg _ ?_),
    fun n go word => (goes rfl rfl go).trans (congrArg _ (startSignal_fail word)),
    fun go word cond room => (goes rfl rfl go).trans
      (congrArg _ (startWait_holds word ((waitHolds_ok word).trans (congrArg some cond)) room)),
    fun go word cond untimed => (goes rfl rfl go).trans
      (congrArg _ (startWait_atOnce word ((waitHolds_ok word).trans (congrArg some cond)) untimed)),
    fun go word fails timed => ?_,
    fun n go word => (goes rfl rfl go).trans (congrArg _ (startWait_fail word)),
    fun ⟨hp, hq, found, waits⟩ early unspilled holds => exec_waitMet hp hq found waits early unspilled holds,
    fun ⟨hp, hq, found, waits⟩ early unspilled holds => exec_waitMet hp hq found waits early unspilled holds,
    fun ⟨hp, hq, found, waits⟩ early => (exec_waitTimeout hp hq found waits).trans (congrArg _ (if_pos early)),
    fun ⟨hp, hq, found, waits⟩ now holds => ?_,
    fun ⟨hp, hq, found, waits⟩ past => ?_,
    fun r hp hq oldest ready older => ⟨_, exec_priorityAge hp hq oldest ready older, by simp, by simp [effPrio]⟩,
    fun standby idle => ⟨takeover s, congrArg _ (if_pos standby), schedulers_takeover idle, fun d left => ?_⟩,
    fun alone => congrArg _ (if_neg (Nat.not_le.2 alone))⟩
  · subst hp hq hi
    exact findCmd_completeCmd s c n k
  · obtain ⟨rfl, rfl, rfl⟩ := named_of_findCmd go.2.2.1
    refine ⟨_, copyOf s' c, _, { c with st := .started }, (goes rfl rfl go).trans (congrArg _ (startCopy_goes free)),
      tget_tins .., rfl, rfl, rfl, rfl, rfl, rfl, rfl, rfl, rfl,
      (findCmd_modCmd ?_).trans (congrArg (Option.map _) go.2.2.1), rfl⟩
    exact fun _ => rfl
  · obtain ⟨rfl, -, -⟩ := named_of_findCmd go.2.2.1
    exact startSignal_ok word
  · obtain ⟨rfl, rfl, rfl⟩ := named_of_findCmd go.2.2.1
    have was : findCmd (dropAnswers s' (cmdWho c)) c.part c.queue c.index = some c :=
      (findCmd_dropAnswers ..).trans go.2.2.1
    refine ⟨_, { c with st := .waiting, deadline := s.clock + cmdField c 0x18 8, spilled := decide (waitsHeld s' ≥ 1024) },
      (goes rfl rfl go).trans (congrArg _ (startWait_waits word fails timed)),
      (findCmd_modCmd ?_).trans (congrArg (Option.map _) was), rfl, rfl, decide_eq_true_iff⟩
    exact fun _ => rfl
  · rw [exec_waitTimeout hp hq found waits, if_neg (Nat.not_lt.2 now.ge), if_pos ⟨now, holds⟩]
    rfl
  · have late : ¬ s.clock < c.deadline := by omega
    have fails : ¬ (s.clock = c.deadline ∧ waitHolds s c = some true) := by
      rintro ⟨now, holds⟩
      rcases past with past | ⟨-, fails⟩
      · omega
      · exact fails holds
    rw [exec_waitTimeout hp hq found waits, if_neg late, if_neg fails]
    rfl
  · obtain ⟨was, grounded⟩ := cmds_takeover idle left
    exact ⟨was, inFlight_false grounded⟩

end Sys2Proof.Machine

/-! Queues: enabled, disabled, cleared, and their watched slots taken (R372, R375-R377, R411). -/

namespace Sys2Proof.Machine

open Sys2Proof

/-! The queue's table under the device's reports. -/

theorem queueOf_of_besideReports {s t : State} (h : besideReports t = besideReports s) (part queue : Nat) :
    queueOf t part queue = queueOf s part queue :=
  (congrArg (fun u : State => queueOf u part queue) h :)

@[simp] theorem queueOf_queuePut (s part queue off bs p q) :
    queueOf (queuePut s part queue off bs) p q = queueOf s p q :=
  (queueOf_of_besideReports (besideReports_queuePut s part queue off bs) p q :)

@[simp] theorem queueOf_putQueueState (s part queue st code) :
    queueOf (putQueueState s part queue st code) part queue =
      { queueOf s part queue with st := st, code := code } := by
  unfold putQueueState
  simp

@[simp] theorem queueOf_enableBad (s part queue) : queueOf (enableBad s part queue) part queue =
    { queueOf s part queue with st := 2, code := 0x11, wasActive := false, watch := false, enabling := false } := by
  unfold enableBad
  simp

@[simp] theorem queueOf_enableGood (s part queue bs desc ds) : queueOf (enableGood s part queue bs desc ds) part queue =
    { queueOf s part queue with
        st := 1, code := 0, ring := descNat bs 0 8, len := descNat bs 8 4, prio := descNat bs 0x0C 1,
        ctx := part * 2 ^ 32 + descNat ds 0 4, consumed := descNat bs 0x18 8, wasActive := true, watch := true,
        links := 0, aged := 0, enabling := false } := by
  unfold enableGood
  simp
  exact ⟨rfl, rfl⟩

@[simp] theorem queueOf_faultQueue (s part queue code) : queueOf (faultQueue s part queue code) part queue =
    { queueOf s part queue with st := 2, code := code } :=
  queueOf_putQueueState s part queue 2 code

@[simp] theorem queueOf_slotFault (s part queue code) : queueOf (slotFault s part queue code) part queue =
    { queueOf s part queue with st := 2, code := code, watch := false } := by
  unfold slotFault
  rw [queueOf_of_besideReports ((besideReports_irq ..).trans (besideReports_logEvent ..))]
  simp

/-! A queue's descriptor (R375). -/

/-- A descriptor that keeps the rules. -/
structure SoundQueue (bs : List Byte) : Prop where
  ring : descNat bs 0 8 % 256 = 0
  len : ∃ k, 1 ≤ k ∧ k ≤ 16 ∧ descNat bs 8 4 = 2 ^ k
  prio : descNat bs 0x0C 1 ≤ 7
  zero : descNat bs 0x0D 3 = 0
  rest : descNat bs 0x24 28 = 0
  desc : descNat bs 0x10 8 % 128 = 0

/-- A length is a power of two from 2 to 65,536. -/
theorem ringLength_iff {n : Nat} : (2 ≤ n ∧ n ≤ 65536 ∧ n = 2 ^ n.log2) ↔ ∃ k, 1 ≤ k ∧ k ≤ 16 ∧ n = 2 ^ k := by
  constructor
  · rintro ⟨low, high, power⟩
    refine ⟨n.log2, ?_, ?_, power⟩
    · exact (Nat.le_log2 (by omega)).2 low
    · by_contra more
      have := Nat.pow_le_pow_right (show 0 < 2 by decide) (show 17 ≤ n.log2 by omega)
      omega
  · rintro ⟨k, low, high, rfl⟩
    refine ⟨?_, ?_, by rw [Nat.log2_two_pow]⟩
    · exact Nat.pow_le_pow_right (show 0 < 2 by decide) low
    · exact Nat.pow_le_pow_right (show 0 < 2 by decide) high

theorem queueBad_false_iff {bs : List Byte} : queueBad bs = false ↔ SoundQueue bs := by
  have parts : SoundQueue bs ↔ descNat bs 0 8 % 256 = 0 ∧
      (2 ≤ descNat bs 8 4 ∧ descNat bs 8 4 ≤ 65536 ∧ descNat bs 8 4 = 2 ^ (descNat bs 8 4).log2) ∧
      descNat bs 0x0C 1 ≤ 7 ∧ descNat bs 0x0D 3 = 0 ∧ descNat bs 0x24 28 = 0 ∧ descNat bs 0x10 8 % 128 = 0 := by
    rw [ringLength_iff]
    exact ⟨fun ⟨a, b, c, d, e, f⟩ => ⟨a, b, c, d, e, f⟩, fun ⟨a, b, c, d, e, f⟩ => ⟨a, b, c, d, e, f⟩⟩
  rw [parts]
  unfold queueBad
  simp [and_assoc]
  omega

/-! What the monitor does with an enable, once it has read the queue's descriptor. -/

section Enable

variable {s : State} {part queue pa : Nat}
variable (first : Readable s (deviceWho 3 (queueKey part queue)) pa 64)

include first

theorem enableQueue_good (sound : SoundQueue (peekBytes s pa 64))
    (placed : descPlaced s part (descNat (peekBytes s pa 64) 0x10 8) = true)
    (second : Readable s (deviceWho 3 (32768 + queueKey part queue)) (descNat (peekBytes s pa 64) 0x10 8) 128)
    (ok : descOk s part (peekBytes s (descNat (peekBytes s pa 64) 0x10 8) 128) = true) :
    enableQueue s part queue pa = enableGood s part queue (peekBytes s pa 64) (descNat (peekBytes s pa 64) 0x10 8)
      (peekBytes s (descNat (peekBytes s pa 64) 0x10 8) 128) := by
  unfold enableQueue
  simp [unitBytes_ready first, queueBad_false_iff.2 sound, placed, unitBytes_ready second, ok]

theorem enableQueue_unsound
    (wrong : ¬ SoundQueue (peekBytes s pa 64) ∨ descPlaced s part (descNat (peekBytes s pa 64) 0x10 8) = false) :
    enableQueue s part queue pa = enableBad s part queue := by
  unfold enableQueue
  have bad : (queueBad (peekBytes s pa 64) || !descPlaced s part (descNat (peekBytes s pa 64) 0x10 8)) = true := by
    rcases wrong with unsound | elsewhere
    · rw [Bool.eq_true_of_not_eq_false (mt queueBad_false_iff.1 unsound), Bool.true_or]
    · rw [elsewhere, Bool.not_false, Bool.or_true]
  simp only [unitBytes_ready first]
  exact if_pos bad

theorem enableQueue_badContext
    (second : Readable s (deviceWho 3 (32768 + queueKey part queue)) (descNat (peekBytes s pa 64) 0x10 8) 128)
    (bad : descOk s part (peekBytes s (descNat (peekBytes s pa 64) 0x10 8) 128) = false) :
    enableQueue s part queue pa = enableBad s part queue := by
  unfold enableQueue
  simp [unitBytes_ready first, unitBytes_ready second, bad]

end Enable

/-! The writes of QCTL (R375). -/

/-- An enable looks for the queue's descriptor through the context of the scheduler page. -/
theorem exec_queueEnable {s : State} {part queue : Nat} (hp : part < 8) (hq : queue < 4096)
    (here : queueHere s part queue = true) (safe : insecure s part = false) :
    exec (.queueEnable part queue) s = .next (enableGo s part queue) :=
  (event_runs hp hq ..).trans (congrArg _ (if_pos (by simp [here, safe])))

theorem enableGo_found {s : State} {part queue level : Nat} {leaf : W64}
    (walked : walkDesc s (pageOf s part).ctx0.toNat part ((pageOf s part).qtbase + 64 * queue) = .ok leaf level)
    (readable : leaf.getLsbD 2 = true) :
    enableGo s part queue =
      enableQueue s part queue (leafPa leaf level ((pageOf s part).qtbase + 64 * queue)) := by
  unfold enableGo
  simp only [walked]
  exact if_pos readable

theorem enableGo_busy {s : State} {part queue l : Nat}
    (walked : walkDesc s (pageOf s part).ctx0.toNat part ((pageOf s part).qtbase + 64 * queue) = .busy l) :
    enableGo s part queue = enableLater (wantLine s part l false) part queue := by
  unfold enableGo
  simp only [walked]

theorem exec_queueDisable {s : State} {part queue : Nat} (hp : part < 8) (hq : queue < 4096)
    (here : queueHere s part queue = true) (safe : insecure s part = false) :
    exec (.queueDisable part queue) s = .next (putQueueState
      (modQueue s part queue fun x => { x with watch := false, wasActive := false, enabling := false }) part queue 0 0) :=
  (event_runs hp hq ..).trans (congrArg _ (if_pos (by simp [here, safe])))

theorem exec_queueClearFault {s : State} {part queue : Nat} (hp : part < 8) (hq : queue < 4096)
    (here : queueHere s part queue = true) (safe : insecure s part = false) :
    exec (.queueClearFault part queue) s = .next
      (if (queueOf s part queue).st = 2 ∧ (queueOf s part queue).wasActive = true then
        putQueueState (modQueue s part queue fun x => { x with watch := true }) part queue 1 0 else s) := by
  show execQueueClearFault part queue s = _
  unfold execQueueClearFault
  rw [event_runs hp hq]
  simp [here, safe]

theorem eventIf_idle {ok : Bool} {s : State} {f : State → State} (idle : f s = s) : eventIf ok s f = .next s := by
  cases ok
  · rfl
  · exact congrArg _ idle

/-- No write of QCTL has an effect while the stream is insecure. -/
theorem exec_qctl_insecure {s : State} {part queue : Nat} (bad : insecure s part = true) :
    ∀ i ∈ [Instr.queueEnable part queue, .queueDisable part queue, .queueClearFault part queue], exec i s = .next s := by
  intro i hi
  simp only [List.mem_cons, List.not_mem_nil, or_false] at hi
  rcases hi with rfl | rfl | rfl
  · exact eventIf_idle (if_neg (by simp [bad]))
  · exact eventIf_idle (if_neg (by simp [bad]))
  · exact eventIf_idle (if_neg (by simp [bad]))

/-! The watched slot (R376). -/

/-- The address of the slot that a queue watches. -/
def slotVa (q : Queue) : Nat := q.ring + 256 * (q.consumed % q.len)

section Slot

variable {s : State} {part queue level : Nat} {leaf : W64} (hp : part < 8) (hq : queue < 4096)
variable (watched : (queueOf s part queue).watch = true)

include hp hq

theorem exec_slotAccept_unwatched (unwatched : (queueOf s part queue).watch = false) :
    exec (.slotAccept part queue) s = .next s := by
  show execSlotAccept part queue s = _
  unfold execSlotAccept
  rw [event_runs hp hq]
  simp [unwatched]

include watched

/-- A slot that can be read is taken when its valid byte carries the generation of the ring's pass. -/
theorem exec_slotAccept
    (walked : walk s (queueOf s part queue).ctx (slotVa (queueOf s part queue)) = .ok leaf level)
    (readable : leaf.getLsbD 2 = true)
    (ready : Readable s (deviceWho 3 (queueKey part queue)) (leafPa leaf level (slotVa (queueOf s part queue))) 256) :
    exec (.slotAccept part queue) s = .next
      (if descNat (peekBytes s (leafPa leaf level (slotVa (queueOf s part queue))) 256) 0xFF 1 =
          (queueOf s part queue).consumed / (queueOf s part queue).len % 255 + 1 then
        acceptSlot s part queue (queueOf s part queue)
          (peekBytes s (leafPa leaf level (slotVa (queueOf s part queue))) 256) else s) := by
  show execSlotAccept part queue s = _
  unfold execSlotAccept
  rw [event_runs hp hq]
  simp only [watched, Bool.not_true, Bool.false_eq_true, if_false, ← slotVa.eq_1, walked, readable, unitBytes_ready ready]

theorem exec_slotAccept_bad (walked : walk s (queueOf s part queue).ctx (slotVa (queueOf s part queue)) = .bad) :
    exec (.slotAccept part queue) s = .next (slotFault s part queue 2) := by
  show execSlotAccept part queue s = _
  unfold execSlotAccept
  rw [event_runs hp hq]
  simp only [watched, Bool.not_true, Bool.false_eq_true, if_false, ← slotVa.eq_1, walked]

theorem exec_slotAccept_unreadable
    (walked : walk s (queueOf s part queue).ctx (slotVa (queueOf s part queue)) = .ok leaf level)
    (unreadable : leaf.getLsbD 2 = false) :
    exec (.slotAccept part queue) s = .next (slotFault s part queue 3) := by
  show execSlotAccept part queue s = _
  unfold execSlotAccept
  rw [event_runs hp hq]
  simp only [watched, Bool.not_true, Bool.false_eq_true, if_false, ← slotVa.eq_1, walked, unreadable, Bool.not_false, if_true]

end Slot

/-- The command that a slot becomes. -/
def slotCmd (s : State) (part queue : Nat) (q : Queue) (bs : List Byte) : Cmd :=
  { part := part, queue := queue, index := q.consumed, ctx := q.ctx, bytes := bs,
    code := if q.st = 2 then some 0x13 else if cmdBad s part bs (decide (q.links > 0)) then some 0x11 else none,
    bundle := if q.links > 0 then some q.head else none }

theorem cmds_acceptSlot (s : State) (part queue : Nat) (q : Queue) (bs : List Byte) :
    (acceptSlot s part queue q bs).cmds = s.cmds ++ [slotCmd s part queue q bs] :=
  (cmds_of_besideReports (besideReports_queuePut ..) :)

theorem consumed_acceptSlot (s : State) (part queue : Nat) (q : Queue) (bs : List Byte) :
    (queueOf (acceptSlot s part queue q bs) part queue).consumed = (q.consumed + 1) % 2 ^ 64 := by
  unfold acceptSlot
  simp

/-! The statement. -/

/-- Settles O45, write by write and slot by slot. -/
theorem queuesAreWatched : Obligations.QueuesAreWatched := by
  intro s part queue pa leaf level q known page place who bs f desc ds found alsoRead sound leaves va slot sb
  have sound_iff : sound ↔ SoundQueue bs :=
    ⟨fun ⟨a, b, c, d, e, f⟩ => ⟨a, b, c, d, e, f⟩, fun ⟨a, b, c, d, e, f⟩ => ⟨a, b, c, d, e, f⟩⟩
  have enables (h : found) : exec (.queueEnable part queue) s = .next (enableQueue s part queue pa) := by
    obtain ⟨⟨hp, hq, here, safe⟩, walked, readable, rfl, -⟩ := h
    exact (exec_queueEnable hp hq here safe).trans (congrArg _ (enableGo_found walked readable))
  have ready (h : found) : Readable s who pa 64 := h.2.2.2.2
  refine ⟨fun h snd placed second ok => ?_, fun h wrong => ?_, fun l ⟨hp, hq, here, safe⟩ walked => ?_,
    fun ⟨hp, hq, here, safe⟩ => ⟨_, exec_queueDisable hp hq here safe, by simp [q]⟩,
    fun i hi bad => exec_qctl_insecure bad i hi,
    fun ⟨hp, hq, here, safe⟩ faulted active =>
      ⟨_, (exec_queueClearFault hp hq here safe).trans (congrArg _ (if_pos ⟨faulted, active⟩)), by simp [q]⟩,
    fun ⟨hp, hq, here, safe⟩ other => ?_,
    fun hp hq unwatched => exec_slotAccept_unwatched hp hq unwatched,
    fun hp hq watched walked readable rd pass => ?_,
    fun hp hq watched walked readable rd pass =>
      (exec_slotAccept hp hq watched walked readable rd).trans (congrArg _ (if_neg pass)),
    fun hp hq watched walked => ⟨_, exec_slotAccept_bad hp hq watched walked, queueOf_slotFault ..⟩,
    fun hp hq watched walked unreadable =>
      ⟨_, exec_slotAccept_unreadable hp hq watched walked unreadable, queueOf_slotFault ..⟩⟩
  · exact ⟨_, (enables h).trans (congrArg _ (enableQueue_good (ready h) (sound_iff.1 snd) placed second ok)),
      queueOf_enableGood ..⟩
  · refine ⟨_, (enables h).trans (congrArg _ ?_), queueOf_enableBad ..⟩
    rcases wrong with unsound | elsewhere | ⟨second, bad⟩
    · exact enableQueue_unsound (ready h) (.inl (mt sound_iff.2 unsound))
    · exact enableQueue_unsound (ready h) (.inr elsewhere)
    · exact enableQueue_badContext (ready h) second bad
  · exact (exec_queueEnable hp hq here safe).trans (congrArg _ (enableGo_busy walked))
  · refine (exec_queueClearFault hp hq here safe).trans (congrArg _ (if_neg fun ⟨faulted, active⟩ => ?_))
    rcases other with h | h
    · exact h faulted
    · exact Bool.false_ne_true (h.symm.trans active)
  · exact ⟨_, _, (exec_slotAccept hp hq watched walked readable rd).trans (congrArg _ (if_pos pass)),
      cmds_acceptSlot .., rfl, rfl, rfl, rfl, rfl, rfl, fun faulted => if_pos faulted, consumed_acceptSlot ..⟩

end Sys2Proof.Machine

/-! Requests of another agent at a line's home, in memory that is not canonical (R344, R364). -/

namespace Sys2Proof.Machine

open Sys2Proof

/-- A window in LOAD over the first 64 KiB. -/
def stragglerWindow : WinRegs := { base := 0x100000000, store := 0, scale := 0, ctl := 0x2004 }

/-- That window, and memory that lists byte 200 before byte 3: not its canonical form, which
the statement does not ask for.  A read of byte 3 stops at the entry for 200 and finds zero; the line's bytes, which leave
that entry out, have 5 there. -/
def straggler : State :=
  { State.reset with windows := [(0, stragglerWindow)], mem := [(200, 1), (3, 5)] }

/-- Byte 3 after an uncached write of the line that masks every byte out. -/
def byteAfterEmptyWrite : Byte :=
  match exec (.wru 1 0 0 0) straggler with
  | .next t => memRead t.mem 3
  | _ => 0

/-- Refutes O40: in a state whose memory is not canonical, an uncached write with an empty mask changes what a byte of
the line reads as, from 0 to 5. -/
theorem not_homeServesOtherAgents : ¬ Obligations.HomeServesOtherAgents := by
  unfold Obligations.HomeServesOtherAgents
  intro holds
  obtain ⟨-, -, -, -, -, -, -, -, -, -, -, -, -, -, -, -, -, stored, -⟩ := holds straggler 1 0 0 { line := 0 } 0 0 stragglerWindow
  obtain ⟨t, runs, -, bytes⟩ := stored (by decide) (by decide) (by decide) (by decide) (by decide) (by decide)
  have kept : memRead t.mem 3 = 0 := bytes 3 (by decide)
  have changed : byteAfterEmptyWrite = 5 := by decide +kernel
  unfold byteAfterEmptyWrite at changed
  rw [runs] at changed
  exact absurd (kept.symm.trans changed) (by decide)

end Sys2Proof.Machine

/-! Answers to a home's snoops (R356, R366, R369). -/

namespace Sys2Proof.Machine

open Sys2Proof

/-! An agent's message. -/

theorem fromAgent_heard {agent : Nat} {i : Instr} {s : State} (wf : i.wf = true) (hears : heard s agent = true)
    (f : State → State) : fromAgent agent i s f = .next (f s) :=
  (if_pos wf).trans (congrArg _ (if_pos hears))

theorem fromAgent_deaf {agent : Nat} {s : State} (deaf : heard s agent = false) (i : Instr) (f : State → State) :
    fromAgent agent i s f = .next s :=
  eventIf_still (if_neg (Bool.eq_false_iff.1 deaf))

theorem fromAgent_still {agent : Nat} {i : Instr} {s : State} {f : State → State} (same : f s = s) :
    fromAgent agent i s f = .next s :=
  eventIf_still ((congrArg (fun t => if heard s agent then t else s) same).trans (ite_self s))

/-! Ways and entries of a slice under its own updates. -/

@[simp] theorem sliceOf_send (s : State) (m : Msg) (h : Nat) : sliceOf (send s m) h = sliceOf s h := rfl

@[simp] theorem sliceOf_dataMsg (s : State) (a : Nat) (k : MKind) (line : Nat) (d : Line) (h : Nat) :
    sliceOf (dataMsg s a k line d) h = sliceOf s h := rfl

@[simp] theorem ways_setWay (s : State) (h k : Nat) (w : Way) :
    (sliceOf (setWay s h k w) h).ways = tins (sliceOf s h).ways k (stamped s w) :=
  congrArg Slice.ways (sliceOf_modSlice ..)

@[simp] theorem input_setWay (s : State) (h k : Nat) (w : Way) :
    (sliceOf (setWay s h k w) h).input = (sliceOf s h).input :=
  (congrArg Slice.input (sliceOf_modSlice ..) :)

@[simp] theorem inputLines_setWay (s : State) (h k : Nat) (w : Way) :
    (sliceOf (setWay s h k w) h).inputLines = (sliceOf s h).inputLines :=
  (congrArg Slice.inputLines (sliceOf_modSlice ..) :)

theorem line_of_entryOf {sl : Slice} {line : Nat} {e : TEntry} (found : entryOf sl line = some e) : e.line = line :=
  eq_of_beq (List.find?_some (p := fun e : TEntry => e.line == line) found)

theorem line_of_findWay {sl : Slice} {line k : Nat} {w : Way} (found : findWay sl line = some (k, w)) : w.line = line :=
  eq_of_beq (List.find?_some (p := fun p : Nat × Way => p.2.line == line) found)

/-- What is found stays the first one when it is replaced in its place. -/
theorem find?_replace {α : Type} {p : α → Bool} {f : α → α} {l : List α} {a : α} (found : l.find? p = some a)
    (keeps : p (f a) = true) : (l.map fun x => if p x then f x else x).find? p = some (f a) := by
  induction l with
  | nil => exact absurd found (by simp)
  | cons b l ih =>
    rw [List.map_cons]
    cases hb : p b with
    | true =>
      rw [List.find?_cons_of_pos hb] at found
      obtain rfl := Option.some.inj found
      rw [if_pos rfl, List.find?_cons_of_pos keeps]
    | false =>
      rw [List.find?_cons_of_neg (by simp [hb])] at found
      rw [if_neg (by simp), List.find?_cons_of_neg (by simp [hb])]
      exact ih found

theorem entryOf_modEntry {s : State} {h line : Nat} {e : TEntry} {f : TEntry → TEntry}
    (found : entryOf (sliceOf s h) line = some e) (keeps : (f e).line = line) :
    entryOf (sliceOf (modEntry s h line f) h) line = some (f e) := by
  unfold modEntry
  rw [sliceOf_modSlice]
  exact find?_replace (p := fun e : TEntry => e.line == line) found (beq_iff_eq.2 keeps)

/-! The end of an entry (R356). -/

/-- The entry is gone, and what waited on it is the first at the slice's input. -/
def entryOver (s : State) (h line : Nat) (e : TEntry) : State :=
  modSlice (dropEntry s h line) h fun sl =>
    { sl with input := e.queue ++ sl.input, inputLines := e.queue.map (fun _ => line) ++ sl.inputLines }

theorem finishWith_found {s : State} {h line : Nat} {e : TEntry} (found : entryOf (sliceOf s h) line = some e)
    (f : State → State) : finishWith s h line f = f (entryOver s h line e) := by
  unfold finishWith
  rw [found]
  rfl

theorem sliceOf_entryOver (s : State) (h line : Nat) (e : TEntry) : sliceOf (entryOver s h line e) h =
    { sliceOf s h with entries := (sliceOf s h).entries.filter (·.line != line), input := e.queue ++ (sliceOf s h).input,
                       inputLines := e.queue.map (fun _ => line) ++ (sliceOf s h).inputLines } := by
  unfold entryOver dropEntry
  simp

theorem findWay_entryOver {s : State} {h line k : Nat} {w : Way} {e : TEntry}
    (found : findWay (sliceOf s h) line = some (k, w)) : findWay (sliceOf (entryOver s h line e) h) line = some (k, w) := by
  rw [sliceOf_entryOver]
  exact found

theorem homeWay_found {s : State} {h line k : Nat} {w : Way} (found : findWay (sliceOf s h) line = some (k, w)) :
    homeWay s h line = (s, k, w) := by
  unfold homeWay
  simp [found]

/-! The glaze of a way (R355). -/

theorem glazeState_glazeMk {st : Nat} (small : st < 8) (owner sharers : Nat) (poison : Bool) :
    glazeState (glazeMk st owner sharers poison) = st := by
  unfold glazeState glazeMk
  rw [BitVec.toNat_ofNat]
  cases poison
  · simp only [Bool.false_eq_true, if_false]
    omega
  · simp only [if_true]
    omega

theorem glazeOwner_glazeMk {st : Nat} (small : st < 8) (owner sharers : Nat) (poison : Bool) :
    glazeOwner (glazeMk st owner sharers poison) = owner % 64 := by
  unfold glazeOwner glazeMk
  rw [BitVec.toNat_ofNat]
  cases poison
  · simp only [Bool.false_eq_true, if_false]
    omega
  · simp only [if_true]
    omega

/-- The POISON bit lies above the state and the owner. -/
theorem glazeLow_setBit (g : W32) (b : Bool) : (setBit g 25 b).toNat % 512 = g.toNat % 512 := by
  have low : (setBit g 25 b).setWidth 9 = g.setWidth 9 := by
    unfold setBit
    cases b
    · simp only [Bool.false_eq_true, if_false]
      rw [BitVec.setWidth_and]
      show g.setWidth 9 &&& BitVec.allOnes 9 = _
      exact BitVec.and_allOnes
    · simp only [if_true]
      rw [BitVec.setWidth_or]
      show g.setWidth 9 ||| 0#9 = _
      exact BitVec.or_zero
  have := congrArg BitVec.toNat low
  rwa [BitVec.toNat_setWidth, BitVec.toNat_setWidth] at this

@[simp] theorem glazeState_setBit (g : W32) (b : Bool) : glazeState (setBit g 25 b) = glazeState g := by
  have := glazeLow_setBit g b
  unfold glazeState
  omega

@[simp] theorem glazeOwner_setBit (g : W32) (b : Bool) : glazeOwner (setBit g 25 b) = glazeOwner g := by
  have := glazeLow_setBit g b
  unfold glazeOwner
  omega

@[simp] theorem glazeState_stamped (s : State) (w : Way) : glazeState (stamped s w).glaze = glazeState w.glaze := by
  unfold stamped
  dsimp only
  split
  · rfl
  · exact glazeState_setBit ..

@[simp] theorem glazeOwner_stamped (s : State) (w : Way) : glazeOwner (stamped s w).glaze = glazeOwner w.glaze := by
  unfold stamped
  dsimp only
  split
  · rfl
  · exact glazeOwner_setBit ..

/-- The stamp leaves all of a way but its glaze. -/
theorem stamped_but_glaze (s : State) (w : Way) :
    { stamped s w with glaze := w.glaze, glazeDirty := w.glazeDirty } = w := by
  unfold stamped
  dsimp only
  split <;> rfl

@[simp] theorem data_stamped (s : State) (w : Way) : (stamped s w).data = w.data :=
  (congrArg Way.data (stamped_but_glaze s w) :)

@[simp] theorem dirty_stamped (s : State) (w : Way) : (stamped s w).dirty = w.dirty :=
  (congrArg Way.dirty (stamped_but_glaze s w) :)

@[simp] theorem held_stamped (s : State) (w : Way) : (stamped s w).held = w.held :=
  (congrArg Way.held (stamped_but_glaze s w) :)

@[simp] theorem line_stamped (s : State) (w : Way) : (stamped s w).line = w.line :=
  (congrArg Way.line (stamped_but_glaze s w) :)

/-! Targets of FX (R356). -/

/-- The entry once a target has answered. -/
def answered (e : TEntry) (o : Nat) (ts : List Nat) (merged : Bool) (data : Option Line) : TEntry :=
  { e with phase := .fx o ts (merged || data.isSome), data := if data.isSome then data else e.data }

section Fx

variable {s : State} {h a line o : Nat} {ts : List Nat} {merged : Bool} {e : TEntry}
variable (found : entryOf (sliceOf s h) line = some e) (phase : e.phase = .fx o ts merged)

include found phase

theorem heldNone_fx : heldNone s h a line = targetDone s h a line none := by
  unfold heldNone
  simp only [found, phase]

theorem targetDone_more (target : a ∈ ts) (more : ts.filter (· ≠ a) ≠ []) (data : Option Line) :
    targetDone s h a line data = modEntry s h line fun _ => answered e o (ts.filter (· ≠ a)) merged data := by
  have others : (fun b : Nat => b != a) = fun b => decide (b ≠ a) := funext fun b => Bool.eq_iff_iff.2 (by simp)
  unfold targetDone
  simp only [found, phase, List.contains_iff_mem.2 target, others, List.isEmpty_eq_false_iff.2 more]
  rfl

theorem targetDone_last (only : ts = [a]) (data : Option Line) :
    targetDone s h a line data = endFx (modEntry s h line fun _ => answered e o [] merged data) h line
      (answered e o [] merged data) o (merged || data.isSome) := by
  unfold targetDone
  simp [found, phase, only, answered]

end Fx

/-- FX is over with an owner's data: it goes on to the request. -/
theorem endFx_data {s : State} {h line k owner : Nat} {w : Way} {e e' : TEntry} {d : Line}
    (entry : entryOf (sliceOf s h) line = some e') (way : findWay (sliceOf s h) line = some (k, w))
    (data : e.data = some d) (sound : owner ≠ 64) :
    endFx s h line e owner true = grant (entryOver s h line e') h k (withData w d 0xF) e.cur := by
  unfold endFx
  rw [finishWith_found entry]
  simp only [homeWay_found (findWay_entryOver way), data]
  exact if_neg sound

/-- The last target returns the owner's data: the writer that asked gets the line alone. -/
theorem targetDone_grant {s : State} {h a b line k o : Nat} {merged : Bool} {e : TEntry} {w : Way}
    (found : entryOf (sliceOf s h) line = some e) (phase : e.phase = .fx o [a] merged) (asked : e.cur = .rdx b)
    (sound : o ≠ 64) (way : findWay (sliceOf s h) line = some (k, w)) (data : Line) :
    targetDone s h a line (some data) =
      setWay (dataMsg (entryOver (modEntry s h line fun _ => answered e o [] merged (some data)) h line
        (answered e o [] merged (some data))) b .datam line data) h k (withGlaze (dropCopy (withData w data 0xF)) 4 b 0) := by
  have kept : findWay (sliceOf (modEntry s h line fun _ => answered e o [] merged (some data)) h) line = some (k, w) := by
    unfold modEntry
    rw [sliceOf_modSlice]
    exact way
  rw [targetDone_last found phase rfl, Option.isSome_some, Bool.or_true,
    endFx_data (e' := answered e o [] merged (some data)) (entryOf_modEntry found (line_of_entryOf (line := line) found :)) kept
      (d := data) rfl sound]
  show grant _ h k (withData w data 0xF) e.cur = _
  rw [asked]
  show setWay (dataMsg _ b .datam w.line data) h k _ = _
  rw [line_of_findWay way]

/-! An owner that keeps a copy (R356). -/

/-- The way as an owner's clean answer leaves it, for a reader. -/
def sharedWay (s : State) (line : Nat) (w : Way) (data : Line) (o b : Nat) : Way :=
  withGlaze { withData w data 0 with poison := (dramLine s line).2 } 1 0 (addSharer (addSharer 0 o) b)

/-- The way as an owner's dirty answer leaves it, for a reader. -/
def ownedWay (w : Way) (data : Line) (o b : Nat) : Way :=
  withGlaze (withData w data 0xF) 3 o (addSharer (glazeSharers w.glaze) b)

section Fs

variable {s : State} {h a b line k : Nat} {e : TEntry} {w : Way}
variable (found : entryOf (sliceOf s h) line = some e) (phase : e.phase = .fs a false) (reader : e.cur = .rds b)
variable (way : findWay (sliceOf s h) line = some (k, w))

include found phase reader way

theorem ownerKept_clean (data : Line) : ownerKept s h a line data false =
    setWay (dataMsg (entryOver s h line e) b .datas line data) h k (sharedWay (entryOver s h line e) line w data a b) := by
  unfold ownerKept
  simp only [found, phase, ne_eq, not_true_eq_false, if_false, finishWith_found found,
    homeWay_found (findWay_entryOver way), reader, Bool.false_eq_true]
  rfl

theorem ownerKept_dirty (data : Line) : ownerKept s h a line data true =
    setWay (dataMsg (entryOver s h line e) b .datas line data) h k (ownedWay w data a b) := by
  unfold ownerKept
  simp only [found, phase, ne_eq, not_true_eq_false, if_false, finishWith_found found,
    homeWay_found (findWay_entryOver way), reader, if_true]
  rfl

end Fs

/-! What the answers are to the machine. -/

section Answers

variable {s : State} {a : Nat} (ha : a < 63) (hears : heard s a = true) (line : Nat)

include ha hears

theorem exec_rspi : exec (.rspi a line) s = .next (heldNone s (holderOf s line) a line) :=
  fromAgent_heard (i := .rspi a line) (decide_eq_true ha) hears fun s => heldNone s (holderOf s line) a line

theorem exec_rsps (data : Line) :
    exec (.rsps a line data) s = .next (ownerKept s (holderOf s line) a line data false) :=
  fromAgent_heard (i := .rsps a line data) (decide_eq_true ha) hears
    fun s => ownerKept s (holderOf s line) a line data false

theorem exec_rspod (data : Line) :
    exec (.rspod a line data) s = .next (ownerKept s (holderOf s line) a line data true) :=
  fromAgent_heard (i := .rspod a line data) (decide_eq_true ha) hears
    fun s => ownerKept s (holderOf s line) a line data true

theorem exec_rspid (data : Line) :
    exec (.rspid a line data) s = .next (targetDone s (holderOf s line) a line (some data)) :=
  fromAgent_heard (i := .rspid a line data) (decide_eq_true ha) hears
    fun s => targetDone s (holderOf s line) a line (some data)

end Answers

/-! The statement. -/

/-- With no entry for the line, an answer has no effect. -/
theorem answers_still {s : State} {a line : Nat} (ended : entryOf (sliceOf s (holderOf s line)) line = none) (data : Line) :
    ∀ i ∈ [Instr.rspi a line, .rsps a line data, .rspod a line data, .rspid a line data], exec i s = .next s := by
  have silent (data : Option Line) : targetDone s (holderOf s line) a line data = s := by
    unfold targetDone
    rw [ended]
  have kept (dirty : Bool) : ownerKept s (holderOf s line) a line data dirty = s := by
    unfold ownerKept
    rw [ended]
  have noCopy : heldNone s (holderOf s line) a line = s := by
    unfold heldNone
    rw [ended]
  intro i hi
  simp only [List.mem_cons, List.not_mem_nil, or_false] at hi
  rcases hi with rfl | rfl | rfl | rfl
  · exact fromAgent_still (f := fun s => heldNone s (holderOf s line) a line) noCopy
  · exact fromAgent_still (f := fun s => ownerKept s (holderOf s line) a line data false) (kept false)
  · exact fromAgent_still (f := fun s => ownerKept s (holderOf s line) a line data true) (kept true)
  · exact fromAgent_still (f := fun s => targetDone s (holderOf s line) a line (some data)) (silent (some data))

/-- Settles O42, answer by answer. -/
theorem homeTakesSnoopAnswers : Obligations.HomeTakesSnoopAnswers := by
  intro s a b line k o' e w data ts merged h sl open' onward
  have input {u : State} {e' : TEntry} {m : Msg} {v : Way} (same : (sliceOf u h).input = sl.input)
      (lines : (sliceOf u h).inputLines = sl.inputLines) (queue : e'.queue = e.queue) :
      onward (setWay (send (entryOver u h line e') m) h k v) := by
    refine ⟨?_, ?_⟩
    · rw [input_setWay, sliceOf_send, sliceOf_entryOver, queue, same]
    · rw [inputLines_setWay, sliceOf_send, sliceOf_entryOver, queue, lines]
  refine ⟨fun o phase target more => ?_, fun o phase target more => ?_, fun o phase asked sound way _ => ?_,
    fun o phase reader way _ => ⟨?_, ?_⟩, fun ha ended i hi => answers_still ended data i hi⟩
  · refine ⟨_, answered e o' (ts.filter (· ≠ a)) merged none, (exec_rspi o.1 o.2.1 line).trans
      (congrArg _ ((heldNone_fx o.2.2 phase).trans (targetDone_more o.2.2 phase target more none))),
      entryOf_modEntry o.2.2 (line_of_entryOf o.2.2 :), ?_, rfl, rfl⟩
    simp [answered]
  · refine ⟨_, answered e o' (ts.filter (· ≠ a)) merged (some data), (exec_rspid o.1 o.2.1 line data).trans
      (congrArg _ (targetDone_more o.2.2 phase target more (some data))),
      entryOf_modEntry o.2.2 (line_of_entryOf o.2.2 :), ?_, rfl, rfl⟩
    simp [answered]
  · have done := (exec_rspid o.1 o.2.1 line data).trans (congrArg _ (targetDone_grant o.2.2 phase asked sound way data))
    refine ⟨_, done, input ?_ ?_ rfl, rfl, _, (congrArg (tget · k) (ways_setWay ..)).trans (tget_tins ..), ?_, ?_⟩
    · exact (congrArg Slice.input (sliceOf_modSlice s h _) :)
    · exact (congrArg Slice.inputLines (sliceOf_modSlice s h _) :)
    · exact (glazeState_stamped ..).trans (glazeState_glazeMk (by decide) ..)
    · exact (glazeOwner_stamped ..).trans (glazeOwner_glazeMk (by decide) ..)
  · have done := (exec_rsps o.1 o.2.1 line data).trans (congrArg _ (ownerKept_clean o.2.2 phase reader way data))
    refine ⟨_, done, input rfl rfl rfl, rfl, _, (congrArg (tget · k) (ways_setWay ..)).trans (tget_tins ..), ?_, ?_, ?_⟩
    · exact data_stamped ..
    · exact dirty_stamped ..
    · exact (glazeState_stamped ..).trans (glazeState_glazeMk (by decide) ..)
  · have done := (exec_rspod o.1 o.2.1 line data).trans (congrArg _ (ownerKept_dirty o.2.2 phase reader way data))
    refine ⟨_, done, input rfl rfl rfl, rfl, _, (congrArg (tget · k) (ways_setWay ..)).trans (tget_tins ..), ?_, ?_, ?_, ?_⟩
    · exact data_stamped ..
    · exact dirty_stamped ..
    · exact (glazeState_stamped ..).trans (glazeState_glazeMk (by decide) ..)
    · exact (glazeOwner_stamped ..).trans (glazeOwner_glazeMk (by decide) ..)

end Sys2Proof.Machine

/-! A slice that caches remote lines (R357, R358, R368, R407, R411). -/

namespace Sys2Proof.Machine

open Sys2Proof

/-! A line's way among the ways of its slice. -/

/-- The way that is found for the line is the one at its key. -/
structure HoldsAt (sl : Slice) (line k : Nat) (w : Way) : Prop where
  found : findWay sl line = some (k, w)
  atKey : tget sl.ways k = some w

/-- Nothing of the line stands in the slice. -/
def Lacks (sl : Slice) (line : Nat) : Prop := ∀ p ∈ sl.ways, p.2.line ≠ line

theorem findWay_of_lacks {sl : Slice} {line : Nat} (lacks : Lacks sl line) : findWay sl line = none :=
  List.find?_eq_none.2 fun p hp => by simpa using lacks p hp

theorem find?_tins_new {ws : Tab Way} {line k : Nat} {w : Way} (lacks : ∀ p ∈ ws, p.2.line ≠ line) (is : w.line = line) :
    (tins ws k w).find? (fun p => p.2.line == line) = some (k, w) := by
  induction ws with
  | nil => simp [tins, is]
  | cons p ws ih =>
    obtain ⟨j, v⟩ := p
    obtain ⟨other, rest⟩ := List.forall_mem_cons.1 lacks
    unfold tins
    split
    · simp [is]
    · split
      · simp [is]
      · rw [List.find?_cons_of_neg (by simpa using other)]
        exact ih rest

theorem find?_tins_same {ws : Tab Way} {line k : Nat} {v w : Way}
    (found : ws.find? (fun p => p.2.line == line) = some (k, v)) (atKey : tget ws k = some v) (is : w.line = line) :
    (tins ws k w).find? (fun p => p.2.line == line) = some (k, w) := by
  induction ws with
  | nil => exact absurd found (by simp)
  | cons p ws ih =>
    obtain ⟨j, u⟩ := p
    unfold tins
    split
    · simp [is]
    · split
      · simp [is]
      next before other =>
        rw [tget_cons, if_neg other, if_neg before] at atKey
        by_cases here : u.line = line
        · rw [List.find?_cons_of_pos (by simpa using here)] at found
          exact absurd (congrArg Prod.fst (Option.some.inj found)) other
        · rw [List.find?_cons_of_neg (by simpa using here)] at found ⊢
          exact ih found atKey

theorem holdsAt_of_ways {sl sl' : Slice} {line k : Nat} {w : Way} (same : sl'.ways = sl.ways) (holds : HoldsAt sl line k w) :
    HoldsAt sl' line k w := by
  refine ⟨?_, ?_⟩
  · unfold findWay
    rw [same]
    exact holds.found
  · rw [same]
    exact holds.atKey

theorem holdsAt_setWay {s : State} {h line k : Nat} {v w : Way} (holds : HoldsAt (sliceOf s h) line k v)
    (is : w.line = line) : HoldsAt (sliceOf (setWay s h k w) h) line k (stamped s w) := by
  refine ⟨?_, ?_⟩
  · unfold findWay
    rw [ways_setWay]
    exact find?_tins_same holds.found holds.atKey ((line_stamped ..).trans is)
  · rw [ways_setWay]
    exact tget_tins ..

/-! A way comes in (R348). -/

theorem slices_noteGlaze (s : State) (line : Nat) : (noteGlaze s line).slices = s.slices := by
  unfold noteGlaze
  split <;> rfl

theorem slices_dramStore (s : State) (line : Nat) (d : Line) (m p : BitVec 4) :
    (dramStore s line d m p).slices = s.slices := by
  unfold dramStore
  split
  · rfl
  · dsimp only
    split
    · split
      · rw [slices_noteGlaze, slices_noteGlaze]
      · rw [slices_noteGlaze]
    · rw [slices_noteGlaze]

theorem sliceOf_of_slices {s t : State} (same : t.slices = s.slices) (h : Nat) : sliceOf t h = sliceOf s h :=
  congrArg (fun x : Tab Slice => tgetD x h {}) same

theorem slices_evict_own (s : State) (h k : Nat) {w : Way} (own : w.held = none) :
    (evict s h k w).slices = (modSlice s h fun sl => { sl with ways := tdel sl.ways k }).slices := by
  unfold evict
  rw [own]
  dsimp only
  split <;> split <;> exact slices_dramStore ..

theorem ways_evict (s : State) (h k : Nat) (w : Way) : (sliceOf (evict s h k w) h).ways = tdel (sliceOf s h).ways k := by
  have gone : (sliceOf (modSlice s h fun sl => { sl with ways := tdel sl.ways k }) h).ways = tdel (sliceOf s h).ways k :=
    (congrArg Slice.ways (sliceOf_modSlice ..) :)
  cases own : w.held with
  | none => exact (congrArg Slice.ways (sliceOf_of_slices (slices_evict_own s h k own) h)).trans gone
  | some x =>
    unfold evict
    rw [own]
    cases x with
    | s => exact gone
    | _ => exact (congrArg Slice.ways (sliceOf_modSlice ..) :).trans gone

/-- Over its own old copy a line comes in at the same key. -/
theorem holdsAt_fillWay_same {s : State} {h k : Nat} {v w : Way} (holds : HoldsAt (sliceOf s h) w.line k v) :
    HoldsAt (sliceOf (fillWay s h w) h) w.line k (stamped s w) := by
  have same : fillWay s h w = setWay s h k w := by
    unfold fillWay
    simp only [holds.found, holds.atKey, line_of_findWay holds.found, if_true]
    rfl
  rw [same]
  exact holdsAt_setWay holds rfl

/-- Into a slice without the line it comes at some key, whatever goes for it. -/
theorem holdsAt_fillWay_new {s : State} {h : Nat} {w : Way} (lacks : Lacks (sliceOf s h) w.line) :
    ∃ k u, HoldsAt (sliceOf (fillWay s h w) h) w.line k (stamped u w) := by
  have into (t : State) (k : Nat) (still : Lacks (sliceOf t h) w.line) :
      HoldsAt (sliceOf (setWay t h k w) h) w.line k (stamped t w) := by
    refine ⟨?_, ?_⟩
    · unfold findWay
      rw [ways_setWay]
      exact find?_tins_new still (line_stamped ..)
    · rw [ways_setWay]
      exact tget_tins ..
  cases old : tget (sliceOf s h).ways (chooseWay (sliceOf s h) w.line) with
  | none =>
    have key : fillWay s h w = setWay s h (chooseWay (sliceOf s h) w.line) w := by
      unfold fillWay
      simp only [findWay_of_lacks lacks, old]
      rfl
    exact ⟨_, _, key ▸ into _ _ lacks⟩
  | some v =>
    have key : fillWay s h w = setWay (evict s h (chooseWay (sliceOf s h) w.line) v) h (chooseWay (sliceOf s h) w.line) w := by
      unfold fillWay
      simp only [findWay_of_lacks lacks, old, if_neg (lacks _ (mem_of_tget old))]
      rfl
    refine ⟨_, _, key ▸ into _ _ fun p hp => ?_⟩
    rw [ways_evict] at hp
    exact lacks p (mem_tdel hp)

/-! Requests performed on a way (R345, R347). -/

theorem slices_completeOp (s : State) (c id : Nat) : (completeOp s c id).slices = s.slices := by
  unfold completeOp
  split <;> rfl

theorem slices_performed (s : State) (r : Req) : (performed s r).slices = s.slices := by
  unfold performed
  split
  · rfl
  · dsimp only
    split
    · exact slices_completeOp ..
    · rfl

theorem sliceOf_modSlice_ne (s : State) {g h : Nat} (f : Slice → Slice) (other : g ≠ h) :
    sliceOf (modSlice s h f) g = sliceOf s g :=
  congrArg (·.getD {}) (tget_tins_ne s.slices _ other)

theorem ways_answerUnit (s : State) (r : Req) (d : Option Line) (h : Nat) :
    (sliceOf (answerUnit s r d) h).ways = (sliceOf s h).ways := by
  unfold answerUnit
  split
  · rfl
  · by_cases here : h = r.home
    · rw [here, sliceOf_modSlice]
    · rw [sliceOf_modSlice_ne _ _ here]

section Performed

variable {s : State} {h line k : Nat} {v w : Way} {q : Req} (holds : HoldsAt (sliceOf s h) line k v) (is : w.line = line)

include holds is

/-- A probe leaves the way as it is. -/
theorem holdsAt_probe (act : q.act = .probe) : HoldsAt (sliceOf (performOn s h k w q) h) line k (stamped s w) := by
  unfold performOn
  rw [act]
  exact holdsAt_of_ways (congrArg Slice.ways (sliceOf_of_slices (slices_performed ..) h)) (holdsAt_setWay holds is)

/-- The way with a write's bytes. -/
def written (s : State) (w : Way) (q : Req) (d : Line) (m : LineMask) (p : BitVec 4) : Way :=
  { wayWrite s w d m p with first := (wayWrite s w d m p).first || markFirst q }

theorem holdsAt_write {d : Line} {m : LineMask} {p : BitVec 4} (act : q.act = .write d m p) (prov : q.prov = none)
    (race : q.race = none) :
    HoldsAt (sliceOf (performOn s h k w q) h) line k (stamped s (written s w q d m p)) := by
  have base : HoldsAt (sliceOf (performed (setWay s h k (written s w q d m p)) q) h) line k
      (stamped s (written s w q d m p)) :=
    holdsAt_of_ways (congrArg Slice.ways (sliceOf_of_slices (slices_performed ..) h)) (holdsAt_setWay holds is)
  have still : raceDo s q (sectorsTouched m) 1 = s := by
    unfold raceDo
    rw [race]
  unfold performOn
  simp only [act, prov, still]
  split
  · exact base
  · exact holdsAt_of_ways (ways_answerUnit ..) base

end Performed

/-- Outside every window the bytes are stored as they are. -/
theorem data_written {s : State} {w : Way} (unseen : windowAt s (128 * w.line) = none) (q : Req) (d : Line) (m : LineMask)
    (p : BitVec 4) : (written s w q d m p).data = mergeLine w.data d m := by
  show mergeLine w.data (roundPacked s w.line d) m = _
  unfold roundPacked
  rw [unseen]

theorem windowAt_of_besideHomes {s t : State} (h : besideHomes t = besideHomes s) (pa : Nat) :
    windowAt t pa = windowAt s pa :=
  (congrArg (fun u : State => windowAt u pa) h :)

/-! A message finds the entry that waits for it (R368). -/

section Waiting

variable {s : State} {line : Nat} {e : TEntry} {q : Req} (remote : isRemote line = true)
variable (entry : entryOf (sliceOf s (holderOf s line)) line = some e)

include remote entry

theorem waitsFor_found {p : Phase → Bool} (phase : p e.phase = true) : waitsFor s line p = some (holderOf s line, e) := by
  unfold waitsFor cacherOf
  simp [remote, entry, phase]

variable (own : e.cur = .own q)

include own

omit remote in
theorem endSent_found (f : State → Req → State) :
    endSent s (holderOf s line) line e f = f (entryOver s (holderOf s line) line e) q := by
  unfold endSent
  rw [finishWith_found entry, own]

/-- The slice as it takes a grant. -/
def taken (s : State) (line : Nat) (e : TEntry) (d : Line) (x : Held) : State :=
  fillWay (entryOver s (holderOf s line) line e) (holderOf s line) { line := line, data := d, valid := 0xF, held := some x }

/-- A grant is taken, and the request that waited is performed. -/
theorem granted_data {p : Phase → Bool} (phase : p e.phase = true) {d : Line} {x : Held} {k : Nat} {w : Way} {data : Option Line}
    (source : data = some d ∨ (data = none ∧ ∃ j v, findWay (sliceOf s (holderOf s line)) line = some (j, v) ∧ v.data = d))
    (way : findWay (sliceOf (taken s line e d x) (holderOf s line)) line = some (k, w)) :
    granted s line p x data = performOn (taken s line e d x) (holderOf s line) k w q := by
  unfold taken at way ⊢
  unfold granted
  rw [waitsFor_found remote entry phase]
  rcases source with rfl | ⟨rfl, j, v, old, rfl⟩
  · simp only [finishWith_found entry, way, own]
  · simp only [old, Option.map_some, finishWith_found entry, way, own]

end Waiting

/-- A grant's line comes into the slice, in its place or a new one. -/
theorem taken_holds {s : State} {line : Nat} {x : Held} (e : TEntry) (d : Line)
    (place : Lacks (sliceOf s (holderOf s line)) line ∨ ∃ j u, HoldsAt (sliceOf s (holderOf s line)) line j u) :
    ∃ k v, HoldsAt (sliceOf (taken s line e d x) (holderOf s line)) line k v ∧ v.data = d ∧ v.held = some x := by
  have ways : (sliceOf (entryOver s (holderOf s line) line e) (holderOf s line)).ways = (sliceOf s (holderOf s line)).ways :=
    (congrArg Slice.ways (sliceOf_entryOver ..) :)
  rcases place with lacks | ⟨j, u, holds⟩
  · have still : Lacks (sliceOf (entryOver s (holderOf s line) line e) (holderOf s line)) line := by
      unfold Lacks
      rw [ways]
      exact lacks
    obtain ⟨k, u, came⟩ := holdsAt_fillWay_new (w := { line := line, data := d, valid := 0xF, held := some x }) still
    exact ⟨k, _, came, data_stamped .., held_stamped ..⟩
  · exact ⟨j, _, holdsAt_fillWay_same (w := { line := line, data := d, valid := 0xF, held := some x })
      (holdsAt_of_ways ways holds), data_stamped .., held_stamped ..⟩

@[simp] theorem besideHomes_taken (s : State) (line : Nat) (e : TEntry) (d : Line) (x : Held) :
    besideHomes (taken s line e d x) = besideHomes s :=
  besideHomes_fillWay ..

/-! Snoops (R357, R410). -/

/-- A gate of the slice that is snooped ends (R359). -/
def roused (s : State) (h : Nat) : State := if (sliceOf s h).gating then stir s h else s

theorem roused_cases (s : State) (h : Nat) :
    roused s h = s ∨ roused s h = modSlice s h fun sl => { sl with gating := false, gated := false } := by
  unfold roused stir
  split
  · split
    · exact .inr rfl
    · exact .inl rfl
  · exact .inl rfl

@[simp] theorem ways_roused (s : State) (h : Nat) : (sliceOf (roused s h) h).ways = (sliceOf s h).ways := by
  rcases roused_cases s h with same | same <;> rw [same]
  rw [sliceOf_modSlice]

@[simp] theorem entries_roused (s : State) (h : Nat) : (sliceOf (roused s h) h).entries = (sliceOf s h).entries := by
  rcases roused_cases s h with same | same <;> rw [same]
  rw [sliceOf_modSlice]

@[simp] theorem outbox_roused (s : State) (h : Nat) : (roused s h).outbox = s.outbox := by
  rcases roused_cases s h with same | same <;> rw [same]
  rfl

theorem findWay_roused (s : State) (h line : Nat) : findWay (sliceOf (roused s h) h) line = findWay (sliceOf s h) line :=
  congrArg (fun ws : Tab Way => ws.find? fun p : Nat × Way => p.2.line == line) (ways_roused s h)

theorem entryOf_roused (s : State) (h line : Nat) : entryOf (sliceOf (roused s h) h) line = entryOf (sliceOf s h) line :=
  congrArg (fun es : List TEntry => es.find? fun e : TEntry => e.line == line) (entries_roused s h)

section Snoop

variable {s : State} {line k : Nat} {w : Way} (remote : isRemote line = true)
variable (free : entryOf (sliceOf s (holderOf s line)) line = none)

include remote free

theorem snoop_lacking (none : findWay (sliceOf s (holderOf s line)) line = none) (inv : Bool) :
    snoop s line inv = sendHome (roused s (holderOf s line)) .rspi line := by
  unfold snoop cacherOf
  simp only [remote, Bool.not_true, Bool.false_eq_true, if_false, ← roused.eq_1, entryOf_roused, free, findWay_roused, none]
  rfl

/-- What a slice without an entry for the line says of the copy that it holds. -/
def snoopAnswer (s : State) (line k : Nat) (w : Way) (inv : Bool) : State :=
  let h := holderOf s line
  let r := roused s h
  let gone := modSlice r h fun sl => { sl with ways := tdel sl.ways k }
  let keep (x : Held) (d : BitVec 4) : State := setWay r h k { w with held := some x, dirty := d }
  match inv, w.held with
  | true, some .m | true, some .o => sendHome gone .rspid line w.data
  | true, _ => sendHome gone .rspi line
  | false, some .m => if agentOfLine line = 0 then sendHome (keep .s 0) .rspsd line w.data
                      else sendHome (keep .o w.dirty) .rspod line w.data
  | false, some .o => sendHome r .rspod line w.data
  | false, _ => sendHome (keep .s 0) .rsps line w.data

theorem snoop_holding (way : findWay (sliceOf s (holderOf s line)) line = some (k, w)) (inv : Bool) :
    snoop s line inv = snoopAnswer s line k w inv := by
  have unsent (p : Phase) : ((none : Option Phase) == some p) = false := rfl
  unfold snoop cacherOf
  simp only [remote, Bool.not_true, Bool.false_eq_true, if_false, ← roused.eq_1, entryOf_roused, free, findWay_roused, way,
    Option.map_none, unsent]
  unfold snoopAnswer
  generalize w.held = x
  rcases inv with _ | _ <;> rcases x with _ | (_ | _ | _ | _) <;> rfl

end Snoop

/-! The statement. -/

/-- Messages of a home that is not heard have no effect. -/
theorem exec_unheard {s : State} {line : Nat} (deaf : heard s (agentOfLine line) = false) (data : Line) :
    ∀ i ∈ [Instr.snps line, .snpi line, .datas line data, .datae line data, .datam line data, .gntm line, .wback line,
      .datau line data, .nocache line, .err line], exec i s = .next s := by
  intro i hi
  simp only [List.mem_cons, List.not_mem_nil, or_false] at hi
  rcases hi with rfl | rfl | rfl | rfl | rfl | rfl | rfl | rfl | rfl | rfl
  · exact (fromAgent_deaf deaf _ _ : execSnps line s = _)
  · exact (fromAgent_deaf deaf _ _ : execSnpi line s = _)
  · exact (fromAgent_deaf deaf _ _ : execDatas line data s = _)
  · exact (fromAgent_deaf deaf _ _ : execDatae line data s = _)
  · exact (fromAgent_deaf deaf _ _ : execDatam line data s = _)
  · exact (fromAgent_deaf deaf _ _ : execGntm line s = _)
  · exact (fromAgent_deaf deaf _ _ : execWback line s = _)
  · exact (fromAgent_deaf deaf _ _ : execDatau line data s = _)
  · exact (fromAgent_deaf deaf _ _ : execNocache line s = _)
  · exact (fromAgent_deaf deaf _ _ : execErr line s = _)

section Heard

variable {s : State} {line : Nat} (hears : heard s (agentOfLine line) = true)

include hears

theorem exec_snps : exec (.snps line) s = .next (snoop s line false) :=
  (fromAgent_heard rfl hears _ : execSnps line s = _)

theorem exec_snpi : exec (.snpi line) s = .next (snoop s line true) :=
  (fromAgent_heard rfl hears _ : execSnpi line s = _)

theorem exec_datas (data : Line) : exec (.datas line data) s = .next (granted s line (· == .sentS) .s (some data)) :=
  (fromAgent_heard rfl hears _ : execDatas line data s = _)

theorem exec_datae (data : Line) : exec (.datae line data) s = .next (granted s line (· == .sentS) .e (some data)) :=
  (fromAgent_heard rfl hears _ : execDatae line data s = _)

theorem exec_datam (data : Line) : exec (.datam line data) s =
    .next (granted s line (fun p => p == .sentX || p == .sentU) .m (some data)) :=
  (fromAgent_heard rfl hears _ : execDatam line data s = _)

theorem exec_gntm : exec (.gntm line) s = .next (granted s line (· == .sentU) .m none) :=
  (fromAgent_heard rfl hears _ : execGntm line s = _)

variable {h : Nat} {e : TEntry}

theorem exec_wback (waits : waitsFor s line (fun p => p == .sentWb || p == .sentWrU) = some (h, e)) :
    exec (.wback line) s = .next (endSent s h line e fun s q => answerUnit (performed s q) q (some 0)) := by
  show execWback line s = _
  unfold execWback
  rw [fromAgent_heard rfl hears, waits]

theorem exec_datau (waits : waitsFor s line (· == .sentRdU) = some (h, e)) (data : Line) :
    exec (.datau line data) s = .next (endSent s h line e fun s q =>
      if q.act == .read then deliver s q data 0 else answerUnit (performed s q) q (some data)) := by
  show execDatau line data s = _
  unfold execDatau
  rw [fromAgent_heard rfl hears, waits]

theorem exec_err
    (waits : waitsFor s line (fun p => p == .sentS || p == .sentX || p == .sentU || p == .sentRdU || p == .sentWrU) =
      some (h, e)) : exec (.err line) s = .next (endSent s h line e reqFault) := by
  show execErr line s = _
  unfold execErr
  rw [fromAgent_heard rfl hears, waits]

variable {q : Req} (waits : waitsFor s line (fun p => p == .sentS || p == .sentX || p == .sentU) = some (h, e))
variable (own : e.cur = .own q)

include waits own

/-- A packed line and an atomic have no uncached access. -/
theorem exec_nocache_fault (refused : isPacked (line % 2 ^ 34) = true ∨ ∃ op ty rnd, q.act = .atom op ty rnd) :
    exec (.nocache line) s = .next (endSent s h line e reqFault) := by
  show execNocache line s = _
  unfold execNocache
  rw [fromAgent_heard rfl hears, waits]
  simp only [own]
  cases packed : isPacked (line % 2 ^ 34) with
  | true => rfl
  | false =>
    rcases refused with h | ⟨op, ty, rnd, act⟩
    · exact absurd (packed.symm.trans h) Bool.false_ne_true
    · simp only [act, Bool.false_eq_true, if_false]

variable (plain : isPacked (line % 2 ^ 34) = false)

include plain

theorem exec_nocache_read (act : q.act = .read) : exec (.nocache line) s =
    .next (sendHome (modEntry s h line fun e => { e with phase := .sentRdU }) .rdu line) := by
  show execNocache line s = _
  unfold execNocache
  rw [fromAgent_heard rfl hears, waits]
  simp only [own, plain, Bool.false_eq_true, if_false, act]

theorem exec_nocache_write {d : Line} {m : LineMask} {p : BitVec 4} (act : q.act = .write d m p) (some' : m ≠ 0) :
    exec (.nocache line) s = .next (sendHome (modEntry s h line fun e => { e with phase := .sentWrU }) .wru line d m) := by
  show execNocache line s = _
  unfold execNocache
  rw [fromAgent_heard rfl hears, waits]
  simp only [own, plain, Bool.false_eq_true, if_false]
  rw [act]
  split
  case h_1 h => exact absurd (Act.write.inj h).2.1 some'
  case h_2 h =>
    obtain ⟨rfl, rfl, rfl⟩ := Act.write.inj h
    rfl
  case h_3 h => exact absurd h nofun
  case h_4 other _ => exact (other d m p rfl).elim

end Heard

/-- Settles O43, message by message. -/
theorem cachedRemoteLines : Obligations.CachedRemoteLines := by
  intro s line k w e q data h sl home unseen waits lacks alone holds replies has done
  refine ⟨fun i hi deaf => exec_unheard deaf data i hi, fun hears => ?_⟩
  have answers {x : Held} (inv : Bool) (it : holds x) : snoop s line inv = snoopAnswer s line k w inv :=
    snoop_holding it.1 it.2.1 it.2.2.2.1 inv
  have keeps {x y : Held} {kind : MKind} {d : BitVec 4} (it : holds x)
      (is : snoopAnswer s line k w false =
        sendHome (setWay (roused s h) h k { w with held := some y, dirty := d }) kind line w.data) :
      replies (.snps line) kind w.data (some y) := by
    have ⟨way, atKey, _⟩ := it.2.2.2
    refine ⟨_, (exec_snps hears).trans (congrArg _ ((answers false it).trans is)), ?_, ?_⟩
    · show (roused s h).outbox ++ _ = _
      rw [outbox_roused]
    · have at' : HoldsAt (sliceOf (roused s h) h) line k w := holdsAt_of_ways (ways_roused s h) ⟨way, atKey⟩
      have now := (holdsAt_setWay (w := { w with held := some y, dirty := d }) at' (line_of_findWay way :)).found
      show (findWay (sliceOf (setWay _ h k _) h) line).bind _ = _
      rw [now]
      exact held_stamped ..
  have gives {x : Held} {kind : MKind} {d : Line} (it : holds x)
      (is : snoopAnswer s line k w true =
        sendHome (modSlice (roused s h) h fun sl => { sl with ways := tdel sl.ways k }) kind line d) :
      replies (.snpi line) kind d none := by
    have rest := it.2.2.2.2.2
    refine ⟨_, (exec_snpi hears).trans (congrArg _ ((answers true it).trans is)), ?_, ?_⟩
    · show (roused s h).outbox ++ _ = _
      rw [outbox_roused]
    · have gone : findWay (sliceOf (modSlice (roused s h) h fun sl => { sl with ways := tdel sl.ways k }) h) line = none := by
        refine findWay_of_lacks fun p hp => ?_
        rw [sliceOf_modSlice] at hp
        dsimp only at hp
        rw [ways_roused] at hp
        exact rest p hp
      exact (congrArg (fun o : Option (Nat × Way) => o.bind fun p => p.2.held) gone :)
  -- A grant for a probe, and one for a write.
  have probed {p : Phase} {x : Held} {f : Phase → Bool} {d : Line} {old : Option Line} (it : waits p) (fits : f p = true)
      (source : old = some d ∨ (old = none ∧ ∃ j v, findWay sl line = some (j, v) ∧ v.data = d))
      (place : Lacks sl line ∨ ∃ j u, HoldsAt sl line j u) (act : q.act = .probe) :
      ∃ k' w', findWay (sliceOf (granted s line f x old) h) line = some (k', w') ∧ w'.data = d ∧ w'.held = some x := by
    obtain ⟨remote, entry, phase, own⟩ := it
    obtain ⟨k', v, came, is, held⟩ := taken_holds (x := x) e d place
    rw [granted_data remote entry own (phase ▸ fits) source came.found]
    exact ⟨_, _, (holdsAt_probe came (line_of_findWay came.found) act).found, (data_stamped ..).trans is,
      (held_stamped ..).trans held⟩
  have wrote {p : Phase} {x : Held} {f : Phase → Bool} {d d' : Line} {m : LineMask} {bad : BitVec 4} {old : Option Line}
      (it : waits p) (fits : f p = true)
      (source : old = some d ∨ (old = none ∧ ∃ j v, findWay sl line = some (j, v) ∧ v.data = d))
      (place : Lacks sl line ∨ ∃ j u, HoldsAt sl line j u) (act : q.act = .write d' m bad) (prov : q.prov = none)
      (race : q.race = none) (away : unseen) :
      ∃ k' w', findWay (sliceOf (granted s line f x old) h) line = some (k', w') ∧ w'.data = mergeLine d d' m ∧
        w'.held = some x := by
    obtain ⟨remote, entry, phase, own⟩ := it
    obtain ⟨k', v, came, is, held⟩ := taken_holds (x := x) e d place
    rw [granted_data remote entry own (phase ▸ fits) source came.found]
    have outside : windowAt (taken s line e d x) (128 * v.line) = none := by
      rw [windowAt_of_besideHomes (besideHomes_taken ..), line_of_findWay came.found]
      exact away
    refine ⟨_, _, (holdsAt_write came (line_of_findWay came.found) act prov race).found, ?_, (held_stamped ..).trans held⟩
    rw [data_stamped, data_written outside, is]
  -- The end of an entry whose request is performed as it is.
  have ends {p : Phase} {fits : Phase → Bool} (it : waits p) (is : fits p = true) :
      waitsFor s line fits = some (h, e) := waitsFor_found it.1 it.2.1 (it.2.2.1 ▸ is)
  have performs {p : Phase} (it : waits p) (f : State → Req → State) :
      endSent s h line e f = f (entryOver s h line e) q := endSent_found it.2.1 it.2.2.2 f
  refine ⟨fun it => ?_, fun it far => keeps (d := w.dirty) it ?_,
    fun it near => keeps (d := 0) it ?_, fun it => ?_, fun it => ?_, fun it => ?_,
    fun remote free lacking => ⟨?_, ?_⟩, fun it lacking act => ⟨?_, ?_⟩, fun d m p it act prov race away => ?_,
    fun d m p it act prov race away alone' => ?_, fun it => ?_, fun it act => ?_, fun it act => ?_, fun it packed => ?_,
    fun op ty rnd it act => ?_, fun it act plain => ?_, fun d m p it act some' plain => ?_, fun it => ?_⟩
  · rcases it with it | it
    · exact keeps (d := 0) it (by unfold snoopAnswer; rw [it.2.2.1])
    · exact keeps (d := 0) it (by unfold snoopAnswer; rw [it.2.2.1])
  · unfold snoopAnswer
    rw [it.2.2.1]
    exact if_neg far
  · unfold snoopAnswer
    rw [it.2.2.1]
    exact if_pos near
  · have is : snoopAnswer s line k w false = sendHome (roused s h) .rspod line w.data := by
      unfold snoopAnswer
      rw [it.2.2.1]
    refine ⟨_, (exec_snps hears).trans (congrArg _ ((answers false it).trans is)), ?_, ?_⟩
    · show (roused s h).outbox ++ _ = _
      rw [outbox_roused]
    · show (findWay (sliceOf (roused s h) h) line).bind _ = _
      rw [findWay_roused, it.2.2.2.1]
      exact it.2.2.1
  · rcases it with it | it
    · exact gives it (by unfold snoopAnswer; rw [it.2.2.1])
    · exact gives it (by unfold snoopAnswer; rw [it.2.2.1])
  · rcases it with it | it
    · exact gives it (by unfold snoopAnswer; rw [it.2.2.1])
    · exact gives it (by unfold snoopAnswer; rw [it.2.2.1])
  · refine ⟨_, (exec_snps hears).trans (congrArg _ (snoop_lacking remote free lacking false)), ?_, ?_⟩
    · show (roused s h).outbox ++ _ = _
      rw [outbox_roused]
    · show (findWay (sliceOf (roused s h) h) line).bind _ = _
      rw [findWay_roused, lacking]
      rfl
  · refine ⟨_, (exec_snpi hears).trans (congrArg _ (snoop_lacking remote free lacking true)), ?_, ?_⟩
    · show (roused s h).outbox ++ _ = _
      rw [outbox_roused]
    · show (findWay (sliceOf (roused s h) h) line).bind _ = _
      rw [findWay_roused, lacking]
      rfl
  · obtain ⟨k', w', now⟩ := probed (f := (· == .sentS)) (x := .s) (old := some data) it
        rfl (.inl rfl) (.inl lacking) act
    exact ⟨_, k', w', exec_datas hears data, now⟩
  · obtain ⟨k', w', now⟩ := probed (f := (· == .sentS)) (x := .e) (old := some data) it
        rfl (.inl rfl) (.inl lacking) act
    exact ⟨_, k', w', exec_datae hears data, now⟩
  · rcases it with ⟨it, lacking⟩ | ⟨it, way, atKey, -⟩
    · obtain ⟨k', w', now⟩ := wrote (f := fun p => p == .sentX || p == .sentU) (x := .m) (old := some data) it
          rfl (.inl rfl) (.inl lacking) act prov race away
      exact ⟨_, k', w', exec_datam hears data, now⟩
    · obtain ⟨k', w', now⟩ := wrote (f := fun p => p == .sentX || p == .sentU) (x := .m) (old := some data) it
          rfl (.inl rfl) (.inr ⟨k, w, way, atKey⟩) act prov race away
      exact ⟨_, k', w', exec_datam hears data, now⟩
  · obtain ⟨way, atKey, -⟩ := alone'
    obtain ⟨k', w', now⟩ := wrote (f := (· == .sentU)) (x := .m) (old := none) it
        rfl (.inr ⟨rfl, k, w, way, rfl⟩) (.inr ⟨k, w, way, atKey⟩) act prov race away
    exact ⟨_, k', w', exec_gntm hears, now⟩
  · rcases it with it | it
    · exact (exec_wback hears (ends it rfl)).trans (congrArg _ (performs it _))
    · exact (exec_wback hears (ends it rfl)).trans (congrArg _ (performs it _))
  · refine (exec_datau hears (ends it rfl) data).trans (congrArg _ ((performs it _).trans ?_))
    rw [act]
    rfl
  · refine (exec_datau hears (ends it rfl) data).trans (congrArg _ ((performs it _).trans ?_))
    rw [act]
    rfl
  · rcases it with it | it | it
    · exact (exec_nocache_fault hears (ends it rfl) it.2.2.2 (.inl packed)).trans (congrArg _ (performs it _))
    · exact (exec_nocache_fault hears (ends it rfl) it.2.2.2 (.inl packed)).trans (congrArg _ (performs it _))
    · exact (exec_nocache_fault hears (ends it rfl) it.2.2.2 (.inl packed)).trans (congrArg _ (performs it _))
  · have refused : isPacked (line % 2 ^ 34) = true ∨ ∃ op ty rnd, q.act = .atom op ty rnd := .inr ⟨op, ty, rnd, act⟩
    rcases it with it | it
    · exact (exec_nocache_fault hears (ends it rfl) it.2.2.2 refused).trans (congrArg _ (performs it _))
    · exact (exec_nocache_fault hears (ends it rfl) it.2.2.2 refused).trans (congrArg _ (performs it _))
  · exact ⟨_, _, exec_nocache_read hears (ends it rfl) it.2.2.2 plain act,
      entryOf_modEntry (f := fun e => { e with phase := .sentRdU }) it.2.1 (line_of_entryOf it.2.1 :), rfl, rfl⟩
  · exact ⟨_, _, exec_nocache_write hears (ends it rfl) it.2.2.2 plain act some',
      entryOf_modEntry (f := fun e => { e with phase := .sentWrU }) it.2.1 (line_of_entryOf it.2.1 :), rfl, rfl⟩
  · rcases it with it | it | it | it | it
    · exact (exec_err hears (ends it rfl)).trans (congrArg _ (performs it _))
    · exact (exec_err hears (ends it rfl)).trans (congrArg _ (performs it _))
    · exact (exec_err hears (ends it rfl)).trans (congrArg _ (performs it _))
    · exact (exec_err hears (ends it rfl)).trans (congrArg _ (performs it _))
    · exact (exec_err hears (ends it rfl)).trans (congrArg _ (performs it _))

end Sys2Proof.Machine

/-! The begin of launches (R379-R382, R386, R392, R394). -/

namespace Sys2Proof.Machine

open Sys2Proof

/-! Distributors (R386). -/

theorem nodup_chipletsOf (s : State) (part : Nat) : (chipletsOf s part).Nodup := by
  unfold chipletsOf
  split
  · exact List.nodup_range.map fun a b h => Nat.add_right_cancel h
  · exact List.nodup_nil

theorem nodup_distSites (s : State) (l : Launch) : (distSites s l).Nodup :=
  (nodup_chipletsOf s l.part).filter _

/-- One distributor's blocks are added to what it has. -/
def addBlocks (f : Nat → List Nat) (t : Tab (List Nat)) (p : Nat × Nat) : Tab (List Nat) :=
  tput [] t p.2 (tgetD t p.2 [] ++ f p.1)

theorem addBlocks_other (f : Nat → List Nat) {ps : List (Nat × Nat)} {site : Nat} (other : site ∉ ps.map (·.2))
    (t : Tab (List Nat)) : tgetD (ps.foldl (addBlocks f) t) site [] = tgetD t site [] := by
  induction ps generalizing t with
  | nil => rfl
  | cons p ps ih =>
    obtain ⟨here, rest⟩ := not_or.1 (mt List.mem_cons.2 other)
    exact (ih rest _).trans (tgetD_tput_ne _ _ _ _ here)

/-- Distributors that are all different get their own blocks each. -/
theorem addBlocks_own (f : Nat → List Nat) {ps : List (Nat × Nat)} (single : (ps.map (·.2)).Nodup) {d site : Nat}
    (its : (d, site) ∈ ps) (t : Tab (List Nat)) :
    tgetD (ps.foldl (addBlocks f) t) site [] = tgetD t site [] ++ f d := by
  induction ps generalizing t with
  | nil => exact absurd its List.not_mem_nil
  | cons p ps ih =>
    obtain ⟨fresh, single⟩ := List.nodup_cons.1 single
    rcases List.mem_cons.1 its with rfl | its
    · exact (addBlocks_other f fresh _).trans (tgetD_tput ..)
    · have other : site ≠ p.2 := fun h => fresh (List.mem_map.2 ⟨_, its, h⟩)
      exact (ih single its _).trans (congrArg (· ++ f d) (tgetD_tput_ne _ _ _ _ other))

/-- The blocks of single-block units at their distributors. -/
theorem dists_handOut {s : State} {l : Launch} (fresh : l.dists = []) (units : l.pairs = false) (blocks : List Nat)
    {d site : Nat} (at' : (distSites s l)[d]? = some site) :
    tgetD (handOut s l blocks).dists site [] = blocks.filter fun b => b / l.g % (distSites s l).length = d := by
  obtain ⟨inside, is⟩ := List.getElem?_eq_some_iff.1 at'
  have some' : max 1 (distSites s l).length = (distSites s l).length := by omega
  have snds : ((List.range (distSites s l).length).zip (distSites s l)).map (·.2) = distSites s l :=
    List.map_snd_zip (by simp)
  have its : (d, site) ∈ (List.range (distSites s l).length).zip (distSites s l) :=
    List.mem_iff_getElem.2 ⟨d, by simpa using inside, by simp [is]⟩
  have own := addBlocks_own (fun d => blocks.filter fun b => b / l.g % (distSites s l).length == d)
    (snds.symm ▸ nodup_distSites s l) its []
  unfold handOut
  simp only [fresh, units, some', Bool.false_eq_true, if_false]
  exact own

/-! A launch enters the tables (R379). -/

/-- The launch as it enters. -/
def entered (s : State) (c : Cmd) (l : Launch) (blocks : List Nat) : Launch :=
  handOut s { l with number := BitVec.ofNat 32 (ctxOf s c.ctx).launches, born := s.clock } blocks

theorem dists_entered {s : State} {c : Cmd} {l : Launch} (fresh : l.dists = []) {blocks : List Nat}
    (units : (entered s c l blocks).pairs = false) {d site : Nat} (at' : (distSites s l)[d]? = some site) :
    tgetD (entered s c l blocks).dists site [] =
      blocks.filter fun b => b / (entered s c l blocks).g % (distSites s l).length = d :=
  dists_handOut (l := { l with number := BitVec.ofNat 32 (ctxOf s c.ctx).launches, born := s.clock }) fresh units blocks at'

/-- The tables with the launch. -/
def withLaunch (s : State) (c : Cmd) (l : Launch) (blocks : List Nat) : State :=
  modCmd { s with nextLaunch := s.nextLaunch + 1, launches := tins s.launches s.nextLaunch (entered s c l blocks),
                  contexts := tmod s.contexts c.ctx fun x => { x with launches := (x.launches + 1) % 2 ^ 32 } }
    c.part c.queue c.index fun c => { c with st := .started, launch := s.nextLaunch }

/-- A launch that has blocks to run, or is not resolved, is not over at once. -/
theorem beginLaunch_goes {s : State} {c : Cmd} {l : Launch} (blocks : List Nat)
    (open' : l.ended < l.total ∨ l.resolved = false) : beginLaunch s c l blocks = withLaunch s c l blocks := by
  have there : tget (withLaunch s c l blocks).launches s.nextLaunch = some (entered s c l blocks) := tget_tins ..
  have ended : (entered s c l blocks).ended = l.ended := rfl
  have total : (entered s c l blocks).total = l.total := rfl
  have resolved : (entered s c l blocks).resolved = l.resolved := rfl
  show launchDone (withLaunch s c l blocks) s.nextLaunch = _
  unfold launchDone
  rw [there]
  refine if_neg ?_
  rw [ended, total, resolved]
  rcases open' with h | h
  · simp [Nat.not_le.2 h]
  · simp [h]

theorem tget_withLaunch (s : State) (c : Cmd) (l : Launch) (blocks : List Nat) :
    tget (withLaunch s c l blocks).launches s.nextLaunch = some (entered s c l blocks) :=
  tget_tins ..

theorem findCmd_withLaunch {s : State} {c : Cmd} (found : findCmd s c.part c.queue c.index = some c) (l : Launch)
    (blocks : List Nat) : findCmd (withLaunch s c l blocks) c.part c.queue c.index =
      some { c with st := .started, launch := s.nextLaunch } := by
  refine (findCmd_modCmd ?_).trans (congrArg (Option.map _) found)
  exact fun _ => rfl

/-! LAUNCH (R381). -/

section Start

variable {s : State} {c : Cmd}

/-- The slots of a bundle after the first. -/
def linkSlots (c : Cmd) : List (List Byte) :=
  (List.range (linksOf c.bytes)).map fun i => (c.bytes.drop (256 * (i + 1))).take 256

theorem startLaunch_malformed (bad : (linkSlots c).any (linkBad c.bytes) = true) :
    startLaunch s c = completeCmd s c 0x11 0 :=
  if_pos bad

theorem startLaunch_nocap (plain : linksOf c.bytes = 0) (wide : capable s (launchFrom c) = false) :
    startLaunch s c = completeCmd s c 0x14 0 := by
  have good : (linkSlots c).any (linkBad c.bytes) = false := by
    unfold linkSlots
    rw [plain]
    rfl
  exact (if_neg (Bool.eq_false_iff.1 good)).trans (if_pos (by rw [wide]; rfl))

theorem startLaunch_goes (plain : linksOf c.bytes = 0) (fits : capable s (launchFrom c) = true) :
    startLaunch s c = beginLaunch s c (launchFrom c)
      (List.range ((launchFrom c).gx * (launchFrom c).gy * (launchFrom c).gz)) := by
  have good : (linkSlots c).any (linkBad c.bytes) = false := by
    unfold linkSlots
    rw [plain]
    rfl
  exact (if_neg (Bool.eq_false_iff.1 good)).trans (if_neg (by rw [fits]; simp))

/-! PROOFED (R392, R394). -/

/-- The predicted number of blocks. -/
def predicted (s : State) (c : Cmd) : Nat :=
  predict (predictorOf s c.part (BitVec.ofNat 32 (cmdField c 0x60 4)).toNat) (BitVec.ofNat 32 (cmdField c 0x60 4))
    (cmdField c 0x64 1) (cmdField c 0x74 4) (cmdField c 0x70 4) (cmdField c 0x18 4)

/-- The launch of a PROOFED. -/
def proofedFrom (s : State) (c : Cmd) : Launch :=
  { launchFrom c with
      proofed := true, ktag := BitVec.ofNat 32 (cmdField c 0x60 4), mode := cmdField c 0x64 1,
      shapeSrc := cmdField c 0x68 8, floor := cmdField c 0x70 4, predicted := predicted s c,
      limit := cmdField c 0x18 4, resolved := false, total := predicted s c, deadline := s.clock + cmdField c 0x78 8 }

theorem startProofed_bad (walked : walk s c.ctx (cmdField c 0x68 8) = .bad) :
    startProofed s c = completeCmd s c 2 0 := by
  unfold startProofed
  simp only [walked]

variable {leaf : W64} {level : Nat} (walked : walk s c.ctx (cmdField c 0x68 8) = .ok leaf level)

include walked

theorem startProofed_unreadable (unreadable : leaf.getLsbD 2 = false) : startProofed s c = completeCmd s c 3 0 := by
  unfold startProofed
  simp only [walked, unreadable, Bool.not_false, if_true]

variable (readable : leaf.getLsbD 2 = true)

include readable

theorem startProofed_found : startProofed s c =
    if !capable s (launchFrom c) then completeCmd s c 0x14 0
    else beginLaunch s c (proofedFrom s c) (List.range (predicted s c)) := by
  unfold startProofed
  simp only [walked, readable, Bool.not_true, Bool.false_eq_true, if_false]
  rfl

end Start

/-- The prediction lies between the floor and the limit (R394). -/
theorem cast_predict (e : Pred) (ktag : W32) (mode hint floor limit : Nat) :
    (predict e ktag mode hint floor limit : Int) = max 0 (min (max (rawPred e ktag mode hint) floor) limit) := by
  unfold predict
  rw [Int.toNat_eq_max, max_comm]

theorem predictorOf_wrap (s : State) (part n : Nat) :
    predictorOf s part (BitVec.ofNat 32 n).toNat = predictorOf s part n := by
  have low : (BitVec.ofNat 32 n).toNat % 256 = n % 256 := by
    rw [BitVec.toNat_ofNat]
    omega
  unfold predictorOf
  rw [low]

/-! LINK (R382). -/

theorem exec_link_lone {s : State} {part queue index : Nat} {c : Cmd} (hp : part < 8) (hq : queue < 4096)
    (found : findCmd s part queue index = some c) (lone : c.bundle = none) :
    exec (.link part queue index) s =
      .next (startCmd s part queue index (· == 2) fun s c => completeCmd s c 0x11 0) := by
  show execLink part queue index s = _
  unfold execLink
  rw [event_runs hp hq]
  simp only [found, lone]

/-- The commands once a LINK has joined its bundle. -/
def bundled (s : State) (part queue index h : Nat) (c : Cmd) : State :=
  let t := modCmd s part queue h fun a => { a with bytes := a.bytes ++ c.bytes }
  { t with cmds := t.cmds.filter fun d => !sameCmd d part queue index }

theorem exec_link_joins {s : State} {part queue index h : Nat} {a c : Cmd} (hp : part < 8) (hq : queue < 4096)
    (found : findCmd s part queue index = some c) (bundle : c.bundle = some h)
    (head : findCmd s part queue h = some a) (next : a.bytes.length = 256 * (index - h)) :
    exec (.link part queue index) s = .next (bundled s part queue index h c) := by
  show execLink part queue index s = _
  unfold execLink
  rw [event_runs hp hq]
  simp only [found, bundle, head, next, if_true]
  rfl

theorem findCmd_bundled_self (s : State) (part queue index h : Nat) (c : Cmd) :
    findCmd (bundled s part queue index h c) part queue index = none := by
  unfold findCmd bundled
  simp

theorem findCmd_bundled_head {s : State} {part queue index h : Nat} {a : Cmd} (other : h ≠ index)
    (head : findCmd s part queue h = some a) (c : Cmd) :
    findCmd (bundled s part queue index h c) part queue h = some { a with bytes := a.bytes ++ c.bytes } := by
  have stays : findCmd (bundled s part queue index h c) part queue h =
      findCmd (modCmd s part queue h fun a => { a with bytes := a.bytes ++ c.bytes }) part queue h := by
    unfold findCmd bundled
    rw [List.find?_filter]
    refine congrArg (fun p => List.find? p _) (funext fun d => ?_)
    cases same : sameCmd d part queue h with
    | false => simp
    | true =>
      obtain ⟨-, -, rfl⟩ := sameCmd_iff.1 same
      simp [sameCmd, other]
  rw [stays, findCmd_modCmd, head]
  · rfl
  · exact fun _ => rfl

/-! The statement. -/

/-- Settles O48, command by command. -/
theorem launchesBegin : Obligations.LaunchesBegin := by
  intro s part queue index c leaf level mayGo s' f l0 sites begun hasBlocks raw
  have goes {i : Instr} {ty : Nat → Bool} {g : State → Cmd → State} {n : Nat}
      (runs : exec i s = eventIf (below part 8 && below queue 4096) s fun s => startCmd s part queue index ty g)
      (typed : ty n = true) (go : mayGo n) : exec i s = .next (g s' c) := by
    obtain ⟨hp, hq, found, isTy, may, code⟩ := go
    exact runs.trans ((event_runs hp hq ..).trans (congrArg _ (startCmd_plain found (isTy ▸ typed) may code g)))
  have starts {n : Nat} {l : Launch} (go : mayGo n) (blocks : List Nat)
      (it : l.ctx = c.ctx ∧ l.part = c.part ∧ l.queue = c.queue ∧ l.index = c.index ∧ l.gx = f 0x18 4 ∧
        l.gy = f 0x1C 4 ∧ l.gz = f 0x20 4 ∧ l.subs = l0.subs) (new : l.ended = 0 ∧ l.failed = 0) :
      begun (withLaunch s' c l blocks) (entered s' c l blocks) := by
    obtain ⟨ctx, part', queue', index', gx, gy, gz, subs⟩ := it
    obtain ⟨rfl, rfl, rfl⟩ := named_of_findCmd go.2.2.1
    exact ⟨tget_withLaunch .., rfl, ctx, part', queue', index', gx, gy, gz, subs, rfl, new.1, new.2, _,
      findCmd_withLaunch (s := s') go.2.2.1 l blocks, rfl, rfl⟩
  have proofed {t : State} (go : mayGo 3) (is : startProofed s' c = t) : exec (.proofed part queue index) s = .next t :=
    (goes rfl rfl go).trans (congrArg _ is)
  refine ⟨fun go plain fits some' => ?_,
    fun go plain wide => (goes rfl rfl go).trans (congrArg _ (startLaunch_nocap plain wide)),
    fun k go inside bad => (goes rfl rfl go).trans (congrArg _ (startLaunch_malformed ?_)),
    fun go walked readable fits => ?_,
    fun go walked => proofed go (startProofed_bad walked),
    fun go walked unreadable => proofed go (startProofed_unreadable walked unreadable),
    fun go walked readable wide => proofed go ((startProofed_found walked readable).trans (if_pos ?_)),
    fun ⟨hp, hq, found, isTy, may, code⟩ lone => (exec_link_lone hp hq found lone).trans
      (congrArg _ (startCmd_plain found (by rw [isTy]; rfl) may code _)),
    fun h a hp hq found bundle other head next => ⟨_, _, exec_link_joins hp hq found bundle head next,
      findCmd_bundled_head other head c, rfl, findCmd_bundled_self ..⟩⟩
  · have total : l0.total = f 0x18 4 * f 0x1C 4 * f 0x20 4 := by
      show f 0x18 4 * f 0x1C 4 * f 0x20 4 * (linksOf c.bytes + 1) = _
      rw [plain, Nat.zero_add, Nat.mul_one]
    have begins : startLaunch s' c = withLaunch s' c l0 (List.range (f 0x18 4 * f 0x1C 4 * f 0x20 4)) :=
      (startLaunch_goes plain fits).trans (beginLaunch_goes _ (.inl (total ▸ some')))
    exact ⟨_, _, (goes rfl rfl go).trans (congrArg _ begins), starts go _ ⟨rfl, rfl, rfl, rfl, rfl, rfl, rfl, rfl⟩ ⟨rfl, rfl⟩,
      total, rfl, rfl, fun units d site at' => dists_entered rfl units at'⟩
  · exact List.any_eq_true.2 ⟨_, List.mem_map.2 ⟨k, List.mem_range.2 inside, rfl⟩, bad⟩
  · have begins : startProofed s' c = withLaunch s' c (proofedFrom s' c) (List.range (predicted s' c)) := by
      refine (startProofed_found walked readable).trans ((if_neg ?_).trans (beginLaunch_goes _ (.inr rfl)))
      rw [fits]
      simp
    have value : (predicted s' c : Int) = max 0 (min (max raw (f 0x70 4)) (f 0x18 4)) := by
      unfold predicted
      rw [cast_predict, predictorOf_wrap, (named_of_findCmd go.2.2.1).1]
    exact ⟨_, _, proofed go begins, starts go _ ⟨rfl, rfl, rfl, rfl, rfl, rfl, rfl, rfl⟩ ⟨rfl, rfl⟩, rfl, rfl, rfl, rfl, rfl,
      rfl, value, rfl, fun units d site at' => dists_entered rfl units at'⟩
  · rw [wide]
    rfl

end Sys2Proof.Machine

/-! A shape or its timeout resolves a launch (R393, R396, R397, R400, R403-R405). -/

namespace Sys2Proof.Machine

open Sys2Proof

/-! What a launch's distributors depend on (R16, R386). -/

/-- Partitions, chiplets, and the columns that have left the map. -/
def siteFacts (s : State) : Tab Part × Tab Chiplet × Nat × Nat × (Nat → Nat → Bool) :=
  (s.parts, s.chiplets, s.dev.mode, s.dev.keptChiplet, fun pair pos => (colOf s pair pos).absent)

theorem distSites_congr {s t : State} (same : siteFacts t = siteFacts s) (l : Launch) : distSites t l = distSites s l := by
  simp only [siteFacts, Prod.mk.injEq] at same
  obtain ⟨parts, chiplets, mode, kept, absent⟩ := same
  have low (p : Nat) : lowSite t p = lowSite s p := by simp only [lowSite, mode, kept]
  have gone (core : Nat) : columnGone t core = columnGone s core := by
    have := congrFun (congrFun absent (pairOf core)) (posOf core)
    simp only [columnGone, chiplets, this]
  have owner (core : Nat) : partOfCore t core = partOfCore s core := by
    simp only [partOfCore, partOfChiplet, parts, low]
  have allowed (part first count core : Nat) : allowedCore t part first count core = allowedCore s part first count core := by
    simp only [allowedCore, owner, gone]
  simp only [distSites, chipletsOf, parts, low, mayUse, allowed]

/-- The launches, and what their distributors depend on. -/
def launchFacts (s : State) : Tab Launch × Tab Part × Tab Chiplet × Nat × Nat × (Nat → Nat → Bool) :=
  (s.launches, siteFacts s)

theorem launchFacts_of_besideReports {s t : State} (h : besideReports t = besideReports s) :
    launchFacts t = launchFacts s :=
  (congrArg launchFacts h :)

theorem launches_of_facts {s t : State} (h : launchFacts t = launchFacts s) : t.launches = s.launches :=
  congrArg Prod.fst h

theorem sites_of_facts {s t : State} (h : launchFacts t = launchFacts s) : siteFacts t = siteFacts s :=
  congrArg Prod.snd h

theorem parts_of_facts {s t : State} (h : launchFacts t = launchFacts s) : t.parts = s.parts :=
  congrArg (fun x => x.2.1) h

/-! Columns under the moves of a gate and the counts of discarded entries. -/

theorem colOf_modPair {s : State} {f : Pair → Pair} (keeps : ∀ p, (f p).cols = p.cols) (pair a b : Nat) :
    colOf (modPair s pair f) a b = colOf s a b := by
  unfold colOf modPair
  by_cases here : a = pair
  · subst here
    simp [tgetD, keeps]
  · simp [tgetD, tget_tins_ne _ _ here]

theorem launchFacts_modPair {s : State} {f : Pair → Pair} (keeps : ∀ p, (f p).cols = p.cols) (pair : Nat) :
    launchFacts (modPair s pair f) = launchFacts s := by
  have absent : (fun a b => (colOf (modPair s pair f) a b).absent) = fun a b => (colOf s a b).absent :=
    funext fun a => funext fun b => congrArg Column.absent (colOf_modPair keeps pair a b)
  unfold launchFacts siteFacts
  rw [absent]
  rfl

theorem launchFacts_gateMove (s : State) (pair : Nat) : launchFacts (gateMove s pair) = launchFacts s := by
  unfold gateMove
  dsimp only
  split
  · split
    · exact launchFacts_modPair (fun _ => by rfl) _
    · rfl
  · split
    · exact launchFacts_modPair (fun _ => by rfl) _
    · rfl
  · split
    · rfl
    · exact launchFacts_modPair (fun _ => by rfl) _
  · split
    · rfl
    · exact launchFacts_modPair (fun _ => by rfl) _

theorem launchFacts_settleGate (s : State) (pair : Nat) : launchFacts (settleGate s pair) = launchFacts s := by
  simp only [settleGate, launchFacts_gateMove]

theorem absent_modCol {s : State} {f : Column → Column} (keeps : ∀ c, (f c).absent = c.absent) (pair pos a b : Nat) :
    (colOf (modCol s pair pos f) a b).absent = (colOf s a b).absent := by
  unfold colOf modCol modPair
  by_cases here : a = pair
  · subst here
    by_cases there : b = pos
    · subst there
      simp [tgetD, keeps]
    · simp [tgetD, tget_tins_ne _ _ there]
  · simp [tgetD, tget_tins_ne _ _ here]

theorem launchFacts_countDiscards (s : State) (core n : Nat) : launchFacts (countDiscards s core n) = launchFacts s := by
  unfold countDiscards
  split
  · rfl
  · have absent : (fun a b => (colOf (modCol s (pairOf core) (posOf core) fun c =>
        { c with discard := (c.discard + n) % 256 }) a b).absent) = fun a b => (colOf s a b).absent :=
      funext fun a => funext fun b => absent_modCol (fun _ => by rfl) _ _ a b
    unfold launchFacts siteFacts
    rw [absent]
    rfl

/-! No block of a launch on any core, saved ones too. -/

def NoBlocks (s : State) (id : Nat) : Prop := ∀ c ∈ s.cores, ∀ b ∈ c.2.blocks, b.2.launch ≠ id

theorem noBlocks_of_cores {s t : State} {id : Nat} (same : t.cores = s.cores) (bare : NoBlocks s id) : NoBlocks t id := by
  unfold NoBlocks
  rw [same]
  exact bare

theorem noBlocks_modCore {s : State} {id : Nat} (bare : NoBlocks s id) {f : Core → Core}
    (keeps : ∀ co, (f co).blocks = co.blocks) (core : Nat) : NoBlocks (modCore s core f) id := by
  intro c hc b hb
  rcases mem_tins hc with rfl | old
  · rw [keeps] at hb
    unfold coreOf tgetD at hb
    cases there : tget s.cores core with
    | none =>
      rw [there] at hb
      exact absurd hb List.not_mem_nil
    | some co =>
      rw [there] at hb
      exact bare _ (mem_of_tget there) b hb
  · exact bare c old b hb

theorem noBlocks_map {s t : State} {id : Nat} (bare : NoBlocks s id) {f : Core → Core}
    (keeps : ∀ co, (f co).blocks = co.blocks) (cores : t.cores = s.cores.map fun c => (c.1, f c.2)) : NoBlocks t id := by
  intro c hc b hb
  rw [cores] at hc
  obtain ⟨c', old, rfl⟩ := List.mem_map.1 hc
  exact bare c' old b (keeps c'.2 ▸ hb)

theorem sitesOf_noBlocks {s : State} {id : Nat} (bare : NoBlocks s id) (p : Block → Bool) : sitesOf s id p = [] := by
  unfold sitesOf
  refine List.flatMap_eq_nil_iff.2 fun c hc => ?_
  rw [List.map_eq_nil_iff, List.filter_eq_nil_iff]
  intro b hb
  simp [bare c hc b hb]

theorem noBlocks_creditFree {s : State} {id : Nat} (bare : NoBlocks s id) (core ctx n : Nat) :
    NoBlocks (creditFree s core ctx n) id := by
  unfold creditFree
  split
  · exact noBlocks_modCore bare (fun _ => by rfl) _
  · exact bare

theorem launchFacts_creditFree (s : State) (core ctx n : Nat) : launchFacts (creditFree s core ctx n) = launchFacts s := by
  unfold creditFree
  split <;> rfl

theorem cores_settleGate (s : State) (pair : Nat) : (settleGate s pair).cores = s.cores :=
  settleGate_keeps State.cores (fun _ _ _ => rfl) s pair

/-- A saved context that is released takes no launch with it. -/
theorem dropSaved_keeps (s : State) (v : Saved) {id : Nat} (bare : NoBlocks s id) :
    launchFacts (dropSaved s v) = launchFacts s ∧ NoBlocks (dropSaved s v) id := by
  have rest (t : State) (facts : launchFacts t = launchFacts s) (clean : NoBlocks t id) (n m : Nat) :
      launchFacts (settleGate (countDiscards (creditFree t v.core v.ctx n) v.core n) m) = launchFacts s ∧
        NoBlocks (settleGate (countDiscards (creditFree t v.core v.ctx n) v.core n) m) id := by
    refine ⟨?_, noBlocks_of_cores ((cores_settleGate ..).trans (countDiscards_cores ..)) (noBlocks_creditFree clean _ _ _)⟩
    rw [launchFacts_settleGate, launchFacts_countDiscards, launchFacts_creditFree, facts]
  have gone : NoBlocks { s with saves := s.saves.filter (·.held != v.held), cores := tdel s.cores v.held } id :=
    fun c hc => bare c (mem_tdel hc)
  unfold dropSaved
  dsimp only
  split
  · refine rest _ ?_ ?_ _ _
    · rfl
    · exact gone
  · refine rest _ ?_ ?_ _ _
    · rfl
    · exact noBlocks_modCore gone (fun _ => by rfl) _

theorem dropEmptySaves_keeps (s : State) {id : Nat} (bare : NoBlocks s id) :
    launchFacts (dropEmptySaves s) = launchFacts s ∧ NoBlocks (dropEmptySaves s) id := by
  unfold dropEmptySaves
  generalize s.saves = vs
  induction vs generalizing s with
  | nil => exact ⟨rfl, bare⟩
  | cons v vs ih =>
    rw [List.foldl_cons]
    dsimp only
    split
    · obtain ⟨facts, clean⟩ := dropSaved_keeps s v bare
      obtain ⟨facts', clean'⟩ := ih _ clean
      exact ⟨facts'.trans facts, clean'⟩
    · exact ih _ bare

/-! The launch through its resolution, none of whose blocks has been placed. -/

/-- The blocks that are taken back from the distributors go. -/
def withdrawnFrom (l : Launch) (p : Nat → Bool) : Launch :=
  { l with dists := l.dists.map fun d => (d.1, d.2.filter fun b => !p b) }

/-- Blocks that run: those of the shape up to the limit, or those that the floor or the shape keeps. -/
def resolvedTotal (l : Launch) (x : Nat) : Nat := if x ≥ l.predicted then min x l.limit else max x l.floor

/-- The launch with its counts settled. -/
def settled (l : Launch) (x : Nat) : Launch :=
  { l with resolved := true, total := resolvedTotal l x, timedOut := false, shape := min x l.limit, lost := [] }

/-- The launch with the blocks beyond its limit counted. -/
def counted (l : Launch) (x : Nat) : Launch :=
  if x ≤ l.limit then l else { l with failed := l.failed + (x - l.limit), logged := l.logged + 1 }

theorem tget_settleLaunch {s : State} {id : Nat} {l : Launch} (there : tget s.launches id = some l) (x : Nat) :
    tget (settleLaunch s id x false).launches id = some (settled l x) ∧
      siteFacts (settleLaunch s id x false) = siteFacts s := by
  unfold settleLaunch
  rw [there]
  exact ⟨tget_tins .., rfl⟩

theorem tget_beyondLimit {s : State} {id : Nat} {l : Launch} (there : tget s.launches id = some l) (x : Nat) :
    tget (beyondLimit s id x).launches id = some (counted l x) ∧ siteFacts (beyondLimit s id x) = siteFacts s := by
  unfold beyondLimit counted
  simp only [there]
  split
  · exact ⟨there, rfl⟩
  · have logged (e : List Byte) : launchFacts (failLog s l e) = launchFacts s := by
      unfold failLog
      split
      · rfl
      · exact launchFacts_of_besideReports (besideReports_devWrite ..)
    refine ⟨?_, (sites_of_facts (logged _) :)⟩
    show tget (tmod (failLog s l _).launches id _) id = _
    rw [launches_of_facts (logged _), tget_tmod, there]
    rfl

theorem tget_addTail {s : State} {id : Nat} {l : Launch} (there : tget s.launches id = some l) (x : Nat) :
    tget (addTail s id x).launches id =
        some (handOut s l ((List.range (min x l.limit)).filter (· ≥ l.predicted))) ∧
      siteFacts (addTail s id x) = siteFacts s := by
  refine ⟨?_, rfl⟩
  unfold addTail
  simp [there]

/-- The survivors of a launch without blocks are none. -/
theorem makeCertain_bare {s : State} {id : Nat} (bare : NoBlocks s id) : launchFacts (makeCertain s id) = launchFacts s := by
  unfold makeCertain
  rw [sitesOf_noBlocks bare]
  rfl

/-- Every block of the tail is at a distributor. -/
theorem mem_handOut {s : State} {l : Launch} (units : l.pairs = false) (some' : distSites s l ≠ []) {blocks : List Nat}
    {b : Nat} (its : b ∈ blocks) : ∃ site ∈ distSites s l, b ∈ tgetD (handOut s l blocks).dists site [] := by
  have some'' : max 1 (distSites s l).length = (distSites s l).length :=
    max_eq_right (List.length_pos_iff.2 some')
  have inside : b / l.g % (distSites s l).length < (distSites s l).length := Nat.mod_lt _ (List.length_pos_iff.2 some')
  have snds : ((List.range (distSites s l).length).zip (distSites s l)).map (·.2) = distSites s l :=
    List.map_snd_zip (by simp)
  have its' : (b / l.g % (distSites s l).length, (distSites s l)[b / l.g % (distSites s l).length]) ∈
      (List.range (distSites s l).length).zip (distSites s l) :=
    List.mem_iff_getElem.2 ⟨_, by simpa using inside, by simp⟩
  have own := addBlocks_own (fun d => blocks.filter fun b => b / l.g % (distSites s l).length == d)
    (snds.symm ▸ nodup_distSites s l) its' l.dists
  refine ⟨_, List.getElem_mem inside, ?_⟩
  unfold handOut
  simp only [units, some'', Bool.false_eq_true, if_false]
  exact (congrArg (b ∈ ·) own).mpr (by simp [its])

/-! The resolution (R397, R400, R404, R405). -/

/-- No block of the launch has been placed, and none has left a provisional line. -/
structure Bare (s : State) (id : Nat) : Prop where
  blocks : NoBlocks s id
  lines : ∀ p ∈ s.slices, ∀ q ∈ p.2.provs, q.launch ≠ id

theorem provLines_bare {s : State} {id : Nat} (bare : Bare s id) : provLines s id = [] := by
  have none : (s.slices.flatMap fun p => (p.2.provs.filter (·.launch == id)).map fun l => (p.1, l)) = [] := by
    refine List.flatMap_eq_nil_iff.2 fun p hp => ?_
    rw [List.map_eq_nil_iff, List.filter_eq_nil_iff]
    intro q hq
    simpa using bare.lines p hp q hq
  unfold provLines
  rw [none]
  rfl

/-- The launch as its resolution leaves it, but for the tail. -/
def resolvedLaunch (l : Launch) (x : Nat) : Launch :=
  counted (settled (withdrawnFrom l fun b => b ≥ x && b ≥ l.floor) x) x

/-- The blocks of the tail. -/
def tailBlocks (l : Launch) (x : Nat) : List Nat := (List.range (min x l.limit)).filter (· ≥ l.predicted)

/-- The predictors with a resolution's shape. -/
def withShape (u : State) (l : Launch) (x : Nat) : State :=
  { u with parts := tmod u.parts l.part (learnShape (l.ktag.toNat % 256) l.ktag l.mode (BitVec.ofNat 32 x)) }

theorem facts_tail (l : Launch) (x : Nat) : (resolvedLaunch l x).ended = l.ended ∧
    (resolvedLaunch l x).total = resolvedTotal l x ∧ (resolvedLaunch l x).resolved = true ∧
    (resolvedLaunch l x).timedOut = false ∧ (resolvedLaunch l x).shape = min x l.limit ∧
    (resolvedLaunch l x).failed = l.failed + (x - l.limit) ∧ (resolvedLaunch l x).pairs = l.pairs := by
  unfold resolvedLaunch counted
  split
  case isTrue low =>
    refine ⟨rfl, rfl, rfl, rfl, rfl, ?_, rfl⟩
    rw [Nat.sub_eq_zero_of_le (show x ≤ l.limit from low)]
    rfl
  case isFalse => exact ⟨rfl, rfl, rfl, rfl, rfl, rfl, rfl⟩

theorem limits_resolvedLaunch (l : Launch) (x : Nat) :
    (resolvedLaunch l x).limit = l.limit ∧ (resolvedLaunch l x).predicted = l.predicted := by
  unfold resolvedLaunch counted
  split <;> exact ⟨rfl, rfl⟩

theorem distSites_resolvedLaunch (s : State) (l : Launch) (x : Nat) : distSites s (resolvedLaunch l x) = distSites s l := by
  unfold resolvedLaunch counted
  split <;> rfl

theorem noBlocks_sweepReqs {s : State} {id : Nat} (bare : NoBlocks s id) (i x : Nat) : NoBlocks (sweepReqs s i x) id := by
  intro c hc b hb
  obtain ⟨c', old, rfl⟩ := List.mem_map.1 hc
  exact bare c' old b hb

theorem cores_settleLaunch (s : State) (id x : Nat) (timeout : Bool) : (settleLaunch s id x timeout).cores = s.cores := by
  unfold settleLaunch
  split <;> rfl

/-- The machine once what the resolution does not keep is gone. -/
def swept (s : State) (id x floor : Nat) : State :=
  dropProvs (dropEmptySaves (sweepCopies (sweepReqs (withdraw s id fun b => b ≥ x && b ≥ floor) id x) id x)) id fun _ => true

theorem swept_bare {s : State} {id : Nat} {l : Launch} (there : tget s.launches id = some l) (bare : NoBlocks s id)
    (x floor : Nat) : NoBlocks (swept s id x floor) id ∧ siteFacts (swept s id x floor) = siteFacts s ∧
      tget (swept s id x floor).launches id = some (withdrawnFrom l fun b => b ≥ x && b ≥ floor) := by
  have clean : NoBlocks (sweepCopies (sweepReqs (withdraw s id fun b => b ≥ x && b ≥ floor) id x) id x) id :=
    noBlocks_of_cores (s := sweepReqs (withdraw s id fun b => b ≥ x && b ≥ floor) id x) rfl
      (noBlocks_sweepReqs (noBlocks_of_cores (s := s) rfl bare) id x)
  obtain ⟨facts, clean'⟩ := dropEmptySaves_keeps _ clean
  refine ⟨noBlocks_of_cores rfl clean', (sites_of_facts facts :), ?_⟩
  show tget (dropEmptySaves _).launches id = _
  rw [launches_of_facts facts]
  exact (tget_tmod ..).trans (by rw [there]; rfl)

/-- The machine once the launch is released with its counts. -/
def letGo (s : State) (id x : Nat) (l : Launch) : State :=
  wakeShapes (makeCertain (settleLaunch (swept s id x l.floor) id x false) id) id (min x l.limit)

theorem letGo_bare {s : State} {id : Nat} {l : Launch} (there : tget s.launches id = some l) (bare : NoBlocks s id)
    (x : Nat) : siteFacts (letGo s id x l) = siteFacts s ∧ tget (letGo s id x l).launches id =
      some (settled (withdrawnFrom l fun b => b ≥ x && b ≥ l.floor) x) := by
  obtain ⟨clean, sites, withdrawn'⟩ := swept_bare there bare x l.floor
  obtain ⟨now, sites'⟩ := tget_settleLaunch withdrawn' x
  have certain : launchFacts (letGo s id x l) = launchFacts (settleLaunch (swept s id x l.floor) id x false) :=
    makeCertain_bare (noBlocks_of_cores (cores_settleLaunch ..) clean)
  refine ⟨(sites_of_facts certain).trans (sites'.trans sites), ?_⟩
  rw [launches_of_facts certain]
  exact now

/-- A resolution by the shape word takes nothing back and commits nothing where no block has been placed. -/
theorem resolve_bare {s : State} {id : Nat} {l : Launch} (there : tget s.launches id = some l) (bare : Bare s id)
    (noLost : l.lost = []) (x : Nat) : resolve s id x false =
      launchDone (withShape (addTail (beyondLimit (letGo s id x l) id x) id x) l x) id := by
  unfold resolve
  simp only [there, sitesOf_noBlocks bare.blocks, provLines_bare bare, noLost, List.filterMap_nil, List.filter_nil,
    List.map_nil, List.foldl_nil]
  rfl

/-- The launch has its counts and its tail. -/
theorem tget_resolved {s : State} {id : Nat} {l : Launch} (there : tget s.launches id = some l) (bare : NoBlocks s id)
    (x : Nat) : ∃ u, siteFacts u = siteFacts s ∧
      siteFacts (addTail (beyondLimit (letGo s id x l) id x) id x) = siteFacts s ∧
      tget (addTail (beyondLimit (letGo s id x l) id x) id x).launches id =
        some (handOut u (resolvedLaunch l x) (tailBlocks l x)) := by
  obtain ⟨sites, now⟩ := letGo_bare there bare x
  obtain ⟨now', sites'⟩ := tget_beyondLimit now x
  obtain ⟨now'', sites''⟩ := tget_addTail now' x
  refine ⟨_, sites'.trans sites, sites''.trans (sites'.trans sites), now''.trans ?_⟩
  obtain ⟨limit, predicted'⟩ := limits_resolvedLaunch l x
  unfold resolvedLaunch at limit predicted' ⊢
  rw [limit, predicted']
  rfl

theorem launchDone_goes {s : State} {id : Nat} {l : Launch} (there : tget s.launches id = some l)
    (more : l.ended < l.total) : launchDone s id = s := by
  unfold launchDone
  rw [there]
  exact if_neg (by simp [Nat.not_le.2 more])

/-- The predictor's entry learns the shape (R396). -/
theorem predictorOf_withShape {u : State} {l : Launch} (known : (tget u.parts l.part).isSome = true) (x : Nat) :
    predictorOf (withShape u l x) l.part l.ktag.toNat =
      learn (predictorOf u l.part l.ktag.toNat) l.ktag l.mode (BitVec.ofNat 32 x) := by
  obtain ⟨p, hp⟩ := Option.isSome_iff_exists.1 known
  unfold predictorOf withShape
  simp only [tget_tmod, hp, Option.map_some]
  exact tgetD_tput ..

/-! The monitor (R393, R397). -/

section Monitor

variable {s : State} {id : Nat} {l : Launch} (there : tget s.launches id = some l)

include there

theorem exec_shape_resolved (over' : l.resolved = true) :
    exec (.shapeResolve id) s = .next s ∧ exec (.shapeTimeout id) s = .next s := by
  refine ⟨?_, ?_⟩
  · show execShapeResolve id s = _
    unfold execShapeResolve eventIf
    simp only [if_true, there, over']
  · show execShapeTimeout id s = _
    unfold execShapeTimeout eventIf
    simp only [if_true, there, over', Bool.true_or]

theorem exec_shapeTimeout_early (early : s.clock < l.deadline) : exec (.shapeTimeout id) s = .next s := by
  show execShapeTimeout id s = _
  unfold execShapeTimeout eventIf
  simp [there, early]

theorem exec_shapeTimeout_valid {pa v : Nat} (word : shapeWord s id l = .ok pa v) (valid : 2 ^ 63 ≤ v) :
    exec (.shapeTimeout id) s = .next s := by
  show execShapeTimeout id s = _
  unfold execShapeTimeout eventIf
  simp only [there, word, ge_iff_le, if_pos valid, ite_self]

variable (open' : l.resolved = false)

include open'

theorem exec_shapeResolve_ok {pa v : Nat} (word : shapeWord s id l = .ok pa v) : exec (.shapeResolve id) s = .next
    (if v ≥ 2 ^ 63 then resolve (dropAnswers s (shapeWho id)) id (v % 2 ^ 32) false else dropAnswers s (shapeWho id)) := by
  show execShapeResolve id s = _
  unfold execShapeResolve eventIf
  simp only [if_true, there, open', Bool.false_eq_true, if_false, word]

theorem exec_shapeResolve_busy {line : Nat} (word : shapeWord s id l = .busy line) : exec (.shapeResolve id) s =
    .next (wantLine s l.part line false none (shapeWho id)) := by
  show execShapeResolve id s = _
  unfold execShapeResolve eventIf
  simp only [if_true, there, open', Bool.false_eq_true, if_false, word]

variable (late : l.deadline ≤ s.clock)

include late

theorem exec_shapeTimeout_busy {line : Nat} (word : shapeWord s id l = .busy line) : exec (.shapeTimeout id) s =
    .next (wantLine s l.part line false none (shapeWho id)) := by
  show execShapeTimeout id s = _
  unfold execShapeTimeout eventIf
  simp only [if_true, there, open', Bool.false_or, decide_eq_true_eq, if_neg (Nat.not_lt.2 late), word]

/-- At the deadline a word without its valid bit resolves the launch to its floor. -/
theorem exec_shapeTimeout_floor (invalid : ∀ n w, shapeWord s id l = .ok n w → w < 2 ^ 63)
    (here : ∀ n, shapeWord s id l ≠ .busy n) : exec (.shapeTimeout id) s = .next (resolve s id l.floor true) := by
  show execShapeTimeout id s = _
  unfold execShapeTimeout eventIf
  simp only [if_true, there, open', Bool.false_or, decide_eq_true_eq, if_neg (Nat.not_lt.2 late)]
  cases word : shapeWord s id l with
  | ok pa v => exact congrArg _ (if_neg (Nat.not_le.2 (invalid pa v word)))
  | busy line => exact absurd word (here line)
  | fail n => rfl

end Monitor

theorem learn_cases (e : Pred) (tag : W32) (mode : Nat) (y : W32) : (mode = 3 → learn e tag mode y = e) ∧
    (mode ≠ 3 → e.tag ≠ tag → learn e tag mode y = { tag := tag, count := 1, h := [y] }) ∧
    (mode ≠ 3 → e.tag = tag →
      learn e tag mode y = { tag := tag, count := min (e.count + 1) 4, h := (y :: e.h).take 4 }) := by
  refine ⟨fun none => if_pos none, fun some' new => (if_neg some').trans (if_pos new), ?_⟩
  rintro some' rfl
  exact (if_neg some').trans (if_neg (not_not.2 rfl))

/-! Answers that are dropped leave the launch as it is. -/

theorem launchFacts_dropAnswers (s : State) (who : Nat) : launchFacts (dropAnswers s who) = launchFacts s :=
  launchFacts_of_besideReports (besideReports_dropAnswers s who)

theorem bare_dropAnswers {s : State} {id : Nat} (bare : Bare s id) (who : Nat) : Bare (dropAnswers s who) id := by
  unfold dropAnswers
  split
  · refine ⟨noBlocks_of_cores (s := s) rfl bare.blocks, fun p hp => ?_⟩
    obtain ⟨p', old, rfl⟩ := List.mem_map.1 hp
    exact bare.lines p' old
  · exact bare

/-! The statement. -/

/-- Settles O50: the monitor's cases, and the resolution of a launch none of whose blocks has been placed. -/
theorem shapesResolveLaunches : Obligations.ShapesResolveLaunches := by
  intro s id line v pa l open' x total bare
  refine ⟨fun ⟨there, op⟩ word invalid =>
      (exec_shapeResolve_ok there op word).trans (congrArg _ (if_neg (Nat.not_le.2 invalid))),
    fun ⟨there, op⟩ word late => exec_shapeTimeout_busy there op late word,
    fun ⟨there, op⟩ word => exec_shapeResolve_busy there op word,
    fun ⟨there, op⟩ word valid ⟨blocks, lines, noLost, more⟩ => ?_, learn_cases,
    fun ⟨there, op⟩ invalid here late => exec_shapeTimeout_floor there op late invalid here,
    fun ⟨there, _⟩ early => exec_shapeTimeout_early there early,
    fun ⟨there, _⟩ word valid => exec_shapeTimeout_valid there word valid,
    fun there over' => exec_shape_resolved there over'⟩
  let s' := dropAnswers s (shapeWho id)
  have facts : launchFacts s' = launchFacts s := launchFacts_dropAnswers ..
  have there' : tget s'.launches id = some l := (congrArg (tget · id) (launches_of_facts facts)).trans there
  have bare' : Bare s' id := bare_dropAnswers ⟨blocks, lines⟩ _
  obtain ⟨u, sites, sites', now⟩ := tget_resolved there' bare'.blocks x
  obtain ⟨ended, total', resolved', timedOut, shape, failed, pairs⟩ := facts_tail l x
  let t := withShape (addTail (beyondLimit (letGo s' id x l) id x) id x) l x
  have goes : launchDone t id = t := by
    refine launchDone_goes (s := t) now ?_
    show (resolvedLaunch l x).ended < (resolvedLaunch l x).total
    rw [ended, total']
    exact more
  have parts : (addTail (beyondLimit (letGo s' id x l) id x) id x).parts = s.parts :=
    (congrArg Prod.fst sites').trans (congrArg Prod.fst (sites_of_facts facts))
  have sitesU (m : Launch) : distSites u m = distSites s m :=
    distSites_congr (sites.trans (sites_of_facts facts)) m
  refine ⟨t, _, (exec_shapeResolve_ok there op word).trans (congrArg _ ((if_pos valid).trans
      ((resolve_bare there' bare' noLost x).trans goes))), now, resolved', timedOut, total', shape, failed, ended, ?_, ?_⟩
  · intro units some' b low high
    have sitesR : distSites u (resolvedLaunch l x) = distSites s l := (distSites_resolvedLaunch u l x).trans (sitesU l)
    have its : b ∈ tailBlocks l x := by simp [tailBlocks, low, high]
    obtain ⟨site, at', has⟩ := mem_handOut (s := u) (pairs.trans units) (sitesR.symm ▸ some') its
    exact ⟨site, sitesR ▸ at', has⟩
  · intro known
    have learned := predictorOf_withShape (u := addTail (beyondLimit (letGo s' id x l) id x) id x) (l := l)
      (parts.symm ▸ known) x
    refine learned.trans ?_
    unfold predictorOf
    rw [parts]

end Sys2Proof.Machine

/-! The host's window, the Glauk ports and the starts of the device (R409, R412, R413, R418-R421). -/

namespace Sys2Proof.Machine

open Sys2Proof

/-! An access of the host (R409). -/

theorem sealAt_of_besideHomes {s t : State} (h : besideHomes t = besideHomes s) (pa : Nat) : sealAt t pa = sealAt s pa :=
  (congrArg (fun u : State => sealAt u pa) h :)

theorem exec_hostAccess {s : State} {part : Nat} (hp : part < 8) (write : Bool) (addr : Nat) (bytes : List Byte) :
    exec (.hostAccess part write addr bytes) s = .next (hostNext s (part, write, addr, bytes)) :=
  (if_pos (decide_eq_true hp) : execHostAccess part write addr bytes s = _)

theorem hostNext_behind {s : State} {part : Nat} (behind : ¬ ∀ y ∈ s.dev.hostWaits, y.1 ≠ part) (write : Bool) (addr : Nat)
    (bytes : List Byte) : hostNext s (part, write, addr, bytes) =
      modDev s fun d => { d with hostWaits := d.hostWaits ++ [(part, write, addr, bytes)] } := by
  push Not at behind
  obtain ⟨y, hy, its⟩ := behind
  exact if_pos (List.any_eq_true.2 ⟨y, hy, by simpa using its⟩)

theorem hostNext_first {s : State} {part : Nat} (first : ∀ y ∈ s.dev.hostWaits, y.1 ≠ part) (write : Bool) (addr : Nat)
    (bytes : List Byte) : hostNext s (part, write, addr, bytes) = hostGo s part write addr bytes := by
  have free : (s.dev.hostWaits.any fun y => y.1 == part) = false :=
    List.any_eq_false.2 fun y hy => by simpa using first y hy
  exact if_neg (Bool.eq_false_iff.1 free)

/-- The first piece of the access whose line cannot be used as it stands. -/
def firstAway (s : State) (addr n : Nat) (write : Bool) : Option (Nat × Nat) :=
  (pieces 128 addr n).find? fun p => sealAt s p.1 == 0 && !usable s (p.1 / 128) write

theorem find?_plain (s : State) (addr n : Nat) (write : Bool) :
    ((pieces 128 addr n).filter fun p => sealAt s p.1 == 0).find? (fun p => !usable s (p.1 / 128) write) =
      firstAway s addr n write := by
  rw [List.find?_filter]
  unfold firstAway
  congr 1
  funext p
  cases sealAt s p.1 == 0 <;> cases usable s (p.1 / 128) write <;> rfl

section Go

variable {s : State} {part addr : Nat}

theorem hostGo_noWindow (none : (tget s.parts part).bind (·.window) = none) (write : Bool) (bytes : List Byte) :
    hostGo s part write addr bytes = hostAnswer s addr .none := by
  unfold hostGo
  simp [none]

theorem hostGo_insecure (bad : insecure s part = true) (write : Bool) (bytes : List Byte) :
    hostGo s part write addr bytes = hostAnswer s addr none :=
  if_pos (by simp [bad])

variable {base size : Nat} (window : (tget s.parts part).bind (·.window) = some (base, size))

include window

theorem hostGo_outside {bytes : List Byte} (outside : addr < base ∨ base + size < addr + bytes.length) (write : Bool) :
    hostGo s part write addr bytes = hostAnswer s addr none := by
  have no : (decide (base ≤ addr) && decide (addr + bytes.length ≤ base + size)) = false := by
    rw [Bool.and_eq_false_iff, decide_eq_false_iff_not, decide_eq_false_iff_not]
    omega
  unfold hostGo
  simp [window, no]

variable {bytes : List Byte} (low : base ≤ addr) (high : addr + bytes.length ≤ base + size)
variable (safe : insecure s part = false)

include low high safe

theorem hostGo_away {p : Nat × Nat} {write : Bool} (away : firstAway s addr bytes.length write = some p) :
    hostGo s part write addr bytes = wantLine
      (modDev s fun d => { d with hostWaits := d.hostWaits ++ [(part, write, addr, bytes)] }) part (p.1 / 128) write := by
  unfold hostGo
  simp only [window, low, high, safe, decide_true, Bool.and_true, Bool.not_true, Bool.or_false, Bool.false_eq_true,
    if_false, find?_plain, away]

theorem hostGo_here {write : Bool} (here : firstAway s addr bytes.length write = none) :
    hostGo s part write addr bytes =
      if write then
        if (pieces 128 addr bytes.length).any fun p => sealAt s p.1 == 2 then hostAnswer s addr none
        else hostAnswer (hostWrite s part (pieces 128 addr bytes.length) addr bytes) addr (some [])
      else hostAnswer s addr (some ((pieces 128 addr bytes.length).flatMap fun p =>
          if sealAt s p.1 = 0 then peekBytes s p.1 p.2 else memBytes s.mem p.1 p.2)) := by
  unfold hostGo
  simp only [window, low, high, safe, decide_true, Bool.and_true, Bool.not_true, Bool.or_false, Bool.false_eq_true,
    if_false, find?_plain, here]

end Go

/-- Pieces of no sealed window are written as by the homes. -/
theorem hostWrite_plain {s : State} (part addr : Nat) {ps : List (Nat × Nat)} (plain : ∀ p ∈ ps, sealAt s p.1 = 0)
    (bytes : List Byte) : hostWrite s part ps addr bytes =
      ps.foldl (fun u p => homeWriteBytes u part p.1 ((bytes.drop (p.1 - addr)).take p.2)) s := by
  unfold hostWrite
  induction ps generalizing s with
  | nil => rfl
  | cons p ps ih =>
    obtain ⟨here, rest⟩ := List.forall_mem_cons.1 plain
    rw [List.foldl_cons, List.foldl_cons, if_neg (by rw [here]; decide)]
    exact ih fun q hq => (sealAt_of_besideHomes (besideHomes_homeWriteBytes ..) _).trans (rest q hq)

/-! Glauk ports (R412, R413). -/

theorem exec_flitCrcFail {s : State} {port : Nat} (hp : port < 16) : exec (.flitCrcFail port) s = .next
    (if portUp s port then
       modDev s fun d => { d with replays := tins d.replays port (tgetD d.replays port 0 + 1) }
     else s) :=
  eventIf_true (decide_eq_true hp) ..

theorem exec_portFail {s : State} {port : Nat} (hp : port < 16) : exec (.portFail port) s = .next
    (if portUp s port then modDev s fun d => { d with portsFailed := sins d.portsFailed port } else s) :=
  eventIf_true (decide_eq_true hp) ..

theorem exec_linkTrain {s : State} {port : Nat} (hp : port < 16) (agent : Nat) : exec (.linkTrain port agent) s = .next
    (if s.dev.mode ≠ 0 then s
     else if agent = 0 || agent ≥ 63 || agent = s.dev.self then
       logEvent (modDev s fun d => { d with ports := tdel d.ports port }) 0x413 port
     else modDev s fun d => { d with ports := tins d.ports port agent, portsFailed := sdel d.portsFailed port }) :=
  (if_pos (decide_eq_true hp) : execLinkTrain port agent s = _)

theorem portUp_iff {s : State} {port : Nat} :
    portUp s port = true ↔ (tget s.dev.ports port).isSome = true ∧ smem s.dev.portsFailed port = false := by
  simp [portUp]

/-! The starts (R418-R421). -/

/-- The image and the base die pass, and the memory. -/
structure Passes (x : StartIn) : Prop where
  image : x.imagePresent = true
  signed : x.sigValid = true
  recent : x.versionOk = true
  die : x.baseDieOk = true
  hbm : x.hbmOk = true

/-- A start's first steps. -/
def opened (s : State) (x : StartIn) (r : BitVec 8) : State :=
  modDev s fun d => { d with cxl := x.cxl, reason := r, reasons := (r :: d.reasons).take 64, leaf := d.leafEnd,
                             leafEnd := min (d.leafEnd + 4096) (2 ^ 40), running := d.images }

theorem startOnce_noImage {s : State} {x : StartIn} (missing : x.imagePresent = false) (r : BitVec 8) :
    startOnce s x r = (romOnly (opened s x r) 0x12, none) :=
  if_pos (by rw [missing]; rfl)

theorem startOnce_unsigned {s : State} {x : StartIn} (image : x.imagePresent = true) (unsigned : x.sigValid = false)
    (r : BitVec 8) : startOnce s x r = (romOnly (opened s x r) 0x10, none) :=
  (if_neg (by rw [image]; decide)).trans (if_pos (by rw [unsigned]; rfl))

theorem startOnce_old {s : State} {x : StartIn} (image : x.imagePresent = true) (signed : x.sigValid = true)
    (old : x.versionOk = false) (r : BitVec 8) : startOnce s x r = (romOnly (opened s x r) 0x11, none) :=
  (if_neg (by rw [image]; decide)).trans ((if_neg (by rw [signed]; decide)).trans (if_pos (by rw [old]; rfl)))

/-- With every chiplet sound, a start goes on to its partitions. -/
theorem startOnce_sound {s : State} {x : StartIn} (passes : Passes x) (chips : x.chipletsOk = 0xFF)
    (whole : s.chiplets = []) (r : BitVec 8) :
    startOnce s x r = (startParts (opened s x r) x (List.range 8), none) := by
  have bad : ((List.range 8).filter fun c => !x.chipletsOk.getLsbD c) = [] := by
    rw [chips]
    decide
  have good : ((List.range 8).filter fun c => !(chipOf (opened s x r) c).dropped) = List.range 8 := by
    refine List.filter_eq_self.2 fun c _ => ?_
    have none : chipOf (opened s x r) c = {} := congrArg (fun t : Tab Chiplet => tgetD t c {}) whole
    rw [none]
    rfl
  unfold opened at good ⊢
  unfold startOnce
  simp only [passes.image, passes.signed, passes.recent, passes.die, passes.hbm, bad, List.foldl_nil, good, Bool.not_true,
    Bool.false_eq_true, if_false]
  rfl

theorem startGo_once {s t : State} {x : StartIn} {r : BitVec 8} (once : startOnce s x r = (t, none)) (n : Nat) :
    startGo (n + 1) s x r = t := by
  unfold startGo
  rw [once]

/-- Chiplets that were not dropped are as after a cold start. -/
theorem chiplets_afterReset {s : State} (whole : ∀ p ∈ s.chiplets, p.2.dropped = false) (cold : Bool) :
    (afterReset s cold).chiplets = [] := by
  cases cold
  · exact List.filter_eq_nil_iff.2 fun p hp => by simp [whole p hp]
  · rfl

/-- A start without partitions of its own, in the normal mode. -/
theorem startParts_none {s : State} {x : StartIn} (few : s.dev.fails.toNat < 3) (parts : x.parts = []) (good : List Nat) :
    startParts s x good = modDev s fun d =>
      { d with ready := x.ready, self := x.agent, agents := x.agents.foldl (fun t a => tins t a.1 a.2) d.agents } := by
  unfold startParts
  rw [if_neg (Nat.not_le.2 few), parts]
  rfl

/-- After three failed starts the device keeps its first chiplet. -/
theorem dev_startParts_minimal {s : State} {x : StartIn} (failed : 3 ≤ s.dev.fails.toNat) (good : List Nat) :
    (startParts s x good).dev = { s.dev with mode := 1, keptChiplet := good.headD 0, ready := x.ready } := by
  unfold startParts
  rw [if_pos failed]
  rfl

/-! The statement. -/

/-- Settles O54: the host's accesses, the ports, and the starts by their causes. -/
theorem hostLinksAndStarts : Obligations.HostLinksAndStarts := by
  intro s part addr port agent base size bytes x write ok host n inWindow clear first up d warm more bad proper sound whole
  have accessed (hp : part < 8) (fst : first) {w : Bool} {t : State} (is : hostGo s part w addr bytes = t) :
      exec (.hostAccess part w addr bytes) s = .next t :=
    (exec_hostAccess hp w addr bytes).trans (congrArg _ ((hostNext_first fst w addr bytes).trans is))
  have passes (it : sound) : Passes x := by
    obtain ⟨⟨image, signed, recent⟩, die, hbm⟩ := it
    exact ⟨image, signed, recent, die, hbm⟩
  have here {w : Bool} (it : ∀ p ∈ pieces 128 addr n, sealAt s p.1 = 0 → usable s (p.1 / 128) w = true) :
      firstAway s addr bytes.length w = none := by
    refine List.find?_eq_none.2 fun p hp => ?_
    by_cases plain : sealAt s p.1 = 0
    · simp [it p hp plain]
    · simp [plain]
  refine ⟨fun hp fst none => accessed hp fst (hostGo_noWindow none write bytes),
    fun hp fst window outside => accessed hp fst (hostGo_outside window outside write),
    fun hp fst open' => accessed hp fst (hostGo_insecure open' write bytes),
    fun hp behind => (exec_hostAccess hp write addr bytes).trans (congrArg _ (hostNext_behind behind write addr bytes)),
    fun p hp fst ⟨window, low, high⟩ safe away => accessed hp fst (hostGo_away window low high safe away),
    fun hp fst ⟨window, low, high⟩ safe plain isRead => accessed hp fst ?_,
    fun hp fst ⟨window, low, high⟩ safe plain isWrite => ?_,
    fun hp fst ⟨window, low, high⟩ safe sealed' plain => accessed hp fst ?_,
    fun hp it => (exec_flitCrcFail hp).trans (congrArg _ (if_pos (portUp_iff.2 it))),
    fun hp it => ⟨_, (exec_portFail hp).trans (congrArg _ (if_pos (portUp_iff.2 it))), ?_, rfl⟩,
    fun hp it => ⟨(exec_flitCrcFail hp).trans (congrArg _ (if_neg (mt portUp_iff.1 it))),
      (exec_portFail hp).trans (congrArg _ (if_neg (mt portUp_iff.1 it)))⟩,
    fun hp normal low high other => ?_, fun hp normal no => ?_,
    fun hp other => (exec_linkTrain hp agent).trans (congrArg _ (if_pos other)),
    ⟨startCold s x, rfl, fun it ready chips parts => ?_⟩,
    ⟨startCold s x, rfl, fun it => ?_, fun missing => ?_, fun image unsigned => ?_, fun image signed old => ?_⟩,
    fun it failed ⟨chips, whole'⟩ => ?_, fun r t it few ⟨chips, whole'⟩ parts is => ?_,
    rfl, rfl, rfl, fun late other => congrArg _ (if_neg ?_), fun it => congrArg _ (if_pos ?_),
    fun alone => congrArg _ (if_pos alone), fun standby => congrArg _ (if_neg (Nat.not_le.2 standby)), rfl,
    fun other => congrArg _ (if_pos other), fun rom => congrArg _ ((if_neg (not_not.2 rom)).trans (if_pos rfl)),
    fun rom => ⟨logEvent s 0x419 0, congrArg _ ((if_neg (not_not.2 rom)).trans (if_neg Bool.false_ne_true)), rfl, rom⟩⟩
  · subst isRead
    refine (hostGo_here window low high safe (here fun p hp _ => (plain p hp).2)).trans ?_
    refine congrArg (fun bs => hostAnswer s addr (some bs)) (List.flatMap_congr fun p hp => ?_)
    exact if_pos (plain p hp).1
  · subst isWrite
    have none : ((pieces 128 addr n).any fun p => sealAt s p.1 == 2) = false :=
      List.any_eq_false.2 fun p hp => by simp [(plain p hp).1]
    have writes := (hostGo_here window low high safe (here fun p hp _ => (plain p hp).2)).trans
      ((if_pos rfl).trans (if_neg (Bool.eq_false_iff.1 none)))
    refine ⟨_, accessed hp fst writes, ?_, rfl⟩
    show (hostWrite s part (pieces 128 addr n) addr bytes).mem = _
    rw [hostWrite_plain part addr (fun p hp => (plain p hp).1) bytes]
  · have some' : ((pieces 128 addr n).any fun p => sealAt s p.1 == 2) = true := by
      obtain ⟨p, hp, is⟩ := sealed'
      exact List.any_eq_true.2 ⟨p, hp, beq_iff_eq.2 is⟩
    exact (hostGo_here window low high safe (here plain)).trans ((if_pos rfl).trans (if_pos some'))
  · have down : smem (sins d.portsFailed port) port = true := contains_sins ..
    exact Bool.eq_false_iff.2 fun works => Bool.false_ne_true ((portUp_iff.1 works).2.symm.trans down)
  · have joins : ¬ (agent = 0 || agent ≥ 63 || agent = s.dev.self) = true := by
      simp only [Bool.or_eq_true, decide_eq_true_eq, not_or]
      exact ⟨⟨by omega, by omega⟩, other⟩
    refine ⟨_, (exec_linkTrain hp agent).trans (congrArg _ ((if_neg (not_not.2 normal)).trans (if_neg joins))),
      tget_tins .., portUp_iff.2 ⟨?_, ?_⟩⟩
    · exact congrArg Option.isSome (tget_tins ..)
    · simp [modDev, smem, sdel]
  · have refuses : (agent = 0 || agent ≥ 63 || agent = s.dev.self) = true := by
      simp only [Bool.or_eq_true, decide_eq_true_eq, or_assoc]
      exact no
    exact ⟨_, (exec_linkTrain hp agent).trans (congrArg _ ((if_neg (not_not.2 normal)).trans (if_pos refuses))),
      tget_tdel .., List.mem_append_right _ (List.mem_singleton_self _)⟩
  · have once := startOnce_sound (passes it) chips (show (afterReset s true).chiplets = [] from rfl) 0x00
    have starts := startGo_once once 3
    rw [show startCold s x = _ from starts,
      startParts_none (s := opened (afterReset s true) x 0x00) (by decide : 0 < 3) parts]
    exact ⟨rfl, ready, rfl, rfl, rfl, rfl, rfl, rfl, rfl, rfl, rfl, fun _ => rfl⟩
  · have rom {r : BitVec 8} (once : startOnce (afterReset s true) x 0x00 =
        (romOnly (opened (afterReset s true) x 0x00) r, none)) : bad (startCold s x) := by
      rw [show startCold s x = _ from startGo_once once 3]
      exact ⟨rfl, rfl, rfl, rfl, rfl⟩
    cases image : x.imagePresent with
    | false => exact rom (startOnce_noImage image 0x00)
    | true =>
      cases signed : x.sigValid with
      | false => exact rom (startOnce_unsigned image signed 0x00)
      | true =>
        cases recent : x.versionOk with
        | false => exact rom (startOnce_old image signed recent 0x00)
        | true => exact absurd ⟨image, signed, recent⟩ it
  · exact congrArg (·.dev.reason) (startGo_once (startOnce_noImage missing 0x00) 3)
  · exact congrArg (·.dev.reason) (startGo_once (startOnce_unsigned image unsigned 0x00) 3)
  · exact congrArg (·.dev.reason) (startGo_once (startOnce_old image signed old 0x00) 3)
  · have once := startOnce_sound (passes it) chips (chiplets_afterReset whole' false) 0x01
    rw [show startWarm s x 0x01 = _ from startGo_once once 3,
      dev_startParts_minimal (s := opened (afterReset s false) x 0x01) failed]
    exact ⟨rfl, rfl⟩
  · have once := startOnce_sound (passes it) chips (chiplets_afterReset whole' false) r
    rw [is, show startWarm s x r = _ from startGo_once once 3,
      startParts_none (s := opened (afterReset s false) x r) few parts]
    exact ⟨rfl, rfl, rfl, rfl, rfl, rfl, rfl, rfl, rfl, rfl⟩
  · rw [show s.dev.ready = false from late, Bool.false_or, decide_eq_true_eq]
    exact other
  · rw [Bool.or_eq_true, decide_eq_true_eq]
    exact it

end Sys2Proof.Machine
